-- ==== Sys2Proof/Word.lean ====
section
/-! DEFINITION. The word types of the K4: 64-bit scalar values, 32-bit lanes and words of code, bytes, register fields. -/

namespace Sys2Proof

/-- A 64-bit scalar value or memory word (05 R119). -/
abbrev W64 := BitVec 64
/-- A 32-bit vector lane, accumulator element or word of code (05 R119, 08 R216). -/
abbrev W32 := BitVec 32
/-- A byte of memory (00 R5). -/
abbrev Byte := BitVec 8
/-- A six-bit operand field of an instruction (08 R218, R220). -/
abbrev Fld := BitVec 6
/-- The 1,024 lanes of a predicate register, lane k in bit k (09 R258). -/
abbrev Lanes := BitVec 1024

end Sys2Proof
end

