-- ==== Sys2Proof/Config.lean ====
section
/-! DEFINITION. What an implementation fixes, and the free values: opaque constants with no body, one for every value the
spec leaves open after an instruction that goes on. -/

namespace Sys2Proof.Config

/-- A scalar, predicate, branch-target or CSR value read inside its producer's bound (08 R235): keyed by the free-value
counter and the register. -/
opaque freeWord : Nat → Nat → W64
/-- A predicate value read inside its producer's bound (08 R235). -/
opaque freeLanes : Nat → Nat → Lanes
/-- A lane of an undefined vector register (10 R279, 08 R235): keyed by the free-value tag and the lane. -/
opaque freeLane : Nat → Nat → W32
/-- A choice between two values the spec allows (08 R235, 14 R390), keyed by the free-value counter and the place. -/
opaque freeChoice : Nat → Nat → Bool
/-- Which of the two binary32 neighbours a faithful special function returns (10 R293): true for the upper one; keyed by the
function (0 exp, 1 ln, 2 tanh) and the operand bits, so it is one fixed function of the operand. -/
opaque faithfulUp : Nat → W32 → Bool
/-- An SLI index the model's bounded precision could not round (05 R128): keyed by the operation and its operand indexes. -/
opaque sliIndex : Nat → Nat → Nat → Nat
/-- A correctly rounded special function that the model's bounded precision could not round (10 R293): true for the upper neighbour. -/
opaque roundUp : Nat → Nat → Bool
/-- The selector bit of the element that a NaN quantises to (05 R142): the rule gives its magnitude and sign, and no error to select by;
keyed by the element type and the sign. -/
opaque bxNanSel : Nat → Bool → Bool
/-- The firmware image that the package's boot flash holds at manufacture (21 R465): the spec gives it no contents. -/
opaque factoryImage : List Byte
/-- The firmware version in the header of an image (21 R467), whose layout the spec does not give. -/
opaque firmwareVersion : List Byte → W64
/-- The RSA-3072 signature of a digest under the device's identity key, byte by byte (21 R467): the key is never readable. -/
opaque signature : List Byte → Nat → Byte

end Sys2Proof.Config
end

