-- ==== Sys2Proof/Machine/Map.lean ====
section
/-! DEFINITION. Sparse storage by number: a list of key and value pairs in one canonical form, keys strictly rising, and the
bit-field helpers that every later file uses. -/

namespace Sys2Proof.Machine

/-- Sparse storage by number. Canonical: keys strictly rising, and (with a default) no entry equal to the default. -/
abbrev SMap (α : Type) := List (Nat × α)

namespace SMap

/-- What is stored under a key, if anything. -/
def find? {α : Type} (m : SMap α) (k : Nat) : Option α := (List.find? (fun e => e.1 == k) m).map (·.2)

/-- What is stored under a key, or the default. -/
def get {α : Type} (d : α) (m : SMap α) (k : Nat) : α := (find? m k).getD d

/-- The map without one key. -/
def del {α : Type} (m : SMap α) (k : Nat) : SMap α := m.filter (fun e => e.1 != k)

/-- An entry placed before the first larger key. -/
def ins {α : Type} (m : SMap α) (k : Nat) (v : α) : SMap α :=
  match m with
  | [] => [(k, v)]
  | e :: t => if k < e.1 then (k, v) :: e :: t else e :: ins t k v

/-- The map with a value under a key. -/
def put {α : Type} (m : SMap α) (k : Nat) (v : α) : SMap α := ins (del m k) k v

/-- The map with a value under a key, where an entry equal to the default is not kept. -/
def set {α : Type} [DecidableEq α] (d : α) (m : SMap α) (k : Nat) (v : α) : SMap α :=
  if v = d then del m k else put m k v

/-- The map with the value under a key changed by a function; nothing when the key is absent. -/
def upd {α : Type} (m : SMap α) (k : Nat) (f : α → α) : SMap α := m.map (fun e => if e.1 == k then (k, f e.2) else e)

/-- The map without the entries whose key and value the test rejects. -/
def keep {α : Type} (m : SMap α) (p : Nat → α → Bool) : SMap α := m.filter (fun e => p e.1 e.2)

/-- The map with everything under keys lo to hi - 1 replaced by the entries given, which lie there in rising order. -/
def splice {α : Type} (m : SMap α) (lo hi : Nat) (new : SMap α) : SMap α :=
  m.filter (fun e => e.1 < lo) ++ new ++ m.filter (fun e => hi ≤ e.1)

/-- The entries under keys lo to hi - 1. -/
def slice {α : Type} (m : SMap α) (lo hi : Nat) : SMap α := m.filter (fun e => lo ≤ e.1 && e.1 < hi)

/-- The values under n consecutive keys from lo on, of a slice that holds no smaller key. -/
def dense {α : Type} (d : α) (m : SMap α) (lo : Nat) : Nat → List α
  | 0 => []
  | n + 1 =>
    match m with
    | e :: t => if e.1 = lo then e.2 :: dense d t (lo + 1) n else d :: dense d m (lo + 1) n
    | [] => d :: dense d [] (lo + 1) n

/-- Consecutive values as entries, the default left out. -/
def entries {α : Type} [DecidableEq α] (d : α) : Nat → List α → SMap α
  | _, [] => []
  | k, v :: t => if v = d then entries d (k + 1) t else (k, v) :: entries d (k + 1) t

/-- Keys strictly rising. -/
def rising {α : Type} : SMap α → Bool
  | [] => true
  | [_] => true
  | e :: e' :: t => e.1 < e'.1 && rising (e' :: t)

/-- The canonical form with a default: keys strictly rising, no entry equal to the default. -/
def canon {α : Type} [DecidableEq α] (d : α) (m : SMap α) : Bool := rising m && m.all (fun e => e.2 ≠ d)

end SMap

/-- Bits hi..lo of a word, as a number. -/
def bits {n : Nat} (w : BitVec n) (hi lo : Nat) : Nat := (w.toNat >>> lo) % 2 ^ (hi + 1 - lo)

/-- One bit of a word. -/
def bit {n : Nat} (w : BitVec n) (k : Nat) : Bool := w.getLsbD k

/-- A word with bits hi..lo replaced by the low bits of a number. -/
def setBits {n : Nat} (w : BitVec n) (hi lo v : Nat) : BitVec n :=
  let m := BitVec.ofNat n ((2 ^ (hi + 1 - lo) - 1) <<< lo)
  (w &&& ~~~m) ||| (BitVec.ofNat n ((v % 2 ^ (hi + 1 - lo)) <<< lo))

/-- A Boolean as the number 0 or 1. -/
def b2n (b : Bool) : Nat := if b then 1 else 0

/-- The low w bits of an integer as a word. -/
def ofInt (n : Nat) (x : Int) : BitVec n := BitVec.ofInt n x

/-- Little-endian bytes of a number (00 R5). -/
def toBytes : Nat → Nat → List Byte
  | 0, _ => []
  | k + 1, v => BitVec.ofNat 8 v :: toBytes k (v / 256)

/-- The number that little-endian bytes hold (00 R5). -/
def ofBytes : List Byte → Nat
  | [] => 0
  | b :: t => b.toNat + 256 * ofBytes t

/-- The numbers lo, lo+1, …, lo+n-1. -/
def span (lo n : Nat) : List Nat := (List.range n).map (lo + ·)

/-- The set bits of a mask, ascending, below n. -/
def setBitsOf (n m : Nat) : List Nat := (List.range n).filter (fun k => m.testBit k)

/-- How many bits of a mask are set, below n. -/
def popCount (n m : Nat) : Nat := (setBitsOf n m).length

/-- Applies a step to a state for each element of a list. -/
def foldOver {σ β : Type} (s : σ) (l : List β) (f : σ → β → σ) : σ := l.foldl f s

end Sys2Proof.Machine
end

