-- ==== Sys2Proof/Syntax.lean ====
section
/-! DEFINITION. The instructions and events of the K4: one constructor for each row of spec/opcode_table.json. -/

namespace Sys2Proof

/-- Arithmetic modifier word before an instruction, kind 00 (08 R222). -/
structure Arith where
  sat : Bool
  rnd : BitVec 3
  tov : Bool
  ty : BitVec 4
  deriving DecidableEq, Repr

/-- Loop-position modifier word, kind 01 (08 R222, 06 R169). -/
inductive LoopPos where
  | first (level : BitVec 3)
  | last (level : BitVec 3)
  | stage (k : BitVec 3)
  deriving DecidableEq, Repr

/-- The modifier words of a unit (08 R217, R222): arithmetic, loop position, and whether a register extension stands
there; the extension's fields are the unit's p and e. -/
structure Mods where
  ar : Option Arith
  lp : Option LoopPos
  ex : Bool
  deriving DecidableEq, Repr

/-- One unit's fields, as the internal word of 08 R228 holds them: modifiers, issue gap, governing predicate, operand fields,
minor opcode, and the immediate extended as the form says (08 R228, contents of U). -/
structure U where
  m : Mods
  g : BitVec 4
  p : Fld
  a : Fld
  b : Fld
  c : Fld
  e : Fld
  mi : BitVec 4
  imm : W32
  deriving DecidableEq, Repr

/-- An engine command queue: the engine's kind and number and the core whose commands the queue holds (12 R331, 10 R303). -/
inductive Eng where
  /-- Matrix half h of a core. -/
  | mxh (core half : Nat)
  /-- The vector-chain queue of one side of a core. -/
  | vch (core side : Nat)
  /-- Device-wide copy engine `cpe`, the queue of `core`. -/
  | cpe (cpe core : Nat)
  /-- The send-list engine of a cluster, the queue of `core`. -/
  | snd (clu core : Nat)
  deriving DecidableEq, Repr

/-- Where an uncorrectable error strikes a line or a row (14 R394). -/
inductive Place where
  | phys (a : Nat)
  | spad (clu ca : Nat)
  | accRow (core row : Nat)
  deriving DecidableEq, Repr

/-- Which device-held structure has an error (14 R396). -/
inductive Struct where
  | tlbEntry (k : Nat)
  | codeLine (k : Nat)
  | l2Line (a : Nat)
  | calSlot (cls idx slot : Nat)
  | record (handle : W32)
  deriving DecidableEq, Repr

/-- One line part of a WRITE flit: window line, start byte in the line, poison bit, bytes (17 R440). -/
structure Part where
  line : Nat
  start : Nat
  psn : Bool
  data : List Byte
  deriving DecidableEq, Repr

/-- A fabric flit without its link trailer (17 R440): header fields, line parts, and the three words of slot 0 that messages use. -/
structure Flit where
  kind : Nat
  src : Nat
  dst : Nat
  tag : Nat
  clu : Nat
  arv : Bool
  aoff : Nat
  parts : List Part
  w0 : W64
  w1 : W64
  w2 : W64
  deriving DecidableEq, Repr

/-- One constructor for each row of the table of operations and events. -/
inductive Instr where
  /-- ADD (R249): Writes sb + sc to sd, wrapping or saturating under .sat. -/
  | add (u : U)
  /-- SUB (R249): Writes sb - sc to sd, wrapping or saturating under .sat. -/
  | sub (u : U)
  /-- AND (R249): Writes the bitwise AND of sb and sc to sd. -/
  | and (u : U)
  /-- OR (R249): Writes the bitwise OR of sb and sc to sd. -/
  | or (u : U)
  /-- XOR (R249): Writes the bitwise XOR of sb and sc to sd. -/
  | xor (u : U)
  /-- SHL (R249): Shifts sb left by sc[5:0] into sd, clamping under .sat. -/
  | shl (u : U)
  /-- SHR (R249): Shifts sb right by sc[5:0] with zeros shifted in, into sd. -/
  | shr (u : U)
  /-- SAR (R249): Shifts sb right by sc[5:0] with the sign shifted in, into sd. -/
  | sar (u : U)
  /-- ROL (R249): Rotates sb left by sc[5:0] into sd. -/
  | rol (u : U)
  /-- MIN (R249): Writes the signed minimum of sb and sc to sd. -/
  | min (u : U)
  /-- MAX (R249): Writes the signed maximum of sb and sc to sd. -/
  | max (u : U)
  /-- MUL (R250): Writes the low 64 bits of sb times sc to sd, or the clamped product under .sat. -/
  | mul (u : U)
  /-- MULH (R250): Writes bits 127:64 of the signed product of sb and sc to sd. -/
  | mulh (u : U)
  /-- DIV (R250): Writes the signed quotient of sb by sc, rounded per the rounding code, setting DZI on division by zero. -/
  | div (u : U)
  /-- REM (R250): Writes the signed remainder of sb by sc for the rounded quotient, setting DZI on division by zero. -/
  | rem (u : U)
  /-- CLZ (R251): Writes the count of leading zero bits of sb to sd. -/
  | clz (u : U)
  /-- POPC (R251): Writes the count of set bits of sb to sd. -/
  | popc (u : U)
  /-- MOV (R251): Copies sb to sd. -/
  | mov (u : U)
  /-- CMP (R257): Writes every lane of pd with the signed or unsigned comparison of sb and sc selected by the condition minor. -/
  | cmp (u : U)
  /-- ADDI (R252): Adds the sign-extended 10-bit immediate to sb into sd. -/
  | addi (u : U)
  /-- ADDI_X (R252): Adds the sign-extended 32-bit immediate to sb into sd (64-bit form Y). -/
  | addiX (u : U)
  /-- LEA (R255): Writes sb + (sc << N) to sd with the shift N held in the minor. -/
  | lea (u : U)
  /-- LEA_X (R255): Writes sb + (sc << N) + sext(IMM16) to sd (64-bit form X). -/
  | leaX (u : U)
  /-- PAND (R258): Writes pb AND pc to pd lane by lane. -/
  | pand (u : U)
  /-- POR (R258): Writes pb OR pc to pd lane by lane. -/
  | por (u : U)
  /-- PXOR (R258): Writes pb XOR pc to pd lane by lane. -/
  | pxor (u : U)
  /-- PNOT (R258): Writes NOT pb to pd lane by lane. -/
  | pnot (u : U)
  /-- PMOV (R258): Copies pb to pd. -/
  | pmov (u : U)
  /-- PCNT (R258): Writes the number of true lanes of pb to sd. -/
  | pcnt (u : U)
  /-- PSETI (R259): Sets lanes 0 to n-1 of pd true and all other lanes false. -/
  | pseti (u : U)
  /-- MOVI (R253): Sets sd to the sign-extended 32-bit immediate. -/
  | movi (u : U)
  /-- LUI (R253): Sets sd to the immediate in bits 63:32 ORed with sb[31:0]. -/
  | lui (u : U)
  /-- EXT (R254): Extracts a bit field of sb into sd, zero- or sign-extended. -/
  | ext (u : U)
  /-- INS (R254): Inserts the low bits of sb into a field of sd, keeping its other bits. -/
  | ins (u : U)
  /-- SEL (R256): Writes sb or sc to sd according to lane 0 of pe. -/
  | sel (u : U)
  /-- VOTE_ANY (R260): Writes a uniform pd that is true when some lane has pb AND pc. -/
  | voteAny (u : U)
  /-- VOTE_ALL (R260): Writes a uniform pd that is true when every lane with pc true has pb true. -/
  | voteAll (u : U)
  /-- BR_PREP (R261): Writes a PC-relative branch target into a branch-target register and may hint a fetch of the target. -/
  | brPrep (u : U)
  /-- BR_PREP_X (R261): Writes a 32-bit-offset or register-based branch target into a branch-target register (64-bit form Y). -/
  | brPrepX (u : U)
  /-- BR_GO (R263): Runs n delay slots and then transfers to the target if the uniform predicate is true, faulting on a non-uniform predicate. -/
  | brGo (u : U)
  /-- CALL (R268): Pushes the return address and transfers to a branch-target register after n delay slots. -/
  | call (u : U)
  /-- CALL_X (R268): Pushes the return address and transfers to a PC-relative or register-based target after n delay slots (64-bit form Y). -/
  | callX (u : U)
  /-- RET (R269): Pops the newest return address and transfers to it after n delay slots, faulting when the store is empty. -/
  | ret (u : U)
  /-- LOOP_CFG (R271): Reads a 64-byte loop descriptor from memory into the descriptor register. -/
  | loopCfg (u : U)
  /-- LOOP_GO (R272): Checks the descriptor, captures the loop body and runs the hardware loop nest. -/
  | loopGo (u : U)
  /-- LOOP_BRK (R273): Ends the active nest after the current pass when its uniform predicate is true. -/
  | loopBrk (u : U)
  /-- NOP (R274): Does nothing for one issue cycle. -/
  | nop (u : U)
  /-- NOP_W (R274): Delays the agent's next issue by n cycles. -/
  | nopW (u : U)
  /-- HALT (R275): Stops a sidecar, or acts as TASK.EXIT on a thread slot. -/
  | halt (u : U)
  /-- BRK (R276): Completes and raises the breakpoint trap with reason BRK and the given code. -/
  | brk (u : U)
  /-- TRACE_MARK (R277): Appends a MARK trace record with a 12-bit tag and the value of sa when tracing is enabled. -/
  | traceMark (u : U)
  /-- TRACE_MARK_X (R277): Appends a MARK trace record with a 32-bit tag and the value of sa (64-bit form Y). -/
  | traceMarkX (u : U)
  /-- LD_B (R311): Loads one byte from context virtual space into sd, zero-extended. -/
  | ldB (u : U)
  /-- LD_H (R311): Loads two bytes from context virtual space into sd, zero-extended. -/
  | ldH (u : U)
  /-- LD_W (R311): Loads four bytes from context virtual space into sd, zero-extended. -/
  | ldW (u : U)
  /-- LD_D (R311): Loads eight bytes from context virtual space into sd. -/
  | ldD (u : U)
  /-- LD_B_SP (R311): Loads one byte from scratchpad space into sd, holding issue until the bank serves it. -/
  | ldBSp (u : U)
  /-- LD_H_SP (R311): Loads two bytes from scratchpad space into sd. -/
  | ldHSp (u : U)
  /-- LD_W_SP (R311): Loads four bytes from scratchpad space into sd. -/
  | ldWSp (u : U)
  /-- LD_D_SP (R311): Loads eight bytes from scratchpad space into sd. -/
  | ldDSp (u : U)
  /-- ST_B (R311): Stores the low byte of sa to context virtual space. -/
  | stB (u : U)
  /-- ST_H (R311): Stores the low two bytes of sa to context virtual space. -/
  | stH (u : U)
  /-- ST_W (R311): Stores the low four bytes of sa to context virtual space. -/
  | stW (u : U)
  /-- ST_D (R311): Stores sa to eight bytes of context virtual space. -/
  | stD (u : U)
  /-- ST_B_SP (R311): Stores the low byte of sa to scratchpad space. -/
  | stBSp (u : U)
  /-- ST_H_SP (R311): Stores the low two bytes of sa to scratchpad space. -/
  | stHSp (u : U)
  /-- ST_W_SP (R311): Stores the low four bytes of sa to scratchpad space. -/
  | stWSp (u : U)
  /-- ST_D_SP (R311): Stores sa to eight bytes of scratchpad space. -/
  | stDSp (u : U)
  /-- LDX (R313): Ordinary 64-bit-form load with size, sign-extension, space and 16-bit offset. -/
  | ldx (u : U)
  /-- LD_ACQ (R313): Acquire load of the given scope; later accesses wait for its value. -/
  | ldAcq (u : U)
  /-- LD_RLX (R313): Strong relaxed load of the given scope. -/
  | ldRlx (u : U)
  /-- STX (R313): Ordinary 64-bit-form store with size, space and 16-bit offset. -/
  | stx (u : U)
  /-- ST_REL (R313): Release store performed after every earlier access, closing the path at .clu or wider. -/
  | stRel (u : U)
  /-- ST_RLX (R313): Strong relaxed store of the given scope. -/
  | stRlx (u : U)
  /-- AMO_ADD (R316): Atomically adds sc to the word at [sn] and returns the old value. -/
  | amoAdd (u : U)
  /-- AMO_MIN (R316): Atomically stores the signed or unsigned minimum and returns the old value. -/
  | amoMin (u : U)
  /-- AMO_MAX (R316): Atomically stores the signed or unsigned maximum and returns the old value. -/
  | amoMax (u : U)
  /-- AMO_AND (R316): Atomically ANDs sc into the word and returns the old value. -/
  | amoAnd (u : U)
  /-- AMO_OR (R316): Atomically ORs sc into the word and returns the old value. -/
  | amoOr (u : U)
  /-- AMO_XOR (R316): Atomically XORs sc into the word and returns the old value. -/
  | amoXor (u : U)
  /-- AMO_SWAP (R316): Atomically replaces the word with sc and returns the old value. -/
  | amoSwap (u : U)
  /-- AMO_CAS (R317): Atomically writes sc when the word equals se and returns the old value. -/
  | amoCas (u : U)
  /-- AMO_ADDL (R318): Atomically adds sc to the SLI32 word with index rounding and returns the old value. -/
  | amoAddl (u : U)
  /-- PREF (R322): Hints allocation of a line in L2 under the write-back policy, never faulting. -/
  | pref (u : U)
  /-- FENCE (R320): Waits for earlier accesses, publishes and joins race state, and closes the path at .clu or wider. -/
  | fence (u : U)
  /-- FENCE_XP (R321): Waits for earlier ordinary stores to be performed and closes the agent's path. -/
  | fenceXp (u : U)
  /-- TOK_WAIT (R323): Waits for and consumes up to three token registers, joining their state. -/
  | tokWait (u : U)
  /-- TOK_TEST (R323): Reads a token register's count into sd without consuming it. -/
  | tokTest (u : U)
  /-- TOK_ADD (R323): Closes the path and produces a token carrying the agent's state. -/
  | tokAdd (u : U)
  /-- ARRIVE_SET (R324): Writes an arrival word with a strong .sys write and empties its hidden states. -/
  | arriveSet (u : U)
  /-- ARRIVE_WAIT (R325): Waits until an arrival word's generation differs from the one named, then joins its episode state. -/
  | arriveWait (u : U)
  /-- Q_PUSH (R326): Appends sb to a data queue, spilling to the ring when full. -/
  | qPush (u : U)
  /-- Q_POP (R326): Removes the oldest queue entry into sd, waiting while empty. -/
  | qPop (u : U)
  /-- Q_POPP (R326): Removes the oldest queue entry and writes a uniform predicate of whether it is non-zero. -/
  | qPopp (u : U)
  /-- Q_PEEK (R326): Reads the oldest queue entry into sd without removing it. -/
  | qPeek (u : U)
  /-- VADD (R283): Adds two vectors lane by lane in the element type. -/
  | vadd (u : U)
  /-- VSUB (R283): Subtracts two vectors lane by lane. -/
  | vsub (u : U)
  /-- VMUL (R283): Multiplies two vectors lane by lane. -/
  | vmul (u : U)
  /-- VMIN (R283): Takes the lane-wise minimum of two vectors. -/
  | vmin (u : U)
  /-- VMAX (R283): Takes the lane-wise maximum of two vectors. -/
  | vmax (u : U)
  /-- VAND (R284): Bitwise AND of two integer vectors. -/
  | vand (u : U)
  /-- VOR (R284): Bitwise OR of two integer vectors. -/
  | vor (u : U)
  /-- VXOR (R284): Bitwise XOR of two integer vectors. -/
  | vxor (u : U)
  /-- VSHL (R284): Shifts integer lanes left. -/
  | vshl (u : U)
  /-- VSHR (R284): Shifts integer lanes right arithmetically. -/
  | vshr (u : U)
  /-- VABS (R283): Takes the absolute value of each lane. -/
  | vabs (u : U)
  /-- VNEG (R283): Negates each lane. -/
  | vneg (u : U)
  /-- VFMA (R283): Computes x times y plus ve with one rounding in each lane. -/
  | vfma (u : U)
  /-- VBCAST_R (R290): Broadcasts column k of each row to the row. -/
  | vbcastR (u : U)
  /-- VBCAST_C (R290): Broadcasts row k of each column to the column. -/
  | vbcastC (u : U)
  /-- VROT_R (R290): Rotates each row by k lanes. -/
  | vrotR (u : U)
  /-- VROT_C (R290): Rotates each column by k rows. -/
  | vrotC (u : U)
  /-- VRED_R (R291): Reduces each row by the tree and writes the result to the row's active lanes. -/
  | vredR (u : U)
  /-- VRED_C (R291): Reduces each column by the tree and writes the result to the column's active lanes. -/
  | vredC (u : U)
  /-- VSCAN_R (R292): Computes an inclusive scan along each row. -/
  | vscanR (u : U)
  /-- VSCAN_C (R292): Computes an inclusive scan along each column. -/
  | vscanC (u : U)
  /-- VREDA (R291): Reduces all active lanes into a scalar register. -/
  | vreda (u : U)
  /-- VEXP (R293): Computes e^x in each active lane. -/
  | vexp (u : U)
  /-- VLOG (R293): Computes ln x in each active lane. -/
  | vlog (u : U)
  /-- VRCP (R293): Computes 1/x in each active lane, exactly for SLI types. -/
  | vrcp (u : U)
  /-- VRSQ (R293): Computes 1/sqrt(x) in each active lane. -/
  | vrsq (u : U)
  /-- VTANH (R293): Computes tanh x in each active lane. -/
  | vtanh (u : U)
  /-- VSLI_LVL (R295): Writes LVL + 8 REC of each SLI lane, or 16 for NaN, as i32. -/
  | vsliLvl (u : U)
  /-- VMOVS (R288): Broadcasts sb[31:0] to every active lane as binary32. -/
  | vmovs (u : U)
  /-- VSPILL (R301): Parks a vector register in the place that R47 chooses and records it in the spill map. -/
  | vspill (u : U)
  /-- VFILL (R302): Restores a parked vector register from its recorded place and frees the place. -/
  | vfill (u : U)
  /-- VADD_X (R283): 64-bit form of VADD with element type, predicate, immediate and SLI flag predicate. -/
  | vaddX (u : U)
  /-- VSUB_X (R283): 64-bit form of VSUB. -/
  | vsubX (u : U)
  /-- VMUL_X (R283): 64-bit form of VMUL. -/
  | vmulX (u : U)
  /-- VFMA_X (R283): 64-bit form of VFMA. -/
  | vfmaX (u : U)
  /-- VMIN_X (R283): 64-bit form of VMIN. -/
  | vminX (u : U)
  /-- VMAX_X (R283): 64-bit form of VMAX. -/
  | vmaxX (u : U)
  /-- VABS_X (R283): 64-bit form of VABS. -/
  | vabsX (u : U)
  /-- VNEG_X (R283): 64-bit form of VNEG. -/
  | vnegX (u : U)
  /-- VAND_X (R284): 64-bit form of VAND. -/
  | vandX (u : U)
  /-- VOR_X (R284): 64-bit form of VOR. -/
  | vorX (u : U)
  /-- VXOR_X (R284): 64-bit form of VXOR. -/
  | vxorX (u : U)
  /-- VSHL_X (R284): 64-bit form of VSHL. -/
  | vshlX (u : U)
  /-- VSHR_X (R284): 64-bit form of VSHR. -/
  | vshrX (u : U)
  /-- VCMP (R286): Writes each active lane of pd with the comparison selected by the condition code. -/
  | vcmp (u : U)
  /-- VSEL (R287): Selects vb or vc lane by lane by a predicate. -/
  | vsel (u : U)
  /-- VIMM (R287): Writes the broadcast immediate to every active lane. -/
  | vimm (u : U)
  /-- VMOVS_X (R288): Broadcasts the low bits of sb to every active lane in the element type. -/
  | vmovsX (u : U)
  /-- VMOVS_INS (R288): Inserts the low bits of sb into one lane of vd. -/
  | vmovsIns (u : U)
  /-- VMOVS_EXT (R288): Extracts one lane of vb into sd. -/
  | vmovsExt (u : U)
  /-- VCVT (R297): Converts each active lane between the non-BX types of R133. -/
  | vcvt (u : U)
  /-- VCVT_SLI32_F64 (R297): Converts binary64 in a scalar register to SLI32. -/
  | vcvtSli32F64 (u : U)
  /-- VCVT_F64_SLI32 (R297): Converts SLI32 in a scalar register to binary64. -/
  | vcvtF64Sli32 (u : U)
  /-- VCVT_BX_QUANTISE (R298): Quantises vector rows into one chunk of a BX tile in scratchpad. -/
  | vcvtBxQuantise (u : U)
  /-- VCVT_BX_DEQUANTISE (R298): Reads one chunk of a BX tile in scratchpad into a vector register. -/
  | vcvtBxDequantise (u : U)
  /-- VEXP_X (R293): 64-bit form of VEXP. -/
  | vexpX (u : U)
  /-- VLOG_X (R293): 64-bit form of VLOG. -/
  | vlogX (u : U)
  /-- VRCP_X (R294): 64-bit form of VRCP, with SLI flag predicate. -/
  | vrcpX (u : U)
  /-- VRSQ_X (R293): 64-bit form of VRSQ. -/
  | vrsqX (u : U)
  /-- VTANH_X (R293): 64-bit form of VTANH. -/
  | vtanhX (u : U)
  /-- VSLI_LVL_X (R295): 64-bit form of VSLI.LVL. -/
  | vsliLvlX (u : U)
  /-- VBCAST_R_X (R290): 64-bit form of VBCAST.R. -/
  | vbcastRX (u : U)
  /-- VBCAST_C_X (R290): 64-bit form of VBCAST.C. -/
  | vbcastCX (u : U)
  /-- VROT_R_X (R290): 64-bit form of VROT.R. -/
  | vrotRX (u : U)
  /-- VROT_C_X (R290): 64-bit form of VROT.C. -/
  | vrotCX (u : U)
  /-- VRED_R_X (R291): 64-bit form of VRED.R. -/
  | vredRX (u : U)
  /-- VRED_C_X (R291): 64-bit form of VRED.C. -/
  | vredCX (u : U)
  /-- VREDA_X (R291): 64-bit form of VREDA. -/
  | vredaX (u : U)
  /-- VSCAN_R_X (R292): 64-bit form of VSCAN.R. -/
  | vscanRX (u : U)
  /-- VSCAN_C_X (R292): 64-bit form of VSCAN.C. -/
  | vscanCX (u : U)
  /-- VLD (R300): Loads the active lanes of a vector register from memory or scratchpad at a pitch. -/
  | vld (u : U)
  /-- VST (R300): Stores the active lanes of a vector register to memory or scratchpad at a pitch. -/
  | vst (u : U)
  /-- VSPILL_X (R301): 64-bit form of VSPILL. -/
  | vspillX (u : U)
  /-- VFILL_X (R302): 64-bit form of VFILL. -/
  | vfillX (u : U)
  /-- VCHAIN (R303): Reads a chain descriptor and queues an element-wise memory-to-memory chain on the core's chain engine. -/
  | vchain (u : U)
  /-- FMT_PUSH (R335): Checks and appends a format word to a half's format queue. -/
  | fmtPush (u : U)
  /-- MX_MMA (R338): Pops a format word and issues a dense matrix multiply-accumulate command to a half. -/
  | mxMma (u : U)
  /-- MX_MMAS (R338): Pops a format word and issues a sparse-A matrix multiply-accumulate command. -/
  | mxMmas (u : U)
  /-- MX_ZERO (R341): Pops a format word and issues a command that zeroes accumulator rows. -/
  | mxZero (u : U)
  /-- CP_ACC (R342): Issues a copy of accumulator rows to or from a scratchpad tile. -/
  | cpAcc (u : U)
  /-- CP_LD (R344): Issues a copy from handle memory to scratchpad. -/
  | cpLd (u : U)
  /-- CP_ST (R344): Issues a copy from scratchpad to handle memory. -/
  | cpSt (u : U)
  /-- CP_X (R347): Issues a scratchpad-to-scratchpad copy to another cluster or chip, optionally counted into an arrival word. -/
  | cpX (u : U)
  /-- CP_G (R346): Issues an indexed gather from handle memory into scratchpad. -/
  | cpG (u : U)
  /-- CP_S (R346): Issues an indexed scatter from scratchpad into handle memory. -/
  | cpS (u : U)
  /-- CP_2D (R345): Issues a row copy between handle memory and a scratchpad tile. -/
  | cp2d (u : U)
  /-- CP_SEND (R348): Hands a send list to the cluster's send-list engine. -/
  | cpSend (u : U)
  /-- HBEAT (R352): Counts as a progress event of the context. -/
  | hbeat (u : U)
  /-- WORKID (R353): Writes the running item's work identifier to sd. -/
  | workid (u : U)
  /-- YIELD_OP (R356): At an operator boundary, parks the thread as a ready continuation when a preemption request stands. -/
  | yieldOp (u : U)
  /-- TASK_EXIT (R354): Ends the leaf item, closing the path and freeing the slot and its places. -/
  | taskExit (u : U)
  /-- TASK_SUSPEND (R355): Parks the thread at once as a continuation waiting on an arrival word and/or token. -/
  | taskSuspend (u : U)
  /-- TASK_LAUNCH (R358): Copies a task entry into a queue ring at TAIL and advances TAIL. -/
  | taskLaunch (u : U)
  /-- TASK_LAUNCHW (R358): Launches a child task with the issuing task's quota unit and parks until it retires. -/
  | taskLaunchw (u : U)
  /-- CAL_BOOK (R360): Submits a chain block as a task for booking and returns its booking handle. -/
  | calBook (u : U)
  /-- CAL_CANCEL (R361): Cancels a booking of the issuer's subtree. -/
  | calCancel (u : U)
  /-- CAL_QUERY_STATUS (R362): Returns the status word of a booking. -/
  | calQueryStatus (u : U)
  /-- CAL_QUERY_SLOT (R362): Returns the calendar slot word of a resource at an absolute slot. -/
  | calQuerySlot (u : U)
  /-- TRAP_RET (R387): Ends a handler, replaying masked capture entries and resuming the stream, or stopping the context. -/
  | trapRet (u : U)
  /-- TRAP_ACK (R371): Declares the handler established so later faults become new records. -/
  | trapAck (u : U)
  /-- TRAP_REFLECT (R371): Passes the held record to the parent and ends the handler. -/
  | trapReflect (u : U)
  /-- SYSCALL (R372): Delivers a breakpoint-class SYSCALL record to the parent. -/
  | syscall (u : U)
  /-- CORE_RESET (R373): Stops and resets a core, requeueing or discarding its work, then produces a token. -/
  | coreReset (u : U)
  /-- TLB_INV_RANGE (R39): Starts invalidation of cached translations of a range of a context's space. -/
  | tlbInvRange (u : U)
  /-- TLB_INV_SPACE (R39): Starts invalidation of every cached translation of a context and its descendants. -/
  | tlbInvSpace (u : U)
  /-- TLB_INV_HANDLE (R40): Starts invalidation of a cached handle-table entry. -/
  | tlbInvHandle (u : U)
  /-- CSR_RD (R368): Reads a CSR into sd. -/
  | csrRd (u : U)
  /-- CSR_WR (R368): Writes sb to a CSR under its access codes; the general write of registers without a row of their own. -/
  | csrWr (u : U)
  /-- CSR_SWAP (R368): Reads a CSR into sd and writes sb as one step. -/
  | csrSwap (u : U)
  /-- CTX_CREATE (R364): Creates a direct child context from a creation block and returns its CTXID. -/
  | ctxCreate (u : U)
  /-- CTX_GRANT_SET (R365): Writes a descriptor word 1-6 of a child. -/
  | ctxGrantSet (u : U)
  /-- CTX_GRANT_CORES (R404): Grants both sides of cores to a child. -/
  | ctxGrantCores (u : U)
  /-- CTX_GRANT_MXH (R404): Grants one side of cores to a child. -/
  | ctxGrantMxh (u : U)
  /-- CTX_GRANT_CG (R399): Grants channel groups to a child. -/
  | ctxGrantCg (u : U)
  /-- CTX_GRANT_FX (R399): Grants fabric ports to a child. -/
  | ctxGrantFx (u : U)
  /-- CTX_GRANT_QUOTA (R401): Raises a child's task quota. -/
  | ctxGrantQuota (u : U)
  /-- CTX_GRANT_MEM (R401): Raises a child's memory budget. -/
  | ctxGrantMem (u : U)
  /-- CTX_GRANT_SPAD (R402): Grants a scratchpad window and checked allowance in a cluster. -/
  | ctxGrantSpad (u : U)
  /-- CTX_GRANT_CAL (R409): Grants time-slice windows on a die. -/
  | ctxGrantCal (u : U)
  /-- CTX_GRANT_HT (R365): Raises a child's largest handle-table LOGN. -/
  | ctxGrantHt (u : U)
  /-- CTX_GRANT_RUN (R393): Moves a created or stopped child to running, restoring a forced-save image. -/
  | ctxGrantRun (u : U)
  /-- CTX_REVOKE_CORES (R412): Starts revocation of both sides of cores from a child. -/
  | ctxRevokeCores (u : U)
  /-- CTX_REVOKE_MXH (R412): Starts revocation of one side of cores from a child. -/
  | ctxRevokeMxh (u : U)
  /-- CTX_REVOKE_CG (R411): Starts revocation of channel groups from a child. -/
  | ctxRevokeCg (u : U)
  /-- CTX_REVOKE_FX (R411): Starts revocation of fabric ports from a child. -/
  | ctxRevokeFx (u : U)
  /-- CTX_REVOKE_QUOTA (R411): Lowers a child's task quota. -/
  | ctxRevokeQuota (u : U)
  /-- CTX_REVOKE_MEM (R411): Lowers a child's memory budget. -/
  | ctxRevokeMem (u : U)
  /-- CTX_REVOKE_SPAD (R411): Starts shrinking a child's scratchpad window. -/
  | ctxRevokeSpad (u : U)
  /-- CTX_REVOKE_CAL (R409): Removes a child's time-slice windows from the next period boundary. -/
  | ctxRevokeCal (u : U)
  /-- CTX_REVOKE_HT (R411): Lowers a child's handle-table limit and invalidates removed indexes. -/
  | ctxRevokeHt (u : U)
  /-- CTX_REVOKE_RUN (R389): Stops a running child by preemption with its deadline. -/
  | ctxRevokeRun (u : U)
  /-- CTX_DESTROY (R366): Starts destruction of a direct child and its subtree. -/
  | ctxDestroy (u : U)
  /-- CTX_QUERY (R367): Returns a descriptor word of a context of the subtree. -/
  | ctxQuery (u : U)
  /-- DIRTYLOG_ENABLE (R415): A DIRTYLOG write setting EN reads the control block, sets every bitmap bit and starts logging. -/
  | dirtylogEnable (u : U)
  /-- DIRTYLOG_DISABLE (R418): A DIRTYLOG write clearing EN stops logging and writes ST 0. -/
  | dirtylogDisable (u : U)
  /-- DIRTYLOG_EXPORT (R417): A DIRTYLOG write of EXPORT stops the child and begins writing its migration image. -/
  | dirtylogExport (u : U)
  /-- DIRTYLOG_IMPORT (R420): A DIRTYLOG write of IMPORT begins loading a migration image into a created child. -/
  | dirtylogImport (u : U)
  /-- CHKRESET_GO (R93): A write of GO starts a reset of race metadata and epochs and sets BUSY. -/
  | chkresetGo (u : U)
  /-- BLOG_WRITE (R212): A write of BLOG sets the booking log and record or replay mode. -/
  | blogWrite (u : U)
  /-- BCMBASE_WRITE (R421): A write of BCMBASE locates the debug area and rereads its control block and breakpoint table. -/
  | bcmbaseWrite (u : U)
  /-- CHKREG_WRITE (R62): A write of CHKREG changes the checked scratchpad range, resetting or dropping metadata of lines entering or leaving it. -/
  | chkregWrite (u : U)
  /-- ACCFREE_WRITE (R51): A write of ACCFREE changes parking columns, evicting occupied columns that are cleared. -/
  | accfreeWrite (u : U)
  /-- ISET_WRITE (R69): A write of an interleave-set CSR configures the set and its checked area, initialising or releasing the carve-out. -/
  | isetWrite (u : U)
  /-- HSEM_ACQUIRE (R437): A device write of OWNER 11 to a semaphore acquires it when free. -/
  | hsemAcquire (u : U)
  /-- HSEM_RELEASE (R437): A device write of OWNER 00 to an owned semaphore writes DATA and frees it. -/
  | hsemRelease (u : U)
  /-- PMC_LO_READ (R430): A read of PMCn.LO returns bits 31:0 and latches bits 62:32 into the shadow. -/
  | pmcLoRead (u : U)
  /-- PMC_HI_WRITE (R430): A write of PMCn.HI writes counter bits 62:32 and the shadow. -/
  | pmcHiWrite (u : U)
  /-- SLOT_BOUNDARY (R177): Every 256 cycles the slot number advances and a new slot enters each calendar. -/
  | slotBoundary
  /-- WATCHDOG_EXPIRE (R174): CNT reaches WIN, raising PREQ with its deadline. -/
  | watchdogExpire (ctx : Nat)
  /-- FORCED_SAVE (R391): LEFT reaches 0 and the subtree is force-saved into its spill regions. -/
  | forcedSave (ctx : Nat)
  /-- OFFER_LAPSE (R203): An offer reaches the end of its 64 slots without a COMMIT and its holds are freed. -/
  | offerLapse (id : Nat)
  /-- PREPARE_TIMEOUT (R443): A PREPARE without reply for 64 slots is treated as a REFUSE with no alternative. -/
  | prepareTimeout (tag : Nat)
  /-- WAIT_LIST_SEARCH (R201): A task on the wait list is searched again every 64 slots. -/
  | waitListSearch (die : Nat)
  /-- PRIORITY_AGING (R188): A queue head's effective priority rises after each 2,500,000-cycle period. -/
  | priorityAging (ctx q : Nat)
  /-- CONTINUATION_PARK_TIMEOUT (R159): A TOK.WAIT or ARRIVE.WAIT that has waited 128 cycles parks the thread. -/
  | continuationParkTimeout (core st : Nat)
  /-- TASK_ADMISSION (R187): A booking unit admits one queue head chosen by tenant, weight and priority. -/
  | taskAdmission (die : Nat)
  /-- BOOKING_SEARCH (R198): Places a chain's steps greedily and negotiates remote legs. -/
  | bookingSearch (handle : W32)
  /-- BACKFILL (R208): A freed run of slots is filled from the wait list before the next boundary. -/
  | backfill (cls idx : Nat)
  /-- ENGINE_COMMAND_START (R101): A command at the head of its engine queue consumes its tokens and starts. -/
  | engineCommandStart (e : Eng)
  /-- ENGINE_LINE_ACCESS (R111): An engine performs one line part of a command. -/
  | engineLineAccess (e : Eng) (part : Nat)
  /-- MATRIX_BLOCK_PAIR (R338): A matrix command accumulates one block pair and writes its output rows. -/
  | matrixBlockPair (e : Eng)
  /-- CHAIN_ELEMENT (R305): A vector chain computes and writes one element. -/
  | chainElement (e : Eng)
  /-- SEND_ENTRY (R348): The send-list engine reads an entry and sends its payload request to a destination. -/
  | sendEntry (e : Eng)
  /-- COMMAND_BOUNDARY_SUSPEND (R180): A command reaches a command boundary and is suspended for a booked window or a stop. -/
  | commandBoundarySuspend (e : Eng)
  /-- ENGINE_COMMAND_COMPLETE (R98): A command's effects are all performed and it completes. -/
  | engineCommandComplete (e : Eng)
  /-- STORE_LEAVE (R106): An ordinary store leaves the agent's path and is performed at its bank or slice. place names the agent's slot,
  and eight for each unfinished store of the agent that stands before the one that moves (log 183). -/
  | storeLeave (core place : Nat)
  /-- LOAD_DATA_RETURN (R236): An interlocked load's data arrives and its register lock clears. -/
  | loadDataReturn (core st k : Nat)
  /-- PENDING_RECORD_WRITE (R382): A held record is written once a trap-area entry frees. -/
  | pendingRecordWrite (ctx : Nat)
  /-- HANDLER_START (R384): An idle receiver with a waiting record starts a handler continuation. -/
  | handlerStart (ctx : Nat)
  /-- TOK_WAIT_CONSUME (R99): A waiting TOK.WAIT finds its counts and consumes them. -/
  | tokWaitConsume (core st : Nat)
  /-- ARRIVE_WAIT_COMPLETE (R109): A waiting ARRIVE.WAIT sees the generation change and joins the episode state. -/
  | arriveWaitComplete (core st : Nat)
  /-- QUEUE_WAIT_RESUME (R153): A waiting push or pop proceeds once room or an entry appears. -/
  | queueWaitResume (core st : Nat)
  /-- CONTINUATION_READY (R162): A continuation's awaited events are satisfied, its consumes performed, and it is pushed on its home deque. -/
  | continuationReady (core k : Nat)
  /-- CONTINUATION_TAKE (R163): A core with a free slot takes the newest entry of its deque and starts it. -/
  | continuationTake (core : Nat)
  /-- CONTINUATION_STEAL (R163): A core with a free slot and empty deque steals the oldest non-PIN entry. -/
  | continuationSteal (core : Nat)
  /-- CONTEXT_STOP_COMPLETE (R390): The ordinary stop completes once no thread or engine command of the subtree remains. -/
  | contextStopComplete (ctx : Nat)
  /-- REVOCATION_COMPLETE (R411): A revocation's procedure completes and its token is produced. -/
  | revocationComplete (id : Nat)
  /-- TLB_INV_COMPLETE (R39): A translation invalidation completes and produces its token. -/
  | tlbInvComplete (id : Nat)
  /-- HANDLE_INV_COMPLETE (R40): A handle-entry invalidation completes after its commands finish. -/
  | handleInvComplete (id : Nat)
  /-- CHKRESET_DONE (R93): The race reset finishes and BUSY clears. -/
  | chkresetDone (ctx : Nat)
  /-- EXPORT_COMPLETE (R417): The image and final bitmap are visible and word 6 is written ST 3. -/
  | exportComplete (ctx : Nat)
  /-- IMPORT_COMPLETE (R420): The image is loaded into the child, ST 4 written and the child left stopped. -/
  | importComplete (ctx : Nat)
  /-- DESTROY_COMPLETE (R366): Subtree destruction finishes, CTXIDs are freed and the token produced. -/
  | destroyComplete (id : Nat)
  /-- MEMORY_ERROR_DETECT (R394): An uncorrectable error in a line or row sets its poison mark. -/
  | memoryErrorDetect (p : Place)
  /-- STRUCTURE_ERROR (R396): An error in a TLB, instruction line, calendar slot or booking record discards it or cancels the booking. -/
  | structureError (x : Struct)
  /-- LINE_FILL (R229): An instruction cache or sidecar decoder fills and parses a 64-byte line into internal words. -/
  | lineFill (ctx : Nat) (va : W64)
  /-- POWER_GOOD (R465): Power-good starts the housekeeping boot sequence. -/
  | powerGood (verified : Bool)
  /-- ROOT_CONTEXT_START (R465): After FEATACC is written, the root is created from the root block and set running. -/
  | rootContextStart
  /-- RECOVERY_VERIFY (R466): On release of HSEM31 the housekeeping core verifies and flashes a candidate image. -/
  | recoveryVerify (verified : Bool)
  /-- ATTESTATION_REPORT (R467): On release of HSEM30 the housekeeping core writes a signed report and releases the semaphore. -/
  | attestationReport
  /-- THERMAL_THROTTLE (R470): Power or temperature above its limit makes agents issue in alternate cycles. -/
  | thermalThrottle
  /-- THROTTLE_END (R470): Power and temperature below 95 percent of their limits end the throttle. -/
  | throttleEnd
  /-- COMPUTE_POWER_OFF (R470): At 115 degrees C the compute dies are powered off. -/
  | computePowerOff
  /-- READ (R434): A host READ frame returns LEN bytes and a status. -/
  | read (port : Nat) (addr len : Nat)
  /-- WRITE (R436): A host WRITE frame writes bytes and returns an acknowledgement. -/
  | write (port : Nat) (addr : Nat) (data : List Byte)
  /-- WRITE_REL (R436): A host WRITE.REL frame is a write performed after every earlier write of the port. -/
  | writeRel (port : Nat) (addr : Nat) (data : List Byte)
  /-- SPWRITE (R435): A host SPWRITE frame writes the root's scratchpad window and optionally counts into an arrival word. -/
  | spwrite (port clu off : Nat) (data : List Byte) (arv : Bool) (aoff : Nat)
  /-- SEM_ACQ (R437): A host SEM frame with ACQ acquires a semaphore when free. -/
  | semAcq (port n : Nat)
  /-- SEM_REL (R437): A host SEM frame with REL writes DATA and frees an owned semaphore. -/
  | semRel (port n : Nat) (data : W32)
  /-- FEATACC_WRITE (R438): The first host write of FEATACC accepts features until the next reset. -/
  | feataccWrite (v : W64)
  /-- HSTAT_ACK (R439): A host write matching SEQ acknowledges the shown event and shows the next. -/
  | hstatAck (v : W64)
  /-- FXCFG_WRITE (R441): A write of FXCFGk enables a fabric port for training and names its peer. -/
  | fxcfgWrite (k : Nat) (v : W64)
  /-- FABRIC_PORT_TRAINED (R441): A port finishes training and the higher chip aligns its slot counter. -/
  | fabricPortTrained (k : Nat) (slot cyc : Nat)
  /-- FABRIC_PORT_LOST (R445): A port loses training and an HSTAT event is posted. -/
  | fabricPortLost (k : Nat)
  /-- FABRIC_WRITE (R443): An inbound WRITE flit's parts are checked against the peer window, written and counted, and a WACK returned. -/
  | fabricWrite (k : Nat) (f : Flit)
  /-- WACK (R443): A WACK flit reports which parts were accepted, completing or faulting the issuing command's parts. -/
  | wack (k : Nat) (f : Flit)
  /-- SENDREQ (R444): A SENDREQ flit reserves a receive-buffer slot by test-and-raise of FILL. -/
  | sendreq (k : Nat) (f : Flit)
  /-- RACCEPT (R444): An RACCEPT flit lets the send-list engine write the payload to the allotted slot. -/
  | raccept (k : Nat) (f : Flit)
  /-- RFULL (R444): An RFULL flit sends the entry to its second destination or writes STAT 3. -/
  | rfull (k : Nat) (f : Flit)
  /-- PREPARE (R202): A PREPARE flit asks the remote unit to hold shares of an engine over slots. -/
  | prepare (k : Nat) (f : Flit)
  /-- OFFER (R202): An OFFER flit reports the remote slots held for 64 slots. -/
  | offer (k : Nat) (f : Flit)
  /-- REFUSE (R202): A REFUSE flit reports the remote slots unavailable, with an alternative start. -/
  | refuse (k : Nat) (f : Flit)
  /-- COMMIT (R203): A COMMIT flit makes held remote slots committed bookings. -/
  | commit (k : Nat) (f : Flit)
  /-- RELEASE (R202): A RELEASE flit frees held or committed remote slots. -/
  | release (k : Nat) (f : Flit)
  /-- SLOTSYNC (R441): A SLOTSYNC flit corrects the slot counter by at most one cycle. -/
  | slotsync (k : Nat) (f : Flit)
  deriving DecidableEq, Repr

end Sys2Proof
end

