-- ==== Sys2Proof/Machine/Shape.lean ====
section
/-! DEFINITION. The opcode maps of 08 R224-R226: for each major and minor, the form, what each operand field holds, which
modifier words it accepts and its latency class. -/

namespace Sys2Proof.Machine

/-- Instruction forms, FORM of the internal word (08 R228). -/
inductive Form where
  | r | i | b | s | x | y | undecoded
  deriving DecidableEq, Repr

/-- FORM as a number (08 R228). -/
def Form.code : Form → Nat
  | .r => 0 | .i => 1 | .b => 2 | .s => 3 | .x => 4 | .y => 5 | .undecoded => 7

/-- What an operand field holds (08 R221). -/
inductive Fk where
  /-- unused: must be zero -/
  | zero
  /-- any value; checked elsewhere -/
  | any
  /-- a number below the bound -/
  | lt (n : Nat)
  /-- scalar destination, scalar source, scalar source and destination -/
  | sD | sS | sDS
  /-- predicate destination and source -/
  | pD | pS
  /-- vector destination and source, below 16 -/
  | vD | vS
  /-- branch-target destination and source, below 8 -/
  | bD | bS
  /-- even register of a pair, 2 to 62 (12 R328) -/
  | pair
  /-- even register of a tile descriptor; a bad one faults under 02 R60 -/
  | desc
  /-- token register; token register or 63 -/
  | tok | tok63
  /-- vector register, or 63 for the broadcast immediate (08 R241) -/
  | vImm
  /-- must be 63 (10 R287) -/
  | imm63
  /-- flag predicate with an SLI type, else zero (10 R285) -/
  | flag
  deriving DecidableEq, Repr

/-- Latency classes (08 R234). -/
inductive Lat where
  | scl | brt | mul | divc | csrc | spld | vew | vrow | vcol | vall | vsf | slic | vspld | ilk | none
  deriving DecidableEq, Repr

/-- L of a class (08 R234); 0 where the class has no bound. -/
def Lat.bound : Lat → Nat
  | .scl => 1 | .brt => 2 | .mul => 3 | .divc => 18 | .csrc => 4 | .spld => 6 | .vew => 4 | .vrow => 6 | .vcol => 10
  | .vall => 16 | .vsf => 12 | .slic => 25 | .vspld => 72 | .ilk => 0 | .none => 0

/-- One row of the opcode maps: form, operand fields, accepted modifier kinds A, L, X, and latency class. -/
structure Row where
  form : Form
  a : Fk
  b : Fk
  c : Fk
  e : Fk
  ar : Bool
  lp : Bool
  ex : Bool
  lat : Lat
  deriving DecidableEq, Repr

/-- A row of form R, I or S that accepts only the loop-position modifier. -/
def rowL (f : Form) (a b c : Fk) (l : Lat) : Row := ⟨f, a, b, c, .zero, false, true, false, l⟩
/-- A row of form R or I that accepts the arithmetic and loop-position modifiers. -/
def rowAL (f : Form) (a b c : Fk) (l : Lat) : Row := ⟨f, a, b, c, .zero, true, true, false, l⟩
/-- A row that accepts no modifier word. -/
def row0 (f : Form) (a b c : Fk) (l : Lat) : Row := ⟨f, a, b, c, .zero, false, false, false, l⟩
/-- A 32-bit vector row that accepts all three modifier kinds. -/
def rowV (a b c e : Fk) (l : Lat) : Row := ⟨.r, a, b, c, e, true, true, true, l⟩
/-- A form-X row with the loop-position modifier. -/
def rowX (a b c e : Fk) (l : Lat) : Row := ⟨.x, a, b, c, e, false, true, false, l⟩
/-- A form-X row with the arithmetic and loop-position modifiers. -/
def rowXA (a b c e : Fk) (l : Lat) : Row := ⟨.x, a, b, c, e, true, true, false, l⟩
/-- A form-Y row. -/
def rowY (a b : Fk) (ar lp : Bool) (l : Lat) : Row := ⟨.y, a, b, .zero, .zero, ar, lp, false, l⟩

/-- The 32-bit major and minor maps (08 R224, 09, 10 R282, 11, 13 R350); none: unassigned. -/
def row32 (major minor : Nat) : Option Row :=
  match major with
  | 0x01 => if minor ≤ 10 then some (rowAL .r .sD .sS .sS .scl) else none
  | 0x02 => if minor ≤ 1 then some (rowAL .r .sD .sS .sS .mul) else if minor ≤ 3 then some (rowAL .r .sD .sS .sS .divc) else none
  | 0x03 => if minor ≤ 2 then some (rowL .r .sD .sS .zero .scl) else none
  | 0x04 => if minor ≤ 5 then some (rowL .r .pD .sS .sS .scl) else none
  | 0x05 => some (rowAL .i .sD .sS .zero .scl)
  | 0x06 => if minor ≤ 6 then some (rowL .r .sD .sS .sS .scl) else none
  | 0x07 =>
    if minor ≤ 2 then some (rowL .r .pD .pS .pS .scl) else if minor ≤ 4 then some (rowL .r .pD .pS .zero .scl)
    else if minor = 5 then some (rowL .r .sD .pS .zero .scl) else none
  | 0x08 => some (row0 .b .bD .zero .zero .brt)
  | 0x09 =>
    match minor with
    | 0 => some (row0 .r .pS .bS (.lt 4) .none)
    | 1 => some (row0 .r .bS (.lt 4) .zero .none)
    | 2 => some (row0 .r (.lt 4) .zero .zero .none)
    | 3 => some (row0 .r .pD .pS .pS .brt)
    | 4 => some (row0 .r .pD .pS .pS .brt)
    | _ => none
  | 0x0A =>
    match minor with
    | 0 => some (row0 .r .sS .zero .zero .none)
    | 1 => some (row0 .r .zero .zero .zero .none)
    | 2 => some (row0 .r .pS .zero .zero .none)
    | _ => none
  | 0x0B =>
    match minor with
    | 0 => some (rowL .s .zero .zero .zero .none)
    | 1 => some (rowL .s .zero .zero .zero .none)
    | 2 => some (rowL .s .zero .zero .zero .none)
    | 3 => some (rowL .s .zero .zero .zero .none)
    | 4 => some (rowL .s .sS .zero .zero .none)
    | _ => none
  | 0x0C =>
    match minor with
    | 0 => some (rowL .r (.lt 5) .zero .zero .none)
    | 1 => some (rowL .r .zero .zero .zero .none)
    | 2 => some (rowL .r .tok .tok63 .tok63 .none)
    | 3 => some (rowL .r .sD .tok .zero .csrc)
    | 4 => some (rowL .r .tok .zero .zero .none)
    | 5 => some (rowL .r .sS .sS .zero .none)
    | 6 => some (rowL .r .sS .sS .zero .none)
    | _ => none
  | 0x0D =>
    match minor with
    | 0 => some (rowL .r (.lt 8) .sS .zero .none)
    | 1 => some (rowL .r .sD (.lt 8) .zero .ilk)
    | 2 => some (rowL .r .pD (.lt 8) .zero .ilk)
    | 3 => some (rowL .r .sD (.lt 8) .zero .ilk)
    | _ => none
  | 0x0E =>
    match minor with
    | 0 => some (rowL .r .zero .zero .zero .none)
    | 1 => some (rowL .r .sD .zero .zero .scl)
    | 2 => some (rowL .r .zero .zero .zero .none)
    | 3 => some (rowL .r .zero .zero .zero .none)
    | 4 => some (rowL .r .sS .sS .tok63 .none)
    | 5 => some (rowL .r .sD .sS .tok63 .ilk)
    | 6 => some (rowL .r .sS .zero .tok .none)
    | _ => none
  | 0x0F =>
    match minor with
    | 0 => some (rowL .r .sD .sS .zero .ilk)
    | 1 => some (rowL .r .sS .zero .zero .none)
    | 2 => some (rowL .r .sD .sS .sS .csrc)
    | _ => none
  | 0x10 => some (rowL .i .sD .sS .zero .ilk)
  | 0x11 => some (rowL .i .sD .sS .zero .ilk)
  | 0x12 => some (rowL .i .sD .sS .zero .ilk)
  | 0x13 => some (rowL .i .sD .sS .zero .ilk)
  | 0x14 => some (rowL .i .sD .sS .zero .spld)
  | 0x15 => some (rowL .i .sD .sS .zero .spld)
  | 0x16 => some (rowL .i .sD .sS .zero .spld)
  | 0x17 => some (rowL .i .sD .sS .zero .spld)
  | 0x18 => some (rowL .i .sS .sS .zero .none)
  | 0x19 => some (rowL .i .sS .sS .zero .none)
  | 0x1A => some (rowL .i .sS .sS .zero .none)
  | 0x1B => some (rowL .i .sS .sS .zero .none)
  | 0x1C => some (rowL .i .sS .sS .zero .none)
  | 0x1D => some (rowL .i .sS .sS .zero .none)
  | 0x1E => some (rowL .i .sS .sS .zero .none)
  | 0x1F => some (rowL .i .sS .sS .zero .none)
  | 0x20 =>
    if minor ≤ 2 then some (rowV .vD .vS .vS .flag .vew) else if minor ≤ 9 then some (rowV .vD .vS .vS .zero .vew)
    else if minor ≤ 11 then some (rowV .vD .vS .zero .zero .vew) else none
  | 0x21 => if minor = 0 then some (rowV .vD .vS .vS .vS .vew) else none
  | 0x22 =>
    match minor with
    | 0 => some (rowV .vD .vS .any .zero .vrow)
    | 1 => some (rowV .vD .vS (.lt 16) .zero .vcol)
    | 2 => some (rowV .vD .vS .any .zero .vrow)
    | 3 => some (rowV .vD .vS (.lt 16) .zero .vcol)
    | 4 => some (rowV .vD .vS (.lt 3) .zero .vrow)
    | 5 => some (rowV .vD .vS (.lt 3) .zero .vcol)
    | 6 => some (rowV .vD .vS (.lt 3) .zero .vrow)
    | 7 => some (rowV .vD .vS (.lt 3) .zero .vcol)
    | 8 => some (rowV .sD .vS (.lt 3) .zero .vall)
    | _ => none
  | 0x23 =>
    match minor with
    | 2 => some (rowV .vD .vS .zero .flag .vsf)
    | 5 => some (rowV .vD .vS .zero .zero .vew)
    | k => if k ≤ 4 then some (rowV .vD .vS .zero .zero .vsf) else none
  | 0x24 =>
    match minor with
    | 0 => some ⟨.r, .vD, .sS, .zero, .zero, false, true, true, .vew⟩
    | 1 => some ⟨.r, .vS, .zero, .zero, .zero, false, true, true, .none⟩
    | 2 => some ⟨.r, .vD, .zero, .zero, .zero, false, true, true, .ilk⟩
    | _ => none
  | 0x30 =>
    match minor with
    | 0 => some (rowL .r .sS .zero .zero .none)
    | 1 => some (rowL .r .zero .zero .zero .none)
    | 2 => some (rowL .r .zero .zero .zero .none)
    | 3 => some (rowL .r .sS .zero .zero .none)
    | 4 => some (rowL .r .sS .zero .tok .none)
    | 5 => some (rowL .r .sS .sS .tok .none)
    | _ => none
  | _ => none

/-- The 64-bit major and minor maps (08 R225, 10 R282, 12 R328, 13 R350); none: unassigned. In rows 0x4-0x6 MINOR is the
element type and every minor is assigned. -/
def row64 (major minor : Nat) : Option Row :=
  match major with
  | 0x01 => some (rowY .sD .zero false true .scl)
  | 0x02 => some (rowY .sD .sS false true .scl)
  | 0x03 => some (rowY .sD .sS true true .scl)
  | 0x04 => match minor with
    | 0 => some (rowX .sD .sS .zero .zero .scl)
    | 1 => some (rowX .sDS .sS .zero .zero .scl)
    | _ => none
  | 0x05 => if minor = 0 then some (rowX .sD .sS .sS .pS .scl) else none
  | 0x06 => if minor = 0 then some (rowX .pD .zero .zero .zero .scl) else none
  | 0x07 => if minor ≤ 6 then some (rowX .sD .sS .sS .zero .scl) else none
  | 0x10 => if minor ≤ 2 then some (rowX .sD .sS (.lt 16) (.lt 5) .ilk) else none
  | 0x11 => if minor ≤ 2 then some (rowX .sS .sS (.lt 8) (.lt 5) .none) else none
  | 0x12 => if minor = 7 then some (rowX .sD .sS .sS .sS .ilk) else if minor ≤ 8 then some (rowX .sD .sS .sS .zero .ilk) else none
  | 0x13 => if minor = 0 then some (rowX .sS .zero .zero .zero .none) else none
  | 0x20 => some (rowY .bD .sS false false .brt)
  | 0x21 => some (rowY (.lt 4) .sS false false .none)
  | 0x22 => some (rowY .sS .zero false true .none)
  | 0x40 => some (rowXA .vD .vS .vImm .flag .vew)
  | 0x41 => some (rowXA .vD .vS .vImm .flag .vew)
  | 0x42 => some (rowXA .vD .vS .vImm .flag .vew)
  | 0x43 => some (rowXA .vD .vS .vImm .vS .vew)
  | 0x44 => some (rowXA .vD .vS .vImm .zero .vew)
  | 0x45 => some (rowXA .vD .vS .vImm .zero .vew)
  | 0x46 => some (rowXA .vD .vS .zero .zero .vew)
  | 0x47 => some (rowXA .vD .vS .zero .zero .vew)
  | 0x48 => some (rowXA .vD .vS .vImm .zero .vew)
  | 0x49 => some (rowXA .vD .vS .vImm .zero .vew)
  | 0x4A => some (rowXA .vD .vS .vImm .zero .vew)
  | 0x4B => some (rowXA .vD .vS .vImm .zero .vew)
  | 0x4C => some (rowXA .vD .vS .vImm .zero .vew)
  | 0x4D => some (rowXA .pD .vS .vImm (.lt 8) .vew)
  | 0x4E => some (rowXA .vD .vS .vImm .pS .vew)
  | 0x4F => some (rowXA .vD .zero .imm63 .zero .vew)
  | 0x50 => some (rowXA .any .any .zero .zero .vew)
  | 0x51 => some (rowXA .any .any .zero .any .vew)
  | 0x52 => some (rowXA .vD .vS .zero .zero .vsf)
  | 0x53 => some (rowXA .vD .vS .zero .zero .vsf)
  | 0x54 => some (rowXA .vD .vS .zero .flag .vsf)
  | 0x55 => some (rowXA .vD .vS .zero .zero .vsf)
  | 0x56 => some (rowXA .vD .vS .zero .zero .vsf)
  | 0x57 => some (rowXA .vD .vS .zero .zero .vew)
  | 0x58 => some (rowXA .vD .vS .zero .zero .vrow)
  | 0x59 => some (rowXA .vD .vS .zero .zero .vcol)
  | 0x5A => some (rowXA .vD .vS .zero .zero .vrow)
  | 0x5B => some (rowXA .vD .vS .zero .zero .vcol)
  | 0x5C => some (rowXA .vD .vS .zero .zero .vrow)
  | 0x5D => some (rowXA .vD .vS .zero .zero .vcol)
  | 0x5E => some (rowXA .sD .vS .zero .zero .vall)
  | 0x5F => some (rowXA .vD .vS .zero .zero .vrow)
  | 0x60 => some (rowXA .vD .vS .zero .zero .vcol)
  | 0x61 => some (rowX .vD .sS (.lt 2) .sS .vspld)
  | 0x62 => some (rowX .vS .sS (.lt 2) .sS .none)
  | 0x63 => some (rowX .vS .zero .zero .zero .none)
  | 0x64 => some (rowX .vD .zero .zero .zero .ilk)
  | 0x65 => some (rowX .sS .tok (.lt 4) .zero .none)
  | 0x80 => if minor ≤ 1 then some (rowX .sS .zero .zero .zero .none) else none
  | 0x81 => if minor ≤ 1 then some (rowX .any .any .zero .sS .none) else none
  | 0x82 => if minor ≤ 1 then some (rowX .any .any .zero .sS .none) else none
  | 0x83 => if minor ≤ 1 then some (rowX .zero .zero .zero .sS .none) else none
  | 0x84 => if minor = 0 then some (rowX .desc .sS .zero .sS .none) else none
  | 0x85 => if minor = 0 then some (rowX .pair .sS .sS .sS .none) else none
  | 0x86 => if minor = 0 then some (rowX .pair .sS .sS .sS .none) else none
  | 0x87 => if minor = 0 then some (rowX .pair .sS .sS .sS .none) else none
  | 0x88 => if minor = 0 then some (rowX .pair .pair .sS .sS .none) else none
  | 0x89 => if minor = 0 then some (rowX .pair .pair .sS .sS .none) else none
  | 0x8A => if minor = 0 then some (rowX .pair .desc .sS .sS .none) else none
  | 0x8B => if minor = 0 then some (rowX .sS .sS .zero .sS .none) else none
  | 0x90 => match minor with
    | 0 => some (rowX .sD .zero .zero .zero .csrc)
    | 1 => some (rowX .zero .sS .zero .zero .none)
    | 2 => some (rowX .sD .sS .zero .zero .csrc)
    | _ => none
  | 0xA0 => match minor with
    | 0 => some (rowX .sD .sS .zero .zero .ilk)
    | 1 => some (rowX .sS .sS .sS .zero .none)
    | 2 => some (rowX .sS .sS .sS .tok .none)
    | 3 => some (rowX .sS .zero .zero .tok .none)
    | 4 => some (rowX .sD .sS .zero .zero .csrc)
    | _ => none
  | _ => none

/-- The row of a word size, major and minor. -/
def rowOf (w64 : Bool) (major minor : Nat) : Option Row := if w64 then row64 major minor else row32 major minor

/-- The form that a major fixes even where its minor is unassigned (08 R219, R220, R224, R225). -/
def formOf (w64 : Bool) (major : Nat) : Form :=
  match w64 with
  | false =>
    if major = 0x05 ∨ (0x10 ≤ major ∧ major ≤ 0x1F) then .i
    else if major = 0x08 then .b
    else if major = 0x0B then .s
    else if (1 ≤ major ∧ major ≤ 0x0F) ∨ (0x20 ≤ major ∧ major ≤ 0x24) ∨ major = 0x30 then .r
    else .undecoded
  | true =>
    if (1 ≤ major ∧ major ≤ 3) ∨ (0x20 ≤ major ∧ major ≤ 0x22) then .y
    else if (4 ≤ major ∧ major ≤ 7) ∨ (0x10 ≤ major ∧ major ≤ 0x13) ∨ (0x40 ≤ major ∧ major ≤ 0x65)
        ∨ (0x80 ≤ major ∧ major ≤ 0x8B) ∨ major = 0x90 ∨ major = 0xA0 then .x
    else .undecoded

/-- Whether a vector form's MINOR or override type is one of the listed codes. -/
def tyIn (t : Nat) (l : List Nat) : Bool := l.contains t

/-- The element types F, S and I of 10 R282. -/
def tyFSI : List Nat := [0, 1, 2, 3, 4, 5, 6, 7]
/-- The types F. -/
def tyF : List Nat := [0, 1, 2]
/-- The types S. -/
def tyS : List Nat := [3, 4]
/-- The types I. -/
def tyI : List Nat := [5, 6, 7]

/-- Whether a type code is an SLI type. -/
def isS (t : Nat) : Bool := tyIn t tyS
/-- Whether a type code is an IEEE type or BF16. -/
def isF (t : Nat) : Bool := tyIn t tyF
/-- Whether a type code is an integer type. -/
def isI (t : Nat) : Bool := tyIn t tyI

/-- The element types a vector major accepts (10 R282); empty for a major that is not a vector one. -/
def vecTypes (w64 : Bool) (major minor : Nat) : List Nat :=
  match w64 with
  | false =>
    match major with
    | 0x20 => if 5 ≤ minor ∧ minor ≤ 9 then tyI else tyFSI
    | 0x21 => tyF ++ tyI
    | 0x22 => tyFSI
    | 0x23 => if minor = 2 then tyF ++ tyS else if minor = 5 then tyS else tyF
    | 0x24 => [0]
    | _ => []
  | true =>
    match major with
    | 0x43 => tyF ++ tyI
    | 0x48 => tyI | 0x49 => tyI | 0x4A => tyI | 0x4B => tyI | 0x4C => tyI
    | 0x51 => [0, 1, 2, 3, 4, 5, 6, 7, 8, 9]
    | 0x52 => tyF | 0x53 => tyF | 0x55 => tyF | 0x56 => tyF
    | 0x54 => tyF ++ tyS
    | 0x57 => tyS
    | 0x63 => [0] | 0x64 => [0]
    | 0x65 => [0, 1, 2, 3, 4, 5]
    | k => if 0x40 ≤ k ∧ k ≤ 0x62 then tyFSI else []

/-- Whether a major is a vector one: its type comes from MINOR or the type override. -/
def isVec (w64 : Bool) (major : Nat) : Bool :=
  if w64 then 0x40 ≤ major && major ≤ 0x65 else 0x20 ≤ major && major ≤ 0x24

/-- The element type of a vector unit (10 R281): MINOR in a 64-bit form, else the override or binary32. -/
def etyOf (w64 : Bool) (u : U) : Nat :=
  if w64 then u.mi.toNat
  else match u.m.ar with
    | some r => if r.tov then r.ty.toNat else 0
    | none => 0

/-- The rounding code of a unit (05 R124); 0 without an arithmetic modifier. -/
def rndOf (u : U) : Nat := match u.m.ar with | some r => r.rnd.toNat | none => 0
/-- The saturation modifier of a unit (05 R125). -/
def satOf (u : U) : Bool := match u.m.ar with | some r => r.sat | none => false

/-- Source type of VCVT (10 R296). -/
def cvtSrc (u : U) : Nat := bits u.imm 15 12
/-- MODE of VCVT (10 R296). -/
def cvtMode (u : U) : Nat := bits u.imm 11 10

/-- The conversion pairs of MODE 00 (05 R133, without BX and binary64). -/
def cvtPair (src dst : Nat) : Bool :=
  (isF src && isF dst && src != dst) || (isF src && isI dst) || (isI src && isF dst)
    || (src == 3 && dst == 0) || (src == 4 && isF dst)
    || (src == 0 && dst == 3) || ((src == 1 || src == 2) && dst == 4)
    || (src == 4 && dst == 3) || (src == 3 && dst == 4)

/-- Whether the operand fields of a VCVT hold what its mode says (10 R296-R298). -/
def cvtOk (u : U) : Bool :=
  let src := cvtSrc u
  let dst := u.mi.toNat
  let low := bits u.imm 9 0
  match cvtMode u with
  | 0 => cvtPair src dst && low == 0 && u.e == 0 && u.a.toNat < 16 && u.b.toNat < 16
  | 1 => src == 3 && dst == 3 && low == 0 && u.e == 0
  | 2 => src == 3 && dst == 3 && low == 0 && u.e == 0
  | _ =>
    u.p == 0 && !bit u.imm 6 && !(bits u.imm 8 7 != 0 && bit u.imm 9) &&
    (((dst == 8 || dst == 9) && isF src && u.b.toNat < 16)
      || (isF dst && (src == 8 || src == 9) && u.e == 0 && u.a.toNat < 16))

/-- Whether the operand fields of a 64-bit VMOVS hold what its direction says (10 R288). -/
def vmovsOk (u : U) : Bool :=
  bits u.imm 13 10 == 0 &&
  match bits u.imm 15 14 with
  | 0 => bits u.imm 9 0 == 0 && u.a.toNat < 16
  | 1 => u.a.toNat < 16
  | 2 => u.b.toNat < 16
  | _ => false

/-- The destination format of a vector unit, to which the rounding and saturation rules apply (10 R281). -/
def dstTy (w64 : Bool) (major minor : Nat) (u : U) : Nat :=
  if (w64 && major == 0x57) || (!w64 && major == 0x23 && minor == 5) then 5
  else if w64 && major == 0x51 && cvtMode u == 2 then 10
  else etyOf w64 u

/-- Majors and minors on which the saturation modifier is refused whatever the type (10 R281). -/
def satRefused (w64 : Bool) (major minor : Nat) : Bool :=
  if w64 then [0x44, 0x45, 0x48, 0x49, 0x4A, 0x4C, 0x4D, 0x4E, 0x4F, 0x50, 0x57, 0x58, 0x59, 0x5A, 0x5B].contains major
  else
    (major == 0x20 && [3, 4, 5, 6, 7, 9].contains minor) || (major == 0x22 && minor ≤ 3) || (major == 0x23 && minor == 5)

/-- Whether the rounding and saturation modifiers suit the instruction (05 R124, R125, 09 R248, 10 R281). -/
def modsSuit (w64 : Bool) (major minor : Nat) (u : U) : Bool :=
  if isVec w64 major then
    let d := dstTy w64 major minor u
    let exotic := isS d || d == 8 || d == 9
    !(exotic && (rndOf u != 0 || satOf u)) && !(satOf u && satRefused w64 major minor)
  else if satOf u then
    (!w64 && major == 0x01 && (minor == 0 || minor == 1 || minor == 5)) || (!w64 && major == 0x02 && (minor == 0 || minor == 2))
      || (!w64 && major == 0x05) || (w64 && major == 0x03)
  else true

/-- Whether a CSR number is in the map (13 R369). -/
def csrInMap (n : Nat) : Bool :=
  n ≤ 0x00B || (0x010 ≤ n && n ≤ 0x014) || (0x018 ≤ n && n ≤ 0x020) || (0x030 ≤ n && n ≤ 0x033) || (0x040 ≤ n && n ≤ 0x047)
    || (0x050 ≤ n && n ≤ 0x05F) || (0x060 ≤ n && n ≤ 0x07F) || (0x100 ≤ n && n ≤ 0x12F)

/-- Whether the immediate and the fields that a table row leaves to the instruction's own text are legal. -/
def immOk (w64 : Bool) (major minor : Nat) (u : U) : Bool :=
  let i := u.imm.toNat
  match w64 with
  | false =>
    match major with
    | 0x0B => if minor = 0 ∨ minor = 2 then i == 0 else true
    | 0x0C => if minor = 2 then !(u.b.toNat == 63 && u.c.toNat != 63) else true
    | 0x24 => minor == 0 || (u.p == 0 && u.e == 0)
    | _ => true
  | true =>
    match major with
    | 0x04 => bits u.imm 15 13 == 0 && (minor == 0 || !bit u.imm 12) && bits u.imm 5 0 + bits u.imm 11 6 < 64
    | 0x05 => i == 0
    | 0x06 => i ≤ 1024
    | 0x10 => minor != 0 || u.e == 0
    | 0x11 => minor != 0 || u.e == 0
    | 0x12 =>
      bits u.imm 15 13 ≤ 4 && bits u.imm 7 0 == 0 && (!bit u.imm 8 || minor == 1 || minor == 2)
        && (minor != 8 || (!bit u.imm 10 && !bit u.imm 9))
    | 0x20 => u.p == 0
    | 0x21 => u.p == 0
    | 0x40 => u.c.toNat == 63 || (if isS u.mi.toNat then i < 16 else i == 0)
    | 0x41 => u.c.toNat == 63 || (if isS u.mi.toNat then i < 16 else i == 0)
    | 0x42 => u.c.toNat == 63 || (if isS u.mi.toNat then i < 16 else i == 0)
    | 0x43 => u.c.toNat == 63 || i == 0
    | 0x44 => u.c.toNat == 63 || i == 0
    | 0x45 => u.c.toNat == 63 || i == 0
    | 0x46 => i == 0
    | 0x47 => i == 0
    | 0x48 => u.c.toNat == 63 || i == 0
    | 0x49 => u.c.toNat == 63 || i == 0
    | 0x4A => u.c.toNat == 63 || i == 0
    | 0x4B => u.c.toNat == 63 || i == 0
    | 0x4C => u.c.toNat == 63 || i == 0
    | 0x4D => (u.c.toNat == 63 || i == 0) && !(isI u.mi.toNat && 6 ≤ u.e.toNat)
    | 0x4E => u.c.toNat == 63 || i == 0
    | 0x4F => true
    | 0x50 => vmovsOk u
    | 0x51 => cvtOk u
    | 0x54 => if isS u.mi.toNat then i < 16 else i == 0
    | 0x58 => i < 64
    | 0x59 => i < 16
    | 0x5A => i < 64
    | 0x5B => i < 16
    | 0x5C => i < 3
    | 0x5D => i < 3
    | 0x5E => i < 3
    | 0x5F => i < 3
    | 0x60 => i < 3
    | 0x52 => i == 0
    | 0x53 => i == 0
    | 0x55 => i == 0
    | 0x56 => i == 0
    | 0x57 => i == 0
    | 0x63 => u.p == 0 && i == 0
    | 0x64 => u.p == 0 && i == 0
    | 0x65 =>
      u.p == 0 && i < 2 ^ (5 * u.c.toNat)
    | 0x84 => bits u.imm 14 2 == 0
    | 0x85 => i < 4
    | 0x86 => i < 4
    | 0x87 => i < 4
    | 0x88 => bits u.imm 15 12 ≤ 12 && bits u.imm 10 2 == 0
    | 0x89 => bits u.imm 15 12 ≤ 12 && bits u.imm 10 2 == 0
    | 0x8A => bits u.imm 14 2 == 0
    | 0x8B => i == 0
    | 0x80 => i == 0
    | 0x81 => i == 0
    | 0x82 => i == 0
    | 0x83 => i == 0
    | 0x90 => csrInMap i
    | 0xA0 =>
      match minor with
      | 0 => i == 0
      | 1 => i ≤ 10
      | 2 => 1 ≤ i && i ≤ 10
      | 3 => i == 0
      | _ => i < 16
    | _ => true

/-- Whether an operand field holds what its kind asks (08 R221, 12 R328). -/
def fkOk (vecS : Bool) (k : Fk) (f : Fld) : Bool :=
  match k with
  | .zero => f == 0
  | .any => true
  | .lt n => f.toNat < n
  | .sD => true | .sS => true | .sDS => true | .pD => true | .pS => true
  | .vD => f.toNat < 16 | .vS => f.toNat < 16
  | .bD => f.toNat < 8 | .bS => f.toNat < 8
  | .pair => f.toNat % 2 == 0 && 2 ≤ f.toNat
  | .desc => true
  | .tok => f.toNat < 32
  | .tok63 => f.toNat < 32 || f.toNat == 63
  | .vImm => f.toNat < 16 || f.toNat == 63
  | .imm63 => f.toNat == 63
  | .flag => vecS || f == 0

/-- No reserved bit, register index, type or modifier breaks the unit's row: no reason RSVBITS (08 R227, R228). -/
def fieldsOk (w64 : Bool) (major minor : Nat) (r : Row) (u : U) : Bool :=
  let t := etyOf w64 u
  let vecS := isVec w64 major && isS t
  fkOk vecS r.a u.a && fkOk vecS r.b u.b && fkOk vecS r.c u.c && fkOk vecS r.e u.e
    && (!isVec w64 major || tyIn t (vecTypes w64 major minor))
    && modsSuit w64 major minor u && immOk w64 major minor u

/-- Whether the modifier words obey 08 R222 and R223 on this row. -/
def modsOk (w64 : Bool) (major : Nat) (r : Row) (u : U) : Bool :=
  (match u.m.ar with
    | none => true
    | some x => r.ar && x.rnd.toNat ≤ 4 && (x.tov || x.ty == 0) && (!x.tov || (!w64 && isVec false major)))
  && (match u.m.lp with
    | none => true
    | some (.first l) => r.lp && l.toNat ≤ 5
    | some (.last l) => r.lp && l.toNat ≤ 5
    | some (.stage _) => r.lp)
  && (!u.m.ex || r.ex)

/-- The latency class of a unit, with the SLI forms of 08 R234. -/
def latOf (w64 : Bool) (major minor : Nat) (r : Row) (u : U) : Lat :=
  let s := isS (etyOf w64 u)
  match w64 with
  | false => if s && ((major == 0x20 && minor ≤ 2) || (major == 0x23 && minor == 2)) then .slic else r.lat
  | true =>
    if s && [0x40, 0x41, 0x42, 0x54].contains major then .slic
    else if major == 0x51 && (isS u.mi.toNat || isS (cvtSrc u)) then .slic
    else if major == 0x61 && u.c.toNat == 0 then .ilk
    else if major == 0x10 && bit u.c 2 then .spld
    else if major == 0x12 && bit u.imm 9 then .spld
    else r.lat

/-- L of a unit: the class's bound, lengthened by 25 a level for the SLI trees of 08 R234. -/
def boundOf (w64 : Bool) (major minor : Nat) (r : Row) (u : U) : Nat :=
  let l := (latOf w64 major minor r u).bound
  let tree :=
    if w64 then
      if major == 0x5C || major == 0x5F then 6 else if major == 0x5D || major == 0x60 then 4 else if major == 0x5E then 10 else 0
    else if major == 0x22 then
      if minor == 4 || minor == 6 then 6 else if minor == 5 || minor == 7 then 4 else if minor == 8 then 10 else 0
    else 0
  if isS (etyOf w64 u) then l + 25 * tree else l

end Sys2Proof.Machine
end

