-- ==== Sys2Proof/Machine/Opcode.lean ====
section
/-! DEFINITION. Which constructor of Instr each major and minor names (08 R224, R225), and back: the key and the unit of an
encoded instruction. -/

namespace Sys2Proof.Machine

/-- Word size, major and minor of an encoded instruction; the minor is the unit's own where it is a parameter or an element
type. None for an event of the device, host or fabric, which no word encodes. -/
def keyOf (i : Instr) : Option (Bool × Nat × Nat × U) :=
  match i with
  | .add u => some (false, 0x01, 0, u)
  | .sub u => some (false, 0x01, 1, u)
  | .and u => some (false, 0x01, 2, u)
  | .or u => some (false, 0x01, 3, u)
  | .xor u => some (false, 0x01, 4, u)
  | .shl u => some (false, 0x01, 5, u)
  | .shr u => some (false, 0x01, 6, u)
  | .sar u => some (false, 0x01, 7, u)
  | .rol u => some (false, 0x01, 8, u)
  | .min u => some (false, 0x01, 9, u)
  | .max u => some (false, 0x01, 10, u)
  | .mul u => some (false, 0x02, 0, u)
  | .mulh u => some (false, 0x02, 1, u)
  | .div u => some (false, 0x02, 2, u)
  | .rem u => some (false, 0x02, 3, u)
  | .clz u => some (false, 0x03, 0, u)
  | .popc u => some (false, 0x03, 1, u)
  | .mov u => some (false, 0x03, 2, u)
  | .cmp u => some (false, 0x04, u.mi.toNat, u)
  | .addi u => some (false, 0x05, u.mi.toNat, u)
  | .addiX u => some (true, 0x03, u.mi.toNat, u)
  | .lea u => some (false, 0x06, u.mi.toNat, u)
  | .leaX u => some (true, 0x07, u.mi.toNat, u)
  | .pand u => some (false, 0x07, 0, u)
  | .por u => some (false, 0x07, 1, u)
  | .pxor u => some (false, 0x07, 2, u)
  | .pnot u => some (false, 0x07, 3, u)
  | .pmov u => some (false, 0x07, 4, u)
  | .pcnt u => some (false, 0x07, 5, u)
  | .pseti u => some (true, 0x06, 0, u)
  | .movi u => some (true, 0x01, u.mi.toNat, u)
  | .lui u => some (true, 0x02, u.mi.toNat, u)
  | .ext u => some (true, 0x04, 0, u)
  | .ins u => some (true, 0x04, 1, u)
  | .sel u => some (true, 0x05, 0, u)
  | .voteAny u => some (false, 0x09, 3, u)
  | .voteAll u => some (false, 0x09, 4, u)
  | .brPrep u => some (false, 0x08, u.mi.toNat, u)
  | .brPrepX u => some (true, 0x20, u.mi.toNat, u)
  | .brGo u => some (false, 0x09, 0, u)
  | .call u => some (false, 0x09, 1, u)
  | .callX u => some (true, 0x21, u.mi.toNat, u)
  | .ret u => some (false, 0x09, 2, u)
  | .loopCfg u => some (false, 0x0A, 0, u)
  | .loopGo u => some (false, 0x0A, 1, u)
  | .loopBrk u => some (false, 0x0A, 2, u)
  | .nop u => some (false, 0x0B, 0, u)
  | .nopW u => some (false, 0x0B, 1, u)
  | .halt u => some (false, 0x0B, 2, u)
  | .brk u => some (false, 0x0B, 3, u)
  | .traceMark u => some (false, 0x0B, 4, u)
  | .traceMarkX u => some (true, 0x22, u.mi.toNat, u)
  | .ldB u => some (false, 0x10, u.mi.toNat, u)
  | .ldH u => some (false, 0x11, u.mi.toNat, u)
  | .ldW u => some (false, 0x12, u.mi.toNat, u)
  | .ldD u => some (false, 0x13, u.mi.toNat, u)
  | .ldBSp u => some (false, 0x14, u.mi.toNat, u)
  | .ldHSp u => some (false, 0x15, u.mi.toNat, u)
  | .ldWSp u => some (false, 0x16, u.mi.toNat, u)
  | .ldDSp u => some (false, 0x17, u.mi.toNat, u)
  | .stB u => some (false, 0x18, u.mi.toNat, u)
  | .stH u => some (false, 0x19, u.mi.toNat, u)
  | .stW u => some (false, 0x1A, u.mi.toNat, u)
  | .stD u => some (false, 0x1B, u.mi.toNat, u)
  | .stBSp u => some (false, 0x1C, u.mi.toNat, u)
  | .stHSp u => some (false, 0x1D, u.mi.toNat, u)
  | .stWSp u => some (false, 0x1E, u.mi.toNat, u)
  | .stDSp u => some (false, 0x1F, u.mi.toNat, u)
  | .ldx u => some (true, 0x10, 0, u)
  | .ldAcq u => some (true, 0x10, 1, u)
  | .ldRlx u => some (true, 0x10, 2, u)
  | .stx u => some (true, 0x11, 0, u)
  | .stRel u => some (true, 0x11, 1, u)
  | .stRlx u => some (true, 0x11, 2, u)
  | .amoAdd u => some (true, 0x12, 0, u)
  | .amoMin u => some (true, 0x12, 1, u)
  | .amoMax u => some (true, 0x12, 2, u)
  | .amoAnd u => some (true, 0x12, 3, u)
  | .amoOr u => some (true, 0x12, 4, u)
  | .amoXor u => some (true, 0x12, 5, u)
  | .amoSwap u => some (true, 0x12, 6, u)
  | .amoCas u => some (true, 0x12, 7, u)
  | .amoAddl u => some (true, 0x12, 8, u)
  | .pref u => some (true, 0x13, 0, u)
  | .fence u => some (false, 0x0C, 0, u)
  | .fenceXp u => some (false, 0x0C, 1, u)
  | .tokWait u => some (false, 0x0C, 2, u)
  | .tokTest u => some (false, 0x0C, 3, u)
  | .tokAdd u => some (false, 0x0C, 4, u)
  | .arriveSet u => some (false, 0x0C, 5, u)
  | .arriveWait u => some (false, 0x0C, 6, u)
  | .qPush u => some (false, 0x0D, 0, u)
  | .qPop u => some (false, 0x0D, 1, u)
  | .qPopp u => some (false, 0x0D, 2, u)
  | .qPeek u => some (false, 0x0D, 3, u)
  | .vadd u => some (false, 0x20, 0, u)
  | .vsub u => some (false, 0x20, 1, u)
  | .vmul u => some (false, 0x20, 2, u)
  | .vmin u => some (false, 0x20, 3, u)
  | .vmax u => some (false, 0x20, 4, u)
  | .vand u => some (false, 0x20, 5, u)
  | .vor u => some (false, 0x20, 6, u)
  | .vxor u => some (false, 0x20, 7, u)
  | .vshl u => some (false, 0x20, 8, u)
  | .vshr u => some (false, 0x20, 9, u)
  | .vabs u => some (false, 0x20, 10, u)
  | .vneg u => some (false, 0x20, 11, u)
  | .vfma u => some (false, 0x21, 0, u)
  | .vbcastR u => some (false, 0x22, 0, u)
  | .vbcastC u => some (false, 0x22, 1, u)
  | .vrotR u => some (false, 0x22, 2, u)
  | .vrotC u => some (false, 0x22, 3, u)
  | .vredR u => some (false, 0x22, 4, u)
  | .vredC u => some (false, 0x22, 5, u)
  | .vscanR u => some (false, 0x22, 6, u)
  | .vscanC u => some (false, 0x22, 7, u)
  | .vreda u => some (false, 0x22, 8, u)
  | .vexp u => some (false, 0x23, 0, u)
  | .vlog u => some (false, 0x23, 1, u)
  | .vrcp u => some (false, 0x23, 2, u)
  | .vrsq u => some (false, 0x23, 3, u)
  | .vtanh u => some (false, 0x23, 4, u)
  | .vsliLvl u => some (false, 0x23, 5, u)
  | .vmovs u => some (false, 0x24, 0, u)
  | .vspill u => some (false, 0x24, 1, u)
  | .vfill u => some (false, 0x24, 2, u)
  | .vaddX u => some (true, 0x40, u.mi.toNat, u)
  | .vsubX u => some (true, 0x41, u.mi.toNat, u)
  | .vmulX u => some (true, 0x42, u.mi.toNat, u)
  | .vfmaX u => some (true, 0x43, u.mi.toNat, u)
  | .vminX u => some (true, 0x44, u.mi.toNat, u)
  | .vmaxX u => some (true, 0x45, u.mi.toNat, u)
  | .vabsX u => some (true, 0x46, u.mi.toNat, u)
  | .vnegX u => some (true, 0x47, u.mi.toNat, u)
  | .vandX u => some (true, 0x48, u.mi.toNat, u)
  | .vorX u => some (true, 0x49, u.mi.toNat, u)
  | .vxorX u => some (true, 0x4A, u.mi.toNat, u)
  | .vshlX u => some (true, 0x4B, u.mi.toNat, u)
  | .vshrX u => some (true, 0x4C, u.mi.toNat, u)
  | .vcmp u => some (true, 0x4D, u.mi.toNat, u)
  | .vsel u => some (true, 0x4E, u.mi.toNat, u)
  | .vimm u => some (true, 0x4F, u.mi.toNat, u)
  | .vmovsX u => some (true, 0x50, u.mi.toNat, u)
  | .vmovsIns u => some (true, 0x50, u.mi.toNat, u)
  | .vmovsExt u => some (true, 0x50, u.mi.toNat, u)
  | .vcvt u => some (true, 0x51, u.mi.toNat, u)
  | .vcvtSli32F64 u => some (true, 0x51, u.mi.toNat, u)
  | .vcvtF64Sli32 u => some (true, 0x51, u.mi.toNat, u)
  | .vcvtBxQuantise u => some (true, 0x51, u.mi.toNat, u)
  | .vcvtBxDequantise u => some (true, 0x51, u.mi.toNat, u)
  | .vexpX u => some (true, 0x52, u.mi.toNat, u)
  | .vlogX u => some (true, 0x53, u.mi.toNat, u)
  | .vrcpX u => some (true, 0x54, u.mi.toNat, u)
  | .vrsqX u => some (true, 0x55, u.mi.toNat, u)
  | .vtanhX u => some (true, 0x56, u.mi.toNat, u)
  | .vsliLvlX u => some (true, 0x57, u.mi.toNat, u)
  | .vbcastRX u => some (true, 0x58, u.mi.toNat, u)
  | .vbcastCX u => some (true, 0x59, u.mi.toNat, u)
  | .vrotRX u => some (true, 0x5A, u.mi.toNat, u)
  | .vrotCX u => some (true, 0x5B, u.mi.toNat, u)
  | .vredRX u => some (true, 0x5C, u.mi.toNat, u)
  | .vredCX u => some (true, 0x5D, u.mi.toNat, u)
  | .vredaX u => some (true, 0x5E, u.mi.toNat, u)
  | .vscanRX u => some (true, 0x5F, u.mi.toNat, u)
  | .vscanCX u => some (true, 0x60, u.mi.toNat, u)
  | .vld u => some (true, 0x61, u.mi.toNat, u)
  | .vst u => some (true, 0x62, u.mi.toNat, u)
  | .vspillX u => some (true, 0x63, u.mi.toNat, u)
  | .vfillX u => some (true, 0x64, u.mi.toNat, u)
  | .vchain u => some (true, 0x65, u.mi.toNat, u)
  | .fmtPush u => some (true, 0x80, u.mi.toNat, u)
  | .mxMma u => some (true, 0x81, u.mi.toNat, u)
  | .mxMmas u => some (true, 0x82, u.mi.toNat, u)
  | .mxZero u => some (true, 0x83, u.mi.toNat, u)
  | .cpAcc u => some (true, 0x84, 0, u)
  | .cpLd u => some (true, 0x85, 0, u)
  | .cpSt u => some (true, 0x86, 0, u)
  | .cpX u => some (true, 0x87, 0, u)
  | .cpG u => some (true, 0x88, 0, u)
  | .cpS u => some (true, 0x89, 0, u)
  | .cp2d u => some (true, 0x8A, 0, u)
  | .cpSend u => some (true, 0x8B, 0, u)
  | .hbeat u => some (false, 0x0E, 0, u)
  | .workid u => some (false, 0x0E, 1, u)
  | .yieldOp u => some (false, 0x0E, 2, u)
  | .taskExit u => some (false, 0x0E, 3, u)
  | .taskSuspend u => some (false, 0x0E, 4, u)
  | .taskLaunch u => some (false, 0x0E, 5, u)
  | .taskLaunchw u => some (false, 0x0E, 6, u)
  | .calBook u => some (false, 0x0F, 0, u)
  | .calCancel u => some (false, 0x0F, 1, u)
  | .calQueryStatus u => some (false, 0x0F, 2, u)
  | .calQuerySlot u => some (false, 0x0F, 2, u)
  | .trapRet u => some (false, 0x30, 0, u)
  | .trapAck u => some (false, 0x30, 1, u)
  | .trapReflect u => some (false, 0x30, 2, u)
  | .syscall u => some (false, 0x30, 3, u)
  | .coreReset u => some (false, 0x30, 4, u)
  | .tlbInvRange u => some (false, 0x30, 5, u)
  | .tlbInvSpace u => some (false, 0x30, 5, u)
  | .tlbInvHandle u => some (false, 0x30, 5, u)
  | .csrRd u => some (true, 0x90, 0, u)
  | .csrWr u => some (true, 0x90, 1, u)
  | .csrSwap u => some (true, 0x90, 2, u)
  | .ctxCreate u => some (true, 0xA0, 0, u)
  | .ctxGrantSet u => some (true, 0xA0, 1, u)
  | .ctxGrantCores u => some (true, 0xA0, 1, u)
  | .ctxGrantMxh u => some (true, 0xA0, 1, u)
  | .ctxGrantCg u => some (true, 0xA0, 1, u)
  | .ctxGrantFx u => some (true, 0xA0, 1, u)
  | .ctxGrantQuota u => some (true, 0xA0, 1, u)
  | .ctxGrantMem u => some (true, 0xA0, 1, u)
  | .ctxGrantSpad u => some (true, 0xA0, 1, u)
  | .ctxGrantCal u => some (true, 0xA0, 1, u)
  | .ctxGrantHt u => some (true, 0xA0, 1, u)
  | .ctxGrantRun u => some (true, 0xA0, 1, u)
  | .ctxRevokeCores u => some (true, 0xA0, 2, u)
  | .ctxRevokeMxh u => some (true, 0xA0, 2, u)
  | .ctxRevokeCg u => some (true, 0xA0, 2, u)
  | .ctxRevokeFx u => some (true, 0xA0, 2, u)
  | .ctxRevokeQuota u => some (true, 0xA0, 2, u)
  | .ctxRevokeMem u => some (true, 0xA0, 2, u)
  | .ctxRevokeSpad u => some (true, 0xA0, 2, u)
  | .ctxRevokeCal u => some (true, 0xA0, 2, u)
  | .ctxRevokeHt u => some (true, 0xA0, 2, u)
  | .ctxRevokeRun u => some (true, 0xA0, 2, u)
  | .ctxDestroy u => some (true, 0xA0, 3, u)
  | .ctxQuery u => some (true, 0xA0, 4, u)
  | .dirtylogEnable u => some (true, 0x90, 1, u)
  | .dirtylogDisable u => some (true, 0x90, 1, u)
  | .dirtylogExport u => some (true, 0x90, 1, u)
  | .dirtylogImport u => some (true, 0x90, 1, u)
  | .chkresetGo u => some (true, 0x90, 1, u)
  | .blogWrite u => some (true, 0x90, 1, u)
  | .bcmbaseWrite u => some (true, 0x90, 1, u)
  | .chkregWrite u => some (true, 0x90, 1, u)
  | .accfreeWrite u => some (true, 0x90, 1, u)
  | .isetWrite u => some (true, 0x90, 1, u)
  | .hsemAcquire u => some (true, 0x90, 1, u)
  | .hsemRelease u => some (true, 0x90, 1, u)
  | .pmcLoRead u => some (true, 0x90, 0, u)
  | .pmcHiWrite u => some (true, 0x90, 1, u)
  | .slotBoundary => none
  | .watchdogExpire _ => none
  | .forcedSave _ => none
  | .offerLapse _ => none
  | .prepareTimeout _ => none
  | .waitListSearch _ => none
  | .priorityAging _ _ => none
  | .continuationParkTimeout _ _ => none
  | .taskAdmission _ => none
  | .bookingSearch _ => none
  | .backfill _ _ => none
  | .engineCommandStart _ => none
  | .engineLineAccess _ _ => none
  | .matrixBlockPair _ => none
  | .chainElement _ => none
  | .sendEntry _ => none
  | .commandBoundarySuspend _ => none
  | .engineCommandComplete _ => none
  | .storeLeave _ _ => none
  | .loadDataReturn _ _ _ => none
  | .pendingRecordWrite _ => none
  | .handlerStart _ => none
  | .tokWaitConsume _ _ => none
  | .arriveWaitComplete _ _ => none
  | .queueWaitResume _ _ => none
  | .continuationReady _ _ => none
  | .continuationTake _ => none
  | .continuationSteal _ => none
  | .contextStopComplete _ => none
  | .revocationComplete _ => none
  | .tlbInvComplete _ => none
  | .handleInvComplete _ => none
  | .chkresetDone _ => none
  | .exportComplete _ => none
  | .importComplete _ => none
  | .destroyComplete _ => none
  | .memoryErrorDetect _ => none
  | .structureError _ => none
  | .lineFill _ _ => none
  | .powerGood _ => none
  | .rootContextStart => none
  | .recoveryVerify _ => none
  | .attestationReport => none
  | .thermalThrottle => none
  | .throttleEnd => none
  | .computePowerOff => none
  | .read _ _ _ => none
  | .write _ _ _ => none
  | .writeRel _ _ _ => none
  | .spwrite _ _ _ _ _ _ => none
  | .semAcq _ _ => none
  | .semRel _ _ _ => none
  | .feataccWrite _ => none
  | .hstatAck _ => none
  | .fxcfgWrite _ _ => none
  | .fabricPortTrained _ _ _ => none
  | .fabricPortLost _ => none
  | .fabricWrite _ _ => none
  | .wack _ _ => none
  | .sendreq _ _ => none
  | .raccept _ _ => none
  | .rfull _ _ => none
  | .prepare _ _ => none
  | .offer _ _ => none
  | .refuse _ _ => none
  | .commit _ _ => none
  | .release _ _ => none
  | .slotsync _ _ => none

/-- The unit of a 32-bit major and minor (08 R224). -/
def of32 (major minor : Nat) (u : U) : Option Instr :=
  match major with
  | 0x01 => match minor with
    | 0 => some (.add u)
    | 1 => some (.sub u)
    | 2 => some (.and u)
    | 3 => some (.or u)
    | 4 => some (.xor u)
    | 5 => some (.shl u)
    | 6 => some (.shr u)
    | 7 => some (.sar u)
    | 8 => some (.rol u)
    | 9 => some (.min u)
    | 10 => some (.max u)
    | _ => none
  | 0x02 => match minor with
    | 0 => some (.mul u)
    | 1 => some (.mulh u)
    | 2 => some (.div u)
    | 3 => some (.rem u)
    | _ => none
  | 0x03 => match minor with
    | 0 => some (.clz u)
    | 1 => some (.popc u)
    | 2 => some (.mov u)
    | _ => none
  | 0x04 => some (.cmp u)
  | 0x05 => some (.addi u)
  | 0x06 => some (.lea u)
  | 0x07 => match minor with
    | 0 => some (.pand u)
    | 1 => some (.por u)
    | 2 => some (.pxor u)
    | 3 => some (.pnot u)
    | 4 => some (.pmov u)
    | 5 => some (.pcnt u)
    | _ => none
  | 0x08 => some (.brPrep u)
  | 0x09 => match minor with
    | 0 => some (.brGo u)
    | 1 => some (.call u)
    | 2 => some (.ret u)
    | 3 => some (.voteAny u)
    | 4 => some (.voteAll u)
    | _ => none
  | 0x0A => match minor with
    | 0 => some (.loopCfg u)
    | 1 => some (.loopGo u)
    | 2 => some (.loopBrk u)
    | _ => none
  | 0x0B => match minor with
    | 0 => some (.nop u)
    | 1 => some (.nopW u)
    | 2 => some (.halt u)
    | 3 => some (.brk u)
    | 4 => some (.traceMark u)
    | _ => none
  | 0x0C => match minor with
    | 0 => some (.fence u)
    | 1 => some (.fenceXp u)
    | 2 => some (.tokWait u)
    | 3 => some (.tokTest u)
    | 4 => some (.tokAdd u)
    | 5 => some (.arriveSet u)
    | 6 => some (.arriveWait u)
    | _ => none
  | 0x0D => match minor with
    | 0 => some (.qPush u)
    | 1 => some (.qPop u)
    | 2 => some (.qPopp u)
    | 3 => some (.qPeek u)
    | _ => none
  | 0x0E => match minor with
    | 0 => some (.hbeat u)
    | 1 => some (.workid u)
    | 2 => some (.yieldOp u)
    | 3 => some (.taskExit u)
    | 4 => some (.taskSuspend u)
    | 5 => some (.taskLaunch u)
    | 6 => some (.taskLaunchw u)
    | _ => none
  | 0x0F => match minor with
    | 0 => some (.calBook u)
    | 1 => some (.calCancel u)
    | 2 => some (if u.b = 0 then .calQueryStatus u else .calQuerySlot u)
    | _ => none
  | 0x10 => some (.ldB u)
  | 0x11 => some (.ldH u)
  | 0x12 => some (.ldW u)
  | 0x13 => some (.ldD u)
  | 0x14 => some (.ldBSp u)
  | 0x15 => some (.ldHSp u)
  | 0x16 => some (.ldWSp u)
  | 0x17 => some (.ldDSp u)
  | 0x18 => some (.stB u)
  | 0x19 => some (.stH u)
  | 0x1A => some (.stW u)
  | 0x1B => some (.stD u)
  | 0x1C => some (.stBSp u)
  | 0x1D => some (.stHSp u)
  | 0x1E => some (.stWSp u)
  | 0x1F => some (.stDSp u)
  | 0x20 => match minor with
    | 0 => some (.vadd u)
    | 1 => some (.vsub u)
    | 2 => some (.vmul u)
    | 3 => some (.vmin u)
    | 4 => some (.vmax u)
    | 5 => some (.vand u)
    | 6 => some (.vor u)
    | 7 => some (.vxor u)
    | 8 => some (.vshl u)
    | 9 => some (.vshr u)
    | 10 => some (.vabs u)
    | 11 => some (.vneg u)
    | _ => none
  | 0x21 => match minor with
    | 0 => some (.vfma u)
    | _ => none
  | 0x22 => match minor with
    | 0 => some (.vbcastR u)
    | 1 => some (.vbcastC u)
    | 2 => some (.vrotR u)
    | 3 => some (.vrotC u)
    | 4 => some (.vredR u)
    | 5 => some (.vredC u)
    | 6 => some (.vscanR u)
    | 7 => some (.vscanC u)
    | 8 => some (.vreda u)
    | _ => none
  | 0x23 => match minor with
    | 0 => some (.vexp u)
    | 1 => some (.vlog u)
    | 2 => some (.vrcp u)
    | 3 => some (.vrsq u)
    | 4 => some (.vtanh u)
    | 5 => some (.vsliLvl u)
    | _ => none
  | 0x24 => match minor with
    | 0 => some (.vmovs u)
    | 1 => some (.vspill u)
    | 2 => some (.vfill u)
    | _ => none
  | 0x30 => match minor with
    | 0 => some (.trapRet u)
    | 1 => some (.trapAck u)
    | 2 => some (.trapReflect u)
    | 3 => some (.syscall u)
    | 4 => some (.coreReset u)
    | 5 => some (if u.b = 0 then .tlbInvSpace u else if u.b.toNat % 2 = 0 then .tlbInvRange u else .tlbInvHandle u)
    | _ => none
  | _ => none

/-- The CSR instruction of a minor and a CSR number (13 R368, R369): the accesses that the opcode table lists as rows of their own. -/
def ofCsr (minor : Nat) (u : U) : Option Instr :=
  let n := u.imm.toNat
  match minor with
  | 0 => some (if 0x110 ≤ n ∧ n ≤ 0x12F ∧ n % 2 = 0 then .pmcLoRead u else .csrRd u)
  | 1 =>
    some (if n = 0x01A then .chkregWrite u else if n = 0x01C then .accfreeWrite u else if 0x050 ≤ n ∧ n ≤ 0x05F then .isetWrite u
      else if n = 0x01E then .blogWrite u else if n = 0x020 then .bcmbaseWrite u else if n = 0x01D then .chkresetGo u
      else if 0x110 ≤ n ∧ n ≤ 0x12F ∧ n % 2 = 1 then .pmcHiWrite u else .csrWr u)
  | 2 => some (.csrSwap u)
  | _ => none

/-- The context instruction of a minor and a KIND (13 R365). -/
def ofCtx (minor : Nat) (u : U) : Option Instr :=
  match minor with
  | 0 => some (.ctxCreate u)
  | 1 => match u.imm.toNat with
    | 0 => some (.ctxGrantSet u)
    | 1 => some (.ctxGrantCores u)
    | 2 => some (.ctxGrantMxh u)
    | 3 => some (.ctxGrantCg u)
    | 4 => some (.ctxGrantFx u)
    | 5 => some (.ctxGrantQuota u)
    | 6 => some (.ctxGrantMem u)
    | 7 => some (.ctxGrantSpad u)
    | 8 => some (.ctxGrantCal u)
    | 9 => some (.ctxGrantHt u)
    | 10 => some (.ctxGrantRun u)
    | _ => none
  | 2 => match u.imm.toNat with
    | 1 => some (.ctxRevokeCores u)
    | 2 => some (.ctxRevokeMxh u)
    | 3 => some (.ctxRevokeCg u)
    | 4 => some (.ctxRevokeFx u)
    | 5 => some (.ctxRevokeQuota u)
    | 6 => some (.ctxRevokeMem u)
    | 7 => some (.ctxRevokeSpad u)
    | 8 => some (.ctxRevokeCal u)
    | 9 => some (.ctxRevokeHt u)
    | 10 => some (.ctxRevokeRun u)
    | _ => none
  | 3 => some (.ctxDestroy u)
  | 4 => some (.ctxQuery u)
  | _ => none

/-- The 64-bit VMOVS of a direction (10 R288). -/
def ofVmovs (u : U) : Option Instr :=
  match bits u.imm 15 14 with
  | 0 => some (.vmovsX u)
  | 1 => some (.vmovsIns u)
  | 2 => some (.vmovsExt u)
  | _ => none

/-- The VCVT of a mode (10 R296). -/
def ofVcvt (u : U) : Option Instr :=
  match cvtMode u with
  | 0 => some (.vcvt u)
  | 1 => some (.vcvtSli32F64 u)
  | 2 => some (.vcvtF64Sli32 u)
  | _ => some (if u.mi = 8 ∨ u.mi = 9 then .vcvtBxQuantise u else .vcvtBxDequantise u)

/-- The unit of a 64-bit major and minor (08 R225). -/
def of64 (major minor : Nat) (u : U) : Option Instr :=
  match major with
  | 0x01 => some (.movi u)
  | 0x02 => some (.lui u)
  | 0x03 => some (.addiX u)
  | 0x04 => match minor with
    | 0 => some (.ext u)
    | 1 => some (.ins u)
    | _ => none
  | 0x05 => match minor with
    | 0 => some (.sel u)
    | _ => none
  | 0x06 => match minor with
    | 0 => some (.pseti u)
    | _ => none
  | 0x07 => some (.leaX u)
  | 0x10 => match minor with
    | 0 => some (.ldx u)
    | 1 => some (.ldAcq u)
    | 2 => some (.ldRlx u)
    | _ => none
  | 0x11 => match minor with
    | 0 => some (.stx u)
    | 1 => some (.stRel u)
    | 2 => some (.stRlx u)
    | _ => none
  | 0x12 => match minor with
    | 0 => some (.amoAdd u)
    | 1 => some (.amoMin u)
    | 2 => some (.amoMax u)
    | 3 => some (.amoAnd u)
    | 4 => some (.amoOr u)
    | 5 => some (.amoXor u)
    | 6 => some (.amoSwap u)
    | 7 => some (.amoCas u)
    | 8 => some (.amoAddl u)
    | _ => none
  | 0x13 => match minor with
    | 0 => some (.pref u)
    | _ => none
  | 0x20 => some (.brPrepX u)
  | 0x21 => some (.callX u)
  | 0x22 => some (.traceMarkX u)
  | 0x40 => some (.vaddX u)
  | 0x41 => some (.vsubX u)
  | 0x42 => some (.vmulX u)
  | 0x43 => some (.vfmaX u)
  | 0x44 => some (.vminX u)
  | 0x45 => some (.vmaxX u)
  | 0x46 => some (.vabsX u)
  | 0x47 => some (.vnegX u)
  | 0x48 => some (.vandX u)
  | 0x49 => some (.vorX u)
  | 0x4A => some (.vxorX u)
  | 0x4B => some (.vshlX u)
  | 0x4C => some (.vshrX u)
  | 0x4D => some (.vcmp u)
  | 0x4E => some (.vsel u)
  | 0x4F => some (.vimm u)
  | 0x50 => ofVmovs u
  | 0x51 => ofVcvt u
  | 0x52 => some (.vexpX u)
  | 0x53 => some (.vlogX u)
  | 0x54 => some (.vrcpX u)
  | 0x55 => some (.vrsqX u)
  | 0x56 => some (.vtanhX u)
  | 0x57 => some (.vsliLvlX u)
  | 0x58 => some (.vbcastRX u)
  | 0x59 => some (.vbcastCX u)
  | 0x5A => some (.vrotRX u)
  | 0x5B => some (.vrotCX u)
  | 0x5C => some (.vredRX u)
  | 0x5D => some (.vredCX u)
  | 0x5E => some (.vredaX u)
  | 0x5F => some (.vscanRX u)
  | 0x60 => some (.vscanCX u)
  | 0x61 => some (.vld u)
  | 0x62 => some (.vst u)
  | 0x63 => some (.vspillX u)
  | 0x64 => some (.vfillX u)
  | 0x65 => some (.vchain u)
  | 0x80 => some (.fmtPush u)
  | 0x81 => some (.mxMma u)
  | 0x82 => some (.mxMmas u)
  | 0x83 => some (.mxZero u)
  | 0x84 => match minor with
    | 0 => some (.cpAcc u)
    | _ => none
  | 0x85 => match minor with
    | 0 => some (.cpLd u)
    | _ => none
  | 0x86 => match minor with
    | 0 => some (.cpSt u)
    | _ => none
  | 0x87 => match minor with
    | 0 => some (.cpX u)
    | _ => none
  | 0x88 => match minor with
    | 0 => some (.cpG u)
    | _ => none
  | 0x89 => match minor with
    | 0 => some (.cpS u)
    | _ => none
  | 0x8A => match minor with
    | 0 => some (.cp2d u)
    | _ => none
  | 0x8B => match minor with
    | 0 => some (.cpSend u)
    | _ => none
  | 0x90 => ofCsr minor u
  | 0xA0 => ofCtx minor u
  | _ => none

/-- The instruction that a word size, major, minor and unit name. -/
def ofKey (w64 : Bool) (major minor : Nat) (u : U) : Option Instr := if w64 then of64 major minor u else of32 major minor u

end Sys2Proof.Machine
end

