-- ==== Sys2Proof/WellFormed.lean ====
section
/-! DEFINITION. Well-formed instructions: the fields an encoding admits (08 R216-R227). -/

namespace Sys2Proof

open Sys2Proof.Machine

/-- How many modifier words a unit carries (08 R217). -/
def Mods.count (m : Mods) : Nat := b2n m.ar.isSome + b2n m.lp.isSome + b2n m.ex

/-- The fields that a form does not hold are zero, and its immediate is as the form extends it (08 R218-R221, R228). -/
def formOk (f : Form) (u : U) : Bool :=
  match f with
  | .r => u.imm == 0 && u.g.toNat < 4 && (u.m.ex || (u.p == 0 && u.e == 0))
  | .i => u.c == 0 && u.e == 0 && u.p == 0 && u.mi == 0 && u.imm == (u.imm.truncate 10).signExtend 32 && u.g.toNat < 4
  | .b =>
    u.a.toNat < 8 && u.b == 0 && u.c == 0 && u.e == 0 && u.p == 0 && u.mi == 0 && u.imm == (u.imm.truncate 19).signExtend 32
      && u.g.toNat < 4
  | .s => u.b == 0 && u.c == 0 && u.e == 0 && u.p == 0 && u.imm.toNat < 4096 && u.g.toNat < 4
  | .x => u.imm.toNat < 65536
  | .y => u.c == 0 && u.e == 0 && u.mi == 0
  | .undecoded => false

/-- The rows of the opcode table that share a major and minor with another row: what singles each out. -/
def rowOk (i : Instr) : Bool :=
  match i with
  | .calQueryStatus u => u.b == 0
  | .calQuerySlot u => u.b != 0
  | .tlbInvSpace u => u.b == 0
  | .tlbInvRange u => u.b != 0 && u.b.toNat % 2 == 0
  | .tlbInvHandle u => u.b.toNat % 2 == 1
  | .csrRd u => !(0x110 ≤ u.imm.toNat && u.imm.toNat ≤ 0x12F && u.imm.toNat % 2 == 0)
  | .pmcLoRead u => 0x110 ≤ u.imm.toNat && u.imm.toNat ≤ 0x12F && u.imm.toNat % 2 == 0
  | .pmcHiWrite u => 0x110 ≤ u.imm.toNat && u.imm.toNat ≤ 0x12F && u.imm.toNat % 2 == 1
  | .csrWr u => ofCsr 1 u == some (.csrWr u)
  | .chkregWrite u => u.imm.toNat == 0x01A
  | .accfreeWrite u => u.imm.toNat == 0x01C
  | .isetWrite u => 0x050 ≤ u.imm.toNat && u.imm.toNat ≤ 0x05F
  | .blogWrite u => u.imm.toNat == 0x01E
  | .bcmbaseWrite u => u.imm.toNat == 0x020
  | .chkresetGo u => u.imm.toNat == 0x01D
  | .dirtylogEnable u => u.imm.toNat == 0x01F
  | .dirtylogDisable u => u.imm.toNat == 0x01F
  | .dirtylogExport u => u.imm.toNat == 0x01F
  | .dirtylogImport u => u.imm.toNat == 0x01F
  | .hsemAcquire u => 0x060 ≤ u.imm.toNat && u.imm.toNat ≤ 0x07F
  | .hsemRelease u => 0x060 ≤ u.imm.toNat && u.imm.toNat ≤ 0x07F
  | .ctxGrantSet u => u.imm.toNat == 0
  | .ctxGrantCores u => u.imm.toNat == 1
  | .ctxGrantMxh u => u.imm.toNat == 2
  | .ctxGrantCg u => u.imm.toNat == 3
  | .ctxGrantFx u => u.imm.toNat == 4
  | .ctxGrantQuota u => u.imm.toNat == 5
  | .ctxGrantMem u => u.imm.toNat == 6
  | .ctxGrantSpad u => u.imm.toNat == 7
  | .ctxGrantCal u => u.imm.toNat == 8
  | .ctxGrantHt u => u.imm.toNat == 9
  | .ctxGrantRun u => u.imm.toNat == 10
  | .ctxRevokeCores u => u.imm.toNat == 1
  | .ctxRevokeMxh u => u.imm.toNat == 2
  | .ctxRevokeCg u => u.imm.toNat == 3
  | .ctxRevokeFx u => u.imm.toNat == 4
  | .ctxRevokeQuota u => u.imm.toNat == 5
  | .ctxRevokeMem u => u.imm.toNat == 6
  | .ctxRevokeSpad u => u.imm.toNat == 7
  | .ctxRevokeCal u => u.imm.toNat == 8
  | .ctxRevokeHt u => u.imm.toNat == 9
  | .ctxRevokeRun u => u.imm.toNat == 10
  | .vmovsX u => bits u.imm 15 14 == 0
  | .vmovsIns u => bits u.imm 15 14 == 1
  | .vmovsExt u => bits u.imm 15 14 == 2
  | .vcvt u => cvtMode u == 0
  | .vcvtSli32F64 u => cvtMode u == 1
  | .vcvtF64Sli32 u => cvtMode u == 2
  | .vcvtBxQuantise u => cvtMode u == 3 && (u.mi == 8 || u.mi == 9)
  | .vcvtBxDequantise u => cvtMode u == 3 && !(u.mi == 8 || u.mi == 9)
  | _ => true

/-- The unit of a key obeys the key's row: form, minor, fields, modifiers (08 R216-R227). -/
def unitOk (w64 : Bool) (major minor : Nat) (u : U) : Bool :=
  match rowOf w64 major minor with
  | none => false
  | some r => formOk r.form u && u.mi.toNat == minor && fieldsOk w64 major minor r u && modsOk w64 major r u && u.m.count ≤ 2

/-- A well-formed instruction: one that some legal encoding stands for. An event of the device, host or fabric, which no word
encodes, is always well formed. -/
def Instr.wellFormed (i : Instr) : Bool :=
  match keyOf i with
  | none => true
  | some (w64, major, minor, u) => unitOk w64 major minor u && rowOk i

/-- The instruction a word decodes to: six rows of the table are a CSR.WR whose written value singles them out at issue. -/
def Instr.base (i : Instr) : Instr :=
  match i with
  | .dirtylogEnable u => .csrWr u
  | .dirtylogDisable u => .csrWr u
  | .dirtylogExport u => .csrWr u
  | .dirtylogImport u => .csrWr u
  | .hsemAcquire u => .csrWr u
  | .hsemRelease u => .csrWr u
  | j => j

end Sys2Proof
end

