-- ==== Sys2Proof/Decode.lean ====
section
/-! DEFINITION. Decoding (08 R216-R231): words to internal words, lines to units, internal words to instructions; and the
encoder. -/

namespace Sys2Proof

open Sys2Proof.Machine

/-- Why a unit is an illegal encoding: PCODE (08 R228). -/
inductive Reject where
  | sel11 | unasg | rsvbits | pfxbad | cross | loopcap | midword
  deriving DecidableEq, Repr

/-- PCODE of a reason (08 R228). -/
def Reject.code : Reject → Nat
  | .sel11 => 1 | .unasg => 2 | .rsvbits => 3 | .pfxbad => 4 | .cross => 5 | .loopcap => 6 | .midword => 7

/-- The reason with the lower PCODE (08 R228, R229). -/
def Reject.lower (x y : Option Reject) : Option Reject :=
  match x, y with
  | none, y => y
  | x, none => x
  | some p, some q => if p.code ≤ q.code then some p else some q

/-- The internal word of a unit (08 R228): what the fill makes of it. -/
structure IW where
  form : Form
  npfx : Nat
  w64 : Bool
  poison : Option Reject
  major : BitVec 8
  pos : BitVec 2
  level : BitVec 3
  stage : BitVec 3
  u : U
  deriving DecidableEq, Repr

/-- No modifier words. -/
def Mods.none : Mods := ⟨.none, .none, false⟩

/-- A unit with every field zero. -/
def U.zero : U := ⟨Mods.none, 0, 0, 0, 0, 0, 0, 0, 0⟩

/-- The selector of a word (08 R216). -/
def selOf (w : W32) : Nat := bits w 1 0

/-- KIND of a modifier word (08 R222). -/
def pfxKind (w : W32) : Nat := bits w 3 2

/-- A modifier word breaks 08 R222 or R223 by its own bits. -/
def pfxBits (w : W32) : Bool :=
  match pfxKind w with
  | 0 => bits w 31 13 != 0 || 5 ≤ bits w 6 4 || (!bit w 8 && bits w 12 9 != 0)
  | 1 =>
    bits w 31 12 != 0 || bits w 5 4 == 0 || 6 ≤ bits w 8 6
      || (bits w 5 4 == 3 && bits w 8 6 != 0) || (bits w 5 4 != 3 && bits w 11 9 != 0)
  | 2 => bits w 31 16 != 0
  | _ => true

/-- What the modifier words say, folded in order: internal word, kinds seen, whether their number or kinds break R223. -/
def addPfx (x : IW × List Nat × Bool) (w : W32) : IW × List Nat × Bool :=
  let (iw, seen, bad) := x
  let k := pfxKind w
  let bad := bad || k == 3 || seen.contains k || 2 ≤ seen.length
  let u := iw.u
  let iw : IW :=
    match k with
    | 0 => { iw with u := { u with m := { u.m with ar := some ⟨bit w 7, BitVec.ofNat 3 (bits w 6 4), bit w 8, BitVec.ofNat 4 (bits w 12 9)⟩ } } }
    | 1 =>
      let lv := BitVec.ofNat 3 (bits w 8 6)
      let st := BitVec.ofNat 3 (bits w 11 9)
      let lp : Option LoopPos :=
        match bits w 5 4 with
        | 1 => some (.first lv)
        | 2 => some (.last lv)
        | 3 => some (.stage st)
        | _ => none
      { iw with pos := BitVec.ofNat 2 (bits w 5 4), level := lv, stage := st, u := { u with m := { u.m with lp := lp } } }
    | 2 => { iw with u := { u with m := { u.m with ex := true }, p := BitVec.ofNat 6 (bits w 15 10), e := BitVec.ofNat 6 (bits w 9 4) } }
    | _ => iw
  (iw, k :: seen, bad)

/-- An internal word with nothing decoded. -/
def IW.blank : IW := ⟨.undecoded, 0, false, none, 0, 0, 0, 0, U.zero⟩

/-- The modifier words of a unit, read into a blank internal word. -/
def readPfx (ws : List W32) : IW × Bool :=
  let x := ws.foldl addPfx (IW.blank, [], false)
  ({ x.1 with npfx := min 2 ws.length }, x.2.2)

/-- The fields of a 32-bit instruction word by its form (08 R218, R219, R228). -/
def fields32 (f : Form) (u : U) (w : W32) : U :=
  let g := BitVec.ofNat 4 (bits w 9 8)
  let a := BitVec.ofNat 6 (bits w 15 10)
  let b := BitVec.ofNat 6 (bits w 21 16)
  match f with
  | .r => { u with g := g, a := a, b := b, c := BitVec.ofNat 6 (bits w 27 22), mi := BitVec.ofNat 4 (bits w 31 28) }
  | .i => { u with g := g, a := a, b := b, imm := (w.extractLsb' 22 10).signExtend 32 }
  | .b => { u with g := g, a := BitVec.ofNat 6 (bits w 12 10), imm := (w.extractLsb' 13 19).signExtend 32 }
  | .s => { u with g := g, a := a, mi := BitVec.ofNat 4 (bits w 31 28), imm := BitVec.ofNat 32 (bits w 27 16) }
  | _ => { u with g := g }

/-- The fields of a 64-bit instruction by its form (08 R220, R228). -/
def fields64 (f : Form) (u : U) (w0 w1 : W32) : U :=
  let g := BitVec.ofNat 4 (bits w0 13 10)
  let a := BitVec.ofNat 6 (bits w0 19 14)
  let b := BitVec.ofNat 6 (bits w0 25 20)
  let c := BitVec.ofNat 6 (bits w0 31 26)
  match f with
  | .x =>
    { u with g := g, a := a, b := b, c := c, p := BitVec.ofNat 6 (bits w1 11 6), e := BitVec.ofNat 6 (bits w1 5 0),
             mi := BitVec.ofNat 4 (bits w1 15 12), imm := BitVec.ofNat 32 (bits w1 31 16) }
  | .y => { u with g := g, a := a, b := b, p := c, imm := w1 }
  | _ => { u with g := g }

/-- The major opcode of a word (08 R218, R220). -/
def majorOf (w : W32) : Nat := if selOf w = 1 then bits w 9 2 else bits w 7 2

/-- The reason, if any, why an expanded unit is an illegal encoding by its own fields (08 R227, R228); a kind of
modifier word that the row refuses gives the unit no field (DEDUCED, log 30). -/
def unitChecks (w64 : Bool) (major : Nat) (u : U) : Option Reject :=
  match rowOf w64 major u.mi.toNat with
  | none => some .unasg
  | some r =>
    let v : U := if u.m.ex && !r.ex then { u with p := 0, e := 0 } else u
    if !fieldsOk w64 major u.mi.toNat r v then some .rsvbits
    else if !modsOk w64 major r u then some .pfxbad
    else none

/-- A unit from its modifier words and instruction words (08 R217-R228). -/
def expand (ps : List W32) (w0 w1 : W32) : IW :=
  let (iw, bad) := readPfx ps
  let pb : Option Reject := if bad || ps.any pfxBits then some .pfxbad else none
  if selOf w0 = 3 then { iw with poison := some .sel11 }
  else
    let w64 := selOf w0 = 1
    let major := majorOf w0
    let f := formOf w64 major
    let u := if w64 then fields64 f iw.u w0 w1 else fields32 f iw.u w0
    { iw with form := f, w64 := w64, major := BitVec.ofNat 8 major, u := u, poison := Reject.lower pb (unitChecks w64 major u) }

/-- The instruction of an internal word: none where it is poisoned. -/
def IW.instr (iw : IW) : Option Instr :=
  if iw.poison.isSome then none else ofKey iw.w64 iw.major.toNat iw.u.mi.toNat iw.u

/-- A unit that runs past its line: poisoned with the lower of CROSS and what the fill found among its modifier words, by the
text of R229's function (DEDUCED, log 30): their number and kinds. -/
def crossUnit (ps : List W32) : IW :=
  let (iw, bad) := readPfx ps
  { IW.blank with npfx := iw.npfx, poison := some (if bad then .pfxbad else .cross) }

/-- A unit at the head of a list of words: its internal word, its length in words, and how many of them are modifier words. -/
def parseUnit (ws : List W32) : IW × Nat × Nat :=
  let ps := ws.takeWhile (fun w => selOf w == 2)
  match ws.drop ps.length with
  | [] => (crossUnit ps, ps.length, ps.length)
  | [w0] =>
    if selOf w0 = 1 then (crossUnit ps, ps.length + 1, ps.length)
    else (expand ps w0 0, ps.length + 1, ps.length)
  | w0 :: w1 :: _ => (expand ps w0 w1, ps.length + (if selOf w0 = 1 then 2 else 1), ps.length)

/-- A unit of a line: its first word, its length, its modifier words, its internal word (08 R229). -/
structure LineUnit where
  start : Nat
  len : Nat
  np : Nat
  iw : IW
  deriving DecidableEq, Repr

/-- The fill of 08 R229: the units of a line from word `at` on. -/
def fillFrom : Nat → Nat → List W32 → List LineUnit
  | 0, _, _ => []
  | _, _, [] => []
  | n + 1, pos, ws =>
    let (iw, len, np) := parseUnit ws
    ⟨pos, len, np, iw⟩ :: fillFrom n (pos + len) (ws.drop len)

/-- The units of a 64-byte line (08 R229). -/
def fillLine (ws : List W32) : List LineUnit := fillFrom 16 0 (ws.take 16)

/-- What an address in a line enters (08 R230): a unit, an orphan (a later modifier word or the instruction word of a unit
with modifier words), or the second word of a 64-bit instruction. -/
inductive Entry where
  | whole (x : LineUnit)
  | orphan
  | mid
  deriving DecidableEq, Repr

/-- What word k of a line enters (08 R230). -/
def enterAt (us : List LineUnit) (k : Nat) : Entry :=
  match us.find? (fun x => x.start == k) with
  | some x => .whole x
  | none =>
    match us.find? (fun x => x.start < k && k < x.start + x.len) with
    | some x => if k ≤ x.start + x.np then .orphan else .mid
    | none => .mid

/-- The instruction at the head of a list of words, with its length in words, or the reason it is refused. -/
def decode (ws : List W32) : Except Reject (Instr × Nat) :=
  let (iw, len, _) := parseUnit ws
  match iw.poison with
  | some r => .error r
  | none =>
    match iw.instr with
    | some i => .ok (i, len)
    | none => .error .unasg

/-- Four bytes at a time, little-endian words (08 R216); a last part of a word is dropped. -/
def wordsOf : List Byte → List W32
  | b0 :: b1 :: b2 :: b3 :: t => BitVec.ofNat 32 (ofBytes [b0, b1, b2, b3]) :: wordsOf t
  | _ => []

/-- Decoding bytes. -/
def decodeBytes (bs : List Byte) : Except Reject (Instr × Nat) := decode (wordsOf bs)

/-- The modifier words of a unit in arithmetic, loop-position, register-extension order (08 R222, R243). -/
def encodePfx (u : U) : List W32 :=
  (match u.m.ar with
    | none => []
    | some r => [BitVec.ofNat 32 (2 + r.rnd.toNat * 2 ^ 4 + b2n r.sat * 2 ^ 7 + b2n r.tov * 2 ^ 8 + r.ty.toNat * 2 ^ 9)])
  ++ (match u.m.lp with
    | none => []
    | some (.first l) => [BitVec.ofNat 32 (6 + 2 ^ 4 + l.toNat * 2 ^ 6)]
    | some (.last l) => [BitVec.ofNat 32 (6 + 2 * 2 ^ 4 + l.toNat * 2 ^ 6)]
    | some (.stage k) => [BitVec.ofNat 32 (6 + 3 * 2 ^ 4 + k.toNat * 2 ^ 9)])
  ++ (if u.m.ex then [BitVec.ofNat 32 (10 + u.e.toNat * 2 ^ 4 + u.p.toNat * 2 ^ 10)] else [])

/-- The instruction words of a unit by its form (08 R218-R220). -/
def encodeMain (f : Form) (major : Nat) (u : U) : List W32 :=
  match f with
  | .r =>
    [BitVec.ofNat 32 (major * 2 ^ 2 + u.g.toNat * 2 ^ 8 + u.a.toNat * 2 ^ 10 + u.b.toNat * 2 ^ 16 + u.c.toNat * 2 ^ 22
      + u.mi.toNat * 2 ^ 28)]
  | .i =>
    [BitVec.ofNat 32 (major * 2 ^ 2 + u.g.toNat * 2 ^ 8 + u.a.toNat * 2 ^ 10 + u.b.toNat * 2 ^ 16
      + (u.imm.toNat % 2 ^ 10) * 2 ^ 22)]
  | .b => [BitVec.ofNat 32 (major * 2 ^ 2 + u.g.toNat * 2 ^ 8 + u.a.toNat * 2 ^ 10 + (u.imm.toNat % 2 ^ 19) * 2 ^ 13)]
  | .s =>
    [BitVec.ofNat 32 (major * 2 ^ 2 + u.g.toNat * 2 ^ 8 + u.a.toNat * 2 ^ 10 + (u.imm.toNat % 2 ^ 12) * 2 ^ 16
      + u.mi.toNat * 2 ^ 28)]
  | .x =>
    [BitVec.ofNat 32 (1 + major * 2 ^ 2 + u.g.toNat * 2 ^ 10 + u.a.toNat * 2 ^ 14 + u.b.toNat * 2 ^ 20 + u.c.toNat * 2 ^ 26),
     BitVec.ofNat 32 (u.e.toNat + u.p.toNat * 2 ^ 6 + u.mi.toNat * 2 ^ 12 + (u.imm.toNat % 2 ^ 16) * 2 ^ 16)]
  | .y =>
    [BitVec.ofNat 32 (1 + major * 2 ^ 2 + u.g.toNat * 2 ^ 10 + u.a.toNat * 2 ^ 14 + u.b.toNat * 2 ^ 20 + u.p.toNat * 2 ^ 26),
     u.imm]
  | .undecoded => []

/-- The words of a well-formed instruction; none for an event, which no word encodes. -/
def encode (i : Instr) : List W32 :=
  match keyOf i with
  | none => []
  | some (w64, major, _, u) => encodePfx u ++ encodeMain (formOf w64 major) major u

/-- The 96 bits of an internal word (08 R228). -/
def IW.pack (iw : IW) : BitVec 96 :=
  let u := iw.u
  let v : Nat :=
    match iw.form with
    | .r => u.mi.toNat * 2 ^ 28 + u.e.toNat * 2 ^ 22 + u.c.toNat * 2 ^ 16
    | .i => u.imm.toNat % 2 ^ 16
    | .b => u.imm.toNat
    | .s => u.mi.toNat * 2 ^ 28 + u.imm.toNat % 2 ^ 16
    | .x => u.mi.toNat * 2 ^ 28 + u.e.toNat * 2 ^ 22 + u.c.toNat * 2 ^ 16 + u.imm.toNat % 2 ^ 16
    | .y => u.imm.toNat
    | .undecoded => 0
  let ar : Arith := u.m.ar.getD ⟨false, 0, false, 0⟩
  let pc : Nat := match iw.poison with | none => 0 | some r => r.code
  BitVec.ofNat 96 (iw.form.code * 2 ^ 93 + iw.npfx * 2 ^ 91 + b2n iw.w64 * 2 ^ 90 + b2n iw.poison.isSome * 2 ^ 89 + pc * 2 ^ 86
    + iw.major.toNat * 2 ^ 78 + u.g.toNat * 2 ^ 74 + u.a.toNat * 2 ^ 68 + u.b.toNat * 2 ^ 62 + u.p.toNat * 2 ^ 56 + v * 2 ^ 24
    + ar.rnd.toNat * 2 ^ 21 + b2n ar.sat * 2 ^ 20 + b2n ar.tov * 2 ^ 19 + ar.ty.toNat * 2 ^ 15 + iw.pos.toNat * 2 ^ 13
    + iw.level.toNat * 2 ^ 10 + iw.stage.toNat * 2 ^ 7)

/-- The form of a FORM code. -/
def formOfCode : Nat → Form
  | 0 => .r | 1 => .i | 2 => .b | 3 => .s | 4 => .x | 5 => .y | _ => .undecoded

/-- The reason of a PCODE. -/
def rejectOfCode : Nat → Option Reject
  | 1 => some .sel11 | 2 => some .unasg | 3 => some .rsvbits | 4 => some .pfxbad | 5 => some .cross | 6 => some .loopcap
  | 7 => some .midword | _ => none

/-- The internal word that 96 bits stand for (14 R385: an entry re-injected by TRAP.RET). An empty modifier word leaves no
trace in the 96 bits and is not recovered; it changes no effect. -/
def IW.unpack (x : BitVec 96) : IW :=
  let f := formOfCode (bits x 95 93)
  let v := bits x 55 24
  let e := BitVec.ofNat 6 (if f == .r ∨ f == .x then bits x 51 46 else 0)
  let c := BitVec.ofNat 6 (if f == .r ∨ f == .x then bits x 45 40 else 0)
  let mi := BitVec.ofNat 4 (if f == .r ∨ f == .x ∨ f == .s then bits x 55 52 else 0)
  let imm : W32 :=
    match f with
    | .i => (BitVec.ofNat 16 v).signExtend 32
    | .s => BitVec.ofNat 32 (v % 65536)
    | .x => BitVec.ofNat 32 (v % 65536)
    | .b => BitVec.ofNat 32 v
    | .y => BitVec.ofNat 32 v
    | _ => 0
  let ar : Arith := ⟨bit x 20, BitVec.ofNat 3 (bits x 23 21), bit x 19, BitVec.ofNat 4 (bits x 18 15)⟩
  let lv := BitVec.ofNat 3 (bits x 12 10)
  let st := BitVec.ofNat 3 (bits x 9 7)
  let lp : Option LoopPos := match bits x 14 13 with | 1 => some (.first lv) | 2 => some (.last lv) | 3 => some (.stage st) | _ => none
  let p := BitVec.ofNat 6 (bits x 61 56)
  let w64 := bit x 90
  let m : Mods := ⟨if ar = ⟨false, 0, false, 0⟩ then none else some ar, lp, !w64 && (p != 0 || e != 0)⟩
  ⟨f, bits x 92 91, w64, if bit x 89 then rejectOfCode (bits x 88 86) else none, BitVec.ofNat 8 (bits x 85 78),
    BitVec.ofNat 2 (bits x 14 13), lv, st,
    ⟨m, BitVec.ofNat 4 (bits x 77 74), p, BitVec.ofNat 6 (bits x 73 68), BitVec.ofNat 6 (bits x 67 62), c, e, mi, imm⟩⟩

/-- Words of an instruction given as one number, the first word in its low 32 bits; the bits above are zero. -/
def tableWords (nbits w : Nat) : List W32 :=
  let w := w % 2 ^ nbits
  [BitVec.ofNat 32 w, BitVec.ofNat 32 (w / 2 ^ 32), BitVec.ofNat 32 (w / 2 ^ 64), BitVec.ofNat 32 (w / 2 ^ 96)]

/-- The instruction this decoder reads from the bits of an opcode-table row, numbered as the table numbers them. -/
def decodeTableWord (nbits w : Nat) : Option Instr :=
  match decode (tableWords nbits w) with
  | .ok (i, _) => some i
  | .error _ => none

end Sys2Proof
end

