-- ==== Sys2Proof/Machine/State.lean ====
section
/-! DEFINITION. The state of the K4 and of its model: everything the spec gives the machine, as plain data; the reasons a step
can stop; the state after reset. -/

namespace Sys2Proof.Machine

/-- Reasons the machine stops with a fault. None: the spec gives every trap an entry, and the model takes it. -/
inductive Fault where
  deriving DecidableEq, Repr

/-- Reasons a step has no meaning. -/
inductive Refusal where
  /-- Raised by an arm of `exec` whose instruction has no meaning yet; safe. -/
  | notModelled (mnemonic : String)
  deriving DecidableEq, Repr

/-- A vector register (10 R279): 1,024 lanes of 32 bits, absent lanes zero; or the register the spec calls undefined, whose
lanes are free values under a tag. -/
inductive VReg where
  | undef (tag : Nat)
  | dense (lanes : List W32)
  deriving DecidableEq, Repr

/-- A register an instruction reads or writes, for the bounds and locks of 08 R234-R236. -/
inductive RegRef where
  | s (n : Nat)
  | v (n : Nat)
  | p (n : Nat)
  | b (n : Nat)
  | vstat
  deriving DecidableEq, Repr

/-- A clock and a frontier (03 R87): entries over agents, by cluster × 128 + index, and over clusters; absent entries are 0. An agent's own
clock has entries of its own cluster only; a joined state on its way between clusters keeps each cluster's (DEDUCED, log 180). -/
structure Clock where
  vc : SMap Nat
  fr : SMap Nat
  deriving DecidableEq, Repr

/-- The race state of one agent for one tenant (03 R87, 04 R105, 03 R94). -/
structure RaceSt where
  epoch : Nat
  clk : Clock
  xclk : Clock
  bs : SMap Clock
  deriving DecidableEq, Repr

/-- The state a release published with a write (03 R78, R87): who, at which scope, with which clocks. -/
structure Pub where
  clu : Nat
  agt : Nat
  ten : Nat
  scope : Nat
  clk : Clock
  xclk : Clock
  deriving DecidableEq, Repr

/-- One part of an access: scratchpad or device memory, its address there, its offset in the access, its length, whether it is
checked, the address by which the agent named it, and the cache policy (01 R17). -/
structure Piece where
  sp : Bool
  a : Nat
  off : Nat
  n : Nat
  chk : Bool
  va : W64
  pol : Nat
  deriving DecidableEq, Repr

/-- An operand value captured with a unit (14 R380). -/
inductive CapOp where
  | unread
  | scalar (v : W64)
  | vector (v : VReg)
  deriving DecidableEq, Repr

/-- A captured unit (14 R380). -/
structure Cap where
  iw : IW
  v : Bool
  uaddr : W64
  ops : List CapOp
  pred : Option Lanes
  deriving DecidableEq, Repr

/-- What an unfinished access does when it is served (08 R239, 11 R313, R317, R324, 10 R300-R302): a load, an acquire or not; a store or
ARRIVE.SET; an atomic; a vector register written to the block it was given; a vector register refilled. -/
inductive PendKind where
  | load (acquire : Bool)
  | store
  | arrive
  | amo
  | vspill (block : Nat)
  | vfill
  deriving DecidableEq, Repr

/-- An access issued and not yet finished (08 R239, 04 R104, R106): its number, what it does, its captured unit, the register it locks, its
pieces and those of them that have still to be served. Stage 0: not served, a store still unchecked in its agent; 1: a store that has
left, checked, whose data only its agent's own reads see; 2: a stored piece that every ordinary read sees and engines do not yet, with the
bytes that stood there. A load gathers its bytes in `data` part by part. -/
structure Pend where
  id : Nat
  kind : PendKind
  stage : Nat
  born : Nat
  cap : Cap
  dest : Option RegRef
  size : Nat
  sext : Bool
  scope : Option Nat
  pieces : List Piece
  rest : List Piece
  data : List Byte
  old : List Byte
  pubs : List Pub
  deriving DecidableEq, Repr

/-- Whether an unfinished access writes memory as a store does. -/
def Pend.isStore (p : Pend) : Bool := match p.kind with | .store | .arrive => true | _ => false
/-- Whether an unfinished access reads memory: a load or an atomic. -/
def Pend.reads (p : Pend) : Bool := match p.kind with | .load _ | .amo => true | _ => false
/-- A store whose data no other agent sees yet. -/
def Pend.hidden (p : Pend) : Bool := p.isStore && p.stage ≤ 1

/-- A transfer waiting for its delay slots (09 R266): target, taken, slots left, address of the transferring unit. -/
structure Xfer where
  tgt : W64
  taken : Bool
  left : Nat
  src : W64
  deriving DecidableEq, Repr

/-- A captured loop-body unit: its address, its length in words and its internal word. -/
structure BodyUnit where
  pc : W64
  len : Nat
  iw : IW
  deriving DecidableEq, Repr

/-- The hardware loop sequencer while a nest is active (06 R166-R170, 14 R472). -/
structure LoopSt where
  c : List Nat
  n : Nat
  p : Nat
  brk : Bool
  body : List BodyUnit
  idx : Nat
  after : W64
  deriving DecidableEq, Repr

/-- A register written and not certainly landed: until which cycle its value is undefined (08 R234, R235). -/
structure Bound where
  reg : RegRef
  till : Nat
  deriving DecidableEq, Repr

/-- VSTAT flags that land with a result (05 R148): raised at cycle `born` by an instruction with bound `span`, at a cycle from born + 1 to
born + span that the free value of `tag` gives. -/
structure FlagLand where
  flags : W64
  born : Nat
  span : Nat
  tag : Nat
  deriving DecidableEq, Repr

/-- What an agent waits for at a waiting instruction. -/
inductive Wait where
  | none
  /-- TOK.WAIT: the token registers named (11 R323) -/
  | tok (ts : List Nat)
  /-- ARRIVE.WAIT: scratchpad address of the word, generation named (11 R325) -/
  | arrive (a gen : Nat)
  /-- a data queue: its number, and whether a push waits (06 R153) -/
  | queue (q : Nat) (push : Bool)
  /-- TASK.SUSPEND or TASK.LAUNCHW in place (13 R355, 06 R159): the wait descriptors' events -/
  | suspend (ts : List Nat) (arr : Option (Nat × Nat))
  deriving DecidableEq, Repr

/-- Run states of a stream (14 R379). -/
inductive Run where
  | idle
  | running
  | stopped
  | faulted (cause : Nat)
  deriving DecidableEq, Repr

/-- The item a thread slot runs, or the launch a sidecar serves (06 R157, R165). -/
structure Item where
  ctx : Nat
  launch : Nat
  index : Nat
  workid : W64
  pin : Bool
  /-- the record place it holds, as 16 × block + index (06 R165) -/
  place : Option Nat
  handler : Bool
  deriving DecidableEq, Repr

/-- Registers of an agent: absent entries are zero. -/
structure Regs where
  s : SMap W64
  p : SMap Lanes
  b : SMap W64
  v : SMap VReg
  deriving DecidableEq, Repr

/-- The return-address store (09 R270): on-chip entries newest first, how many are spilled, the spill chain's blocks newest
first. -/
structure Ras where
  chip : List W64
  spilled : Nat
  blocks : List Nat
  deriving DecidableEq, Repr

/-- A record a handler thread holds (14 R384): its address in the holder's space and its entry, as at its delivery. -/
structure Held where
  addr : W64
  entry : Nat
  acked : Bool
  /-- the handler's entry address as TVEC stood when the handler was started (14 R381, R384) -/
  pc : W64
  deriving DecidableEq, Repr

/-- The unit being issued: its address, length in words, internal word, whether it stands in a delay slot, and whether it is
issued from a loop buffer. -/
structure CurUnit where
  core : Nat
  st : Nat
  pc : W64
  len : Nat
  iw : IW
  inLoop : Bool
  /-- re-executed from a capture entry: operand values as captured (14 R387) -/
  cap : Option Cap
  /-- the unit holds its issue in this cycle -/
  held : Bool := false
  deriving DecidableEq, Repr

/-- A thread slot or sidecar (06 R149). -/
structure Agent where
  run : Run
  item : Option Item
  pc : W64
  regs : Regs
  /-- the flags landed and not cleared, and those still to land (05 R147, R148) -/
  vstat : W64
  flagq : List FlagLand
  issdiag : W64
  live : W64
  ras : Ras
  spmap : SMap W32
  cfg : Option (List W64)
  loop : Option LoopSt
  xfer : Option Xfer
  bounds : List Bound
  locks : List RegRef
  pend : List Pend
  wait : Wait
  waitAt : Option Nat
  ready : Nat
  held : Option Held
  /-- breakpoint entry that does not match again until a unit has issued (16 R427) -/
  brkArm : Option Nat
  /-- a sidecar whose image load is due (06 R151) -/
  loading : Bool
  /-- published states read by relaxed strong reads since the last FENCE (03 R78) -/
  readPubs : List Pub
  /-- the state the last FENCE published (03 R87) -/
  fencePub : Option Pub
  /-- address of the transferring unit, when the agent has just transferred and not yet entered the target (08 R230) -/
  xsrc : Option W64
  /-- captured units that TRAP.RET executes again before the stream goes on (14 R387) -/
  replay : List Cap
  /-- the unit that waits at a waiting instruction -/
  wunit : Option CurUnit
  /-- a nest that the unit just issued has ended (06 R168) -/
  ended : Option LoopSt
  /-- register-file entries with an uncorrectable error (14 R395): FILE and index -/
  bad : List (Nat × Nat)
  /-- the core and stream, as core × 6 + stream, that the record of the agent's own fault names (14 R379) -/
  seat : Nat
  deriving DecidableEq, Repr

/-- A data queue (06 R153): on-chip entries oldest first (they are the newest of the queue), the ring of spilled entries: its
blocks oldest first, the position of the oldest entry in the first block, how many entries. -/
structure DataQ where
  chip : List W64
  blocks : List Nat
  head : Nat
  count : Nat
  /-- the context in whose spill region the ring lies, while it has one -/
  own : Nat
  /-- published states of the pushes of the on-chip and spilled entries, oldest first (03 R78) -/
  pubs : List Pub
  deriving DecidableEq, Repr

/-- A tile operand of a matrix command or copy (02 R58, 12 R337): a descriptor's two words, or bytes already read, by plane and
row. -/
inductive Tile where
  | desc (w0 w1 : W64)
  | data (planes : List (List (List Byte)))
  deriving DecidableEq, Repr

/-- A resolved handle (01 R35): base and length of the range in bytes, whether accesses are checked, the context and entry. -/
structure HRange where
  base : Nat
  len : Nat
  chk : Bool
  ctx : Nat
  index : Nat
  gen : Nat
  deriving DecidableEq, Repr

/-- Progress of one send entry (12 R348): its number; 1 asked of a remote chip, 2 delivering, 3 settled, 4 at its end with STAT still to be
written, 5 still to be sent to its destination; which destination; the tag of
its request; the allotted slot and arrival word; payload bytes sent. -/
structure SendSt where
  entry : Nat
  st : Nat
  dst : Nat
  tag : Nat
  off : Nat
  arv : Bool
  aoff : Nat
  sent : Nat
  /-- the entry's words as read -/
  words : List W64
  deriving DecidableEq, Repr

/-- What an engine command does (12, 10 R303). -/
inductive CmdKind where
  | mma (fmt : W64) (a b : Tile)
  | zero (fmt : W64)
  | acc (toAcc : Bool) (row nr : Nat) (t : Tile)
  | ld (h : HRange) (off sp len : Nat)
  | st (h : HRange) (off sp len : Nat)
  | x (src dst : Nat) (dw : W64) (len : Nat)
  | g (scatter : Bool) (h : HRange) (off data idx count es iw : Nat)
  | d2 (toMem : Bool) (h : HRange) (off : Nat) (t : Tile) (nr w pitch : Nat)
  | send (list count : Nat)
  | chain (ty : Nat) (words : List W64)
  deriving DecidableEq, Repr

/-- A context's scratchpad window in one cluster (01 R30, 02 R61): base and limit in bytes, allowance, checked range. -/
structure Win where
  base : Nat
  lim : Nat
  cap : Nat
  chkBase : Nat
  chkLen : Nat
  deriving DecidableEq, Repr

/-- An engine command (12 R331): who issued it, from which unit, its control word, its tokens, how far it has run. -/
structure Cmd where
  id : Nat
  kind : CmdKind
  ctx : Nat
  core : Nat
  st : Nat
  upc : W64
  iw : IW
  ctl : W64
  consumes : List Nat
  tp : Nat
  /-- the agent's cross-path state at issue, joined with the states of consumed tokens (04 R105) -/
  clk : Clock
  /-- tokens consumed and running -/
  started : Bool
  /-- progress: block pairs, rows, bytes, elements or entries done, in order -/
  prog : Nat
  /-- parts beyond `prog` already done out of order (04 R111) -/
  done : List Nat
  /-- every part done; the token waits for what is still outstanding -/
  ended : Bool
  /-- stopped by its own fault, with this cause -/
  fault : Option Nat
  /-- 1 suspended at a command boundary outside its window, 2 to stop at the next boundary, 3 so stopped (07 R181, 14 R386) -/
  susp : Nat
  /-- flags gathered (10 R303) -/
  flags : W64
  /-- scratchpad windows and checked ranges at issue, in the issuing cluster and in a destination cluster (02 R62) -/
  win : Win
  win2 : Win
  /-- channel groups and fabric ports that its traffic has reached, as class × 256 + index (12 R332) -/
  reached : List Nat
  /-- line parts that a peer chip refused: offset and length (17 R443) -/
  refused : List (Nat × Nat)
  /-- send entries begun -/
  sends : List SendSt
  /-- a command boundary has been reached and nothing has begun since (07 R181) -/
  edge : Bool
  /-- lines that a chain or a matrix command has read: stream, space, line number, bytes (10 R307, 04 R113) -/
  lines : List (Nat × Bool × Nat × List Byte)
  /-- windows by cluster at the issue of a send list (02 R62) -/
  wins : SMap Win
  /-- running sums of a matrix command that has started, row after row (12 R338) -/
  acc : List W32
  deriving DecidableEq, Repr

/-- A continuation in a deque or waiting (06 R161, R163): an item not started, or a parked record at a place. -/
structure Cont where
  ctx : Nat
  launch : Nat
  index : Nat
  workid : W64
  pin : Bool
  isNew : Bool
  /-- place in the context's spill region, for a parked record -/
  place : Option Nat
  /-- words 23-31 of the record as the device keeps them: wait descriptors' count, VSTAT, RASN and blocks -/
  waits : List W64
  ready : Bool
  vstat : W64
  live : W64
  rasn : Nat
  rasBlocks : List Nat
  /-- a handler start: record address and entry -/
  held : Option Held
  /-- state published by the park (03 R94), and barrier snapshots that the awaited events brought (03 R90) -/
  clk : Clock
  bs : SMap Clock
  home : Nat
  deriving DecidableEq, Repr

/-- Registers and queues of a core beside its agents. -/
structure Core where
  toks : SMap Nat
  tokClk : SMap Clock
  tokovf : W64
  vcstat : SMap W64
  accfree : SMap W64
  fmtq : SMap (List W64)
  /-- engine command queues by stream number (14 R379): 6, 7 the halves, 8 the vector chains (16 for the second side of a split
  core), 9-12 the copy engines, 13 the send-list engine -/
  eq : SMap (List Cmd)
  dq : SMap DataQ
  /-- ready continuations, newest first (06 R163) -/
  deque : List Cont
  /-- continuations whose events are awaited, HOME this core (06 R162) -/
  waiting : List Cont
  /-- sidecar instruction stores: loader from 0, storer from 0x8000 -/
  imem : SMap Byte
  /-- token, data-queue, format-queue and command-queue entries with an uncorrectable error (14 R395): FILE and index -/
  bad : List (Nat × Nat)
  /-- the tenant whose registers, queues and rows stand in the core while it is time-shared (15 R410); 0 none -/
  owner : Nat
  deriving DecidableEq, Repr

/-- A record made and not yet written (14 R377, R382): its 256 words and where it goes. -/
structure Rec where
  cause : Nat
  fatal : Bool
  ctx : Nat
  core : Nat
  stream : Nat
  nest : Nat
  words : List W64
  deriving DecidableEq, Repr

/-- Handler states (14 R384). -/
inductive HState where
  | idle
  | unacked
  | double
  deriving DecidableEq, Repr

/-- A record written into a trap area and waiting for its handler (14 R382-R384): its entry, and its address as TFRAME stood when it was written
(14 R381). -/
structure Wrote where
  entry : Nat
  addr : W64
  fatal : Bool
  seq : Nat
  cause : Nat
  die : Nat
  deriving DecidableEq, Repr

/-- Trap registers and handler state of a context (14 R378-R384). -/
structure TrapSt where
  tvec : W64
  mode : W64
  tframe : W64
  tcausea : W64
  tcauseb : W64
  taddra : W64
  taddrb : W64
  hstate : HState
  seq : Nat
  noArea : Bool
  /-- records held by the device until an entry frees -/
  pending : List Rec
  /-- records written, whose handler has not started -/
  wrote : List Wrote
  deriving DecidableEq, Repr

/-- What a forced save keeps in the device beside the image's blocks (14 R391): agents and cores as they stood, the image's first
block and all its blocks. An agent's key is core × 6 + stream, plus 768 times a number where several have moved to one core. -/
structure Saved where
  agents : SMap Agent
  cores : SMap Core
  first : Nat
  blocks : List Nat
  /-- registers in the image: resumption restores them -/
  forced : Bool
  /-- accumulator rows and their poison marks, by the keys of Mem, of time-shared cores while another tenant has them (02 R54, 15 R410) -/
  acc : SMap W32
  accPsn : SMap Bool
  deriving DecidableEq, Repr

/-- Dirty logging of a direct child (15 R414-R418): the register, the latched control block, the status last written. -/
structure DirtySt where
  reg : W64
  blk : List W64
  st : Nat
  imp : Bool
  deriving DecidableEq, Repr

/-- The debug area of a context (16 R421, R424): the register, ring address, RLOG, breakpoint table, records lost since the last
LOST record, whether a record has been lost. -/
structure DebugSt where
  reg : W64
  ring : Nat
  rlog : Nat
  bps : List (List W64)
  head : W64
  lostAll : W64
  lost : Nat
  deriving DecidableEq, Repr

/-- The booking log of a tenant (07 R212-R214): the register, next admission sequence number, records written or followed, the
slot in which replay began, and SLOT of the log's first record. -/
structure BlogSt where
  reg : W64
  seq : Nat
  pos : Nat
  base : Nat
  first : Nat
  /-- counts the starts and stops of recording and replay -/
  session : Nat
  deriving DecidableEq, Repr

/-- A context (13 R363, 15 R400): its descriptor, holdings, windows and trap registers. Absent words are zero. -/
structure Ctx where
  /-- STATE: 1 created, 2 running, 3 stopped, 4 destroying -/
  stt : Nat
  depth : Nat
  parent : Nat
  /-- descriptor words 1-6 and 8-15 (13 R363, 15 R400) -/
  w : SMap W64
  /-- scratchpad windows by cluster -/
  win : SMap Win
  trap : TrapSt
  /-- PREQ.REQ, PREQ.WD and PDEAD.LEFT (14 R389) -/
  req : Bool
  reqWd : Bool
  left : Nat
  /-- WDOG ST and CNT (06 R172) -/
  wdSt : Nat
  wdCnt : Nat
  /-- WIN was reached in the slot before the present one or earlier, with no progress since (06 R174, R175) -/
  wdFull : Bool
  /-- spill-region blocks in use (02 R49) -/
  blocks : List Nat
  /-- CHKRESET.BUSY (03 R93) -/
  chkBusy : Bool
  /-- sides whose agents have a preemption request of their own (15 R410, R412), as core × 2 + side, with the cycle of the deadline -/
  sideReq : SMap Nat
  saved : Option Saved
  /-- work set aside at the end of a time-slice window or by a revocation of sides, until it is brought back (15 R410, R412) -/
  aside : Saved
  dirty : DirtySt
  dbg : DebugSt
  blog : BlogSt
  /-- counters by core × 16 + n: PMSEL, PMC, shadows (16 R429, R430) -/
  pmsel : SMap W64
  pmc : SMap W64
  pmsh : SMap W64
  /-- time-slice window word by die (15 R409) -/
  slices : SMap W64
  /-- stride pass of the own queues, as a fraction; none before they have competed (07 R187) -/
  pass : Option (Nat × Nat)
  /-- by queue: TAIL as last read (07 R185); when the present head became the head, as cycle + 1, and the whole aging periods since
  (07 R188) -/
  tails : SMap Nat
  headAt : SMap Nat
  age : SMap Nat
  /-- an ordinary or forced stop is under way (14 R389) -/
  stopping : Bool
  /-- states that the agents published at the last context stop (03 R94) -/
  stopClk : Clock
  /-- an image imported and not yet started (15 R420, R475): streams and records that wait, as section-12 words -/
  carried : List (List W64)
  /-- words 23-25 of the continuation records in use, by place, as the device keeps them (06 R165) -/
  recs : SMap (List W64)
  /-- cores frozen by a fault (14 R386), with the stream of the first one -/
  froze : SMap Nat
  deriving DecidableEq, Repr

/-- A launch being run (06 R155-R158): its context and task, its header's words, the sidecars it started, how many items are
unfinished. -/
structure Launch where
  ctx : Nat
  task : Nat
  words : List W64
  left : Nat
  dealt : Bool
  /-- sidecars (core × 6 + stream) started and not halted -/
  sides : List Nat
  /-- cores that have taken an item, with the first item's work identifier -/
  cores : List (Nat × W64)
  deriving DecidableEq, Repr

/-- A declared range of a task (07 R184). -/
structure Range where
  wr : Bool
  rd : Bool
  sp : Bool
  clu : Nat
  base : Nat
  len : Nat
  deriving DecidableEq, Repr

/-- Remote leg of a step (07 R202): none, PREPARE sent in a slot, offered, committed. -/
inductive Leg where
  | none
  | asked (slot : Nat)
  | offered
  | committed
  deriving DecidableEq, Repr

/-- A step of a booking (07 R195): its words, the resolved engine, the absolute slots it holds, the remote leg and its tag,
commands completed, whether one has begun, whether it has retired, whether its slots from now on are held tentatively. -/
structure BStep where
  w0 : W64
  w1 : W64
  idx : Nat
  slots : List Nat
  leg : Leg
  tag : Nat
  count : Nat
  begun : Bool
  retired : Bool
  tent : Bool
  /-- its engine is resolved: it has been placed, and a new placement of it keeps the engine (07 R205, R206) -/
  fixed : Bool
  /-- commands counted once for each CG or FX step they reach (12 R332) -/
  seen : List Nat
  deriving DecidableEq, Repr

/-- A booking record in use (07 R197-R201): its status, chain header, steps, task, commit stamp, the joined states of its
commands, refusals and alternatives of the search. -/
structure Booking where
  gen : Nat
  ctx : Nat
  st : Nat
  reason : Nat
  slips : Nat
  start : Nat
  hdr : W64
  steps : List BStep
  task : Nat
  stamp : Nat
  clk : Clock
  refusals : Nat
  alts : List Nat
  /-- slot of its admission (07 R194) -/
  adm : Nat
  /-- on the wait list, last searched in this slot (07 R201); the list is ordered by stamp -/
  waitAt : Option Nat
  deriving DecidableEq, Repr

/-- A chain that waits for a free booking record (07 R197, 13 R360): the record's die, header and steps, its reason and token header where the
chain is refused, and the agent and register that wait for the handle. -/
structure Want where
  die : Nat
  hdr : W64
  steps : List BStep
  refuse : Option (Nat × Option W64)
  dest : Option (Nat × Nat × Nat)
  deriving DecidableEq, Repr

/-- A task in flight, or a LAUNCHW child waiting to be admitted (07 R186, R190). -/
structure Task where
  ctx : Nat
  die : Nat
  /-- address of the entry, where it has one -/
  entry : Option W64
  /-- completion token: core and register -/
  tok : Option (Nat × Nat)
  words : List W64
  ranges : List Range
  preds : List Nat
  launch : Option Nat
  /-- its launch has started or it has none -/
  ready : Bool
  booking : Option W32
  seq : Nat
  /-- parent task whose unit is lent, and this task's unit lent to a child -/
  parent : Option Nat
  lent : Option Nat
  admitted : Bool
  /-- state that the launch's items have published, and that of the retired predecessors (03 R78) -/
  clk : Clock
  inh : Clock
  /-- the chain of an admitted task whose search waits for a record (07 R197) -/
  want : Option Want
  /-- MODE and session of its tenant's booking log at its admission (07 R215) -/
  log : Nat × Nat
  deriving DecidableEq, Repr

/-- Capacity held for a peer chip (07 R202, R203): port and tag of the request, class, index, shares, first slot, length, slot
at which an offer lapses, whether committed. -/
structure Offer where
  port : Nat
  tag : Nat
  cls : Nat
  idx : Nat
  shares : Nat
  start : Nat
  dur : Nat
  till : Nat
  committed : Bool
  deriving DecidableEq, Repr

/-- Parts of a WRITE flit on their way (17 R443): the command's queue, its number, the list entry, source offset and length of
each part. -/
structure Flight where
  tag : Nat
  port : Nat
  core : Nat
  st : Nat
  cmd : Nat
  entry : Nat
  offs : List (Nat × Nat)
  deriving DecidableEq, Repr

/-- What an invalidation, a revocation or a destruction does (01 R39-R40, 13 R366, 15 R411). -/
inductive JobKind where
  /-- a core that was reset and whose running commands have still to reach their boundaries (13 R373) -/
  | reset (core : Nat)
  | tlbRange (base len : Nat)
  | tlbSpace
  | handle (idx : Nat)
  | revoke (kind : Nat) (sv sw : W64)
  | destroy
  deriving DecidableEq, Repr

/-- An invalidation, revocation or destruction in progress: its target context, the token to produce, the state it carries, the
commands it waits for by number. -/
structure Job where
  id : Nat
  kind : JobKind
  ctx : Nat
  core : Nat
  tok : Nat
  clk : Clock
  cmds : List Nat
  /-- key of the issuing agent; 0 waiting its turn, 1 begun, 2 its moment has come -/
  ag : Nat
  phase : Nat
  /-- accesses in flight that used what a translation invalidation removes: agent and number (01 R39) -/
  pends : List (Nat × Nat)
  /-- the issuing context -/
  own : Nat
  deriving DecidableEq, Repr

/-- Storage (02): tiers by group location, scratchpad by cluster × 2^25 + address, accumulator by core × 2^18 + 64 × row +
column; poison marks by line and row; race metadata by physical line; published and arrival states by 8-byte unit. -/
structure Mem where
  bytes : SMap Byte
  psn : SMap Bool
  md : SMap (W64 × W64)
  spad : SMap Byte
  spadPsn : SMap Bool
  spadMd : SMap (W64 × W64)
  acc : SMap W32
  accPsn : SMap Bool
  pubs : SMap (List Pub)
  /-- arrival words by scratchpad address: pend and ep states, the scope of the arrivals so far and of the last episode -/
  arr : SMap (Clock × Clock × Nat × Nat)
  deriving DecidableEq, Repr

/-- A cached composed translation (01 R24): the die whose TLB holds it, context, page base and size, physical base, permissions, CHK with its depth, policy,
whether D is set, and the page's base in the root's space and in the space of the tree that set CHK (01 R28). -/
structure TlbE where
  die : Nat
  ctx : Nat
  va : Nat
  size : Nat
  pa : Nat
  rd : Bool
  wr : Bool
  x : Bool
  chk : Bool
  chkDepth : Nat
  policy : Nat
  dirty : Bool
  rootVa : Nat
  chkVa : Nat
  deriving DecidableEq, Repr

/-- Phases of the housekeeping core's boot (21 R465, R466, R470). -/
inductive Boot where
  | off
  | recovery
  | waiting
  | up
  | dead
  deriving DecidableEq, Repr

/-- Registers and state of the whole device. -/
structure Dev where
  /-- FEATACC as accepted, FEAT1, FEAT2 (17 R438) -/
  featacc : W64
  /-- present tier-1 stacks, one bit each; present bytes of each tier-2 group (02 R65) -/
  hbm : Nat
  tier2 : SMap Nat
  chip : Nat
  /-- ISET0-15 (02 R68), HSEM0-31 (17 R437) -/
  iset : SMap W64
  hsem : SMap W64
  /-- requester last served at each semaphore: 1 HP0, 2 HP1, 3 the device, 0 none yet (17 R437) -/
  hsemLast : SMap Nat
  /-- cached translations of both dies, the newest first: at most 8,192 of each (01 R24) -/
  tlb : List TlbE
  /-- cached handle-table entries: context, index, words 0-2 (01 R40) -/
  hnd : List (Nat × Nat × List W64)
  /-- filled instruction lines: context, line address, units (08 R229, R232) -/
  lines : List (Nat × Nat × List LineUnit)
  /-- L2: lines of each set by slice × 2048 + set, newest first, with whether each is modified (02 R66) -/
  l2 : SMap (List (Nat × Bool))
  /-- bank-conflict matrices by tenant × 2^15 + cluster × 2^11 + port × 64 + bank, and the cycle of each cluster's last snapshot
  by tenant × 16 + cluster (16 R422, R423) -/
  bcm : SMap W32
  bcmAt : SMap Nat
  /-- HSTAT: held events oldest first, next SEQ, OVF (17 R439) -/
  hstat : List W64
  hstatSeq : Nat
  hstatOvf : Bool
  /-- whether FEATACC has been written since the reset (17 R438) -/
  featSet : Bool
  /-- FXCFG0-15, trained ports, FXPEER (17 R441, R443) -/
  fxcfg : SMap W64
  trained : Nat
  fxpeer : W64
  /-- the peer chip from whose SLOTSYNC the slot counter has been set (17 R441) -/
  syncFrom : Option Nat
  /-- AFW0-7 by die × 8 + w (07 R211) -/
  afw : SMap W64
  /-- operating point, the slot of its last fall, the thermal throttle (21 R468-R470) -/
  op : Nat
  opAt : Nat
  throttle : Bool
  boot : Boot
  /-- requests of HSEM30 and HSEM31 that wait for the housekeeping core: number and DATA (21 R466, R467) -/
  hk : List (Nat × W32)
  /-- image that a recovery has written to the boot flash (21 R466); none while it holds the manufacturer's -/
  image : Option (List Byte)
  deriving DecidableEq, Repr

/-- Booking units (07): records by die × 2048 + index, GEN of every record used before, tasks, the number of the next task, one
over the number of the tenant last admitted by die, cycle of the last admission by die, offers, a counter of commits. -/
structure Book where
  recs : SMap Booking
  gens : SMap Nat
  tasks : SMap Task
  nextTask : Nat
  lastTen : SMap Nat
  admitAt : SMap Nat
  offers : List Offer
  stamp : Nat
  nextTag : Nat
  /-- freed runs to backfill before the next boundary: class, index, first slot, length (07 R208) -/
  freed : List (Nat × Nat × Nat × Nat)
  deriving DecidableEq, Repr

/-- A frame to the host (17 R433): port, status of a reply (0 OK, 1 ERR, 2 POISON) or 3 for a STATUS frame, bytes. -/
structure Reply where
  port : Nat
  status : Nat
  data : List Byte
  deriving DecidableEq, Repr

/-- What moves next when the agenda names it: an agent issues, an event happens, a translation, handle entry or line is cached
or dropped, a request waits at a bank, time passes, a register entry or a matrix half's arithmetic fails. -/
inductive Turn where
  | agent (core st : Nat)
  | event (i : Instr)
  | tlbFill (die c : Nat) (va : W64) (write : Bool)
  | hndFill (c idx : Nat)
  | conflict (c clu port bank n : Nat)
  | cycles (n : Nat)
  /-- an uncorrectable error in a register file (14 R395): core, stream, FILE, index -/
  | regError (core st file idx : Nat)
  /-- the residue check of a matrix half's next block pair fails (05 R145, R146) -/
  | residue (e : Eng)
  deriving DecidableEq, Repr

/-- The state of the machine. -/
structure State where
  cycle : Nat
  agents : SMap Agent
  cores : SMap Core
  ctxs : SMap Ctx
  launches : SMap Launch
  mem : Mem
  /-- race states by tenant × 2^11 + cluster × 2^7 + agent index (03 R94), and cluster epochs by tenant × 16 + cluster -/
  races : SMap RaceSt
  cepochs : SMap Nat
  dev : Dev
  book : Book
  jobs : List Job
  nextId : Nat
  flights : List Flight
  /-- flits sent, by port, and frames sent to the host, oldest first -/
  fxOut : List (Nat × Flit)
  hostOut : List Reply
  /-- absolute slot number, and the cycle at which the slot began (07 R177) -/
  slotNo : Nat
  slotAt : Nat
  /-- A/D updates of the access in course, to be marked: tree owner and entry address (15 R415) -/
  adw : List (Nat × W64)
  /-- the unit being issued and its agent -/
  cu : CurUnit
  /-- counter of free values -/
  fresh : Nat
  /-- the model's own: counts the accesses that a cached translation may serve -/
  picks : Nat
  /-- the model's own: what moves next, and which loads and stores are performed later -/
  agenda : List Turn
  plan : List Bool
  deriving DecidableEq, Repr

/-- An empty trap state. -/
def TrapSt.blank : TrapSt := ⟨0, 0, 0, 0, 0, 0, 0, .idle, 0, false, [], []⟩

/-- A context that does not exist. -/
def Ctx.blank : Ctx :=
  { stt := 0, depth := 0, parent := 0, w := [], win := [], trap := TrapSt.blank, req := false, reqWd := false, left := 0, wdSt := 0,
    wdCnt := 0, wdFull := false, blocks := [], chkBusy := false, sideReq := [], saved := none, aside := ⟨[], [], 0, [], false, [], []⟩, dirty := ⟨0, [], 0, false⟩, dbg := ⟨0, 0, 0, [], 0, 0, 0⟩,
    blog := ⟨0, 0, 0, 0, 0, 0⟩, pmsel := [], pmc := [], pmsh := [], slices := [], pass := none, tails := [], headAt := [], age := [], stopping := false,
    stopClk := ⟨[], []⟩, carried := [], recs := [], froze := [] }

/-- An agent with nothing to run and every register zero (21 R465, step 3). -/
def Agent.blank : Agent :=
  { run := .idle, item := none, pc := 0, regs := ⟨[], [], [], []⟩, vstat := 0, flagq := [], issdiag := 0, live := 0, ras := ⟨[], 0, []⟩, spmap := [],
    cfg := none, loop := none, xfer := none, bounds := [], locks := [], pend := [], wait := .none, waitAt := none, ready := 0, held := none,
    brkArm := none, loading := false, readPubs := [], fencePub := none, xsrc := none, replay := [], wunit := none, ended := none, bad := [], seat := 0 }

/-- A core with nothing queued and every register zero. -/
def Core.blank : Core :=
  { toks := [], tokClk := [], tokovf := 0, vcstat := [], accfree := [], fmtq := [], eq := [], dq := [], deque := [], waiting := [],
    imem := [], bad := [], owner := 0 }

/-- Storage with nothing written: every SRAM byte zero (21 R465, step 3), every byte of the tiers as log 1 says. -/
def Mem.blank : Mem :=
  { bytes := [], psn := [], md := [], spad := [], spadPsn := [], spadMd := [], acc := [], accPsn := [], pubs := [], arr := [] }

/-- The device after reset: all tier-1 stacks present, no tier-2 module, CHIPID 0 (log 3); OP0 (log 24). -/
def Dev.reset : Dev :=
  { featacc := 0, hbm := 0xFF, tier2 := [], chip := 0, iset := [], hsem := [], hsemLast := [], tlb := [], hnd := [], lines := [], l2 := [], bcm := [],
    bcmAt := [], hstat := [], hstatSeq := 0, hstatOvf := false, featSet := false, fxcfg := [], trained := 0, fxpeer := 0, syncFrom := none, afw := [],
    op := 0, opAt := 0, throttle := false, boot := .off, hk := [], image := none }

/-- Booking units after reset: nothing booked (07 R178). -/
def Book.reset : Book :=
  { recs := [], gens := [], tasks := [], nextTask := 0, lastTen := [], admitAt := [], offers := [], stamp := 0, nextTag := 0, freed := [] }

/-- No unit being issued. -/
def CurUnit.none : CurUnit :=
  { core := 0, st := 0, pc := 0, len := 0, iw := IW.blank, inLoop := false, cap := .none }

/-- The machine right after reset (21 R465): before power-good, every core held in reset, no context, every register at its
reset value, slot 0. -/
def State.reset : State :=
  { cycle := 0, agents := [], cores := [], ctxs := [], launches := [], mem := Mem.blank, races := [], cepochs := [], dev := Dev.reset,
    book := Book.reset, jobs := [], nextId := 0, flights := [], fxOut := [], hostOut := [], slotNo := 0, slotAt := 0, adw := [],
    cu := CurUnit.none, fresh := 0, picks := 0, agenda := [], plan := [] }

end Sys2Proof.Machine
end

