-- ==== Sys2Proof/Machine/Phys.lean ====
section
/-! DEFINITION. Physical memory (01 R13, 02 R65-R72), scratchpad and accumulator storage, poison marks. -/

namespace Sys2Proof.Machine

/-- One GiB. -/
def gib : Nat := 2 ^ 30

/-- First address of tier 2 (01 R13). -/
def tier2Base : Nat := 0x010000000000

/-- The channel group that owns a physical address (02 R65). -/
def groupOf (pa : Nat) : Option Nat :=
  if pa < 0x006000000000 then some (pa / (6 * gib))
  else if tier2Base ≤ pa ∧ pa < 0x050000000000 then some (64 + (pa - tier2Base) / 0x008000000000)
  else none

/-- An interleave set's fields (02 R68). -/
def isetEn (w : W64) : Bool := bit w 31
/-- WAYS of an interleave set (02 R68). -/
def isetWays (w : W64) : Nat := bits w 26 24
/-- FIRST of an interleave set (02 R68). -/
def isetFirst (w : W64) : Nat := bits w 21 16
/-- CKG of an interleave set (02 R68). -/
def isetCkg (w : W64) : Nat := bits w 2 0
/-- First physical address of a set's span (02 R69). -/
def isetBase (w : W64) : Nat := isetFirst w * (6 * gib)
/-- Size of a set's span (02 R69). -/
def isetSize (w : W64) : Nat := 2 ^ isetWays w * (6 * gib)

/-- The enabled set whose span holds a physical address (02 R69). -/
def setOf (d : Dev) (pa : Nat) : Option W64 :=
  (d.iset.map (·.2)).find? (fun w => isetEn w && isetBase w ≤ pa && pa < isetBase w + isetSize w)

/-- Where a physical address is stored: its channel group and its address there (02 R69). -/
def placeOf (d : Dev) (pa : Nat) : Nat × Nat :=
  match setOf d pa with
  | some w =>
    let n := 2 ^ isetWays w
    let u := pa - isetBase w
    (isetFirst w + u / 4096 % n, u / (4096 * n) * 4096 + u % 4096)
  | none =>
    match groupOf pa with
    | some g => (g, if g < 64 then pa - g * (6 * gib) else pa - (tier2Base + (g - 64) * 0x008000000000))
    | none => (0, pa)

/-- Present bytes of a channel group (02 R65, 00 R2). -/
def groupPresent (d : Dev) (g loc : Nat) : Bool :=
  if g < 64 then d.hbm.testBit (g / 8) else loc < SMap.get 0 d.tier2 g

/-- Start of the checkable area of a set, as a span offset (02 R71). -/
def checkFrom (w : W64) : Nat := isetSize w - 5 * isetCkg w * 2 ^ isetWays w * gib / 4
/-- Start of the metadata carve-out of a set, as a span offset (02 R71). -/
def carveFrom (w : W64) : Nat := isetSize w - isetCkg w * 2 ^ isetWays w * gib / 4

/-- Whether a physical address lies in a metadata carve-out (02 R71). -/
def inCarve (d : Dev) (pa : Nat) : Bool :=
  match setOf d pa with
  | some w => isetCkg w != 0 && carveFrom w ≤ pa - isetBase w
  | none => false

/-- Whether a physical address lies in a checkable area (02 R71). -/
def inCheckable (d : Dev) (pa : Nat) : Bool :=
  match setOf d pa with
  | some w => isetCkg w != 0 && checkFrom w ≤ pa - isetBase w && pa - isetBase w < carveFrom w
  | none => false

/-- Whether a physical address is present (01 R13, 02 R65, R71). -/
def present (d : Dev) (pa : Nat) : Bool :=
  match groupOf pa with
  | none => false
  | some _ => let (g, l) := placeOf d pa; groupPresent d g l && !inCarve d pa

/-- Whether a physical address lies in tier 1. -/
def tier1 (pa : Nat) : Bool := pa < 0x006000000000

/-- Key of a stored byte: group and address there. -/
def memKey (d : Dev) (pa : Nat) : Nat := let (g, l) := placeOf d pa; g * 2 ^ 40 + l

/-- Size of a cluster's scratchpad (02 R55). -/
def spadSize : Nat := 0x01800000

/-- Key of a scratchpad byte: cluster and cluster address. -/
def spKey (clu a : Nat) : Nat := clu * 2 ^ 25 + a

/-- Key of an accumulator element: core, row, column. -/
def accKey (core row col : Nat) : Nat := core * 2 ^ 18 + row * 64 + col

/-- What a byte of memory that nothing has written reads as: 0 (log 1: the spec gives the tiers no contents at boot). -/
def Memory.blank : Byte := 0

/-- The canonical form of a byte store: addresses strictly rising, no entry equal to what an unlisted address reads as. -/
abbrev Memory.wf (m : SMap Byte) : Bool := SMap.canon Memory.blank m

/-- One byte. -/
def Memory.read (m : SMap Byte) (a : Nat) : Byte := SMap.get Memory.blank m a
/-- One byte written. -/
def Memory.write (m : SMap Byte) (a : Nat) (v : Byte) : SMap Byte := SMap.set Memory.blank m a v

/-- A stored byte: device memory by physical address, or scratchpad by key. -/
def State.rdB (s : State) (sp : Bool) (a : Nat) : Byte :=
  if sp then Memory.read s.mem.spad a else Memory.read s.mem.bytes (memKey s.dev a)

/-- A byte stored. -/
def State.wrB (s : State) (sp : Bool) (a : Nat) (v : Byte) : State :=
  if sp then { s with mem := { s.mem with spad := Memory.write s.mem.spad a v } }
  else { s with mem := { s.mem with bytes := Memory.write s.mem.bytes (memKey s.dev a) v } }

/-- Key of the 64-byte line of an address. -/
def State.lineKey (s : State) (sp : Bool) (a : Nat) : Nat := if sp then a / 64 else memKey s.dev a / 64

/-- Poison mark of the line of an address (02 R44). -/
def State.psn (s : State) (sp : Bool) (a : Nat) : Bool :=
  if sp then SMap.get false s.mem.spadPsn (s.lineKey true a) else SMap.get false s.mem.psn (s.lineKey false a)

/-- The poison mark of a line set or cleared. -/
def State.setPsn (s : State) (sp : Bool) (a : Nat) (v : Bool) : State :=
  if sp then { s with mem := { s.mem with spadPsn := SMap.set false s.mem.spadPsn (s.lineKey true a) v } }
  else { s with mem := { s.mem with psn := SMap.set false s.mem.psn (s.lineKey false a) v } }

/-- Consecutive bytes read. -/
def State.rdBytes (s : State) (sp : Bool) (a n : Nat) : List Byte := (span a n).map (s.rdB sp)

/-- Consecutive bytes stored. -/
def State.wrBytes (s : State) (sp : Bool) (a : Nat) : List Byte → State
  | [] => s
  | b :: t => (s.wrB sp a b).wrBytes sp (a + 1) t

/-- A 64-bit word read from physical memory, little-endian (00 R5). -/
def State.rdP64 (s : State) (pa : Nat) : W64 := BitVec.ofNat 64 (ofBytes (s.rdBytes false pa 8))
/-- A 64-bit word stored to physical memory. -/
def State.wrP64 (s : State) (pa : Nat) (v : W64) : State := s.wrBytes false pa (toBytes 8 v.toNat)

/-- Published states of the 8-byte unit of an address. -/
def State.unitKey (s : State) (sp : Bool) (a : Nat) : Nat := if sp then a / 8 * 2 + 1 else memKey s.dev a / 8 * 2

/-- An accumulator element (02 R53). -/
def State.accAt (s : State) (core row col : Nat) : W32 := SMap.get 0 s.mem.acc (accKey core row col)
/-- An accumulator element stored. -/
def State.setAcc (s : State) (core row col : Nat) (v : W32) : State :=
  { s with mem := { s.mem with acc := SMap.set 0 s.mem.acc (accKey core row col) v } }
/-- Poison mark of an accumulator row (02 R44). -/
def State.rowPsn (s : State) (core row : Nat) : Bool := SMap.get false s.mem.accPsn (core * 4096 + row)
/-- An accumulator row's poison mark set or cleared. -/
def State.setRowPsn (s : State) (core row : Nat) (v : Bool) : State :=
  { s with mem := { s.mem with accPsn := SMap.set false s.mem.accPsn (core * 4096 + row) v } }

/-- Bytes cleared to zero. -/
def State.zeroBytes (s : State) (sp : Bool) (a n : Nat) : State :=
  if sp then { s with mem := { s.mem with spad := SMap.keep s.mem.spad (fun k _ => !(a ≤ k && k < a + n)) } }
  else s.wrBytes false a (List.replicate n 0)

/-- A line touched in its L2 slice (02 R66): a hit moves it to the front and, but for an uncached write, which is carried through, marks
it modified where it writes; a miss under write-back brings it in, the oldest of its set's sixteen leaving; a miss under the streaming (1)
or uncached (2) policy allocates nothing (01 R17). DESIGN CHOICE (log 22): the set is the line's number in its group modulo 2,048. -/
def State.l2Touch (s : State) (pa pol : Nat) (wr : Bool) : State :=
  let (g, l) := placeOf s.dev pa
  let k := g * 2048 + l / 64 % 2048
  let set := SMap.get [] s.dev.l2 k
  let ln := l / 64
  let rest := set.filter (fun e => e.1 != ln)
  let new := match set.find? (fun e => e.1 == ln) with
    | some e => (ln, e.2 || wr && pol != 2) :: rest
    | none => if pol = 0 then ((ln, wr) :: rest).take 16 else rest
  { s with dev := { s.dev with l2 := SMap.set [] s.dev.l2 k new } }

/-- The lines of an access's pieces touched in their slices. -/
def State.l2Pieces (s : State) (ps : List Piece) (wr : Bool) : State :=
  ps.foldl (fun s p => if p.sp then s else s.l2Touch p.a p.pol wr) s

/-- Whether a physical line is held by its L2 slice. -/
def State.l2Has (s : State) (pa : Nat) : Bool :=
  let (g, l) := placeOf s.dev pa
  (SMap.get [] s.dev.l2 (g * 2048 + l / 64 % 2048)).any (fun e => e.1 == l / 64)

end Sys2Proof.Machine
end

