-- ==== Sys2Proof/Machine/Xlate.lean ====
section
/-! DEFINITION. Composed translation (01 R14-R28) and the scratchpad window (01 R29), for every context. -/

namespace Sys2Proof.Machine

/-- Kinds of access, KIND of the fault word (01 R20, R28). -/
inductive Acc where
  | read | write | fetch | atomic
  deriving DecidableEq, Repr

/-- KIND as a number (01 R28). -/
def Acc.code : Acc → Nat
  | .read => 0 | .write => 1 | .fetch => 2 | .atomic => 3

/-- A translation that failed (01 R28), or a walker read of a poisoned entry (14 R394). -/
structure XFail where
  depth : Nat
  reason : Nat
  level : Nat
  walk : Bool
  second : W64
  poison : Bool
  deriving DecidableEq, Repr

/-- A composed translation (01 R21). -/
structure XOk where
  pa : Nat
  size : Nat
  rd : Bool
  wr : Bool
  x : Bool
  chk : Bool
  chkDepth : Nat
  policy : Nat
  dirty : Bool
  /-- the address in the root's space, and the address in the space of the tree that set CHK (01 R28) -/
  rootVa : W64
  chkVa : W64
  deriving DecidableEq, Repr

/-- The context of a CTXID. -/
def State.ctx (s : State) (c : Nat) : Ctx := (SMap.find? s.ctxs c).getD Ctx.blank
/-- Whether the destruction of a running context still waits for the revocations and invalidations before it (13 R366, step 1). -/
def State.dying (s : State) (c : Nat) : Bool :=
  s.jobs.any (fun j => j.ctx == c && j.phase == 0 && j.cmds == [2] && (match j.kind with | .destroy => true | _ => false))

/-- Whether the agents and commands of a context that have started go on: it runs, or it is being destroyed and has not stopped. -/
def State.runs (s : State) (c : Nat) : Bool := let x := s.ctx c; x.stt == 2 || (x.stt == 4 && (x.stopping || s.dying c))
/-- A context stored. -/
def State.setCtx (s : State) (c : Nat) (x : Ctx) : State := { s with ctxs := SMap.put s.ctxs c x }
/-- A context that exists changed. -/
def State.updCtx (s : State) (c : Nat) (f : Ctx → Ctx) : State := match SMap.find? s.ctxs c with | some x => s.setCtx c (f x) | none => s
/-- Word k of a context's descriptor, k = 1-6 or 8-15. -/
def State.cw (s : State) (c k : Nat) : W64 := SMap.get 0 (s.ctx c).w k
/-- Word k of a context's descriptor stored. -/
def State.setCw (s : State) (c k : Nat) (v : W64) : State := s.updCtx c (fun x => { x with w := SMap.set 0 x.w k v })

/-- A context and its ancestors up to the root. -/
def State.chainAux (s : State) : Nat → Nat → List Nat
  | 0, _ => []
  | n + 1, c => if (s.ctx c).depth = 0 then [c] else c :: s.chainAux n (s.ctx c).parent

/-- A context and its ancestors up to the root (at most depth 3). -/
def State.chain (s : State) (c : Nat) : List Nat := s.chainAux 4 c

/-- The ancestor of a context at a depth, itself included. -/
def State.atDepth (s : State) (c d : Nat) : Nat := ((s.chain c).find? (fun x => (s.ctx x).depth == d)).getD c

/-- The root's CTXID (21 R465, step 6). -/
def rootCtx : Nat := 1

/-- Tenant number of a context: TEN of word 13 (15 R400); 0 for the root. -/
def State.tenNo (s : State) (c : Nat) : Nat := bits (s.cw c 13) 63 56

/-- The depth-1 context of a context's tenant, or the root itself. -/
def State.tenant (s : State) (c : Nat) : Nat := if (s.ctx c).depth = 0 then c else s.atDepth c 1

/-- Whether a context holds a channel group (15 R400). -/
def State.holdsGroup (s : State) (c g : Nat) : Bool :=
  if g < 64 then bit (s.cw c 12) g else bit (s.cw c 13) (48 + (g - 64))

/-- Whether a context holds a side of a core (15 R400, R404). -/
def State.holdsSide (s : State) (c core side : Nat) : Bool :=
  bit (s.cw c (8 + side + 2 * (core / 64))) (core % 64)

/-- The tenants, by CTXID. -/
def State.tenants (s : State) : List Nat := (s.ctxs.filter (fun e => e.2.depth == 1)).map (·.1)

/-- Whether a slot lies in a window word's windows (15 R410). -/
def inWindow (w : W64) (slot : Nat) : Bool :=
  let p := 2 ^ bits w 3 0
  w != 0 && (slot + (p - bits w 13 4 % p)) % p < bits w 24 14

/-- Whether a slot lies in a tenant's windows on a die. -/
def State.windowOf (s : State) (t die slot : Nat) : Bool := inWindow (SMap.get 0 (s.ctx t).slices die) slot

/-- Whether a core is time-shared (15 R399): two tenants hold one side of it. -/
def State.coreShared (s : State) (core : Nat) : Bool := [0, 1].any (fun d => 2 ≤ (s.tenants.filter (fun t => s.holdsSide t core d)).length)

/-- Whether the connection matrix lets a core's requests reach a group while its pair is time-shared (15 R406): the row follows the tenant whose
window is current. The time-shared core itself runs only that tenant's work (R410); with no window current the row is as before (log 182). -/
def State.rowOk (s : State) (core g : Nat) : Bool :=
  let mate := core / 2 * 2 + (1 - core % 2)
  if s.coreShared core || !s.coreShared mate then true
  else match s.tenants.find? (fun t => (s.holdsSide t mate 0 || s.holdsSide t mate 1) && s.windowOf t (mate / 64) s.slotNo) with
    | some t => s.holdsGroup t g
    | none => true

/-- Whether a request of a context, made for the core in course, may reach a physical address (15 R405-R407). -/
def State.groupOk (s : State) (c pa : Nat) : Bool :=
  (s.ctx c).depth == 0 || s.holdsGroup (s.tenant c) (placeOf s.dev pa).1 && s.rowOk s.cu.core (placeOf s.dev pa).1

/-- Whether an entry is malformed at a level for an address (01 R18). -/
def pteBad (e : W64) (lvl : Nat) (a : W64) : Bool :=
  bits e 55 52 != 0 || bits e 15 11 != 0 || bits e 10 9 == 3
    || (bit e 1 && lvl == 0) || (!bit e 1 && lvl == 2)
    || (!bit e 1 && bits e 10 2 != 0)
    || (bit e 1 && lvl == 1 && (bits e 28 16 != 0 || bit e 6))
    || (bit e 1 && lvl == 2 && bit e 6 && bits e 20 16 != bits a 20 16)

/-- Table index of a level (01 R15). -/
def pteIndex (lvl : Nat) (a : W64) : Nat :=
  match lvl with
  | 0 => bits a 51 42
  | 1 => bits a 41 29
  | _ => bits a 28 16

/-- The stricter cache policy (01 R21): uncached over streaming over write-back. -/
def policyMax (x y : Nat) : Nat := max x y

/-- CHK as composition reads it: 0 while the feature is off (17 R438). -/
def State.chkOn (s : State) : Bool := bit s.dev.featacc 3

/-- The leaf of one tree (01 R20): walks at most three levels, reading each entry through `rd`, the translation of the parent's
space, which answers a physical address, the address in the root's space and the cache policy; every read goes through the L2 slice
(02 R43). The root's tables lie at physical addresses, to which no entry gives a policy: read as write-back (DESIGN CHOICE, log 22).
Answers the entry, where it stands, the level, its address in the parent's space and the policy. -/
def walkLevels (k : Nat) (wk : Bool) (owner : Nat) (rd : W64 → State → State × Except XFail (Nat × W64 × Nat)) :
    Nat → Nat → Nat → W64 → State → State × Except XFail (W64 × Nat × Nat × W64 × Nat)
  | 0, _, _, _, s => (s, .error ⟨k, 1, 2, wk, 0, false⟩)
  | n + 1, lvl, base, a, s =>
    let ea := BitVec.ofNat 64 (base + pteIndex lvl a * 8)
    let (s, r) :=
      if k = 0 then
        (s, if present s.dev ea.toNat then .ok (ea.toNat, ea, 0) else .error ⟨0, 6, lvl, wk, a, false⟩)
      else rd ea s
    match r with
    | .error f => (s, .error f)
    | .ok (pea, rva, pol) =>
      if !s.groupOk owner pea then (s, .error ⟨0, 6, 0, true, rva, false⟩)
      else if s.psn false pea then (s, .error ⟨k, 0, lvl, true, ea, true⟩)
      else
        let s := s.l2Touch pea pol false
        let e := s.rdP64 pea
        if !bit e 0 then (s, .error ⟨k, 0, lvl, wk, a, false⟩)
        else if pteBad e lvl a then (s, .error ⟨k, 1, lvl, wk, a, false⟩)
        else if bit e 1 then (s, .ok (e, pea, lvl, ea, pol))
        else walkLevels k wk owner rd n (lvl + 1) (bits e 51 16 * 65536) a s

/-- The permission test of 01 R20 at a leaf: the reason it fails, if it does; a table read needs none. -/
def permFail (wk : Bool) (acc : Acc) (e : W64) : Option Nat :=
  if wk then none
  else match acc with
    | .read => if bit e 2 then none else some 2
    | .write => if bit e 3 then none else some 3
    | .fetch => if bit e 4 then none else some 4
    | .atomic => if !bit e 2 then some 2 else if !bit e 3 then some 3 else none

/-- An entry with the bits that set_ad sets (01 R22). -/
def adOf (wk : Bool) (acc : Acc) (e : W64) : W64 :=
  setBits (if !wk && (acc == .write || acc == .atomic) then setBits e 7 7 1 else e) 8 8 1

/-- set_ad of 01 R22 on an entry of a context's tree: where it stands, its address in the parent's space and the cache policy there. -/
def State.setAd (s : State) (c : Nat) (wk : Bool) (acc : Acc) (e : W64) (pea : Nat) (ea : W64) (pol : Nat) : State :=
  if adOf wk acc e = e then s else { (s.wrP64 pea (adOf wk acc e)).l2Touch pea pol true with adw := (c, ea) :: s.adw }

/-- The output address of a leaf. -/
def leafOut (e : W64) (lvl : Nat) (a : W64) : Nat := bits e 51 16 * 65536 + (if lvl = 1 then bits a 28 0 else bits a 15 0)
/-- The size that a leaf maps (01 R15). -/
def leafSize (e : W64) (lvl : Nat) : Nat := if lvl = 1 then 2 ^ 29 else if bit e 6 then 2 ^ 21 else 2 ^ 16

/-- A leaf composed with the translation of its output in the parent's space (01 R21). -/
def XOk.under (t : XOk) (k : Nat) (chk : Bool) (e : W64) (lvl : Nat) (a : W64) (dirty : Bool) : XOk :=
  ⟨t.pa, min (leafSize e lvl) t.size, bit e 2 && t.rd, bit e 3 && t.wr, bit e 4 && t.x, chk || t.chk,
    if chk then k else t.chkDepth, policyMax (bits e 10 9) t.policy, dirty && t.dirty, t.rootVa,
    if chk then a else t.chkVa⟩

/-- xlate of 01 R20: the contexts from the accessing tree up to the root, the address, the kind, whether it is a table read. `free`
is a request of a booking unit, which is no requester of the crossbar (15 R405). A fault keeps the kind of the access that was being
translated also where it arose in a table read (DESIGN CHOICE, log 170: KIND of 01 R28 with WALK 1). -/
def xlateFor (free : Bool) : List Nat → Acc → Bool → W64 → State → State × Except XFail XOk
  | [], _, wk, a, s => (s, .error ⟨0, 0, 0, wk, a, false⟩)
  | c :: up, acc, wk, a, s =>
    let k := up.length
    if bits a 63 52 ≠ 0 then (s, .error ⟨k, 5, 0, wk, a, false⟩)
    else if !bit (s.cw c 1) 0 then (s, .error ⟨k, 0, 0, wk, a, false⟩)
    else
      let rd : W64 → State → State × Except XFail (Nat × W64 × Nat) := fun ea s =>
        match xlateFor free up .read true ea s with
        | (s, .ok t) => (s, .ok (t.pa, t.rootVa, t.policy))
        | (s, .error f) => (s, .error f)
      match walkLevels k wk (if free then rootCtx else c) rd 3 0 (bits (s.cw c 1) 51 16 * 65536) a s with
      | (s, .error f) => (s, .error f)
      | (s, .ok (e, pea, lvl, ea, pol)) =>
        match permFail wk acc e with
        | some r => (s, .error ⟨k, r, lvl, false, a, false⟩)
        | none =>
          let s := s.setAd c wk acc e pea ea pol
          let out := leafOut e lvl a
          let chk := bit e 5 && s.chkOn
          let d := bit (adOf wk acc e) 7
          match up with
          | [] =>
            if !present s.dev out then (s, .error ⟨0, 6, lvl, wk, a, false⟩)
            else (s, .ok ⟨out, leafSize e lvl, bit e 2, bit e 3, bit e 4, chk, 0, bits e 10 9, d, a, a⟩)
          | _ :: _ =>
            match xlateFor free up acc wk (BitVec.ofNat 64 out) s with
            | (s, .error f) => (s, .error f)
            | (s, .ok t) => (s, .ok (t.under k chk e lvl a d))

/-- xlate of 01 R20 for a request of a context's cores and engines. -/
def xlate (ch : List Nat) (acc : Acc) (wk : Bool) (a : W64) (s : State) : State × Except XFail XOk := xlateFor false ch acc wk a s

/-- A cached translation that serves an access, if the TLB of the die holds one (01 R24); a write needs D already set. -/
def State.tlbHit (s : State) (c : Nat) (acc : Acc) (a : W64) : Option XOk :=
  if bits a 63 52 ≠ 0 then none
  else match s.dev.tlb.find? (fun e => e.die == s.cu.core / 64 && e.ctx == c && e.va ≤ a.toNat && a.toNat < e.va + e.size
      && (match acc with | .read => e.rd | .write => e.wr && e.dirty | .fetch => e.x | .atomic => e.rd && e.wr && e.dirty)) with
    | some e => some ⟨e.pa + (a.toNat - e.va), e.size, e.rd, e.wr, e.x, e.chk, e.chkDepth, e.policy, e.dirty,
        BitVec.ofNat 64 (e.rootVa + (a.toNat - e.va)), BitVec.ofNat 64 (e.chkVa + (a.toNat - e.va))⟩
    | none => none

/-- The composed address of an address of a context's space in the space of an ancestor: through the trees from the context up to
and not including the ancestor's; nothing where a tree does not map it (15 R415). -/
def State.addrIn (s : State) : List Nat → W64 → Option W64
  | [], a => some a
  | c :: t, a =>
    let rd : W64 → State → State × Except XFail (Nat × W64 × Nat) := fun ea s =>
      match xlate ((s.chain c).drop 1) .read true ea s with
      | (s, .ok x) => (s, .ok (x.pa, x.rootVa, x.policy))
      | (s, .error f) => (s, .error f)
    match (walkLevels (s.ctx c).depth true c rd 3 0 (bits (s.cw c 1) 51 16 * 65536) a s).2 with
    | .error _ => none
    | .ok (e, _, lvl, _) =>
      s.addrIn t (BitVec.ofNat 64 (leafOut e lvl a))

/-- The contexts whose logging covers writes of a context: a logger is the parent of a context of the chain (15 R414). -/
def State.loggers (s : State) (c : Nat) : List (Nat × List Nat) :=
  let ch := s.chain c
  (List.range ch.length).filterMap (fun i =>
    let x := ch.getD i 0
    let l := (s.ctx x).parent
    let d := (s.ctx l).dirty
    if (s.ctx x).depth ≠ 0 ∧ (d.st = 1 ∨ d.st = 2) ∧ bit d.reg 0 ∧ bits (d.blk.getD 0 0) 15 0 = x then some (l, ch.take (i + 1)) else none)

/-- A bit of a logger's bitmap set (15 R415), through the logger's own translation; a bitmap no longer mapped is not written. -/
def State.markBit (s : State) (l i : Nat) : State :=
  let va := BitVec.ofNat 64 (bits ((s.ctx l).dirty.blk.getD 3 0) 51 3 * 8 + i / 64 * 8)
  match xlate (s.chain l) .atomic false va s with
  | (s, .error _) => s
  | (s, .ok x) => (s.wrP64 x.pa (s.rdP64 x.pa ||| BitVec.ofNat 64 (2 ^ (i % 64)))).l2Touch x.pa x.policy true

/-- A write of n bytes at an address of a logger's space marks its pages. -/
def State.markSpan (s : State) (l : Nat) (a n : Nat) : State :=
  let b := (s.ctx l).dirty.blk
  let base := bits (b.getD 1 0) 51 16 * 65536
  let npg := bits (b.getD 2 0) 31 0
  [a, a + n - 1].foldl (fun s x => if base ≤ x ∧ x < base + npg * 65536 then s.markBit l ((x - base) / 65536) else s) s

/-- A write by a context marks the pages it touches in every log that covers the context (15 R415). -/
def State.mark (s : State) (c : Nat) (va : W64) (n : Nat) : State :=
  (s.loggers c).foldl (fun s e =>
    match s.addrIn e.2 va with
    | some a => s.markSpan e.1 a.toNat n
    | none => s) s

/-- A handle write of a context marks pages only in a log of the root, by its physical address (15 R415). -/
def State.markPhys (s : State) (c : Nat) (pa n : Nat) : State :=
  (s.loggers c).foldl (fun s e => if (s.ctx e.1).depth = 0 then s.markSpan e.1 pa n else s) s

/-- The A/D updates of the access in course marked, and those that the marking itself makes in shallower trees, over so many levels. -/
def State.markAdN : Nat → State → State
  | 0, s => { s with adw := [] }
  | n + 1, s =>
    if s.adw.isEmpty then s
    else (s.adw.foldl (fun (s : State) e => if (s.ctx e.1).depth = 0 then s else s.mark (s.ctx e.1).parent e.2 8) { s with adw := [] }).markAdN n

/-- The A/D updates of the access in course marked: a tree's entry lies in its owner's parent's space (15 R415). -/
def State.markAd (s : State) : State := s.markAdN 4

/-- The requester is a core: its die's TLB serves it (01 R24). The requests of a unit of the device go through the TLB of the die whose core
made the last one (log 75). -/
def State.onCore (s : State) (core : Nat) : State := { s with cu := { s.cu with core := core } }

/-- The translation of an access: the cached one or a walk. Where one is cached, whether this access uses it is a free choice, so that an
entry changed in memory and not yet invalidated serves each access old or new (01 R16, R38). -/
def State.lookup (s : State) (free : Bool) (c : Nat) (acc : Acc) (a : W64) : State × Except XFail XOk :=
  let walk (s : State) : State × Except XFail XOk := match xlateFor free (s.chain c) acc false a s with | (s, r) => (s.markAd, r)
  match s.tlbHit c acc a with
  | some t => let s' := { s with picks := s.picks + 1 }; if Config.freeChoice s.picks (2 ^ 50) then (s', .ok t) else walk s'
  | none => walk s

/-- access of 01 R20 up to the performing of it: the translation with the tier check and, unless `free`, the crossbar's check of
the groups of the context's tenant (15 R405-R407). `spill` is the spill engine's: it ignores CHK (02 R50). -/
def State.translateFor (s : State) (free : Bool) (c : Nat) (acc : Acc) (spill : Bool) (a : W64) : State × Except XFail XOk :=
  match s.lookup free c acc a with
  | (s, .error f) => (s, .error f)
  | (s, .ok t) =>
    if t.chk && !spill && !tier1 t.pa then (s, .error ⟨t.chkDepth, 7, 0, false, t.chkVa, false⟩)
    else if !free && !s.groupOk c t.pa then (s, .error ⟨0, 6, 0, false, t.rootVa, false⟩)
    else (s, .ok { t with chk := t.chk && !spill })

/-- The translation of a request that a context's cores and engines make: it may reach the groups of its own tenant. -/
def State.translate (s : State) (c : Nat) (acc : Acc) (spill : Bool) (a : W64) : State × Except XFail XOk := s.translateFor false c acc spill a

/-- The fault word of 01 R28. -/
def faultWord (acc : Acc) (f : XFail) : W64 :=
  BitVec.ofNat 64 (acc.code * 2 ^ 9 + b2n f.walk * 2 ^ 8 + f.level * 2 ^ 6 + f.depth * 2 ^ 4 + f.reason)

/-- A window of a context in a cluster; an empty one where it holds none (01 R30). -/
def State.win (s : State) (c clu : Nat) : Win := (SMap.find? (s.ctx c).win clu).getD ⟨0, 0, 0, 0, 0⟩

/-- Whether a range of window offsets lies in the window (01 R29). -/
def Win.holds (w : Win) (o : W64) (n : Nat) : Bool := w.base + o.toNat + n ≤ w.lim

/-- Whether a byte of cluster address lies in the window's checked range (02 R61). -/
def Win.checked (w : Win) (ca : Nat) : Bool :=
  w.base + w.chkBase * 65536 ≤ ca && ca < w.base + (w.chkBase + w.chkLen) * 65536

/-- Lengths of an access cut at line boundaries: address and length of each part (03 R80). -/
def cutLines (unit : Nat) : Nat → Nat → Nat → List (Nat × Nat)
  | 0, _, _ => []
  | f + 1, a, n => if n = 0 then [] else let k := min n (unit - a % unit); (a, k) :: cutLines unit f (a + k) (n - k)

/-- The pieces of a context-virtual access, each translated (01 R20); the first failure stops it. `off0` counts the pieces'
offsets in the access. -/
def State.piecesFor (s : State) (free : Bool) (c : Nat) (acc : Acc) (spill : Bool) (base : W64) :
    List (Nat × Nat) → Nat → State × Except (XFail × W64) (List Piece)
  | [], _ => (s, .ok [])
  | (o, n) :: t, off =>
    let va := base + BitVec.ofNat 64 o
    match s.translateFor free c acc spill va with
    | (s, .error f) => (s, .error (f, va))
    | (s, .ok x) =>
      match s.piecesFor free c acc spill base t (off + n) with
      | (s, .error f) => (s, .error f)
      | (s, .ok l) => (s, .ok (⟨false, x.pa, off, n, x.chk && inCheckable s.dev x.pa, va, x.policy⟩ :: l))

/-- The pieces of an access of n bytes at a virtual address, one for each line it touches (`free` as above). -/
def State.accessFor (s : State) (free : Bool) (c : Nat) (acc : Acc) (spill : Bool) (va : W64) (n : Nat) : State × Except (XFail × W64) (List Piece) :=
  let d := va.toNat % 64
  s.piecesFor free c acc spill (va - BitVec.ofNat 64 d) (cutLines 64 (n / 64 + 2) d n) 0

/-- The pieces of an access of n bytes that a context's cores and engines make. -/
def State.access (s : State) (c : Nat) (acc : Acc) (spill : Bool) (va : W64) (n : Nat) : State × Except (XFail × W64) (List Piece) :=
  s.accessFor false c acc spill va n

/-- The pieces of an access of n bytes at a window offset in a cluster (01 R29); none where it leaves the window. -/
def State.accessSp (s : State) (c clu : Nat) (o : W64) (n : Nat) : Option (List Piece) :=
  let w := s.win c clu
  if !w.holds o n then none
  else
    let ca := w.base + o.toNat
    some ((cutLines 64 (n / 64 + 2) ca n).map (fun (a, k) =>
      ⟨true, spKey clu a, a - ca, k, w.checked a, BitVec.ofNat 64 (a - w.base), 0⟩))

end Sys2Proof.Machine
end

