-- ==== Sys2Proof/Machine/Race.lean ====
section
/-! DEFINITION. Clocks, epochs, publication and the race detector (03 R74-R96, 04 R104-R106). -/

namespace Sys2Proof.Machine

/-- The join of two sparse vectors: entrywise maximum (03 R87). -/
def vjoin (x y : SMap Nat) : SMap Nat := y.foldl (fun m e => SMap.set 0 m e.1 (max (SMap.get 0 m e.1) e.2)) x

/-- The join of two states (03 R87). -/
def Clock.join (x y : Clock) : Clock := ⟨vjoin x.vc y.vc, vjoin x.fr y.fr⟩

/-- A state as an agent of a cluster takes it: the clock entries of its own cluster (03 R87). -/
def Clock.within (x : Clock) (clu : Nat) : Clock := ⟨SMap.keep x.vc (fun i _ => i / 128 == clu), x.fr⟩

/-- The empty state. -/
def Clock.empty : Clock := ⟨[], []⟩

/-- An agent's race state before it has run (03 R87). -/
def RaceSt.init : RaceSt := ⟨1, Clock.empty, Clock.empty, []⟩

/-- Largest epoch (03 R92). -/
def maxEpoch : Nat := 0xFFFFF

/-- Key of an agent's race state for a tenant. -/
def raceKey (ten clu agt : Nat) : Nat := ten * 2048 + clu * 128 + agt

/-- An agent's race state for a tenant. -/
def State.rs (s : State) (k : Nat) : RaceSt := (SMap.find? s.races k).getD RaceSt.init
/-- An agent's race state stored. -/
def State.setRs (s : State) (k : Nat) (x : RaceSt) : State := { s with races := SMap.put s.races k x }

/-- The agent index of a key. -/
def keyAgt (k : Nat) : Nat := k % 128
/-- The cluster of a key. -/
def keyClu (k : Nat) : Nat := k / 128 % 16
/-- The entry of a key's agent in a clock. -/
def keyEnt (k : Nat) : Nat := k % 2048
/-- The tenant of a key. -/
def keyTen (k : Nat) : Nat := k / 2048

/-- A cluster epoch of a tenant (03 R87, R94). -/
def State.ce (s : State) (ten clu : Nat) : Nat := SMap.get 1 s.cepochs (ten * 16 + clu)

/-- An agent's clock with its own entry reading its epoch (03 R87). -/
def State.clockOf (s : State) (k : Nat) : Clock :=
  let r := s.rs k
  ⟨SMap.set 0 r.clk.vc (keyEnt k) r.epoch, r.clk.fr⟩

/-- The narrowest scope that spans two agents (03 R75). -/
def spanOf (c1 a1 c2 a2 : Nat) : Nat :=
  if c1 = c2 then (if a1 < 64 ∧ a2 < 64 ∧ a1 / 8 = a2 / 8 then 0 else 1)
  else if c1 / 8 = c2 / 8 then 2 else 3

/-- How an access takes part in the detector: kind 0 read, 1 write, 2 read-modify-write; its scope when strong (03 R76, R89). -/
structure RaceAcc where
  kind : Nat
  scope : Option Nat
  deriving DecidableEq, Repr

/-- Writer-word fields (03 R86): recorded, cluster, agent, epochs, strong, scope. -/
def mkWriter (clu agt ae ce : Nat) (sc : Option Nat) : W64 :=
  BitVec.ofNat 64 (clu * 2 ^ 60 + agt * 2 ^ 53 + ae * 2 ^ 33 + ce * 2 ^ 13 + b2n sc.isSome * 2 ^ 12 + sc.getD 0 * 2 ^ 9 + 2 ^ 8)

/-- Reader-word fields (03 R86). -/
def mkReader (clu agt ae ce : Nat) (mr alls : Bool) (rspan rsmin : Nat) : W64 :=
  BitVec.ofNat 64 (clu * 2 ^ 60 + agt * 2 ^ 53 + ae * 2 ^ 33 + ce * 2 ^ 13 + 2 ^ 12 + b2n mr * 2 ^ 11 + b2n alls * 2 ^ 10
    + rspan * 2 ^ 7 + rsmin * 2 ^ 4)

/-- covered of 03 R89, for a recorded word's cluster, agent and epochs against a state of an agent of cluster `clu`. -/
def coveredBy (clu : Nat) (st : Clock) (w : W64) : Bool :=
  let cl := bits w 63 60
  let ag := bits w 59 53
  if ag = 127 then true
  else (cl == clu && bits w 52 33 ≤ SMap.get 0 st.vc (cl * 128 + ag)) || bits w 32 13 ≤ SMap.get 0 st.fr cl

/-- The exception word of 03 R91. -/
def excWord (prior : W64) (type : Nat) (sp : Bool) : W64 :=
  BitVec.ofNat 64 (bits prior 63 13 * 2 ^ 13 + type * 2 ^ 10 + b2n sp * 2 ^ 9)

/-- check of 03 R89: the metadata after the access, or the exception word. Of several readers within one core (RSPAN .core) every snapshot is
wide enough, and the narrowest, bs[1], is read (DEDUCED, log 180). -/
def raceCheck (clu agt ae ce : Nat) (st : Clock) (bs : SMap Clock) (acc : RaceAcc) (sp : Bool) (m : W64 × W64) : Except W64 (W64 × W64) :=
  let (w, r) := m
  let strong := acc.scope.isSome
  let sc := acc.scope.getD 0
  let wBad : Bool :=
    bit w 8 && !coveredBy clu st w &&
      !(bit w 12 && (let x := spanOf (bits w 63 60) (bits w 59 53) clu agt
                     strong && x ≤ sc && x ≤ bits w 11 9))
  if wBad then .error (excWord w (if acc.kind = 0 then 0 else 2) sp)
  else
    let rsp := max (bits r 9 7) (spanOf (bits r 63 60) (bits r 59 53) clu agt)
    let sok := strong && bit r 10 && rsp ≤ sc && rsp ≤ bits r 6 4
    let rBad : Option Nat :=
      if acc.kind ≠ 0 ∧ bit r 12 then
        if !bit r 11 then (if !coveredBy clu st r && !sok then some 1 else none)
        else (if !coveredBy clu ((SMap.find? bs (max 1 (bits r 9 7))).getD Clock.empty) r && !sok then some 3 else none)
      else none
    match rBad with
    | some t => .error (excWord r t sp)
    | none =>
      if acc.kind = 0 then
        let own := if agt < 64 then 0 else 1
        let sc7 := acc.scope.getD 7
        if !bit r 12 then .ok (w, mkReader clu agt ae ce false strong own sc7)
        else
          let other := !(bits r 63 60 == clu && bits r 59 53 == agt)
          let mr := bit r 11 || (other && !coveredBy clu st r)
          .ok (w, mkReader clu agt ae ce mr (bit r 10 && strong) rsp (min (bits r 6 4) sc7))
      else .ok (mkWriter clu agt ae ce acc.scope, 0)

/-- Metadata of the line of a piece (03 R86). -/
def State.mdOf (s : State) (p : Piece) : W64 × W64 :=
  if p.sp then SMap.get (0, 0) s.mem.spadMd (p.a / 64) else SMap.get (0, 0) s.mem.md (p.a / 64)

/-- Metadata of the line of a piece stored. -/
def State.setMd (s : State) (p : Piece) (m : W64 × W64) : State :=
  if p.sp then { s with mem := { s.mem with spadMd := SMap.set (0, 0) s.mem.spadMd (p.a / 64) m } }
  else { s with mem := { s.mem with md := SMap.set (0, 0) s.mem.md (p.a / 64) m } }

/-- Whether checked accesses of a context are performed unchecked because a reset covers it (03 R93). -/
def State.chkPaused (s : State) (c : Nat) : Bool := (s.ctx (s.tenant c)).chkBusy || (s.ctx rootCtx).chkBusy

/-- The check of every checked piece of an access by an agent with a given state (03 R89): the new metadata of each, or the
conflicting address and the exception word. No metadata is changed here. -/
def State.raceAll (s : State) (c key : Nat) (st : Clock) (acc : RaceAcc) : List Piece → Except (W64 × W64) (List (Piece × (W64 × W64)))
  | [] => .ok []
  | p :: t =>
    if !p.chk || s.chkPaused c then s.raceAll c key st acc t
    else
      let r := s.rs key
      match raceCheck (keyClu key) (keyAgt key) r.epoch (s.ce (keyTen key) (keyClu key)) st r.bs acc p.sp (s.mdOf p) with
      | .error w => .error (p.va, w)
      | .ok m => match s.raceAll c key st acc t with
        | .error e => .error e
        | .ok l => .ok ((p, m) :: l)

/-- The metadata of an access recorded. -/
def State.recordMd (s : State) (l : List (Piece × (W64 × W64))) : State := l.foldl (fun s e => s.setMd e.1 e.2) s

/-- Whether an edge forms between a publication and an agent acquiring at a scope (03 R78, R94). -/
def edgeOk (p : Pub) (key scope : Nat) : Bool :=
  let x := spanOf p.clu p.agt (keyClu key) (keyAgt key)
  p.ten == keyTen key && x ≤ p.scope && x ≤ scope

/-- A publication joined into an agent's state (04 R105): a .core one carries its cross-path state to the cross-path side. -/
def State.joinPub (s : State) (key : Nat) (p : Pub) : State :=
  let r := s.rs key
  let k := keyClu key
  s.setRs key { r with clk := r.clk.join (p.clk.within k), xclk := r.xclk.join ((if p.scope = 0 then p.xclk else p.clk).within k) }

/-- A state joined into both of an agent's states (04 R105). -/
def State.joinBoth (s : State) (key : Nat) (c : Clock) : State :=
  let r := s.rs key
  let c := c.within (keyClu key)
  s.setRs key { r with clk := r.clk.join c, xclk := r.xclk.join c }

/-- Whether an agent's epoch can advance once (03 R92). -/
def State.epochFull (s : State) (key : Nat) : Bool := maxEpoch ≤ (s.rs key).epoch

/-- Whether a device-scope release would pass the cluster epoch's limit (03 R88, R92). -/
def State.cepochFull (s : State) (key : Nat) : Bool := maxEpoch ≤ s.ce (keyTen key) (keyClu key)

/-- An agent publishes at a scope: its state, then its epoch advances (03 R87); at .dev and .sys its own cluster's epoch too (03 R88). -/
def State.publish (s : State) (key scope : Nat) : State × Pub :=
  let ten := keyTen key
  let clu := keyClu key
  let (s, c) :=
    if 3 ≤ scope then
      let ce := s.ce ten clu
      let r := s.rs key
      let s := s.setRs key { r with clk := { r.clk with fr := SMap.set 0 r.clk.fr clu (max ce (SMap.get 0 r.clk.fr clu)) } }
      ({ s with cepochs := SMap.set 1 s.cepochs (ten * 16 + clu) (ce + 1) }, s.clockOf key)
    else (s, s.clockOf key)
  let r := s.rs key
  (s.setRs key { r with epoch := r.epoch + 1 }, ⟨clu, keyAgt key, ten, scope, c, r.xclk⟩)

/-- An agent closes its path: its cross-path state becomes its state, and its epoch advances (04 R105). -/
def State.closePath (s : State) (key : Nat) : State :=
  let c := s.clockOf key
  let r := s.rs key
  s.setRs key { r with xclk := c, epoch := r.epoch + 1 }

/-- An agent publishes at a scope; at .clu or wider it closes its path with that, the one advance of its epoch serving both (03 R87,
R90, 04 R104, R105). -/
def State.publishClose (s : State) (key scope : Nat) : State × Pub :=
  let (s, p) := s.publish key scope
  (if 1 ≤ scope then s.setRs key { s.rs key with xclk := p.clk } else s, p)

/-- Epochs that an event that takes no trap would pass beyond the limit stay there (03 R92, 13 R354): the agent's and its cluster's. -/
def State.capEpoch (s : State) (key : Nat) : State :=
  let s := if maxEpoch < (s.rs key).epoch then s.setRs key { s.rs key with epoch := maxEpoch } else s
  let k := keyTen key * 16 + keyClu key
  if maxEpoch < SMap.get 1 s.cepochs k then { s with cepochs := SMap.set 1 s.cepochs k maxEpoch } else s

/-- The publications an 8-byte unit carries: kept for the aligned unit as a whole, so that a strong write to some of its bytes replaces those
that a write to others of them left (DESIGN CHOICE, log 171). -/
def State.pubsAt (s : State) (sp : Bool) (a : Nat) : List Pub := SMap.get [] s.mem.pubs (s.unitKey sp a)

/-- The publications of an 8-byte unit replaced. -/
def State.setPubs (s : State) (sp : Bool) (a : Nat) (l : List Pub) : State :=
  { s with mem := { s.mem with pubs := SMap.set [] s.mem.pubs (s.unitKey sp a) l } }

/-- The publications of every 8-byte unit that a write of n bytes touches removed. -/
def State.dropPubs (s : State) (sp : Bool) (a n : Nat) : State :=
  if s.mem.pubs.isEmpty then s
  else ((List.range ((a % 8 + n + 7) / 8)).map (fun i => a - a % 8 + 8 * i)).foldl (fun s x => s.setPubs sp x []) s

/-- An external write's mark on a line's metadata, when the line is checkable (03 R95). -/
def State.externalWrite (s : State) (p : Piece) : State :=
  if p.chk then s.setMd p (BitVec.ofNat 64 (127 * 2 ^ 53 + 2 ^ 8), 0) else s

end Sys2Proof.Machine
end

