-- ==== Sys2Proof/Machine/Ops.lean ====
section
/-! DEFINITION. Named operations over agents and registers: reads and writes with their latency bounds, tokens, the advance of
the program counter with delay slots and the loop sequencer. -/

namespace Sys2Proof.Machine

/-- The outcome of a step. -/
abbrev Out := Host.Outcome State Fault Refusal

/-- Key of an agent. -/
def agKey (core st : Nat) : Nat := core * 6 + st

/-- An agent by core and stream number 0-5. -/
def State.ag (s : State) (core st : Nat) : Agent := (SMap.find? s.agents (agKey core st)).getD Agent.blank
/-- An agent stored. -/
def State.setAg (s : State) (core st : Nat) (a : Agent) : State := { s with agents := SMap.put s.agents (agKey core st) a }
/-- An agent changed. -/
def State.updAg (s : State) (core st : Nat) (f : Agent → Agent) : State := s.setAg core st (f (s.ag core st))
/-- A core. -/
def State.core (s : State) (c : Nat) : Core := (SMap.find? s.cores c).getD Core.blank
/-- A core changed. -/
def State.updCore (s : State) (c : Nat) (f : Core → Core) : State := { s with cores := SMap.put s.cores c (f (s.core c)) }

/-- The agent that issues. -/
def State.me (s : State) : Agent := s.ag s.cu.core s.cu.st
/-- The agent that issues, changed. -/
def State.updMe (s : State) (f : Agent → Agent) : State := s.updAg s.cu.core s.cu.st f
/-- Cluster of a core. -/
def cluOf (core : Nat) : Nat := core / 8
/-- Die of a core. -/
def dieOf (core : Nat) : Nat := core / 64
/-- Whether a stream is a sidecar. -/
def isSide (st : Nat) : Bool := st == 4 || st == 5
/-- The context whose work an agent runs; 0 where it runs none (12 R332). -/
def Agent.ctx (a : Agent) : Nat := match a.item with | some i => i.ctx | none => 0
/-- The context whose work the issuing agent runs. -/
def State.myCtx (s : State) : Nat := s.me.ctx
/-- Key of the race state of an agent of a core for the context it works for (03 R74, R94). -/
def State.raceOf (s : State) (core st : Nat) : Nat := raceKey (s.tenNo (s.ag core st).ctx) (cluOf core) (8 * (core % 8) + st)
/-- Key of the issuing agent's race state. -/
def State.myRace (s : State) : Nat := s.raceOf s.cu.core s.cu.st

/-- A lane of a vector register (10 R279). -/
def VReg.lane (v : VReg) (i : Nat) : W32 :=
  match v with
  | .undef t => Config.freeLane t i
  | .dense l => l.getD i 0

/-- The 1,024 lanes of a vector register. -/
def VReg.lanes (v : VReg) : List W32 :=
  match v with
  | .undef t => (List.range 1024).map (Config.freeLane t)
  | .dense l => (l ++ List.replicate (1024 - l.length) 0).take 1024

/-- Whether a register is read inside its producer's bound (08 R235). -/
def Agent.early (a : Agent) (now : Nat) (r : RegRef) : Bool := a.bounds.any (fun b => b.reg == r && now < b.till)

/-- Whether a register is locked by an interlocked result still to arrive (08 R236). -/
def Agent.locked (a : Agent) (r : RegRef) : Bool := a.locks.contains r || a.pend.any (fun p => p.dest == some r)

/-- A number for a register, for free values. -/
def RegRef.num : RegRef → Nat
  | .s n => n | .v n => 64 + n | .p n => 128 + n | .b n => 192 + n | .vstat => 200

/-- A scalar register as the register file holds it; s0 reads zero (09 R246). -/
def Agent.sreg (a : Agent) (n : Nat) : W64 := if n = 0 then 0 else SMap.get 0 a.regs.s n
/-- A predicate register as the register file holds it; p0 reads all-true (09 R246). -/
def Agent.preg (a : Agent) (n : Nat) : Lanes := if n = 0 then BitVec.allOnes 1024 else SMap.get 0 a.regs.p n
/-- A branch-target register. -/
def Agent.breg (a : Agent) (n : Nat) : W64 := SMap.get 0 a.regs.b n
/-- A vector register. -/
def Agent.vreg (a : Agent) (n : Nat) : VReg := SMap.get (.dense []) a.regs.v n

/-- A scalar register as an instruction reads it: a free value inside the producer's bound (08 R235). -/
def State.rdS (s : State) (n : Nat) : W64 :=
  if n ≠ 0 ∧ s.me.early s.cycle (.s n) then Config.freeWord s.fresh n else s.me.sreg n
/-- A predicate register as an instruction reads it. -/
def State.rdP (s : State) (n : Nat) : Lanes :=
  if n ≠ 0 ∧ s.me.early s.cycle (.p n) then
    (let x := Config.freeLanes s.fresh n
     if isSide s.cu.st then (if x.getLsbD 0 then BitVec.allOnes 1024 else 0) else x)
  else s.me.preg n
/-- A branch-target register as an instruction reads it. -/
def State.rdBt (s : State) (n : Nat) : W64 :=
  if s.me.early s.cycle (.b n) then Config.freeWord s.fresh (192 + n) else s.me.breg n
/-- A vector register as an instruction reads it. -/
def State.rdV (s : State) (n : Nat) : VReg :=
  if s.me.early s.cycle (.v n) then .undef (s.fresh * 64 + n) else s.me.vreg n

/-- An operand of a unit re-executed from a capture, if it was captured (14 R380, R387). -/
def State.capOp (s : State) (k : Nat) : Option CapOp :=
  match s.cu.cap with
  | some c => c.ops[k]?
  | none => none

/-- Scalar operand of field k (0 a, 1 b, 2 c, 3 e) naming register r. -/
def State.opS (s : State) (k : Nat) (r : Fld) : W64 :=
  match s.capOp k with
  | some (.scalar v) => v
  | _ => s.rdS r.toNat
/-- Vector operand of field k naming register r. -/
def State.opV (s : State) (k : Nat) (r : Fld) : VReg :=
  match s.capOp k with
  | some (.vector v) => v
  | _ => s.rdV r.toNat
/-- The governing predicate of a unit, as captured or as it stands (10 R280). -/
def State.gov (s : State) (u : U) : Lanes :=
  match s.cu.cap with
  | some c => (match c.pred with | some l => l | none => s.rdP u.p.toNat)
  | none => s.rdP u.p.toNat

/-- Scalar operands a, b, c, e. -/
def State.sA (s : State) (u : U) : W64 := s.opS 0 u.a
def State.sB (s : State) (u : U) : W64 := s.opS 1 u.b
def State.sC (s : State) (u : U) : W64 := s.opS 2 u.c
def State.sE (s : State) (u : U) : W64 := s.opS 3 u.e

/-- FILE and index of a register in the UREG word (14 R375). -/
def RegRef.file : RegRef → Nat × Nat
  | .s n => (0, n) | .v n => (1, n) | .p n => (2, n) | .b n => (3, n) | .vstat => (15, 0)

/-- A register written with bound L (08 R234, R235): the bound recorded; whether an earlier writer's bound is still open. -/
def Agent.land (a : Agent) (now : Nat) (r : RegRef) (l : Nat) : Agent × Bool :=
  let open1 := a.early now r
  let till := max (now + l) ((a.bounds.filter (fun b => b.reg == r)).foldl (fun m b => max m b.till) 0)
  let rest := a.bounds.filter (fun b => b.reg != r && now < b.till)
  let ok := a.bad.filter (· != r.file)
  (if l ≤ 1 ∧ !open1 then { a with bounds := rest, bad := ok } else { a with bounds := ⟨r, till⟩ :: rest, bad := ok }, open1)

/-- A scalar register of the issuing agent written with bound L; a write to s0 is discarded (09 R246). With an earlier writer's
bound still open, which value stays is a free choice (08 R235). -/
def State.wrS (s : State) (n : Nat) (v : W64) (l : Nat) : State :=
  if n = 0 then s
  else s.updMe (fun a =>
    let (a', dbl) := a.land s.cycle (.s n) l
    let w := if dbl && Config.freeChoice s.fresh n then a.sreg n else v
    { a' with regs := { a'.regs with s := SMap.set 0 a'.regs.s n w } })

/-- A predicate register written; a write to p0 is discarded; a sidecar's takes lane 0's value in every lane (09 R246, R247). -/
def State.wrP (s : State) (n : Nat) (v : Lanes) (l : Nat) : State :=
  if n = 0 then s
  else s.updMe (fun a =>
    let v := if isSide s.cu.st then (if v.getLsbD 0 then BitVec.allOnes 1024 else 0) else v
    let (a', dbl) := a.land s.cycle (.p n) l
    let w := if dbl && Config.freeChoice s.fresh (128 + n) then a.preg n else v
    { a' with regs := { a'.regs with p := SMap.set 0 a'.regs.p n w } })

/-- A branch-target register written (09 R261). -/
def State.wrBt (s : State) (n : Nat) (v : W64) (l : Nat) : State :=
  s.updMe (fun a =>
    let (a', dbl) := a.land s.cycle (.b n) l
    let w := if dbl && Config.freeChoice s.fresh (192 + n) then a.breg n else v
    { a' with regs := { a'.regs with b := SMap.set 0 a'.regs.b n w } })

/-- A vector register written (10 R280). -/
def State.wrV (s : State) (n : Nat) (v : VReg) (l : Nat) : State :=
  s.updMe (fun a =>
    let (a', dbl) := a.land s.cycle (.v n) l
    let w := if dbl && Config.freeChoice s.fresh (64 + n) then a.vreg n else v
    { a' with regs := { a'.regs with v := SMap.set (.dense []) a'.regs.v n w } })

/-- Whether flags have landed by a cycle (05 R148). -/
def FlagLand.landed (e : FlagLand) (now : Nat) : Bool :=
  decide (e.born + e.span ≤ now) || decide (e.born + 1 + (Config.freeWord e.tag 256).toNat % e.span ≤ now)

/-- Flags together. -/
def landingFlags (l : List FlagLand) : W64 := l.foldl (fun f e => f ||| e.flags) 0

/-- The flags that have landed by a cycle, and those still to land (05 R148). -/
def Agent.landFlags (a : Agent) (now : Nat) : Agent :=
  { a with vstat := a.vstat ||| landingFlags (a.flagq.filter (·.landed now)), flagq := a.flagq.filter (fun e => !e.landed now) }

/-- VSTAT once every result has landed (05 R148). -/
def Agent.allFlags (a : Agent) : W64 := a.vstat ||| landingFlags a.flagq

/-- VSTAT flags raised by an instruction with bound L (05 R147, R148): they land with its result. -/
def State.orVstat (s : State) (f : W64) (l : Nat) : State :=
  s.updMe (fun a =>
    if l ≤ 1 then { a with vstat := a.vstat ||| f }
    else
      let q := a.flagq.filter (fun e => s.cycle < e.born + e.span)
      let done := a.flagq.filter (fun e => e.born + e.span ≤ s.cycle)
      { (a.land s.cycle .vstat l).1 with
        vstat := a.vstat ||| landingFlags done, flagq := if f = 0 then q else ⟨f, s.cycle, l, s.fresh⟩ :: q })

/-- VSTAT bits (05 R147). -/
def fIV : W64 := 0x1
def fDZ : W64 := 0x2
def fOF : W64 := 0x4
def fUF : W64 := 0x8
def fNX : W64 := 0x10
def fSAT : W64 := 0x200
def fBXSAT : W64 := 0x400
def fDZI : W64 := 0x800
def fLXUP : W64 := 0x1000
def fLXDN : W64 := 0x2000
def fLXREC : W64 := 0x4000
def fLXTOP : W64 := 0x8000

/-- Address of the unit after the one being issued, in program order. -/
def State.nextPc (s : State) : W64 := s.cu.pc + BitVec.ofNat 64 (4 * s.cu.len)

/-- Fields of a loop descriptor (06 R167). -/
def loopLen (d : List W64) : Nat := bits (d.getD 0 0) 8 0
def loopNl (d : List W64) : Nat := bits (d.getD 0 0) 11 9
def loopStages (d : List W64) : Nat := bits (d.getD 0 0) 15 12
def loopScl (d : List W64) : Nat := bits (d.getD 0 0) 37 35
def loopReg (d : List W64) (i : Nat) : Nat := bits (d.getD 0 0) (43 + 6 * i) (38 + 6 * i)
def loopCount (d : List W64) (l : Nat) : Nat := bits (d.getD (1 + l) 0) 15 0
def loopStride (d : List W64) (l i : Nat) : W64 := (BitVec.ofNat 16 (bits (d.getD (1 + l) 0) (31 + 16 * i) (16 + 16 * i))).signExtend 64

/-- Full iterations of a nest (06 R168). -/
def loopP (d : List W64) : Nat := ((List.range (loopNl d)).map (fun l => loopCount d l + 1)).foldl (· * ·) 1
/-- Passes of a nest with P full iterations (06 R168). -/
def loopPasses (d : List W64) (p : Nat) : Nat := if loopStages d = 0 then p else p + loopStages d - 1

/-- Stage predicates at the start of pass n (06 R168). -/
def stagePreds (d : List W64) (n p : Nat) (m : SMap Lanes) : SMap Lanes :=
  if loopStages d = 0 then m
  else (List.range 8).foldl (fun m k =>
    SMap.set 0 m (48 + k) (if k < loopStages d ∧ k ≤ n ∧ n < p + k then BitVec.allOnes 1024 else 0)) m

/-- The level that advances after a pass, and the counters then (06 R168). -/
def loopAdvance (d : List W64) : Nat → Nat → List Nat → Nat × List Nat
  | 0, l, c => (l, c)
  | f + 1, l, c =>
    if c.getD l 0 = loopCount d l ∧ l < 5 then loopAdvance d f (l + 1) (c.set l 0) else (l, c.set l (c.getD l 0 + 1))

/-- The end of a pass (06 R168): the counters and strides step while n < P - 1; the next pass begins, or the nest ends and the
agent continues after the body. -/
def Agent.endPass (a : Agent) (d : List W64) (lp : LoopSt) : Agent :=
  let (c, regs) :=
    if lp.n + 1 < lp.p then
      let (l, c) := loopAdvance d 6 0 lp.c
      let step (r : SMap W64) (i : Nat) : SMap W64 :=
        let x := loopReg d i
        if x = 0 then r else SMap.set 0 r x (SMap.get 0 r x + (loopStride d l i <<< loopScl d))
      (c, { a.regs with s := (List.range 3).foldl step a.regs.s })
    else (lp.c, a.regs)
  if lp.n + 1 < loopPasses d lp.p then
    let n := lp.n + 1
    { a with regs := { regs with p := stagePreds d n lp.p regs.p },
             loop := some { lp with c := c, n := n, idx := 0 },
             pc := match lp.body with | x :: _ => x.pc | [] => lp.after }
  else { a with regs := regs, loop := none, pc := lp.after, ended := some lp }

/-- The program counter after a unit (06 R166, R168, 09 R263, R266): the next body unit or pass of an active loop; the next
delay slot, or the transfer after the last one; else the unit after it. -/
def State.advance (s : State) : State :=
  s.updMe (fun a =>
    match s.cu.inLoop, a.loop with
    | true, some lp =>
      match lp.body[lp.idx + 1]? with
      | some x => { a with loop := some { lp with idx := lp.idx + 1 }, pc := x.pc }
      | none => a.endPass (a.cfg.getD []) lp
    | _, _ =>
      match a.xfer with
      | some x =>
        if x.left ≤ 1 then
          { a with xfer := none, pc := if x.taken then x.tgt else s.nextPc, xsrc := if x.taken then some x.src else none }
        else { a with xfer := some { x with left := x.left - 1 }, pc := s.nextPc }
      | none => { a with pc := s.nextPc })

/-- The next issue cycle after a unit with gap g and a delay (08 R233). -/
def State.paced (s : State) (g n : Nat) : State := s.updMe (fun a => { a with ready := s.cycle + 1 + n + g })

/-- A unit completes (08 R233): the program counter advances and the gap applies. A unit re-executed by TRAP.RET moves neither. -/
def State.fin (s : State) (u : U) : State :=
  if s.cu.cap.isSome then s else (s.advance).paced u.g.toNat 0

/-- A unit waits: it has not completed and issues nothing until an event ends the wait. -/
def State.waitOn (s : State) (w : Wait) : State :=
  s.updMe (fun a => { a with wait := w, waitAt := if a.wait = .none then some s.cycle else a.waitAt, wunit := some s.cu })

/-- A governing predicate makes a scalar 64-bit unit take effect only when its lane 0 is 1 (09 R246, 11 R308). -/
def State.lane0 (s : State) (u : U) : Bool := (s.gov u).getLsbD 0

/-- Whether work of a context may run on a core in the current slot (15 R409, R410): always where the core is not time-shared. -/
def State.coreOpen (s : State) (c core : Nat) : Bool :=
  if !s.coreShared core then true
  else match s.tenants.find? (fun t => (s.holdsSide t core 0 || s.holdsSide t core 1) && s.windowOf t (dieOf core) s.slotNo) with
    | some t => s.tenant c == t
    | none => (s.ctx c).depth == 0

/-- Whether a context may go on at a core in the current slot: the root always, a tenant's context in its window where the core is time-shared. -/
def State.coreLets (s : State) (c core : Nat) : Bool := (s.ctx c).depth == 0 || s.coreOpen c core

/-- Whether the registers, queues and rows that stand in a core are another tenant's than a context's, whose own are set aside (15 R410). -/
def State.coreAway (s : State) (x core : Nat) : Bool :=
  s.coreShared core && (s.ctx x).depth != 0 && (s.core core).owner != s.tenant x

/-- A core entry of what is set aside. -/
def Saved.core (v : Saved) (k : Nat) : Core := (SMap.find? v.cores k).getD Core.blank

/-- What a context has set aside changed. -/
def State.updAside (s : State) (x : Nat) (f : Saved → Saved) : State := s.updCtx x (fun y => { y with aside := f y.aside })

/-- A core's registers and queues as a context's tenant has them: in the core, or set aside. -/
def State.regs (s : State) (x core : Nat) : Core :=
  if s.coreAway x core then (s.ctx (s.tenant x)).aside.core core else s.core core

/-- Those registers and queues changed. -/
def State.updRegs (s : State) (x core : Nat) (f : Core → Core) : State :=
  if s.coreAway x core then s.updAside (s.tenant x) (fun v => { v with cores := SMap.put v.cores core (f (v.core core)) })
  else s.updCore core f

/-- Whether a context holds the whole matrix engine of a core (01 R31). -/
def State.wholeEngine (s : State) (c core : Nat) : Bool := s.holdsSide c core 0 && s.holdsSide c core 1

/-- The accumulator rows a context reaches at a core (01 R31): first store row and how many. -/
def State.accRows (s : State) (c core : Nat) : Nat × Nat :=
  if s.wholeEngine c core then (0, 4096)
  else if s.holdsSide c core 0 then (0, 2048)
  else if s.holdsSide c core 1 then (2048, 2048)
  else (0, 0)

/-- Whether a context may name a token register of a core (04 R97): every register where it holds both sides, else its half. -/
def State.tokOk (s : State) (c core t : Nat) : Bool :=
  if s.wholeEngine c core then true
  else if t < 16 then s.holdsSide c core 0 else s.holdsSide c core 1

/-- A token's count. -/
def State.tok (s : State) (core t : Nat) : Nat := SMap.get 0 (s.core core).toks t

/-- produce of 04 R98 on a core's registers: the count, or the overflow bit; the state joins in either case. -/
def Core.produce (c : Core) (t : Nat) (st : Clock) : Core :=
  let k := SMap.get 0 c.toks t
  let c := if k = 0xFFFF then { c with tokovf := setBits c.tokovf t t 1 } else { c with toks := SMap.set 0 c.toks t (k + 1) }
  { c with tokClk := SMap.put c.tokClk t (((SMap.find? c.tokClk t).getD Clock.empty).join st) }

/-- produce of 04 R98 by work that runs on the core. -/
def State.produce (s : State) (core t : Nat) (st : Clock) : State := s.updCore core (fun c => c.produce t st)

/-- produce of 04 R98 for a context, wherever its tenant's registers of the core stand (04 R103, 15 R410). -/
def State.produceFor (s : State) (x core t : Nat) (st : Clock) : State := s.updRegs x core (fun c => c.produce t st)

/-- What else the agenda names in this cycle: its turns before time passes. -/
def State.thisCycle (s : State) : List Turn := s.agenda.takeWhile (fun t => match t with | .cycles _ => false | _ => true)

/-- Whether the registers named, each as often as it is named, can all be decremented (04 R99). -/
def State.canConsume (s : State) (core : Nat) (ts : List Nat) : Bool := ts.all (fun t => (ts.filter (· == t)).length ≤ s.tok core t)

/-- consume of 04 R99, after its test: the decrements, and the join of the registers' states. -/
def State.consume (s : State) (core : Nat) (ts : List Nat) : State × Clock :=
  let clk := ts.foldl (fun c t => c.join ((SMap.find? (s.core core).tokClk t).getD Clock.empty)) Clock.empty
  (s.updCore core (fun c => { c with toks := ts.foldl (fun m t => SMap.set 0 m t (SMap.get 0 m t - 1)) c.toks }), clk)

/-- Queue of an engine by stream number. -/
def State.eq (s : State) (core st : Nat) : List Cmd := SMap.get [] (s.core core).eq st
/-- Queue of an engine stored. -/
def State.setEq (s : State) (core st : Nat) (l : List Cmd) : State :=
  s.updCore core (fun c => { c with eq := SMap.set [] c.eq st l })

/-- HSTAT (17 R439): the oldest event held, and OVF; zero with none. -/
def Dev.hstatWord (d : Dev) : W64 := match d.hstat with | w :: _ => setBits w 43 43 (b2n d.hstatOvf) | [] => 0

/-- The STATUS frames that go out on both ports when HSTAT has changed (17 R433). -/
def State.showHstat (s : State) (old : W64) : State :=
  let w := s.dev.hstatWord
  if w = old then s else { s with hostOut := s.hostOut ++ [⟨0, 3, toBytes 8 w.toNat⟩, ⟨1, 3, toBytes 8 w.toNat⟩] }

/-- An event shown to the host through HSTAT (17 R439): at most 16 are held. -/
def State.hstatPush (s : State) (kind ctx info : Nat) : State :=
  let d := s.dev
  let w := BitVec.ofNat 64 (d.hstatSeq % 65536 * 2 ^ 48 + kind * 2 ^ 44 + ctx * 2 ^ 16 + info)
  let s' : State :=
    if 16 ≤ d.hstat.length then { s with dev := { d with hstatOvf := true } }
    else { s with dev := { d with hstat := d.hstat ++ [w], hstatSeq := d.hstatSeq + 1 } }
  s'.showHstat d.hstatWord

end Sys2Proof.Machine
end

