-- ==== Sys2Proof/Machine/Access.lean ====
section
/-! DEFINITION. Performing accesses: bytes read and written with poison marks (02 R44, 04 R116), and the spill engine's blocks
(02 R49-R50). -/

namespace Sys2Proof.Machine

/-- The bytes of an access's pieces, in order. -/
def State.load (s : State) (ps : List Piece) : List Byte := ps.flatMap (fun p => s.rdBytes p.sp p.a p.n)

/-- A byte as an engine reads it (04 R104): while a store that covers it is still on its agent's path, the byte that stood there. -/
def State.engByte (s : State) (sp : Bool) (a : Nat) : Byte :=
  let hit : Pend → Option Byte := fun e =>
    match e.pieces.find? (fun p => p.sp == sp && p.a ≤ a && a < p.a + p.n) with
    | some p => e.old[a - p.a]?
    | none => none
  match (s.agents.flatMap (fun e => e.2.pend.filter (fun p => p.stage == 2))).findSome? hit with
  | some b => b
  | none => s.rdB sp a

/-- Consecutive bytes as an engine reads them. -/
def State.engBytes (s : State) (sp : Bool) (a n : Nat) : List Byte :=
  if s.agents.all (fun e => e.2.pend.isEmpty) then s.rdBytes sp a n else (span a n).map (s.engByte sp)

/-- A byte at an address, replaced where pieces and their data cover it; of pieces that overlap the last counts (10 R300). -/
def overlay (ps : List Piece) (data : List Byte) (sp : Bool) (a : Nat) (b : Byte) : Byte :=
  match ps.reverse.find? (fun p => p.sp == sp && p.a ≤ a && a < p.a + p.n) with
  | some p => data.getD (p.off + (a - p.a)) b
  | none => b

/-- The bytes of an access as its own agent reads them: the stores it has not yet shown to others laid over what every agent sees, oldest
first (03 R80). -/
def State.loadBy (s : State) (a : Agent) (ps : List Piece) : List Byte :=
  let own := a.pend.filter (·.hidden)
  if own.isEmpty then s.load ps
  else ps.flatMap (fun p => (span p.a p.n).map (fun x => own.foldl (fun b e => overlay e.rest e.data p.sp x b) (s.rdB p.sp x)))

/-- Bytes written by an engine: a store still on its path no longer hides them (04 R104). -/
def State.engUnshadow (s : State) (ps : List Piece) (data : List Byte) : State :=
  if s.agents.all (fun e => e.2.pend.isEmpty) then s
  else
    let fix (e : Pend) : Pend :=
      match e.pieces with
      | [p] => if e.stage = 2 then { e with old := e.old.zipIdx.map (fun (b, i) => overlay ps data p.sp (p.a + i) b) } else e
      | _ => e
    { s with agents := s.agents.map (fun e => (e.1, { e.2 with pend := e.2.pend.map fix })) }

/-- One piece stored: its bytes; a whole line clears the poison mark, a part keeps it (04 R116); publications there end. -/
def State.storeOne (s : State) (p : Piece) (data : List Byte) : State :=
  let s := s.wrBytes p.sp p.a ((data.drop p.off).take p.n)
  let s := if p.n = 64 then s.setPsn p.sp p.a false else s
  s.dropPubs p.sp p.a p.n

/-- The pieces of an access stored. -/
def State.store (s : State) (ps : List Piece) (data : List Byte) : State := ps.foldl (fun s p => s.storeOne p data) s

/-- The pieces of an access of a context stored, the dirty log marked first (15 R415). -/
def State.storeAs (s : State) (c : Nat) (ps : List Piece) (data : List Byte) : State :=
  ((ps.foldl (fun s p => if p.sp then s else s.mark c p.va p.n) s).markAd).store ps data

/-- The first poisoned piece of an access. -/
def State.firstPsn (s : State) (ps : List Piece) : Option Piece := ps.find? (fun p => s.psn p.sp p.a)

/-- Pages of a context's spill region (02 R49). -/
def State.spPages (s : State) (c : Nat) : Nat := bits (s.cw c 4) 11 0
/-- Blocks of a context's spill region (02 R49). -/
def State.spBlocks (s : State) (c : Nat) : Nat := min 65520 (16 * s.spPages c)
/-- Virtual address of a block of a context's spill region (02 R49). -/
def State.blockVa (s : State) (c b : Nat) : W64 := BitVec.ofNat 64 (bits (s.cw c 4) 51 16 * 65536 + 4096 * b)

/-- The lowest free number not in a list, below a limit: checks candidates upward. -/
def lowestFree (used : List Nat) : Nat → Nat → Option Nat
  | 0, _ => none
  | f + 1, k => if used.contains k then lowestFree used f (k + 1) else some k

/-- The lowest free block of a context's spill region (02 R47, R49). -/
def State.freeBlock (s : State) (c : Nat) : Option Nat :=
  match lowestFree (s.ctx c).blocks ((s.ctx c).blocks.length + 1) 0 with
  | some b => if b < s.spBlocks c then some b else none
  | none => none

/-- How many blocks of a context's spill region are free. -/
def State.freeBlocks (s : State) (c : Nat) : Nat := s.spBlocks c - (s.ctx c).blocks.length

/-- A block taken. -/
def State.takeBlock (s : State) (c b : Nat) : State := s.updCtx c (fun x => { x with blocks := b :: x.blocks })
/-- A block returned to the pool. -/
def State.dropBlock (s : State) (c b : Nat) : State := s.updCtx c (fun x => { x with blocks := x.blocks.filter (· != b) })

/-- The spill engine writes bytes into a context's space (02 R50). -/
def State.spillWrite (s : State) (c : Nat) (va : W64) (data : List Byte) : State × Except (XFail × W64) Unit :=
  match s.access c .write true va data.length with
  | (s, .error f) => (s, .error f)
  | (s, .ok ps) => ((s.storeAs c ps data).l2Pieces ps true, .ok ())

/-- Poison marks of what the spill engine has written into a context's space (02 R44): lines of the area by number. -/
def State.spillMark (s : State) (c : Nat) (va : W64) (n : Nat) (bad : List Nat) : State :=
  if bad.isEmpty then s
  else match s.access c .write true va n with
    | (s, .ok ps) => bad.foldl (fun (s : State) i => match (ps[i]? : Option Piece) with | some y => s.setPsn y.sp y.a true | none => s) s
    | (s, .error _) => s

/-- The pieces of several writes of the spill engine, all translated before any is made. -/
def State.spillPieces (s : State) (c : Nat) : List (W64 × List Byte) → State × Except (XFail × W64) (List (List Piece × List Byte))
  | [] => (s, .ok [])
  | (va, data) :: t =>
    match s.access c .write true va data.length with
    | (s, .error f) => (s, .error f)
    | (s, .ok ps) =>
      match s.spillPieces c t with
      | (s, .error f) => (s, .error f)
      | (s, .ok l) => (s, .ok ((ps, data) :: l))

/-- Several writes of the spill engine for one instruction: where one faults in translation none is made (02 R50, 09 R270). -/
def State.spillAll (s : State) (c : Nat) (l : List (W64 × List Byte)) : State × Except (XFail × W64) Unit :=
  match s.spillPieces c l with
  | (s, .error f) => (s, .error f)
  | (s, .ok x) => (x.foldl (fun s (e : List Piece × List Byte) => (s.storeAs c e.1 e.2).l2Pieces e.1 true) s, .ok ())

/-- What stops a read: a translation, or a poisoned line. -/
inductive RdStop where
  | xlate (f : XFail) (va : W64)
  | psn (va : W64)
  deriving DecidableEq, Repr

/-- The spill engine reads bytes of a context's space (02 R50, 14 R394). -/
def State.spillRead (s : State) (c : Nat) (va : W64) (n : Nat) : State × Except RdStop (List Byte) :=
  match s.access c .read true va n with
  | (s, .error (f, va)) => (s, .error (.xlate f va))
  | (s, .ok ps) =>
    match s.firstPsn ps with
    | some p => (s, .error (.psn p.va))
    | none => (s.l2Pieces ps false, .ok (s.load ps))

/-- Words of a byte list, little-endian. -/
def words64 : Nat → List Byte → List W64
  | 0, _ => []
  | k + 1, bs => BitVec.ofNat 64 (ofBytes (bs.take 8)) :: words64 k (bs.drop 8)

/-- Bytes of words, little-endian. -/
def bytes64 (ws : List W64) : List Byte := ws.flatMap (fun w => toBytes 8 w.toNat)

/-- Bytes of a vector register in a 4 KiB block: element (i, j) at byte 256i + 4j (02 R47). -/
def VReg.bytes (v : VReg) : List Byte := v.lanes.flatMap (fun l => toBytes 4 l.toNat)

/-- Lanes of 4-byte groups. -/
def lanesOf : Nat → List Byte → List W32
  | 0, _ => []
  | k + 1, bs => BitVec.ofNat 32 (ofBytes (bs.take 4)) :: lanesOf k (bs.drop 4)

/-- A lane list without its trailing zeros, the one form of a register's value. -/
def trimLanes (l : List W32) : List W32 := (l.reverse.dropWhile (· == 0)).reverse

/-- A vector register of given lanes. -/
def VReg.of (l : List W32) : VReg := .dense (trimLanes l)

/-- A vector register from its 4 KiB block (02 R47). -/
def VReg.ofBlock (bs : List Byte) : VReg := .of (lanesOf 1024 bs)

end Sys2Proof.Machine
end

