-- ==== Sys2Proof/Machine/Debug.lean ====
section
/-! DEFINITION. Trace records, counters and bank-conflict snapshots (16 R421-R430). -/

namespace Sys2Proof.Machine

/-- PMSELn as stored (16 R429): EN, SMPLOG, EVENT, the other bits zero. -/
def pmselOf (v : W64) : W64 :=
  let m := bits v 23 18
  let m := if (1 ≤ m ∧ m < 8) ∨ m = 63 then 8 else m
  BitVec.ofNat 64 (bits v 31 31 * 2 ^ 31 + m * 2 ^ 18 + bits v 15 0)

/-- Debug state of a context. -/
def State.dbg (s : State) (c : Nat) : DebugSt := (s.ctx c).dbg
/-- Debug state of a context changed. -/
def State.updDbg (s : State) (c : Nat) (f : DebugSt → DebugSt) : State := s.updCtx c (fun x => { x with dbg := f x.dbg })
/-- Whether a context's trace is enabled (16 R421). -/
def State.tracing (s : State) (c : Nat) : Bool := bit (s.dbg c).reg 2
/-- SNAP of a context (16 R421). -/
def State.snap (s : State) (c : Nat) : Nat := bits (s.dbg c).reg 1 0
/-- Tracing and snapshots turned off by a debug-area write that faults (16 R421). -/
def State.dbgOff (s : State) (c : Nat) : State := s.updDbg c (fun d => { d with reg := setBits d.reg 2 0 0 })

/-- Poison marks of lines that the device has written in a context's space, by their number from an address (02 R44). -/
def State.devMark (s : State) (c : Nat) (va : W64) (n : Nat) (bad : List Nat) : State :=
  if bad.isEmpty then s
  else match s.access c .write false va n with
    | (s, .ok ps) => bad.foldl (fun (s : State) i => match (ps[i]? : Option Piece) with | some y => s.setPsn y.sp y.a true | none => s) s
    | (s, .error _) => s

/-- Lines of an area of a context's space that carry a poison mark, by their number. -/
def State.devMarks (s : State) (c : Nat) (va : W64) (n : Nat) : List Nat :=
  match s.access c .read false va n with
  | (s, .ok ps) => (ps.zipIdx.filter (fun e => s.psn e.1.sp e.1.a)).map Prod.snd
  | (_, .error _) => []

/-- An ordinary write of a context by the device (16 R421); nothing is written when it faults. -/
def State.devWrite (s : State) (c : Nat) (va : W64) (data : List Byte) : State × Bool :=
  match s.access c .write false va data.length with
  | (s, .error _) => (s, false)
  | (s, .ok ps) => ((s.storeAs c ps data).l2Pieces ps true, true)

/-- A write of a context's space by its die's booking unit (07 R185), which is no requester port of the crossbar (15 R405). -/
def State.bookWrite (s : State) (c : Nat) (va : W64) (data : List Byte) : State × Bool :=
  match s.accessFor true c .write false va data.length with
  | (s, .error _) => (s, false)
  | (s, .ok ps) => ((s.storeAs c ps data).l2Pieces ps true, true)

/-- A read of a context's space by its die's booking unit (07 R182-R185, R194). -/
def State.bookRead (s : State) (c : Nat) (va : W64) (n : Nat) : State × Option (List Byte) :=
  match s.accessFor true c .read false va n with
  | (s, .error _) => (s, none)
  | (s, .ok ps) => (s.l2Pieces ps false, some (s.load ps))

/-- An ordinary read of a context by the device. -/
def State.devRead (s : State) (c : Nat) (va : W64) (n : Nat) : State × Option (List Byte) :=
  match s.access c .read false va n with
  | (s, .error _) => (s, none)
  | (s, .ok ps) => (s.l2Pieces ps false, some (s.load ps))

/-- Units written to a ring from a head position on; whether every write was performed. -/
def State.ringWrite (s : State) (c : Nat) : Nat → List (List Byte) → State × Bool
  | _, [] => (s, true)
  | h, u :: t =>
    let d := s.dbg c
    match s.devWrite c (BitVec.ofNat 64 (d.ring + 64 * (h % 2 ^ d.rlog))) u with
    | (s, false) => (s, false)
    | (s, true) => s.ringWrite c (h + 1) t

/-- A LOST record (16 R424). -/
def lostRec (ctx core st cyc slot lost : Nat) : List Byte :=
  bytes64 [BitVec.ofNat 64 (5 * 2 ^ 60 + core * 2 ^ 53 + st * 2 ^ 49 + ctx), BitVec.ofNat 64 (cyc * 2 ^ 48 + slot % 2 ^ 48), 0,
    BitVec.ofNat 64 (15 * 2 ^ 44), 0, 0, BitVec.ofNat 64 lost, 0]

/-- Cycle within the slot (16 R425). -/
def State.slotCyc (s : State) : Nat := (s.cycle - s.slotAt) % 256

/-- A record of one or more units appended to a context's ring (16 R424): whole, or dropped with LOST advanced; a LOST record
comes first once room returns. -/
def State.ringAppend (s : State) (c core st : Nat) (units : List (List Byte)) : State :=
  if !s.tracing c then s
  else
    let d := s.dbg c
    let base := BitVec.ofNat 64 (bits d.reg 51 14 * 16384)
    match s.devRead c (base + 24) 8 with
    | (s, none) => s.dbgOff c
    | (s, some t) =>
      let units := if d.lost = 0 then units else lostRec c core st s.slotCyc s.slotNo d.lost :: units
      let used := (d.head - BitVec.ofNat 64 (ofBytes t)).toNat
      if 2 ^ d.rlog < used + units.length then
        let s := s.updDbg c (fun d => { d with lost := d.lost + 1, lostAll := d.lostAll + 1 })
        let (s, ok) := s.devWrite c (base + 32) (toBytes 8 (d.lostAll + 1).toNat)
        if ok then s else s.dbgOff c
      else
        match s.ringWrite c d.head.toNat units with
        | (s, false) => s.dbgOff c
        | (s, true) =>
          let h := d.head + BitVec.ofNat 64 units.length
          let s := s.updDbg c (fun d => { d with lost := 0, head := h })
          let (s, ok) := s.devWrite c (base + 16) (toBytes 8 h.toNat)
          if ok then s else s.dbgOff c

/-- Where a record stands in a program (16 R425): work identifier, LOOPID, stage, whether a loop is active, ITER, unit address. -/
structure Spot where
  wid : W64
  loopid : Nat
  stage : Nat
  lv : Bool
  iter : Nat
  addr : W64
  deriving DecidableEq, Repr

/-- No position: an engine's record. -/
def Spot.none : Spot := ⟨0, 0, 15, false, 0, 0⟩

/-- LOOPID of a loop descriptor (06 R167). -/
def loopId (d : List W64) : Nat := bits (d.getD 0 0) 31 16

/-- The position of an agent at a unit. -/
def Agent.spot (a : Agent) (addr : W64) (stage : Nat) : Spot :=
  let w := match a.item with | some i => i.workid | none => 0
  match a.loop with
  | some l => ⟨w, loopId (a.cfg.getD []), stage, true, l.n, addr⟩
  | none => ⟨w, 0, stage, false, 0, addr⟩

/-- A trace record's 64 bytes (16 R425). -/
def traceRec (kind ctx core st cyc slot : Nat) (x : Spot) (p0 p1 : W64) : List Byte :=
  bytes64 [BitVec.ofNat 64 (kind * 2 ^ 60 + core * 2 ^ 53 + st * 2 ^ 49 + ctx), BitVec.ofNat 64 (cyc * 2 ^ 48 + slot % 2 ^ 48), x.wid,
    BitVec.ofNat 64 (x.loopid * 2 ^ 48 + x.stage * 2 ^ 44 + b2n x.lv * 2 ^ 43), BitVec.ofNat 64 x.iter, x.addr, p0, p1]

/-- A trace record of one unit written (16 R424, R425). -/
def State.trace (s : State) (kind c core st : Nat) (x : Spot) (p0 p1 : W64) : State :=
  s.ringAppend c core st [traceRec kind c core st s.slotCyc s.slotNo x p0 p1]

/-- Stage of a unit's modifier words: 15 when it has none (16 R425). -/
def stageOf (u : U) : Nat := match u.m.lp with | some (.stage k) => k.toNat | _ => 15

/-- The format word of a command, if it has one. -/
def Cmd.fmt (c : Cmd) : W64 := match c.kind with | .mma f _ _ => f | .zero f => f | _ => 0

/-- P0 and P1 of a SAMPLE record (16 R425): the counter and its value; for an engine the TAG and the progress of its head command. -/
def State.sampleWords (s : State) (c core st k : Nat) (v : W64) : W64 × W64 :=
  let plain := (BitVec.ofNat 64 k, v)
  if st < 6 ∨ 13 < st then plain
  else match (s.eq core st ++ (if st = 8 then s.eq core 16 else [])).find? (fun (m : Cmd) => m.ctx == c) with
    | some m => (BitVec.ofNat 64 (bits m.fmt 15 0), BitVec.ofNat 64 m.prog)
    | none => plain

/-- A counter event of a context on a core counted n times (16 R429): each enabled counter that selects it, modulo 2^63, and a
SAMPLE record where the count crosses a multiple of 2^SMPLOG. -/
def State.count (s : State) (c core st ev n : Nat) : State :=
  if (s.ctx c).pmsel.isEmpty then s
  else (List.range 16).foldl (fun s k =>
    let sel := SMap.get 0 (s.ctx c).pmsel (core * 16 + k)
    if bit sel 31 ∧ bits sel 15 0 = ev ∧ 1 ≤ ev ∧ ev ≤ 15 ∧ (ev ≠ 15 ∨ s.chkOn ∨ !s.dev.featSet) then
      let v0 := (SMap.get 0 (s.ctx c).pmc (core * 16 + k)).toNat
      let v := BitVec.ofNat 64 ((v0 + n) % 2 ^ 63)
      let s := s.updCtx c (fun x => { x with pmc := SMap.set 0 x.pmc (core * 16 + k) v })
      let m := bits sel 23 18
      if m ≠ 0 ∧ v0 / 2 ^ m ≠ (v0 + n) / 2 ^ m then
        let w := s.sampleWords c core st k v
        s.trace 3 c core st (if st < 6 then (s.ag core st).spot (s.ag core st).pc 15 else Spot.none) w.1 w.2
      else s
    else s) s

/-- The L2 effect of an access's pieces, with its hits and misses counted for a core (16 R429). -/
def State.l2Ps (s : State) (c core st : Nat) (ps : List Piece) (wr : Bool) : State :=
  ps.foldl (fun s p =>
    if p.sp then s
    else ((s.count c core st (if s.l2Has p.a then 8 else 9) 1).l2Touch p.a p.pol wr)) s

/-- Key of a tenant's bank-conflict counter (16 R422). -/
def bcmKey (ten clu port bank : Nat) : Nat := ten * 32768 + clu * 2048 + port * 64 + bank

/-- A tenant's matrix in a cluster as bytes (16 R422). -/
def State.bcmBytes (s : State) (ten clu : Nat) : List Byte :=
  (List.range 2048).flatMap (fun i => toBytes 4 (SMap.get 0 s.dev.bcm (ten * 32768 + clu * 2048 + i)).toNat)

/-- Cycles that a request of a context waited at a bank: counted in its tenant's matrix, saturating (16 R422), and in the context's
counters on the core to which the port belongs (16 R429, event 4). -/
def State.conflict (s : State) (c clu port bank n : Nat) : State :=
  let k := bcmKey (s.tenNo c) clu port bank
  let v := min 0xFFFFFFFF ((SMap.get 0 s.dev.bcm k).toNat + n)
  let s := { s with dev := { s.dev with bcm := SMap.set 0 s.dev.bcm k (BitVec.ofNat 32 v) } }
  if port < 24 then s.count c (clu * 8 + port % 8) (if port < 8 then 6 else if port < 16 then 0 else 4) 4 n else s

/-- 64-byte groups of a byte list. -/
def units64 : Nat → List Byte → List (List Byte)
  | 0, _ => []
  | n + 1, l => l.take 64 :: units64 n (l.drop 64)

/-- A snapshot of the cluster's matrix of a context's tenant (16 R423): copied, cleared, written to the area, the ring or both. -/
def State.snapshot (s : State) (c core st : Nat) (x : Spot) : State :=
  let sn := s.snap c
  if sn = 0 then s
  else
    let ten := s.tenNo c
    let clu := cluOf core
    let m := s.bcmBytes ten clu
    let last := SMap.get 0 s.dev.bcmAt (ten * 16 + clu)
    let hd := traceRec 2 c core st s.slotCyc s.slotNo x (BitVec.ofNat 64 clu) (BitVec.ofNat 64 (s.cycle - last))
    let s := { s with dev := { s.dev with
      bcm := SMap.keep s.dev.bcm (fun k _ => k / 2048 != ten * 16 + clu), bcmAt := SMap.set 0 s.dev.bcmAt (ten * 16 + clu) s.cycle } }
    let s :=
      if sn % 2 = 1 then
        let a := BitVec.ofNat 64 (bits (s.dbg c).reg 51 14 * 16384 + 0x4000 * (clu + 1))
        match s.devWrite c a m with
        | (s, false) => s.dbgOff c
        | (s, true) =>
          match s.devWrite c (a + 0x2000) hd with
          | (s, false) => s.dbgOff c
          | (s, true) => s
      else s
    if 2 ≤ sn then s.ringAppend c core st (hd :: units64 128 m) else s

/-- What the end of a nest records (16 R423, R425): a LOOPEXIT record, then a snapshot. -/
def State.loopEnd (s : State) (core st : Nat) : State :=
  let a := s.ag core st
  match a.ended with
  | none => s
  | some l =>
    let s := s.setAg core st { a with ended := none }
    let d := a.cfg.getD []
    let x : Spot := { a.spot 0 15 with loopid := loopId d, lv := true, iter := l.n }
    let c := a.ctx
    let s := s.trace 1 c core st x (BitVec.ofNat 64 (l.n + 1)) (BitVec.ofNat 64 (b2n l.brk))
    s.snapshot c core st x

/-- The breakpoint entry that an agent meets before a unit (16 R426, R427): address entries outside an active loop, loop-position
entries at the start of a pass. -/
def State.breakAt (s : State) (a : Agent) (pc : W64) : Option Nat :=
  let d := s.dbg a.ctx
  let wid := match a.item with | some i => i.workid | none => 0
  (List.range 8).find? (fun k =>
    let e := d.bps.getD k []
    let w0 := e.getD 0 0
    let idOk := (wid ^^^ e.getD 2 0) &&& e.getD 3 0 == 0
    bit w0 63 && bits w0 61 16 == 0 && a.brkArm != some k && idOk &&
      (match a.loop with
        | none => !bit w0 62 && e.getD 1 0 == pc
        | some l => bit w0 62 && l.idx == 0 && bits w0 15 0 == loopId (a.cfg.getD []) && e.getD 1 0 == BitVec.ofNat 64 l.n))

/-- The unit being issued has not issued: it will be met again. The breakpoint that it has already met does not match again (16 R427), and a
unit that TRAP.RET executes again stays first among those. -/
def State.notIssued (s : State) : State :=
  s.updMe (fun a =>
    match s.cu.cap with
    | some c => { a with replay := c :: a.replay }
    | none => { a with brkArm := s.breakAt { a with brkArm := none } s.cu.pc })

/-- A unit holds its issue: it issues again in the next cycle (08 R233). -/
def State.hold (s : State) : State :=
  let t := s.notIssued.updMe (fun a => { a with ready := s.cycle + 1 })
  { t with cu := { t.cu with held := true } }

end Sys2Proof.Machine
end

