-- ==== Sys2Proof/Machine/Trap.lean ====
section
/-! DEFINITION. Taking an exception (14 R375-R386): the composite record, the choice of its receiver, its delivery. One shared
operation, `State.trap`, for every instruction and event that traps. -/

namespace Sys2Proof.Machine

/-- Cause codes (14 R375). -/
inductive Cause where
  | illegal | orphan | priv | wrongAgent | xlate | handle | mmx | epoch | umem | ureg | residue | fmtUnder | nonUnif | retEmpty
  | spillQ | watchdog | forced | brk
  deriving DecidableEq, Repr

/-- A cause's code (14 R375). -/
def Cause.code : Cause → Nat
  | .illegal => 1 | .orphan => 2 | .priv => 3 | .wrongAgent => 4 | .xlate => 5 | .handle => 6 | .mmx => 7 | .epoch => 8 | .umem => 9
  | .ureg => 10 | .residue => 11 | .fmtUnder => 12 | .nonUnif => 13 | .retEmpty => 14 | .spillQ => 15 | .watchdog => 16 | .forced => 17
  | .brk => 18

/-- Whether a cause's records are fatal (14 R375). -/
def Cause.fatal : Cause → Bool
  | .umem | .ureg | .residue | .watchdog | .forced => true
  | _ => false

/-- A trap: its cause and words (14 R375), the address reported, the transferring address if any, whether the faulting unit is
captured for re-execution, and where the stream stands afterwards when that is not the unit after the faulting one. -/
structure TrapInfo where
  cause : Cause
  cword : W64
  aux0 : W64
  aux1 : W64
  addr : W64
  xaddr : Option W64
  fv : Bool
  pos : Option W64
  deriving DecidableEq, Repr

/-- The stream table's entry of an agent (14 R379): words 0-3. -/
def agentEntry (a : Agent) : List W64 :=
  let st := match a.run with | .idle => 0 | .running => 1 | .stopped => 2 | .faulted _ => 3
  let cs := match a.run with | .faulted c => c | _ => 0
  let (pt, tk, lf, tg) := match a.xfer with | some x => (1, b2n x.taken, x.left, setBits x.tgt 63 52 0) | none => (0, 0, 0, 0)
  [setBits a.pc 63 52 0, BitVec.ofNat 64 (st * 2 ^ 62 + pt * 2 ^ 61 + tk * 2 ^ 60 + lf * 2 ^ 58 + cs * 2 ^ 48), tg, 0]

/-- The stream table's entry of an engine's commands of one core (14 R379); of several that run, the one that has faulted is the head. -/
def engineEntry (q : List Cmd) : List W64 :=
  let q := match q.find? (fun c => c.fault.isSome) with | some c => c :: q.filter (fun x => x.id != c.id) | none => q
  match q with
  | [] => [0, 0, 0, 0]
  | c :: t =>
    let st := match c.fault with | some _ => 3 | none => if c.susp % 2 = 1 then 2 else if c.started then 1 else 0
    [BitVec.ofNat 64 (min 15 t.length * 2 ^ 60 + c.prog % 2 ^ 48),
     BitVec.ofNat 64 (st * 2 ^ 62 + c.fault.getD 0 * 2 ^ 48 + bits c.fmt 15 0 * 2 ^ 32 + bits c.ctl 63 32), 0, c.ctl]

/-- The contexts that share no context's streams: whether a stream of a core belongs to a context (14 R379). -/
def State.streamOf (s : State) (c core k : Nat) : List W64 :=
  if k < 6 then
    let a := s.ag core k
    if a.ctx = c ∧ a.item.isSome then agentEntry a else [0, 0, 0, 0]
  else if k < 14 then engineEntry ((s.eq core k ++ (if k = 8 then s.eq core 16 else [])).filter (fun x => x.ctx == c))
  else [0, 0, 0, 0]

/-- Whether a captured unit is a vector instruction, whose predicate differs by lane (14 R380). -/
def Cap.isVector (c : Cap) : Bool :=
  let mj := c.iw.major.toNat
  if c.iw.w64 then 0x40 ≤ mj && mj ≤ 0x65 else 0x20 ≤ mj && mj ≤ 0x24

/-- A capture entry's eight words (14 R380), its vector operands and lane-varying predicate written into blocks of the context's
spill region; an operand of a faulting unit for which no block is free is recorded as not read, its predicate as a block that no region has, and
re-execution reads the register (log 38). -/
def State.captureWords (s : State) (c : Nat) (cap : Cap) : State × List W64 :=
  let put (x : State × List (Nat × W64)) (o : CapOp) : State × List (Nat × W64) :=
    let (s, l) := x
    match o with
    | .unread => (s, l ++ [(0, 0)])
    | .scalar v => (s, l ++ [(1, v)])
    | .vector v =>
      match s.freeBlock c with
      | none => (s, l ++ [(0, 0)])
      | some b =>
        match s.spillWrite c (s.blockVa c b) v.bytes with
        | (s, .ok _) => (s.takeBlock c b, l ++ [(2, BitVec.ofNat 64 b)])
        | (s, .error _) => (s, l ++ [(0, 0)])
  let (s, ops) := cap.ops.foldl put (s, [])
  let (s, pk, pv, pblk) : State × Nat × Nat × W64 :=
    match cap.pred with
    | none => (s, 0, 0, 0)
    | some l =>
      if !cap.isVector then (s, 1, b2n (l.getLsbD 0), 0)
      else match s.freeBlock c with
        | none => (s, 2, 0, 0xFFFF)
        | some b =>
          match s.spillWrite c (s.blockVa c b) (toBytes 128 l.toNat) with
          | (s, .ok _) => (s.takeBlock c b, 2, 0, BitVec.ofNat 64 b)
          | (s, .error _) => (s, 2, 0, 0xFFFF)
  let ok (k : Nat) : Nat := (ops.getD k (0, 0)).1
  let iw := cap.iw.pack
  let flags := b2n cap.v * 2 ^ 31 + ok 0 * 2 ^ 29 + ok 1 * 2 ^ 27 + ok 2 * 2 ^ 25 + ok 3 * 2 ^ 23 + pk * 2 ^ 21 + pv * 2 ^ 20
  (s, [BitVec.ofNat 64 iw.toNat, BitVec.ofNat 64 (iw.toNat / 2 ^ 64 + flags * 2 ^ 32), setBits cap.uaddr 63 52 0,
       (ops.getD 0 (0, 0)).2, (ops.getD 1 (0, 0)).2, (ops.getD 2 (0, 0)).2, (ops.getD 3 (0, 0)).2, pblk])

/-- An empty capture entry. -/
def noCapture : List W64 := [0, 0, 0, 0, 0, 0, 0, 0]

/-- Absolute slot number (07 R177). -/
def State.slot (s : State) : Nat := s.slotNo

/-- Header word 0 of a record without SEQ and RDEPTH, which its receiver sets (14 R378). -/
def hdr0 (ctx cause : Nat) (fatal : Bool) (stream fdepth nest : Nat) (frz xv : Bool) (nrep : Nat) : W64 :=
  BitVec.ofNat 64 (nrep * 2 ^ 40 + b2n xv * 2 ^ 39 + b2n frz * 2 ^ 38 + nest * 2 ^ 36 + fdepth * 2 ^ 34 + stream * 2 ^ 28
    + b2n fatal * 2 ^ 24 + cause * 2 ^ 16 + ctx)

/-- The 256 words of a record (14 R377, R378). -/
def State.recordWords (s : State) (ctx core stream : Nat) (t : TrapInfo) (frz : Bool) (fcap : List W64) (reps : List (List W64)) : List W64 :=
  let h0 := hdr0 ctx t.cause.code t.cause.fatal stream (s.ctx ctx).depth 0 frz t.xaddr.isSome reps.length
  [h0, t.addr, t.xaddr.getD 0, t.cword, t.aux0, t.aux1, 0, BitVec.ofNat 64 (core * 2 ^ 57 + s.slot % 2 ^ 48)]
    ++ fcap ++ (List.range 16).flatMap (s.streamOf ctx core) ++ (reps ++ List.replicate (8 - reps.length) noCapture).flatten
    ++ List.replicate 112 0

/-- Whether a context holds a thread slot (14 R383). -/
def State.holdsThread (s : State) (c : Nat) : Bool := [8, 9, 10, 11].any (fun k => s.cw c k != 0)

/-- REFLECT bit of a cause (14 R381). -/
def TrapSt.reflects (t : TrapSt) (cause : Nat) : Bool := bit t.mode (32 + cause)

/-- Whether a candidate passes a record on (14 R383, case 3; R382, failed write). -/
def State.passesOn (s : State) (c cause : Nat) : Bool :=
  let t := (s.ctx c).trap
  t.reflects cause || !bit t.tvec 0 || bits t.tframe 51 11 == 0 || t.noArea || !s.holdsThread c

/-- Virtual address of an entry of a context's trap area (14 R382). -/
def State.entryVa (s : State) (c i : Nat) : W64 := BitVec.ofNat 64 (bits (s.ctx c).trap.tframe 51 11 * 2048 + 2048 * i)

/-- General entries of a context's trap area (14 R381, R382). -/
def State.generals (s : State) (c : Nat) : Nat := 2 ^ bits (s.ctx c).trap.mode 4 1

/-- The first n free entries among a list of entries (14 R382): CAUSE reads 0. A read that fails in translation answers an error. -/
def State.findEntries (s : State) (c : Nat) : Nat → List Nat → State × Except Unit (List Nat)
  | 0, _ => (s, .ok [])
  | _ + 1, [] => (s, .ok [])
  | n + 1, i :: t =>
    match s.access c .read true (s.entryVa c i) 8 with
    | (s, .error _) => (s, .error ())
    | (s, .ok ps) =>
      let u := s.l2Pieces ps false
      if ofBytes (((s.load ps).drop 2).take 1) = 0 then (match u.findEntries c n t with | (s, .ok l) => (s, .ok (i :: l)) | r => r)
      else u.findEntries c (n + 1) t

/-- The entries a record may take, in order (14 R382). -/
def State.entryOrder (s : State) (c : Nat) (fatal : Bool) : List Nat :=
  span 8 (s.generals c) ++ (if fatal then List.range 8 else [])

/-- How a write into a trap area ended: done, by the entries taken. -/
inductive Placed where
  | done (l : List Nat)
  | full
  | failed
  deriving DecidableEq, Repr

/-- Header word 0 of a record as its receiver writes it (14 R378): SEQ and RDEPTH set. -/
def stamped (w0 : W64) (seq depth : Nat) : W64 := setBits (setBits w0 63 48 seq) 33 32 depth

/-- Records written into the lowest free entries of a receiver's area (14 R382), one entry each, or none of them: SEQ counts on from the
first's, LINK of each names the next one's entry (R384), RDEPTH is the receiver's. -/
def State.placeSet (s : State) (c seq : Nat) (order : List Nat) (ws : List (List W64)) : State × Placed :=
  match s.findEntries c ws.length order with
  | (s, .error _) => (s, .failed)
  | (s, .ok l) =>
    if l.length < ws.length then (s, .full)
    else
      let next (k : Nat) (w6 : W64) : W64 := match l[k + 1]? with | some j => BitVec.ofNat 64 j | none => w6
      let image (k : Nat) (w : List W64) : List W64 :=
        stamped (w.getD 0 0) (seq + k) (s.ctx c).depth :: (w.drop 1).take 5 ++ next k (w.getD 6 0) :: w.drop 7
      match s.spillAll c ((ws.zip l).zipIdx.map (fun e => (s.entryVa c e.1.2, bytes64 (image e.2 e.1.1)))) with
      | (s, .error _) => (s, .failed)
      | (s, .ok _) => (s, .done l)

/-- A record written into the lowest free entry of a receiver's area (14 R382). -/
def State.placeRecord (s : State) (c seq : Nat) (fatal : Bool) (order : List Nat) (words : List W64) : State × Placed :=
  s.placeSet c seq order [(if fatal then setBits (words.getD 0 0) 24 24 1 else words.getD 0 0) :: words.drop 1]

/-- The state the trap machinery of a context is changed by. -/
def State.updTrap (s : State) (c : Nat) (f : TrapSt → TrapSt) : State := s.updCtx c (fun x => { x with trap := f x.trap })

/-- Records that a context has received (14 R378, R382): SEQ counts them, and the first waits for its handler, with its address as
TFRAME stands. -/
def State.received (s : State) (c n i : Nat) (fatal : Bool) (seq cause die : Nat) : State :=
  let a := s.entryVa c i
  s.updTrap c (fun t => { t with
    seq := if t.seq = seq then (seq + n) % 65536 else t.seq, wrote := t.wrote ++ [⟨i, a, fatal, seq, cause, die⟩] })

/-- A context stopped in place: its agents stop, its state reads stopped (14 R382, R387). -/
def State.stopCtx (s : State) (c : Nat) : State :=
  let s := s.updCtx c (fun x => { x with stt := if x.stt = 4 then 4 else 3 })
  { s with agents := s.agents.map (fun e =>
      if e.2.ctx == c && e.2.run == .running then (e.1, { e.2 with run := .stopped }) else e) }

/-- A record delivered to the first candidate of a chain that takes it (14 R382, R383). `always` marks the root's turn: a root
that passes a record on reports through HSTAT. -/
def State.deliver (s : State) (r : Rec) : List Nat → State
  | [] => s
  | c :: up =>
    let pass (s : State) : State := match up with | [] => s.hstatPush 3 c 0 | _ => s.deliver r up
    if s.passesOn c r.cause then pass s
    else
      let seq := (s.ctx c).trap.seq
      match s.placeRecord c seq r.fatal (s.entryOrder c r.fatal) r.words with
      | (s, .done l) => s.received c 1 (l.headD 0) r.fatal seq r.cause (dieOf r.core)
      | (s, .full) =>
        if r.fatal then (s.stopCtx c).hstatPush 1 c 0
        else
          let r := { r with words := setBits (r.words.getD 0 0) 63 48 seq :: r.words.drop 1 }
          s.updTrap c (fun t => { t with seq := (seq + 1) % 65536, pending := t.pending ++ [r] })
      | (s, .failed) => pass (s.updTrap c (fun t => { t with noArea := true }))

/-- The candidates of a record (14 R383): from the context or depth that case 1 or 2 names, up to the root. -/
def State.candidates (s : State) (ctx : Nat) (cause : Cause) (cword : W64) (frz : Bool) : List Nat :=
  let ch := s.chain ctx
  let up := match ch with | _ :: t => if t.isEmpty then ch else t | [] => []
  match cause with
  | .watchdog | .forced => up
  | .brk => if cword = 1 ∨ frz then up else ch
  | .xlate =>
    let d := bits cword 5 4
    if d < (s.ctx ctx).depth then ch.filter (fun c => (s.ctx c).depth ≤ d) else if frz then up else ch
  | _ => if frz then up else ch

/-- Which context a walker's poisoned entry is reported to, by the depth of its tree (14 R394). -/
def State.chainFrom (s : State) (ctx depth : Nat) : List Nat := (s.chain ctx).filter (fun c => (s.ctx c).depth ≤ depth)

/-- A set of records delivered as a fatal delivery to the first candidate of a chain that takes it (14 R382-R384); word 0 of the last record
as it was written, if it was. `cause` is that of the last record, the handler's own fault. -/
def State.deliverSet (s : State) (die cause : Nat) (ws : List (List W64)) : List Nat → State × Option W64
  | [] => (s, none)
  | p :: up =>
    let pass (s : State) : State × Option W64 := match up with | [] => (s.hstatPush 3 p 0, none) | _ => s.deliverSet die cause ws up
    if s.passesOn p cause then pass s
    else
      let seq := (s.ctx p).trap.seq
      match s.placeSet p seq (s.entryOrder p true) ws with
      | (s, .done l) =>
        (s.received p ws.length (l.headD 0) true seq (bits ((ws.headD []).getD 0 0) 23 16) die,
          some (stamped ((ws.getLastD []).getD 0 0) (seq + ws.length - 1) (s.ctx p).depth))
      | (s, .full) => ((s.stopCtx p).hstatPush 1 p 0, none)
      | (s, .failed) => pass (s.updTrap p (fun t => { t with noArea := true }))

/-- The record at an address of a context's space, as it now stands in memory (14 R384, R387). -/
def State.heldWords (s : State) (c : Nat) (a : W64) : State × List W64 :=
  match s.access c .read true a 2048 with
  | (s, .ok ps) => (s.l2Pieces ps false, words64 256 (s.load ps))
  | (s, .error _) => (s, List.replicate 256 0)

/-- Address of the record that LINK of a held record names (14 R378): in the same area. -/
def Held.linkVa (h : Held) (link : Nat) : W64 := h.addr - BitVec.ofNat 64 (2048 * h.entry) + BitVec.ofNat 64 (2048 * link)

/-- A handler thread that faults before TRAP.ACK (14 R384): the held record with the new one forms a double-fault pair for the nearest ancestor
that takes it, and TCAUSEB and TADDRB are loaded from the new one; a handler that already holds a pair makes a triple set for the root. -/
def State.nestedFault (s : State) (c : Nat) (h : Held) (r : Rec) : State :=
  let (s, hw) := s.heldWords c h.addr
  let w0 := hw.getD 0 0
  if bits w0 37 36 = 1 then
    -- triple: the handler's record and the pair, in the root's reserved entries where the root has an area
    let (s, hw2) := s.heldWords c (h.linkVa (bits (hw.getD 6 0) 10 0))
    let first := setBits (setBits (r.words.getD 0 0) 37 36 2) 24 24 1 :: r.words.drop 1
    let t := (s.ctx rootCtx).trap
    let (s, p) := if bits t.tframe 51 11 = 0 ∨ t.noArea then (s, Placed.full) else s.placeSet rootCtx t.seq (List.range 8) [first, hw, hw2]
    let s := match p with
      | .done _ => s.updTrap rootCtx (fun t => { t with seq := (t.seq + 3) % 65536 })
      | .full => s
      | .failed => s.updTrap rootCtx (fun t => { t with noArea := true })
    (s.stopCtx c).hstatPush 2 c (match p with | .done l => l.headD 0 | _ => 0)
  else
    let first := setBits (setBits w0 37 36 1) 24 24 1 :: hw.drop 1
    let (s, w) := match (s.chain c).drop 1 with
      | [] => (s.hstatPush 3 rootCtx 0, none)
      | up => s.deliverSet (dieOf r.core) r.cause [first, r.words] up
    s.updTrap c (fun t => { t with hstate := .double, tcauseb := w.getD (r.words.getD 0 0), taddrb := r.words.getD 1 0 })

/-- A record made: to a nested set when the faulting thread is an unacknowledged handler, else along the candidates (14 R383, R384). -/
def State.emit (s : State) (r : Rec) (cands : List Nat) (st : Nat) : State :=
  let a := s.ag r.core st
  match a.held with
  | some h =>
    if st < 4 ∧ !h.acked then s.nestedFault r.ctx h r else s.deliver r cands
  | none => s.deliver r cands

/-- An agent told to stop at a unit boundary (08 R238): a waiting instruction has not completed and executes again after resumption (11 R327);
a park that waits in place goes on waiting. -/
def Agent.halt (a : Agent) : Agent :=
  if a.run ≠ .running then a
  else match a.wait with
    | .none => { a with run := .stopped }
    | .suspend _ _ => { a with run := .stopped }
    | _ => { a with run := .stopped, wait := .none, waitAt := none, wunit := none }

/-- Whether a core's streams of a context stand frozen behind the fault of one of them (14 R386). -/
def State.frozen (s : State) (x core : Nat) : Bool := (SMap.find? (s.ctx x).froze core).isSome

/-- Streams of a core that a context runs stop with a freeze (14 R386), where stream k of the core faults: agents at a unit boundary, engines at
their next command boundary. The first fault's record is the one whose return lets them go on. -/
def State.freezeCore (s : State) (c core k : Nat) : State :=
  let s := if s.frozen c core then s else s.updCtx c (fun x => { x with froze := SMap.put x.froze core k })
  let s := (List.range 6).foldl (fun s k =>
    s.updAg core k (fun a => if a.ctx == c then a.halt else a)) s
  s.updCore core (fun x => { x with eq := x.eq.map (fun e => (e.1, e.2.map (fun q => if q.ctx == c then { q with susp := if q.started then 2 else 3 } else q))) })

/-- The units captured behind a fault: younger accesses still pending (08 R239). -/
def State.replayWords (s : State) (c : Nat) (l : List Cap) : State × List (List W64) :=
  l.foldl (fun (x : State × List (List W64)) cap => let (s, w) := x.1.captureWords c cap; (s, x.2 ++ [w])) (s, [])

/-- The pieces of the next part of an access that is performed at once, and the others (03 R80): of a vector access those in one line, of a
scalar one the first. -/
def Pend.part (p : Pend) : List Piece × List Piece :=
  match p.rest with
  | [] => ([], [])
  | q :: t => if p.size = 0 then p.rest.partition (fun x => x.sp == q.sp && x.a / 64 == q.a / 64) else ([q], t)

/-- The next part of a store that has left its agent is performed (03 R80, 04 R106, 11 R309): its bytes, with the publications of a strong
one; ARRIVE.SET empties the word's hidden states (11 R324). `shadow`: engines do not see it yet (04 R104). -/
def State.performPart (s : State) (core st i : Nat) (shadow : Bool) : State :=
  let a := s.ag core st
  match a.pend[i]? with
  | none => s
  | some p =>
    let put (s : State) (l : List Pend) : State := s.updAg core st (fun a => { a with pend := a.pend.take i ++ l ++ a.pend.drop (i + 1) })
    match p.rest with
    | [] => put s []
    | q :: _ =>
      let (now, t) := p.part
      let old := now.map (fun x => (x, s.rdBytes x.sp x.a x.n))
      let s := (s.storeAs a.ctx now p.data).l2Ps a.ctx core st now true
      let s := if p.scope.isSome then s.setPubs q.sp q.a p.pubs else s
      let s := if p.kind = .arrive then { s with mem := { s.mem with arr := SMap.del s.mem.arr q.a } } else s
      put s ((if t.isEmpty then [] else [{ p with rest := t }])
        ++ (if shadow && p.scope.isNone then old.map (fun x => { p with stage := 2, pieces := [x.1], rest := [], old := x.2 }) else []))

/-- Every part of a store that has left its agent is performed. -/
def State.performStore (s : State) (core st i : Nat) (shadow : Bool) : State :=
  match (s.ag core st).pend[i]? with
  | none => s
  | some p =>
    if p.rest.isEmpty then s.performPart core st i shadow
    else p.rest.foldl (fun (s : State) _ =>
      if (s.ag core st).pend[i]?.any (fun q => q.id == p.id && q.stage == 1 && !q.rest.isEmpty) then s.performPart core st i shadow else s) s

/-- The stores of an agent that have left it and that a test picks are performed, in program order. -/
def State.performLeft (pick : Pend → Bool) : Nat → State → Nat → Nat → State
  | 0, s, _, _ => s
  | n + 1, s, core, st =>
    match (s.ag core st).pend.findIdx? (fun p => p.isStore && p.stage == 1 && pick p) with
    | none => s
    | some i => (s.performStore core st i true).performLeft pick n core st

/-- A read of checked lines waits for the data of the stores that have left their agents and not been performed (04 R106): those of every
other agent are performed first, and for an engine (`self` none) they reach their banks and slices. -/
def State.settleLines (s : State) (self : Option Nat) (ps : List Piece) : State :=
  let chk := ps.filter (·.chk)
  if chk.isEmpty then s
  else
    let meets (p : Pend) : Bool := p.isStore && p.pieces.any (fun q => chk.any (fun x => x.sp == q.sp && x.a / 64 == q.a / 64))
    s.agents.foldl (fun (s : State) (e : Nat × Agent) =>
      if some e.1 = self ∨ !e.2.pend.any meets then s
      else
        let s := s.performLeft meets e.2.pend.length (e.1 / 6) (e.1 % 6)
        if self.isSome then s else s.updAg (e.1 / 6) (e.1 % 6) (fun a => { a with pend := a.pend.filter (fun p => !(p.stage == 2 && meets p)) })) s

/-- Taking an exception on an agent (14 R385, R386, R382-R384): the stores that have left it finish (08 R239), the stream stops with its cause,
the record is made with the faulting unit's capture and the younger units captured behind it, and delivery begins. `younger` are those units. -/
def State.trapOn (s : State) (core st : Nat) (t : TrapInfo) (fcap : Option Cap) (younger : List Cap) (next : W64) : State :=
  let s := s.performLeft (fun _ => true) (s.ag core st).pend.length core st
  let a := s.ag core st
  let c := a.ctx
  let frz := bit (s.ctx c).trap.mode 0
  let s := s.setAg core st { a with run := .faulted t.cause.code, pc := t.pos.getD next, wait := .none, pend := a.pend.filter (·.stage != 0), replay := [], seat := agKey core st }
  let s := if frz then s.freezeCore c core st else s
  let (s, fw) := match fcap with | some x => s.captureWords c { x with v := t.fv } | none => (s, noCapture)
  let behind := a.pend.filterMap (fun p => if p.stage == 0 then some p.cap else none)
  let (s, reps) := s.replayWords c ((behind ++ younger).take 8)
  let cands := s.candidates c t.cause t.cword frz
  let cands := if t.cause = .umem ∧ t.cword = 4 then s.chainFrom c (bits t.aux1 5 4) else cands
  let t := if t.cause = .umem then { t with aux1 := 0 } else t
  s.emit ⟨t.cause.code, t.cause.fatal, c, core, st, 0, s.recordWords c core st t frz fw reps⟩ cands st

/-- The operand values the unit being issued read, as a capture entry holds them (14 R380): scalars and vectors by field kind, and for a scalar
unit lane 0 of its governing predicate. -/
def State.captureOf (s : State) : Cap :=
  let iw := s.cu.iw
  let u := iw.u
  let a := s.me
  let one (k : Fk) (f : Fld) (i : Nat) : CapOp :=
    match s.capOp i with
    | some o => o
    | none =>
      match k with
      | .sS | .sDS | .pair | .desc => .scalar (a.sreg f.toNat)
      | .vS => .vector (a.vreg f.toNat)
      | .vImm => if f.toNat = 63 then .unread else .vector (a.vreg f.toNat)
      | _ => .unread
  let ops := match rowOf iw.w64 iw.major.toNat u.mi.toNat with
    | some r => [one r.a u.a 0, one r.b u.b 1, one r.c u.c 2, one r.e u.e 3]
    | none => [.unread, .unread, .unread, .unread]
  let cap : Cap := ⟨iw, true, s.cu.pc, ops, none⟩
  let pred := match s.cu.cap with
    | some c => c.pred
    | none =>
      if !cap.isVector then some (if (a.preg u.p.toNat).getLsbD 0 then BitVec.allOnes 1024 else 0)
      else if u.p = 0 then none else some (a.preg u.p.toNat)
  { cap with pred := pred }

/-- Where the agent stands after the faulting unit (14 R379, 09 R266): the next unit to issue, with a pending transfer whose
remaining slots no longer count this one; a transfer with no slot left takes place at resumption. -/
def State.pastFault (s : State) : State :=
  if s.cu.cap.isSome then s
  else match s.cu.inLoop, s.me.xfer with
    | false, some x => s.updMe (fun a => { a with xfer := some { x with left := x.left - 1 }, pc := s.nextPc })
    | _, _ => s.advance

/-- A trap of the unit being issued (14 R385): not performed and captured, abandoned, or completed, as `t` says; with `pos` the
agent stands at that address instead and nothing has advanced. -/
def State.trap (s : State) (t : TrapInfo) : State :=
  let cap := s.captureOf
  let s := if t.pos.isSome then s else s.pastFault
  let rest := s.me.replay
  s.trapOn s.cu.core s.cu.st t (some cap) rest s.me.pc

/-- A trap of the unit being issued, not performed, reported at its own address (14 R375). -/
def State.raise (s : State) (c : Cause) (cword aux0 aux1 : W64) : State :=
  s.trap ⟨c, cword, aux0, aux1, s.cu.pc, none, !c.fatal, none⟩

/-- A translation fault of the unit being issued (01 R26-R28), or the walker's read of a poisoned entry (14 R394). -/
def State.raiseX (s : State) (acc : Acc) (f : XFail) (va : W64) : State :=
  if f.poison then s.raise .umem 4 f.second (BitVec.ofNat 64 (f.depth * 16))
  else s.raise .xlate (faultWord acc f) va f.second

/-- A window fault of the unit being issued: SPWIN or ACCWIN at the context's own depth (01 R29, R31). -/
def State.raiseWin (s : State) (acc : Acc) (reason : Nat) (o : W64) : State :=
  s.raise .xlate (faultWord acc ⟨(s.ctx s.myCtx).depth, reason, 0, false, o, false⟩) o o

/-- The simple traps of the unit being issued. -/
def State.illegal (s : State) : State := s.raise .illegal 0 0 0
def State.priv (s : State) : State := s.raise .priv 0 0 0
def State.wrongAgent (s : State) : State := s.raise .wrongAgent 0 0 0
def State.spillQ (s : State) : State := s.raise .spillQ 0 0 0

end Sys2Proof.Machine
end

