-- ==== Sys2Proof/Machine/Flags.lean ====
section
/-! DEFINITION. Integer results and their flags (05 R120, R124, 09 R249-R250): wrapping, saturation, rounded division, and
SLI-independent comparison helpers. -/

namespace Sys2Proof.Machine

/-- The flags of VSTAT and VCSTAT; their other bits are reserved and read zero (05 R147). -/
def flagMask : W64 := 0xFE1F

/-- The exact signed result x in w bits: wrapped, or clamped under the saturation modifier with VSTAT.SAT (05 R120). -/
def narrow (w : Nat) (sat : Bool) (x : Int) : BitVec w × W64 :=
  if !sat then (BitVec.ofInt w x, 0)
  else if x < -(2 ^ (w - 1) : Int) then (BitVec.ofInt w (-(2 ^ (w - 1) : Int)), fSAT)
  else if (2 ^ (w - 1) : Int) - 1 < x then (BitVec.ofInt w ((2 ^ (w - 1) : Int) - 1), fSAT)
  else (BitVec.ofInt w x, 0)

/-- x shifted left by k in w bits; under the saturation modifier clamped to the bound of x's sign when shifting back does not
restore x (09 R249, 10 R284). -/
def shlSat (w : Nat) (sat : Bool) (x : BitVec w) (k : Nat) : BitVec w × W64 :=
  let r := x <<< k
  if sat ∧ r.sshiftRight k ≠ x then
    (if x.msb then BitVec.ofInt w (-(2 ^ (w - 1) : Int)) else BitVec.ofInt w ((2 ^ (w - 1) : Int) - 1), fSAT)
  else (r, 0)

/-- n / d rounded to an integer by a rounding code (05 R124), for d > 0. -/
def roundDivPos (rnd : Nat) (n d : Int) : Int :=
  let q := n / d
  let r := n % d
  if r = 0 then q
  else match rnd with
    | 0 => if 2 * r < d then q else if d < 2 * r then q + 1 else if q % 2 = 0 then q else q + 1
    | 1 => if n < 0 then q + 1 else q
    | 2 => q + 1
    | 3 => q
    | _ => if 2 * r < d then q else if d < 2 * r then q + 1 else if n < 0 then q else q + 1

/-- n / d rounded to an integer by a rounding code, for d ≠ 0. -/
def roundDiv (rnd : Nat) (n d : Int) : Int := if d < 0 then roundDivPos rnd (-n) (-d) else roundDivPos rnd n d

/-- DIV and REM of 09 R250: the result and its flags. -/
def divRem (isDiv sat : Bool) (rnd : Nat) (b c : W64) : W64 × W64 :=
  if c = 0 then (BitVec.allOnes 64, fDZI)
  else if b = BitVec.intMin 64 ∧ c = BitVec.allOnes 64 then
    if !isDiv then (0, 0) else if sat then (BitVec.intMax 64, fSAT) else (BitVec.intMin 64, 0)
  else
    let q := roundDiv rnd b.toInt c.toInt
    (if isDiv then BitVec.ofInt 64 q else BitVec.ofInt 64 (b.toInt - q * c.toInt), 0)

/-- The scalar conditions of CMP (08 R224). -/
def condS (k : Nat) (x y : W64) : Bool :=
  match k with
  | 0 => x == y
  | 1 => x != y
  | 2 => x.slt y
  | 3 => !x.slt y
  | 4 => x.ult y
  | _ => !x.ult y

/-- Every lane of a predicate alike. -/
def uniform (b : Bool) : Lanes := if b then BitVec.allOnes 1024 else 0

/-- Number of leading zero bits (09 R251). -/
def clz64 (x : W64) : Nat := if x = 0 then 64 else 63 - Nat.log2 x.toNat

end Sys2Proof.Machine
end

