-- ==== Sys2Proof/Machine/Operands.lean ====
section
/-! DEFINITION. Operand forms: governing predicates, immediates (08 R240, R241), effective addresses, tile descriptors
(02 R58-R60), arrival words (04 R110). -/

namespace Sys2Proof.Machine

/-- A unit that takes effect only when lane 0 of its governing predicate is 1 (09 R246, 11 R308, 12 R328, 13 R350). -/
def governed (u : U) (s : State) (f : State → Out) : Out := if s.lane0 u then f s else .next (s.fin u)

/-- A scalar result written with bound L, and the unit completes. -/
def scalarDone (u : U) (s : State) (v : W64) (l : Nat) : Out := .next ((s.wrS u.a.toNat v l).fin u)

/-- A predicate result written with bound L, and the unit completes. -/
def predDone (u : U) (s : State) (v : Lanes) (l : Nat) : Out := .next ((s.wrP u.a.toNat v l).fin u)

/-- A scalar result with VSTAT flags (05 R147). -/
def flagDone (u : U) (s : State) (r : W64 × W64) (l : Nat) : Out := .next (((s.orVstat r.2 l).wrS u.a.toNat r.1 l).fin u)

/-- The immediate of variant I or form Y, sign-extended to 64 bits (08 R240). -/
def immS (u : U) : W64 := u.imm.signExtend 64
/-- The IMM16 of form X, sign-extended to 64 bits. -/
def imm16S (u : U) : W64 := (u.imm.truncate 16).signExtend 64

/-- A tile descriptor's window offset of plane 0 (02 R58). -/
def tileBase (w0 : W64) : Nat := bits w0 24 6 * 64
/-- TPITCH of a tile descriptor (02 R58). -/
def tileTp (w1 : W64) : Nat := bits w1 39 16
/-- PITCH of a tile descriptor (02 R58). -/
def tilePitch (w1 : W64) : Nat := bits w1 15 0
/-- ROT of a tile descriptor (02 R58). -/
def tileRot (w1 : W64) : Nat := bits w1 43 40

/-- off of 02 R59: window offset of byte x of row i of plane k. -/
def tileOff (w0 w1 : W64) (k i x : Nat) : Nat :=
  tileBase w0 + k * tileTp w1 + i * tilePitch w1 + (x + 64 * (i * tileRot w1 % 64)) % tilePitch w1

/-- The descriptor checks of 02 R60, with the window's length, row count, row width and plane count. -/
def tileOk (n : Nat) (w0 w1 : W64) (winLen nr w np : Nat) : Bool :=
  bits w0 63 25 == 0 && bits w0 5 0 == 0 && bits w1 63 44 == 0
    && n % 2 == 0 && 2 ≤ n && tilePitch w1 != 0 && tilePitch w1 % 64 == 0 && tileTp w1 % 64 == 0 && w ≤ tilePitch w1
    && tileBase w0 + (np - 1) * tileTp w1 + nr * tilePitch w1 ≤ winLen

/-- Length of a context's window in a cluster. -/
def State.winLen (s : State) (c clu : Nat) : Nat := (s.win c clu).lim - (s.win c clu).base

/-- An arrival word named by a window offset in a cluster (04 R110): its scratchpad address, or nothing where the offset is not
aligned or not in the window. -/
def State.arrAddr (s : State) (c clu : Nat) (o : W64) : Option Nat :=
  let w := s.win c clu
  if o.toNat % 8 = 0 ∧ w.holds o 8 then some (spKey clu (w.base + o.toNat)) else none

/-- Cluster of the issuing agent. -/
def State.myClu (s : State) : Nat := cluOf s.cu.core

/-- Size in bytes of an element type's memory element (10 R300). -/
def elemSize (ty : Nat) : Nat := match ty with | 0 => 4 | 3 => 4 | 5 => 4 | 7 => 1 | _ => 2
/-- Width in bits of an element type. -/
def elemBits (ty : Nat) : Nat := 8 * elemSize ty

/-- An element's low bits placed in a lane (05 R119): sign-extended for i8 and i16, else zero-extended. -/
def fillLane (ty : Nat) (x : Nat) : W32 :=
  match ty with
  | 6 => (BitVec.ofNat 16 x).signExtend 32
  | 7 => (BitVec.ofNat 8 x).signExtend 32
  | _ => BitVec.ofNat 32 (x % 2 ^ elemBits ty)

/-- The element a lane holds: its low bits, the upper ignored (05 R119). -/
def elemOf (ty : Nat) (l : W32) : Nat := l.toNat % 2 ^ elemBits ty

/-- SLI16 to SLI32 (05 R133): exact, FRAC widened with zeros below; a NaN becomes the canonical NaN, and the REC = 1 encoding of ±1,
which is never produced (05 R127), becomes the REC = 0 one. -/
def sliWiden (h : Nat) : Nat :=
  let lvl := h / 2048 % 8
  let frac := h % 2048
  let rec_ := h / 16384 % 2
  let sgn := h / 32768 % 2
  if lvl = 0 ∧ (rec_ = 1 ∨ frac ≠ 0) then 0x40000000
  else if rec_ = 1 ∧ lvl = 1 ∧ frac = 0 then sgn * 2 ^ 31 + 0x08000000
  else h / 2048 * 2 ^ 27 + frac * 65536

/-- The immediate that a vector form-X instruction broadcasts (08 R241), as lane k's value. -/
def immLane (ty : Nat) (imm : W32) (k : Nat) : W32 :=
  let h := imm.toNat % 65536
  match ty with
  | 0 => BitVec.ofNat 32 (h * 65536)
  | 3 => BitVec.ofNat 32 (sliWiden h)
  | 5 => (BitVec.ofNat 16 h).signExtend 32
  | 6 => (BitVec.ofNat 16 h).signExtend 32
  | 7 => if k % 2 = 0 then (BitVec.ofNat 8 h).signExtend 32 else (BitVec.ofNat 8 (h / 256)).signExtend 32
  | _ => BitVec.ofNat 32 h

/-- IMM16 of an atomic (11 R315). -/
def amoScope (u : U) : Nat := bits u.imm 15 13
def amoAcq (u : U) : Bool := bit u.imm 11
def amoRel (u : U) : Bool := bit u.imm 12
def amoSize (u : U) : Nat := if bit u.imm 10 then 8 else 4
def amoSp (u : U) : Bool := bit u.imm 9
def amoUns (u : U) : Bool := bit u.imm 8

end Sys2Proof.Machine
end

