-- ==== Sys2Proof/Machine/Ieee.lean ====
section
/-! DEFINITION. The IEEE formats and BF16 (05 R121-R125): exact values as a sign, an integer and a power of two, and one
rounding of an exact or truncated value into a format. -/

namespace Sys2Proof.Machine

/-- A binary format: exponent bits and fraction bits. -/
structure Fmt where
  eb : Nat
  mb : Nat
  deriving DecidableEq, Repr

/-- The formats (05 R121). -/
def Fmt.f32 : Fmt := ⟨8, 23⟩
def Fmt.f16 : Fmt := ⟨5, 10⟩
def Fmt.bf16 : Fmt := ⟨8, 7⟩
def Fmt.f64 : Fmt := ⟨11, 52⟩

/-- The format of a type code F (08 R226). -/
def fmtOf (ty : Nat) : Fmt := match ty with | 1 => Fmt.f16 | 2 => Fmt.bf16 | _ => Fmt.f32

/-- Exponent bias. -/
def Fmt.bias (f : Fmt) : Nat := 2 ^ (f.eb - 1) - 1
/-- Exponent of the least significant bit of a subnormal. -/
def Fmt.qmin (f : Fmt) : Int := 1 - (f.bias : Int) - f.mb
/-- The sign bit. -/
def Fmt.sign (f : Fmt) (neg : Bool) : Nat := if neg then 2 ^ (f.eb + f.mb) else 0
/-- Infinity. -/
def Fmt.inf (f : Fmt) (neg : Bool) : Nat := f.sign neg + (2 ^ f.eb - 1) * 2 ^ f.mb
/-- The canonical quiet NaN (05 R123). -/
def Fmt.nan (f : Fmt) : Nat := f.inf false + 2 ^ (f.mb - 1)
/-- The largest finite value of a sign. -/
def Fmt.big (f : Fmt) (neg : Bool) : Nat := f.inf neg - 1

/-- What an encoding denotes: a NaN, signalling or not; an infinity; or ±m·2^e. -/
inductive FVal where
  | nan (sig : Bool)
  | inf (neg : Bool)
  | fin (neg : Bool) (m : Nat) (e : Int)
  deriving DecidableEq, Repr

/-- The value of an encoding (05 R121). -/
def Fmt.dec (f : Fmt) (x : Nat) : FVal :=
  let fr := x % 2 ^ f.mb
  let ex := x / 2 ^ f.mb % 2 ^ f.eb
  let neg := x.testBit (f.eb + f.mb)
  if ex = 2 ^ f.eb - 1 then (if fr = 0 then .inf neg else .nan (!fr.testBit (f.mb - 1)))
  else if ex = 0 then .fin neg fr f.qmin
  else .fin neg (2 ^ f.mb + fr) (f.qmin + (ex - 1 : Nat))

/-- Whether rounding moves a magnitude up: quotient n, remainder r of 2^k, what was cut off below, the rounding code (05 R124). -/
def roundsUp (rnd : Nat) (neg : Bool) (n r k : Nat) (sticky : Bool) : Bool :=
  let half := 2 ^ k
  let two := 2 * r
  let inexact := r != 0 || sticky
  match rnd with
  | 0 => half < two || (two == half && (sticky || n % 2 == 1))
  | 1 => false
  | 2 => inexact && !neg
  | 3 => inexact && neg
  | _ => half ≤ two

/-- A magnitude m·2^e, and what was cut off below m, rounded to a multiple of 2^q: the multiple, and whether it is inexact. -/
def roundAt (rnd : Nat) (neg : Bool) (m : Nat) (e q : Int) (sticky : Bool) : Nat × Bool :=
  if q ≤ e then (m * 2 ^ (e - q).toNat, sticky)
  else
    let k := (q - e).toNat
    let n := m / 2 ^ k
    let r := m % 2 ^ k
    (if roundsUp rnd neg n r k sticky then n + 1 else n, r != 0 || sticky)

/-- The overflow result of a rounding mode (05 R125). -/
def Fmt.overflow (f : Fmt) (rnd : Nat) (sat neg : Bool) : Nat :=
  if sat then f.big neg
  else match rnd with
    | 1 => f.big neg
    | 2 => if neg then f.big neg else f.inf neg
    | 3 => if neg then f.inf neg else f.big neg
    | _ => f.inf neg

/-- ±m·2^e, m > 0, rounded into a format (05 R121-R125). With `sticky`, the value lies strictly between m·2^e and (m+1)·2^e, and m
has at least two bits more than the format's significand. -/
def Fmt.round (f : Fmt) (rnd : Nat) (sat neg : Bool) (m : Nat) (e : Int) (sticky : Bool) : Nat × W64 :=
  let top := e + (Nat.log2 m : Nat)
  let qfree := top - f.mb
  let q := max qfree f.qmin
  let (n, inex) := roundAt rnd neg m e q sticky
  let (n1, _) := roundAt rnd neg m e qfree sticky
  let tiny := top < f.qmin + f.mb ∧ !(top + 1 = f.qmin + f.mb ∧ 2 ^ (f.mb + 1) ≤ n1)
  let k := (q - f.qmin).toNat
  let x := k * 2 ^ f.mb + n
  if f.inf false ≤ x then (f.overflow rnd sat neg, fOF ||| fNX)
  else (f.sign neg + x, if inex then (if tiny then fUF ||| fNX else fNX) else 0)

/-- A zero of a sign. -/
def Fmt.zero (f : Fmt) (neg : Bool) : Nat := f.sign neg

/-- A signed exact value m·2^e rounded into a format; an exact zero has the sign given. -/
def Fmt.roundInt (f : Fmt) (rnd : Nat) (sat zneg : Bool) (m e : Int) : Nat × W64 :=
  if m = 0 then (f.zero zneg, 0) else f.round rnd sat (m < 0) m.natAbs e false

/-- IV for a signalling NaN among operands (05 R123). -/
def sigIV (l : List FVal) : W64 := if l.any (fun v => v == .nan true) then fIV else 0

/-- Whether a value is a NaN. -/
def FVal.isNan : FVal → Bool
  | .nan _ => true | _ => false

/-- The sign of a value. -/
def FVal.neg : FVal → Bool
  | .nan _ => false | .inf n => n | .fin n _ _ => n

/-- A signed integer multiple of 2^q of a finite value, q at most its exponent. -/
def scaled (neg : Bool) (m : Nat) (e q : Int) : Int := (if neg then -1 else 1) * (m * 2 ^ (e - q).toNat : Nat)

/-- The sum of two values, rounded once (05 R122, R123). -/
def Fmt.addV (f : Fmt) (rnd : Nat) (sat : Bool) (x y : FVal) : Nat × W64 :=
  match x, y with
  | .nan a, .nan b => (f.nan, sigIV [.nan a, .nan b])
  | .nan a, _ => (f.nan, sigIV [.nan a])
  | _, .nan b => (f.nan, sigIV [.nan b])
  | .inf a, .inf b => if a = b then (f.inf a, 0) else (f.nan, fIV)
  | .inf a, _ => (f.inf a, 0)
  | _, .inf b => (f.inf b, 0)
  | .fin a m e, .fin b n g =>
    let q := min e g
    f.roundInt rnd sat (if m = 0 ∧ n = 0 ∧ a = b then a else rnd == 3) (scaled a m e q + scaled b n g q) q

/-- A value with the other sign. -/
def FVal.flip : FVal → FVal
  | .nan s => .nan s | .inf n => .inf (!n) | .fin n m e => .fin (!n) m e

/-- The exact product of two values that are no NaN; nothing for ∞ × 0. -/
def FVal.mulV (x y : FVal) : Option FVal :=
  match x, y with
  | .nan s, _ => some (.nan s)
  | _, .nan s => some (.nan s)
  | .inf a, .inf b => some (.inf (a != b))
  | .inf a, .fin b n _ => if n = 0 then none else some (.inf (a != b))
  | .fin a m _, .inf b => if m = 0 then none else some (.inf (a != b))
  | .fin a m e, .fin b n g => some (.fin (a != b) (m * n) (e + g))

/-- The product of two values, rounded once. -/
def Fmt.mulV (f : Fmt) (rnd : Nat) (sat : Bool) (x y : FVal) : Nat × W64 :=
  match x.mulV y with
  | none => (f.nan, fIV)
  | some (.nan _) => (f.nan, sigIV [x, y])
  | some (.inf n) => (f.inf n, 0)
  | some (.fin n m e) => if m = 0 then (f.zero n, 0) else f.round rnd sat n m e false

/-- Fused multiply-add (05 R122, R123): an ∞ × 0 product raises IV whatever the addend holds. -/
def Fmt.fmaV (f : Fmt) (rnd : Nat) (sat : Bool) (x y z : FVal) : Nat × W64 :=
  match x.mulV y with
  | none => (f.nan, fIV)
  | some p =>
    if p.isNan || z.isNan then (f.nan, sigIV [x, y, z]) else f.addV rnd sat p z

/-- VADD, VSUB, VMUL of encodings. -/
def Fmt.add (f : Fmt) (rnd : Nat) (sat : Bool) (x y : Nat) : Nat × W64 := f.addV rnd sat (f.dec x) (f.dec y)
def Fmt.sub (f : Fmt) (rnd : Nat) (sat : Bool) (x y : Nat) : Nat × W64 := f.addV rnd sat (f.dec x) (f.dec y).flip
def Fmt.mul (f : Fmt) (rnd : Nat) (sat : Bool) (x y : Nat) : Nat × W64 := f.mulV rnd sat (f.dec x) (f.dec y)
def Fmt.fma (f : Fmt) (rnd : Nat) (sat : Bool) (x y z : Nat) : Nat × W64 := f.fmaV rnd sat (f.dec x) (f.dec y) (f.dec z)

/-- A number that orders the encodings that are no NaN, −0 below +0. -/
def Fmt.order (f : Fmt) (x : Nat) : Int :=
  let m := x % 2 ^ (f.eb + f.mb)
  if x.testBit (f.eb + f.mb) then -(m : Int) - 1 else m

/-- A number that orders the encodings that are no NaN, −0 equal to +0. -/
def Fmt.key (f : Fmt) (x : Nat) : Int :=
  let m := x % 2 ^ (f.eb + f.mb)
  if x.testBit (f.eb + f.mb) then -(m : Int) else m

/-- VMIN and VMAX (10 R283). -/
def Fmt.pick (f : Fmt) (greater : Bool) (x y : Nat) : Nat × W64 :=
  let a := f.dec x
  let b := f.dec y
  if a.isNan || b.isNan then (f.nan, sigIV [a, b])
  else ((if greater then (if f.order x < f.order y then y else x) else (if f.order y < f.order x then y else x)), 0)

/-- VABS and VNEG (10 R283). -/
def Fmt.absNeg (f : Fmt) (neg : Bool) (x : Nat) : Nat × W64 :=
  let a := f.dec x
  if a.isNan then (f.nan, sigIV [a])
  else
    let m := x % 2 ^ (f.eb + f.mb)
    (if neg then f.sign (!x.testBit (f.eb + f.mb)) + m else m, 0)

/-- A comparison by condition code, from the order of the operands (10 R286). -/
def condBy (cc : Nat) (un : Bool) (x y : Int) : Bool :=
  match cc with
  | 0 => !un && x == y
  | 1 => un || x != y
  | 2 => !un && x < y
  | 3 => !un && x ≤ y
  | 4 => !un && y < x
  | 5 => !un && y ≤ x
  | 6 => un
  | _ => !un

/-- VCMP of encodings (10 R286). -/
def Fmt.cmp (f : Fmt) (cc x y : Nat) : Bool × W64 :=
  let a := f.dec x
  let b := f.dec y
  let un := a.isNan || b.isNan
  (condBy cc un (f.key x) (f.key y), if un && 2 ≤ cc && cc ≤ 5 then fIV else sigIV [a, b])

/-- The integer square root, by the bits below 2^k. -/
def isqrt (n : Nat) : Nat → Nat → Nat
  | 0, r => r
  | k + 1, r => let t := r + 2 ^ k; isqrt n k (if t * t ≤ n then t else r)

/-- VRCP (10 R293): 1/x correctly rounded. -/
def Fmt.rcp (f : Fmt) (rnd : Nat) (sat : Bool) (x : Nat) : Nat × W64 :=
  match f.dec x with
  | .nan s => (f.nan, sigIV [.nan s])
  | .inf n => (f.zero n, 0)
  | .fin n m e =>
    if m = 0 then (f.inf n, fDZ)
    else
      let k := Nat.log2 m + f.mb + 4
      f.round rnd sat n (2 ^ k / m) (-e - k) (2 ^ k % m != 0)

/-- VRSQ (10 R293): 1/√x correctly rounded. -/
def Fmt.rsq (f : Fmt) (rnd : Nat) (sat : Bool) (x : Nat) : Nat × W64 :=
  match f.dec x with
  | .nan s => (f.nan, sigIV [.nan s])
  | .inf n => if n then (f.nan, fIV) else (f.zero false, 0)
  | .fin n m e =>
    if m = 0 then (f.inf n, fDZ)
    else if n then (f.nan, fIV)
    else
      let (m, e) := if e % 2 = 0 then (m, e) else (2 * m, e - 1)
      let k := Nat.log2 m / 2 + f.mb + 6
      let r := isqrt (2 ^ (2 * k) / m) (k + 2) 0
      f.round rnd sat false r (-(e / 2) - k) (r * r * m != 2 ^ (2 * k))

/-- Conversion between IEEE formats (05 R133). -/
def Fmt.conv (src dst : Fmt) (rnd : Nat) (sat : Bool) (x : Nat) : Nat × W64 :=
  match src.dec x with
  | .nan s => (dst.nan, sigIV [.nan s])
  | .inf n => (dst.inf n, 0)
  | .fin n m e => if m = 0 then (dst.zero n, 0) else dst.round rnd sat n m e false

/-- Conversion to a w-bit integer (05 R125, R133). -/
def Fmt.toInt (f : Fmt) (rnd w x : Nat) : Nat × W64 :=
  let hi : Nat := 2 ^ (w - 1) - 1
  let lo : Nat := 2 ^ (w - 1)
  match f.dec x with
  | .nan _ => (0, fIV)
  | .inf n => (if n then lo else hi, fIV)
  | .fin n m e =>
    let (v, inex) := roundAt rnd n m e 0 false
    if n then (if lo < v then (lo, fIV) else ((2 ^ w - v) % 2 ^ w, if inex then fNX else 0))
    else if hi < v then (hi, fIV) else (v, if inex then fNX else 0)

/-- Conversion from an integer (05 R133). -/
def Fmt.ofInt (f : Fmt) (rnd : Nat) (sat : Bool) (v : Int) : Nat × W64 := f.roundInt rnd sat false v 0

end Sys2Proof.Machine
end

