-- ==== Sys2Proof/Machine/Bx.lean ====
section
/-! DEFINITION. The BX block formats (05 R138-R142): elements, quantisation, sparse groups. -/

namespace Sys2Proof.Machine

/-- c of R142: 132 for BX8, 128 for BX4. -/
def bxC (ty : Nat) : Int := if ty = 8 then 132 else 128
/-- The largest magnitude. -/
def bxMax (ty : Nat) : Nat := if ty = 8 then 63 else 3
/-- Width of an element in bits. -/
def bxBits (ty : Nat) : Nat := if ty = 8 then 8 else 4

/-- Fields of an element: SEL, SGN, MAG. -/
def bxSel (ty x : Nat) : Nat := x / 2 ^ (bxBits ty - 1) % 2
def bxSgn (ty x : Nat) : Bool := x.testBit (bxBits ty - 2)
def bxMag (ty x : Nat) : Nat := x % 2 ^ (bxBits ty - 2)
/-- An element from its fields. -/
def bxElem (ty : Nat) (sel : Nat) (sgn : Bool) (mag : Nat) : Nat :=
  sel * 2 ^ (bxBits ty - 1) + b2n sgn * 2 ^ (bxBits ty - 2) + mag

/-- What an element denotes under its block's exponents (05 R138, R139); both zeros are +0. -/
def bxVal (ty e0 e1 x : Nat) : FVal :=
  let e := if bxSel ty x = 0 then e0 else e1
  if e = 255 then .nan false
  else if bxMag ty x = 0 then .fin false 0 0
  else .fin (bxSgn ty x) (bxMag ty x) ((e : Int) - bxC ty)

/-- floor(log2) of a finite non-zero magnitude. -/
def FVal.log2? : FVal → Option Int
  | .fin _ m e => if m = 0 then none else some (e + (Nat.log2 m : Nat))
  | _ => none

/-- The two exponents of a block (05 R142, steps 1 and 2): given as E0, E1, or by default. -/
def bxExps (given : Option (Nat × Nat)) (xs : List FVal) : Nat × Nat :=
  match given with
  | some (a, b) =>
    let a := min a 254
    let b := min b 254
    (if a + 15 < b then b - 15 else a, if b + 15 < a then a - 15 else b)
  | none =>
    match (xs.filterMap FVal.log2?).foldl (fun (m : Option Int) x => match m with | none => some x | some y => some (max x y)) none with
    | none => (0, 0)
    | some e =>
      let e0 := min 254 (e + 127).toNat
      (e0, e0 - 6)

/-- A candidate (05 R142, step 3): the magnitude, whether it was clamped, and the error in units of 2^q. -/
def bxCand (ty : Nat) (m : Nat) (e s q : Int) : Nat × Bool × Nat :=
  let (n, _) := roundAt 0 false m e s false
  let k := min n (bxMax ty)
  (k, bxMax ty < n, (((m * 2 ^ (e - q).toNat : Nat) : Int) - ((k * 2 ^ (s - q).toNat : Nat) : Int)).natAbs)

/-- An element quantised (05 R142, steps 3 and 4): the element, the order of its quantised magnitude, its flags. DEDUCED (log 175): sparse groups
rank their elements by the magnitude that the quantised element denotes, MAG · 2^E. -/
def bxQuant (ty e0 e1 : Nat) (neg : Bool) (x : FVal) : Nat × Nat × W64 :=
  match x with
  | .nan _ => (bxElem ty (b2n (Config.bxNanSel ty neg)) neg 0, 0, fIV)
  | .inf n => (bxElem ty 0 n (bxMax ty), bxMax ty * 2 ^ e0, fBXSAT)
  | .fin n m e =>
    let s0 : Int := (e0 : Int) - bxC ty
    let s1 : Int := (e1 : Int) - bxC ty
    let q := min e (min s0 s1)
    let (m0, c0, d0) := bxCand ty m e s0 q
    let (m1, c1, d1) := bxCand ty m e s1 q
    let pick1 := d1 < d0
    let mag := if pick1 then m1 else m0
    (bxElem ty (b2n pick1) n mag, mag * 2 ^ (if pick1 then e1 else e0), if (if pick1 then c1 else c0) then fBXSAT else 0)

/-- The positions that a sparse group keeps (05 R142): the n largest magnitudes, the lower position winning ties, ascending. -/
def bxKeep (n : Nat) (mags : List Nat) : List Nat :=
  let rank (i : Nat) : Nat := ((List.range mags.length).filter (fun j =>
    mags.getD i 0 < mags.getD j 0 || (mags.getD i 0 == mags.getD j 0 && j < i))).length
  (List.range mags.length).filter (fun i => rank i < n)

/-- The elements of a 32-element group from a mask and the stored ones (05 R141): positions beyond the n-th set bit hold nothing. -/
def bxExpand (n mask : Nat) : Nat → Nat → List Nat → List (Option Nat)
  | 0, _, _ => []
  | k + 1, used, st =>
    let i := 32 - (k + 1)
    if mask.testBit i && used < n then (some (st.headD 0)) :: bxExpand n mask k (used + 1) st.tail
    else none :: bxExpand n mask k used st

/-- Bytes of packed elements: one a byte, or two in ascending order from bit 0 (05 R140). -/
def bxPack (ty : Nat) : List Nat → List Byte
  | [] => []
  | [x] => [BitVec.ofNat 8 x]
  | x :: y :: t => if ty = 8 then BitVec.ofNat 8 x :: BitVec.ofNat 8 y :: bxPack ty t else BitVec.ofNat 8 (x + 16 * y) :: bxPack ty t

/-- Elements of packed bytes. -/
def bxUnpack (ty : Nat) (bs : List Byte) : List Nat :=
  if ty = 8 then bs.map (·.toNat) else bs.flatMap (fun b => [b.toNat % 16, b.toNat / 16])

end Sys2Proof.Machine
end

