-- ==== Sys2Proof/Machine/Fixed.lean ====
section
/-! DEFINITION. Bounds of the exponential and the logarithm in fixed point, for the results that the spec rounds from an exact real
value (05 R128, R134, 10 R293): every function answers a lower or an upper bound, as `up` says. -/

namespace Sys2Proof.Machine

/-- One, in fixed point with P fraction bits. -/
def fxOne (P : Nat) : Nat := 2 ^ P

/-- Terms of a series enough for P fraction bits. -/
def fxTerms (P : Nat) : Nat := P / 3 + 8

/-- What the lower and the upper bound of an exact value both give, at the first of n doublings of P fraction bits at which they agree. No
result that the spec defines lies between bounds of 2^-16384; were it so, an open choice would say which is taken (logs 9, 10). -/
def refineFx {α : Type} [DecidableEq α] (both : Nat → α × α) (choice : Bool) : Nat → Nat → α
  | 0, P => if choice then (both P).2 else (both P).1
  | n + 1, P => let r := both P; if r.1 = r.2 then r.1 else refineFx both choice n (2 * P)

/-- Division rounded down or up. -/
def divB (up : Bool) (a b : Nat) : Nat := if up then (a + b - 1) / b else a / b

/-- Division of an integer by a positive number, rounded down or up. -/
def idivB (up : Bool) (a : Int) (b : Nat) : Int := if up then -((-a) / b) else a / b

/-- m·2^e in fixed point. -/
def fxOf (P : Nat) (up : Bool) (m : Nat) (e : Int) : Nat :=
  let s := e + P
  if 0 ≤ s then m * 2 ^ s.toNat else divB up m (2 ^ (-s).toNat)

/-- Terms z^(2i+1)/(2i+1) of the series of the inverse hyperbolic tangent, for z ≤ 1/3: n of them, from the power p. -/
def atanhTerms (P : Nat) (up : Bool) (z2 : Nat) : Nat → Nat → Nat → Nat
  | 0, _, p => if up then p + 1 else 0
  | n + 1, i, p => divB up p (2 * i + 1) + atanhTerms P up z2 n (i + 1) (divB up (p * z2) (fxOne P))

/-- ln y for y in [1, 2), in fixed point: 2·atanh((y−1)/(y+1)). -/
def lnUnit (P : Nat) (up : Bool) (y : Nat) : Nat :=
  let z := divB up ((y - fxOne P) * fxOne P) (y + fxOne P)
  2 * atanhTerms P up (divB up (z * z) (fxOne P)) (fxTerms P) 0 z

/-- ln 2 in fixed point. -/
def fxLn2 (P : Nat) (up : Bool) : Nat := 2 * atanhTerms P up (divB up (fxOne P) 9) (fxTerms P) 0 (divB up (fxOne P) 3)

/-- k·ln 2 in fixed point. -/
def mulLn2 (P : Nat) (up : Bool) (k : Int) : Int := k * (fxLn2 P (if 0 ≤ k then up else !up) : Int)

/-- ln(m·2^e) for m > 0, in fixed point. -/
def lnB (P : Nat) (up : Bool) (m : Nat) (e : Int) : Int :=
  let l := Nat.log2 m
  let y := divB up (m * fxOne P) (2 ^ l)
  -- rounding up may reach 2, where ln 2 itself is the bound
  mulLn2 P up (e + l) + (if 2 * fxOne P ≤ y then fxLn2 P true else lnUnit P up y : Nat)

/-- Terms of the exponential series for 0 ≤ r ≤ 2: n of them, from the term t. -/
def expTerms (P : Nat) (up : Bool) (r : Nat) : Nat → Nat → Nat → Nat
  | 0, _, t => if up then 2 * t + 1 else 0
  | n + 1, i, t => t + expTerms P up r n (i + 1) (divB up (t * r) (fxOne P * (i + 1)))

/-- exp of a fixed-point number: a fixed-point mantissa and a power of two. -/
def expB (P : Nat) (up : Bool) (x : Int) : Nat × Int :=
  -- one less than the quotient, so that r stays positive
  let k := x / (fxLn2 P true : Int) - 1
  let r := x - mulLn2 P (!up) k
  (expTerms P up r.toNat (fxTerms P) 0 (fxOne P), k)

/-- A bound of exp as fixed point. -/
def expFx (P : Nat) (up : Bool) (x : Int) : Nat :=
  let (m, k) := expB P up x
  if 0 ≤ k then m * 2 ^ k.toNat else divB up m (2 ^ (-k).toNat)

/-- The ends of an open interval that holds an exact value: mantissas and powers of two. -/
abbrev FxIv := (Nat × Int) × (Nat × Int)

/-- An exact value rounded into a format (05 R124, R134): the value that both ends of an interval around it round to, at the first precision at
which they agree. -/
def Fmt.roundIv (f : Fmt) (rnd : Nat) (sat neg : Bool) (iv : Nat → FxIv) (key : Nat × Nat) : Nat × W64 :=
  let both (P : Nat) : (Nat × W64) × (Nat × W64) :=
    let (lo, hi) := iv P
    (f.round rnd sat neg lo.1 lo.2 true, f.round rnd sat neg (hi.1 - 1) hi.2 true)
  refineFx both (Config.roundUp key.1 key.2) 7 256

/-- A binary32 result of a faithful function (10 R293): one of the two neighbours of the exact value. -/
def Fmt.faithful (f : Fmt) (sat neg : Bool) (iv : Nat → FxIv) (fn x : Nat) : Nat × W64 :=
  let n := f.roundIv 0 sat neg iv (fn, x)
  if n.2 &&& fOF != 0 then n
  else f.roundIv (if Config.faithfulUp fn (BitVec.ofNat 32 x) then 2 else 3) sat neg iv (fn, x)

/-- A special function's result: faithful in binary32, correctly rounded in the narrow formats (10 R293). -/
def special (ty rnd : Nat) (sat neg : Bool) (iv : Nat → FxIv) (fn x : Nat) : Nat × W64 :=
  if ty = 0 then Fmt.f32.faithful sat neg iv fn x else (fmtOf ty).roundIv rnd sat neg iv (fn + 10 * ty, x)

/-- A mantissa interval for an exact value so large or so small that only its side counts. -/
def farIv (big : Bool) : FxIv :=
  let e : Int := if big then 1000000 else -1000000
  ((2 ^ 256, e), (2 ^ 256 + 4, e))

/-- The interval of an exponential between two fixed-point exponents. -/
def expIv (P : Nat) (lo hi : Int) : FxIv :=
  let (a, k) := expB P false lo
  let (b, j) := expB P true hi
  ((a, k - P), if k ≤ j then (b * 2 ^ (j - k).toNat, k - P) else (b, j - P))

/-- VEXP (10 R293). -/
def vexp (ty rnd : Nat) (sat : Bool) (x : Nat) : Nat × W64 :=
  let f := fmtOf ty
  match f.dec x with
  | .nan s => (f.nan, sigIV [.nan s])
  | .inf n => (if n then f.zero false else f.inf false, 0)
  | .fin n m e =>
    if m = 0 then (f.bias * 2 ^ f.mb, 0)
    else
      let iv (P : Nat) : FxIv :=
        if 20 ≤ e + (Nat.log2 m : Nat) then farIv (!n)
        else
          let sgn : Int := if n then -1 else 1
          expIv P (sgn * (fxOf P n m e : Nat)) (sgn * (fxOf P (!n) m e : Nat))
      special ty rnd sat false iv 0 x

/-- VLOG (10 R293). -/
def vlog (ty rnd : Nat) (sat : Bool) (x : Nat) : Nat × W64 :=
  let f := fmtOf ty
  match f.dec x with
  | .nan s => (f.nan, sigIV [.nan s])
  | .inf n => if n then (f.nan, fIV) else (f.inf false, 0)
  | .fin n m e =>
    if m = 0 then (f.inf true, fDZ)
    else if n then (f.nan, fIV)
    else if x = f.bias * 2 ^ f.mb then (f.zero false, 0)
    else
      let big : Bool := 0 < lnB 256 false m e
      let iv (P : Nat) : FxIv :=
        let a := lnB P false m e
        let b := lnB P true m e
        if big then ((a.toNat, -(P : Int)), (b.toNat, -(P : Int))) else (((-b).toNat, -(P : Int)), ((-a).toNat, -(P : Int)))
      special ty rnd sat (!big) iv 1 x

/-- VTANH (10 R293). -/
def vtanh (ty rnd : Nat) (sat : Bool) (x : Nat) : Nat × W64 :=
  let f := fmtOf ty
  match f.dec x with
  | .nan s => (f.nan, sigIV [.nan s])
  | .inf n => (f.sign n + f.bias * 2 ^ f.mb, 0)
  | .fin n m e =>
    if m = 0 then (f.zero n, 0)
    else
      let top := e + (Nat.log2 m : Nat)
      let iv (P : Nat) : FxIv :=
        if top < -30 then ((m * 2 ^ 80 - m * 2 ^ 20, e - 80), (m * 2 ^ 80, e - 80))
        else if 8 ≤ top then ((fxOne 256 - 2, -256), (fxOne 256, -256))
        else
          -- tanh y = (1 − t)/(1 + t) with t = exp(−2y)
          let one := fxOne P
          let y := fxOf P false m e
          let tlo := expFx P false (-2 * (y + 1 : Nat))
          let thi := expFx P true (-2 * (y : Nat))
          ((divB false ((one - thi) * one) (one + thi), -(P : Int)), (divB true ((one - tlo) * one) (one + tlo), -(P : Int)))
      special ty rnd sat n iv 2 x

end Sys2Proof.Machine
end

