-- ==== Sys2Proof/Machine/Sli.lean ====
section
/-! DEFINITION. Symmetric level-index numbers (05 R126-R137): rounding in the index from bounds of the exact result, the level-crossing
flags, comparisons, conversions. -/

namespace Sys2Proof.Machine

/-- Fraction bits of an SLI type code (05 R126). -/
def sliF (ty : Nat) : Nat := if ty = 3 then 27 else 11

/-- An SLI value (05 R127): a NaN, a signed zero, or a sign, a side and an index LVL·2^F + FRAC ≥ 2^F. -/
inductive SVal where
  | nan
  | zero (neg : Bool)
  | num (neg rec : Bool) (n : Nat)
  deriving DecidableEq, Repr

/-- The value of an encoding with F fraction bits. -/
def sliDec (F x : Nat) : SVal :=
  let n := x % 2 ^ (F + 3)
  let rec_ := x.testBit (F + 3)
  let neg := x.testBit (F + 4)
  if n < 2 ^ F then (if n = 0 ∧ !rec_ then .zero neg else .nan) else .num neg rec_ n

/-- The encoding of a value; ±1 takes its REC = 0 encoding (05 R127). -/
def sliEnc (F : Nat) : SVal → Nat
  | .nan => 2 ^ (F + 3)
  | .zero neg => b2n neg * 2 ^ (F + 4)
  | .num neg rec_ n => b2n neg * 2 ^ (F + 4) + b2n (rec_ && n != 2 ^ F) * 2 ^ (F + 3) + n

/-- The largest index (05 R127). -/
def sliTop (F : Nat) : Nat := 8 * 2 ^ F - 1

/-- φ of an index in fixed point, where it stays below e^62: nothing above. -/
def phiFx (P : Nat) (up : Bool) (F : Nat) : Nat → Nat → Option Nat
  | 0, _ => none
  | k + 1, n =>
    if n < 2 ^ F then some (n * 2 ^ (P - F))
    else match phiFx P up F k (n - 2 ^ F) with
      | some x => if x ≤ 62 * fxOne P then some (expFx P up x) else none
      | none => none

/-- ψ of a fixed-point number (05 R128), in fixed point. -/
def psiFx (P : Nat) (up : Bool) : Nat → Nat → Nat
  | 0, _ => 0
  | k + 1, x => if x < fxOne P then x else fxOne P + psiFx P up k (lnB P up x (-(P : Int))).toNat

/-- A fixed-point index rounded to F fraction bits, ties to even. -/
def indexRound (P F x : Nat) : Nat :=
  let k := P - F
  let n := x / 2 ^ k
  if roundsUp 0 false n (x % 2 ^ k) k false then n + 1 else n

/-- A magnitude by side and index. -/
abbrev SMag := Bool × Nat

/-- The magnitudes to which the two ends of an interval of the natural logarithm round (05 R128): side, index before saturation. -/
def magOfLog (P F : Nat) (lo hi : Int) : SMag × SMag :=
  let rec_ : Bool := hi ≤ 0 && lo < 0
  let a : Nat := if 0 ≤ lo then lo.toNat else if hi ≤ 0 then (-hi).toNat else 0
  let b : Nat := if 0 ≤ lo then hi.toNat else if hi ≤ 0 then (-lo).toNat else max hi.toNat (-lo).toNat
  ((rec_, 2 ^ F + indexRound P F (psiFx P false 8 a)), (rec_, 2 ^ F + indexRound P F (psiFx P true 8 b)))

/-- A magnitude rounded in the index (05 R128): what both ends of the interval give, at the first precision at which they agree. -/
def magRound (both : Nat → SMag × SMag) (key : Nat × Nat × Nat) : SMag :=
  refineFx both (Config.sliIndex key.1 key.2.1 key.2.2 % 2 == 1) 7 256

/-- The signed logarithm of a magnitude in fixed point, where it is below e^62: lower and upper bounds. -/
def magLog (P F : Nat) (m : SMag) : Option (Int × Int) :=
  match phiFx P false F 8 (m.2 - 2 ^ F), phiFx P true F 8 (m.2 - 2 ^ F) with
  | some a, some b => some (if m.1 then (-(b : Int), -(a : Int)) else ((a : Int), (b : Int)))
  | _, _ => none

/-- A number that orders magnitudes; both encodings of one alike. -/
def magKey (F : Nat) (m : SMag) : Int := if m.1 then -((m.2 - 2 ^ F : Nat) : Int) else ((m.2 - 2 ^ F : Nat) : Int)

/-- x + y or x − y for magnitudes with x > y, or x = y added (05 R129): ln r = ln x + ln(1 ± y/x). Where y/x or its effect on the index
is below every rounding, the result is x. -/
def magAdd (F : Nat) (sub : Bool) (x y : SMag) (P : Nat) : SMag × SMag :=
  match magLog P F x, magLog P F y with
  | some (xl, xh), some (yl, yh) =>
    let dl := max 0 (xl - yh)
    let dh := xh - yl
    if 100 * (fxOne P : Int) < dl then (x, x)
    else
      let tl := expFx P false (-dh)
      let th := expFx P true (-dl)
      let one : Nat := fxOne P
      let e : Int := -(P : Int)
      if sub then magOfLog P F (xl + lnB P false (max 1 (one - th)) e) (xh + lnB P true (max 1 (one - tl)) e)
      else magOfLog P F (xl + lnB P false (one + tl) e) (xh + lnB P true (one + th) e)
  | _, _ => (x, x)

/-- x · y for magnitudes (05 R129): the logarithms add; where they are too large for fixed point, they add as level-index values of one
level less. -/
def magMul (F : Nat) (x y : SMag) (P : Nat) : SMag × SMag :=
  match magLog P F x, magLog P F y with
  | some (xl, xh), some (yl, yh) => magOfLog P F (xl + yl) (xh + yh)
  | _, _ =>
    let (a, b) := if x.2 < y.2 then (y, x) else (x, y)
    if a.2 = b.2 ∧ a.1 ≠ b.1 then ((false, 2 ^ F), (false, 2 ^ F))
    else if b.2 < 2 ^ (F + 1) then (a, a)
    else
      let r := magAdd F (a.1 != b.1) (false, a.2 - 2 ^ F) (false, b.2 - 2 ^ F) P
      ((a.1, r.1.2 + 2 ^ F), (a.1, r.2.2 + 2 ^ F))

/-- A rounded magnitude with a sign as a value, and LXTOP where it saturates (05 R128). -/
def sliDone (F : Nat) (neg : Bool) (m : SMag) : SVal × W64 :=
  if 8 * 2 ^ F ≤ m.2 then (.num neg m.1 (sliTop F), fLXTOP) else (.num neg (m.1 && m.2 != 2 ^ F) m.2, 0)

/-- LVL and REC of a value as encoded. -/
def SVal.lvl (F : Nat) : SVal → Nat
  | .num _ _ n => n / 2 ^ F
  | _ => 0
def SVal.isRec : SVal → Bool
  | .num _ r _ => r | _ => false
/-- Neither zero nor NaN. -/
def SVal.isNum : SVal → Bool
  | .num _ _ _ => true | _ => false

/-- The level-crossing flags of a result (05 R132). -/
def lxFlags (F : Nat) (ops : List SVal) (r : SVal) : W64 :=
  if !r.isNum then 0
  else
    let up : W64 := if ops.all (fun x => x.lvl F < r.lvl F) then fLXUP else 0
    let dn : W64 := if ops.all (fun x => r.lvl F < x.lvl F) then fLXDN else 0
    let nums := ops.filter (·.isNum)
    let rc : W64 := if !nums.isEmpty && nums.all (fun x => x.isRec != r.isRec) then fLXREC else 0
    up ||| dn ||| rc

/-- The sum of two values (05 R129, R130). -/
def sliAddV (F : Nat) (x y : SVal) (key : Nat × Nat × Nat) : SVal × W64 :=
  match x, y with
  | .nan, _ => (.nan, 0)
  | _, .nan => (.nan, 0)
  | .zero a, .zero b => (.zero (a && b), 0)
  | .zero _, .num n r i => sliDone F n (r, i)
  | .num n r i, .zero _ => sliDone F n (r, i)
  | .num a ra i, .num b rb j =>
    let kx := magKey F (ra, i)
    let ky := magKey F (rb, j)
    if kx = ky ∧ a ≠ b then (.zero false, 0)
    else if kx < ky then sliDone F b (magRound (magAdd F (a != b) (rb, j) (ra, i)) key)
    else sliDone F a (magRound (magAdd F (a != b) (ra, i) (rb, j)) key)

/-- The negation of a value. -/
def SVal.flip : SVal → SVal
  | .nan => .nan | .zero n => .zero (!n) | .num n r i => .num (!n) r i

/-- The product of two values (05 R129, R130). -/
def sliMulV (F : Nat) (x y : SVal) (key : Nat × Nat × Nat) : SVal × W64 :=
  match x, y with
  | .nan, _ => (.nan, 0)
  | _, .nan => (.nan, 0)
  | .zero a, .zero b => (.zero (a != b), 0)
  | .zero a, .num b _ _ => (.zero (a != b), 0)
  | .num a _ _, .zero b => (.zero (a != b), 0)
  | .num a ra i, .num b rb j => sliDone F (a != b) (magRound (magMul F (ra, i) (rb, j)) key)

/-- The operations of SLI arithmetic on encodings (05 R129): 0 add, 1 subtract, 2 multiply. -/
def sliOp (ty op x y : Nat) : Nat × W64 :=
  let F := sliF ty
  let a := sliDec F x
  let b := sliDec F y
  let key := (10 * ty + op, x, y)
  let (r, fl) := match op with
    | 0 => sliAddV F a b key
    | 1 => sliAddV F a b.flip key
    | _ => sliMulV F a b key
  (sliEnc F r, fl ||| lxFlags F [a, b] r)

/-- VRCP with an S type (10 R294). -/
def sliRcp (ty x : Nat) : Nat × W64 :=
  let F := sliF ty
  match sliDec F x with
  | .nan => (sliEnc F .nan, 0)
  | .zero n => (sliEnc F (.num n false (sliTop F)), fLXTOP ||| fDZ)
  | .num n r i =>
    let v : SVal := .num n (!r && i != 2 ^ F) i
    (sliEnc F v, lxFlags F [.num n r i] v)

/-- A number that orders values; −0 equals +0 (05 R129). -/
def sliKey (F : Nat) : SVal → Int
  | .nan => 0
  | .zero _ => 0
  | .num n r i => let m := 2 ^ (F + 4) + magKey F (r, i); if n then -m else m

/-- VCMP with an S type (10 R286). -/
def sliCmp (ty cc x y : Nat) : Bool :=
  let F := sliF ty
  let a := sliDec F x
  let b := sliDec F y
  condBy cc (a == .nan || b == .nan) (sliKey F a) (sliKey F b)

/-- VMIN and VMAX with an S type (10 R283): the operand itself; equal operands give x. -/
def sliPick (ty : Nat) (greater : Bool) (x y : Nat) : Nat :=
  let F := sliF ty
  let a := sliDec F x
  let b := sliDec F y
  if a = .nan ∨ b = .nan then sliEnc F .nan
  else if greater then (if sliKey F a < sliKey F b then y else x) else (if sliKey F b < sliKey F a then y else x)

/-- VABS and VNEG with an S type (10 R283): the sign bit alone changes. -/
def sliAbsNeg (ty : Nat) (neg : Bool) (x : Nat) : Nat :=
  let F := sliF ty
  if sliDec F x = .nan then sliEnc F .nan
  else
    let m := x % 2 ^ (F + 4)
    if neg then b2n (!x.testBit (F + 4)) * 2 ^ (F + 4) + m else m

/-- VSLI.LVL (10 R295). -/
def sliLvl (ty x : Nat) : Nat :=
  let F := sliF ty
  match sliDec F x with
  | .nan => 16
  | v => v.lvl F + 8 * b2n v.isRec

/-- An IEEE encoding to SLI (05 R133, R135, R137). -/
def sliOfIeee (f : Fmt) (ty x : Nat) : Nat × W64 :=
  let F := sliF ty
  match f.dec x with
  | .nan s => (sliEnc F .nan, sigIV [.nan s])
  | .inf n => (sliEnc F (.num n false (sliTop F)), fLXTOP)
  | .fin n m e =>
    if m = 0 then (sliEnc F (.zero n), 0)
    else if e ≤ 0 ∧ m = 2 ^ (-e).toNat then (sliEnc F (.num n false (2 ^ F)), 0)
    else
      let (v, fl) := sliDone F n (magRound (fun P => magOfLog P F (lnB P false m e) (lnB P true m e)) (100 + ty, f.mb, x))
      (sliEnc F v, fl)

/-- An SLI encoding to an IEEE format (05 R133, R134). -/
def sliToIeee (f : Fmt) (ty rnd : Nat) (sat : Bool) (x : Nat) : Nat × W64 :=
  let F := sliF ty
  match sliDec F x with
  | .nan => (f.nan, 0)
  | .zero n => (f.zero n, 0)
  | .num n r i =>
    if i = 2 ^ F then (f.sign n + f.bias * 2 ^ f.mb, 0)
    else
      let iv (P : Nat) : FxIv :=
        match magLog P F (r, i) with
        | none => farIv (!r)
        | some (a, b) => if a < -5000 * (fxOne P : Int) then farIv false else if 5000 * (fxOne P : Int) < b then farIv true else expIv P a b
      f.roundIv rnd sat n iv (50 + ty, x * 4 + f.mb % 4)

/-- SLI32 to SLI16 (05 R133): the index rounded, ties to even. -/
def sliNarrow (x : Nat) : Nat × W64 :=
  match sliDec 27 x with
  | .nan => (sliEnc 11 .nan, 0)
  | .zero n => (sliEnc 11 (.zero n), 0)
  | .num n r i =>
    let k := i / 2 ^ 16
    let (v, fl) := sliDone 11 n (r, if roundsUp 0 false k (i % 2 ^ 16) 16 false then k + 1 else k)
    (sliEnc 11 v, fl)

end Sys2Proof.Machine
end

