-- ==== Sys2Proof/Machine/Lanes.lean ====
section
/-! DEFINITION. Operations on elements of every type, and what combines lanes: element maps, rows and columns, the reduction tree
and the scan network (05 R143, 10 R283-R292). -/

namespace Sys2Proof.Machine

/-- A lane's or an element's result with its flags. -/
abbrev Res := Nat × W64

/-- The signed value of an integer element. -/
def intOf (ty x : Nat) : Int := (BitVec.ofNat (elemBits ty) x).toInt
/-- An exact signed value as an element: wrapped, or clamped (05 R120). -/
def ofIntEl (ty : Nat) (sat : Bool) (v : Int) : Res :=
  let (r, fl) := narrow (elemBits ty) sat v
  (r.toNat, fl)

/-- How a vector unit computes: element type, rounding code, saturation. -/
structure How where
  ty : Nat
  rnd : Nat
  sat : Bool
  deriving DecidableEq, Repr

/-- VADD, VSUB, VMUL (10 R283): operation 0, 1, 2. -/
def elArith (h : How) (op x y : Nat) : Res :=
  if isF h.ty then
    (let f := fmtOf h.ty
     match op with
     | 0 => f.add h.rnd h.sat x y
     | 1 => f.sub h.rnd h.sat x y
     | _ => f.mul h.rnd h.sat x y)
  else if isS h.ty then sliOp h.ty op x y
  else
    let a := intOf h.ty x
    let b := intOf h.ty y
    ofIntEl h.ty h.sat (match op with | 0 => a + b | 1 => a - b | _ => a * b)

/-- VMIN and VMAX (10 R283). -/
def elPick (h : How) (greater : Bool) (x y : Nat) : Res :=
  if isF h.ty then (fmtOf h.ty).pick greater x y
  else if isS h.ty then (sliPick h.ty greater x y, 0)
  else if greater then (if intOf h.ty x < intOf h.ty y then y else x, 0)
  else (if intOf h.ty y < intOf h.ty x then y else x, 0)

/-- VABS and VNEG (10 R283). -/
def elAbsNeg (h : How) (neg : Bool) (x : Nat) : Res :=
  if isF h.ty then (fmtOf h.ty).absNeg neg x
  else if isS h.ty then (sliAbsNeg h.ty neg x, 0)
  else
    let v := intOf h.ty x
    ofIntEl h.ty h.sat (if neg then -v else (v.natAbs : Int))

/-- VFMA (10 R283). -/
def elFma (h : How) (x y z : Nat) : Res :=
  if isF h.ty then (fmtOf h.ty).fma h.rnd h.sat x y z
  else ofIntEl h.ty h.sat (intOf h.ty x * intOf h.ty y + intOf h.ty z)

/-- VAND, VOR, VXOR (10 R284). -/
def elBits (op x y : Nat) : Res := (match op with | 0 => x &&& y | 1 => x ||| y | _ => x ^^^ y, 0)

/-- VSHL (10 R284): 0 for a shift of the width or more; under .sat clamped where shifting back does not restore x. -/
def elShl (h : How) (x y : Nat) : Res :=
  let w := elemBits h.ty
  let (r, fl) := shlSat w h.sat (BitVec.ofNat w x) (min y w)
  (r.toNat, fl)
/-- VSHR (10 R284): arithmetic; the sign fill for a shift of the width or more. -/
def elShr (h : How) (x y : Nat) : Res :=
  let w := elemBits h.ty
  (((BitVec.ofNat w x).sshiftRight (min y w)).toNat, 0)

/-- VCMP (10 R286). -/
def elCmp (ty cc x y : Nat) : Bool × W64 :=
  if isF ty then (fmtOf ty).cmp cc x y
  else if isS ty then (sliCmp ty cc x y, 0)
  else (condBy cc false (intOf ty x) (intOf ty y), 0)

/-- VEXP, VLOG, VRCP, VRSQ, VTANH (10 R293, R294): 0 to 4. -/
def elSpecial (h : How) (fn x : Nat) : Res :=
  match fn with
  | 0 => vexp h.ty h.rnd h.sat x
  | 1 => vlog h.ty h.rnd h.sat x
  | 2 => if isS h.ty then sliRcp h.ty x else (fmtOf h.ty).rcp h.rnd h.sat x
  | 3 => (fmtOf h.ty).rsq h.rnd h.sat x
  | _ => vtanh h.ty h.rnd h.sat x

/-- VCVT MODE 00 (05 R133-R137): from one type to another. -/
def elConv (src dst rnd : Nat) (sat : Bool) (x : Nat) : Res :=
  if isF src then
    if isF dst then Fmt.conv (fmtOf src) (fmtOf dst) rnd sat x
    else if isI dst then (fmtOf src).toInt rnd (elemBits dst) x
    else sliOfIeee (fmtOf src) dst x
  else if isI src then (fmtOf dst).ofInt rnd sat (intOf src x)
  else if isF dst then sliToIeee (fmtOf dst) src rnd sat x
  else if src = 4 then (sliWiden x, 0)
  else sliNarrow x

/-- A reduction operation by its code (10 R289). -/
def elReduce (h : How) (op x y : Nat) : Res :=
  match op with
  | 0 => elArith h 0 x y
  | 1 => elPick h false x y
  | _ => elPick h true x y

/-- The result of a reduction with no active lane (05 R143). -/
def elEmpty (ty op : Nat) : Nat :=
  if isF ty then (match op with | 0 => 0 | 1 => (fmtOf ty).inf false | _ => (fmtOf ty).inf true)
  else if isS ty then
    (let F := sliF ty
     match op with
     | 0 => 0
     | 1 => sliEnc F (.num false false (sliTop F))
     | _ => sliEnc F (.num true false (sliTop F)))
  else (match op with | 0 => 0 | 1 => 2 ^ (elemBits ty - 1) - 1 | _ => 2 ^ (elemBits ty - 1))

/-- The OR of flags. -/
def orFlags (l : List W64) : W64 := l.foldl (· ||| ·) 0

/-- A predicate value from its lanes, lane 0 first. -/
def lanesOfBools (l : List Bool) : Lanes := BitVec.ofNat 1024 (l.foldr (fun b a => 2 * a + b2n b) 0)

/-- The lanes of a predicate value, lane 0 first. -/
def boolsOf (g : Lanes) : List Bool := (List.range 1024).map g.getLsbD

/-- An element map under a governing predicate (10 R280): each active lane takes the result and raises its flags, each inactive one
keeps its value and raises none. -/
def mapLanes (f : W32 → W32 → W32 → W32 × W64) : List Bool → List W32 → List W32 → List W32 → List W32 → List (W32 × W64)
  | g :: gs, x :: xs, y :: ys, z :: zs, o :: os => (if g then f x y z else (o, 0)) :: mapLanes f gs xs ys zs os
  | _, _, _, _, _ => []

/-- An element result as a lane. -/
def asLane (ty : Nat) (r : Res) : W32 × W64 := (fillLane ty r.1, r.2)

/-- Groups of n, k of them. -/
def chunks {α : Type} (n : Nat) : Nat → List α → List (List α)
  | 0, _ => []
  | k + 1, l => l.take n :: chunks n k (l.drop n)

/-- Rows of a register's lanes: 16 of 64. -/
def rowsOf {α : Type} (l : List α) : List (List α) := chunks 64 16 l

/-- Columns of rows: n of them. -/
def columns {α : Type} (n : Nat) (d : α) (rows : List (List α)) : List (List α) :=
  (List.range n).map (fun j => rows.map (fun r => r.getD j d))

/-- A list turned right by k places. -/
def turnRight {α : Type} (k : Nat) (l : List α) : List α := l.drop (l.length - k) ++ l.take (l.length - k)

/-- Two lanes combined, where active (05 R143): an inactive one passes its partner through. -/
def meet (op : Nat → Nat → Res) (x y : Option Nat) : Option Nat × W64 :=
  match x, y with
  | some a, some b => let (r, fl) := op a b; (some r, fl)
  | some a, none => (some a, 0)
  | none, b => (b, 0)

/-- One level of the tree. -/
def treeLevel (op : Nat → Nat → Res) : List (Option Nat) → List (Option Nat) × W64
  | x :: y :: t =>
    let (r, fl) := meet op x y
    let (l, fl') := treeLevel op t
    (r :: l, fl ||| fl')
  | l => (l, 0)

/-- tree of 05 R143, for 2^k lanes. -/
def tree (op : Nat → Nat → Res) : Nat → List (Option Nat) → Option Nat × W64
  | 0, l => (l.headD none, 0)
  | k + 1, l =>
    let (l, fl) := treeLevel op l
    let (r, fl') := tree op k l
    (r, fl ||| fl')

/-- Two positions of the scan network combined (10 R292), with the flags of all that has gone into each. -/
def meetRes (op : Nat → Nat → Res) (x y : Option Res) : Option Res :=
  match x, y with
  | some a, some b => let (r, fl) := op a.1 b.1; some (r, a.2 ||| b.2 ||| fl)
  | some a, none => some a
  | none, b => b

/-- One level of the scan network at distance d (10 R292). -/
def scanLevel (op : Nat → Nat → Res) (d : Nat) (l : List (Option Res)) : List (Option Res) :=
  List.zipWith (meetRes op) (List.replicate d none ++ l) l

/-- scan of 10 R292: levels of distance d, 2d, …. -/
def scan (op : Nat → Nat → Res) : Nat → Nat → List (Option Res) → List (Option Res)
  | 0, _, l => l
  | k + 1, d, l => scan op k (2 * d) (scanLevel op d l)

/-- What each lane of a line takes from a scan of its active lanes, with its flags: an inactive lane raises none (10 R280, R292). -/
def scanLine (op : Nat → Nat → Res) (k : Nat) (l : List (Option Nat)) : List Res :=
  List.zipWith (fun (x : Option Nat) (y : Option Res) => ((y.getD (0, 0)).1, if x.isSome then (y.getD (0, 0)).2 else 0)) l
    (scan op k 1 (l.map (fun x => x.map (fun v => (v, 0)))))

end Sys2Proof.Machine
end

