-- ==== Sys2Proof/Machine/Issue.lean ====
section
/-! DEFINITION. Fetch and the checks that come before an instruction's own meaning (08 R227-R239, 06 R150, R169, 09 R264-R267,
16 R427, 17 R438). -/

namespace Sys2Proof.Machine

/-- Why a fetch stops. -/
inductive FetchStop where
  | xlate (f : XFail)
  | poison
  | store
  deriving DecidableEq, Repr

/-- The units of the line that holds an address, as the agent's context last filled it or as memory now holds it (08 R229, R232). -/
def State.lineOf (s : State) (core st : Nat) (pc : W64) : State × Except FetchStop (List LineUnit) :=
  if isSide st then
    if 0x8000 ≤ pc.toNat then (s, .error .store)
    else
      let base := (st - 4) * 0x8000 + pc.toNat / 64 * 64
      (s, .ok (fillLine (wordsOf ((span base 64).map (fun k => SMap.get 0 (s.core core).imem k)))))
  else
    let c := (s.ag core st).ctx
    let line := pc.toNat / 64 * 64
    match s.dev.lines.find? (fun e => e.1 == c && e.2.1 == line) with
    | some e => (s, .ok e.2.2)
    | none =>
      match s.translate c .fetch false pc with
      | (s, .error f) => (s, .error (.xlate f))
      | (s, .ok x) =>
        if s.psn false x.pa then (s, .error .poison)
        else ((s.l2Touch x.pa x.policy false), .ok (fillLine (wordsOf (s.rdBytes false (x.pa / 64 * 64) 64))))

/-- What an address enters. -/
def State.fetch (s : State) (core st : Nat) (pc : W64) : State × Except FetchStop Entry :=
  match s.lineOf core st pc with
  | (s, .error e) => (s, .error e)
  | (s, .ok us) => (s, .ok (enterAt us (pc.toNat / 4 % 16)))

/-- Length in words of a unit, from its internal word (08 R228). -/
def iwLen (iw : IW) : Nat := iw.npfx + (if iw.w64 then 2 else 1)

/-- Whether a unit uses a feature that is off (17 R438), and the reason it is then illegal. -/
def featureOff (acc : W64) (iw : IW) : Option Reject :=
  let u := iw.u
  let t := etyOf iw.w64 u
  let mj := iw.major.toNat
  let vec := isVec iw.w64 mj
  let cvt := iw.w64 && mj == 0x51
  if !bit acc 0 && ((vec && isS t) || (cvt && isS (cvtSrc u)) || (iw.w64 && mj == 0x12 && u.mi == 8)) then some .rsvbits
  else if !bit acc 1 && cvt && (t == 9 || cvtSrc u == 9) then some .rsvbits
  else if !bit acc 2 && iw.w64 && mj == 0x82 then some .unasg
  else none

/-- The scalar profile (06 R150): whether a sidecar may issue a unit. -/
def sideMay (w64 : Bool) (major minor : Nat) : Bool :=
  match w64 with
  | false => (1 ≤ major && major ≤ 0x0D) || (major == 0x0E && minor ≤ 1) || major == 0x0F || (0x10 ≤ major && major ≤ 0x1F)
  | true =>
    (1 ≤ major && major ≤ 7) || (0x10 ≤ major && major ≤ 0x13) || (0x20 ≤ major && major ≤ 0x22) || (0x84 ≤ major && major ≤ 0x8B)
      || (major == 0x90 && minor ≤ 1)

/-- Whether an agent may issue a unit at all (06 R150). -/
def agentMay (st : Nat) (w64 : Bool) (major minor : Nat) : Bool :=
  if isSide st then sideMay w64 major minor else !(w64 && 0x84 ≤ major && major ≤ 0x8B)

/-- Units that must not stand in a delay slot (09 R264). -/
def notInSlot (w64 : Bool) (major minor : Nat) : Bool :=
  match w64 with
  | false =>
    (major == 0x09 && minor ≤ 2) || (major == 0x0A && (minor == 1 || minor == 2)) || (major == 0x0B && minor == 2)
      || (major == 0x30 && (minor == 0 || minor == 3)) || (major == 0x0E && [2, 3, 4, 6].contains minor)
  | true => major == 0x21

/-- How a loop-position modifier word bears on a unit (06 R169, 08 R223). -/
inductive PosVerdict where
  | go | skip | bad
  deriving DecidableEq, Repr

/-- First-only, last-only and stage units in the current pass of the issuing agent (06 R169, 08 R223); the stage predicate is read as any
predicate is (08 R235). -/
def State.posVerdict (s : State) (lp : Option LoopPos) : PosVerdict :=
  let a := s.me
  match lp, a.loop with
  | none, _ => .go
  | some _, none => .bad
  | some (.first l), some x =>
    if x.n < x.p ∧ (List.range (l.toNat + 1)).all (fun m => x.c.getD m 0 == 0) then .go else .skip
  | some (.last l), some x =>
    let d := a.cfg.getD []
    if x.n < x.p ∧ (List.range (l.toNat + 1)).all (fun m => x.c.getD m 0 == (if m < loopNl d then loopCount d m else 0)) then .go else .skip
  | some (.stage k), some _ =>
    if loopStages (a.cfg.getD []) ≤ k.toNat then .bad
    else if s.rdP (48 + k.toNat) = BitVec.allOnes 1024 then .go else .skip

/-- Registers that an operand field reads. -/
def fkReads (k : Fk) (f : Fld) : List RegRef :=
  let n := f.toNat
  match k with
  | .sS => [.s n] | .sDS => [.s n] | .pS => [.p n] | .vS => [.v n] | .bS => [.b n]
  | .pair => [.s n, .s (n + 1)] | .desc => [.s n, .s (n + 1)]
  | .vImm => if n = 63 then [] else [.v n]
  | _ => []

/-- Registers that an operand field writes. -/
def fkWrites (vecS : Bool) (k : Fk) (f : Fld) : List RegRef :=
  let n := f.toNat
  match k with
  | .sD => [.s n] | .sDS => [.s n] | .pD => [.p n] | .vD => [.v n] | .bD => [.b n]
  | .flag => if vecS then [.p n] else []
  | _ => []

/-- The registers a unit reads and writes, with the forms whose fields a table row leaves open (10 R288, R296, 12 R328, R337). -/
def regsOf (iw : IW) : List RegRef × List RegRef :=
  let u := iw.u
  let mj := iw.major.toNat
  let g : List RegRef := if u.p = 0 then [] else [.p u.p.toNat]
  let x := u.a.toNat
  let y := u.b.toNat
  if iw.w64 ∧ mj = 0x50 then
    match bits u.imm 15 14 with
    | 0 => (.s y :: g, [.v x])
    | 1 => (.s y :: .v x :: g, [.v x])
    | _ => (.v y :: g, [.s x])
  else if iw.w64 ∧ mj = 0x51 then
    match cvtMode u with
    | 0 => (.v y :: g, [.v x])
    | 3 => if u.mi.toNat = 8 ∨ u.mi.toNat = 9 then ([.s x, .s (x + 1), .v y, .s u.e.toNat], []) else ([.s y, .s (y + 1)], [.v x])
    | _ => (.s y :: g, [.s x])
  else if iw.w64 ∧ (mj = 0x81 ∨ mj = 0x82) then ([.s x, .s (x + 1), .s y, .s (y + 1), .s u.e.toNat] ++ g, [])
  else if iw.w64 ∧ mj = 0x90 ∧ u.imm = 0x010 then (.vstat :: .s y :: g, if u.mi = 1 then [] else [.s x])
  else match rowOf iw.w64 mj u.mi.toNat with
    | none => ([], [])
    | some r =>
      let vs := isVec iw.w64 mj && isS (etyOf iw.w64 u)
      (fkReads r.a u.a ++ fkReads r.b u.b ++ fkReads r.c u.c ++ fkReads r.e u.e ++ g,
       fkWrites vs r.a u.a ++ fkWrites vs r.b u.b ++ fkWrites vs r.c u.c ++ fkWrites vs r.e u.e)

/-- Whether a register is hard-wired: s0 or p0 (09 R246). -/
def RegRef.wired : RegRef → Bool
  | .s 0 => true | .p 0 => true | _ => false

/-- The stage predicate that a loop-position word makes a unit read (06 R169). -/
def stageReads (u : U) : List RegRef := match u.m.lp with | some (.stage k) => [.p (48 + k.toNat)] | _ => []

/-- Whether a unit takes effect only when lane 0 of its governing predicate is 1 (09 R246, 11 R308): a 64-bit unit that is no vector one,
with P not p0. -/
def governs (iw : IW) : Bool := iw.w64 && !isVec true iw.major.toNat && iw.u.p != 0

/-- The registers that the unit being issued reads and writes: of one that its predicate skips, the predicates alone (09 R246); of a matrix
command, vector registers where the format it meets says so (12 R337). -/
def State.unitRegs (s : State) : List RegRef × List RegRef :=
  let iw := s.cu.iw
  let u := iw.u
  let mj := iw.major.toNat
  let st := stageReads u
  if governs iw && !s.lane0 u then (.p u.p.toNat :: st, [])
  else if iw.w64 && (mj == 0x81 || mj == 0x82) then
    let f := (SMap.get [] (s.core s.cu.core).fmtq u.mi.toNat).headD 0
    let operand (v : Bool) (r : Fld) : List RegRef := if v then [.v r.toNat] else [.s r.toNat, .s (r.toNat + 1)]
    (operand (bit f 28) u.a ++ operand (bit f 27) u.b ++ [.s u.e.toNat] ++ (if u.p = 0 then [] else [.p u.p.toNat]) ++ st, [])
  else ((regsOf iw).1 ++ st, (regsOf iw).2)

/-- Whether an unfinished access is an acquire that has not returned its value (11 R313, R317). -/
def Pend.acquires (p : Pend) : Bool := match p.kind with | .load acq => acq | .amo => amoAcq p.cap.iw.u | _ => false

/-- Whether a unit is an access to memory of its agent (03 R76), or begins with one: it waits for an acquire's value (11 R313, R317). -/
def memUnit (iw : IW) : Bool :=
  let mj := iw.major.toNat
  let mi := iw.u.mi.toNat
  if iw.w64 then (0x10 ≤ mj && mj ≤ 0x12) || (mj == 0x51 && cvtMode iw.u == 3) || (0x61 ≤ mj && mj ≤ 0x65)
  else (0x10 ≤ mj && mj ≤ 0x1F) || (mj == 0x0A && mi == 0) || (mj == 0x0C && 5 ≤ mi) || (mj == 0x0E && 5 ≤ mi) || (mj == 0x24 && 1 ≤ mi)

/-- What an issue comes to before the instruction's meaning: the instruction with the state it runs in and whether it reads a
register early, or a state in which the turn has already ended. -/
inductive Issued where
  | run (i : Instr) (early : Bool) (s : State)
  | done (s : State)

/-- KIND of the invalidation word names the form of a TLB.INV (13 R370). -/
def State.refineInv (s : State) (u : U) : Instr :=
  match bits (s.sA u) 17 16 with
  | 0 => .tlbInvRange u
  | 1 => .tlbInvSpace u
  | _ => .tlbInvHandle u

/-- The instruction that a written value or an operand singles out among rows that share their words (13 R370, 15 R414, 17 R437). -/
def State.refine (s : State) (i : Instr) : Instr :=
  match i with
  | .csrWr u =>
    let v := s.sB u
    if u.imm.toNat = 0x01F then
      if bit v 2 then .dirtylogExport u else if bit v 3 then .dirtylogImport u else if bit v 0 then .dirtylogEnable u else .dirtylogDisable u
    else if 0x060 ≤ u.imm.toNat ∧ u.imm.toNat ≤ 0x07F then
      if bits v 1 0 = 3 then .hsemAcquire u else if bits v 1 0 = 0 then .hsemRelease u else .csrWr u
    else .csrWr u
  | .tlbInvRange u => s.refineInv u
  | .tlbInvSpace u => s.refineInv u
  | .tlbInvHandle u => s.refineInv u
  | j => j

/-- A fault that stands at an address the agent has been transferred to or fetches from: the stream stays there (08 R230, R231,
09 R267). -/
def State.fetchTrap (s : State) (c : Cause) (cword aux0 aux1 addr : W64) : State :=
  s.trap ⟨c, cword, aux0, aux1, addr, s.me.xsrc, false, some addr⟩

/-- A unit that waits for an ILK lock (08 R236): the cycle counted (16 R429, event 3). -/
def State.lockWait (s : State) : State := (s.count s.me.ctx s.cu.core s.cu.st 3 1).hold

/-- Whether every unit that an agent has issued has landed: no result, flag or access of it is outstanding (16 R427). -/
def Agent.allLanded (a : Agent) (now : Nat) : Bool :=
  a.pend.isEmpty && a.bounds.all (fun b => b.till ≤ now) && a.flagq.all (fun f => f.born + f.span ≤ now)

/-- A unit about to issue at an address: its encoding, feature, loop position, placement, agent and lock checks, in that order. -/
def State.check (s : State) : Issued :=
  let iw := s.cu.iw
  let u := iw.u
  let a := s.me
  let mj := iw.major.toNat
  let mi := u.mi.toNat
  let off := featureOff s.dev.featacc iw
  if iw.poison.isSome then .done s.illegal
  else if off.isSome then .done ({ s with cu := { s.cu with iw := { iw with poison := off } } }).illegal
  else
    let st := stageReads u
    let watch := bit a.issdiag 0 && s.cu.cap.isNone
    if st.any a.locked then .done s.lockWait
    else match (if s.cu.cap.isSome then PosVerdict.go else s.posVerdict u.m.lp) with
    | .bad => .done s.illegal
    | .skip => .done (if watch && st.any (a.early s.cycle) then s.raise .brk 2 0 0 else (s.fin u).count a.ctx s.cu.core s.cu.st 2 1)
    | .go =>
      if a.xfer.isSome ∧ notInSlot iw.w64 mj mi then .done s.illegal
      else if !agentMay s.cu.st iw.w64 mj mi then .done s.wrongAgent
      else
        let (rd, wr) := s.unitRegs
        let busy := (rd ++ wr).any (fun r => !r.wired && a.locked r)
        let full := 9 ≤ (a.pend.filter (fun p => p.stage == 0)).length
        let acq := memUnit iw && !(governs iw && !s.lane0 u) && a.pend.any Pend.acquires
        if busy then .done s.lockWait
        else if full ∨ acq then .done s.hold
        else
          let early := watch && rd.any (fun r => !r.wired && a.early s.cycle r)
          match iw.instr with
          | none => .done s.illegal
          | some i => .run (s.refine i) early s

/-- A pending transfer with no slot left takes place (09 R266). -/
def State.landXfer (s : State) (core st : Nat) : State :=
  s.updAg core st (fun a =>
    match a.xfer with
    | some x => if x.left = 0 then { a with xfer := none, pc := if x.taken then x.tgt else a.pc, xsrc := if x.taken then some x.src else none } else a
    | none => a)

/-- The sidecar image of a launch read into a sidecar's store (06 R151): registers zero, offset 0; on a fault the sidecar stands
faulted at offset 0 and the load is due again. DESIGN CHOICE (log 176): the bytes of the store beyond the image stay as they were. -/
def State.loadImage (s : State) (core st : Nat) : State :=
  let a := s.ag core st
  let l : Launch := match a.item with
    | some i => (SMap.find? s.launches i.launch).getD ⟨0, 0, [], 0, false, [], []⟩
    | none => ⟨0, 0, [], 0, false, [], []⟩
  let w := l.words.getD (st + 1) 0
  let n := 16 * bits w 63 52
  let va := BitVec.ofNat 64 (bits w 51 2 * 4)
  let c := a.ctx
  let blank : CurUnit := { core := core, st := st, pc := 0, len := 0, iw := IW.blank, inLoop := false, cap := none }
  match s.access c .fetch false va n with
  | (s, .error (f, fa)) =>
    let s := s.updAg core st (fun a => { a with loading := true, pc := 0 })
    let s := { s with cu := blank }
    if f.poison then s.trap ⟨.umem, 4, f.second, BitVec.ofNat 64 (f.depth * 16), 0, none, false, some 0⟩
    else s.trap ⟨.xlate, faultWord .fetch f, fa, f.second, 0, none, false, some 0⟩
  | (s, .ok ps) =>
    match s.firstPsn ps with
    | some p =>
      ({ s.updAg core st (fun a => { a with loading := true, pc := 0 }) with cu := blank }).trap
        ⟨.umem, 3, p.va, 0, 0, none, false, some 0⟩
    | none =>
      let bs := s.load ps
      let s := s.l2Pieces ps false
      let base := (st - 4) * 0x8000
      let s := s.updCore core (fun k =>
        { k with imem := ((List.range n).foldl (fun m i => SMap.set 0 m (base + i) (bs.getD i 0)) k.imem) })
      s.setAg core st { Agent.blank with run := .running, item := a.item, ready := s.cycle }

/-- One turn of an agent up to its instruction's meaning. -/
def State.issue (s : State) (core st : Nat) : Issued :=
  let s := { s with fresh := s.fresh + 1, cu := { s.cu with core := core } }
  let a := s.ag core st
  if a.loading then .done (s.loadImage core st)
  else
    match a.replay with
    | cap :: t =>
      let s := s.setAg core st { a with replay := t, brkArm := none }
      let cu : CurUnit := { core := core, st := st, pc := cap.uaddr, len := iwLen cap.iw, iw := cap.iw, inLoop := a.loop.isSome, cap := some cap }
      ({ s with cu := cu }).check
    | [] =>
      let s := s.landXfer core st
      let a := s.ag core st
      let go (s : State) (pc : W64) (len : Nat) (iw : IW) (inLoop : Bool) : Issued :=
        let cu : CurUnit := { core := core, st := st, pc := pc, len := len, iw := iw, inLoop := inLoop, cap := none }
        let s := { s with cu := cu }
        match s.breakAt a pc with
        | some k =>
          if inLoop && !a.allLanded s.cycle then .done (s.updMe (fun a => { a with ready := s.cycle + 1 }))
          else
          let s := if s.tracing a.ctx then s.trace 4 a.ctx core st (a.spot pc (stageOf iw.u)) (BitVec.ofNat 64 k) 18 else s
          let s := s.updMe (fun a => { a with brkArm := some k })
          .done (s.trap ⟨.brk, 3, BitVec.ofNat 64 k, 0, pc, none, !inLoop, if inLoop then some pc else none⟩)
        | none =>
          let s := s.updMe (fun a => { a with brkArm := none, xsrc := none })
          ({ s with cu := cu }).check
      match a.loop with
      | some l =>
        match l.body[l.idx]? with
        | some x => go s x.pc x.len x.iw true
        | none => .done s
      | none =>
        let pc := a.pc
        let blank : CurUnit := { core := core, st := st, pc := pc, len := 0, iw := IW.blank, inLoop := false, cap := none }
        let s := { s with cu := blank }
        match s.fetch core st pc with
        | (s, .error (.xlate f)) =>
          if f.poison then .done (s.fetchTrap .umem 4 f.second (BitVec.ofNat 64 (f.depth * 16)) pc)
          else .done (s.fetchTrap .xlate (faultWord .fetch f) pc f.second pc)
        | (s, .error .poison) => .done (s.fetchTrap .umem 3 (BitVec.ofNat 64 (pc.toNat / 64 * 64)) 0 pc)
        | (s, .error .store) => .done (s.fetchTrap .illegal 0 0 0 pc)
        | (s, .ok .orphan) => .done (s.fetchTrap .orphan 0 0 0 pc)
        | (s, .ok .mid) =>
          .done (({ s with cu := { blank with iw := { IW.blank with poison := some .midword } } }).fetchTrap .illegal 0 0 0 pc)
        | (s, .ok (.whole x)) => go s pc x.len x.iw false

/-- Whether an access holds its agent's next issue: a load from scratchpad until its bank has served it (11 R310), a vector load from
scratchpad once its bound has passed (08 R234). -/
def Pend.blocks (p : Pend) (now : Nat) : Bool :=
  (match p.kind with | .load _ => true | _ => false) && p.pieces.any (·.sp) && (p.size != 0 || p.born + 72 ≤ now)

/-- Whether an item waits for the sidecar images that its core loads first (06 R151). -/
def State.awaitsImages (s : State) (a : Agent) : Bool :=
  match a.item with
  | some i => !a.loading && !i.handler &&
      s.agents.any (fun e => e.2.loading && (match e.2.item with | some j => j.launch == i.launch && j.index == i.index | none => false))
  | none => false

/-- Whether an agent may issue: running, not waiting, its context running and in its window, the device up, its core's sidecar images loaded. -/
def State.canIssue (s : State) (core : Nat) (a : Agent) : Bool :=
  a.run == .running && a.wait == .none && a.item.isSome && s.dev.boot == .up && s.runs a.ctx && s.coreLets a.ctx core && !a.pend.any (·.blocks s.cycle) && !s.awaitsImages a

/-- Whether this cycle lets agents issue: under the throttle alternate cycles only (21 R470). -/
def State.issueCycle (s : State) : Bool := !s.dev.throttle || s.cycle % 2 == 0

/-- Whether an agent is ready to issue in this cycle (08 R233). -/
def State.readyNow (s : State) (core : Nat) (a : Agent) : Bool := s.canIssue core a && a.ready ≤ s.cycle && s.issueCycle

/-- What the units of one cycle take in the order of their slots: a parking place (02 R73), an entry of a data queue (06 R152), a format word
(12 R349), token counts (04 R118); and a hardware semaphore, which is served round robin (17 R437). -/
inductive Rivalry where
  | park
  | pop (q : Nat)
  | push (half : Nat)
  | matrix (half : Nat)
  | tokens (ts : List Nat)
  | sem (n : Nat)
  | none
  deriving DecidableEq, Repr

/-- Token registers that a TOK.WAIT names. -/
def waitToks (u : U) : List Nat := [u.a.toNat, u.b.toNat, u.c.toNat].filter (· != 63)

/-- The semaphore that a CSR write names, if it names one (13 R369). -/
def semRivalry (u : U) : Rivalry :=
  let n := u.imm.toNat % 65536
  if 0x060 ≤ n ∧ n < 0x080 then .sem (n - 0x060) else .none

/-- What an instruction takes in slot order. -/
def rivalry (i : Instr) : Rivalry :=
  match i with
  | .vspill _ => .park
  | .vspillX _ => .park
  | .qPop u => .pop u.b.toNat
  | .qPopp u => .pop u.b.toNat
  | .fmtPush u => .push u.mi.toNat
  | .mxMma u => .matrix u.mi.toNat
  | .mxMmas u => .matrix u.mi.toNat
  | .mxZero u => .matrix u.mi.toNat
  | .tokWait u => .tokens (waitToks u)
  | .csrWr u => semRivalry u
  | .csrSwap u => semRivalry u
  | .hsemAcquire u => semRivalry u
  | .hsemRelease u => semRivalry u
  | _ => .none

/-- Whether a unit comes after another agent's unit of the same cycle and core: after a lower slot's (`lower`) that takes the same, and a matrix
unit after every push to its format queue. -/
def Rivalry.after (x y : Rivalry) (lower : Bool) : Bool :=
  match x, y with
  | .park, .park => lower
  | .pop q, .pop r => lower && q == r
  | .matrix h, .matrix k => lower && h == k
  | .matrix h, .push k => h == k
  | .tokens l, .tokens m => lower && l.any m.contains
  | _, _ => false

/-- What an agent's next unit, if it runs in this cycle, takes in slot order. -/
def State.nextRivalry (s : State) (core st : Nat) : Rivalry :=
  match s.issue core st with
  | .run i _ t => if governs t.cu.iw && !t.lane0 t.cu.iw.u then .none else rivalry i
  | .done _ => .none

/-- The requester of a turn at a semaphore, where the turn makes a request of it: 1 HP0, 2 HP1, 3 the device (17 R437). -/
def State.semAsker (s : State) (n : Nat) (t : Turn) : Option Nat :=
  match t with
  | .event (.semAcq p k) => if k = n then some (p + 1) else none
  | .event (.semRel p k _) => if k = n then some (p + 1) else none
  | .agent core st => if s.readyNow core (s.ag core st) && s.nextRivalry core st == .sem n then some 3 else none
  | _ => none

/-- Whether the agenda names in this cycle a request of a semaphore that the round robin serves before a requester's (17 R437). -/
def State.semAhead (s : State) (n r : Nat) : Bool :=
  let last := SMap.get 0 s.dev.hsemLast n
  s.thisCycle.any (fun t => match s.semAsker n t with | some q => decide (q ≠ r ∧ (q + 2 - last) % 3 < (r + 2 - last) % 3) | none => false)

/-- The host's requests of semaphores that the agenda names in this cycle. -/
def State.semTurns (s : State) : List Turn :=
  s.thisCycle.filter (fun t => match t with | .event (.semAcq _ _) => true | .event (.semRel _ _ _) => true | _ => false)

/-- Whether an agent's next unit is a request of a semaphore that is not yet its turn. -/
def State.semWaits (s : State) (core st : Nat) : Bool :=
  !s.semTurns.isEmpty && (match s.nextRivalry core st with | .sem n => s.semAhead n 3 | _ => false)

/-- A semaphore's request served: its requester becomes the last (17 R437). -/
def State.semServed (s : State) (n r : Nat) : State := { s with dev := { s.dev with hsemLast := SMap.set 0 s.dev.hsemLast n r } }

/-- Whether an agent's next unit comes after that of another agent of its core in this cycle, or after a host's request of its semaphore. -/
def State.givesWay (s : State) (core st : Nat) : Bool :=
  s.semWaits core st ||
  let others := (List.range 6).filter (fun k => k != st && s.readyNow core (s.ag core k))
  if others.isEmpty then false
  else match s.nextRivalry core st with
    | .none => false
    | x => others.any (fun k => x.after (s.nextRivalry core k) (k < st))

/-- The first register-file entry with an uncorrectable error that the unit being issued reads, as UREG's word (14 R375, R395). -/
def State.badRead (s : State) : Option W64 :=
  let a := s.me
  let k := s.core s.cu.core
  if a.bad.isEmpty && k.bad.isEmpty then none
  else
    let iw := s.cu.iw
    let u := iw.u
    let mj := iw.major.toNat
    let mi := u.mi.toNat
    let regs := (s.unitRegs.1.filter (fun r => !r.wired)).map RegRef.file
    let skip := governs iw && !s.lane0 u
    let toks : List Nat := if iw.w64 || mj != 0x0C then [] else if mi = 2 then [u.a.toNat, u.b.toNat, u.c.toNat].filter (· < 32) else if mi = 3 then [u.b.toNat] else []
    let here := (if !iw.w64 && mj == 9 && mi == 2 then [(8, 0)] else []) ++ (if s.cu.inLoop then [(9, 0)] else [])
    let there := toks.map (fun t => (4, t)) ++ (if !iw.w64 && mj == 0x0D && mi != 0 then [(5, u.b.toNat)] else [])
      ++ (if iw.w64 && 0x81 ≤ mj && mj ≤ 0x83 then [(6, mi)] else [])
    match (regs ++ here).filter a.bad.contains ++ (if skip then [] else there).filter k.bad.contains with
    | (f, i) :: _ => some (BitVec.ofNat 64 (f * 256 + i))
    | [] => none

/-- Causes that a unit reports before UREG (14 R376). -/
def beforeUreg : List Nat := [1, 2, 3, 4, 5, 6, 12, 13, 14, 15]

/-- A unit that has issued, neither held nor stopped, counted (16 R429, event 2). -/
def State.countIssue (s : State) (c core st : Nat) : State :=
  if s.cu.held then s
  else match (s.ag core st).run with
    | .faulted _ => s
    | _ => s.count c core st 2 1

/-- An early read under ISSDIAG.EARLY (08 R237, 16 R428): the last of the causes, so it is taken only where the unit itself would
raise nothing, or a non-uniform predicate, which it has read early (09 R278); and before it an error in a register file, unless an earlier cause stands (14 R376, R395). -/
def State.settle (early : Bool) (before : State) (o : Out) : Out :=
  let core := before.cu.core
  let st := before.cu.st
  match o, before.badRead with
  | .next t, some w =>
    (match (t.ag core st).run with
     | .faulted c => if beforeUreg.contains c then .next t else .next (before.raise .ureg w 0 0)
     | _ => .next (before.raise .ureg w 0 0))
  | .next t, none =>
    if early then
      match (t.ag core st).run with
      | .faulted c => if c = Cause.brk.code ∨ c = Cause.nonUnif.code then .next (before.raise .brk 2 0 0) else .next t
      | _ => .next (before.raise .brk 2 0 0)
    else .next ((t.countIssue before.me.ctx core st).loopEnd core st)
  | r, _ => r

end Sys2Proof.Machine
end

