-- ==== Sys2Proof/Machine/Control.lean ====
section
/-! DEFINITION. Branches, calls, returns, hardware loops, halts, breakpoints and marks (09 R261-R277). -/

namespace Sys2Proof.Machine

/-- Loop level of a target: bits 1:0 cleared (09 R261). -/
def alignTarget (t : W64) : W64 := t &&& ~~~ (3 : W64)

/-- BR.PREP, 32-bit form (09 R261): unit address plus four times the offset; the hint has no effect of its own (R262). -/
def execBrPrep (u : U) (s : State) : Out :=
  .next ((s.wrBt u.a.toNat (alignTarget (s.cu.pc + (immS u <<< 2))) 2).fin u)

/-- BR.PREP, form Y (09 R261). -/
def execBrPrepX (u : U) (s : State) : Out :=
  let base := if u.b = 0 then s.cu.pc else s.sB u
  .next ((s.wrBt u.a.toNat (alignTarget (base + immS u)) 2).fin u)

/-- Whether a predicate holds one value in every lane. -/
def isUniform (p : Lanes) : Bool := p == 0 || p == BitVec.allOnes 1024

/-- A transfer begun with n delay slots (09 R263, R266): with none it takes place at once. -/
def State.beginXfer (s : State) (u : U) (tgt : W64) (taken : Bool) (n : Nat) : State :=
  let pc := s.nextPc
  if n = 0 then
    (s.updMe (fun a => { a with pc := if taken then tgt else pc, xsrc := if taken then some s.cu.pc else none })).paced u.g.toNat 0
  else (s.updMe (fun a => { a with xfer := some ⟨tgt, taken, n, s.cu.pc⟩, pc := pc })).paced u.g.toNat 0

/-- BR.GO (09 R263). -/
def execBrGo (u : U) (s : State) : Out :=
  let p := s.rdP u.a.toNat
  if !isUniform p then .next (s.raise .nonUnif 0 0 0)
  else .next (s.beginXfer u (s.rdBt u.b.toNat) (p != 0) u.c.toNat)

/-- Address of the unit after n delay slots that follow an address, found by fetching them (09 R268). -/
def State.afterSlots (s : State) : Nat → W64 → State × Except (FetchStop × W64) W64
  | 0, pc => (s, .ok pc)
  | n + 1, pc =>
    match s.fetch s.cu.core s.cu.st pc with
    | (s, .error e) => (s, .error (e, pc))
    | (s, .ok (.whole x)) => s.afterSlots n (pc + BitVec.ofNat 64 (4 * x.len))
    | (s, .ok _) => s.afterSlots n (pc + 4)

/-- How many return addresses an agent holds (09 R270). -/
def Ras.count (r : Ras) : Nat := r.chip.length + r.spilled

/-- Entries in the newest block of a chain of so many spilled entries (09 R270): 511 a block. -/
def rasFill (spilled : Nat) : Nat := if spilled = 0 then 0 else (spilled - 1) % 511 + 1

/-- What stops a return-address spill. -/
inductive RasStop where
  | quota
  | xlate (f : XFail) (va : W64)
  | psn (va : W64)
  deriving DecidableEq, Repr

/-- Whether moving one more return address to the spill chain needs a new block (09 R270). -/
def Ras.needsBlock (r : Ras) : Bool := r.spilled == 0 || rasFill r.spilled == 511

/-- One return address moved to the spill chain (09 R270): a new block takes all ones in entry 511, and the block before it
names it there. -/
def State.rasSpill (s : State) (core st : Nat) (v : W64) : State × Except RasStop Unit :=
  let a := s.ag core st
  let c := a.ctx
  let r := a.ras
  if r.needsBlock then
    match s.freeBlock c with
    | none => (s, .error .quota)
    | some b =>
      let va := s.blockVa c b
      match s.spillAll c ([(va + 4088, toBytes 8 (2 ^ 64 - 1)), (va, toBytes 8 v.toNat)]
          ++ (r.blocks.take 1).map (fun p => (s.blockVa c p + 4088, toBytes 8 b))) with
      | (s, .error (f, x)) => (s, .error (.xlate f x))
      | (s, .ok _) =>
        let s := (s.takeBlock c b).count c core st 0xD 1
        (s.updAg core st (fun a => { a with ras := { a.ras with spilled := r.spilled + 1, blocks := b :: r.blocks } }), .ok ())
  else
    match s.spillWrite c (s.blockVa c (r.blocks.headD 0) + BitVec.ofNat 64 (8 * rasFill r.spilled)) (toBytes 8 v.toNat) with
    | (s, .error (f, x)) => (s, .error (.xlate f x))
    | (s, .ok _) => (s.updAg core st (fun a => { a with ras := { a.ras with spilled := r.spilled + 1 } }), .ok ())

/-- The newest spilled return address taken back (09 R270); an emptied block returns to the pool, and entry 511 of the block before it,
now the chain's last, takes all ones. -/
def State.rasFillBack (s : State) (core st : Nat) : State × Except RasStop W64 :=
  let a := s.ag core st
  let c := a.ctx
  let r := a.ras
  let n := rasFill r.spilled
  let b := r.blocks.headD 0
  match s.spillRead c (s.blockVa c b + BitVec.ofNat 64 (8 * (n - 1))) 8 with
  | (s, .error (.xlate f x)) => (s, .error (.xlate f x))
  | (s, .error (.psn x)) => (s, .error (.psn x))
  | (s, .ok bs) =>
    let v := BitVec.ofNat 64 (ofBytes bs)
    if n = 1 then
      match s.spillAll c (((r.blocks.drop 1).take 1).map (fun p => (s.blockVa c p + 4088, toBytes 8 (2 ^ 64 - 1)))) with
      | (s, .error (f, x)) => (s, .error (.xlate f x))
      | (s, .ok _) =>
        ((s.dropBlock c b).updAg core st (fun a => { a with ras := { a.ras with spilled := r.spilled - 1, blocks := r.blocks.drop 1 } }), .ok v)
    else (s.updAg core st (fun a => { a with ras := { a.ras with spilled := r.spilled - 1 } }), .ok v)

/-- The fault of a return-address access, at the unit that caused it (09 R270). -/
def State.rasFault (s : State) (acc : Acc) (e : RasStop) : State :=
  match e with
  | .quota => s.spillQ
  | .xlate f va => s.raiseX acc f va
  | .psn va => s.raise .umem 0 va 0

/-- Whether a CALL of the issuing agent meets the limits of the return-address store (09 R270). -/
def State.rasLimit (s : State) : Bool :=
  let r := s.me.ras
  65535 ≤ r.count || (16 ≤ r.chip.length && r.needsBlock && (s.freeBlock s.myCtx).isNone)

/-- The fault of a CALL whose delay slots cannot be fetched (09 R268). -/
def State.slotFault (s : State) (e : FetchStop) (pc : W64) : State :=
  let s := { s with cu := { s.cu with iw := { s.cu.iw with poison := none } } }
  match e with
  | .xlate f =>
    if f.poison then s.trap ⟨.umem, 4, f.second, BitVec.ofNat 64 (f.depth * 16), pc, some s.cu.pc, false, some s.cu.pc⟩
    else s.trap ⟨.xlate, faultWord .fetch f, pc, f.second, pc, some s.cu.pc, false, some s.cu.pc⟩
  | .poison => s.trap ⟨.umem, 3, BitVec.ofNat 64 (pc.toNat / 64 * 64), 0, pc, some s.cu.pc, false, some s.cu.pc⟩
  | .store => s.trap ⟨.illegal, 0, 0, 0, pc, some s.cu.pc, false, some s.cu.pc⟩

/-- CALL (09 R268, R270): the return address pushed, then a taken transfer. SPILLQ comes before XLATE and UMEM and after ILLEGAL
(14 R376). -/
def State.call (s : State) (u : U) (tgt : W64) (n : Nat) : State :=
  match s.afterSlots n s.nextPc with
  | (s, .error (e, pc)) => if s.rasLimit && (match e with | .store => false | _ => true) then s.spillQ else s.slotFault e pc
  | (s, .ok ret) =>
    if s.rasLimit then s.spillQ
    else
      match (if s.me.ras.chip.length < 16 then (s, Except.ok ()) else s.rasSpill s.cu.core s.cu.st (s.me.ras.chip.getD 15 0)) with
      | (s, .error e) => s.rasFault .write e
      | (s, .ok _) => (s.updMe (fun a => { a with ras := { a.ras with chip := (ret :: a.ras.chip).take 16 } })).beginXfer u tgt true n

/-- CALL, register form (09 R268). -/
def execCall (u : U) (s : State) : Out := .next (s.call u (s.rdBt u.a.toNat) u.b.toNat)

/-- CALL, form Y (09 R268). -/
def execCallX (u : U) (s : State) : Out :=
  .next (s.call u ((if u.b = 0 then s.cu.pc else s.sB u) + immS u) u.a.toNat)

/-- RET (09 R269, R270). -/
def execRet (u : U) (s : State) : Out :=
  let r := s.me.ras
  match r.chip with
  | t :: rest => .next ((s.updMe (fun a => { a with ras := { a.ras with chip := rest } })).beginXfer u t true u.a.toNat)
  | [] =>
    if r.spilled = 0 then .next (s.raise .retEmpty 0 0 0)
    else
      match s.rasFillBack s.cu.core s.cu.st with
      | (s, .error e) => .next (s.rasFault .read e)
      | (s, .ok t) => .next (s.beginXfer u t true u.a.toNat)

/-- A loop descriptor is legal (06 R167). -/
def loopOk (d : List W64) : Bool :=
  let w := d.getD 0 0
  bits w 63 56 == 0 && bits w 34 32 == 0 && 1 ≤ loopNl d && loopNl d ≤ 6 && 1 ≤ loopLen d && loopLen d ≤ 256 && loopStages d ≤ 8
    && d.getD 7 0 == 0

/-- The publications that an ordinary read on unchecked or checked memory brings no edge from; the read of a whole aligned line as
one access of the issuing context: bytes, or the fault (09 R271). -/
def State.lineRead (s : State) (acc : RaceAcc) (va : W64) (n : Nat) : State × Except (State → State) (List Byte) :=
  match s.access s.myCtx .read false va n with
  | (s, .error (f, x)) => (s, .error (fun s => s.raiseX .read f x))
  | (s, .ok ps) =>
    let s := s.settleLines (some (agKey s.cu.core s.cu.st)) ps
    match s.firstPsn ps with
    | some p => (s, .error (fun s => s.raise .umem 0 (p.va - BitVec.ofNat 64 (p.a % 64)) 0))
    | none =>
      match s.raceAll s.myCtx s.myRace (s.clockOf s.myRace) acc ps with
      | .error (a, w) => (s, .error (fun s => (s.count s.myCtx s.cu.core s.cu.st 15 1).raise .mmx w a 0))
      | .ok m => ((s.recordMd m).l2Ps s.myCtx s.cu.core s.cu.st ps false, .ok (s.loadBy s.me ps))

/-- LOOP.CFG (09 R271). -/
def execLoopCfg (u : U) (s : State) : Out :=
  let va := s.sA u &&& ~~~ (63 : W64)
  match s.lineRead ⟨0, none⟩ va 64 with
  | (s, .error f) => .next (f s)
  | (s, .ok bs) => .next ((s.updMe (fun a => { a with cfg := some (words64 8 bs) })).fin u)

/-- Units that the capture of a body records as poisoned (06 R166). -/
def loopCap (w64 : Bool) (major minor : Nat) : Bool :=
  match w64 with
  | false => (major == 0x09 && minor ≤ 2) || (major == 0x0A && minor ≤ 1)
  | true => major == 0x21

/-- A captured unit's internal word (06 R166). -/
def captureIw (iw : IW) : IW :=
  if iw.poison.isNone && loopCap iw.w64 iw.major.toNat iw.u.mi.toNat then { iw with poison := some .loopcap } else iw

/-- The next units in sequential order, captured (09 R272). -/
def State.captureBody (s : State) : Nat → W64 → State × Except (FetchStop × W64) (List BodyUnit × W64)
  | 0, pc => (s, .ok ([], pc))
  | n + 1, pc =>
    match s.fetch s.cu.core s.cu.st pc with
    | (s, .error e) => (s, .error (e, pc))
    | (s, .ok (.whole x)) =>
      (match s.captureBody n (pc + BitVec.ofNat 64 (4 * x.len)) with
       | (s, .error e) => (s, .error e)
       | (s, .ok (l, e)) => (s, .ok (⟨pc, x.len, captureIw x.iw⟩ :: l, e)))
    | (s, .ok _) =>
      (match s.captureBody n (pc + 4) with
       | (s, .error e) => (s, .error e)
       | (s, .ok (l, e)) => (s, .ok (⟨pc, 1, { IW.blank with poison := some .midword }⟩ :: l, e)))

/-- LOOP.GO (06 R166-R168, 09 R272). -/
def execLoopGo (u : U) (s0 : State) : Out :=
  match s0.me.loop, s0.me.cfg with
  | none, some d =>
    if !loopOk d then .next s0.illegal
    else
      match s0.captureBody (loopLen d) s0.nextPc with
      | (s, .error (e, at_)) =>
        .next (match e with
          | .xlate f =>
            if f.poison then s.trap ⟨.umem, 4, f.second, BitVec.ofNat 64 (f.depth * 16), at_, none, false, some s.cu.pc⟩
            else s.trap ⟨.xlate, faultWord .fetch f, at_, f.second, at_, none, false, some s.cu.pc⟩
          | .poison => s.trap ⟨.umem, 3, BitVec.ofNat 64 (at_.toNat / 64 * 64), 0, at_, none, false, some s.cu.pc⟩
          | .store => s.trap ⟨.illegal, 0, 0, 0, at_, none, false, some s.cu.pc⟩)
      | (s, .ok (body, after)) =>
        let p := loopP d
        let start := match body with | x :: _ => x.pc | [] => after
        .next ((s.updMe (fun a =>
          { a with loop := some ⟨[0, 0, 0, 0, 0, 0], 0, p, false, body, 0, after⟩, pc := start, xfer := none,
                   regs := { a.regs with p := stagePreds d 0 p a.regs.p } })).paced u.g.toNat 0)
  | _, _ => .next s0.illegal

/-- LOOP.BRK (09 R273). -/
def execLoopBrk (u : U) (s : State) : Out :=
  match s.me.loop with
  | none => .next s.illegal
  | some l =>
    let p := s.rdP u.a.toNat
    if !isUniform p then .next (s.raise .nonUnif 0 0 0)
    else if p ≠ 0 ∧ l.n < l.p then
      .next ((s.updMe (fun a => { a with loop := some { l with p := l.n + 1, brk := true } })).fin u)
    else .next (s.fin u)

/-- NOP (09 R274). -/
def execNop (u : U) (s : State) : Out := .next (s.fin u)

/-- NOP.W (09 R274). -/
def execNopW (u : U) (s : State) : Out :=
  .next (if s.cu.cap.isSome then s else (s.advance).paced u.g.toNat u.imm.toNat)

/-- BRK (09 R276): it completes, then raises the breakpoint trap with reason 0. -/
def execBrk (u : U) (s : State) : Out :=
  let s' := s.fin u
  .next (s'.trap ⟨.brk, 0, BitVec.ofNat 64 u.imm.toNat, 0, s.cu.pc, none, false, some s'.me.pc⟩)

/-- A mark record of the issuing agent (09 R277, 16 R425). -/
def State.markRec (s : State) (u : U) (tag : Nat) : State :=
  s.trace 0 s.myCtx s.cu.core s.cu.st (s.me.spot s.cu.pc (stageOf u)) (BitVec.ofNat 64 tag) (s.sA u)

/-- TRACE.MARK, variant S (09 R277). -/
def execTraceMark (u : U) (s : State) : Out := .next ((s.markRec u u.imm.toNat).fin u)

/-- TRACE.MARK, form Y (09 R277). -/
def execTraceMarkX (u : U) (s : State) : Out :=
  governed u s fun s => .next ((s.markRec u u.imm.toNat).fin u)

end Sys2Proof.Machine
end

