-- ==== Sys2Proof/Machine/Park.lean ====
section
/-! DEFINITION. Parked vector registers (02 R45-R52): the places, their order, the spill map, eviction. -/

namespace Sys2Proof.Machine

/-- A park place (02 R45). -/
inductive Park where
  | quarter (col q : Nat)
  | bank (slot reg : Nat)
  | block (b : Nat)
  deriving DecidableEq, Repr

/-- A spill map entry (02 R48). -/
def Park.word : Park → W32
  | .quarter c q => BitVec.ofNat 32 (2 ^ 30 + c * 2 ^ 24 + q * 2 ^ 22)
  | .bank t r => BitVec.ofNat 32 (2 * 2 ^ 30 + t * 2 ^ 20 + r * 2 ^ 16)
  | .block b => BitVec.ofNat 32 (3 * 2 ^ 30 + b)

/-- The place a spill map entry names. -/
def parkOf (w : W32) : Option Park :=
  match bits w 31 30 with
  | 0 => none
  | 1 => some (.quarter (bits w 29 24) (bits w 23 22))
  | 2 => some (.bank (bits w 21 20) (bits w 19 16))
  | _ => some (.block (bits w 15 0))

/-- The registers parked by the threads of a core: slot, register, place. -/
def State.parked (s : State) (core : Nat) : List (Nat × Nat × Park) :=
  (List.range 4).flatMap (fun st => (s.ag core st).spmap.filterMap (fun e => (parkOf e.2).map (fun p => (st, e.1, p))))

/-- Store row of the first element of a quarter (02 R45, 01 R31). -/
def State.quarterRow (s : State) (c core q : Nat) : Nat := (s.accRows c core).1 + q * 1024

/-- The columns that a context declares free at a core (02 R46). -/
def State.accFree (s : State) (c core : Nat) : W64 :=
  if (s.accRows c core).2 = 0 then 0 else SMap.get 0 (s.core core).accfree c

/-- What a choice of a place must not take: columns, quarters a command touches (column and first store row), a slot about to be used,
every bank register. -/
structure Avoid where
  cols : List Nat
  quarters : List (Nat × Nat)
  slot : Option Nat
  banks : Bool
  deriving DecidableEq, Repr

/-- The quarters of a core that hold parked registers, by column and first store row: those of every thread, as contexts that hold a side
together share its rows (15 R399). -/
def State.quartersUsed (s : State) (core : Nat) : List (Nat × Nat) :=
  (s.parked core).filterMap (fun e => match e.2.2 with
    | .quarter k q => some (k, s.quarterRow (s.ag core e.1).ctx core q)
    | _ => none)

/-- The first place available to a context at a core, in the order of 02 R47. -/
def State.choosePark (s : State) (c core : Nat) (x : Avoid) : Option Park :=
  let used := s.parked core
  let free := s.accFree c core
  let nq := (s.accRows c core).2 / 1024
  let taken := s.quartersUsed core ++ x.quarters
  let quarter : Option Park := (List.range 64).findSome? (fun k =>
    if bit free k && !x.cols.contains k then
      ((List.range nq).find? (fun q => !taken.contains (k, s.quarterRow c core q))).map (fun q => Park.quarter k q)
    else none)
  let bank : Option Park := (List.range 4).findSome? (fun t =>
    if (s.ag core t).item.isNone && !x.banks && x.slot != some t && s.holdsSide c core (t / 2) then
      ((List.range 16).find? (fun r => !used.any (fun e => e.2.2 == .bank t r))).map (fun r => Park.bank t r)
    else none)
  match quarter, bank with
  | some p, _ => some p
  | none, some p => some p
  | none, none => (s.freeBlock c).map Park.block

/-- A register written into a place (02 R47). -/
def State.parkWrite (s : State) (c core : Nat) (p : Park) (v : VReg) : State × Except (XFail × W64) Unit :=
  match p with
  | .quarter k q =>
    let r := s.quarterRow c core q
    ((v.lanes.foldl (fun (x : State × Nat) l => (x.1.setAcc core (r + x.2) k l, x.2 + 1)) (s, 0)).1, .ok ())
  | .bank t n =>
    (s.updAg core t (fun a => { a with regs := { a.regs with v := SMap.set (.dense []) a.regs.v n v } }), .ok ())
  | .block b =>
    (match s.spillWrite c (s.blockVa c b) v.bytes with
     | (s, .error f) => (s, .error f)
     | (s, .ok ()) => (s.takeBlock c b, .ok ()))

/-- What a place holds, refilled into a register: a poisoned place raises UMEM (14 R394). -/
inductive FillStop where
  | xlate (f : XFail) (va : W64)
  | psn (space va : W64)
  deriving DecidableEq, Repr

/-- A place read. -/
def State.parkRead (s : State) (c core : Nat) (p : Park) : State × Except FillStop VReg :=
  match p with
  | .quarter k q =>
    let r := s.quarterRow c core q
    match (span r 1024).find? (s.rowPsn core) with
    | some row => (s, .error (.psn 2 (BitVec.ofNat 64 (256 * row))))
    | none => (s, .ok (VReg.of ((span r 1024).map (fun row => s.accAt core row k))))
  | .bank t n => (s, .ok ((s.ag core t).vreg n))
  | .block b =>
    match s.spillRead c (s.blockVa c b) 4096 with
    | (s, .error (.xlate f va)) => (s, .error (.xlate f va))
    | (s, .error (.psn va)) => (s, .error (.psn 0 va))
    | (s, .ok bs) => (s, .ok (VReg.ofBlock bs))

/-- A place freed: a quarter or bank register is cleared to zero, a block returns to the pool (02 R51, R52). -/
def State.parkClear (s : State) (c core : Nat) (p : Park) : State :=
  match p with
  | .quarter k q => (span (s.quarterRow c core q) 1024).foldl (fun s row => s.setAcc core row k 0) s
  | .bank t n => s.updAg core t (fun a => { a with regs := { a.regs with v := SMap.del a.regs.v n } })
  | .block b => s.dropBlock c b

/-- A spill map entry set. -/
def State.setSpmap (s : State) (core st n : Nat) (w : W32) : State :=
  s.updAg core st (fun a => { a with spmap := SMap.set 0 a.spmap n w })

/-- Every place of a thread freed and its spill map cleared (02 R52). -/
def State.clearParked (s : State) (core st : Nat) : State :=
  let a := s.ag core st
  let s := a.spmap.foldl (fun s e => match parkOf e.2 with | some p => s.parkClear a.ctx core p | none => s) s
  s.updAg core st (fun a => { a with spmap := [] })

/-- What an eviction comes to (02 R51). -/
inductive Evicted where
  | ok
  | noBlock
  | xlate (f : XFail) (va : W64)
  deriving DecidableEq, Repr

/-- The rows of lanes of a quarter that carry a poison mark. -/
def State.parkPsn (s : State) (c core : Nat) (p : Park) : List Nat :=
  match p with
  | .quarter _ q => (List.range 1024).filter (fun i => s.rowPsn core (s.quarterRow c core q + i))
  | _ => []

/-- A parked register moved on to the first place then available (02 R51; DESIGN CHOICE, log 70: the order of 02 R47 is searched from its
head again). A poison mark travels with it, into another quarter or into memory: a bank register carries no mark (02 R44), so a marked
register is not moved there (log 70). -/
def State.evictOne (s : State) (core st n : Nat) (p : Park) (x : Avoid) : State × Evicted :=
  let c := (s.ag core st).ctx
  let bad := s.parkPsn c core p
  let v : VReg := match p with
    | .quarter k q => VReg.of ((span (s.quarterRow c core q) 1024).map (fun row => s.accAt core row k))
    | .bank t r => (s.ag core t).vreg r
    | .block _ => .dense []
  match s.choosePark c core (if bad.isEmpty then x else { x with banks := true }) with
  | none => (s, .noBlock)
  | some q =>
    match s.parkWrite c core q v with
    | (t, .error (f, va)) => (t, .xlate f va)
    | (t, .ok ()) =>
      let t := match q with
        | .block b => t.spillMark c (t.blockVa c b) 4096 (bad.map (· / 16))
        | .quarter _ q => bad.foldl (fun (t : State) i => t.setRowPsn core (t.quarterRow c core q + i) true) t
        | .bank _ _ => t
      ((t.parkClear c core p).setSpmap core st n q.word, .ok)

/-- Registers moved on one after another; the first that cannot move stops it (02 R51). -/
def State.evictAll (s : State) (core : Nat) (x : Avoid) : List (Nat × Nat × Park) → State × Evicted
  | [] => (s, .ok)
  | (st, n, p) :: t =>
    match s.evictOne core st n p x with
    | (s, .ok) => s.evictAll core x t
    | r => r

/-- The quarters of a context in given columns (02 R51). -/
def State.quartersIn (s : State) (c core : Nat) (cols : List Nat) : List (Nat × Nat × Park) :=
  (s.parked core).filter (fun e =>
    (s.ag core e.1).ctx == c && (match e.2.2 with | .quarter k _ => cols.contains k | _ => false))

/-- The occupied quarters of a core, whichever context's, that lie on store rows from a row on (02 R51). -/
def State.quartersOn (s : State) (core row nr : Nat) : List (Nat × Nat × Park) :=
  (s.parked core).filter (fun e => match e.2.2 with
    | .quarter _ q => let b := s.quarterRow (s.ag core e.1).ctx core q; row < b + 1024 && b < row + nr
    | _ => false)

/-- The occupied quarters that rows of a context's command touch are evicted (02 R51). -/
def State.evictRows (s : State) (c core row nr : Nat) : State × Evicted :=
  let first := (s.accRows c core).1 + row
  let l := s.quartersOn core first nr
  if l.isEmpty then (s, .ok)
  else
    let qs := (List.range 64).flatMap (fun k => ((List.range 4).filter (fun q => first < (q + 1) * 1024 && q * 1024 < first + nr)).map (fun q => (k, q * 1024)))
    s.evictAll core ⟨[], qs, none, false⟩ l

/-- The bank of a slot about to be used is evicted (02 R51): whether it is empty then. -/
def State.evictBank (s : State) (core slot : Nat) : State × Bool :=
  let l := (s.parked core).filter (fun e => match e.2.2 with | .bank t _ => t == slot | _ => false)
  match s.evictAll core ⟨[], [], some slot, false⟩ l with
  | (s, .ok) => (s, true)
  | (s, _) => (s, false)

/-- A fault of an eviction, raised by the unit that needs it. -/
def State.evictFault (s : State) (e : Evicted) : State :=
  match e with
  | .xlate f va => s.raiseX .write f va
  | _ => s.spillQ

end Sys2Proof.Machine
end

