-- ==== Sys2Proof/Machine/Memory.lean ====
section
/-! DEFINITION. Loads, stores, atomics, fences, tokens, arrival words and data queues (11 R308-R326), with the store path of
04 R104-R106 and the publications of 03 R78, R87. -/

namespace Sys2Proof.Machine

/-- First address of the line a piece lies in, as the agent names it. -/
def Piece.line (p : Piece) : W64 := p.va - BitVec.ofNat 64 (p.a % 64)

/-- SPACE of UMEM for a piece (14 R375). -/
def Piece.space (p : Piece) : W64 := if p.sp then 1 else 0

/-- One bit of the deferral plan. -/
def State.takePlan (s : State) : State × Bool := ({ s with plan := s.plan.drop 1 }, s.plan.headD false)

/-- No read of the issuing agent is outstanding. -/
def State.readsDone (s : State) : Bool := s.me.pend.all (fun p => !p.reads)
/-- Every earlier ordinary store of the issuing agent has been performed at its bank or slice (04 R104). -/
def State.pathClear (s : State) : Bool := s.me.pend.all (fun p => !p.isStore)
/-- Every earlier access of the issuing agent has been performed: reads have returned their values, writes are at their banks and slices
(11 R313, R320). -/
def State.allPerformed (s : State) : Bool := s.me.pend.isEmpty

/-- The pieces of an access by the issuing agent in either space, or its translation or window fault (11 R308). -/
def State.reach (s : State) (sp : Bool) (acc : Acc) (ea : W64) (n : Nat) : State × Except (State → State) (List Piece) :=
  if sp then
    match s.accessSp s.myCtx s.myClu ea n with
    | none => (s, .error (fun s => s.raiseWin acc 8 ea))
    | some ps => (s, .ok ps)
  else
    match s.access s.myCtx acc false ea n with
    | (s, .error (f, va)) => (s, .error (fun s => s.raiseX acc f va))
    | (s, .ok ps) => (s, .ok ps)

/-- A memory-model exception at the unit being issued (03 R91). -/
def State.raiseMmx (s : State) (e : W64 × W64) : State := (s.count s.myCtx s.cu.core s.cu.st 15 1).raise .mmx e.2 e.1 0

/-- The poison and race checks of an access, in the order of 14 R376: the metadata to record, or the fault. -/
def State.screen (s : State) (consume : Bool) (acc : RaceAcc) (ps : List Piece) : Except (State → State) (List (Piece × (W64 × W64))) :=
  match (if consume then s.firstPsn ps else none) with
  | some p => .error (fun s => s.raise .umem p.space p.line 0)
  | none =>
    match s.raceAll s.myCtx s.myRace (s.clockOf s.myRace) acc ps with
    | .error e => .error (fun s => s.raiseMmx e)
    | .ok m => .ok m

/-- Whether two lists of pieces share a byte. -/
def piecesMeet (xs ys : List Piece) : Bool :=
  xs.any (fun p => ys.any (fun q => p.sp == q.sp && p.a < q.a + q.n && q.a < p.a + p.n))

/-- A loaded value (11 R313). -/
def loadValue (sext : Bool) (size : Nat) (bs : List Byte) : W64 :=
  let v := ofBytes bs
  if sext ∧ v.testBit (8 * size - 1) then BitVec.ofInt 64 ((v : Int) - 2 ^ (8 * size)) else BitVec.ofNat 64 v

/-- Elements of size z, one for each set lane in ascending order, placed over the lanes of a register (10 R300). -/
def fillElems (g : Lanes) (ty z : Nat) : Nat → List W32 → List Byte → List W32
  | _, [], _ => []
  | k, o :: os, bs =>
    if g.getLsbD k then fillLane ty (ofBytes (bs.take z)) :: fillElems g ty z (k + 1) os (bs.drop z) else o :: fillElems g ty z (k + 1) os bs

/-- A vector register loaded with the active lanes' elements (10 R300). -/
def State.vldWrite (s : State) (g : Lanes) (n ty : Nat) (bs : List Byte) (l : Nat) : State :=
  s.wrV n (VReg.of (fillElems g ty (elemSize ty) 0 (s.me.vreg n).lanes bs)) l

/-- Publications of the aligned unit of a strong access. -/
def State.pubsOf (s : State) (ps : List Piece) : List Pub := match ps with | p :: _ => s.pubsAt p.sp p.a | [] => []

/-- What a strong read of a scope takes from the publications of the write it reads (03 R78): an acquire joins now those to which an edge
forms; the others, and all for a relaxed read, are kept for a later FENCE. -/
def State.takeEdges (s : State) (acquire : Bool) (scope : Nat) (l : List Pub) : State :=
  let (now, later) := l.partition (fun p => acquire && edgeOk p s.myRace scope)
  let s := now.foldl (fun s p => s.joinPub s.myRace p) s
  if later.isEmpty then s
  else s.updMe (fun a => { a with readPubs := a.readPubs ++ later.filter (fun p => !a.readPubs.contains p) })

/-- What a strong read takes from the write it reads (03 R78). -/
def State.takePubs (s : State) (acquire : Bool) (scope : Nat) (ps : List Piece) : State := s.takeEdges acquire scope (s.pubsOf ps)

/-- A load performed whose bytes have been read (11 R313, R314): poison, race check, publications. -/
def State.loadWith (s : State) (ps : List Piece) (bs : List Byte) (scope : Option Nat) (acquire : Bool) : Except (State → State) (State × List Byte) :=
  match s.screen true ⟨0, scope⟩ ps with
  | .error f => .error f
  | .ok m =>
    let s := (s.recordMd m).l2Ps s.myCtx s.cu.core s.cu.st ps false
    .ok (match scope with | some sc => s.takePubs acquire sc ps | none => s, bs)

/-- A load performed at once (11 R313, R314, 04 R106), from the state that `State.settleLines` leaves. -/
def State.loadNow (s : State) (ps : List Piece) (scope : Option Nat) (acquire : Bool) : Except (State → State) (State × List Byte) :=
  s.loadWith ps (s.loadBy s.me ps) scope acquire

/-- The key of the issuing agent. -/
def State.myKey (s : State) : Nat := agKey s.cu.core s.cu.st

/-- The parts of an ordinary scalar access (11 R309): one for each aligned 8-byte unit. -/
def unitParts (ps : List Piece) : List Piece :=
  ps.flatMap (fun p => (cutLines 8 3 p.a p.n).map (fun e => { p with a := e.1, off := p.off + (e.1 - p.a), n := e.2, va := p.va + BitVec.ofNat 64 (e.1 - p.a) }))

/-- An access of the unit being issued, not served yet (08 R239). -/
def State.newPend (s : State) (kind : PendKind) (dest : Option RegRef) (size : Nat) (scope : Option Nat) (ps : List Piece) : Pend :=
  { id := s.fresh, kind := kind, stage := 0, born := s.cycle, cap := s.captureOf, dest := dest, size := size, sext := false, scope := scope,
    pieces := ps, rest := if size = 0 then ps else unitParts ps, data := [], old := [], pubs := [] }

/-- An access of the issuing agent left unfinished. -/
def State.leave (s : State) (p : Pend) : State := s.updMe (fun a => { a with pend := a.pend ++ [p] })

/-- Whether a read of the issuing agent that shares a byte with given pieces is outstanding: accesses to common bytes keep their order
(03 R80, R81). -/
def State.readMeets (s : State) (ps : List Piece) : Bool := s.me.pend.any (fun p => p.reads && piecesMeet p.pieces ps)
/-- Whether a store of the issuing agent to a byte of given pieces has still to be performed. -/
def State.storeMeets (s : State) (ps : List Piece) : Bool := s.me.pend.any (fun p => p.hidden && piecesMeet p.rest ps)

/-- Whether the machine puts the access being issued off; an access that TRAP.RET executes again is served at once. -/
def State.putsOff (s : State) : State × Bool := if s.cu.cap.isSome then (s, false) else s.takePlan

/-- A scalar load (11 R309-R314): ordinary or strong, in either space. It is served at once or later; behind an outstanding read of a common
byte, later. -/
def State.loadUnit (s : State) (u : U) (sp : Bool) (ea : W64) (size : Nat) (sext : Bool) (scope : Option Nat) (acquire : Bool) : Out :=
  let ea := if scope.isSome then ea &&& ~~~ BitVec.ofNat 64 (size - 1) else ea
  match s.reach sp .read ea size with
  | (s, .error f) => .next (f s)
  | (s, .ok ps) =>
    let d := u.a.toNat
    let (s, later) := s.putsOff
    if later ∨ s.readMeets ps then
      let p := s.newPend (.load acquire) (if d = 0 ∨ sp then none else some (.s d)) size scope ps
      .next ((s.leave { p with sext := sext, data := List.replicate size 0 }).fin u)
    else
      let s := s.settleLines (some s.myKey) ps
      match s.loadNow ps scope acquire with
      | .error f => .next (f s)
      | .ok (s, bs) => .next ((s.wrS d (loadValue sext size bs) (if sp then 6 else 1)).fin u)

/-- The publications that a strong write carries: the last FENCE's, and its own if it releases (03 R78). -/
def State.writePubs (s : State) (own : List Pub) : List Pub :=
  match s.me.fencePub with
  | some f => f :: own
  | none => own

/-- A write performed for every ordinary reader (11 R313, R314): metadata, bytes, publications of a strong one. -/
def State.writeNow (s : State) (ps : List Piece) (m : List (Piece × (W64 × W64))) (data : List Byte) (scope : Option Nat) (pubs : List Pub) : State :=
  let s := ((s.recordMd m).storeAs s.myCtx ps data).l2Ps s.myCtx s.cu.core s.cu.st ps true
  match scope, ps with
  | some _, p :: _ => s.setPubs p.sp p.a pubs
  | _, _ => s

/-- A store of the unit being issued, checked (04 R106): its metadata recorded, its data performed at once, when engines may see it later
than others (04 R104), or later; behind a hidden store to a common byte, later. -/
def State.sendStore (s : State) (m : List (Piece × (W64 × W64))) (p : Pend) : State :=
  let (s, later) := s.putsOff
  if p.pieces ≠ [] ∧ (later ∨ s.storeMeets p.pieces) then (s.recordMd m).leave { p with stage := 1 }
  else
    let (s, shadow) := if p.scope.isSome then (s, false) else s.putsOff
    let olds := p.pieces.map (fun q => { p with stage := 2, pieces := [q], rest := [], old := s.rdBytes q.sp q.a q.n })
    let s := s.writeNow p.pieces m p.data p.scope p.pubs
    if shadow then olds.foldl State.leave s else s

/-- A store, scalar or vector, ordinary or strong relaxed (11 R311-R314, 10 R300, 04 R106): it leaves the agent, checked, at once or later;
later behind an outstanding read (03 R81) and behind a store that has not left. -/
def State.storeParts (s : State) (u : U) (ps : List Piece) (data : List Byte) (size : Nat) (scope : Option Nat) : Out :=
  let p := { s.newPend .store none size scope ps with data := data, pubs := if scope.isSome then s.writePubs [] else [] }
  let (s, later) := s.putsOff
  if ps ≠ [] ∧ (later ∨ !s.readsDone ∨ s.me.pend.any (fun p => p.isStore && p.stage == 0)) then .next ((s.leave p).fin u)
  else
    match s.screen false ⟨1, scope⟩ ps with
    | .error f => .next (f s)
    | .ok m => .next ((s.sendStore m p).fin u)

/-- A scalar store, ordinary or strong relaxed (11 R311-R314). -/
def State.storeUnit (s : State) (u : U) (sp : Bool) (ea : W64) (size : Nat) (scope : Option Nat) : Out :=
  let ea := if scope.isSome then ea &&& ~~~ BitVec.ofNat 64 (size - 1) else ea
  match s.reach sp .write ea size with
  | (s, .error f) => .next (f s)
  | (s, .ok ps) => s.storeParts u ps (toBytes size (s.sA u).toNat) size scope

/-- Whether so many epoch advances, or a device-scope release, would pass the limit (03 R92). -/
def State.exhausted (s : State) (n : Nat) (scope : Nat) : Bool :=
  maxEpoch < (s.rs s.myRace).epoch + n || (3 ≤ scope && s.cepochFull s.myRace)

/-- A release of a scope by the current agent (03 R87, R88, 04 R104). -/
def State.release (s : State) (scope : Nat) : State × Pub := s.publishClose s.myRace scope

/-- The fault of a release's own access: at .clu or wider the closing of the path has completed, and nothing is published (11 R327). -/
def State.closedFault (s : State) (scope : Nat) (f : State → State) : State :=
  f (if 1 ≤ scope ∧ !s.exhausted 1 0 then s.closePath s.myRace else s)

/-- Signed or unsigned comparison of n-byte values (11 R316). -/
def amoLess (uns : Bool) (n x y : Nat) : Bool :=
  if uns then x < y
  else (BitVec.ofNat (8 * n) x).slt (BitVec.ofNat (8 * n) y)

/-- The new value and the flags of atomic k on the old value x with the operand y and the expected value e (11 R316, R318); none for a
failed compare. -/
def amoVal (u : U) (k e x y : Nat) : Option (Nat × W64) :=
  let n := amoSize u
  let w (v : Nat) : Option (Nat × W64) := some (v % 2 ^ (8 * n), 0)
  match k with
  | 0 => w (x + y)
  | 1 => w (if amoLess (amoUns u) n y x then y else x)
  | 2 => w (if amoLess (amoUns u) n x y then y else x)
  | 3 => w (x &&& y)
  | 4 => w (x ||| y)
  | 5 => w (x ^^^ y)
  | 6 => w y
  | 7 => if x = e then some (y, 0) else none
  | _ => some (sliOp 3 0 x y)

/-- Bound of an atomic's result: SPLD in scratchpad, else interlocked (08 R234). -/
def amoLat (u : U) : Nat := if amoSp u then 6 else 1

/-- Atomic k of the unit being issued, served at the place that holds its line (11 R317): the state after it, or the state in which it has
faulted. `own` is the publication of a release that its issue has made. -/
def State.amoNow (s : State) (u : U) (k : Nat) (ps : List Piece) (own : Option Pub) : Except State State :=
  let s := s.settleLines (some s.myKey) ps
  let sc := amoScope u
  let n := amoSize u
  let x := ofBytes (s.load ps)
  let r := amoVal u k ((s.sE u).toNat % 2 ^ (8 * n)) x ((s.sC u).toNat % 2 ^ (8 * n))
  let rel := amoRel u
  let key := s.myRace
  -- the access belongs to the epoch in which it was issued
  let then_ := match own with
    | some p => s.setRs key { s.rs key with epoch := SMap.get 0 p.clk.vc (keyEnt key) }
    | none => s
  match then_.screen true ⟨if r.isSome then 2 else 0, some sc⟩ ps with
  | .error f => .error (if rel && own.isNone then s.closedFault sc f else f s)
  | .ok m =>
    if rel && own.isNone && s.exhausted 1 (if r.isSome then sc else 0) then .error (s.raise .epoch 0 0 0)
    else
      let before := s.pubsOf ps
      let s := ((s.recordMd m).takePubs (amoAcq u) sc ps).l2Ps s.myCtx s.cu.core s.cu.st ps r.isSome
      let (s, pubs) : State × List Pub := match rel, own, r.isSome with
        | true, none, true => (let (s, p) := s.release sc; (s, [p]))
        | true, none, false => (if 1 ≤ sc then s.closePath key else s, [])
        | true, some p, true => (s, [p])
        | _, _, _ => (s, [])
      let s := match r with
        | some (v, fl) =>
          let s := s.storeAs s.myCtx ps (toBytes n v)
          let s := match ps with | p :: _ => s.setPubs p.sp p.a (before ++ s.writePubs pubs) | [] => s
          if fl = 0 then s else s.orVstat fl (amoLat u)
        | none => s
      .ok (s.wrS u.a.toNat (BitVec.ofNat 64 x) (amoLat u))

/-- A vector register refilled from the place its map entry names, which is freed (02 R48, R50, 10 R302). -/
def State.vfillNow (s : State) (u : U) : Except State State :=
  let c := s.myCtx
  let core := s.cu.core
  let n := u.a.toNat
  match parkOf (SMap.get 0 s.me.spmap n) with
  | none => .ok s
  | some p =>
    match s.parkRead c core p with
    | (s, .error (.xlate f va)) => .error (s.raiseX .read f va)
    | (s, .error (.psn sp va)) => .error (s.raise .umem sp va 0)
    | (s, .ok v) => .ok (((s.parkClear c core p).setSpmap core s.cu.st n 0).wrV n v 1)

/-- The bytes of a load with those of a part put in. -/
def State.readPart (s : State) (a : Agent) (data : List Byte) (now : List Piece) : List Byte :=
  now.foldl (fun d q => d.take q.off ++ s.loadBy a [q] ++ d.drop (q.off + q.n)) data

/-- The cycles that are left of a bound of l cycles after an access was issued (08 R234). -/
def State.boundLeft (s : State) (born l : Nat) : Nat := max 1 (born + l - s.cycle)

/-- An unfinished access that has still to be served: a load's next part, or the whole of it, read (11 R309, 08 R236); a store checked as it
leaves (04 R106); an atomic performed (11 R317); a register parked or refilled (10 R301, R302). The state after it, or the state in
which it has faulted. -/
def State.perform (s : State) (core st i : Nat) : Except State State :=
  let a := s.ag core st
  match a.pend[i]? with
  | none => .ok s
  | some p =>
    let u := p.cap.iw.u
    let put (s : State) (l : List Pend) : State := s.updAg core st (fun a => { a with pend := a.pend.take i ++ l ++ a.pend.drop (i + 1) })
    let cu : CurUnit := ⟨core, st, p.cap.uaddr, iwLen p.cap.iw, p.cap.iw, false, some p.cap, false⟩
    let mine : Agent := { a with pend := a.pend.take i }
    match p.kind with
    | .load acq =>
      let s := s.settleLines (some (agKey core st)) p.pieces
      if !p.part.2.isEmpty ∧ s.plan.headD false then
        .ok (put { s with plan := s.plan.drop 1 } [{ p with rest := p.part.2, data := s.readPart mine p.data p.part.1 }])
      else
        let s := if p.part.2.isEmpty then s else { s with plan := s.plan.drop 1 }
        let bs := s.readPart mine p.data p.rest
        let s := { put s [] with cu := cu }
        (match s.loadWith p.pieces bs p.scope acq with
         | .error f => .error (f s)
         | .ok (s, bs) =>
           let s := if p.dest.isSome then s else s.updMe (fun a => { a with bounds := a.bounds.filter (fun b => !(b.reg == .v u.a.toNat && b.till == p.born + 72)) })
           .ok (if p.size = 0 then s.vldWrite (p.cap.pred.getD (BitVec.allOnes 1024)) u.a.toNat u.mi.toNat bs (if p.dest.isSome then 1 else s.boundLeft p.born 72)
             else s.wrS u.a.toNat (loadValue p.sext p.size bs) (if p.pieces.any (·.sp) then s.boundLeft p.born 6 else 1)))
    | .store | .arrive =>
      (match { s with cu := cu }.screen false ⟨1, p.scope⟩ p.pieces with
       | .error f => .error (f { put s [] with cu := cu })
       | .ok m => .ok (put (s.recordMd m) [{ p with stage := 1 }]))
    | .amo => { put s [] with cu := cu }.amoNow u u.mi.toNat p.pieces p.pubs.head?
    | .vspill b =>
      let s := { put s [] with cu := cu }
      (match s.spillWrite s.myCtx (s.blockVa s.myCtx b) (s.opV 0 u.a).bytes with
       | (s, .ok _) => .ok (s.count s.myCtx core st 0xD 1)
       | (s, .error (f, va)) => .error (((s.dropBlock s.myCtx b).setSpmap core st u.a.toNat 0).raiseX .write f va))
    | .vfill => { put s [] with cu := cu }.vfillNow u

/-- Accesses of an agent that are issued and not finished (08 R239), by their places in the list, oldest first. -/
def Agent.unfinished (a : Agent) : List Nat :=
  (List.range a.pend.length).filter (fun i => match a.pend[i]? with | some p => p.stage == 0 | none => false)

/-- Blocks that a capture entry needs (14 R380). -/
def Cap.needs (c : Cap) : Nat :=
  (c.ops.filter (fun o => match o with | .vector _ => true | _ => false)).length + (if c.pred.isSome && c.isVector then 1 else 0)

/-- The first younger access that no free block is left to capture, of those behind the access at place i (14 R380). -/
def State.uncaptured (s : State) (core st i : Nat) : Option Nat :=
  let a := s.ag core st
  let need (j : Nat) : Nat := match a.pend[j]? with | some p => p.cap.needs | none => 0
  let free := s.spBlocks a.ctx - (s.ctx a.ctx).blocks.length
  let l := a.unfinished.filter (fun j => i < j)
  ((List.range l.length).find? (fun k => free < need i + ((l.take (k + 1)).map need).sum)).bind (fun k => l[k]?)

/-- Younger accesses that cannot be captured finish before the record is made (14 R380, 08 R239); one that itself faults stays. -/
def State.finishYounger : Nat → State → Nat → Nat → Nat → State
  | 0, s, _, _, _ => s
  | n + 1, s, core, st, i =>
    match s.uncaptured core st i with
    | none => s
    | some j => match s.perform core st j with | .ok t => t.finishYounger n core st i | .error _ => s

/-- An unfinished access served (08 R239): where it faults, older ones finish first, and of them the oldest is served instead; with
none older, its fault is taken, and the younger ones are captured or finish. -/
def State.serveAccess (s : State) (core st i : Nat) : State :=
  match s.perform core st i with
  | .ok t => t
  | .error _ =>
    let first := (s.ag core st).unfinished.headD i
    if first < i then (match s.perform core st first with | .ok t => t | .error t => t)
    else
      let s := s.finishYounger (s.ag core st).pend.length core st i
      match s.perform core st i with | .ok t => t | .error t => t

/-- Whether the access at place i of an agent's list may be served now: accesses to common bytes keep their order (03 R80), a write waits for
earlier reads (03 R81), stores leave in program order (04 R106), and a release waits for every earlier access (11 R317). -/
def Agent.mayServe (a : Agent) (i : Nat) : Bool :=
  match a.pend[i]? with
  | none => false
  | some p =>
    let older := a.pend.take i
    match p.kind, p.stage with
    | .load _, _ => !older.any (fun q => q.reads && piecesMeet q.pieces p.pieces)
    | .amo, _ => !older.any (fun q => q.reads || q.hidden && piecesMeet q.rest p.pieces) && (!amoRel p.cap.iw.u || older.isEmpty)
    | .store, 0 | .arrive, 0 => !older.any (fun q => q.reads || q.isStore && q.stage == 0)
    | .store, 1 | .arrive, 1 => !older.any (fun q => q.hidden && piecesMeet q.rest p.rest)
    | _, _ => true

/-- The access at place i of an agent's list moves on: it is served; of a store that has left, the next part or the whole is performed; a
store that engines did not see reaches its bank or slice (04 R104). -/
def State.moveOn (s : State) (core st i : Nat) : State :=
  match (s.ag core st).pend[i]? with
  | none => s
  | some p =>
    match p.stage with
    | 0 => s.serveAccess core st i
    | 1 =>
      if p.part.2.isEmpty then s.performStore core st i true
      else if s.plan.headD false then { s with plan := s.plan.drop 1 }.performPart core st i true
      else { s with plan := s.plan.drop 1 }.performStore core st i true
    | _ => s.updAg core st (fun a => { a with pend := a.pend.eraseIdx i })

/-- A unit that must find the agent's earlier accesses performed, and whose issue the spec does not hold for them: the oldest is served, and
the unit is met again in the same cycle. -/
def State.drain (s : State) : Out := .next (s.notIssued.moveOn s.cu.core s.cu.st 0)

/-- A unit that stops its stream while older accesses are unfinished (08 R239): the oldest of them is served, and the unit has not
issued. `r` is the state with the unit's own trap. -/
def State.olderFirst (s : State) (core st : Nat) (r : State) : State :=
  match (r.ag core st).run, (s.ag core st).unfinished with
  | .faulted _, i :: _ => s.serveAccess core st i
  | _, _ => r

/-- ST.REL (11 R313): performed after every earlier access; at .clu or wider its issue is held until they are, and it closes the path. -/
def State.releaseStore (s : State) (u : U) (sp : Bool) (ea : W64) (size scope : Nat) : Out :=
  if !s.allPerformed then (if 1 ≤ scope then .next s.hold else s.drain)
  else
    match s.reach sp .write (ea &&& ~~~ BitVec.ofNat 64 (size - 1)) size with
    | (s, .error f) => .next (f s)
    | (s, .ok ps) =>
      match s.screen false ⟨1, some scope⟩ ps with
      | .error f => .next (s.closedFault scope f)
      | .ok m =>
        if s.exhausted 1 scope then .next (s.raise .epoch 0 0 0)
        else
          let p := { s.newPend .store none size (some scope) ps with data := toBytes size (s.sA u).toNat }
          let (t, pub) := s.release scope
          .next ((t.sendStore m { p with pubs := s.writePubs [pub] }).fin u)

/-- Atomic k (11 R316, R317): in scratchpad, and with both orderings, it is performed at issue; else at once or later, its result locked
till then. A release waits for every earlier access, at .clu or wider holding its issue, and publishes and closes at issue. -/
def State.amo (s : State) (u : U) (k : Nat) : Out :=
  let sc := amoScope u
  let n := amoSize u
  if amoRel u && !s.allPerformed then (if 1 ≤ sc then .next s.hold else s.drain)
  else
    match s.reach (amoSp u) .atomic (s.sB u &&& ~~~ BitVec.ofNat 64 (n - 1)) n with
    | (s, .error e) => .next (e s)
    | (s, .ok ps) =>
      let wait := !s.readsDone || s.storeMeets ps
      let late := !amoSp u && !(amoRel u && (amoAcq u || s.exhausted 1 sc))
      let (s, later) := if late then s.putsOff else (s, false)
      if late && s.cu.cap.isNone && (later || wait) then
        let p := s.newPend .amo (if u.a = 0 then none else some (.s u.a.toNat)) n (some sc) ps
        let (s, pubs) : State × List Pub := if amoRel u then (let (t, pub) := s.release sc; (t, [pub])) else (s, [])
        .next ((s.leave { p with pubs := pubs }).fin u)
      else if wait then s.drain
      else
        match s.amoNow u k ps none with
        | .error s => .next s
        | .ok s => .next (s.fin u)

/-- Effective address of a 32-bit or 64-bit form (11 R308). -/
def State.eaI (s : State) (u : U) : W64 := s.sB u + immS u
/-- Effective address of LDX and STX (11 R312). -/
def State.eaX (s : State) (u : U) : W64 := s.sB u + imm16S u

/-- LD, 32-bit forms (11 R311). -/
def execLdB (u : U) (s : State) : Out := s.loadUnit u false (s.eaI u) 1 false none false
def execLdH (u : U) (s : State) : Out := s.loadUnit u false (s.eaI u) 2 false none false
def execLdW (u : U) (s : State) : Out := s.loadUnit u false (s.eaI u) 4 false none false
def execLdD (u : U) (s : State) : Out := s.loadUnit u false (s.eaI u) 8 false none false
def execLdBSp (u : U) (s : State) : Out := s.loadUnit u true (s.eaI u) 1 false none false
def execLdHSp (u : U) (s : State) : Out := s.loadUnit u true (s.eaI u) 2 false none false
def execLdWSp (u : U) (s : State) : Out := s.loadUnit u true (s.eaI u) 4 false none false
def execLdDSp (u : U) (s : State) : Out := s.loadUnit u true (s.eaI u) 8 false none false
/-- ST, 32-bit forms (11 R311). -/
def execStB (u : U) (s : State) : Out := s.storeUnit u false (s.eaI u) 1 none
def execStH (u : U) (s : State) : Out := s.storeUnit u false (s.eaI u) 2 none
def execStW (u : U) (s : State) : Out := s.storeUnit u false (s.eaI u) 4 none
def execStD (u : U) (s : State) : Out := s.storeUnit u false (s.eaI u) 8 none
def execStBSp (u : U) (s : State) : Out := s.storeUnit u true (s.eaI u) 1 none
def execStHSp (u : U) (s : State) : Out := s.storeUnit u true (s.eaI u) 2 none
def execStWSp (u : U) (s : State) : Out := s.storeUnit u true (s.eaI u) 4 none
def execStDSp (u : U) (s : State) : Out := s.storeUnit u true (s.eaI u) 8 none

/-- Fields of LDX and STX (11 R312): size, space, sign extension, scope. -/
def xSize (u : U) : Nat := 2 ^ bits u.c 1 0
def xSp (u : U) : Bool := bit u.c 2
def xSx (u : U) : Bool := bit u.c 3
def xScope (u : U) : Nat := bits u.e 2 0

/-- LDX (11 R312). -/
def execLdx (u : U) (s : State) : Out := governed u s fun s => s.loadUnit u (xSp u) (s.eaX u) (xSize u) (xSx u) none false
/-- LD.ACQ (11 R312). -/
def execLdAcq (u : U) (s : State) : Out := governed u s fun s => s.loadUnit u (xSp u) (s.eaX u) (xSize u) (xSx u) (some (xScope u)) true
/-- LD.RLX (11 R312). -/
def execLdRlx (u : U) (s : State) : Out := governed u s fun s => s.loadUnit u (xSp u) (s.eaX u) (xSize u) (xSx u) (some (xScope u)) false
/-- STX (11 R312). -/
def execStx (u : U) (s : State) : Out := governed u s fun s => s.storeUnit u (xSp u) (s.eaX u) (xSize u) none
/-- ST.RLX (11 R312). -/
def execStRlx (u : U) (s : State) : Out := governed u s fun s => s.storeUnit u (xSp u) (s.eaX u) (xSize u) (some (xScope u))
/-- ST.REL (11 R312). -/
def execStRel (u : U) (s : State) : Out := governed u s fun s => s.releaseStore u (xSp u) (s.eaX u) (xSize u) (xScope u)

/-- The atomics (11 R316). -/
def execAmoAdd (u : U) (s : State) : Out := governed u s fun s => s.amo u 0
def execAmoMin (u : U) (s : State) : Out := governed u s fun s => s.amo u 1
def execAmoMax (u : U) (s : State) : Out := governed u s fun s => s.amo u 2
def execAmoAnd (u : U) (s : State) : Out := governed u s fun s => s.amo u 3
def execAmoOr (u : U) (s : State) : Out := governed u s fun s => s.amo u 4
def execAmoXor (u : U) (s : State) : Out := governed u s fun s => s.amo u 5
def execAmoSwap (u : U) (s : State) : Out := governed u s fun s => s.amo u 6
def execAmoCas (u : U) (s : State) : Out := governed u s fun s => s.amo u 7
def execAmoAddl (u : U) (s : State) : Out := governed u s fun s => s.amo u 8

/-- PREF (11 R322): a line brought into its slice under the write-back policy; a translation that would fail is discarded, and sets no
accessed bit (01 R12). -/
def execPref (u : U) (s : State) : Out :=
  governed u s fun s =>
    match s.translate s.myCtx .read false (s.sA u + imm16S u) with
    | (_, .error _) => .next (s.fin u)
    | (t, .ok x) => .next ((if x.policy = 0 then t.l2Touch x.pa 0 false else t).fin u)

/-- FENCE (11 R320): joins what earlier strong reads took, publishes, closes the path at .clu or wider. -/
def execFence (u : U) (s : State) : Out :=
  let sc := u.a.toNat
  if !s.allPerformed then .next s.hold
  else if s.exhausted 1 sc then .next (s.raise .epoch 0 0 0)
  else
    let (now, rest) := s.me.readPubs.partition (fun p => edgeOk p s.myRace sc)
    let s := now.foldl (fun s p => s.joinPub s.myRace p) s
    let (s, p) := s.release sc
    .next ((s.updMe (fun a => { a with readPubs := rest, fencePub := some p })).fin u)

/-- FENCE.XP (11 R321). -/
def execFenceXp (u : U) (s : State) : Out :=
  if !s.pathClear then .next s.hold
  else if s.exhausted 1 0 then .next (s.raise .epoch 0 0 0)
  else .next ((s.closePath s.myRace).fin u)

/-- Whether the issuing context may name every register of a list (04 R97). -/
def State.toksOk (s : State) (ts : List Nat) : Bool := ts.all (fun t => s.tokOk s.myCtx s.cu.core t)

/-- Tokens consumed and their states joined by an agent (04 R99, R105). -/
def State.consumeBy (s : State) (core st : Nat) (ts : List Nat) : State :=
  let (s, c) := s.consume core ts
  s.joinBoth (s.raceOf core st) c

/-- TOK.TEST (11 R323). -/
def execTokTest (u : U) (s : State) : Out :=
  if !s.toksOk [u.b.toNat] then .next s.priv
  else scalarDone u s (BitVec.ofNat 64 (s.tok s.cu.core u.b.toNat)) 4

/-- TOK.ADD (11 R323, 04 R102). -/
def execTokAdd (u : U) (s : State) : Out :=
  if !s.toksOk [u.a.toNat] then .next s.priv
  else if !s.pathClear then .next s.hold
  else if !s.readsDone then s.drain
  else if s.exhausted 1 0 then .next (s.raise .epoch 0 0 0)
  else
    let c := s.clockOf s.myRace
    .next (((s.closePath s.myRace).produce s.cu.core u.a.toNat c).fin u)

/-- Hidden states of an arrival word (04 R108). -/
def State.arrSt (s : State) (a : Nat) : Clock × Clock × Nat × Nat := (SMap.find? s.mem.arr a).getD (Clock.empty, Clock.empty, 0, 0)
/-- Hidden states of an arrival word stored. -/
def State.setArr (s : State) (a : Nat) (x : Clock × Clock × Nat × Nat) : State :=
  { s with mem := { s.mem with arr := SMap.put s.mem.arr a x } }

/-- The 64-bit word at a scratchpad address. -/
def State.rdSp64 (s : State) (a : Nat) : W64 := BitVec.ofNat 64 (ofBytes (s.rdBytes true a 8))

/-- Fields of an arrival word (04 R107). -/
def arrGen (w : W64) : Nat := bits w 63 56
def arrCount (w : W64) : Nat := bits w 55 28
def arrTarget (w : W64) : Nat := bits w 27 0

/-- arrive of 04 R108: n bytes counted into a word, with the arriving command's state and the scope from the word's cluster to its
agent (03 R90). The scope kept for the waiters' snapshots is that of the generation completed last, while the state joins every
generation's (DESIGN CHOICE, log 172). -/
def State.arrive (s : State) (a n : Nat) (st : Clock) (scope : Nat) : State :=
  let w := s.rdSp64 a
  let (pend, ep, ps, es) := s.arrSt a
  let pend := pend.join st
  let ps := max ps scope
  let c := arrCount w + n
  let put (cnt gen : Nat) : List Byte := toBytes 8 (gen * 2 ^ 56 + cnt % 2 ^ 28 * 2 ^ 28 + arrTarget w)
  if arrTarget w = 0 then (s.wrBytes true a (put (min c 0x0FFFFFFF) (arrGen w))).setArr a (pend, ep, ps, es)
  else if arrTarget w ≤ c then
    (s.wrBytes true a (put (c - arrTarget w) ((arrGen w + 1) % 256))).setArr a (Clock.empty, ep.join pend, 0, ps)
  else (s.wrBytes true a (put c (arrGen w))).setArr a (pend, ep, ps, es)

/-- ARRIVE.SET (11 R324): a strong store at .sys, never checked, which empties the word's hidden states; earlier reads keep their order
before it (03 R81), and so does an access to the word. -/
def execArriveSet (u : U) (s : State) : Out :=
  match s.arrAddr s.myCtx s.myClu (s.sA u) with
  | none => .next (s.raiseWin .write 8 (s.sA u))
  | some a =>
    let ps : List Piece := [⟨true, a, 0, 8, false, s.sA u, 0⟩]
    if !s.readsDone then s.drain
    else
      let p := { s.newPend .arrive none 8 (some 4) ps with data := toBytes 8 (s.sB u).toNat, pubs := s.writePubs [] }
      let (t, later) := s.putsOff
      if later || s.storeMeets ps then .next ((t.leave { p with stage := 1 }).fin u)
      else
        let t := t.writeNow ps [] p.data (some 4) p.pubs
        .next (({ t with mem := { t.mem with arr := SMap.del t.mem.arr a } }).fin u)

/-- The arrival word as an agent reads it: its own stores to it, not yet performed, laid over it (03 R80). -/
def State.arrWord (s : State) (core st a : Nat) : W64 :=
  BitVec.ofNat 64 (ofBytes (s.loadBy (s.ag core st) [⟨true, a, 0, 8, false, 0, 0⟩]))

/-- What the strong read of an arrival word at .sys takes for a later FENCE (03 R78, 11 R325). -/
def State.takeWord (s : State) (a : Nat) : State := s.takeEdges false 4 (s.pubsAt true a)

/-- An episode state joined by a waiter (04 R105, R109, 03 R90). -/
def State.joinEpisode (s : State) (key a : Nat) : State :=
  let (_, ep, _, es) := s.arrSt a
  let s := s.joinBoth key ep
  let r := s.rs key
  s.setRs key { r with bs := (span 1 es).foldl (fun m k => SMap.put m k ep) r.bs }

/-- ARRIVE.WAIT (11 R325). -/
def execArriveWait (u : U) (s : State) : Out :=
  match s.arrAddr s.myCtx s.myClu (s.sA u) with
  | none => .next (s.raiseWin .read 8 (s.sA u))
  | some a =>
    if s.psn true a then .next (s.raise .umem 1 (s.sA u - BitVec.ofNat 64 (a % 64)) 0)
    else
      let g := bits (s.sB u) 7 0
      if arrGen (s.arrWord s.cu.core s.cu.st a) ≠ g then .next (((s.takeWord a).joinEpisode s.myRace a).fin u)
      else .next (s.waitOn (.arrive a g))

/-- Who may push to and pop from a queue (06 R152), by stream number. -/
def mayPush (q st : Nat) : Bool := if q ≤ 1 then st == 4 else if q ≤ 3 then st < 4 else true
def mayPop (q st : Nat) : Bool := if q ≤ 1 then st < 4 else if q = 2 then st == 5 else if q = 3 then st == 4 else true

/-- Side of a data queue (15 R404). -/
def queueSide (q : Nat) : Nat := if q = 2 ∨ q = 6 ∨ q = 7 then 1 else 0

/-- A data queue of a core. -/
def State.dq (s : State) (core q : Nat) : DataQ := (SMap.find? (s.core core).dq q).getD ⟨[], [], 0, 0, 0, []⟩
/-- A data queue stored. -/
def State.setDq (s : State) (core q : Nat) (d : DataQ) : State :=
  s.updCore core (fun c => { c with dq := SMap.put c.dq q d })

/-- What a queue operation comes to. -/
inductive QRes where
  | ok (s : State) (v : W64)
  | wait
  | fault (s : State)

/-- The oldest on-chip entry moved to the ring (06 R153). -/
def State.qSpill (s : State) (c core q : Nat) : QRes :=
  let d := s.dq core q
  let i := d.head + d.count
  let v := d.chip.headD 0
  let o := if d.blocks.isEmpty then c else d.own
  let put (s : State) (blocks : List Nat) : QRes :=
    let b := blocks.getD (i / 512) 0
    match s.spillWrite o (s.blockVa o b + BitVec.ofNat 64 (8 * (i % 512))) (toBytes 8 v.toNat) with
    | (s, .error (f, va)) => .fault (s.raiseX .write f va)
    | (s, .ok _) => .ok (s.setDq core q { d with chip := d.chip.drop 1, blocks := blocks, count := d.count + 1, own := o }) v
  if i < 512 * d.blocks.length then put s d.blocks
  else
    match s.freeBlock o with
    | none => .wait
    | some b => put ((s.takeBlock o b).count c core s.cu.st 0xD 1) (d.blocks ++ [b])

/-- An entry appended (06 R153, 11 R326): published at .core (03 R78); an epoch that would pass its limit is the last fault it can meet
(14 R376). -/
def State.qPushOp (s : State) (c core q : Nat) (v : W64) : QRes :=
  let add (t : State) : QRes :=
    if s.exhausted 1 0 then .fault (t.raise .epoch 0 0 0)
    else
      let (t, p) := t.publish t.myRace 0
      let d := t.dq core q
      .ok (t.setDq core q { d with chip := d.chip ++ [v], pubs := d.pubs ++ [p] }) v
  if (s.dq core q).chip.length < 32 then add s
  else match s.qSpill c core q with
    | .ok t _ => add t
    | r => r

/-- The oldest entry taken or read (06 R153, 11 R326): from the ring while it holds any. -/
def State.qTake (s : State) (core q : Nat) (remove : Bool) : QRes :=
  let d := s.dq core q
  let s0 := s
  let joined (s : State) : State := match d.pubs with
    | p :: _ => if p.ten = keyTen s.myRace then s.joinPub s.myRace p else s
    | [] => s
  if d.count ≠ 0 then
    match s.spillRead d.own (s.blockVa d.own (d.blocks.headD 0) + BitVec.ofNat 64 (8 * d.head)) 8 with
    | (s, .error (.xlate f va)) => .fault (s.raiseX .read f va)
    | (_, .error (.psn va)) => .fault (s0.raise .umem 0 va 0)
    | (s, .ok bs) =>
      let v := BitVec.ofNat 64 (ofBytes bs)
      if !remove then .ok (joined s) v
      else
        let s := joined s
        let last := d.count = 1
        let past := d.head + 1 = 512
        let s := if last then d.blocks.foldl (fun s b => s.dropBlock d.own b) s else if past then s.dropBlock d.own (d.blocks.headD 0) else s
        let d' : DataQ :=
          if last then { d with blocks := [], head := 0, count := 0, pubs := d.pubs.drop 1 }
          else if past then { d with blocks := d.blocks.drop 1, head := 0, count := d.count - 1, pubs := d.pubs.drop 1 }
          else { d with head := d.head + 1, count := d.count - 1, pubs := d.pubs.drop 1 }
        .ok (s.setDq core q d') v
  else
    match d.chip with
    | [] => .wait
    | v :: t => if remove then .ok ((joined s).setDq core q { d with chip := t, pubs := d.pubs.drop 1 }) v else .ok (joined s) v

/-- A queue instruction by its minor (11 R326): 0 push, 1 pop, 2 pop to a predicate, 3 peek. -/
def State.queueOp (s : State) (minor : Nat) (u : U) : Out :=
  let q := if minor = 0 then u.a.toNat else u.b.toNat
  let c := s.myCtx
  let core := s.cu.core
  if !(if minor = 0 then mayPush q s.cu.st else mayPop q s.cu.st) then .next s.wrongAgent
  else if !s.holdsSide c core (queueSide q) then .next s.priv
  else if minor = 0 ∧ !s.me.pend.all (fun p => p.stage == 2) then s.drain
  else
    match (if minor = 0 then s.qPushOp c core q (s.sB u) else s.qTake core q (minor != 3)) with
    | .fault s => .next s
    | .wait => .next (s.waitOn (.queue q (minor == 0)))
    | .ok s v =>
      let s := if minor = 0 then s else if minor = 2 then s.wrP u.a.toNat (uniform (v != 0)) 1 else s.wrS u.a.toNat v 1
      .next (s.fin u)

/-- Q.PUSH, Q.POP, Q.POPP, Q.PEEK (11 R326). -/
def execQPush (u : U) (s : State) : Out := s.queueOp 0 u
def execQPop (u : U) (s : State) : Out := s.queueOp 1 u
def execQPopp (u : U) (s : State) : Out := s.queueOp 2 u
def execQPeek (u : U) (s : State) : Out := s.queueOp 3 u

/-- The unit an agent waits at becomes the unit being issued again, and the wait ends. -/
def State.rewake (s : State) (core st : Nat) : State :=
  let a := s.ag core st
  let s := s.setAg core st { a with wait := .none, wunit := none }
  match a.wunit with
  | some x => { s with cu := x, fresh := s.fresh + 1 }
  | none => s

/-- Whether a waiting agent of a running context may go on: not while its context is stopped (14 R393). -/
def State.alive (s : State) (core st : Nat) : Bool :=
  let a := s.ag core st
  a.run == .running && a.item.isSome && s.runs a.ctx && s.coreLets a.ctx core && a.wunit.isSome

/-- Whether a waiting ARRIVE.WAIT may complete (04 R109). -/
def State.arriveWaitDue (s : State) (core st : Nat) : Bool :=
  match (s.ag core st).wait with
  | .arrive a g => s.alive core st && (s.psn true a || arrGen (s.arrWord core st a) != g)
  | .suspend [] (some (a, g)) => s.alive core st && arrGen (s.arrWord core st a) != g
  | _ => false

/-- A waiting ARRIVE.WAIT sees the generation change, or its line poisoned (04 R109, 11 R325). -/
def execArriveWaitComplete (core st : Nat) (s : State) : Out :=
  if !s.arriveWaitDue core st then .next s
  else match (s.ag core st).wait with
    | .arrive a _ =>
      let s := s.rewake core st
      if s.psn true a then .next (s.raise .umem 1 (s.sA s.cu.iw.u - BitVec.ofNat 64 (a % 64)) 0)
      else .next ((((s.takeWord a).joinEpisode s.myRace a).fin s.cu.iw.u).loopEnd core st)
    | .suspend [] (some (a, _)) =>
      let s := s.rewake core st
      .next ((((s.takeWord a).joinEpisode s.myRace a).fin s.cu.iw.u).loopEnd core st)
    | _ => .next s

/-- Whether a waiting push or pop may proceed (06 R153). -/
def State.queueWaitDue (s : State) (core st : Nat) : Bool :=
  match (s.ag core st).wait with
  | .queue q true => s.alive core st && ((s.dq core q).chip.length < 32 || (s.freeBlock (if (s.dq core q).blocks.isEmpty then (s.ag core st).ctx else (s.dq core q).own)).isSome
      || (s.dq core q).head + (s.dq core q).count < 512 * (s.dq core q).blocks.length)
  | .queue q false => s.alive core st && ((s.dq core q).count != 0 || !(s.dq core q).chip.isEmpty)
  | _ => false

/-- Whether in this cycle, too, a waiting pop of a lower slot on the same queue proceeds, or is named to, or a lower slot issues one: it
comes first (06 R152). -/
def State.popBehind (s : State) (core st : Nat) : Bool :=
  match (s.ag core st).wait with
  | .queue q false => (List.range st).any (fun k =>
      ((s.ag core k).wait == .queue q false && s.queueWaitDue core k && s.thisCycle.any (fun t => match t with | .event (.queueWaitResume c j) => c == core && j == k | _ => false))
        || (s.readyNow core (s.ag core k) && s.nextRivalry core k == .pop q))
  | _ => false

/-- A waiting push or pop proceeds (06 R153). -/
def execQueueWaitResume (core st : Nat) (s : State) : Out :=
  if !s.queueWaitDue core st || s.popBehind core st then .next s
  else
    let s := s.rewake core st
    match s.queueOp s.cu.iw.u.mi.toNat s.cu.iw.u with
    | .next t => .next (t.loopEnd core st)
    | r => r

/-- The access at place i of an agent's list moves on, where its order allows (03 R80, R81). -/
def State.moveDue (s : State) (core st i : Nat) : State := if (s.ag core st).mayServe i then s.moveOn core st i else s

/-- How an event names the k-th unfinished store of the agent of a slot: slots take the numbers below eight (log 183). -/
def storePlace (st k : Nat) : Nat := st + 8 * k

/-- STORE_LEAVE (04 R104, R106): the unfinished store of an agent that `place` names moves on: it leaves its agent, checked as it leaves;
or its data is performed; or it reaches its bank or slice, and engines see it. -/
def execStoreLeave (core place : Nat) (s : State) : Out :=
  let st := place % 8
  let k := place / 8
  let a := s.ag core st
  match ((List.range a.pend.length).filter (fun i => match a.pend[i]? with | some p => p.isStore | none => false))[k]? with
  | none => .next s
  | some i => .next (s.moveDue core st i)

/-- LOAD_DATA_RETURN (08 R236): the k-th outstanding load of an agent is served, and its lock clears; likewise an atomic, and a vector
register parked or refilled. -/
def execLoadDataReturn (core st k : Nat) (s : State) : Out :=
  let a := s.ag core st
  match ((List.range a.pend.length).filter (fun i => match a.pend[i]? with | some p => !p.isStore | none => false))[k]? with
  | none => .next s
  | some i => .next (s.moveDue core st i)

end Sys2Proof.Machine
end

