-- ==== Sys2Proof/Machine/Vector.lean ====
section
/-! DEFINITION. Vector and special-function instructions (10 R279-R302), and the SLI atomic. -/

namespace Sys2Proof.Machine

/-- How a vector unit computes (10 R281). -/
def howOf (w64 : Bool) (u : U) : How := ⟨etyOf w64 u, rndOf u, satOf u⟩

/-- The lanes of operand c: a register, or the immediate broadcast (08 R241). -/
def State.lanesC (s : State) (w64 : Bool) (u : U) : List W32 :=
  if w64 && u.c.toNat == 63 then (List.range 1024).map (immLane (etyOf w64 u) u.imm) else (s.opV 2 u.c).lanes

/-- A vector result written with its flags, and the unit completes (10 R280). -/
def State.vecDone (s : State) (u : U) (r : List (W32 × W64)) (l : Nat) : Out :=
  .next (((s.orVstat (orFlags (r.map (·.2))) l).wrV u.a.toNat (VReg.of (r.map (·.1))) l).fin u)

/-- An element-wise result of vb, vc and ve in each active lane. -/
def State.vecMap (s : State) (u : U) (ys zs : List W32) (f : W32 → W32 → W32 → W32 × W64) : List (W32 × W64) :=
  mapLanes f (boolsOf (s.gov u)) (s.opV 1 u.b).lanes ys zs (s.me.vreg u.a.toNat).lanes

/-- Lanes of an operand that a unit does not have. -/
def noLanes : List W32 := List.replicate 1024 0

/-- Latency of arithmetic on a type (08 R234). -/
def vecLat (ty : Nat) : Nat := if isS ty then 25 else 4

/-- A two-operand element-wise instruction (10 R283, R284). -/
def State.vecTwo (s : State) (w64 : Bool) (u : U) (f : How → Nat → Nat → Res) : Out :=
  let h := howOf w64 u
  s.vecDone u (s.vecMap u (s.lanesC w64 u) noLanes (fun x y _ => asLane h.ty (f h (elemOf h.ty x) (elemOf h.ty y)))) 4

/-- A one-operand element-wise instruction. -/
def State.vecOne (s : State) (w64 : Bool) (u : U) (f : How → Nat → Res) (l : Nat) : Out :=
  let h := howOf w64 u
  s.vecDone u (s.vecMap u noLanes noLanes (fun x _ _ => asLane h.ty (f h (elemOf h.ty x)))) l

/-- Flags that MASK selects (10 R285). -/
def lxMask (w64 : Bool) (u : U) : W64 :=
  let m := if w64 && u.c.toNat != 63 then bits u.imm 3 0 else 15
  BitVec.ofNat 64 (m * 2 ^ 12)

/-- The flag predicate of an SLI result (10 R285): each active lane's selected flags; inactive lanes false. -/
def State.wrFlags (s : State) (u : U) (mask : W64) (r : List (W32 × W64)) (l : Nat) : State :=
  s.wrP u.e.toNat (lanesOfBools (r.map (fun e => e.2 &&& mask != 0))) l

/-- VADD, VSUB and VMUL (10 R283, R285). -/
def State.vecArith (s : State) (w64 : Bool) (u : U) (op : Nat) : Out :=
  let h := howOf w64 u
  let r := s.vecMap u (s.lanesC w64 u) noLanes (fun x y _ => asLane h.ty (elArith h op (elemOf h.ty x) (elemOf h.ty y)))
  let s := if isS h.ty then s.wrFlags u (lxMask w64 u) r 25 else s
  s.vecDone u r (vecLat h.ty)

/-- VADD, VSUB, VMUL, 32-bit and 64-bit forms. -/
def execVadd (u : U) (s : State) : Out := s.vecArith false u 0
def execVsub (u : U) (s : State) : Out := s.vecArith false u 1
def execVmul (u : U) (s : State) : Out := s.vecArith false u 2
def execVaddX (u : U) (s : State) : Out := s.vecArith true u 0
def execVsubX (u : U) (s : State) : Out := s.vecArith true u 1
def execVmulX (u : U) (s : State) : Out := s.vecArith true u 2
/-- VMIN, VMAX (10 R283). -/
def execVmin (u : U) (s : State) : Out := s.vecTwo false u (fun h => elPick h false)
def execVmax (u : U) (s : State) : Out := s.vecTwo false u (fun h => elPick h true)
def execVminX (u : U) (s : State) : Out := s.vecTwo true u (fun h => elPick h false)
def execVmaxX (u : U) (s : State) : Out := s.vecTwo true u (fun h => elPick h true)
/-- VAND, VOR, VXOR (10 R284). -/
def execVand (u : U) (s : State) : Out := s.vecTwo false u (fun _ => elBits 0)
def execVor (u : U) (s : State) : Out := s.vecTwo false u (fun _ => elBits 1)
def execVxor (u : U) (s : State) : Out := s.vecTwo false u (fun _ => elBits 2)
def execVandX (u : U) (s : State) : Out := s.vecTwo true u (fun _ => elBits 0)
def execVorX (u : U) (s : State) : Out := s.vecTwo true u (fun _ => elBits 1)
def execVxorX (u : U) (s : State) : Out := s.vecTwo true u (fun _ => elBits 2)
/-- VSHL, VSHR (10 R284). -/
def execVshl (u : U) (s : State) : Out := s.vecTwo false u elShl
def execVshr (u : U) (s : State) : Out := s.vecTwo false u elShr
def execVshlX (u : U) (s : State) : Out := s.vecTwo true u elShl
def execVshrX (u : U) (s : State) : Out := s.vecTwo true u elShr
/-- VABS, VNEG (10 R283). -/
def execVabs (u : U) (s : State) : Out := s.vecOne false u (fun h => elAbsNeg h false) 4
def execVneg (u : U) (s : State) : Out := s.vecOne false u (fun h => elAbsNeg h true) 4
def execVabsX (u : U) (s : State) : Out := s.vecOne true u (fun h => elAbsNeg h false) 4
def execVnegX (u : U) (s : State) : Out := s.vecOne true u (fun h => elAbsNeg h true) 4

/-- VFMA (10 R283): ve is operand e. -/
def State.vecFma (s : State) (w64 : Bool) (u : U) : Out :=
  let h := howOf w64 u
  s.vecDone u (s.vecMap u (s.lanesC w64 u) (s.opV 3 u.e).lanes
    (fun x y z => asLane h.ty (elFma h (elemOf h.ty x) (elemOf h.ty y) (elemOf h.ty z)))) 4

/-- VFMA, both forms. -/
def execVfma (u : U) (s : State) : Out := s.vecFma false u
def execVfmaX (u : U) (s : State) : Out := s.vecFma true u

/-- VCMP (10 R286). -/
def execVcmp (u : U) (s : State) : Out :=
  let ty := etyOf true u
  let cc := u.e.toNat
  let f : W32 → W32 → W32 → W32 × W64 := fun x y _ =>
    let (b, fl) := elCmp ty cc (elemOf ty x) (elemOf ty y)
    (BitVec.ofNat 32 (b2n b), fl)
  let r := mapLanes f (boolsOf (s.gov u)) (s.opV 1 u.b).lanes (s.lanesC true u) noLanes noLanes
  .next (((s.orVstat (orFlags (r.map (·.2))) 4).wrP u.a.toNat (lanesOfBools (r.map (fun e => e.1 != 0))) 4).fin u)

/-- Lanes copied unchanged, with no flag. -/
def copied (l : List W32) : List (W32 × W64) := l.map (fun x => (x, 0))

/-- Active lanes of a list of results over a register's old lanes. -/
def State.overOld (s : State) (u : U) (new : List W32) : List (W32 × W64) :=
  mapLanes (fun x _ _ => (x, 0)) (boolsOf (s.gov u)) new noLanes noLanes (s.me.vreg u.a.toNat).lanes

/-- VSEL (10 R287): bits copied unchanged. -/
def execVsel (u : U) (s : State) : Out :=
  let pe := boolsOf (s.rdP u.e.toNat)
  let xs := (s.opV 1 u.b).lanes
  let ys := s.lanesC true u
  s.vecDone u (s.overOld u (List.zipWith (fun (p : Bool) (e : W32 × W32) => if p then e.1 else e.2) pe (List.zip xs ys))) 4

/-- VIMM (10 R287). -/
def execVimm (u : U) (s : State) : Out :=
  s.vecDone u (s.overOld u ((List.range 1024).map (immLane (etyOf true u) u.imm))) 4

/-- VMOVS broadcast (10 R288). -/
def State.vecBroadcast (s : State) (w64 : Bool) (u : U) : Out :=
  let ty := etyOf w64 u
  s.vecDone u (s.overOld u (List.replicate 1024 (fillLane ty ((s.sB u).toNat % 2 ^ elemBits ty)))) 4

/-- VMOVS, both forms (10 R288). -/
def execVmovs (u : U) (s : State) : Out := s.vecBroadcast false u
def execVmovsX (u : U) (s : State) : Out := s.vecBroadcast true u

/-- LANE of VMOVS (10 R288). -/
def laneOf (u : U) : Nat := bits u.imm 9 0

/-- VMOVS.ins (10 R288). -/
def execVmovsIns (u : U) (s : State) : Out :=
  let ty := etyOf true u
  let old := (s.me.vreg u.a.toNat).lanes
  let new := if (s.gov u).getLsbD (laneOf u) then old.set (laneOf u) (fillLane ty ((s.sB u).toNat % 2 ^ elemBits ty)) else old
  s.vecDone u (copied new) 4

/-- An element as a scalar (10 R288, R291): an integer sign-extended, any other zero-extended. -/
def scalarOf (ty x : Nat) : W64 := if isI ty then BitVec.ofInt 64 (intOf ty x) else BitVec.ofNat 64 x

/-- VMOVS.ext (10 R288). -/
def execVmovsExt (u : U) (s : State) : Out :=
  let ty := etyOf true u
  if (s.gov u).getLsbD (laneOf u) then scalarDone u s (scalarOf ty (elemOf ty ((s.opV 1 u.b).lane (laneOf u)))) 4
  else .next (s.fin u)

/-- A special function (10 R293, R294). -/
def State.vecSpecial (s : State) (w64 : Bool) (u : U) (fn : Nat) : Out :=
  let h := howOf w64 u
  let r := s.vecMap u noLanes noLanes (fun x _ _ => asLane h.ty (elSpecial h fn (elemOf h.ty x)))
  let s := if isS h.ty then s.wrFlags u (lxMask w64 u) r 25 else s
  s.vecDone u r (if isS h.ty then 25 else 12)

/-- VEXP, VLOG, VRCP, VRSQ, VTANH. -/
def execVexp (u : U) (s : State) : Out := s.vecSpecial false u 0
def execVlog (u : U) (s : State) : Out := s.vecSpecial false u 1
def execVrcp (u : U) (s : State) : Out := s.vecSpecial false u 2
def execVrsq (u : U) (s : State) : Out := s.vecSpecial false u 3
def execVtanh (u : U) (s : State) : Out := s.vecSpecial false u 4
def execVexpX (u : U) (s : State) : Out := s.vecSpecial true u 0
def execVlogX (u : U) (s : State) : Out := s.vecSpecial true u 1
def execVrcpX (u : U) (s : State) : Out := s.vecSpecial true u 2
def execVrsqX (u : U) (s : State) : Out := s.vecSpecial true u 3
def execVtanhX (u : U) (s : State) : Out := s.vecSpecial true u 4

/-- VSLI.LVL (10 R295): an i32 value. -/
def State.vecLevel (s : State) (w64 : Bool) (u : U) : Out :=
  let ty := etyOf w64 u
  s.vecDone u (s.vecMap u noLanes noLanes (fun x _ _ => (BitVec.ofNat 32 (sliLvl ty (elemOf ty x)), 0))) 4

/-- VSLI.LVL, both forms. -/
def execVsliLvl (u : U) (s : State) : Out := s.vecLevel false u
def execVsliLvlX (u : U) (s : State) : Out := s.vecLevel true u

/-- The parameter of a lane instruction (10 R289). -/
def laneParam (w64 : Bool) (u : U) : Nat := if w64 then bits u.imm 5 0 else u.c.toNat

/-- A lane movement along rows or columns (10 R290), as a map of the rows. -/
def State.vecMove (s : State) (w64 : Bool) (u : U) (f : Nat → List (List W32) → List (List W32)) (l : Nat) : Out :=
  s.vecDone u (s.overOld u (f (laneParam w64 u) (rowsOf (s.opV 1 u.b).lanes)).flatten) l

/-- VBCAST.R, VBCAST.C, VROT.R, VROT.C as maps of the rows (10 R290). -/
def bcastR (k : Nat) (rows : List (List W32)) : List (List W32) := rows.map (fun r => List.replicate 64 (r.getD k 0))
def bcastC (k : Nat) (rows : List (List W32)) : List (List W32) := List.replicate 16 (rows.getD k [])
def rotR (k : Nat) (rows : List (List W32)) : List (List W32) := rows.map (turnRight k)
def rotC (k : Nat) (rows : List (List W32)) : List (List W32) := turnRight k rows

/-- VBCAST and VROT, both forms. -/
def execVbcastR (u : U) (s : State) : Out := s.vecMove false u bcastR 6
def execVbcastC (u : U) (s : State) : Out := s.vecMove false u bcastC 10
def execVrotR (u : U) (s : State) : Out := s.vecMove false u rotR 6
def execVrotC (u : U) (s : State) : Out := s.vecMove false u rotC 10
def execVbcastRX (u : U) (s : State) : Out := s.vecMove true u bcastR 6
def execVbcastCX (u : U) (s : State) : Out := s.vecMove true u bcastC 10
def execVrotRX (u : U) (s : State) : Out := s.vecMove true u rotR 6
def execVrotCX (u : U) (s : State) : Out := s.vecMove true u rotC 10

/-- The elements of active lanes (10 R291). -/
def State.activeEls (s : State) (w64 : Bool) (u : U) : List (Option Nat) :=
  let ty := etyOf w64 u
  List.zipWith (fun (g : Bool) (x : W32) => if g then some (elemOf ty x) else none) (boolsOf (s.gov u)) (s.opV 1 u.b).lanes

/-- Latency of a combining instruction: 25 more for each level of the tree with an SLI type (08 R234). -/
def treeLat (ty l d : Nat) : Nat := if isS ty then l + 25 * d else l

/-- The lanes of lines of results, in place: a line without one leaves zeros, which no active lane takes. -/
def spread (ty n : Nat) (l : List (Option Nat)) : List (List W32) := l.map (fun r => List.replicate n (fillLane ty (r.getD 0)))

/-- VRED along rows or columns (10 R291). -/
def State.vecReduce (s : State) (w64 cols : Bool) (u : U) : Out :=
  let h := howOf w64 u
  let rows := rowsOf (s.activeEls w64 u)
  let op := elReduce h (laneParam w64 u)
  let res := (if cols then columns 64 none rows else rows).map (tree op (if cols then 4 else 6))
  let lines := spread h.ty (if cols then 16 else 64) (res.map (·.1))
  let lanes := if cols then (columns 16 0 lines).flatten else lines.flatten
  let l := if cols then treeLat h.ty 10 4 else treeLat h.ty 6 6
  (s.orVstat (orFlags (res.map (·.2))) l).vecDone u (s.overOld u lanes) l

/-- VSCAN along rows or columns (10 R292). -/
def State.vecScan (s : State) (w64 cols : Bool) (u : U) : Out :=
  let h := howOf w64 u
  let rows := rowsOf (s.activeEls w64 u)
  let op := elReduce h (laneParam w64 u)
  let res := (if cols then columns 64 none rows else rows).map (scanLine op (if cols then 4 else 6))
  let lines := res.map (fun r => r.map (fun x => fillLane h.ty x.1))
  let lanes := if cols then (columns 16 0 lines).flatten else lines.flatten
  let l := if cols then treeLat h.ty 10 4 else treeLat h.ty 6 6
  (s.orVstat (orFlags (res.flatten.map (·.2))) l).vecDone u (s.overOld u lanes) l

/-- VREDA (10 R291). -/
def State.vecReduceAll (s : State) (w64 : Bool) (u : U) : Out :=
  let h := howOf w64 u
  let op := laneParam w64 u
  let (r, fl) := tree (elReduce h op) 10 (s.activeEls w64 u)
  flagDone u s (scalarOf h.ty (r.getD (elEmpty h.ty op)), fl) (treeLat h.ty 16 10)

/-- VRED, VSCAN, VREDA, both forms. -/
def execVredR (u : U) (s : State) : Out := s.vecReduce false false u
def execVredC (u : U) (s : State) : Out := s.vecReduce false true u
def execVscanR (u : U) (s : State) : Out := s.vecScan false false u
def execVscanC (u : U) (s : State) : Out := s.vecScan false true u
def execVreda (u : U) (s : State) : Out := s.vecReduceAll false u
def execVredRX (u : U) (s : State) : Out := s.vecReduce true false u
def execVredCX (u : U) (s : State) : Out := s.vecReduce true true u
def execVscanRX (u : U) (s : State) : Out := s.vecScan true false u
def execVscanCX (u : U) (s : State) : Out := s.vecScan true true u
def execVredaX (u : U) (s : State) : Out := s.vecReduceAll true u

/-- VCVT MODE 00 (10 R297). -/
def execVcvt (u : U) (s : State) : Out :=
  let src := cvtSrc u
  let dst := etyOf true u
  s.vecDone u (s.vecMap u noLanes noLanes (fun x _ _ => asLane dst (elConv src dst (rndOf u) (satOf u) (elemOf src x))))
    (if isS src || isS dst then 25 else 4)

/-- VCVT MODE 01 (10 R297): binary64 to SLI32 in scalar registers. -/
def execVcvtSli32F64 (u : U) (s : State) : Out :=
  governed u s fun s =>
    let r := sliOfIeee Fmt.f64 3 (s.opS 1 u.b).toNat
    flagDone u s (BitVec.ofNat 64 r.1, r.2) 25

/-- VCVT MODE 10 (10 R297): SLI32 to binary64 in scalar registers. -/
def execVcvtF64Sli32 (u : U) (s : State) : Out :=
  governed u s fun s =>
    let r := sliToIeee Fmt.f64 3 (rndOf u) (satOf u) (bits (s.opS 1 u.b) 31 0)
    flagDone u s (BitVec.ofNat 64 r.1, r.2) 25

/-- The fields of a MODE 11 conversion (10 R296): block length, kept elements of a sparse group or 0, chunk. -/
def bxLen (u : U) : Nat := if bit u.imm 9 then 16 else 32
def bxN (u : U) : Nat := match bits u.imm 8 7 with | 0 => 0 | 1 => 4 | 2 => 8 | _ => 16
def bxChunk (u : U) : Nat := bits u.imm 5 0

/-- Start and length in each plane of a row's chunk (10 R298). -/
def bxSpans (ty : Nat) (u : U) : List (Nat × Nat) :=
  let c := bxChunk u
  let n := bxN u
  let p0 := if n = 0 then (if ty = 8 then 64 else 32) else (if ty = 8 then 2 * n else n)
  let p1 := if n = 0 then 128 / bxLen u else 4
  (p0 * c, p0) :: (p1 * c, p1) :: (if n = 0 then [] else [(8 * c, 8)])

/-- A span of a tile row cut where its lines end. -/
def cutSpan : Nat → Nat → Nat → List (Nat × Nat)
  | 0, _, _ => []
  | f + 1, x, n => if n = 0 then [] else let k := min n (64 - x % 64); (x, k) :: cutSpan f (x + k) (n - k)

/-- The parts of a chunk: window offset and length, by row and plane (02 R59). -/
def bxParts (ty : Nat) (u : U) (w0 w1 : W64) : List (Nat × Nat) :=
  (List.range 16).flatMap (fun i => (bxSpans ty u).zipIdx.flatMap (fun e =>
    (cutSpan 4 e.1.1 e.1.2).map (fun (x, n) => (tileOff w0 w1 e.2 i x, n))))

/-- The pieces of window parts of the issuing agent's cluster, their data one after another. -/
def State.windowParts (s : State) (ps : List (Nat × Nat)) : Option (List Piece) :=
  (ps.foldl (fun (x : Option (List Piece × Nat)) e =>
    match x with
    | none => none
    | some (l, off) =>
      match s.accessSp s.myCtx s.myClu (BitVec.ofNat 64 e.1) e.2 with
      | none => none
      | some q => some (l ++ q.map (fun p => { p with off := p.off + off }), off + e.2)) (some ([], 0))).map (·.1)

/-- A MODE 11 conversion's tile, checked (02 R60): its pieces, or the fault. -/
def State.bxTile (s : State) (u : U) (ty : Nat) (f : Fld) (k : Nat) (acc : Acc) : Except (State → State) (List Piece) :=
  let w0 := s.opS k f
  let w1 := s.rdS (f.toNat + 1)
  let w := ((bxSpans ty u).map (fun e => e.1 + e.2)).foldl max 0
  let bad : State → State := fun s => s.raiseWin acc 8 (BitVec.ofNat 64 (tileBase w0))
  if !tileOk f.toNat w0 w1 (s.winLen s.myCtx s.myClu) 16 w (bxSpans ty u).length then .error bad
  else match s.windowParts (bxParts ty u w0 w1) with
    | none => .error bad
    | some ps => .ok ps

/-- A row quantised (05 R142): the bytes of each plane, and the flags. -/
def bxRow (ty src : Nat) (u : U) (given : Option (Nat × Nat)) (row : List W32) : List Byte × W64 :=
  let f := fmtOf src
  let blocks := chunks (bxLen u) (64 / bxLen u) row
  let q : List ((Nat × Nat) × List (Nat × Nat × W64)) := blocks.map (fun b =>
    let xs : List (FVal × Bool) := b.map (fun l => (f.dec (elemOf src l), (elemOf src l).testBit (f.eb + f.mb)))
    let (e0, e1) := bxExps given (xs.map (·.1))
    ((e0, e1), xs.map (fun (x : FVal × Bool) => bxQuant ty e0 e1 x.2 x.1)))
  let fl := orFlags (q.flatMap (fun b => b.2.map (·.2.2)))
  let ex : List Byte := q.flatMap (fun b => [BitVec.ofNat 8 b.1.1, BitVec.ofNat 8 b.1.2])
  if bxN u = 0 then (bxPack ty (q.flatMap (fun b => b.2.map (·.1))) ++ ex, fl)
  else
    let kept := q.map (fun b => (bxKeep (bxN u) (b.2.map (·.2.1)), b.2.map (·.1)))
    (bxPack ty (kept.flatMap (fun k => k.1.map (fun i => k.2.getD i 0))) ++ ex
      ++ kept.flatMap (fun k => toBytes 4 ((k.1.map (2 ^ ·)).foldl (· + ·) 0)), fl)

/-- VCVT MODE 11, quantise (10 R298, R299); its lines are written after the agent's earlier accesses (03 R81). -/
def execVcvtBxQuantise (u : U) (s : State) : Out :=
  if !s.readsDone ∨ s.me.pend.any (·.hidden) then s.drain
  else
    let ty := u.mi.toNat
    let g := s.opS 3 u.e
    let given := if u.e != 0 && bit g 16 then some (bits g 7 0, bits g 15 8) else none
    match s.bxTile u ty u.a 0 .write with
    | .error f => .next (f s)
    | .ok ps =>
      let rows := (rowsOf (s.opV 1 u.b).lanes).map (bxRow ty (cvtSrc u) u given)
      match s.screen false ⟨1, none⟩ ps with
      | .error f => .next (f s)
      | .ok m => .next (((s.writeNow ps m (rows.flatMap (·.1)) none []).orVstat (orFlags (rows.map (·.2))) 4).fin u)

/-- A row expanded and converted (05 R139, R141): its lanes with their flags, from the bytes of its planes. -/
def bxUnrow (ty dst : Nat) (u : U) (rnd : Nat) (sat : Bool) (bs : List Byte) : List (W32 × W64) :=
  let n := bxN u
  let l := bxLen u
  let p0 := ((bxSpans ty u).getD 0 (0, 0)).2
  let p1 := ((bxSpans ty u).getD 1 (0, 0)).2
  let els := bxUnpack ty (bs.take p0)
  let ex := (bs.drop p0).take p1
  let mk := bs.drop (p0 + p1)
  let all : List (Option Nat) :=
    if n = 0 then els.map some
    else (List.range 2).flatMap (fun g => bxExpand n (ofBytes ((mk.drop (4 * g)).take 4)) 32 0 (els.drop (n * g)))
  all.zipIdx.map (fun (x, j) =>
    let b := j / l
    match x with
    | none => (0, 0)
    | some x =>
      match bxVal ty (ex.getD (2 * b) 0).toNat (ex.getD (2 * b + 1) 0).toNat x with
      | .nan _ => (fillLane dst (fmtOf dst).nan, 0)
      | .inf _ => (0, 0)
      | .fin neg m e => if m = 0 then (0, 0) else asLane dst ((fmtOf dst).round rnd sat neg m e false))

/-- VCVT MODE 11, dequantise (10 R298, R299). -/
def execVcvtBxDequantise (u : U) (s : State) : Out :=
  let ty := cvtSrc u
  let dst := u.mi.toNat
  match s.bxTile u ty u.b 1 .read with
  | .error f => .next (f s)
  | .ok ps =>
    if s.readMeets ps then s.drain
    else
      let s := s.settleLines (some s.myKey) ps
      match s.loadNow ps none false with
      | .error f => .next (f s)
      | .ok (s, bs) =>
        let n := ((bxSpans ty u).map (·.2)).foldl (· + ·) 0
        s.vecDone u ((chunks n 16 bs).flatMap (bxUnrow ty dst u (rndOf u) (satOf u))) 4

/-- Runs of consecutive active lanes of a row: first column and length. -/
def laneRuns : Nat → List Bool → List (Nat × Nat)
  | _, [] => []
  | j, g :: gs =>
    let t := laneRuns (j + 1) gs
    if !g then t
    else match t with
      | (k, n) :: r => if k = j + 1 then (j, n + 1) :: r else (j, 1) :: t
      | [] => [(j, 1)]

/-- The runs of a VLD or VST (10 R300): address and length in bytes of each run of active lanes, in lane order. -/
def State.vecRuns (s : State) (u : U) : List (W64 × Nat) :=
  let ty := etyOf true u
  let z := elemSize ty
  let al := ~~~ BitVec.ofNat 64 (z - 1)
  let base := (s.sB u + imm16S u) &&& al
  let pitch := if u.e = 0 then BitVec.ofNat 64 (64 * z) else s.sE u &&& al
  (rowsOf (boolsOf (s.gov u))).zipIdx.flatMap (fun (row, i) =>
    (laneRuns 0 row).map (fun (j, n) => (base + BitVec.ofNat 64 i * pitch + BitVec.ofNat 64 (j * z), n * z)))

/-- The pieces of runs, their data one after another, or the first fault. -/
def State.reachRuns (s : State) (sp : Bool) (acc : Acc) : List (W64 × Nat) → Nat → State × Except (State → State) (List Piece)
  | [], _ => (s, .ok [])
  | (a, n) :: t, off =>
    match s.reach sp acc a n with
    | (s, .error f) => (s, .error f)
    | (s, .ok ps) =>
      match s.reachRuns sp acc t (off + n) with
      | (s, .error f) => (s, .error f)
      | (s, .ok qs) => (s, .ok (ps.map (fun p => { p with off := p.off + off }) ++ qs))

/-- VLD (10 R300): inactive lanes keep their values. It is served at once or later, its parts one for each line (03 R80); from scratchpad its
register is undefined inside the bound (08 R234, R235). -/
def execVld (u : U) (s : State) : Out :=
  let sp := u.c.toNat = 1
  match s.reachRuns sp .read (s.vecRuns u) 0 with
  | (s, .error f) => .next (f s)
  | (s, .ok ps) =>
    let n := u.a.toNat
    let (s, later) := s.putsOff
    if ps ≠ [] ∧ (later ∨ s.readMeets ps) then
      let p := s.newPend (.load false) (if sp then none else some (.v n)) 0 none ps
      let s := if sp then s.updMe (fun a => (a.land s.cycle (.v n) 72).1) else s
      .next ((s.leave { p with data := List.replicate ((ps.map (·.n)).foldl (· + ·) 0) 0 }).fin u)
    else
      let s := s.settleLines (some s.myKey) ps
      match s.loadNow ps none false with
      | .error f => .next (f s)
      | .ok (s, bs) => .next ((s.vldWrite (s.gov u) n (etyOf true u) bs (if sp then 72 else 1)).fin u)

/-- The bytes that a VST stores: the low bytes of each active lane, in lane order. -/
def State.vecBytes (s : State) (u : U) : List Byte :=
  let z := elemSize (etyOf true u)
  (List.zip (boolsOf (s.gov u)) (s.opV 0 u.a).lanes).flatMap (fun e => if e.1 then toBytes z e.2.toNat else [])

/-- VST (10 R300): where its lanes overlap, the highest leaves its bytes. -/
def execVst (u : U) (s : State) : Out :=
  match s.reachRuns (u.c.toNat = 1) .write (s.vecRuns u) 0 with
  | (s, .error f) => .next (f s)
  | (s, .ok ps) => s.storeParts u ps (s.vecBytes u) 0 none

/-- VSPILL (02 R47, R50, 10 R301): an earlier place is freed before the new one is chosen. The write of a block is served at once or, where
the register was not parked, later. -/
def State.vspill (s : State) (u : U) : Out :=
  let c := s.myCtx
  let core := s.cu.core
  let st := s.cu.st
  let n := u.a.toNat
  let v := s.opV 0 u.a
  let was := parkOf (SMap.get 0 s.me.spmap n)
  let t := match was with
    | some p => (s.parkClear c core p).setSpmap core st n 0
    | none => s
  if s.me.pend.any (fun p => match p.kind with | .vspill _ => p.cap.iw.u.a == u.a | _ => false) then s.drain
  else match t.choosePark c core ⟨[], [], none, false⟩ with
  | none => .next s.spillQ
  | some p =>
    match p, was.isNone && s.putsOff.2 with
    | .block b, true =>
      let s := s.putsOff.1
      .next ((((s.takeBlock c b).setSpmap core st n p.word).leave (s.newPend (.vspill b) none 0 none [])).fin u)
    | _, _ =>
      match t.parkWrite c core p v with
      | (_, .error (f, va)) =>
        -- the register and the map entry stand as they were
        .next ((match p with | .block b => (s.access c .write true (s.blockVa c b) 4096).1 | _ => s).raiseX .write f va)
      | (t, .ok ()) =>
        let t := match p with | .block _ => (if was.isNone then t.putsOff.1 else t).count c core st 0xD 1 | _ => t
        .next ((t.setSpmap core st n p.word).fin u)

/-- VFILL (02 R48, R50, 10 R302): from the place that the map entry names, which is freed; at once or, from a block, later, its register
locked till then. -/
def State.vfill (s : State) (u : U) : Out :=
  if s.me.pend.any (fun p => match p.kind with | .vspill _ => p.cap.iw.u.a == u.a | _ => false) then s.drain
  else match parkOf (SMap.get 0 s.me.spmap u.a.toNat), s.putsOff.2 with
  | some (.block _), true => .next ((s.putsOff.1.leave (s.newPend .vfill (some (.v u.a.toNat)) 0 none [])).fin u)
  | some (.block _), false => (match s.putsOff.1.vfillNow u with | .ok s => .next (s.fin u) | .error s => .next s)
  | _, _ => (match s.vfillNow u with | .ok s => .next (s.fin u) | .error s => .next s)

/-- VSPILL and VFILL, both forms (10 R301, R302). -/
def execVspill (u : U) (s : State) : Out := s.vspill u
def execVfill (u : U) (s : State) : Out := s.vfill u
def execVspillX (u : U) (s : State) : Out := s.vspill u
def execVfillX (u : U) (s : State) : Out := s.vfill u

end Sys2Proof.Machine
end

