-- ==== Sys2Proof/Machine/Bookings.lean ====
section
/-! DEFINITION. Booking handles, chain steps and calendars as the engines read them (07 R176-R180, R194-R200, R204). -/

namespace Sys2Proof.Machine

/-- Fields of a chain step's word 0 (07 R195). -/
def sCls (w : W64) : Nat := bits w 63 62
def sAny (w : W64) : Bool := bit w 61
def sRem (w : W64) : Bool := bit w 60
def sPar (w : W64) : Bool := bit w 59
def sIndex (w : W64) : Nat := bits w 58 51
def sShares (w : W64) : Nat := bits w 50 47
def sDur (w : W64) : Nat := bits w 46 37
def sGap (w : W64) : Nat := bits w 36 27
def sNcmd (w : W64) : Nat := bits w 26 15
def sRref (w : W64) : Nat := bits w 14 11
/-- Fields of a chain step's word 1. -/
def sChip (w : W64) : Nat := bits w 63 56
def sRcls (w : W64) : Nat := bits w 55 54
def sRindex (w : W64) : Nat := bits w 53 46
def sRshares (w : W64) : Nat := bits w 45 42

/-- Key of a handle's record, and its GEN (07 R197). -/
def hKey (h : Nat) : Nat := h / 2 ^ 31 % 2 * 2048 + h / 2 ^ 20 % 2048
def hGen (h : Nat) : Nat := h % 2 ^ 20
/-- The handle of a record. -/
def handleOf (k gen : Nat) : Nat := k / 2048 * 2 ^ 31 + k % 2048 * 2 ^ 20 + gen

/-- The record that a handle names (07 R197). -/
def State.bookAt (s : State) (h : Nat) : Option Booking :=
  match SMap.find? s.book.recs (hKey h) with
  | some b => if b.gen = hGen h ∧ hGen h ≠ 0 ∧ h < 2 ^ 32 then some b else none
  | none => none

/-- A record changed. -/
def State.updRec (s : State) (k : Nat) (f : Booking → Booking) : State :=
  { s with book := { s.book with recs := SMap.upd s.book.recs k f } }

/-- Whether a booking still runs or may come to run: negotiating, booked, running, or on the wait list. -/
def Booking.live (b : Booking) : Bool := b.st == 1 || b.st == 2 || b.st == 3 || (b.st == 6 && b.waitAt.isSome)

/-- Shares that a step holds on an engine in one slot (07 R195): a SHARES = 2 half step holds one of each half. -/
def BStep.sharesOn (x : BStep) (cls idx : Nat) : Nat :=
  if sCls x.w0 ≠ cls then 0
  else if cls = 0 then (if idx = x.idx ∨ (sShares x.w0 = 2 ∧ idx = x.idx + 1) then 1 else 0)
  else if idx = x.idx then sShares x.w0 else 0

/-- Shares that bookings hold on an engine at a slot: committed, or tentative. A retired step holds none: the rest of its current slot is
unbooked capacity (07 R207). -/
def State.heldAt (s : State) (tent : Bool) (cls idx slot : Nat) : Nat :=
  (s.book.recs.map (fun e =>
    (e.2.steps.map (fun x => if x.tent == tent && !x.retired && x.slots.contains slot then x.sharesOn cls idx else 0)).foldl (· + ·) 0)).foldl (· + ·) 0
    + ((s.book.offers.filter (fun o => o.committed != tent && o.start ≤ slot && slot < o.start + o.dur)).map (fun o =>
        if o.cls ≠ cls then 0
        else if cls = 0 then (if idx = o.idx ∨ (o.shares = 2 ∧ idx = o.idx + 1) then 1 else 0)
        else if idx = o.idx then o.shares else 0)).foldl (· + ·) 0

/-- USED of a calendar slot (07 R178). -/
def State.used (s : State) (cls idx slot : Nat) : Nat := s.heldAt false cls idx slot

/-- The peer chip of a trained port (17 R441, R442). -/
def State.portPeer (s : State) (k : Nat) : Option Nat :=
  if s.dev.trained.testBit k then some (bits (SMap.get 0 s.dev.fxcfg k) 7 0) else none

/-- Whether a context holds a fabric port (15 R400). -/
def State.holdsPort (s : State) (c k : Nat) : Bool := bit (s.cw c 13) (32 + k)

/-- Indexes of the steps of the group that a step belongs to (07 R195). -/
def groupOfStep (l : List BStep) (i : Nat) : List Nat :=
  let first := ((List.range (i + 1)).filter (fun k => k = 0 ∨ !(match l[k]? with | some x => sPar x.w0 | none => false))).foldl max 0
  let rest := (span (first + 1) (l.length - (first + 1))).takeWhile (fun k => match l[k]? with | some x => sPar x.w0 | none => false)
  first :: rest

/-- How a command is to run, by its control word (12 R332, 07 R204). -/
inductive Slotting where
  | free
  | step (key i : Nat) (b : Booking) (x : BStep)
  | discard
  deriving DecidableEq, Repr

/-- Fields of a command control word (12 R329). -/
def ctlHandle (w : W64) : Nat := bits w 63 32
def ctlStep (w : W64) : Nat := bits w 31 29
def ctlNc (w : W64) : Nat := bits w 21 20
def ctlTp (w : W64) : Nat := bits w 4 0
/-- The tokens a command consumes. -/
def ctlConsumes (w : W64) : List Nat := ([bits w 9 5, bits w 14 10, bits w 19 15]).take (ctlNc w)
/-- The rules of the control word (12 R329). -/
def ctlOk (w : W64) : Bool :=
  bits w 28 22 == 0 && (3 ≤ ctlNc w || bits w 19 15 == 0) && (2 ≤ ctlNc w || bits w 14 10 == 0) && (1 ≤ ctlNc w || bits w 9 5 == 0)
    && (ctlHandle w != 0 || ctlStep w == 0)

/-- The booking step a command of a context and class names (12 R332): nothing for an unbooked command or a retired step. -/
def State.slotting (s : State) (c cls : Nat) (ctl : W64) : Slotting :=
  let h := ctlHandle ctl
  if h = 0 then .free
  else match s.bookAt h with
    | none => .discard
    | some b =>
      if b.ctx ≠ c then .discard
      else match b.steps[ctlStep ctl]? with
        | none => .discard
        | some x =>
          if sCls x.w0 ≠ cls then .discard
          else if b.st = 4 ∨ (b.live ∧ x.retired) then .free
          else if b.live then .step (hKey h) (ctlStep ctl) b x
          else .discard

/-- Whether a task's predecessors have retired (07 R193). -/
def State.predsDone (s : State) (t : Nat) : Bool :=
  match SMap.find? s.book.tasks t with
  | some k => k.preds.all (fun p => (SMap.find? s.book.tasks p).isNone)
  | none => true

/-- Whether a command may run in the current slot (07 R180, R204): in its step's window, or, unbooked or of a retired step, where no booking
uses the engine's slot. One of a booking that found no fit or was refused has no window. `engines` are the calendar engines it occupies. -/
def State.windowOpen (s : State) (ctl : W64) (engines : List (Nat × Nat)) : Bool :=
  let free := engines.all (fun e => s.used e.1 e.2 s.slotNo == 0)
  let h := ctlHandle ctl
  if h = 0 then free
  else match s.bookAt h with
    | none => free
    | some b =>
      match b.steps[ctlStep ctl]? with
      | none => free
      | some x => if x.retired ∨ b.st = 4 then free else !x.tent && x.slots.contains s.slotNo && s.predsDone b.task

end Sys2Proof.Machine
end

