-- ==== Sys2Proof/Machine/Work.lean ====
section
/-! DEFINITION. Tasks, launches and continuations (06 R154-R165, 07 R182-R193, R210): parking and starting threads, dealing leaf
items, retiring launches and tasks. -/

namespace Sys2Proof.Machine

/-- A fresh number, 1 or more. -/
def State.newId (s : State) : State × Nat := ({ s with nextId := s.nextId + 1 }, s.nextId + 1)

/-- Contexts at which a charge of a context counts: up to its tenant (15 R401), and the root, whose words count its subtree (R400). -/
def State.chargePath (s : State) (c : Nat) : List Nat := s.chain c

/-- The quota condition (15 R401): the root's limits bind nothing. -/
def State.quotaFree (s : State) (c : Nat) : Bool :=
  (s.chargePath c).all (fun x => (s.ctx x).depth == 0 || bits (s.cw x 14) 47 32 < bits (s.cw x 14) 63 48)

/-- INFL along the whole path up or down by one (15 R401). -/
def State.addInfl (s : State) (c : Nat) (up : Bool) : State :=
  (s.chargePath c).foldl (fun s x =>
    let w := s.cw x 14
    s.setCw x 14 (setBits w 47 32 (if up then bits w 47 32 + 1 else bits w 47 32 - 1))) s

/-- The cores of a context's partition, in core order. -/
def State.coresOf (s : State) (c : Nat) : List Nat := (List.range 128).filter (fun k => s.holdsSide c k 0 || s.holdsSide c k 1)

/-- Side of a stream of a core (15 R404). -/
def sideOf (st : Nat) : Nat := match st with | 2 => 1 | 3 => 1 | 5 => 1 | 7 => 1 | 16 => 1 | _ => 0

/-- A stop is requested of a context or of an ancestor (14 R389). -/
def State.stopAsked (s : State) (c : Nat) : Bool := (s.chain c).any (fun x => (s.ctx x).req)
/-- A stop is requested of a context's agents on one side (15 R412). -/
def State.sideAsked (s : State) (c core side : Nat) : Bool := (s.chain c).any (fun x => (SMap.find? (s.ctx x).sideReq (core * 2 + side)).isSome)

/-- Whether a context holds the resource of a calendar (07 R176, 15 R403). -/
def State.holdsEng (s : State) (c cls idx : Nat) : Bool :=
  match cls with
  | 0 => s.holdsSide c (idx / 2) (idx % 2)
  | 1 => (span (idx / 4 * 8) 8).any (fun k => s.holdsSide c k 0 || s.holdsSide c k 1)
  | 2 => s.holdsGroup c idx
  | _ => s.holdsPort c idx

/-- Whether a group or port is being revoked from a context or an ancestor: no new booking may use it (15 R411). -/
def State.goingEng (s : State) (c cls idx : Nat) : Bool :=
  s.jobs.any (fun j => j.phase != 0 && (s.chain c).contains j.ctx && (match j.kind with
    | .revoke 3 sv sw => cls == 2 && (if idx < 64 then bit sv idx else bit sw (idx - 64))
    | .revoke 4 sv _ => cls == 3 && bit sv idx
    | _ => false))

/-- Die of a calendar's resource (00 R3). -/
def dieOfEng (cls idx : Nat) : Nat :=
  match cls with
  | 0 => idx / 128
  | 1 => idx / 32
  | 2 => if idx < 64 then idx / 32 else (idx - 64) / 4
  | _ => idx / 8

/-- Tenants that hold a calendar's resource. -/
def State.holders (s : State) (cls idx : Nat) : List Nat := s.tenants.filter (fun t => s.holdsEng t cls idx)

/-- Whether a calendar's resource is time-shared (15 R399, R403): a copy engine is when a core of its cluster is. -/
def State.engShared (s : State) (cls idx : Nat) : Bool :=
  match cls with
  | 1 => (span (idx / 4 * 8) 8).any s.coreShared
  | 2 => false
  | _ => 2 ≤ (s.holders cls idx).length

/-- TEN of a slot (07 R178, 15 R410): the tenant number whose window holds it on a time-shared resource, else 0; with whether the
resource is time-shared. -/
def State.slotTen (s : State) (cls idx slot : Nat) : Nat × Bool :=
  if !s.engShared cls idx then (0, false)
  else match (s.holders cls idx).find? (fun t => s.windowOf t (dieOfEng cls idx) slot) with
    | some t => (s.tenNo t, true)
    | none => (0, true)

/-- window_ok of 07 R198 (R179): whether a booking of a context may take a slot of a resource. -/
def State.slotOk (s : State) (c cls idx slot : Nat) : Bool :=
  let (ten, shared) := s.slotTen cls idx slot
  if shared then ten == s.tenNo c else true

/-- Whether work of a context may start on a side of a core (14 R390, 15 R410, R412). -/
def State.mayStart (s : State) (c core side : Nat) : Bool :=
  (s.ctx c).stt == 2 && s.holdsSide c core side && !s.stopAsked c && !s.sideAsked c core side && s.coreOpen c core

/-- A progress event of a context (06 R173). -/
def State.progress (s : State) (c : Nat) : State := s.updCtx c (fun x => { x with wdCnt := 0 })

/-- Record places in use by a context (06 R165). -/
def State.placesUsed (s : State) (c : Nat) : List Nat :=
  let ofAg (m : SMap Agent) : List Nat := m.filterMap (fun e => match e.2.item with | some i => if i.ctx = c then i.place else none | none => none)
  let ofCore (m : SMap Core) : List Nat := m.flatMap (fun e => (e.2.deque ++ e.2.waiting).filterMap (fun k => if k.ctx = c then k.place else none))
  ofAg s.agents ++ ofCore s.cores ++ (match (s.ctx c).saved with | some v => ofAg v.agents | none => []) ++ ofAg (s.ctx c).aside.agents

/-- A free record place (06 R159, R165): the lowest in a block that holds records, else the first of the lowest free block; with
whether that block is new. -/
def State.freePlace (s : State) (c : Nat) : Option (Nat × Bool) :=
  let used := s.placesUsed c
  let old := ((used.map (· / 16)).eraseDups.flatMap (fun b => span (16 * b) 16)).filter (fun p => !used.contains p)
  match old with
  | p :: t => some (t.foldl min p, false)
  | [] => (s.freeBlock c).map (fun b => (16 * b, true))

/-- Virtual address of a record place (06 R161). -/
def State.placeVa (s : State) (c p : Nat) : W64 := s.blockVa c (p / 16) + BitVec.ofNat 64 (256 * (p % 16))

/-- The device's copy of words 23-25 of a continuation record (06 R161, R165): NW and ST, VSTAT, RASN and RASBLK. -/
def recDev (nw st : Nat) (vstat : W64) (rasn rasblk : Nat) : List W64 :=
  [BitVec.ofNat 64 (8 * nw + st), vstat &&& flagMask, BitVec.ofNat 64 (rasn * 2 ^ 16 + rasblk)]

/-- The device's copy for a place kept. -/
def State.setRec (s : State) (c p : Nat) (l : List W64) : State := s.updCtx c (fun x => { x with recs := SMap.put x.recs p l })

/-- ST of a record in use (06 R161): 1 waiting, 2 ready, 3 running. -/
def State.setRecSt (s : State) (c p st : Nat) : State :=
  s.updCtx c (fun x => { x with recs := SMap.upd x.recs p (fun l => setBits (l.getD 0 0) 1 0 st :: l.drop 1) })

/-- A record place that nothing uses any more (06 R165): the device's copy ends, and its block returns to the pool with its last record. -/
def State.dropPlace (s : State) (c p : Nat) : State :=
  let s := s.updCtx c (fun x => { x with recs := SMap.del x.recs p })
  if (s.placesUsed c).any (fun q => q / 16 == p / 16) then s else s.dropBlock c (p / 16)

/-- Every on-chip return address of an agent moved to its chain, oldest first (09 R270): whether all could. -/
def State.rasSpillAll (s : State) (core st : Nat) : Nat → State × Bool
  | 0 => (s, true)
  | n + 1 =>
    match (s.ag core st).ras.chip.reverse with
    | [] => (s, true)
    | v :: _ =>
      match s.rasSpill core st v with
      | (_, .error _) => (s, false)
      | (t, .ok _) => (t.updAg core st (fun a => { a with ras := { a.ras with chip := a.ras.chip.dropLast } })).rasSpillAll core st n

/-- What a slot keeps between threads: ISSDIAG alone (08 R237); everything else is set when a thread starts (06 R157, R164). -/
def Agent.vacant (a : Agent) : Agent := { Agent.blank with issdiag := a.issdiag }

/-- The unit conditions of a park (06 R159): at most sixteen registers kept, no active loop, no pending transfer. -/
def Agent.parkable (a : Agent) : Bool := popCount 64 a.live.toNat ≤ 16 && a.loop.isNone && a.xfer.isNone

/-- An agent's path closed and its state published at .dev (03 R94, 04 R104). -/
def State.release3 (s : State) (core st : Nat) : State × Clock :=
  let key := s.raceOf core st
  let (s, p) := s.publishClose key 3
  (s.capEpoch key, p.clk)

/-- A thread parked (06 R159-R161): its return addresses spilled, words 0-22 of its record written and the others kept (R165), its path closed and published at .dev (03 R94),
its slot and parking places freed; the continuation waits, or is ready at once. A park that fails has no effect beyond return
addresses already spilled. -/
def State.park (s : State) (core st : Nat) (pc : W64) (waits : List W64) : State × Bool :=
  let a := s.ag core st
  match a.item with
  | none => (s, false)
  | some it =>
    let c := it.ctx
    if !a.parkable then (s, false)
    else
      match s.rasSpillAll core st 16 with
      | (s, false) => (s, false)
      | (s, true) =>
        let got : Option (Nat × Bool) := match it.place with | some p => some (p, false) | none => s.freePlace c
        match got with
        | none => (s, false)
        | some (p, new) =>
          let a := s.ag core st
          let vals := (setBitsOf 64 a.live.toNat).map a.sreg
          let w2 := BitVec.ofNat 64 (b2n it.pin * 2 ^ 23 + core * 2 ^ 16 + c)
          let dev := recDev waits.length (if waits.isEmpty then 2 else 1) a.allFlags a.ras.spilled (a.ras.blocks.reverse.headD 0)
          let words := [setBits pc 63 52 0, it.workid, w2, a.live] ++ (vals ++ List.replicate (16 - vals.length) 0)
            ++ (waits ++ List.replicate (3 - waits.length) 0)
          match s.spillWrite c (s.placeVa c p) (bytes64 words) with
          | (_, .error _) => (s, false)
          | (s, .ok _) =>
            let s := (if new then s.takeBlock c (p / 16) else s).setRec c p dev
            let (s, pub) := s.release3 core st
            let s := s.clearParked core st
            let k : Cont := ⟨c, it.launch, it.index, it.workid, it.pin, false, some p, waits, waits.isEmpty, a.allFlags, a.live,
              a.ras.spilled, a.ras.blocks, a.held, pub, [], core⟩
            let s := (s.setAg core st a.vacant).count c core st 0xB 1
            (s.updCore core (fun x => if waits.isEmpty then { x with deque := k :: x.deque } else { x with waiting := x.waiting ++ [k] }), true)

/-- Fields of a launch header (06 R155). -/
def lhNf (h : List W64) : Nat := bits (h.getD 1 0) 44 42
def lhW (h : List W64) (f : Nat) : Nat := bits (h.getD 1 0) (7 * f + 6) (7 * f)
def lhX (h : List W64) (f : Nat) : Nat := bits (h.getD (2 + f / 2) 0) (32 * (f % 2) + 31) (32 * (f % 2))
def lhLdr (h : List W64) : Bool := bit (h.getD 0 0) 63
def lhStr (h : List W64) : Bool := bit (h.getD 0 0) 62
def lhPin (h : List W64) : Bool := bit (h.getD 0 0) 61
def lhEntry (h : List W64) : W64 := BitVec.ofNat 64 (bits (h.getD 0 0) 51 2 * 4)
/-- Number of leaf items (06 R156). -/
def lhItems (h : List W64) : Nat := ((List.range (lhNf h)).map (fun f => lhX h f + 1)).foldl (· * ·) 1

/-- A launch header is well formed (06 R156). -/
def lhOk (h : List W64) : Bool :=
  let img (on : Bool) (w : W64) : Bool := bits w 1 0 == 0 && (if on then 1 ≤ bits w 63 52 && bits w 63 52 ≤ 2048 else w == 0)
  bits (h.getD 0 0) 60 52 == 0 && bits (h.getD 0 0) 1 0 == 0 && bits (h.getD 1 0) 63 45 == 0 && 1 ≤ lhNf h && lhNf h ≤ 6
    && ((List.range 6).map (lhW h)).foldl (· + ·) 0 ≤ 64
    && (List.range 6).all (fun f => if f < lhNf h then 1 ≤ lhW h f && lhX h f < 2 ^ lhW h f else lhW h f == 0 && lhX h f == 0)
    && lhItems h ≤ 2 ^ 32 && img (lhLdr h) (h.getD 5 0) && img (lhStr h) (h.getD 6 0)

/-- Field values of a leaf item, outermost first (06 R157). -/
def lhDigits (h : List W64) (i : Nat) : List Nat :=
  ((List.range (lhNf h)).reverse.foldl (fun (x : Nat × List Nat) f => (x.1 / (lhX h f + 1), x.1 % (lhX h f + 1) :: x.2)) (i, [])).2

/-- Work identifier of a leaf item (06 R157). -/
def lhWorkid (h : List W64) (i : Nat) : W64 :=
  BitVec.ofNat 64 (((lhDigits h i).zipIdx.foldl (fun (x : Nat × Nat) e =>
    let top := x.1 - lhW h e.2
    (top, x.2 + e.1 * 2 ^ top)) (64, 0)).2)

/-- A leaf item not started (06 R158). -/
def newItem (c launch i : Nat) (h : List W64) (clk : Clock) (home : Nat) : Cont :=
  ⟨c, launch, i, lhWorkid h i, lhPin h, true, none, [], true, 0, 0, 0, [], none, clk, [], home⟩

/-- A launch's items dealt over the partition as it stands (06 R158); held undealt while the context holds no core. -/
def State.deal (s : State) (l : Nat) (clk : Clock) : State :=
  match SMap.find? s.launches l with
  | none => s
  | some x =>
    let cs := s.coresOf x.ctx
    if x.dealt ∨ cs.isEmpty then s
    else
      let h := x.words
      let size := if lhNf h = 1 then 1 else lhX h (lhNf h - 1) + 1
      let mine (k : Nat) : List Nat := (List.range (lhItems h)).filter (fun i => i / size % cs.length == k)
      let s := cs.zipIdx.foldl (fun s e =>
        s.updCore e.1 (fun y => { y with deque := (mine e.2).map (fun i => newItem x.ctx l i h clk e.1) ++ y.deque })) s
      { s with launches := SMap.put s.launches l { x with dealt := true } }

/-- What a task's booking has come to: the completion code once it is over, 0 where there is none (07 R183, R210). -/
def State.bookOver (s : State) (t : Task) : Option Nat :=
  match t.booking with
  | none => if t.want.isSome then none else some 0
  | some h =>
    match s.bookAt h.toNat with
    | none => some 0
    | some b =>
      match b.st with
      | 4 => some 0
      | 5 => some 4
      | 6 => if b.waitAt.isSome then none else some 3
      | 7 => some 2
      | _ => none

/-- Word 3 of a task entry written where it lies (07 R185, 13 R358). -/
def State.writeDone (s : State) (c : Nat) (entry : Option W64) (code handle : Nat) : State :=
  match entry with
  | none => s
  | some a => (s.bookWrite c (a + 24) (toBytes 8 (2 ^ 63 + code * 2 ^ 60 + handle))).1

/-- A task changed. -/
def State.updTask (s : State) (k : Nat) (f : Task → Task) : State := { s with book := { s.book with tasks := SMap.upd s.book.tasks k f } }

/-- A task retires (07 R210, 13 R358): word 3 written, the unit returned or freed, its range entries freed, tc produced, its state
passed to the tasks that wait on it. -/
def State.retireTask (s : State) (k : Nat) (t : Task) (code : Nat) : State :=
  let bclk : Clock := match t.booking.bind (fun h => s.bookAt h.toNat) with | some b => b.clk | none => Clock.empty
  let clk := t.clk.join bclk
  let s := s.writeDone t.ctx t.entry code (match t.booking with | some h => h.toNat | none => 0)
  let lentFrom : Option Nat := t.parent.bind (fun p => match SMap.find? s.book.tasks p with | some y => if y.lent = some k then some p else none | none => none)
  let s := match lentFrom with
    | some p => s.updTask p (fun y => { y with lent := none })
    | none => if t.lent.isSome then s else s.addInfl t.ctx false
  let s := { s with book := { s.book with tasks := (SMap.del s.book.tasks k).map (fun e =>
    if e.2.preds.contains k then (e.1, { e.2 with inh := e.2.inh.join clk }) else e) } }
  match t.tok with
  | some (core, r) => s.produceFor t.ctx core r clk
  | none => s

/-- Tasks that can start or retire do so, one after another (06 R151, 07 R193, R210): a started task's launch is dealt. -/
def State.settleTasks : Nat → State → State
  | 0, s => s
  | n + 1, s =>
    match List.find? (fun e => e.2.admitted && !e.2.ready && s.predsDone e.1) s.book.tasks with
    | some (k, t) =>
      let s := s.updTask k (fun y => { y with ready := true })
      (match t.launch with | some l => s.deal l t.inh | none => s).settleTasks n
    | none =>
      match List.find? (fun e => e.2.admitted && e.2.ready && (s.bookOver e.2).isSome
          && (match e.2.launch with | some l => (SMap.find? s.launches l).isNone | none => true)) s.book.tasks with
      | some (k, t) => (s.retireTask k t ((s.bookOver t).getD 0)).settleTasks n
      | none => s

/-- Every task that can, settled. -/
def State.settled (s : State) : State := s.settleTasks (2 * s.book.tasks.length + 1)

/-- A launch whose items have all ended and whose sidecars have all halted retires (06 R151). -/
def State.launchCheck (s : State) (l : Nat) : State :=
  match SMap.find? s.launches l with
  | some x => if x.left = 0 ∧ x.sides = [] then ({ s with launches := SMap.del s.launches l }).settled else s
  | none => s

/-- A leaf item that has ended (06 R165, 13 R354): its record place and spilled return addresses freed, its state kept with its task. -/
def State.itemOver (s : State) (c launch : Nat) (handler : Bool) (place : Option Nat) (ras : List Nat) (clk : Clock) : State :=
  let s := match place with | some p => s.dropPlace c p | none => s
  let s := ras.foldl (fun s b => s.dropBlock c b) s
  if handler then s
  else match SMap.find? s.launches launch with
    | none => s
    | some l =>
      let s := { s with launches := SMap.put s.launches launch { l with left := l.left - 1 } }
      let s := s.updTask l.task (fun t => { t with clk := t.clk.join clk })
      s.launchCheck launch

/-- TASK.EXIT of a thread (13 R354): the path closed and its state published for the tasks that wait on its task's retirement (03 R78, 04
R104), the places and the slot freed, progress counted. -/
def State.exitThread (s : State) (core st : Nat) : State :=
  let a := s.ag core st
  let c := a.ctx
  let (s, clk) := s.release3 core st
  let s := s.clearParked core st
  let s := (s.setAg core st a.vacant).progress c
  match a.item with
  | some i => s.itemOver c i.launch i.handler i.place a.ras.blocks clk
  | none => s

/-- A thread or an entry discarded, which counts as having executed TASK.EXIT (13 R373). -/
def State.dropCont (s : State) (k : Cont) : State :=
  (s.progress k.ctx).itemOver k.ctx k.launch k.held.isSome k.place k.rasBlocks k.clk

/-- A sidecar stopped for good (06 R151, 09 R275): its state is published with its task's retirement (03 R78), and its launch may retire. -/
def State.haltSide (s : State) (core st : Nat) : State :=
  let a := s.ag core st
  let key := s.raceOf core st
  let (s, pub) := s.publish key 3
  let s := (s.capEpoch key).setAg core st a.vacant
  let s := a.ras.blocks.foldl (fun s b => s.dropBlock a.ctx b) s
  match a.item with
  | none => s
  | some i =>
    match SMap.find? s.launches i.launch with
    | none => s
    | some l =>
      let s := { s with launches := SMap.put s.launches i.launch { l with sides := l.sides.filter (· != core * 6 + st) } }
      (s.updTask l.task (fun t => { t with clk := t.clk.join pub.clk })).launchCheck i.launch

/-- Sidecars of a core that a launch loads for its context (06 R151, 15 R404): loader on side H0, storer on side H1. -/
def State.sidesWanted (s : State) (c core : Nat) (h : List W64) : List Nat :=
  (if lhLdr h && s.holdsSide c core 0 then [4] else []) ++ (if lhStr h && s.holdsSide c core 1 then [5] else [])

/-- Whether a leaf item may not be taken by a core yet: it would load an image into a sidecar that still runs (06 R151). -/
def State.heldBack (s : State) (core : Nat) (k : Cont) : Bool :=
  k.isNew && k.held.isNone &&
    (match SMap.find? s.launches k.launch with
      | some l => !l.cores.any (fun e => e.1 == core) && (s.sidesWanted k.ctx core l.words).any (fun st => (s.ag core st).item.isSome)
      | none => false)

/-- States joined by a starting agent (03 R78, R94). -/
def State.joinStart (s : State) (core st : Nat) (k : Cont) : State :=
  let key := s.raceOf core st
  let s := (s.joinBoth key k.clk).joinBoth key (s.ctx k.ctx).stopClk
  let r := s.rs key
  if k.bs.isEmpty then s else s.setRs key { r with bs := k.bs.foldl (fun m e => SMap.put m e.1 e.2) r.bs }

/-- A core takes its first leaf item of a launch: its sidecars begin to load, ordered after what the item is (06 R151, 13 R353, 03 R78). -/
def State.startSides (s : State) (core : Nat) (k : Cont) : State :=
  match SMap.find? s.launches k.launch with
  | none => s
  | some l =>
    if !k.isNew ∨ k.held.isSome ∨ l.cores.any (fun e => e.1 == core) then s
    else
      let w := s.sidesWanted k.ctx core l.words
      let l := { l with cores := l.cores ++ [(core, k.workid)], sides := l.sides ++ w.map (fun st => core * 6 + st) }
      let s := { s with launches := SMap.put s.launches k.launch l }
      w.foldl (fun s st => (s.setAg core st { Agent.blank with
        run := .running, item := some ⟨k.ctx, k.launch, k.index, k.workid, false, none, false⟩, loading := true, ready := s.cycle }).joinStart core st k) s

/-- The vector registers of a starting thread: values that a program must not use (10 R279). -/
def freshVregs (n : Nat) : SMap VReg := (List.range 16).map (fun i => (i, .undef (n * 64 + i)))

/-- A continuation started in a slot (06 R157, R164, 14 R384): a new leaf item, a handler, or a parked thread from words 0-22 of its record as
they stand and the device's copy of the others (06 R165). It does not start where its record cannot be read; a poisoned record abandons it, in
freeze mode with the core frozen (14 R386, R394). -/
def State.startCont (s : State) (core st : Nat) (k : Cont) : Option State :=
  let s := { s with fresh := s.fresh + 1 }
  let c := k.ctx
  let a0 : Agent := { (s.ag core st).vacant with run := .running, ready := s.cycle }
  let item (handler : Bool) : Item := ⟨c, k.launch, k.index, k.workid, k.pin, k.place, handler⟩
  let put (a : Agent) : State := (s.setAg core st a).joinStart core st k
  if k.isNew then
    match k.held with
    | some h =>
      let regs : Regs := ⟨SMap.set 0 (SMap.set 0 [] 1 h.addr) 2 (BitVec.ofNat 64 h.entry), [], [], freshVregs s.fresh⟩
      some (put { a0 with item := some (item true), pc := h.pc, held := some h, regs := regs })
    | none =>
      let w := match SMap.find? s.launches k.launch with | some l => l.words | none => []
      let regs : Regs := ⟨SMap.set 0 [] 1 (w.getD 7 0), [], [], freshVregs s.fresh⟩
      some ((put { a0 with item := some (item false), pc := lhEntry w, regs := regs }).startSides core k)
  else
    match k.place with
    | none => none
    | some p =>
      match s.access c .read true (s.placeVa c p) 184 with
      | (_, .error _) => none
      | (s, .ok ps) =>
        match s.firstPsn ps with
        | some y =>
          let t : TrapInfo := ⟨.umem, 0, y.va - BitVec.ofNat 64 (y.a % 64), 0, s.placeVa c p, none, false, none⟩
          let frz := bit (s.ctx c).trap.mode 0
          let s := if frz then s.freezeCore c core st else s
          let words := s.recordWords c core st t frz noCapture []
          some ((s.deliver ⟨Cause.umem.code, true, c, core, st, 0, words⟩ (s.candidates c .umem 0 frz)).dropCont k)
        | none =>
          let w := words64 23 (s.load ps)
          let s := s.l2Pieces ps false
          let s := s.setRecSt c p 3
          let live := w.getD 3 0 &&& ~~~ (1 : W64)
          let regs : SMap W64 := ((setBitsOf 64 live.toNat).zipIdx.foldl (fun m e => SMap.set 0 m e.1 (w.getD (4 + e.2) 0)) [])
          let a : Agent := { a0 with
            item := some { item k.held.isSome with workid := w.getD 1 0, pin := bit (w.getD 2 0) 23 }, pc := BitVec.ofNat 64 (bits (w.getD 0 0) 51 2 * 4),
            regs := ⟨regs, [], [], freshVregs s.fresh⟩, vstat := k.vstat &&& flagMask, live := live, ras := ⟨[], k.rasn, k.rasBlocks⟩, held := k.held }
          some ((s.setAg core st a).joinStart core st k)

/-- The free slot of a core in which a continuation may start, its bank emptied (06 R163, 02 R51). -/
def State.openSlot (s : State) (core : Nat) (k : Cont) : List Nat → Option (State × Nat)
  | [] => none
  | st :: t =>
    if (s.ag core st).item.isSome || !s.mayStart k.ctx core (sideOf st) || s.frozen k.ctx core then s.openSlot core k t
    else match s.evictBank core st with
      | (s', true) => some (s', st)
      | (_, false) => s.openSlot core k t

/-- Whether an entry may start on a core at all: PIN keeps it on its first core (06 R154), and its launch's sidecars must be free. -/
def State.startable (s : State) (core : Nat) (k : Cont) : Bool := !s.heldBack core k && (s.openSlot core k (List.range 4)).isSome

/-- The newest entry of a core's own deque that may start (06 R163). -/
def State.takeIndex (s : State) (core : Nat) : Option Nat :=
  if (List.range 4).all (fun st => (s.ag core st).item.isSome) then none
  else ((s.core core).deque.zipIdx.find? (fun e => s.startable core e.1)).map (·.2)

/-- Cores that a thief searches, in order (06 R163): its cluster's others after itself, then its die's other clusters after its own. -/
def stealOrder (core : Nat) : List Nat :=
  let k := core / 8
  let d := core / 64
  (span 1 7).map (fun i => 8 * k + (core % 8 + i) % 8) ++ (span 1 7).flatMap (fun i => span (8 * (8 * d + (k % 8 + i) % 8)) 8)

/-- What a core with a free slot steals (06 R163): victim and position of the oldest entry without PIN of a context whose own deque there
is empty, and that no other core claims in this cycle. -/
def State.stealFrom (s : State) (claimed : List (Nat × Nat)) (core : Nat) : Option (Nat × Nat) :=
  if (List.range 4).all (fun st => (s.ag core st).item.isSome) then none
  else (stealOrder core).findSome? (fun v =>
    ((s.core v).deque.zipIdx.reverse.find? (fun e =>
      !e.1.pin && !claimed.contains (v, e.2) && !(s.core core).deque.any (fun k => k.ctx == e.1.ctx) && s.startable core e.1)).map (fun e => (v, e.2)))

/-- The entries that other cores take in the same cycle before a thief (06 R175): what their owners take, and lower-numbered thieves. -/
def State.claims (s : State) (core : Nat) : List (Nat × Nat) :=
  let owners := (s.thisCycle.filterMap (fun t => match t with | .event (.continuationTake v) => (s.takeIndex v).map (fun i => (v, i)) | _ => none))
  (List.range core).foldl (fun l k =>
    if s.thisCycle.any (fun t => match t with | .event (.continuationSteal j) => j == k | _ => false) then (match s.stealFrom l k with | some x => x :: l | none => l) else l) owners

/-- What a core with a free slot steals (06 R163, R175). -/
def State.stealIndex (s : State) (core : Nat) : Option (Nat × Nat) := s.stealFrom (s.claims core) core

/-- An entry of a deque started on a core, which becomes its HOME. -/
def State.startFrom (s : State) (v i core : Nat) : State :=
  match (s.core v).deque[i]? with
  | none => s
  | some k =>
    match s.openSlot core k (List.range 4) with
    | none => s
    | some (s, st) =>
      let s := s.updCore v (fun x => { x with deque := x.deque.eraseIdx i })
      match s.startCont core st { k with home := core } with
      | some t => t
      | none => s.updCore v (fun x => { x with deque := x.deque.take i ++ k :: x.deque.drop i })

/-- CONTINUATION_TAKE (06 R163). -/
def execContinuationTake (core : Nat) (s : State) : Out :=
  match s.takeIndex core with
  | some i => .next (s.startFrom core i core)
  | none => .next s

/-- CONTINUATION_STEAL (06 R163). -/
def execContinuationSteal (core : Nat) (s : State) : Out :=
  match s.stealIndex core with
  | some (v, i) =>
    let c := (((s.core v).deque[i]?).map (·.ctx)).getD 0
    .next ((s.startFrom v i core).count c core 0 0xC 1)
  | none => .next s

/-- A wait descriptor for an arrival word (06 R162). -/
def waitArr (gen clu off : Nat) : W64 := BitVec.ofNat 64 (2 * 2 ^ 62 + gen * 2 ^ 48 + clu * 2 ^ 44 + off / 8 * 8)
/-- A wait descriptor for a token. -/
def waitTok (core t : Nat) : W64 := BitVec.ofNat 64 (2 ^ 62 + core * 2 ^ 16 + t)

/-- Arrival words of a continuation's descriptors: scratchpad address and generation. -/
def State.waitArrs (s : State) (k : Cont) : List (Option Nat × Nat) :=
  (k.waits.filter (fun w => bits w 63 62 == 2)).map (fun w => (s.arrAddr k.ctx (bits w 47 44) (BitVec.ofNat 64 (bits w 24 3 * 8)), bits w 55 48))
/-- Tokens of a continuation's descriptors: core and register. -/
def waitToksOf (k : Cont) : List (Nat × Nat) := (k.waits.filter (fun w => bits w 63 62 == 1)).map (fun w => (bits w 22 16, bits w 4 0))

/-- Whether a waiting continuation's events are all satisfied (06 R162). -/
def State.contReady (s : State) (k : Cont) : Bool :=
  (s.waitArrs k).all (fun e => match e.1 with | some a => arrGen (s.rdSp64 a) != e.2 | none => false)
    && (waitToksOf k).all (fun e => ((waitToksOf k).filter (· == e)).length ≤ SMap.get 0 (s.regs k.ctx e.1).toks e.2)

/-- CONTINUATION_READY (06 R162): the consumes performed, the episode states joined, the entry pushed on its home deque. -/
def execContinuationReady (core i : Nat) (s : State) : Out :=
  match (s.core core).waiting[i]? with
  | none => .next s
  | some k =>
    if !s.contReady k then .next s
    else
      let eps := (s.waitArrs k).filterMap (fun e => e.1.map (fun a => (let (_, ep, _, es) := s.arrSt a; (ep, es))))
      let (s, tclk) := (waitToksOf k).foldl (fun (x : State × Clock) e =>
        let r := x.1.regs k.ctx e.1
        (x.1.updRegs k.ctx e.1 (fun c => { c with toks := SMap.set 0 c.toks e.2 (SMap.get 0 c.toks e.2 - 1) }),
          x.2.join ((SMap.find? r.tokClk e.2).getD Clock.empty))) (s, Clock.empty)
      let clk := eps.foldl (fun c e => c.join e.1) (k.clk.join tclk)
      let bs := eps.foldl (fun m e => (span 1 e.2).foldl (fun m x => SMap.put m x e.1) m) k.bs
      let k := { k with ready := true, clk := clk, bs := bs }
      let s := match k.place with | some p => s.setRecSt k.ctx p 2 | none => s
      .next (s.updCore core (fun x => { x with waiting := x.waiting.eraseIdx i, deque := k :: x.deque }))

end Sys2Proof.Machine
end

