-- ==== Sys2Proof/Machine/Calendar.lean ====
section
/-! DEFINITION. Booking searches, commits, slips and backfill, the two-phase messages, the booking log (07 R194-R214). -/

namespace Sys2Proof.Machine

/-- Shares bookable in a slot (07 R176). -/
def bookable (cls : Nat) : Nat := match cls with | 0 => 1 | 1 => 1 | 2 => 6 | _ => 8
/-- Number of engines of a class. -/
def classSize (cls : Nat) : Nat := match cls with | 0 => 256 | 1 => 64 | 2 => 72 | _ => 16

/-- Engines that a step occupies, with its shares on each: SHARES 2 on MXH takes both halves of a core (07 R195). -/
def stepEngs (cls idx shares : Nat) : List (Nat × Nat) := if cls = 0 then (if shares = 2 then [(idx, 1), (idx + 1, 1)] else [(idx, 1)]) else [(idx, shares)]

/-- Whether a context holds what a step on an engine needs. -/
def State.holdsStep (s : State) (c cls idx shares : Nat) : Bool :=
  (stepEngs cls idx shares).all (fun e => s.holdsEng c cls e.1 && !s.goingEng c cls e.1 && (cls != 2 || groupPresent s.dev e.1 0))

/-- cand of 07 R198: INDEX, or the held engines of the class; for a remote step the held ports to its chip (17 R442). An absent channel group
has no calendar (R176), and only what the context holds may be booked (R179). -/
def State.cands (s : State) (c : Nat) (x : BStep) : List Nat :=
  let cls := sCls x.w0
  if !sAny x.w0 then [sIndex x.w0].filter (fun i => s.holdsStep c cls i (sShares x.w0))
  else (List.range (classSize cls)).filter (fun i =>
    (!(cls == 0 && sShares x.w0 == 2) || i % 2 == 0) && s.holdsStep c cls i (sShares x.w0)
      && (!sRem x.w0 || s.portPeer i == some (sChip x.w1)))

/-- Slots that a step still asks for: DUR, or one more once it has begun (07 R206). -/
def BStep.dur (x : BStep) : Nat := if x.begun then 1 else sDur x.w0

/-- A step that is not retired and holds no slot from the current one on: it is to be placed. -/
def State.unplaced (s : State) (x : BStep) : Bool := !x.retired && x.slots.all (fun k => k < s.slotNo)

/-- Shares held on an engine at a slot by bookings other than those listed, by remote offers, committed or tentative. -/
def State.heldBut (s : State) (but : List Nat) (cls idx slot : Nat) : Nat :=
  let t := { s with book := { s.book with recs := SMap.keep s.book.recs (fun k _ => !but.contains k) } }
  t.heldAt false cls idx slot + t.heldAt true cls idx slot

/-- Shares on an engine at a slot of the steps of a group placed before (07 R198, own). -/
def ownShares (acc : List (BStep × Nat)) (start cls idx slot : Nat) : Nat :=
  (acc.map (fun e => if slot < start + e.1.dur then { e.1 with idx := e.2 }.sharesOn cls idx else 0)).foldl (· + ·) 0

/-- fits of 07 R198: a step on an engine from a slot, beside the steps of its group placed before. -/
def State.fits (s : State) (c : Nat) (but : List Nat) (acc : List (BStep × Nat)) (x : BStep) (idx start : Nat) : Bool :=
  let cls := sCls x.w0
  (span start x.dur).all (fun u =>
    u ≤ s.slotNo + 1023 && (stepEngs cls idx (sShares x.w0)).all (fun e =>
      s.slotOk c cls e.1 u && s.heldBut but cls e.1 u + ownShares acc start cls e.1 u + e.2 ≤ bookable cls))

/-- Engines on which a step may be placed: its resolved engine, while its context holds it, or its candidates. -/
def State.places (s : State) (c : Nat) (x : BStep) : List Nat :=
  if x.fixed && s.holdsStep c (sCls x.w0) x.idx (sShares x.w0) then [x.idx] else s.cands c x

/-- A group's steps placed at one slot, each on its lowest engine that fits. -/
def State.placeGroup (s : State) (c : Nat) (but : List Nat) (start : Nat) : List BStep → List (BStep × Nat) → Option (List (BStep × Nat))
  | [], acc => some acc
  | x :: t, acc =>
    match (s.places c x).find? (fun i => s.fits c but acc x i start) with
    | none => none
    | some i => s.placeGroup c but start t (acc ++ [(x, i)])

/-- The earliest slot from `start` on at which a group fits within the horizon, with its engines. -/
def State.findSlot (s : State) (c : Nat) (but : List Nat) (g : List BStep) : Nat → Nat → Option (Nat × List (BStep × Nat))
  | 0, _ => none
  | n + 1, start =>
    let d := (g.map (·.dur)).foldl max 0
    if s.slotNo + 1024 < start + d then none
    else match s.placeGroup c but start g [] with
      | some l => some (start, l)
      | none => s.findSlot c but g n (start + 1)

/-- The groups of a chain, as step numbers (07 R195). -/
def groupsOf (l : List BStep) : List (List Nat) :=
  (List.range l.length).filterMap (fun i => let g := groupOfStep l i; if g.headD 0 = i then some g else none)

/-- The slot after the last slot of a list. -/
def endOf (l : List Nat) : Nat := (l.map (· + 1)).foldl max 0
/-- end of 07 R198 for a booking. -/
def Booking.endSlot (b : Booking) : Nat := endOf (b.steps.flatMap (·.slots))

/-- greedy of 07 R198 over the groups that hold a step to be placed: step number, engine, first slot. -/
def State.greedy (s : State) (b : Booking) : List (List Nat) → Nat → Option (List (Nat × Nat × Nat))
  | [], _ => some []
  | g :: t, gend =>
    let xs := g.filterMap (fun i => (b.steps[i]?).map (fun x => (i, x)))
    let todo := xs.filter (fun e => s.unplaced e.2)
    match todo with
    | [] => s.greedy b t (max gend (endOf (xs.flatMap (fun e => e.2.slots))))
    | (_, x0) :: _ =>
      let gap := match xs with | (_, y) :: _ => if y.begun then 0 else sGap y.w0 | [] => sGap x0.w0
      let lo := (todo.map (fun e => b.alts.getD e.1 0)).foldl max (gend + gap)
      match s.findSlot b.ctx [] (todo.map (·.2)) 1025 lo with
      | none => none
      | some (start, l) =>
        let pl := (todo.zip l).map (fun e => (e.1.1, e.2.2, start))
        let gend' := start + (todo.map (fun e => e.2.dur)).foldl max 0
        (s.greedy b t gend').map (fun r => pl ++ r)

/-- Whether a search of a booking may run: each predecessor has retired or holds a placed booking (07 R193), its context runs, and no
placement is under negotiation. -/
def State.maySearch (s : State) (b : Booking) : Bool :=
  (b.st == 1 || b.st == 2 || b.st == 3) && b.steps.any s.unplaced && !b.steps.any (·.tent) && (s.ctx b.ctx).stt == 2 && !s.stopAsked b.ctx &&
    (match SMap.find? s.book.tasks b.task with
      | none => true
      | some t => t.preds.all (fun p =>
        match SMap.find? s.book.tasks p with
        | none => true
        | some q => match q.booking.bind (fun h => s.bookAt h.toNat) with
          | some y => (y.st == 2 || y.st == 3) && !y.steps.any (fun x => s.unplaced x || x.tent)
          | none => false))

/-- The lower bound of a booking's search (07 R198): after the current slot, NOTBEFORE after admission, the ends of its predecessors. -/
def State.lowerBound (s : State) (b : Booking) : Nat :=
  let ps := match SMap.find? s.book.tasks b.task with | some t => t.preds | none => []
  let ends := ps.map (fun p =>
    match (SMap.find? s.book.tasks p).bind (fun t => t.booking.bind (fun h => s.bookAt h.toNat)) with
    | some y => y.endSlot
    | none => 0)
  ends.foldl max (max (s.slotNo + 1) (b.adm + 1 + bits b.hdr 43 34))

/-- A flit sent on a port (17 R440). -/
def State.sendFlit (s : State) (port : Nat) (f : Flit) : State := { s with fxOut := s.fxOut ++ [(port, f)] }

/-- A booking message (17 R440): kind, tag, start, duration, remote engine, alternative. -/
def State.message (s : State) (port kind dst tag start dur rcls ridx rsh : Nat) (alt : Option Nat) : State :=
  s.sendFlit port ⟨kind, s.dev.chip, dst, tag, 0, false, 0, [], BitVec.ofNat 64 start,
    BitVec.ofNat 64 (rsh * 2 ^ 20 + ridx * 2 ^ 12 + rcls * 2 ^ 10 + dur),
    match alt with | some a => BitVec.ofNat 64 (2 ^ 63 + a) | none => 0⟩

/-- A step's message to its remote leg. -/
def State.legMsg (s : State) (x : BStep) (kind start dur : Nat) : State :=
  s.message x.idx kind (sChip x.w1) x.tag start dur (sRcls x.w1) (sRindex x.w1) (sRshares x.w1) none

/-- A step of a record changed. -/
def State.updStep (s : State) (k i : Nat) (f : BStep → BStep) : State :=
  s.updRec k (fun b => { b with steps := b.steps.zipIdx.map (fun e => if e.2 = i then f e.1 else e.1) })

/-- A record by its key. -/
def State.recOf (s : State) (k : Nat) : Option Booking := SMap.find? s.book.recs k

/-- A booking log record's words (07 R213). -/
def logWords (kind slot handle seq : Nat) (b : Booking) : List W64 :=
  let half (k : Nat) : Nat := match b.steps[k]? with
    | some x => (((x.slots.headD slot) + 1024 - slot % 1024) % 1024) * 2 ^ 22 + x.idx * 2 ^ 14
    | none => 0
  [BitVec.ofNat 64 (kind * 2 ^ 61 + slot % 2 ^ 48), BitVec.ofNat 64 (handle * 2 ^ 32 + seq)]
    ++ (List.range 4).map (fun j => BitVec.ofNat 64 (half (2 * j + 1) * 2 ^ 32 + half (2 * j))) ++ [0, 0]

/-- The booking log of a context's tenant changed. -/
def State.updBlog (s : State) (c : Nat) (f : BlogSt → BlogSt) : State := s.updCtx (s.tenant c) (fun x => { x with blog := f x.blog })

/-- Record i of a tenant's log, if the log holds it. -/
def State.logAt (s : State) (c i : Nat) : Option (List W64) :=
  let t := s.tenant c
  let r := (s.ctx t).blog.reg
  if bits r 63 52 * 65536 < 64 * (i + 1) then none
  else ((s.bookRead t (BitVec.ofNat 64 (bits r 51 16 * 65536 + 64 * i)) 64).2).map (words64 8)

/-- Records that a tenant's log can hold. -/
def State.logRoom (s : State) (c : Nat) : Nat := bits (s.ctx (s.tenant c)).blog.reg 63 52 * 1024

/-- Replay stops (07 R214): DIV set, MODE 00, and each die's booking unit writes a DIVERGE record with SEQ and handle of the log record
that was not followed to the tenant's ring (16 R431, R425). -/
def State.diverge (s : State) (c : Nat) (w : Option (List W64)) : State :=
  let s := s.updBlog c (fun g => { g with reg := setBits (setBits g.reg 3 3 1) 1 0 0, session := g.session + 1 })
  let x := (w.getD []).getD 1 0
  [0, 64].foldl (fun s core => s.trace 6 (s.tenant c) core 15 Spot.none (BitVec.ofNat 64 (bits x 31 0)) (BitVec.ofNat 64 (bits x 63 32))) s

/-- Sequence number of a booking's task (07 R213). -/
def State.seqOf (s : State) (b : Booking) : Nat := match SMap.find? s.book.tasks b.task with | some t => t.seq | none => 0

/-- Whether a booking is recorded (1) or replayed (2), or neither (0): as its tenant's log stood at its admission (07 R215), until recording
or replay has stopped or begun anew. -/
def State.logMode (s : State) (b : Booking) : Nat :=
  match SMap.find? s.book.tasks b.task with
  | some t => if t.log.2 = (s.ctx (s.tenant b.ctx)).blog.session then t.log.1 else 0
  | none => 0

/-- An event of a tenant's booking put in its log, or compared with it (07 R213, R214): kinds 2-4 are not imposed. DESIGN CHOICE (log 177):
a full log sets MODE to 00 beside FULL, and a record whose write faults in translation is dropped while the position advances. -/
def State.logEvent (s : State) (kind k : Nat) : State :=
  match s.recOf k with
  | none => s
  | some b =>
    let t := s.tenant b.ctx
    let g := (s.ctx t).blog
    match s.logMode b with
    | 1 =>
      if bits g.reg 63 52 * 65536 < 64 * (g.pos + 1) then
        s.updBlog b.ctx (fun g => { g with reg := setBits (setBits g.reg 2 2 1) 1 0 0, session := g.session + 1 })
      else
        let s := (s.bookWrite t (BitVec.ofNat 64 (bits g.reg 51 16 * 65536 + 64 * g.pos))
          (bytes64 (logWords kind s.slotNo (handleOf k b.gen) (s.seqOf b) b))).1
        s.updBlog b.ctx (fun g => { g with pos := g.pos + 1 })
    | 2 =>
      if kind < 2 then s
      else
        let hit := (List.range (s.logRoom b.ctx)).any (fun i =>
          match s.logAt b.ctx i with
          | some w => bits (w.getD 0 0) 63 61 == kind && bits (w.getD 1 0) 31 0 == s.seqOf b && bits (w.getD 0 0) 47 0 + g.base == s.slotNo + g.first
          | none => false)
        if hit then s else s.diverge b.ctx (s.logAt b.ctx g.pos)
    | _ => s

/-- The commit or backfill record of a task in its tenant's log (07 R214): its SEQ's first, from a position on. A record with handle 0 was
never written, and ends the log. -/
def State.commitOf (s : State) (c seq : Nat) : Nat → Nat → Option (Nat × List W64)
  | 0, _ => none
  | n + 1, i =>
    match s.logAt c i with
    | none => none
    | some w =>
      if bits (w.getD 1 0) 63 32 = 0 then none
      else if bits (w.getD 0 0) 63 61 ≤ 1 ∧ bits (w.getD 1 0) 31 0 = seq then some (i, w)
      else s.commitOf c seq n (i + 1)

/-- Tasks on a die's wait list (07 R201), those being searched again counted. -/
def State.waitList (s : State) (die : Nat) : Nat :=
  (s.book.recs.filter (fun e => e.1 / 2048 == die && e.2.waitAt.isSome && (e.2.st == 6 || e.2.st == 1 || e.2.st == 2))).length

/-- A search that found no fit (07 R201): refused with its token produced, or on the die's wait list; of bookings placed before, one that a
stop has unplaced whole (START 0, 14 R392) likewise, and any other is searched again later. The next search starts afresh, with no alternative
and no refusal counted (R198). -/
def State.noFit (s : State) (k reason : Nat) : State :=
  match s.recOf k with
  | none => s
  | some b =>
    let s := s.updRec k (fun b => { b with alts := [], refusals := 0 })
    let refuse (r : Nat) : State :=
      ((s.updRec k (fun b => { b with st := 6, reason := r, waitAt := none })).produceFor b.ctx (bits b.hdr 50 44) (bits b.hdr 55 51) b.clk).settled
    if !(b.st == 1 || b.st == 2 && b.start == 0 && b.steps.all (fun x => !x.retired && !x.begun && x.slots.isEmpty)) then s
    else if b.waitAt.isSome then s.updRec k (fun b => { b with st := 6, reason := reason, waitAt := some s.slotNo })
    else if !bit b.hdr 56 then refuse reason
    else if 64 ≤ s.waitList (k / 2048) then refuse 4
    else
      let s := { s with book := { s.book with stamp := s.book.stamp + 1 } }
      s.updRec k (fun b => { b with st := 6, reason := reason, waitAt := some s.slotNo, stamp := s.book.stamp })

/-- A held placement given up (07 R198, unhold; R202): RELEASE to every step that was offered. -/
def State.unhold (s : State) (k : Nat) : State :=
  match s.recOf k with
  | none => s
  | some b =>
    let s := (b.steps.filter (fun x => x.tent && (x.leg == .offered || (match x.leg with | .asked _ => true | _ => false)))).foldl (fun s x =>
      if x.leg == .offered then (let l := x.slots.filter (fun u => s.slotNo < u); s.legMsg x 0x14 (l.headD 0) l.length) else s) s
    s.updRec k (fun b => { b with steps := b.steps.map (fun x =>
      if x.tent then { x with tent := false, fixed := x.fixed && b.st != 1, leg := .none, slots := x.slots.filter (fun u => u ≤ s.slotNo) } else x) })

/-- A placement held tentatively (07 R198, hold). -/
def State.holdPlacement (s : State) (k : Nat) (pl : List (Nat × Nat × Nat)) : State :=
  pl.foldl (fun s e => s.updStep k e.1 (fun x => { x with idx := e.2.1, slots := x.slots ++ span e.2.2 x.dur, tent := true, fixed := true, leg := .none })) s

/-- Runs of consecutive slots in a rising list: first slot and length. -/
def runsOf : List Nat → List (Nat × Nat)
  | [] => []
  | u :: t => match runsOf t with
    | (v, n) :: r => if v = u + 1 then (u, n + 1) :: r else (u, 1) :: (v, n) :: r
    | [] => [(u, 1)]

/-- Slots of an engine put up for backfill (07 R208), in one run with those beside them. -/
def State.addFreed (s : State) (cls idx : Nat) (slots : List Nat) : State :=
  let mine (r : Nat × Nat × Nat × Nat) : Bool := r.1 == cls && r.2.1 == idx
  let all := ((s.book.freed.filter mine).flatMap (fun r => span r.2.2.1 r.2.2.2) ++ slots).filter (fun u => s.slotNo < u)
  let runs := runsOf (all.eraseDups.mergeSort (fun a b => a ≤ b))
  { s with book := { s.book with freed := s.book.freed.filter (fun r => !mine r) ++ runs.map (fun r => (cls, idx, r.1, r.2)) } }

/-- Slots that a step gives up after the current one, put up for backfill (07 R207, R208). -/
def State.freeSlots (s : State) (x : BStep) (slots : List Nat) : State :=
  (stepEngs (sCls x.w0) x.idx (sShares x.w0)).foldl (fun s e => s.addFreed (sCls x.w0) e.1 slots) s

/-- A committed step's slots after the current one freed, with its remote leg released (07 R207, R209). -/
def State.freeStep (s : State) (k i : Nat) : State :=
  match (s.recOf k).bind (fun b => b.steps[i]?) with
  | none => s
  | some x =>
    let later := x.slots.filter (fun u => s.slotNo < u)
    let s := if x.tent then s else s.freeSlots x later
    let s := if (x.leg == .committed || x.leg == .offered) && !later.isEmpty then s.legMsg x 0x14 (later.headD 0) later.length else s
    s.updStep k i (fun x => { x with slots := x.slots.filter (fun u => u ≤ s.slotNo), tent := false, leg := if later.isEmpty then x.leg else .none })

/-- A booking ends (07 R209, R210): its status, its token on register TOKEN of core TCORE, the tasks that can go on. -/
def State.endBooking (s : State) (k st : Nat) : State :=
  match s.recOf k with
  | none => s
  | some b => ((s.updRec k (fun b => { b with st := st, waitAt := none })).produceFor b.ctx (bits b.hdr 50 44) (bits b.hdr 55 51) b.clk).settled

/-- A step whose NCMD-th command has completed retires (07 R204, R207, R210). -/
def State.retireStep (s : State) (k i : Nat) : State :=
  let s := s.freeStep k i
  let s := s.updStep k i (fun x => { x with retired := true })
  match s.recOf k with
  | none => s
  | some b =>
    let s := s.progress b.ctx
    if b.steps.all (·.retired) ∧ b.live then s.endBooking k 4 else s

/-- A command of a step has completed, with its state (07 R204, R210). -/
def State.countCmd (s : State) (k i : Nat) (clk : Clock) : State :=
  let s := s.updStep k i (fun x => { x with count := x.count + 1 })
  let s := s.updRec k (fun b => { b with clk := b.clk.join clk })
  match (s.recOf k).bind (fun b => b.steps[i]?) with
  | some x => if !x.retired ∧ sNcmd x.w0 ≤ x.count then s.retireStep k i else s
  | none => s

/-- Commands of a booking in every queue: those not begun go; the others stop for good at their next boundary (07 R209). -/
def State.dropCmds (s : State) (p : Cmd → Bool) : State :=
  { s with cores := s.cores.map (fun e => (e.1, { e.2 with eq := (e.2.eq.map (fun q =>
      (q.1, q.2.filterMap (fun c => if !p c || c.ended then some c else if c.started && c.fault.isNone then some { c with susp := 4 } else none)))).filter (fun q => !q.2.isEmpty) })) }

/-- START of a booking that has not ended (07 R200): 0 where its first step has lost its slots and is to be placed again. -/
def Booking.firstSlot (b : Booking) : Nat :=
  match b.steps with
  | x :: _ => if x.slots.isEmpty && !x.retired then 0 else b.start
  | [] => b.start

/-- A booking cancelled (07 R209). -/
def State.cancelBooking (s : State) (k : Nat) : State :=
  match s.recOf k with
  | none => s
  | some b =>
    let s := s.logEvent 4 k
    let s := (s.unhold k).updRec k (fun x => { x with start := b.firstSlot })
    let s := (List.range b.steps.length).foldl (fun s i => s.freeStep k i) s
    let s := s.dropCmds (fun c => ctlHandle c.ctl == handleOf k b.gen && c.ctx == b.ctx)
    s.endBooking k 5

/-- Bookings that derive a booking as a predecessor, directly or transitively (07 R206), as record keys. -/
def State.depAux (s : State) : Nat → List Nat → List Nat
  | 0, ts => ts
  | n + 1, ts =>
    let more := (s.book.tasks.filter (fun e => !ts.contains e.1 && e.2.preds.any (ts.contains ·))).map (·.1)
    if more.isEmpty then ts else s.depAux n (ts ++ more)

/-- bk and dep*(bk) in dependence order. -/
def State.depSet (s : State) (k : Nat) : List Nat :=
  match s.recOf k with
  | none => []
  | some b =>
    let ts := s.depAux s.book.tasks.length [b.task]
    k :: (ts.filter (· != b.task)).mergeSort.filterMap (fun t =>
      ((SMap.find? s.book.tasks t).bind (fun y => y.booking)).map (fun h => hKey h.toNat))

/-- START of a booking after a move (07 R200): the first slot that its first step holds. -/
def State.noteStart (s : State) (k : Nat) : State :=
  s.updRec k (fun b => { b with start := match b.steps with | x :: _ => x.slots.headD b.start | [] => b.start })

/-- A group of a booking that has not started moved to the earliest slot from `need` on where it fits on its engines (07 R206), counting the
slots of the bookings `but` free; one with a remote leg, or that fits nowhere within the horizon, is left to be placed again. -/
def State.moveGroup (s : State) (k : Nat) (but : List Nat) (b : Booking) (g : List Nat) (need : Nat) : State :=
  let xs := g.filterMap (fun i => b.steps[i]?)
  let s' := g.foldl (fun s i => s.freeStep k i) s
  if xs.any (fun x => sRem x.w0) then s'
  else match s'.findSlot b.ctx but (xs.map (fun x => { x with slots := [] })) 1025 need with
    | none => s'
    | some (start, _) => (g.foldl (fun s i => s.updStep k i (fun x => { x with slots := span start x.dur })) s').noteStart k

/-- One booking of a reflow (07 R206): a group that starts before its need moves, taking slots of the bookings of the set that have not been
placed in this reflow (`firm`); a group of such a booking whose slots another has taken moves the same way. With the bookings placed so far
and whether a group moved. -/
def State.reflowOne (s : State) (set firm : List Nat) (k : Nat) : State × List Nat × Bool :=
  match s.recOf k with
  | none => (s, firm, false)
  | some b =>
    let preds := match SMap.find? s.book.tasks b.task with | some t => t.preds | none => []
    let lo := (preds.map (fun p => match (SMap.find? s.book.tasks p).bind (fun t => t.booking.bind (fun h => s.bookAt h.toNat)) with
      | some y => y.endSlot | none => 0)).foldl max 0
    let r := (groupsOf b.steps).foldl (fun (x : State × Bool × Nat) g =>
      let (s, moved, gend) := x
      match s.recOf k with
      | none => x
      | some b =>
        let xs := g.filterMap (fun i => b.steps[i]?)
        let gap := match xs with | y :: _ => sGap y.w0 | [] => 0
        let need := if g.headD 0 = 0 then max lo gend else gend + gap
        let start := (xs.flatMap (fun y => y.slots.take 1)).foldl max 0
        let waiting := xs.all (fun y => !y.begun && !y.retired) && xs.any (fun y => y.slots.any (fun u => s.slotNo ≤ u))
        let taken := !(moved || firm.contains k) && xs.any (fun y => y.slots.any (fun u => s.slotNo < u
          && (stepEngs (sCls y.w0) y.idx (sShares y.w0)).any (fun e => bookable (sCls y.w0) < s.heldAt false (sCls y.w0) e.1 u)))
        let but := k :: set.filter (fun j => !firm.contains j)
        let (s, moved) := if waiting && (start < need || taken) then (s.moveGroup k but b g (max need (s.slotNo + 1)), true) else (s, moved)
        match s.recOf k with
        | some b => (s, moved, max gend (endOf ((g.filterMap (fun i => b.steps[i]?)).flatMap (·.slots))))
        | none => (s, moved, gend)) (s, false, 0)
    (r.1, if r.2.1 then k :: firm else firm, r.2.1)

/-- reflow of 07 R206 over a set in dependence order, repeated while a move has taken a slot of another booking of the set. -/
def State.reflow (s : State) (set firm : List Nat) : Nat → State
  | 0 => s
  | n + 1 =>
    let r := set.foldl (fun (x : State × List Nat × Bool) k => let (s, f, m) := x.1.reflowOne set x.2.1 k; (s, f, x.2.2 || m)) (s, firm, false)
    if r.2.2 then r.1.reflow set r.2.1 n else r.1

/-- A booking and those that depend on it reflowed (07 R206): its own slots stand. -/
def State.reflowed (s : State) (k : Nat) : State := s.reflow (s.depSet k) [k] 64

/-- A missed start or a slip counted (07 R200), and logged. -/
def State.addSlip (s : State) (k kind : Nat) (core : Option Nat) : State :=
  let s := s.updRec k (fun b => { b with slips := min 63 (b.slips + 1) })
  match s.recOf k with
  | some b =>
    let s := s.logEvent kind k
    match core with
    | some core => s.count b.ctx core 15 0xA 1
    | none => s
  | none => s

/-- The core on whose halves a step stands (16 R429, event 10), if it stands on one here. -/
def BStep.core (x : BStep) : Option Nat := if sCls x.w0 = 0 ∧ !sRem x.w0 then some (x.idx / 2) else none

/-- A step that missed its start (07 R205): its slots freed, placed again on its resolved engine from the current slot on, its booking
reflowed; a remote one, or one that finds no slot within the horizon, is placed again by a search, and its booking is reflowed then. -/
def State.missStart (s : State) (k i : Nat) : State :=
  match s.recOf k with
  | none => s
  | some b =>
    match b.steps[i]? with
    | none => s
    | some x =>
      let s := s.addSlip k 3 x.core
      let s := s.freeStep k i
      let s := s.updStep k i (fun x => { x with slots := [] })
      if sRem x.w0 then s
      else match s.findSlot b.ctx [] [{ x with slots := [] }] 1025 s.slotNo with
        | none => s
        | some (start, _) => ((s.updStep k i (fun x => { x with slots := span start x.dur })).noteStart k).reflowed k

/-- The slip rule for a running step whose window has ended (07 R206). The rest of a remote step is placed by a search, and its booking is
reflowed then. -/
def State.slip (s : State) (k i : Nat) : State :=
  match s.recOf k with
  | none => s
  | some b =>
    match b.steps[i]? with
    | none => s
    | some x =>
      let s := s.addSlip k 2 x.core
      let one := { x with slots := [] }
      if sRem x.w0 then s.updStep k i (fun x => { x with leg := .none })
      else if s.fits b.ctx (s.depSet k) [] one x.idx s.slotNo then (s.updStep k i (fun x => { x with slots := x.slots ++ [s.slotNo] })).reflowed k
      else match s.findSlot b.ctx [] [one] 1025 (s.slotNo + 1) with
        | none => s
        | some (r, _) => (s.updStep k i (fun x => { x with slots := x.slots ++ [r] })).reflowed k

/-- Commands of a step that have come to their end and are about to complete. -/
def State.ending (s : State) (h i : Nat) : Nat :=
  (s.cores.flatMap (fun e => e.2.eq.flatMap (fun q => q.2.filter (fun c =>
    ctlHandle c.ctl == h && ctlStep c.ctl == i && c.ended && c.fault.isNone && c.susp != 4 && !s.flights.any (fun f => f.cmd == c.id))))).length

/-- A placement becomes committed (07 R199): USED counts its slots. One made for a step of a booking placed before is followed by the reflow of
that booking (R205, R206). -/
def State.commitRec (s : State) (k kind : Nat) : State :=
  let again := match s.recOf k with | some b => b.st != 1 && b.st != 6 | none => false
  let s := { s with book := { s.book with stamp := s.book.stamp + 1 } }
  let s := s.updRec k (fun b =>
    let steps := b.steps.map (fun x => { x with tent := false })
    let start := match steps with | x :: _ => x.slots.headD b.start | [] => 0
    { b with steps := steps, st := if b.st = 3 then 3 else 2, reason := 0, start := start, stamp := s.book.stamp, waitAt := none, refusals := 0, alts := [] })
  let s := s.logEvent kind k
  if again then s.reflowed k else s

/-- The first remote step of a held placement not asked yet sends its PREPARE; with none left the placement commits and its COMMITs go out
(07 R202, R203). -/
def State.negotiate (s : State) (k kind : Nat) : State :=
  match s.recOf k with
  | none => s
  | some b =>
    let waits := b.steps.any (fun x => x.tent && sRem x.w0 && (match x.leg with | .asked _ => true | _ => false))
    if waits then s
    else match b.steps.zipIdx.find? (fun e => e.1.tent && sRem e.1.w0 && e.1.leg == .none) with
      | some (x, i) =>
        let tag := s.book.nextTag + 1
        let s := { s with book := { s.book with nextTag := tag } }
        let x := { x with tag := tag, leg := .asked s.slotNo }
        let now := x.slots.filter (fun u => s.slotNo < u)
        (s.updStep k i (fun _ => x)).legMsg x 0x10 (now.headD 0) now.length
      | none =>
        let off := b.steps.filter (fun x => x.tent && x.leg == .offered)
        let s := off.foldl (fun s x => let l := x.slots.filter (fun u => s.slotNo < u); s.legMsg x 0x13 (l.headD 0) l.length) s
        let s := s.updRec k (fun b => { b with steps := b.steps.map (fun x => if x.tent && x.leg == .offered then { x with leg := .committed } else x) })
        s.commitRec k kind

/-- The placement of a log record for a booking (07 R214): SLOT and offsets relative to the slot in which replay began. -/
def replayPlacement (g : BlogSt) (w : List W64) (b : Booking) : List (Nat × Nat × Nat) :=
  let at0 := bits (w.getD 0 0) 47 0 + g.base - g.first
  (List.range b.steps.length).map (fun k =>
    let h := bits (w.getD (2 + k / 2) 0) (32 * (k % 2) + 31) (32 * (k % 2))
    (k, h / 2 ^ 14 % 256, at0 + h / 2 ^ 22))

/-- One search of a booking (07 R198), or in replay mode the log's placement (R214). -/
def State.search (s : State) (k : Nat) : State :=
  match s.recOf k with
  | none => s
  | some b =>
    let g := (s.ctx (s.tenant b.ctx)).blog
    let plain (s : State) : State :=
      match s.greedy b (groupsOf b.steps) (s.lowerBound b) with
      | none => s.noFit k 0
      | some pl => (s.holdPlacement k pl).negotiate k 0
    if s.logMode b = 2 ∧ b.st = 1 then
      match s.commitOf b.ctx (s.seqOf b) (s.logRoom b.ctx) 0 with
      | none => plain (s.diverge b.ctx (s.logAt b.ctx g.pos))
      | some (i, w) =>
        let pl := replayPlacement g w b
        let free := pl.all (fun e => match b.steps[e.1]? with
          | some x => s.slotNo < e.2.2 && (s.cands b.ctx x).contains e.2.1 && s.fits b.ctx [] [] x e.2.1 e.2.2
          | none => false)
        if free then ((s.updBlog b.ctx (fun g => { g with pos := max g.pos (i + 1) })).holdPlacement k pl).negotiate k 0
        else plain (s.diverge b.ctx (some w))
    else plain s

/-- BOOKING_SEARCH (07 R198, R193). -/
def execBookingSearch (handle : W32) (s : State) : Out :=
  let k := hKey handle.toNat
  match s.bookAt handle.toNat with
  | none => .next s
  | some b => if s.maySearch b then .next (s.search k) else .next s

/-- Whether a task on a die's wait list is due for another search (07 R201). -/
def State.waitDue (s : State) (die : Nat) : List Nat :=
  (s.book.recs.filter (fun e => e.1 / 2048 == die && e.2.st == 6 &&
    (match e.2.waitAt with | some t => t + 64 ≤ s.slotNo | none => false))).map (·.1)

/-- WAIT_LIST_SEARCH (07 R201): the oldest task that is due is searched again. -/
def execWaitListSearch (die : Nat) (s : State) : Out :=
  let due := s.waitDue die
  match due.foldl (fun (m : Option (Nat × Nat)) k =>
      match s.recOf k with
      | some b => (match m with | some (st, _) => if b.stamp < st then some (b.stamp, k) else m | none => some (b.stamp, k))
      | none => m) none with
  | none => .next s
  | some (_, k) =>
    let t := s.updRec k (fun b => { b with st := 1 })
    .next (match t.recOf k with
      | some b => if t.maySearch b then t.search k else s.updRec k (fun b => { b with waitAt := some s.slotNo })
      | none => s)

/-- What the boundary that begins the current slot does to the bookings (07 R205, R206): missed starts and slips, in order of
commit. A step whose last command completes at the boundary retires and does not slip (R215). A booking is running (07 R200) from the start of
its first command on. -/
def State.boundaryBookings (s : State) : State :=
  let n := s.slotNo
  let keys := ((s.book.recs.filter (fun e => e.2.st == 2 || e.2.st == 3)).mergeSort (fun a b => a.2.stamp ≤ b.2.stamp)).map (·.1)
  keys.foldl (fun s k =>
    match s.recOf k with
    | none => s
    | some b => (List.range b.steps.length).foldl (fun s i =>
      match (s.recOf k).bind (fun b => b.steps[i]?) with
      | none => s
      | some x =>
        if x.retired ∨ x.tent then s
        else if !x.begun && x.slots.headD n < n then s.missStart k i
        else if x.begun && endOf x.slots == n && x.count + s.ending (handleOf k b.gen) i < sNcmd x.w0 then s.slip k i
        else s) s) s

/-- The one-step tasks of an engine's wait list that fit in a freed run, oldest first (07 R208): order, record, first slot, length. A task that
replays its log is placed by its record alone (R214). -/
def State.fillers (s : State) (cls idx first len : Nat) : List (Nat × Nat × Nat × Nat) :=
  (s.book.recs.filterMap (fun e =>
    match e.2.steps with
    | [x] =>
      let lo := max first (s.lowerBound e.2)
      let y := { x with slots := [] }
      if e.1 / 2048 = dieOfEng cls idx ∧ e.2.st = 6 ∧ e.2.waitAt.isSome ∧ !sRem x.w0 ∧ sCls x.w0 = cls ∧ (s.cands e.2.ctx x).contains idx
        ∧ lo + x.dur ≤ first + len ∧ (s.ctx e.2.ctx).stt = 2 ∧ !s.stopAsked e.2.ctx ∧ s.logMode e.2 ≠ 2 ∧ s.fits e.2.ctx [] [] y idx lo then
        some (e.2.stamp, e.1, lo, x.dur)
      else none
    | _ => none)).mergeSort (fun a b => a.1 ≤ b.1)

/-- BACKFILL (07 R208): the first freed run of an engine takes the oldest one-step task of its die's wait list that fits in it, or is given
up. -/
def execBackfill (cls idx : Nat) (s : State) : Out :=
  match s.book.freed.find? (fun r => r.1 == cls && r.2.1 == idx) with
  | none => .next s
  | some r =>
    let (_, _, first, len) := r
    let rest := s.book.freed.erase r
    let s := { s with book := { s.book with freed := rest } }
    match s.fillers cls idx first len with
    | [] => .next s
    | (_, k, lo, d) :: _ =>
      let s := (s.holdPlacement k [(0, idx, lo)]).commitRec k 1
      let left := (if first < lo then [(cls, idx, first, lo - first)] else []) ++ (if lo + d < first + len then [(cls, idx, lo + d, first + len - (lo + d))] else [])
      .next { s with book := { s.book with freed := left ++ s.book.freed } }

/-- A booking's steps to be searched again (14 R392, 15 R413): slots after the current one freed. -/
def State.unplace (s : State) (k : Nat) : State :=
  match s.recOf k with
  | none => s
  | some b =>
    let s := s.unhold k
    (List.range b.steps.length).foldl (fun s i =>
      match b.steps[i]? with
      | some x => if x.retired then s else (s.freeStep k i).updStep k i (fun x => { x with fixed := x.begun })
      | none => s) (s.updRec k (fun b => { b with alts := [], refusals := 0 }))

/-- The activity forecast of a die (07 R211). -/
def State.forecast (s : State) (die w : Nat) : W64 :=
  let lo := s.slotNo + 390625 * w / 10000
  let hi := s.slotNo + 390625 * (w + 1) / 10000
  let slots := span lo (hi - lo)
  let part (cls : Nat) (engs : List Nat) (cap : Nat) : Nat :=
    let total := (engs.map (fun e => (slots.map (fun u => s.used cls e u)).foldl (· + ·) 0)).foldl (· + ·) 0
    let full := cap * engs.length * slots.length
    if full = 0 then 0 else total * 255 / full
  let groups := ((List.range 72).filter (fun g => dieOfEng 2 g == die && groupPresent s.dev g 0))
  let live := s.book.recs.isEmpty && s.book.offers.isEmpty
  let waiting := s.waitList die
  let heads := (s.ctxs.map (fun e =>
    let d := match s.coresOf e.1 with | c :: _ => dieOf c | [] => 0
    if d = die then (e.2.headAt.filter (fun h => h.2 != 0)).length else 0)).foldl (· + ·) 0
  let qd := min 0xFFFF (waiting + heads) * 2 ^ 16
  if live then BitVec.ofNat 64 qd
  else BitVec.ofNat 64 (part 0 (span (128 * die) 128) 1 * 2 ^ 56 + part 1 (span (32 * die) 32) 1 * 2 ^ 48 + part 2 groups 8 * 2 ^ 40
    + part 3 (span (8 * die) 8) 8 * 2 ^ 32 + qd)

/-- AFW0-AFW7 of both dies rewritten (07 R211). -/
def State.rewriteAfw (s : State) : State :=
  let vals := (List.range 16).map (fun k => (k, s.forecast (k / 8) (k % 8)))
  { s with dev := { s.dev with afw := vals.foldl (fun m e => SMap.set 0 m e.1 e.2) s.dev.afw } }

/-- A calendar slot word (07 R178). -/
def State.slotWord (s : State) (cls idx slot : Nat) : W64 :=
  let owner := s.book.recs.foldl (fun (m : Option (Nat × Nat)) e =>
    if e.2.steps.any (fun x => !x.tent && !x.retired && x.slots.contains slot && x.sharesOn cls idx != 0) then
      (match m with
       | some (st, _) => if st < e.2.stamp then some (e.2.stamp, handleOf e.1 e.2.gen) else m
       | none => some (e.2.stamp, handleOf e.1 e.2.gen))
    else m) none
  let tsh := s.heldAt true cls idx slot
  BitVec.ofNat 64 ((match owner with | some (_, h) => h | none => 0) * 2 ^ 32 + (s.slotTen cls idx slot).1 * 2 ^ 24
    + b2n (tsh != 0) * 2 ^ 8 + tsh * 2 ^ 4 + s.used cls idx slot)

/-- A booking status word (07 R200); of one that has ended, START is as the end left it (19 R453). -/
def Booking.status (b : Booking) : W64 :=
  let step := (b.steps.findIdx? (fun x => !x.retired)).getD 0
  let start := if b.st = 4 ∨ b.st = 5 then b.start else b.firstSlot
  BitVec.ofNat 64 (b.st * 2 ^ 61 + (if 6 ≤ b.st then b.reason else 0) * 2 ^ 57 + step * 2 ^ 54 + b.slips * 2 ^ 48 + start % 2 ^ 48)

end Sys2Proof.Machine
end

