-- ==== Sys2Proof/Machine/Commands.lean ====
section
/-! DEFINITION. Issuing engine commands (12 R328-R348, 10 R303, R304): format words, handles (01 R32-R36), the issue checks of 12 R330,
the queues. -/

namespace Sys2Proof.Machine

/-- The first check that fails. -/
def firstFail : List (Bool × (State → State)) → Option (State → State)
  | [] => none
  | (bad, f) :: t => if bad then some f else firstFail t

/-- Fields of a format word (12 R333). -/
def fA (w : W64) : Nat := bits w 63 60
def fB (w : W64) : Nat := bits w 59 56
def fL (w : W64) (isB : Bool) : Nat := if bit w (if isB then 54 else 55) then 16 else 32
def fN (w : W64) : Nat := match bits w 53 52 with | 0 => 0 | 1 => 4 | 2 => 8 | _ => 16
def fZero (w : W64) : Bool := bit w 51
def fFull (w : W64) : Bool := bit w 50
def fRow0 (w : W64) : Nat := bits w 47 36
def fK (w : W64) : Nat := 32 * (bits w 35 29 + 1)
def fAV (w : W64) : Bool := bit w 28
def fBV (w : W64) : Bool := bit w 27
def fRows (w : W64) : Nat := if fFull w then 64 else 32
/-- Whether a type code is a BX format. -/
def isBx (t : Nat) : Bool := t == 8 || t == 9

/-- A format word is well formed (12 R334); `bx4`: type code 9 is legal only where the BX4 feature is on (17 R438). -/
def fmtOk (bx4 : Bool) (w : W64) : Bool :=
  (bx4 || (fA w != 9 && fB w != 9)) && bits w 49 48 == 0 && bits w 26 16 == 0
    && ((isBx (fA w) && isBx (fB w)) || (fA w == fB w && (fA w == 1 || fA w == 2 || fA w == 7)))
    && (isBx (fA w) || !bit w 55) && (isBx (fB w) || !bit w 54)
    && (bits w 53 52 == 0 || (isBx (fA w) && !bit w 55))
    && (bits w 35 29 == 0 || (!fAV w && !fBV w))

/-- Length of a block pair: 16 K indexes where a block length is 16, else 32 (05 R144). -/
def fPair (w : W64) : Nat := if bit w 55 || bit w 54 then 16 else 32

/-- Row widths of an operand's planes (12 R336). -/
def planeWidths (t k l n : Nat) : List Nat :=
  match t with
  | 7 => [k]
  | 8 => if n = 0 then [k, 2 * k / l] else [k * n / 32, k / 16, k / 8]
  | 9 => if n = 0 then [k / 2, 2 * k / l] else [k * n / 64, k / 16, k / 8]
  | _ => [2 * k]
/-- Plane widths of A and of B. -/
def widthsA (w : W64) : List Nat := planeWidths (fA w) (fK w) (fL w false) (fN w)
def widthsB (w : W64) : List Nat := planeWidths (fB w) (fK w) (fL w true) 0

/-- Physical addresses that stand for every byte of a range: where its channel group can change, and its last byte. -/
def samples (d : Dev) : Nat → Nat → Nat → List Nat
  | 0, a, _ => [a]
  | n + 1, a, e =>
    if e ≤ a then []
    else
      let stop := if a < 0x006000000000 then a / (6 * gib) * (6 * gib) + 6 * gib
        else if tier2Base ≤ a ∧ a < 0x050000000000 then tier2Base + ((a - tier2Base) / 0x008000000000 + 1) * 0x008000000000 else e
      let b := min e stop
      let k := match setOf d a with | some w => 2 ^ isetWays w | none => 1
      ((List.range (min k ((b - 1) / 4096 - a / 4096 + 1))).map (fun i => max a ((a / 4096 + i) * 4096))) ++ [b - 1] ++ samples d n b e

/-- A handle-table entry as the device reads it: cached (01 R40), or from the table (01 R33, R34). -/
def State.hEntry (s : State) (c i : Nat) : List W64 :=
  match s.dev.hnd.find? (fun e => e.1 == c && e.2.1 == i) with
  | some e => e.2.2
  | none => (List.range 3).map (fun k => s.rdP64 (bits (s.cw c 2) 51 12 * 4096 + 32 * i + 8 * k))

/-- The handle checks of 01 R35, in order: the resolved range, or the reason. -/
def State.resolve (s : State) (c : Nat) (h : W64) (off len : Nat) (dst : Bool) : Except Nat HRange :=
  let logn := bits (s.cw c 2) 56 52
  let i := bits h 19 0
  if bits h 63 36 ≠ 0 then .error 0
  else if logn = 0 ∨ 20 < logn ∨ 2 ^ logn ≤ i then .error 1
  else
    let e := s.hEntry c i
    let w0 := e.getD 0 0
    let w1 := e.getD 1 0
    let w2 := e.getD 2 0
    let base := bits w1 51 6 * 64
    let size := bits w2 51 6 * 64
    if !bit w0 0 then .error 2
    else if bits w0 63 32 ≠ 0 ∨ bits w0 15 4 ≠ 0 ∨ bits w1 63 52 ≠ 0 ∨ bits w1 5 0 ≠ 0 ∨ bits w2 63 52 ≠ 0 ∨ bits w2 5 0 ≠ 0
        ∨ !((samples s.dev 96 base (base + size)).all (present s.dev))
        ∨ (bit w0 3 ∧ size ≠ 0 ∧ !(tier1 base && tier1 (base + size - 1))) then .error 6
    else if bits w0 31 16 ≠ bits h 35 20 then .error 3
    else if size < off + len then .error 4
    else if !(if dst then bit w0 2 else bit w0 1) then .error 5
    else .ok ⟨base, size, bit w0 3 && s.chkOn, c, i, bits w0 31 16⟩

/-- The handle fault of the unit being issued (01 R36). -/
def State.raiseHandle (s : State) (reason : Nat) (dst : Bool) (h off : W64) : State :=
  s.raise .handle (BitVec.ofNat 64 (reason + 16 * b2n dst)) h off

/-- The first byte of a range that the context's tenant may not reach (15 R407). -/
def State.groupRefused (s : State) (c a n : Nat) : Option Nat := (samples s.dev 96 a (a + n)).find? (fun x => !s.groupOk c x)

/-- Check 6 of 12 R330 for one handle and the byte ranges that it names: the range, or the fault. -/
def State.handleCheck (s : State) (h off : W64) (len : Nat) (dst : Bool) (spans : List (Nat × Nat)) : Except (State → State) HRange :=
  let c := s.myCtx
  match s.resolve c h off.toNat len dst with
  | .error r => .error (fun s => s.raiseHandle r dst h off)
  | .ok x =>
    match spans.findSome? (fun e => (s.groupRefused c (x.base + e.1) e.2).map (fun a => (a, e.1))) with
    | some (a, _) => .error (fun s => s.raise .xlate (faultWord (if dst then .write else .read) ⟨0, 6, 0, false, 0, false⟩)
        (BitVec.ofNat 64 (a - x.base)) (BitVec.ofNat 64 a))
    | none => .ok x

/-- The stream number of the queue that holds a context's vector chains on a core (15 R404): 16 for the H1 side of a split core. -/
def State.chainQ (s : State) (c core : Nat) : Nat := if !s.holdsSide c core 0 && s.holdsSide c core 1 then 16 else 8

/-- Race key of an engine for a context (03 R74, R94): the engine of a core by stream number; H0 stands for an unsplit engine. -/
def State.engKey (s : State) (c core q : Nat) : Nat :=
  let agt := if q ≤ 7 then 8 * (core % 8) + (if s.wholeEngine c core then 6 else q) else if q ≤ 12 then 64 + (q - 9) else 68
  raceKey (s.tenNo c) (cluOf core) agt

/-- The state of an engine agent at an access of a command (03 R87): the command's, its own entry reading its epoch. -/
def State.engClk (s : State) (key : Nat) (clk : Clock) : Clock := ⟨SMap.set 0 clk.vc (keyEnt key) (s.rs key).epoch, clk.fr⟩

/-- The commands that an engine's queues hold for a tenant (03 R92). -/
def State.engQueued (s : State) (c core q : Nat) : Nat :=
  let cs := if q ≤ 7 then [core] else span (cluOf core * 8) 8
  let qs := if q ≤ 7 ∧ s.wholeEngine c core then [6, 7] else [q]
  (cs.map (fun k => (qs.map (fun x => ((s.eq k x).filter (fun y => s.tenNo y.ctx == s.tenNo c)).length)).foldl (· + ·) 0)).foldl (· + ·) 0

/-- Check 10 of 12 R330. -/
def State.engExhausted (s : State) (c core q : Nat) : Bool := maxEpoch < (s.rs (s.engKey c core q)).epoch + s.engQueued c core q + 1

/-- The port that a booked CP.X with REM = 1 uses, trained or not (12 R332): its traffic waits for the training. -/
def State.bookedPort (s : State) (b : Booking) (i chip : Nat) : Option Nat :=
  ((groupOfStep b.steps i).filterMap (fun k => match b.steps[k]? with
    | some x => if sCls x.w0 = 3 ∧ bits (SMap.get 0 s.dev.fxcfg x.idx) 7 0 = chip then some x.idx else none
    | none => none)).head?

/-- The queue a command enters (12 R332): the step's engine for a booked command; nothing where it names no booking. -/
def State.queueFor (s : State) (kind : CmdKind) (cls q : Nat) (ctl : W64) : Option (Nat × CmdKind) :=
  let core := s.cu.core
  match s.slotting s.myCtx cls ctl with
  | .free => some (q, kind)
  | .discard => none
  | .step _ i b x =>
    match cls with
    | 0 =>
      let full : Bool := match kind with | .mma f _ _ => fFull f | .zero f => fFull f | _ => false
      if sShares x.w0 = 2 then (if full ∧ x.idx = 2 * core then some (q, kind) else none)
      else if !full ∧ x.idx = 2 * core + (q - 6) then some (q, kind) else none
    | 1 =>
      if x.idx / 4 ≠ cluOf core then none
      else match kind with
        | .x src dst dw len =>
          if bit dw 55 then (s.bookedPort b i (bits dw 63 56)).map (fun p => (9 + x.idx % 4, .x src dst (setBits dw 47 44 p) len))
          else some (9 + x.idx % 4, kind)
        | _ => some (9 + x.idx % 4, kind)
    | _ => some (q, kind)

/-- A command that has passed checks 1 to 9: the epoch check, the evictions (02 R51), the metadata of check 9, the queue. `pop` is the
format queue that a matrix instruction pops, which it does where the command is discarded too. -/
def State.submit (s : State) (u : U) (kind : CmdKind) (cls q : Nat) (ctl : W64) (win2 : Win) (pop : Option Nat) (rows : Option (Nat × Nat))
    (md : List (Piece × (W64 × W64))) : Out :=
  let c := s.myCtx
  let core := s.cu.core
  let popped (s : State) : State := match pop with
    | some h => s.updCore core (fun x => { x with fmtq := SMap.set [] x.fmtq h ((SMap.get [] x.fmtq h).drop 1) })
    | none => s
  let into := s.queueFor kind cls q ctl
  if s.engExhausted c core ((into.map (·.1)).getD q) then .next (s.raise .epoch 0 0 0)
  else
    match (match rows with | some (r, n) => s.evictRows c core r n | none => (s, .ok)) with
    | (s, .ok) =>
      let s := popped (s.recordMd md)
      (match into with
       | none => .next (s.fin u)
       | some (q, kind) =>
         let (s, id) := s.newId
         let wins : SMap Win := match kind with
           | .send _ _ => (List.range 16).map (fun k => (k, s.win c k))
           | _ => []
         let cmd : Cmd := ⟨id, kind, c, core, s.cu.st, s.cu.pc, s.cu.iw, ctl, ctlConsumes ctl, ctlTp ctl, (s.rs s.myRace).xclk, false, 0, [],
           false, none, 0, 0, s.win c (cluOf core), win2, [], [], [], true, [], wins, []⟩
         .next ((s.setEq core q (s.eq core q ++ [cmd])).fin u))
    | (s, e) => .next (s.evictFault e)

/-- Whether the queue that a command would enter is full (12 R331). -/
def State.queueFull (s : State) (kind : CmdKind) (cls q : Nat) (ctl : W64) : Bool :=
  match s.queueFor kind cls q ctl with
  | some (q, _) => 16 ≤ (s.eq s.cu.core q).length
  | none => false

/-- Check 3 of 12 R330 for the tokens of a control word. -/
def State.ctlPriv (s : State) (ctl : W64) : Bool := !s.toksOk (ctlTp ctl :: ctlConsumes ctl)

/-- FMT.PUSH (12 R335): privilege before the format word's rules; a push to a full queue waits. -/
def execFmtPush (u : U) (s : State) : Out :=
  governed u s fun s =>
    let q := u.mi.toNat
    let core := s.cu.core
    let w := s.sA u
    let l := SMap.get [] (s.core core).fmtq q
    if !s.holdsSide s.myCtx core q then .next s.priv
    else if !fmtOk (bit s.dev.featacc 1) w then .next s.illegal
    else if 16 ≤ l.length then .next s.hold
    else .next ((s.updCore core (fun x => { x with fmtq := SMap.set [] x.fmtq q (l ++ [w]) })).fin u)

/-- The pieces of tile rows in a window: plane by plane, row by row, cut at lines. -/
def tilePieces (win : Win) (clu : Nat) (w0 w1 : W64) (nr : Nat) (ws : List Nat) : List Piece :=
  ws.zipIdx.flatMap (fun (w, k) => (List.range nr).flatMap (fun i =>
    (cutSpan (w / 64 + 2) 0 w).map (fun (x, n) =>
      let o := tileOff w0 w1 k i x
      ⟨true, spKey clu (win.base + o), 0, n, win.checked (win.base + o), BitVec.ofNat 64 o, 0⟩)))

/-- A vector register as operand planes (12 R337): plane 0 at byte 0, 1 at 2,048, 2 at 3,072, rows one after another. -/
def vregTile (v : VReg) (nr : Nat) (ws : List Nat) : Tile :=
  let bs := v.bytes
  .data (ws.zipIdx.map (fun (w, k) => (List.range nr).map (fun i => (bs.drop ((match k with | 0 => 0 | 1 => 2048 | _ => 3072) + i * w)).take w)))

/-- MX.MMA and MX.MMAS (12 R330, R338). -/
def State.matrixIssue (s : State) (u : U) (sparse : Bool) : Out :=
  let c := s.myCtx
  let core := s.cu.core
  let q := u.mi.toNat
  let ctl := s.sE u
  let fq := SMap.get [] (s.core core).fmtq q
  let f := fq.headD 0
  let has := !fq.isEmpty
  let win := s.win c (cluOf core)
  let tile (isV : Bool) (k : Nat) (r : Fld) (nr : Nat) (ws : List Nat) : Tile :=
    if isV then vregTile (s.opV k r) nr ws else .desc (s.opS k r) (s.rdS (r.toNat + 1))
  let badTile (r : Fld) (t : Tile) (nr : Nat) (ws : List Nat) : Bool :=
    match t with | .desc w0 w1 => !tileOk r.toNat w0 w1 (s.winLen c (cluOf core)) nr (ws.headD 0) ws.length | .data _ => false
  let spwin (t : Tile) : State → State := fun s => s.raiseWin .read 8 (match t with | .desc w0 _ => BitVec.ofNat 64 (tileBase w0) | .data _ => 0)
  let ta := tile (fAV f) 0 u.a (fRows f) (widthsA f)
  let tb := tile (fBV f) 1 u.b 64 (widthsB f)
  let (_, nrows) := s.accRows c core
  match firstFail [
      (s.ctlPriv ctl || !s.holdsSide c core q || (has && fFull f && !s.wholeEngine c core), fun s => s.priv),
      (!ctlOk ctl || (has && ((fN f == 0) == sparse || (fFull f && q == 1) || (fAV f && 16 ≤ u.a.toNat) || (fBV f && 16 ≤ u.b.toNat))), fun s => s.illegal),
      (!has, fun s => s.raise .fmtUnder 0 0 0),
      (badTile u.a ta (fRows f) (widthsA f), spwin ta),
      (badTile u.b tb 64 (widthsB f), spwin tb),
      (nrows < fRow0 f + fRows f, fun s => s.raiseWin .write 9 (BitVec.ofNat 64 (fRow0 f)))] with
  | some e => .next (e s)
  | none =>
    let kind := CmdKind.mma f ta tb
    if s.queueFull kind 0 (6 + q) ctl then .next s.hold
    else
      let pcs (t : Tile) (nr : Nat) (ws : List Nat) : List Piece :=
        match t with | .desc w0 w1 => tilePieces win (cluOf core) w0 w1 nr ws | .data _ => []
      let key := s.engKey c core (6 + q)
      match s.raceAll c key (s.engClk key (s.rs s.myRace).xclk) ⟨0, none⟩ (pcs ta (fRows f) (widthsA f) ++ pcs tb 64 (widthsB f)) with
      | .error e => .next (s.raiseMmx e)
      | .ok md => s.submit u kind 0 (6 + q) ctl win (some q) (some (fRow0 f, fRows f)) md

/-- MX.MMA (12 R338): dense. -/
def execMxMma (u : U) (s : State) : Out := governed u s fun s => s.matrixIssue u false
/-- MX.MMAS (12 R338): sparse A. -/
def execMxMmas (u : U) (s : State) : Out := governed u s fun s => s.matrixIssue u true

/-- MX.ZERO (12 R341). -/
def execMxZero (u : U) (s : State) : Out :=
  governed u s fun s =>
    let c := s.myCtx
    let core := s.cu.core
    let q := u.mi.toNat
    let ctl := s.sE u
    let fq := SMap.get [] (s.core core).fmtq q
    let f := fq.headD 0
    let has := !fq.isEmpty
    match firstFail [
        (s.ctlPriv ctl || !s.holdsSide c core q || (has && fFull f && !s.wholeEngine c core), fun s => s.priv),
        (!ctlOk ctl || (has && fFull f && q == 1), fun s => s.illegal),
        (!has, fun s => s.raise .fmtUnder 0 0 0),
        ((s.accRows c core).2 < fRow0 f + fRows f, fun s => s.raiseWin .write 9 (BitVec.ofNat 64 (fRow0 f)))] with
    | some e => .next (e s)
    | none =>
      let kind := CmdKind.zero f
      if s.queueFull kind 0 (6 + q) ctl then .next s.hold
      else s.submit u kind 0 (6 + q) ctl (s.win c (cluOf core)) (some q) (some (fRow0 f, fRows f)) []

/-- A copy command past its checks: queued, or waiting for room. -/
def State.copySubmit (s : State) (u : U) (kind : CmdKind) (q : Nat) (ctl : W64) (win2 : Win) (rows : Option (Nat × Nat)) : Out :=
  let cls := if q = 13 then 3 else 1
  if s.queueFull kind cls q ctl then .next s.hold else s.submit u kind cls q ctl win2 none rows []

/-- ENG of IMM16 as a stream number. -/
def engQ (u : U) : Nat := 9 + bits u.imm 1 0

/-- The window of the issuing context in its own cluster. -/
def State.myWin (s : State) : Win := s.win s.myCtx s.myClu

/-- CP.ACC (12 R342). -/
def execCpAcc (u : U) (s : State) : Out :=
  governed u s fun s =>
    let c := s.myCtx
    let ctl := s.sE u
    let w0 := s.sA u
    let w1 := s.rdS (u.a.toNat + 1)
    let rr := s.sB u
    let nr := bits rr 27 16 + 1
    let row := bits rr 11 0
    let toAcc := bit u.imm 15
    match firstFail [
        (s.ctlPriv ctl, fun s => s.priv),
        (!ctlOk ctl, fun s => s.illegal),
        (!tileOk u.a.toNat w0 w1 (s.winLen c s.myClu) nr 256 1, fun s => s.raiseWin (if toAcc then .read else .write) 8 (BitVec.ofNat 64 (tileBase w0))),
        (bits rr 63 28 != 0 || bits rr 15 12 != 0 || (s.accRows c s.cu.core).2 < row + nr,
          fun s => s.raiseWin (if toAcc then .write else .read) 9 (BitVec.ofNat 64 row))] with
    | some e => .next (e s)
    | none => s.copySubmit u (.acc toAcc row nr (.desc w0 w1)) (engQ u) ctl s.myWin (some (row, nr))

/-- CP.LD and CP.ST (12 R344). -/
def State.copyLinear (s : State) (u : U) (toMem : Bool) : Out :=
  let ctl := s.sE u
  let h := s.sA u
  let off := s.rdS (u.a.toNat + 1)
  let so := s.sB u
  let len := (s.sC u).toNat
  match firstFail [(s.ctlPriv ctl, fun s => s.priv), (!ctlOk ctl, fun s => s.illegal)] with
  | some e => .next (e s)
  | none =>
    match s.handleCheck h off len toMem [(off.toNat, len)] with
    | .error e => .next (e s)
    | .ok x =>
      if !s.myWin.holds so len then .next (s.raiseWin (if toMem then .read else .write) 8 so)
      else s.copySubmit u (if toMem then .st x off.toNat so.toNat len else .ld x off.toNat so.toNat len) (engQ u) ctl s.myWin none

/-- CP.LD and CP.ST (12 R344). -/
def execCpLd (u : U) (s : State) : Out := governed u s fun s => s.copyLinear u false
def execCpSt (u : U) (s : State) : Out := governed u s fun s => s.copyLinear u true

/-- Whether the fabric is on (17 R438). -/
def State.fabOn (s : State) : Bool := bit s.dev.featacc 7

/-- The rules of CP.X's destination word (12 R347), the port of an unbooked remote command apart. -/
def dwOk (dw : W64) (booked : Bool) : Bool :=
  bits dw 54 52 == 0 && bits dw 43 25 == 0 && bits dw 2 1 == 0 && (bit dw 55 || bits dw 63 56 == 0)
    && ((bit dw 55 && !booked) || bits dw 47 44 == 0) && (bit dw 0 || bits dw 24 3 == 0)

/-- CP.X (12 R347, 17 R442). -/
def execCpX (u : U) (s : State) : Out :=
  governed u s fun s =>
    let c := s.myCtx
    let ctl := s.sE u
    let src := s.sA u
    let dst := s.rdS (u.a.toNat + 1)
    let dw := s.sB u
    let len := (s.sC u).toNat
    let rem := bit dw 55
    let booked := match s.slotting c 1 ctl with | .free => false | _ => ctlHandle ctl != 0
    let clu := bits dw 51 48
    let win2 := s.win c clu
    let aoff := BitVec.ofNat 64 (bits dw 24 3 * 8)
    match firstFail [
        (s.ctlPriv ctl || (rem && !booked && !s.holdsPort c (bits dw 47 44)), fun s => s.priv),
        (!ctlOk ctl || !dwOk dw booked || (rem && !s.fabOn) || (rem && !booked && s.portPeer (bits dw 47 44) != some (bits dw 63 56)), fun s => s.illegal),
        (!s.myWin.holds src len, fun s => s.raiseWin .read 8 src),
        (!rem && !win2.holds dst len, fun s => s.raiseWin .write 8 dst),
        (!rem && bit dw 0 && (s.arrAddr c clu aoff).isNone, fun s => s.raiseWin .write 8 aoff)] with
    | some e => .next (e s)
    | none => s.copySubmit u (.x src.toNat dst.toNat dw len) (engQ u) ctl win2 none

/-- CP.G and CP.S (12 R346). -/
def State.copyIndexed (s : State) (u : U) (scatter : Bool) : Out :=
  let ctl := s.sE u
  let h := s.sA u
  let off := s.rdS (u.a.toNat + 1)
  let data := s.sB u
  let idx := s.rdS (u.b.toNat + 1)
  let n := (s.sC u).toNat
  let es := 2 ^ bits u.imm 15 12
  let iw := if bit u.imm 11 then 8 else 4
  match firstFail [(s.ctlPriv ctl, fun s => s.priv), (!ctlOk ctl, fun s => s.illegal)] with
  | some e => .next (e s)
  | none =>
    match s.handleCheck h off 0 scatter [] with
    | .error e => .next (e s)
    | .ok x =>
      match firstFail [
          (!s.myWin.holds data (n * es), fun s => s.raiseWin (if scatter then .read else .write) 8 data),
          (!s.myWin.holds idx (n * iw) || idx.toNat % iw != 0, fun s => s.raiseWin .read 8 idx)] with
      | some e => .next (e s)
      | none => s.copySubmit u (.g scatter x off.toNat data.toNat idx.toNat n es iw) (engQ u) ctl s.myWin none

/-- CP.G and CP.S (12 R346). -/
def execCpG (u : U) (s : State) : Out := governed u s fun s => s.copyIndexed u false
def execCpS (u : U) (s : State) : Out := governed u s fun s => s.copyIndexed u true

/-- CP.2D (12 R345). -/
def execCp2d (u : U) (s : State) : Out :=
  governed u s fun s =>
    let ctl := s.sE u
    let h := s.sA u
    let off := s.rdS (u.a.toNat + 1)
    let w0 := s.sB u
    let w1 := s.rdS (u.b.toNat + 1)
    let sh := s.sC u
    let nr := bits sh 63 48 + 1
    let w := bits sh 47 32 + 1
    let mp := bits sh 31 0
    let toMem := bit u.imm 15
    match firstFail [(s.ctlPriv ctl, fun s => s.priv), (!ctlOk ctl, fun s => s.illegal)] with
    | some e => .next (e s)
    | none =>
      match s.handleCheck h off ((nr - 1) * mp + w) toMem ((List.range nr).map (fun i => (off.toNat + i * mp, w))) with
      | .error e => .next (e s)
      | .ok x =>
        if !tileOk u.b.toNat w0 w1 (s.winLen s.myCtx s.myClu) nr w 1 then
          .next (s.raiseWin (if toMem then .read else .write) 8 (BitVec.ofNat 64 (tileBase w0)))
        else s.copySubmit u (.d2 toMem x off.toNat (.desc w0 w1) nr w mp) (engQ u) ctl s.myWin none

/-- CP.SEND (12 R348). -/
def execCpSend (u : U) (s : State) : Out :=
  governed u s fun s =>
    let ctl := s.sE u
    let list := s.sA u
    let n := (s.sB u).toNat
    match firstFail [
        (s.ctlPriv ctl, fun s => s.priv),
        (!ctlOk ctl, fun s => s.illegal),
        (list.toNat % 32 != 0 || !s.myWin.holds list (32 * n), fun s => s.raiseWin .read 8 list)] with
    | some e => .next (e s)
    | none => s.copySubmit u (.send list.toNat n) 13 ctl s.myWin none

/-- FN and SRC of a chain's operation byte (10 R304). -/
def chFn (b : Nat) : Nat := b / 16
def chSrc (b : Nat) : Nat := b / 4 % 4
/-- The operation bytes of a chain, and those before its end. -/
def chBytes (ops : W64) : List Nat := (List.range 8).map (fun k => bits ops (8 * k + 7) (8 * k))
def chOps (ops : W64) : List Nat := (chBytes ops).takeWhile (fun b => chFn b != 0)

/-- Whether a chain's operation byte suits its type (10 R304). -/
def chOpOk (ty b : Nat) : Bool :=
  let fn := chFn b
  b % 4 == 0 &&
    (if fn = 0 then b == 0
     else if fn ≤ 7 then true
     else if fn ≤ 9 then chSrc b == 0
     else if fn = 12 then chSrc b == 0 && (isF ty || isS ty)
     else if fn = 15 then false
     else chSrc b == 0 && isF ty)

/-- The rules of a chain descriptor (10 R304). -/
def chainOk (ty : Nat) (d : List W64) : Bool :=
  let bs := chBytes (d.getD 0 0)
  bs.all (chOpOk ty) && (bs.dropWhile (fun b => chFn b != 0)).all (· == 0)
    && (span 1 4).all (fun k => bits (d.getD k 0) 62 52 == 0) && bits (d.getD 5 0) 63 24 == 0 && d.getD 7 0 == 0

/-- VCHAIN (10 R303, R304). A descriptor that breaks its rules is illegal before its tokens are judged, where it can be read (14 R376). The
queue of 16 commands is 8 for a context that does not hold both sides (15 R404). -/
def execVchain (u : U) (s : State) : Out :=
  let nc := u.c.toNat
  let cons := ((List.range 3).map (fun k => bits u.imm (5 * k + 4) (5 * k))).take nc
  let tp := u.b.toNat
  let core := s.cu.core
  let c := s.myCtx
  match s.lineRead ⟨0, none⟩ (s.sA u &&& ~~~ (63 : W64)) 64 with
  | (t, .error f) => if !s.toksOk (tp :: cons) then .next s.priv else .next (f t)
  | (t, .ok bs) =>
    let d := words64 8 bs
    if !chainOk u.mi.toNat d then .next t.illegal
    else if !t.toksOk (tp :: cons) then .next t.priv
    else
      let q := t.chainQ c core
      if (if t.wholeEngine c core then 16 else 8) ≤ (t.eq core q).length then .next s.hold
      else
        let (t, id) := t.newId
        let cmd : Cmd := ⟨id, .chain u.mi.toNat d, c, core, t.cu.st, t.cu.pc, t.cu.iw, 0, cons, tp, (t.rs t.myRace).xclk, false, 0, [], false, none,
          0, 0, t.myWin, t.myWin, [], [], [], true, [], [], []⟩
        .next ((t.setEq core q (t.eq core q ++ [cmd])).fin u)

end Sys2Proof.Machine
end

