-- ==== Sys2Proof/Machine/Matrix.lean ====
section
/-! DEFINITION. What a matrix half computes over one block pair (05 R138-R144). -/

namespace Sys2Proof.Machine

/-- A row of an operand over one block pair: BX terms with the larger exponent and c of 05 R142, values of an IEEE format, or
integers. A BX term that is not kept is nothing; a kept one has its NaN mark and its shifted signed magnitude. -/
inductive Slice where
  | bx (terms : List (Option (Bool × Int))) (h : Nat) (c : Int)
  | fl (xs : List FVal)
  | int (xs : List Int)
  deriving DecidableEq, Repr

/-- A byte of a list as a number. -/
def byteAt (bs : List Byte) (i : Nat) : Nat := (bs.getD i 0).toNat

/-- A kept element under its block's exponents (05 R144): its NaN mark, and its magnitude shifted or flushed. -/
def bxTerm (t e0 e1 x : Nat) : Bool × Int :=
  let h := max e0 e1
  let e := if bxSel t x = 0 then e0 else e1
  if e = 255 then (true, 0)
  else if e + 15 < h then (false, 0)
  else (false, (if bxSgn t x then -1 else 1) * ((bxMag t x * 2 ^ (e + 15 - h) : Nat) : Int))

/-- A row of a BX operand over block pair p of `pair` indexes: planes' rows, block length l, keep count n (05 R140, R141). -/
def bxSlice (t l n pair p : Nat) (pl : List (List Byte)) : Slice :=
  let k := pair * p
  let exps := pl.getD 1 []
  let e0 := byteAt exps (2 * (k / l))
  let e1 := byteAt exps (2 * (k / l) + 1)
  let row0 := pl.getD 0 []
  let elems : List (Option Nat) :=
    if n = 0 then (bxUnpack t (if t = 8 then (row0.drop k).take pair else (row0.drop (k / 2)).take (pair / 2))).map some
    else
      let g := k / 32
      let w := n * bxBits t / 8
      ((bxExpand n (ofBytes (((pl.getD 2 []).drop (4 * g)).take 4)) 32 0 (bxUnpack t ((row0.drop (g * w)).take w))).drop (k % 32)).take pair
  .bx (elems.map (fun x => x.map (bxTerm t e0 e1))) (max e0 e1) (bxC t)

/-- A row of an operand of a type over one block pair. -/
def opSlice (t l n pair p : Nat) (pl : List (List Byte)) : Slice :=
  let row0 := pl.getD 0 []
  match t with
  | 7 => .int (((row0.drop (pair * p)).take pair).map (·.toInt))
  | 8 => bxSlice t l n pair p pl
  | 9 => bxSlice t l n pair p pl
  | _ => .fl ((List.range pair).map (fun k => (fmtOf t).dec (byteAt row0 (2 * (pair * p + k)) + 256 * byteAt row0 (2 * (pair * p + k) + 1))))

/-- The exact sum of two values (05 R144): opposite infinities give a NaN. -/
def FVal.addV (x y : FVal) : FVal :=
  match x, y with
  | .nan _, _ => .nan false
  | _, .nan _ => .nan false
  | .inf a, .inf b => if a = b then .inf a else .nan false
  | .inf a, _ => .inf a
  | _, .inf b => .inf b
  | .fin a m e, .fin b n g =>
    let q := min e g
    let v := scaled a m e q + scaled b n g q
    .fin (v < 0) v.natAbs q

/-- The BX block sum S (05 R144): whether a NaN was selected, and the exact sum over the elements that A keeps. -/
def bxSum : List (Option (Bool × Int)) → List (Option (Bool × Int)) → Bool × Int
  | some x :: xs, some y :: ys =>
    let (nan, v) := bxSum xs ys
    (nan || x.1 || y.1, v + x.2 * y.2)
  | _ :: xs, _ :: ys => bxSum xs ys
  | _, _ => (false, 0)

/-- The exact sum of a group's products in an IEEE format (05 R144). DESIGN CHOICE (log 174): an exact sum of zero is +0. -/
def flSum (xs ys : List FVal) : FVal :=
  (List.zipWith (fun x y => (FVal.mulV x y).getD (.nan false)) xs ys).foldl FVal.addV (.fin false 0 0)

/-- Whether a block-pair sum has its residue checked (05 R145): one that is a NaN or infinite has not. -/
def sumChecked (a b : Slice) : Bool :=
  match a, b with
  | .bx xs _ _, .bx ys _ _ => !(bxSum xs ys).1
  | .fl xs, .fl ys => match flSum xs ys with | .fin _ _ _ => true | _ => false
  | .int _, .int _ => true
  | _, _ => false

/-- One accumulator element after a block pair (05 R144). -/
def mmaElem (a b : Slice) (acc : W32) : W32 :=
  match a, b with
  | .bx xs hA cA, .bx ys hB cB =>
    let (nan, v) := bxSum xs ys
    let sum : FVal := if nan then .nan false else .fin (v < 0) v.natAbs ((hA : Int) + hB - 30 - cA - cB)
    BitVec.ofNat 32 (Fmt.f32.addV 0 false (Fmt.f32.dec acc.toNat) sum).1
  | .fl xs, .fl ys =>
    BitVec.ofNat 32 (Fmt.f32.addV 0 false (Fmt.f32.dec acc.toNat) (flSum xs ys)).1
  | .int xs, .int ys => acc + BitVec.ofInt 32 ((List.zipWith (· * ·) xs ys).foldl (· + ·) 0)
  | _, _ => acc

/-- Row i of a tile's planes. -/
def tileRow (planes : List (List (List Byte))) (i : Nat) : List (List Byte) := planes.map (fun p => p.getD i [])

/-- The rows of both operands over block pair p. -/
def pairSlices (f : W64) (p : Nat) (a b : List (List (List Byte))) : List Slice × List Slice :=
  ((List.range (fRows f)).map (fun i => opSlice (fA f) (fL f false) (fN f) (fPair f) p (tileRow a i)),
    (List.range 64).map (fun j => opSlice (fB f) (fL f true) 0 (fPair f) p (tileRow b j)))

/-- Start and length, by plane, of the bytes of an operand's row over block pair p (12 R336). -/
def pairSpans (t l n pair p : Nat) : List (Nat × Nat) :=
  let k := pair * p
  let w := bxBits t
  match t with
  | 7 => [(k, pair)]
  | 8 => if n = 0 then [(k, pair), (2 * (k / l), 2)] else [(k / 32 * n, n), (2 * (k / l), 2), (4 * (k / 32), 4)]
  | 9 => if n = 0 then [(k / 2, pair / 2), (2 * (k / l), 2)] else [(k / 32 * (n * w / 8), n * w / 8), (2 * (k / l), 2), (4 * (k / 32), 4)]
  | _ => [(2 * k, 2 * pair)]

/-- How many sums of block pair p have their residue checked (05 R145). -/
def pairChecks (f : W64) (p : Nat) (a b : List (List (List Byte))) : Nat :=
  let (as, bs) := pairSlices f p a b
  (as.map (fun x => (bs.filter (sumChecked x)).length)).sum

/-- All running sums after block pair p (05 R144), row after row. -/
def mmaPair (f : W64) (p : Nat) (a b : List (List (List Byte))) (acc : List W32) : List W32 :=
  let (as, bs) := pairSlices f p a b
  (as.zip (chunks 64 (fRows f) acc)).flatMap (fun (x, row) => List.zipWith (mmaElem x) bs row)

end Sys2Proof.Machine
end

