-- ==== Sys2Proof/Machine/Engines.lean ====
section
/-! DEFINITION. Engine commands as they run (04 R97-R116, 07 R180-R181, 10 R303-R306, 12 R336-R348): start, parts, completion,
suspension, faults in the stream. -/

namespace Sys2Proof.Machine

/-- Core and queue number of a command queue; nothing where the engine does not serve the core. -/
def engAt : Eng → Option (Nat × Nat)
  | .mxh c h => if c < 128 ∧ h < 2 then some (c, 6 + h) else none
  | .vch c d => if c < 128 ∧ d < 2 then some (c, if d = 0 then 8 else 16) else none
  | .cpe e c => if c < 128 ∧ e / 4 = cluOf c then some (c, 9 + e % 4) else none
  | .snd k c => if c < 128 ∧ k = cluOf c then some (c, 13) else none

/-- The command that a queue works on: the first whose parts are not all done. -/
def State.headCmd (s : State) (core q : Nat) : Option Cmd := List.find? (fun c => !c.ended) (s.eq core q)

/-- Whether a command of a queue may start while earlier ones of it still run: on a copy engine and on the send-list engine (04 R111). A
half and the vector-chain engine do one command after another (04 R114, 10 R303). -/
def overlaps (q : Nat) : Bool := 9 ≤ q && q ≤ 13

/-- The command of a queue that starts next: the first not started, every earlier one started (04 R101) and, where commands do not overlap,
done. -/
def State.nextCmd (s : State) (core q : Nat) : Option Cmd :=
  if overlaps q then List.find? (fun c => !c.started) (s.eq core q)
  else match s.headCmd core q with
    | some c => if c.started then none else some c
    | none => none

/-- A command changed. -/
def State.updCmd (s : State) (core q id : Nat) (f : Cmd → Cmd) : State :=
  s.setEq core q ((s.eq core q).map (fun c => if c.id = id then f c else c))

/-- A command on both halves (12 R340). -/
def Cmd.isFull (c : Cmd) : Bool := match c.kind with | .mma f _ _ => fFull f | .zero f => fFull f | _ => false

/-- Calendar engines that a command occupies (07 R176). -/
def Cmd.engines (c : Cmd) (core q : Nat) : List (Nat × Nat) :=
  if q ≤ 7 then (if c.isFull then [(0, 2 * core), (0, 2 * core + 1)] else [(0, 2 * core + (q - 6))])
  else if 9 ≤ q ∧ q ≤ 12 then [(1, cluOf core * 4 + (q - 9))] else []

/-- Progress at which a command has done everything: block pairs, rows, bytes, elements or entries. -/
def Cmd.total (c : Cmd) : Nat :=
  match c.kind with
  | .mma f _ _ => fK f / fPair f
  | .zero _ => 1
  | .acc _ _ nr _ => nr
  | .ld _ _ _ n => n
  | .st _ _ _ n => n
  | .x _ _ _ n => n
  | .g _ _ _ _ _ n _ _ => n
  | .d2 _ _ _ _ nr w _ => nr * w
  | .send _ n => n
  | .chain _ d => bits (d.getD 5 0) 23 0 + 1

/-- A tile byte's window offset, for a tile operand in scratchpad. -/
def Tile.at (t : Tile) (k i x : Nat) : Nat := match t with | .desc w0 w1 => tileOff w0 w1 k i x | .data _ => 0

/-- Address of byte p of a copy's destination: of the cluster, of memory, or, over the fabric, a window offset (12 R344-R347). -/
def Cmd.dstAt (c : Cmd) (p : Nat) : Nat :=
  match c.kind with
  | .ld _ _ sp _ => c.win.base + sp + p
  | .st h off _ _ => h.base + off + p
  | .x _ dst dw _ => (if bit dw 55 then 0 else c.win2.base) + dst + p
  | .d2 toMem h off t _ w pitch => if toMem then h.base + off + p / w * pitch + p % w else c.win.base + t.at 0 (p / w) (p % w)
  | _ => p

/-- Address of byte p of a copy's source. -/
def Cmd.srcAt (c : Cmd) (p : Nat) : Nat :=
  match c.kind with
  | .ld h off _ _ => h.base + off + p
  | .st _ _ sp _ => c.win.base + sp + p
  | .x src _ _ _ => c.win.base + src + p
  | .d2 toMem h off t _ w pitch => if toMem then c.win.base + t.at 0 (p / w) (p % w) else h.base + off + p / w * pitch + p % w
  | _ => p

/-- Length of the part of a command that begins at a position: the bytes that go to one destination line, within one row; one row,
element or entry. -/
def Cmd.partLen (c : Cmd) (p : Nat) : Nat :=
  match c.kind with
  | .ld _ _ _ n => min (n - p) (64 - c.dstAt p % 64)
  | .st _ _ _ n => min (n - p) (64 - c.dstAt p % 64)
  | .x _ _ _ n => min (n - p) (64 - c.dstAt p % 64)
  | .d2 _ _ _ _ _ w _ => min (w - p % w) (64 - c.dstAt p % 64)
  | _ => 1

/-- Bytes that a command has transferred (07 R181): its leading run of parts, and those done beyond it. -/
def Cmd.moved (c : Cmd) : Nat :=
  let unit := match c.kind with | .acc _ _ _ _ => 256 | .g _ _ _ _ _ _ es _ => es | _ => 1
  unit * (c.prog + (c.done.map c.partLen).foldl (· + ·) 0)

/-- Whether the bytes transferred have reached a multiple of 4 KiB between two counts (07 R181). -/
def past4K (n m : Nat) : Bool := n / 4096 != m / 4096

/-- Progress carried over parts done beyond it (04 R111). -/
def Cmd.absorb (c : Cmd) : Nat → Cmd
  | 0 => c
  | k + 1 => if c.done.contains c.prog then ({ c with prog := c.prog + c.partLen c.prog, done := c.done.erase c.prog }).absorb k else c

/-- A part done: a command boundary falls where 4 KiB more have been transferred (07 R181). -/
def Cmd.did (c : Cmd) (p : Nat) : Cmd :=
  let n := c.moved
  let c := if p = c.prog then ({ c with prog := p + c.partLen p }).absorb c.done.length else { c with done := p :: c.done }
  { c with ended := c.total ≤ c.prog, edge := past4K n c.moved || c.total ≤ c.prog }

/-- Start positions of a command's parts that are on the fabric. -/
def State.onWay (s : State) (id entry : Nat) : List Nat :=
  (s.flights.filter (fun f => f.cmd == id && f.entry == entry)).flatMap (fun f => f.offs.map (·.1))

/-- Bytes of memory that the part of a command at a position writes, where parts of one command may write a common byte: rows that overlap
(12 R345), and elements that a scatter's indexes send to one place (12 R346). -/
def State.writesAt (s : State) (c : Cmd) (p : Nat) : Option (Nat × Nat) :=
  match c.kind with
  | .d2 true _ _ _ _ w pitch => if pitch < w then some (c.dstAt p, c.partLen p) else none
  | .g true _ off _ idx _ es iw =>
    let o := spKey (cluOf c.core) (c.win.base + idx + p * iw)
    some (off + ofBytes (s.rdBytes true o iw) * es, es)
  | _ => none

/-- Whether two ranges of bytes meet. -/
def meets (x y : Option (Nat × Nat)) : Bool :=
  match x, y with
  | some (a, n), some (b, m) => a < b + m && b < a + n
  | _, _ => false

/-- The k-th part, from a position on, that is not done and not on its way, and that no earlier undone part must precede because it writes a
common byte (04 R111). -/
def State.undone (s : State) (c : Cmd) (busy : List Nat) : Nat → List (Option (Nat × Nat)) → Nat → Nat → Option Nat
  | 0, _, _, _ => none
  | f + 1, held, k, p =>
    if c.total ≤ p then none
    else if c.done.contains p || busy.contains p then s.undone c busy f held k (p + c.partLen p)
    else
      let w := s.writesAt c p
      let held' := if w.isSome then w :: held else held
      if held.any (meets w) then s.undone c busy f held' k (p + c.partLen p)
      else if k = 0 then some p
      else s.undone c busy f held' (k - 1) (p + c.partLen p)

/-- The k-th part that a command may do now. -/
def State.nextPart (s : State) (c : Cmd) (k : Nat) : Option Nat := s.undone c (s.onWay c.id 0) (c.total + 1) [] k c.prog

/-- Whether a command stands at a command boundary (07 R181). -/
def Cmd.atBoundary (c : Cmd) : Bool :=
  match c.kind with
  | .mma f _ _ => c.prog * fPair f % 32 == 0
  | .zero _ => true
  | .chain _ _ => true
  | _ => c.edge

/-- Whether a command's context, core and calendar let it run now (07 R180, R204, 14 R390, 15 R410). -/
def State.cmdOpen (s : State) (core q : Nat) (c : Cmd) : Bool :=
  s.dev.boot == .up && s.runs c.ctx && s.coreOpen c.ctx core && s.windowOpen c.ctl (c.engines core q)

/-- Whether a started command may do its next part: nothing of its stream is stopped by a fault. -/
def State.canRun (s : State) (core q : Nat) (c : Cmd) : Bool :=
  c.started && !c.ended && (s.eq core q).all (fun x => x.fault.isNone) && c.refused.isEmpty && s.dev.boot == .up &&
    (match c.susp with
     | 0 => !c.atBoundary || s.cmdOpen core q c
     | 1 => s.cmdOpen core q c
     | 2 => !c.atBoundary
     | 4 => !c.atBoundary
     | _ => false)

/-- The commands of one queue that may do a part now, oldest first, each as it goes on. -/
def State.runners (s : State) (e : Eng) : List (Nat × Nat × Cmd) :=
  match engAt e with
  | none => []
  | some (core, q) =>
    let l := if overlaps q then s.eq core q else (s.headCmd core q).toList
    (l.filter (s.canRun core q)).map (fun c => (core, q, { c with susp := if c.susp = 1 then 0 else c.susp }))

/-- The command of a queue whose part is done next. -/
def State.running (s : State) (e : Eng) : Option (Nat × Nat × Cmd) := (s.runners e).head?

/-- Stream number that a queue has in a record (14 R379). -/
def streamNo (q : Nat) : Nat := if q = 16 then 8 else q

/-- A fault of a command in its engine's stream (04 R115, R116, 14 R375, R386): the command stops with its cause, the record is made and
delivered. -/
def State.engTrap (s : State) (core q : Nat) (c : Cmd) (cause : Cause) (cword aux0 aux1 : W64) : State :=
  let frz := bit (s.ctx c.ctx).trap.mode 0
  let s := s.updCmd core q c.id (fun _ => { c with fault := some cause.code })
  let s := if frz then s.freezeCore c.ctx core (streamNo q) else s
  let cap : Cap := ⟨c.iw, false, c.upc, [.unread, .unread, .unread, .unread], none⟩
  let (s, fw) := s.captureWords c.ctx { cap with pred := if cap.isVector then none else some (BitVec.allOnes 1024) }
  let cands := if cause = .umem ∧ cword = 4 then s.chainFrom c.ctx (bits aux1 5 4) else s.candidates c.ctx cause cword frz
  let t : TrapInfo := ⟨cause, cword, aux0, if cause = .umem then 0 else aux1, c.upc, none, false, none⟩
  let s := if cause = .mmx then s.count c.ctx core (streamNo q) 15 1 else s
  s.deliver ⟨cause.code, cause.fatal, c.ctx, core, streamNo q, 0, s.recordWords c.ctx core (streamNo q) t frz fw []⟩ cands

/-- Cut of positions into runs of consecutive addresses within one line: position and length of each. -/
def runsAt (addr : Nat → Nat) : Nat → Nat → List (Nat × Nat)
  | 0, _ => []
  | n + 1, p =>
    match runsAt addr n (p + 1) with
    | (q, k) :: t => if addr q = addr p + 1 ∧ addr q % 64 ≠ 0 then (p, k + 1) :: t else (p, 1) :: (q, k) :: t
    | [] => [(p, 1)]

/-- Scratchpad pieces of positions p to p + n - 1, whose cluster addresses a function gives. -/
def spPieces (w : Win) (clu : Nat) (addr : Nat → Nat) (p n : Nat) : List Piece :=
  (runsAt addr n p).map (fun (q, k) => ⟨true, spKey clu (addr q), q - p, k, w.checked (addr q), BitVec.ofNat 64 (addr q - w.base), 0⟩)

/-- Memory pieces of positions p to p + n - 1 in a handle's range; they are reported by their physical address, as the record of 18
R448 reports its conflicting byte. -/
def memPieces (d : Dev) (h : HRange) (addr : Nat → Nat) (p n : Nat) : List Piece :=
  (runsAt addr n p).map (fun (q, k) => ⟨false, addr q, q - p, k, h.chk && inCheckable d (addr q), BitVec.ofNat 64 (addr q), 0⟩)

/-- The checks of a move: its reads, then its writes; the metadata of both recorded (03 R89, R91). Where the reads pass, the pending stores to
their checked lines are performed first (04 R106). -/
def State.moveCheck (s : State) (core q : Nat) (c : Cmd) (src dst : List Piece) : Except (W64 × W64) State :=
  let key := s.engKey c.ctx core q
  let clk := s.engClk key c.clk
  match s.raceAll c.ctx key clk ⟨0, none⟩ src with
  | .error e => .error e
  | .ok ms =>
    let s := s.recordMd ms
    match s.raceAll c.ctx key clk ⟨1, none⟩ dst with
    | .error e => .error e
    | .ok md => .ok ((s.recordMd md).settleLines none (if s.chkPaused c.ctx then [] else src))

/-- Bytes as an engine reads pieces (04 R104). -/
def State.engLoad (s : State) (ps : List Piece) : List Byte := ps.flatMap (fun p => s.engBytes p.sp p.a p.n)

/-- Bytes landed by an engine: each line whole or in part, its mark carried (04 R116), memory writes marked in the root's logs (15 R415). -/
def State.land (s : State) (core q : Nat) (c : Cmd) (dst : List Piece) (data : List Byte) (bad : Piece → Bool) : State :=
  let s := s.engUnshadow dst data
  let s := dst.foldl (fun s p =>
    let s := if p.sp then s else s.markPhys c.ctx p.a p.n
    let s := s.storeOne p data
    if bad p then s.setPsn p.sp p.a true else s) s
  s.l2Ps c.ctx core (streamNo q) dst true

/-- Channel groups of pieces, as class × 256 + index (12 R332). -/
def State.groupsHit (s : State) (ps : List Piece) : List Nat := (ps.filter (fun p => !p.sp)).map (fun p => 2 * 256 + (placeOf s.dev p.a).1)

/-- A piece of a destination takes a mark from the source pieces that feed it. -/
def State.fedBad (s : State) (src : List Piece) (p : Piece) : Bool :=
  src.any (fun x => x.off < p.off + p.n && p.off < x.off + x.n && s.psn x.sp x.a)

/-- Bytes moved from pieces to pieces: the checks, the data, the marks, the counts; the command notes what its traffic reached. -/
def State.moveBytes (s : State) (core q : Nat) (c : Cmd) (src dst : List Piece) : Except (W64 × W64) (State × Cmd) :=
  match s.moveCheck core q c src dst with
  | .error e => .error e
  | .ok t =>
    let data := t.engLoad src
    let t := t.l2Ps c.ctx core (streamNo q) src false
    let t := t.land core q c dst data (s.fedBad src)
    .ok (t.count c.ctx core (streamNo q) 7 1, { c with reached := (c.reached ++ s.groupsHit (src ++ dst)).eraseDups })

/-- A memory-model exception in the stream (04 R115). -/
def State.engMmx (s : State) (core q : Nat) (c : Cmd) (e : W64 × W64) : State := s.engTrap core q c .mmx e.2 e.1 0

/-- Widest scope from an arrival word's cluster to the cluster whose traffic arrived (03 R90). -/
def cluScope (x y : Nat) : Nat := if x = y then 1 else if x / 8 = y / 8 then 2 else 3

/-- A byte part of CP.LD, CP.ST, CP.2D or a CP.X within the device (12 R344, R345, R347). -/
def State.copyPart (s : State) (core q : Nat) (c : Cmd) (p : Nat) : State :=
  let n := c.partLen p
  let clu := cluOf core
  let src (sp : Bool) (h : HRange) : List Piece := if sp then spPieces c.win clu c.srcAt p n else memPieces s.dev h c.srcAt p n
  let none' : HRange := ⟨0, 0, false, 0, 0, 0⟩
  let (from', to') : List Piece × List Piece :=
    match c.kind with
    | .ld h _ _ _ => (src false h, spPieces c.win clu c.dstAt p n)
    | .st h _ _ _ => (src true none', memPieces s.dev h c.dstAt p n)
    | .d2 toMem h _ _ _ _ _ => if toMem then (src true none', memPieces s.dev h c.dstAt p n) else (src false h, spPieces c.win clu c.dstAt p n)
    | .x _ _ dw _ => (src true none', spPieces c.win2 (bits dw 51 48) c.dstAt p n)
    | _ => ([], [])
  match s.moveBytes core q c from' to' with
  | .error e => s.engMmx core q c e
  | .ok (s, c) =>
    let key := s.engKey c.ctx core q
    let s := match c.kind with
      | .x _ _ dw _ =>
        let k := bits dw 51 48
        if bit dw 0 then s.arrive (spKey k (c.win2.base + bits dw 24 3 * 8)) n (s.engClk key c.clk) (cluScope k clu) else s
      | _ => s
    s.updCmd core q c.id (fun _ => c.did p)

/-- A row of CP.ACC, moved whole with its mark (12 R342, 04 R114, R116). -/
def State.accRow (s : State) (core q : Nat) (c : Cmd) (j : Nat) (toAcc : Bool) (row : Nat) (t : Tile) : State :=
  let r := (s.accRows c.ctx core).1 + row + j
  let ps := spPieces c.win (cluOf core) (fun x => c.win.base + t.at 0 j x) 0 256
  match s.moveCheck core q c (if toAcc then ps else []) (if toAcc then [] else ps) with
  | .error e => s.engMmx core q c e
  | .ok s' =>
    let lo := accKey core r 0
    let s' :=
      if toAcc then
        let m := SMap.splice s.mem.acc lo (lo + 64) (SMap.entries 0 lo (lanesOf 64 (s'.engLoad ps)))
        ({ s' with mem := { s'.mem with acc := m } }).setRowPsn core r (ps.any (fun p => s.psn true p.a))
      else
        s'.land core q c ps ((SMap.dense 0 (SMap.slice s.mem.acc lo (lo + 64)) lo 64).flatMap (fun w => toBytes 4 w.toNat)) (fun _ => s.rowPsn core r)
    (s'.count c.ctx core (streamNo q) 7 4).updCmd core q c.id (fun _ => c.did j)

/-- Element k of CP.G or CP.S (12 R346): its index, then its range, then the move. -/
def State.indexElem (s : State) (core q : Nat) (c : Cmd) (k : Nat) (scatter : Bool) (h : HRange) (off data idx es iw : Nat) : State :=
  let clu := cluOf core
  let ip := spPieces c.win clu (fun x => c.win.base + idx + k * iw + x) 0 iw
  match s.firstPsn ip with
  | some p => s.engTrap core q c .umem 1 p.line 0
  | none =>
    match s.moveCheck core q c ip [] with
    | .error e => s.engMmx core q c e
    | .ok s =>
      let o := off + ofBytes (s.engLoad ip) * es
      if h.len < o + es then
        s.engTrap core q c .handle (BitVec.ofNat 64 (4 + 16 * b2n scatter)) (BitVec.ofNat 64 (h.gen * 2 ^ 20 + h.index)) (BitVec.ofNat 64 o)
      else match s.groupRefused c.ctx (h.base + o) es with
        | some a =>
          s.engTrap core q c .xlate (faultWord (if scatter then .write else .read) ⟨0, 6, 0, false, 0, false⟩) (BitVec.ofNat 64 (a - h.base)) (BitVec.ofNat 64 a)
        | none =>
          let mp := memPieces s.dev h (fun x => h.base + o + x) 0 es
          let sp := spPieces c.win clu (fun x => c.win.base + data + k * es + x) 0 es
          match s.moveBytes core q c (if scatter then sp else mp) (if scatter then mp else sp) with
          | .error e => s.engMmx core q c e
          | .ok (s, c) => s.updCmd core q c.id (fun _ => c.did k)

/-- A tag for a request over the fabric (17 R440). -/
def State.newTag (s : State) : State × Nat := ({ s with book := { s.book with nextTag := s.book.nextTag + 1 } }, s.book.nextTag + 1)

/-- Parts of a CP.X over the fabric, gathered for one flit (12 R347, 17 R443): at most three, each checked as it is read. -/
def State.gatherParts (s : State) (core q : Nat) (c : Cmd) : Nat → State × List (Nat × Nat × Part) × Option (W64 × W64)
  | 0 => (s, [], none)
  | n + 1 =>
    let (s, l, e) := s.gatherParts core q c n
    match e with
    | some _ => (s, l, e)
    | none =>
      let busy := s.onWay c.id 0 ++ l.map (·.1)
      match s.undone c busy (c.total + 1) [] 0 c.prog with
      | none => (s, l, none)
      | some p =>
        let k := c.partLen p
        let src := spPieces c.win (cluOf core) c.srcAt p k
        match s.moveCheck core q c src [] with
        | .error e => (s, l, some e)
        | .ok t => (t, l ++ [(p, k, ⟨c.dstAt p / 64, c.dstAt p % 64, src.any (fun x => s.psn true x.a), t.engLoad src⟩)], none)

/-- A WRITE flit sent and remembered until its WACK (17 R443). -/
def State.sendWrite (s : State) (core q : Nat) (c : Cmd) (entry port chip clu : Nat) (arv : Bool) (aoff : Nat) (l : List (Nat × Nat × Part)) : State :=
  let (s, tag) := s.newTag
  let s := s.sendFlit port ⟨1, s.dev.chip, chip, tag, clu, arv, aoff, l.map (·.2.2), 0, 0, 0⟩
  let f : Flight := ⟨tag, port, core, q, c.id, entry, l.map (fun e => (e.1, e.2.1))⟩
  let s := { s with flights := s.flights ++ [f] }
  (s.count c.ctx core (streamNo q) 7 l.length).updCmd core q c.id (fun _ => { c with edge := false, reached := (c.reached ++ [3 * 256 + port]).eraseDups })

/-- The next flit of a CP.X over the fabric. -/
def State.copyRemote (s : State) (core q : Nat) (c : Cmd) (dw : W64) : State :=
  let port := bits dw 47 44
  if !s.dev.trained.testBit port then s
  else match s.gatherParts core q c 3 with
    | (_, [], some e) => s.engMmx core q c e
    | (_, [], none) => s
    | (t, l, _) => t.sendWrite core q c 0 port (bits dw 63 56) (bits dw 51 48) (bit dw 0) (bits dw 24 3) l

/-- A send entry changed. -/
def Cmd.updSend (c : Cmd) (n : Nat) (f : SendSt → SendSt) : Cmd := { c with sends := c.sends.map (fun e => if e.entry = n then f e else e) }

/-- Words of a send entry that name a destination (12 R348). -/
def SendSt.dest (e : SendSt) : W64 := e.words.getD (1 + e.dst) 0
/-- Payload length and source of an entry. -/
def SendSt.len (e : SendSt) : Nat := bits (e.words.getD 0 0) 47 32
def SendSt.src (e : SendSt) : Nat := bits (e.words.getD 0 0) 24 0
/-- Second destination valid. -/
def SendSt.v2 (e : SendSt) : Bool := bit (e.words.getD 2 0) 31

/-- STAT of an entry that has come to its end: which destination took it, or 3 (12 R348). -/
def SendSt.stat (e : SendSt) : Nat := if 0 < e.len ∧ e.len ≤ e.sent then 1 + e.dst else 3

/-- A send entry in a command. -/
def Cmd.putSend (c : Cmd) (e : SendSt) : Cmd := { c with sends := c.sends.filter (fun (x : SendSt) => x.entry != e.entry) ++ [e] }

/-- A send entry settled: STAT written (12 R348), which is a command boundary (07 R181). Where the write meets a race the entry keeps waiting
for it. -/
def State.settleSend (s : State) (core q : Nat) (c : Cmd) (e : SendSt) : State :=
  let list := match c.kind with | .send l _ => l | _ => 0
  let ps := spPieces c.win (cluOf core) (fun x => c.win.base + list + 32 * e.entry + 7 + x) 0 1
  match s.moveCheck core q c [] ps with
  | .error x => s.engMmx core q (c.putSend { e with st := 4 }) x
  | .ok s =>
    let c := c.putSend { e with st := 3 }
    let c := { c with edge := true, ended := c.total ≤ c.prog && c.sends.all (fun x => x.st == 3) }
    (s.land core q c ps [BitVec.ofNat 8 e.stat] (fun _ => false)).updCmd core q c.id (fun _ => c)

/-- A receive buffer's descriptor in a window of a given length (17 R444): its window offset, where it is named at all. -/
def State.bufferAt (s : State) (winLen buf : Nat) : Option Nat :=
  let r := s.dev.fxpeer
  let lg := bits r 3 0
  let o := bits r 24 4 * 16 + 16 * buf
  if lg = 0 ∨ 12 < lg ∨ 2 ^ lg ≤ buf ∨ winLen < o + 16 then none else some o

/-- The slot that a descriptor allots to a payload (17 R444): its window offset, ARV and AOFF. -/
def slotFor (e : List W64) (len winLen : Nat) : Option (Nat × Bool × Nat) :=
  let w0 := e.getD 0 0
  let w1 := e.getD 1 0
  let cap := bits w0 63 48
  let fill := bits w0 47 32
  let base := bits w0 24 6
  let sz := bits w1 63 48
  if cap = 0 ∨ sz * 64 < len ∨ bits w0 31 25 ≠ 0 ∨ bits w0 5 0 ≠ 0 ∨ bits w1 47 25 ≠ 0 ∨ bits w1 2 1 ≠ 0 ∨ winLen < (base + cap * sz) * 64 ∨ cap ≤ fill then none
  else some (base * 64 + fill * sz * 64, bit w1 0, bits w1 24 3)

/-- Length of a window. -/
def Win.len (w : Win) : Nat := w.lim - w.base

/-- Test and raise of FILL in one step (17 R444), at .sys: the slot allotted. -/
def State.reserve (s : State) (w : Win) (clu buf len : Nat) : State × Option (Nat × Bool × Nat) :=
  match s.bufferAt w.len buf with
  | none => (s, none)
  | some o =>
    let a := spKey clu (w.base + o)
    match slotFor (words64 2 (s.rdBytes true a 16)) len w.len with
    | none => (s, none)
    | some r => ((s.wrBytes true (a + 4) (toBytes 2 (ofBytes (s.rdBytes true (a + 4) 2) + 1))).dropPubs true a 8, some r)

/-- The reservation for a send entry whose destination lies in the device (17 R444, 02 R61): a strong read-modify-write at .sys of the send-list
engine, checked in a checked range; a strong read where no slot is allotted. -/
def State.reserveChecked (s : State) (core q : Nat) (c : Cmd) (w : Win) (clu buf len : Nat) :
    Except (W64 × W64) (State × Option (Nat × Bool × Nat)) :=
  match s.bufferAt w.len buf with
  | none => .ok (s, none)
  | some o =>
    let ps := spPieces w clu (fun x => w.base + o + x) 0 16
    let key := s.engKey c.ctx core q
    let kind := if (s.reserve w clu buf len).2.isSome then 2 else 0
    match s.raceAll c.ctx key (s.engClk key c.clk) ⟨kind, some 4⟩ ps with
    | .error e => .error e
    | .ok m => .ok (((s.recordMd m).settleLines none (if s.chkPaused c.ctx then [] else ps)).reserve w clu buf len)

/-- Window of a cluster at a command's issue (02 R62). -/
def Cmd.winAt (c : Cmd) (clu : Nat) : Win := (SMap.find? c.wins clu).getD c.win2

/-- An entry sent to its destination (12 R348, 17 R444): asked of a remote chip, or reserved in the context's own table; a full one goes to
the second destination, else settles with STAT 3. `back` is the command as it stood before the entry began, to which a race returns it. -/
def State.sendTo (s : State) (core q : Nat) (back c : Cmd) (e : SendSt) : Nat → State
  | 0 => s.settleSend core q c e
  | n + 1 =>
    let d := e.dest
    if bit d 55 then
      let (s, tag) := s.newTag
      let e := { e with st := 1, tag := tag }
      let s := s.sendFlit (bits d 47 44) ⟨4, s.dev.chip, bits d 63 56, tag, bits d 51 48, false, 0, [], BitVec.ofNat 64 (e.len * 2 ^ 16 + bits d 43 32), 0, 0⟩
      s.updCmd core q c.id (fun _ => { c.putSend e with edge := false })
    else
      match s.reserveChecked core q c (c.winAt (bits d 51 48)) (bits d 51 48) (bits d 43 32) e.len with
      | .error x => s.engMmx core q back x
      | .ok (s, some (off, arv, aoff)) =>
        s.updCmd core q c.id (fun _ => { c.putSend { e with st := 2, off := off, arv := arv, aoff := aoff, sent := 0 } with edge := false })
      | .ok (s, none) => if e.dst = 0 ∧ e.v2 then s.sendTo core q back c { e with dst := 1 } n else s.settleSend core q c e

/-- A destination word that breaks 12 R348: its reserved bits, R442, or CHIP and PORT where they are not used. -/
def State.destBad (s : State) (c : Nat) (d : W64) (used : Bool) : Bool :=
  bits d 54 52 != 0 || (used && (if bit d 55 then !s.fabOn || !s.holdsPort c (bits d 47 44) || s.portPeer (bits d 47 44) != some (bits d 63 56)
    else bits d 63 56 != 0 || bits d 47 44 != 0))

/-- A send entry that is malformed (12 R348). -/
def State.entryBad (s : State) (c : Nat) (w : List W64) : Bool :=
  let w0 := w.getD 0 0
  let w1 := w.getD 1 0
  let w2 := w.getD 2 0
  bits w0 55 48 != 0 || bits w0 31 25 != 0 || bits w0 47 32 == 0 || bits w1 31 0 != 0 || bits w2 30 0 != 0
    || s.destBad c w1 true || s.destBad c w2 (bit w2 31)

/-- The part-th of the parts that the commands of a queue may do, dealt over the commands in turn: the command and its part. -/
def State.chosen (s : State) (e : Eng) (part : Nat) : Option ((Nat × Nat × Cmd) × Nat) :=
  let l := s.runners e
  (l[part % l.length]?).map (fun x => (x, part / l.length))

/-- SEND_ENTRY (12 R348): the next entry of a list is read and sent to its first destination; a cancelled list begins none. An entry that
stops the command does so once the entries before it have settled. -/
def execSendEntry (e : Eng) (s : State) : Out :=
  let more (x : Nat × Nat × Cmd) : Bool := x.2.2.prog < x.2.2.total && x.2.2.susp != 4
  match (s.runners e).find? more with
  | none => .next s
  | some (core, q, c) =>
    match c.kind with
    | .send list _ =>
      let ps := spPieces c.win (cluOf core) (fun x => c.win.base + list + 32 * c.prog + x) 0 32
      let idle := c.sends.all (fun x => x.st == 3)
      match s.firstPsn ps with
      | some p => .next (if idle then s.engTrap core q c .umem 1 p.line 0 else s)
      | none =>
        match s.moveCheck core q c ps [] with
        | .error x => .next (if idle then s.engMmx core q c x else s)
        | .ok t =>
          let w := words64 4 (t.engLoad ps)
          let src := BitVec.ofNat 64 (bits (w.getD 0 0) 24 0)
          if s.entryBad c.ctx w then .next (if idle then t.engTrap core q c .illegal 0 0 0 else s)
          else if !c.win.holds src (bits (w.getD 0 0) 47 32) then
            .next (if idle then t.engTrap core q c .xlate (faultWord .read ⟨(s.ctx c.ctx).depth, 8, 0, false, 0, false⟩) src src else s)
          else .next (t.sendTo core q c { c with prog := c.prog + 1 } ⟨c.prog, 0, 0, 0, 0, false, 0, 0, w⟩ 2)
    | _ => .next s

/-- A part of a send list (12 R348, 17 R444): a payload part to the allotted slot, in order, one part of an entry on the fabric at a time; or the
STAT or the reservation that a race has held up. -/
def State.sendPart (s : State) (core q : Nat) (c : Cmd) (part : Nat) : State :=
  let ready := c.sends.filter (fun e => 4 ≤ e.st || e.st == 2 && e.sent < e.len && (s.onWay c.id (e.entry + 1)).isEmpty)
  match ready[part]? with
  | none => s
  | some e =>
    if e.st = 4 then s.settleSend core q c e
    else if e.st = 5 then s.sendTo core q c c e 2
    else
      let d := e.dest
      let k := bits d 51 48
      let n := min (e.len - e.sent) (64 - (e.off + e.sent) % 64)
      let src := spPieces c.win (cluOf core) (fun x => c.win.base + e.src + e.sent + x) 0 n
      if bit d 55 then
        if !s.dev.trained.testBit (bits d 47 44) then s
        else match s.moveCheck core q c src [] with
          | .error x => s.engMmx core q c x
          | .ok t => t.sendWrite core q c (e.entry + 1) (bits d 47 44) (bits d 63 56) k e.arv e.aoff
              [(e.sent, n, ⟨(e.off + e.sent) / 64, (e.off + e.sent) % 64, src.any (fun x => s.psn true x.a), t.engLoad src⟩)]
      else
        let w := c.winAt k
        match s.moveBytes core q c src (spPieces w k (fun x => w.base + e.off + e.sent + x) 0 n) with
        | .error x => s.engMmx core q c x
        | .ok (s, c) =>
          let key := s.engKey c.ctx core q
          let s := if e.arv then s.arrive (spKey k (w.base + e.aoff * 8)) n (s.engClk key c.clk) (cluScope k (cluOf core)) else s
          let e' := { e with sent := e.sent + n }
          let c := { c.putSend e' with edge := past4K e.sent e'.sent }
          if e.len ≤ e'.sent then s.settleSend core q c e' else s.updCmd core q c.id (fun _ => c)

/-- First row and number of rows that a matrix command writes, as stored. -/
def State.outRows (s : State) (core : Nat) (c : Cmd) (f : W64) : Nat × Nat := ((s.accRows c.ctx core).1 + fRow0 f, fRows f)

/-- Rows of an engine written whole (12 R338, R341), their marks cleared. -/
def State.putRows (s : State) (core r n : Nat) (vals : List W32) : State :=
  let lo := accKey core r 0
  let m := SMap.splice s.mem.acc lo (lo + 64 * n) (SMap.entries 0 lo vals)
  { s with mem := { s.mem with acc := m, accPsn := SMap.keep s.mem.accPsn (fun k _ => !(core * 4096 + r ≤ k && k < core * 4096 + r + n)) } }

/-- A matrix command that consumed poison (04 R116): every row of its output marked. -/
def State.spoil (s : State) (core : Nat) (c : Cmd) (f : W64) : State :=
  let (r, n) := s.outRows core c f
  (span r n).foldl (fun s k => s.setRowPsn core k true) s

/-- The scratchpad lines of a tile operand, as the command's window at issue has them. -/
def tileLines (core : Nat) (c : Cmd) (t : Tile) (nr : Nat) (ws : List Nat) : List Piece :=
  match t with
  | .data _ => []
  | .desc w0 w1 => tilePieces c.win (cluOf core) w0 w1 nr ws

/-- The scratchpad lines of some bytes of a tile operand's rows: start and length by plane. -/
def tileParts (core : Nat) (c : Cmd) (t : Tile) (nr : Nat) (spans : List (Nat × Nat)) : List Piece :=
  match t with
  | .data _ => []
  | .desc w0 w1 => spans.zipIdx.flatMap (fun ((o, n), k) => (List.range nr).flatMap (fun i =>
      spPieces c.win (cluOf core) (fun x => c.win.base + tileOff w0 w1 k i x) o n))

/-- The operand lines of a matrix command. -/
def operandLines (core : Nat) (c : Cmd) (f : W64) (a b : Tile) : List Piece :=
  tileLines core c a (fRows f) (widthsA f) ++ tileLines core c b 64 (widthsB f)

/-- The operand lines that block pair p of a matrix command takes. -/
def pairLines (core : Nat) (c : Cmd) (f : W64) (p : Nat) (a b : Tile) : List Piece :=
  tileParts core c a (fRows f) (pairSpans (fA f) (fL f false) (fN f) (fPair f) p) ++ tileParts core c b 64 (pairSpans (fB f) (fL f true) 0 (fPair f) p)

/-- A line that a matrix command has read. -/
def Cmd.lineAt (c : Cmd) (n : Nat) : Option (List Byte) := (c.lines.find? (fun e => e.2.2.1 == n)).map (·.2.2.2)

/-- Operand lines read that have not been read yet, each once and whole, as the engine sees it (04 R113): the command with them, up to the
first that is poisoned (04 R116). A store to a checked line that is on its way is performed first, since the check at issue has passed (R106). -/
def State.readLines (s : State) (c : Cmd) : List Piece → State × Cmd × Option Piece
  | [] => (s, c, none)
  | p :: t =>
    if (c.lineAt (p.a / 64)).isSome then s.readLines c t
    else
      let s := if s.chkPaused c.ctx then s else s.settleLines none [p]
      if s.psn p.sp p.a then (s, c, some p)
      else s.readLines { c with lines := (0, true, p.a / 64, s.engBytes true (p.a / 64 * 64) 64) :: c.lines } t

/-- A tile operand's planes, row by row, from the lines that have been read; a byte of any other line is 0. -/
def Cmd.planes (c : Cmd) (core : Nat) (t : Tile) (nr : Nat) (ws : List Nat) : List (List (List Byte)) :=
  match t with
  | .data p => p
  | .desc w0 w1 => ws.zipIdx.map (fun (w, k) => (List.range nr).map (fun i =>
      (spPieces c.win (cluOf core) (fun x => c.win.base + tileOff w0 w1 k i x) 0 w).flatMap (fun p =>
        (((c.lineAt (p.a / 64)).getD (List.replicate 64 0)).drop (p.a % 64)).take p.n)))

/-- The planes of both operands of a matrix command. -/
def Cmd.operands (c : Cmd) (core : Nat) (f : W64) (a b : Tile) : List (List (List Byte)) × List (List (List Byte)) :=
  (c.planes core a (fRows f) (widthsA f), c.planes core b 64 (widthsB f))

/-- A matrix command that has consumed poison (04 R116, 14 R394). -/
def State.poisoned (s : State) (core q : Nat) (c : Cmd) (f : W64) (cw aux : W64) : State := (s.spoil core c f).engTrap core q c .umem cw aux 0

/-- An operand line read ahead of the block pairs that take it, the k-th of those not read yet (04 R113). -/
def State.operandLine (s : State) (core q : Nat) (c : Cmd) (f : W64) (a b : Tile) (k : Nat) : State :=
  match ((operandLines core c f a b).filter (fun p => (c.lineAt (p.a / 64)).isNone))[k]? with
  | none => s
  | some p =>
    match s.readLines c [p] with
    | (s, c, some p) => s.poisoned core q c f 1 p.line
    | (s, c, none) => s.updCmd core q c.id (fun _ => c)

/-- MATRIX_BLOCK_PAIR (12 R338, R341, 05 R144): one block pair summed into every element and every row written, its operand lines read
where they have not been (04 R113); MX.ZERO's rows zeroed. -/
def execMatrixBlockPair (e : Eng) (s : State) : Out :=
  match s.running e with
  | none => .next s
  | some (core, q, c) =>
    match c.kind with
    | .mma f ta tb =>
      .next (match s.readLines c (pairLines core c f c.prog ta tb) with
        | (s, c, some p) => s.poisoned core q c f 1 p.line
        | (s, c, none) =>
          let (a, b) := c.operands core f ta tb
          let acc := mmaPair f c.prog a b c.acc
          let (r, n) := s.outRows core c f
          let n1 := c.prog + 1
          let s := (s.putRows core r n acc).updCmd core q c.id (fun _ => { c with acc := acc, prog := n1, ended := c.total ≤ n1 })
          (s.count c.ctx core q 5 1).count c.ctx core q 14 (pairChecks f c.prog a b))
    | .zero f =>
      let (r, n) := s.outRows core c f
      .next ((s.putRows core r n []).updCmd core q c.id (fun _ => { c with prog := 1, ended := true }))
    | _ => .next s

/-- RESIDUE_MISMATCH (05 R146): the residue check of the block pair in course fails. The command writes no further row, every row of its
output is marked, and its context takes the exception; a pair of which no sum is checked has no such failure (05 R145), and one with a
poisoned operand line is reported for that alone (04 R118). -/
def State.residueFails (s : State) (e : Eng) : State :=
  match s.running e with
  | some (core, q, c) =>
    match c.kind with
    | .mma f ta tb =>
      (match s.readLines c (pairLines core c f c.prog ta tb) with
       | (t, c, some p) => t.poisoned core q c f 1 p.line
       | (t, c, none) =>
         let (a, b) := c.operands core f ta tb
         let n := pairChecks f c.prog a b
         if c.ended || n == 0 then s
         else
           ((t.count c.ctx core q 14 n).spoil core c f).engTrap core q c .residue (BitVec.ofNat 64 (bits f 15 0)) (BitVec.ofNat 64 (fRow0 f))
             (BitVec.ofNat 64 (c.prog * fPair f)))
    | _ => s
  | none => s

/-- A matrix command's start rows taken as it starts (12 R338, 04 R116). -/
def State.startMatrix (s : State) (core q : Nat) (c : Cmd) (f : W64) : State :=
  let (r, n) := s.outRows core c f
  match (if fZero f then none else (span r n).find? (fun k => s.rowPsn core k)) with
  | some k => s.poisoned core q c f 2 (BitVec.ofNat 64 (256 * (k - (s.accRows c.ctx core).1)))
  | none =>
    let lo := accKey core r 0
    let acc := if fZero f then List.replicate (64 * n) 0 else SMap.dense 0 (SMap.slice s.mem.acc lo (lo + 64 * n)) lo (64 * n)
    s.updCmd core q c.id (fun _ => { c with acc := acc })

/-- ENGINE_LINE_ACCESS (04 R111, 12 R342-R348): a part that a copy engine or the send-list engine may do, or an operand line that a
matrix half reads (R113). -/
def execEngineLineAccess (e : Eng) (part : Nat) (s : State) : Out :=
  match s.chosen e part with
  | none => .next s
  | some ((core, q, c), k) =>
    .next (match c.kind with
      | .send _ _ => s.sendPart core q c k
      | .mma f a b => s.operandLine core q c f a b k
      | .zero _ => s
      | .chain _ _ => s
      | .x _ _ dw _ => if bit dw 55 then s.copyRemote core q c dw else match s.nextPart c k with | some p => s.copyPart core q c p | none => s
      | kind => match s.nextPart c k with
        | none => s
        | some p => match kind with
          | .acc toAcc row _ t => s.accRow core q c p toAcc row t
          | .g scatter h off data idx _ es iw => s.indexElem core q c p scatter h off data idx es iw
          | _ => s.copyPart core q c p)

/-- Whether the halves let a matrix command start (12 R340): a full one needs both idle, and holds back the other queue. -/
def State.halvesFree (s : State) (core q : Nat) (c : Cmd) : Bool :=
  if c.isFull then (match s.headCmd core 7 with | some x => !x.started | none => true)
  else if q = 7 then (match s.headCmd core 6 with | some x => !x.isFull | none => true)
  else true

/-- Whether the next command of a queue may start (04 R101): its stream is not stopped by a fault. -/
def State.startable? (s : State) (core q : Nat) (c : Cmd) : Bool :=
  !c.started && (s.eq core q).all (fun x => x.fault.isNone) && c.susp ≤ 1 && s.cmdOpen core q c && s.canConsume core c.consumes && (8 ≤ q || s.halvesFree core q c)

/-- A booked command that starts: its step has begun, its booking runs; the states of retired predecessors come with it (07 R193, R205). -/
def State.beginStep (s : State) (core q : Nat) (c : Cmd) : State :=
  let cls := if q ≤ 7 then 0 else if q = 13 then 3 else 1
  match (if q = 8 ∨ q = 16 then Slotting.free else s.slotting c.ctx cls c.ctl) with
  | .step k i b _ =>
    let s := (s.updStep k i (fun x => { x with begun := true })).updRec k (fun b => { b with st := 3 })
    (match SMap.find? s.book.tasks b.task with
     | some t => s.updCmd core q c.id (fun c => { c with clk := c.clk.join (t.inh.within (cluOf core)) })
     | none => s)
  | _ => s

/-- The place of a consumer of tokens among those of its core that are eligible in one cycle (04 R118): halves, vector chains, copy engines,
the send-list engine, then agents by stream. The place of the chains is the model's (DESIGN CHOICE, log 173). -/
def consumerRank (q : Nat) : Nat := match q with | 6 => 0 | 7 => 1 | 8 => 2 | 16 => 3 | _ => q - 5

/-- Whether an agent that is already waiting may consume the tokens that it names. -/
def State.tokReady (s : State) (core st : Nat) : Bool :=
  match (s.ag core st).wait with
  | .tok ts => s.alive core st && s.canConsume core ts
  | .suspend ts arr => !ts.isEmpty && s.alive core st && s.canConsume core ts && (match arr with | some (a, g) => arrGen (s.arrWord core st a) != g | none => true)
  | _ => false

/-- Whether an eligible consumer of a lower place names one of the tokens (04 R118). -/
def State.outranked (s : State) (core rank : Nat) (ts : List Nat) : Bool :=
  ([6, 7, 8, 16, 9, 10, 11, 12, 13] : List Nat).any (fun q => consumerRank q < rank && (match s.nextCmd core q with
      | some c => c.consumes.any ts.contains && s.startable? core q c
      | none => false))
    || (List.range 6).any (fun k => 9 + k < rank && s.tokReady core k && (match (s.ag core k).wait with
      | .tok l => l.any ts.contains
      | .suspend l _ => l.any ts.contains
      | _ => false))

/-- TOK.WAIT (11 R323). -/
def execTokWait (u : U) (s : State) : Out :=
  let ts := waitToks u
  if !s.toksOk ts then .next s.priv
  else if s.canConsume s.cu.core ts && !s.outranked s.cu.core (9 + s.cu.st) ts then .next ((s.consumeBy s.cu.core s.cu.st ts).fin u)
  else .next (s.waitOn (.tok ts))

/-- Whether a waiting TOK.WAIT, or a thread that waits in place with a token among its events, goes on (04 R99, R118, 06 R159). -/
def State.tokWaitDue (s : State) (core st : Nat) : Bool :=
  s.tokReady core st && (match (s.ag core st).wait with
    | .tok ts => !s.outranked core (9 + st) ts
    | .suspend ts _ => !s.outranked core (9 + st) ts
    | _ => false)

/-- TOK_WAIT_CONSUME (04 R99, 06 R175): a waiting TOK.WAIT finds its counts. -/
def execTokWaitConsume (core st : Nat) (s : State) : Out :=
  if !s.tokWaitDue core st then .next s
  else match (s.ag core st).wait with
    | .tok ts =>
      let s := (s.rewake core st).consumeBy core st ts
      .next ((s.fin s.cu.iw.u).loopEnd core st)
    | .suspend ts arr =>
      let s := (s.rewake core st).consumeBy core st ts
      let s := match arr with | some (a, _) => (s.takeWord a).joinEpisode s.myRace a | none => s
      .next ((s.fin s.cu.iw.u).loopEnd core st)
    | _ => .next s

/-- ENGINE_COMMAND_START (04 R99, R101). -/
def execEngineCommandStart (e : Eng) (s : State) : Out :=
  match engAt e with
  | none => .next s
  | some (core, q) =>
    match s.nextCmd core q with
    | none => .next s
    | some c =>
      let bad := (c.consumes.map (fun t => (4, t)) ++ [(7, q)]).filter (s.core core).bad.contains
      if !s.startable? core q c || s.outranked core (consumerRank q) c.consumes then .next s
      else if !bad.isEmpty then let (f, i) := bad.headD (7, q); .next (s.engTrap core q c .ureg (BitVec.ofNat 64 (f * 256 + i)) 0 0)
      else
        let (s, clk) := s.consume core c.consumes
        let c := { c with started := true, susp := 0, clk := c.clk.join clk, ended := c.total == 0 }
        let s := (s.updCmd core q c.id (fun _ => c)).beginStep core q c
        match c.kind with
        | .mma f _ _ =>
          .next (match s.headCmd core q with
            | some c => s.startMatrix core q c f
            | none => s)
        | _ => .next s

/-- Whether no command that a reset of a core cancelled is still on its way to its boundary. -/
def State.resetQuiet (s : State) (core : Nat) : Bool := !(s.core core).eq.any (fun q => q.2.any (fun c => c.susp == 4))

/-- The resets of cores whose commands have all reached their boundaries are over: their tokens are produced (13 R373). -/
def State.resetOver (s : State) (core : Nat) : State :=
  if !s.resetQuiet core then s
  else
    let mine (j : Job) : Bool := j.kind == .reset core
    let done := s.jobs.filter mine
    done.foldl (fun s j => s.produceFor j.own j.core j.tok j.clk) { s with jobs := s.jobs.filter (fun j => !mine j) }

/-- COMMAND_BOUNDARY_SUSPEND (07 R180, R181, 14 R386): at a command boundary outside its window a command waits; one told to stop is
stopped; a cancelled one is gone, its end included (12 R331). -/
def execCommandBoundarySuspend (e : Eng) (s : State) : Out :=
  match engAt e with
  | none => .next s
  | some (core, q) =>
    let due (c : Cmd) : Bool := c.started && c.fault.isNone &&
      match c.susp with
      | 0 => !c.ended && c.atBoundary && !s.cmdOpen core q c
      | 2 => !c.ended && c.atBoundary
      | 4 => c.ended || c.atBoundary
      | _ => false
    match List.find? due (s.eq core q) with
    | none => .next s
    | some c =>
      match c.susp with
      | 4 => .next ((s.setEq core q ((s.eq core q).filter (fun x => x.id != c.id))).resetOver core)
      | n => .next (s.updCmd core q c.id (fun c => { c with susp := n + 1 }))

/-- Completed commands counted on the booking's steps (07 R204, 12 R332): its own, and each CG or FX step of the group that its traffic
reached; a send list's own step is of class FX, and counts only where its port was reached. -/
def State.countSteps (s : State) (q : Nat) (c : Cmd) (clk : Clock) : State :=
  let cls := if q ≤ 7 then 0 else if q = 13 then 3 else 1
  match (if q = 8 ∨ q = 16 then Slotting.free else s.slotting c.ctx cls c.ctl) with
  | .step k i b x =>
    let s := if q = 13 ∧ !c.reached.contains (3 * 256 + x.idx) then s else s.countCmd k i clk
    (groupOfStep b.steps i).foldl (fun s j =>
      match b.steps[j]? with
      | some x => if j ≠ i ∧ 2 ≤ sCls x.w0 ∧ c.reached.contains (sCls x.w0 * 256 + x.idx) then s.countCmd k j clk else s
      | none => s) s
  | _ => s

/-- ENGINE_COMMAND_COMPLETE (04 R98, 10 R303): the engine's state goes with the token, its epoch advances, a chain's flags reach VCSTAT,
the steps count. -/
def execEngineCommandComplete (e : Eng) (s : State) : Out :=
  match engAt e with
  | none => .next s
  | some (core, q) =>
    match List.find? (fun (c : Cmd) => c.ended && c.fault.isNone && c.susp != 4 && !s.coreAway c.ctx core && !s.flights.any (fun f => f.cmd == c.id)) (s.eq core q) with
    | none => .next s
    | some c =>
      let s := s.setEq core q ((s.eq core q).filter (fun x => x.id != c.id))
      if q = 8 ∨ q = 16 then
        let k := if q = 8 then 0 else 1
        let s := s.updCore core (fun x => { x with vcstat := SMap.set 0 x.vcstat k (SMap.get 0 x.vcstat k ||| c.flags) })
        .next (s.produce core c.tp c.clk)
      else
        let key := s.engKey c.ctx core q
        let clk := s.engClk key c.clk
        let s := s.setRs key { s.rs key with epoch := (s.rs key).epoch + 1 }
        .next ((s.produce core c.tp clk).countSteps q c clk)

/-- Stream k of a chain (10 R304): 0 A, 1 B, 2 C, 3 D; the pieces of element i, or what stops it. -/
def State.chainPieces (s : State) (c : Cmd) (core k z i : Nat) (d : List W64) : State × Except (Cause × W64 × W64 × W64) (List Piece) :=
  let w := d.getD (1 + k) 0
  let a := BitVec.ofNat 64 (bits w 51 0 / z * z + i * z)
  let acc : Acc := if k = 3 then .write else .read
  if bit w 63 then
    if c.win.holds a z then (s, .ok (spPieces c.win (cluOf core) (fun x => c.win.base + a.toNat + x) 0 z))
    else (s, .error (.xlate, faultWord acc ⟨(s.ctx c.ctx).depth, 8, 0, false, a, false⟩, a, a))
  else
    match (s.onCore core).access c.ctx acc false a z with
    | (s, .ok ps) => (s, .ok ps)
    | (s, .error (f, va)) =>
      (s, .error (if f.poison then (.umem, 4, f.second, BitVec.ofNat 64 (f.depth * 16)) else (.xlate, faultWord acc f, va, f.second)))

/-- The pieces of a list of streams. -/
def State.chainStreams (s : State) (c : Cmd) (core z i : Nat) (d : List W64) : List Nat → State × Except (Cause × W64 × W64 × W64) (List (Nat × List Piece))
  | [] => (s, .ok [])
  | k :: t =>
    match s.chainPieces c core k z i d with
    | (s, .error e) => (s, .error e)
    | (s, .ok ps) =>
      match s.chainStreams c core z i d t with
      | (s, .error e) => (s, .error e)
      | (s, .ok l) => (s, .ok ((k, ps) :: l))

/-- One chain operation on x (10 R304, R305): under RNE, without saturation. -/
def chainOp (ty fn x y : Nat) : Res :=
  let h : How := ⟨ty, 0, false⟩
  match fn with
  | 1 => elArith h 0 x y
  | 2 => elArith h 1 x y
  | 3 => elArith h 1 y x
  | 4 => elArith h 2 x y
  | 5 => elPick h false x y
  | 6 => elPick h true x y
  | 7 => (y, 0)
  | 8 => elAbsNeg h false x
  | 9 => elAbsNeg h true x
  | 10 => elSpecial h 0 x
  | 11 => elSpecial h 1 x
  | 12 => elSpecial h 2 x
  | 13 => elSpecial h 3 x
  | _ => elSpecial h 4 x

/-- A chain's result for an element: the operations in turn, with the OR of their flags (10 R305). -/
def chainRun (ty : Nat) (src : Nat → Nat) : List Nat → Nat → Res
  | [], x => (x, 0)
  | b :: t, x =>
    let r := chainOp ty (chFn b) x (src (chSrc b))
    let r' := chainRun ty src t r.1
    (r'.1, r.2 ||| r'.2)

/-- The exception word of a chain that meets a checked line (04 R115): TYPE UNTRACKED, the reader word as PRIOR. -/
def State.untracked (s : State) (p : Piece) : W64 := excWord (s.mdOf p).2 4 p.sp

/-- Bytes of a stream's element as a chain reads them: each line is read once, whole, and kept while the stream stays in it (10 R307). -/
def State.chainLoad (s : State) (c : Cmd) (k : Nat) (ps : List Piece) : Cmd × List Byte :=
  ps.foldl (fun (x : Cmd × List Byte) (p : Piece) =>
    let n := p.a / 64
    match x.1.lines.find? (fun e => e.1 == k && e.2.1 == p.sp && e.2.2.1 == n) with
    | some e => (x.1, x.2 ++ (e.2.2.2.drop (p.a % 64)).take p.n)
    | none =>
      let l := s.engBytes p.sp (n * 64) 64
      ({ x.1 with lines := (k, p.sp, n, l) :: x.1.lines.filter (fun e => e.1 != k) }, x.2 ++ (l.drop (p.a % 64)).take p.n)) (c, [])

/-- The values of a list of streams at an element, each stream read in turn, with the command that keeps their lines. -/
def State.chainReads (s : State) (c : Cmd) (l : List (Nat × List Piece)) (ks : List Nat) : Cmd × List (Nat × Nat) :=
  ks.foldl (fun (x : Cmd × List (Nat × Nat)) k =>
    match l.find? (fun y => y.1 == k) with
    | some y => let (c, bs) := s.chainLoad x.1 k y.2; (c, x.2 ++ [(k, ofBytes bs)])
    | none => x) (c, [])

/-- CHAIN_ELEMENT (10 R305, R306): one element read, computed and written, or its fault. -/
def execChainElement (e : Eng) (s : State) : Out :=
  match s.running e with
  | none => .next s
  | some (core, q, c) =>
    match c.kind with
    | .chain ty d =>
      let ops := chOps (d.getD 0 0)
      let z := elemSize ty
      let i := c.prog
      let ks := 0 :: [1, 2].filter (fun k => ops.any (fun b => chSrc b == k && chFn b ≤ 7))
      match s.chainStreams c core z i d (ks ++ [3]) with
      | (s, .error (cause, cw, a0, a1)) => .next (s.engTrap core q c cause cw a0 a1)
      | (s, .ok l) =>
        let ins := (l.filter (fun x => x.1 != 3)).flatMap (·.2)
        let out := (l.filter (fun x => x.1 == 3)).flatMap (·.2)
        match s.firstPsn ins with
        | some p => .next (s.engTrap core q c .umem p.space p.line 0)
        | none =>
          match (if s.chkPaused c.ctx then none else (ins ++ out).find? (·.chk)) with
          | some p => .next (s.engTrap core q c .mmx (s.untracked p) p.va 0)
          | none =>
            let rd := s.chainReads c l ks
            let c := rd.1
            let val (k : Nat) : Nat := match rd.2.find? (fun x => x.1 == k) with | some x => x.2 | none => 0
            let src (k : Nat) : Nat := if k = 3 then (d.getD 6 0).toNat % 2 ^ elemBits ty else val k
            let r := chainRun ty src ops (val 0)
            let data := toBytes z r.1
            let s := (s.l2Ps c.ctx core 8 ins false).engUnshadow out data
            let s := (s.storeAs c.ctx out data).l2Ps c.ctx core 8 out true
            let c := { c with flags := c.flags ||| r.2, prog := i + 1 }
            .next (s.updCmd core q c.id (fun _ => { c with ended := c.total ≤ c.prog }))
    | _ => .next s

end Sys2Proof.Machine
end

