-- ==== Sys2Proof/Machine/Tasks.lean ====
section
/-! DEFINITION. Task entries, chains and admission (07 R182-R197, 13 R352-R360, 06 R159): what posts a task, what a booking unit admits,
what a thread's own task instructions do. -/

namespace Sys2Proof.Machine

/-- A range descriptor (07 R184): nothing for MODE 00; an error where it is malformed. -/
def rangeOf (w0 w1 : W64) : Except Unit (Option Range) :=
  let mode := bits w0 63 62
  if bits w0 56 52 ≠ 0 ∨ bits w1 63 52 ≠ 0 then .error ()
  else if mode = 0 then .ok none
  else if bits w1 51 0 = 0 then .error ()
  else .ok (some ⟨2 ≤ mode, mode % 2 = 1, bit w0 61, bits w0 60 57, bits w0 51 0, bits w1 51 0⟩)

/-- The ranges of a table's words. -/
def rangesOf : Nat → List W64 → Except Unit (List Range)
  | 0, _ => .ok []
  | n + 1, w =>
    match rangeOf (w.getD 0 0) (w.getD 1 0), rangesOf n (w.drop 2) with
    | .ok (some r), .ok l => .ok (r :: l)
    | .ok none, .ok l => .ok l
    | _, _ => .error ()

/-- A range table read and parsed (07 R184): an error where it cannot be read or holds a malformed descriptor. -/
def State.readRanges (s : State) (c : Nat) (va : W64) (n : Nat) : State × Except Unit (List Range) :=
  if n = 0 then (s, .ok [])
  else match s.bookRead c va (16 * n) with
    | (s, none) => (s, .error ())
    | (s, some bs) => (s, rangesOf n (words64 (2 * n) bs))

/-- A chain step's rules (07 R195, R196): shares of a class on an engine. -/
def sharesOk (cls idx sh : Nat) : Bool :=
  match cls with
  | 0 => sh == 1 || (sh == 2 && idx % 2 == 0)
  | 1 => sh == 1
  | 2 => 1 ≤ sh && sh ≤ 6
  | _ => 1 ≤ sh && sh ≤ 8

/-- A chain step that is MALFORMED (07 R196). -/
def State.stepBad (s : State) (nrange : Nat) (first : Bool) (w0 w1 : W64) : Bool :=
  let cls := sCls w0
  let fixed := !sAny w0
  bits w0 10 0 != 0 || (if sRem w0 then bits w1 41 0 != 0 else w1 != 0) || (first && sPar w0)
    || !sharesOk cls (if fixed then sIndex w0 else 0) (sShares w0) || sDur w0 == 0 || sNcmd w0 == 0 || (fixed && classSize cls ≤ sIndex w0)
    || 2 ^ nrange ≤ sRref w0
    || (sRem w0 && (cls != 3 || !sharesOk (sRcls w1) (sRindex w1) (sRshares w1) || (fixed && s.portPeer (sIndex w0) != some (sChip w1))))
    || (cls == 3 && !s.fabOn)

/-- What a chain block comes to (07 R194-R196): its header word, steps and ranges, or a refusal with its reason and, where the header
names a register it may use, that header. -/
inductive ChainRes where
  | ok (hdr : W64) (steps : List BStep) (ranges : List Range)
  | bad (reason : Nat) (hdr : Option W64)

/-- A step as a booking keeps it. -/
def newStep (w0 w1 : W64) : BStep := ⟨w0, w1, if sAny w0 then 0 else sIndex w0, [], .none, 0, 0, false, false, false, false, []⟩

/-- The steps of a chain block's words after its header. -/
def stepsOf : Nat → List W64 → List BStep
  | 0, _ => []
  | n + 1, w => newStep (w.getD 0 0) (w.getD 1 0) :: stepsOf n (w.drop 2)

/-- A chain block read from a context's window in a cluster (07 R194, R196). -/
def State.readChain (s : State) (c clu off : Nat) : State × ChainRes :=
  let w := s.win c clu
  let o := BitVec.ofNat 64 off
  if !w.holds o 16 then (s, .bad 3 none)
  else
    let a := spKey clu (w.base + off)
    let h := words64 2 (s.rdBytes true a 16)
    let w0 := h.getD 0 0
    let w1 := h.getD 1 0
    let n := bits w0 63 60
    let nr := bits w0 59 57
    let core := bits w0 50 44
    let tokOk := (s.holdsSide c core 0 || s.holdsSide c core 1) && s.tokOk c core (bits w0 55 51)
    let hdr : Option W64 := if tokOk then some w0 else none
    if n = 0 ∨ 8 < n ∨ !w.holds o (16 + 16 * n) then (s, .bad 3 hdr)
    else
      let st := stepsOf n (words64 (2 * n) (s.rdBytes true (a + 16) (16 * n)))
      let bad := bits w0 33 0 != 0 || bits w1 63 52 != 0 || bits w1 3 0 != 0 || 4 < nr || !tokOk
        || st.zipIdx.any (fun e => s.stepBad nr (e.2 == 0) e.1.w0 e.1.w1)
      if bad then (s, .bad 3 hdr)
      else match s.readRanges c (BitVec.ofNat 64 (bits w1 51 4 * 16)) nr with
        | (s, .error _) => (s, .bad 3 hdr)
        | (s, .ok rs) =>
          if st.any (fun x => !sAny x.w0 && !s.holdsStep c (sCls x.w0) (sIndex x.w0) (sShares x.w0)) then (s, .bad 2 hdr)
          else (s, .ok w0 st rs)

/-- What a task entry comes to (07 R183, 13 R359): refused for its header or table; with a chain refused; or whole. -/
inductive EntryRes where
  | refused
  | chainBad (die reason : Nat) (hdr : Option W64)
  | whole (launch : Option (List W64)) (chain : Option (Nat × W64 × List BStep)) (ranges : List Range)

/-- A task entry's own rules (07 R183). -/
def entryOk (w : List W64) : Bool :=
  let w0 := w.getD 0 0
  let w1 := w.getD 1 0
  let w2 := w.getD 2 0
  bits w0 62 52 == 0 && bits w0 5 0 == 0 && bits w1 59 25 == 0 && bits w1 3 0 == 0
    && (if bit w0 63 then w2 == 0 else bits w2 63 60 == 0 && bits w2 56 52 == 0 && bits w2 3 0 == 0 && bits w2 59 57 ≤ 4)

/-- A task entry's launch header read (06 R155, R156). -/
def State.readHeader (s : State) (c : Nat) (w0 : W64) : State × Except Unit (Option (List W64)) :=
  if bits w0 51 6 = 0 then (s, .ok none)
  else match s.bookRead c (BitVec.ofNat 64 (bits w0 51 6 * 64)) 64 with
    | (s, none) => (s, .error ())
    | (s, some bs) => let h := words64 8 bs; (s, if lhOk h then .ok (some h) else .error ())

/-- A task entry parsed. -/
def State.parseEntry (s : State) (c : Nat) (w : List W64) : State × EntryRes :=
  let w0 := w.getD 0 0
  if !entryOk w then (s, .refused)
  else match s.readHeader c w0 with
    | (s, .error _) => (s, .refused)
    | (s, .ok l) =>
      if bit w0 63 then
        let clu := bits (w.getD 1 0) 63 60
        match s.readChain c clu (bits (w.getD 1 0) 24 4 * 16) with
        | (s, .bad r hdr) => (s, .chainBad (clu / 8) r hdr)
        | (s, .ok hdr st rs) => (s, .whole l (some (clu / 8, hdr, st)) rs)
      else match s.readRanges c (BitVec.ofNat 64 (bits (w.getD 2 0) 51 4 * 16)) (bits (w.getD 2 0) 59 57) with
        | (s, .error _) => (s, .refused)
        | (s, .ok rs) => (s, .whole l none rs)

/-- Two declared ranges match (07 R191). -/
def Range.hits (x y : Range) : Bool :=
  x.sp == y.sp && (!x.sp || x.clu == y.clu) && (x.wr || y.wr)
    && x.base / 64 ≤ (y.base + y.len - 1) / 64 && y.base / 64 ≤ (x.base + x.len - 1) / 64

/-- Predecessors of tasks, direct and transitive. -/
def State.above (s : State) : Nat → List Nat → List Nat
  | 0, l => l
  | n + 1, l =>
    let more := (l.flatMap (fun k => match SMap.find? s.book.tasks k with | some t => t.preds | none => [])).filter (fun k => !l.contains k)
    if more.isEmpty then l else s.above n (l ++ more.eraseDups)

/-- Predecessors of a new task of a context (07 R191). -/
def State.predsOf (s : State) (c : Nat) (rs : List Range) : List Nat :=
  let cand := (s.book.tasks.filter (fun e => e.2.admitted && e.2.ctx == c && e.2.ranges.any (fun x => rs.any (fun y => y.hits x)))).map (·.1)
  cand.filter (fun k => !cand.any (fun j => j != k &&
    (s.above s.book.tasks.length (match SMap.find? s.book.tasks j with | some t => t.preds | none => [])).contains k))

/-- The range-table and predecessor conditions of 07 R186. -/
def State.roomFor (s : State) (die : Nat) (c : Nat) (rs : List Range) : Bool :=
  let used := (s.book.tasks.map (fun e => if e.2.admitted && e.2.die == die then e.2.ranges.length else 0)).foldl (· + ·) 0
  used + rs.length ≤ 512 && (s.predsOf c rs).length ≤ 4

/-- A booking record of a die to take (07 R197): the lowest never used, else the lowest that holds no live booking and none of a task still in
flight (R210). -/
def State.freeRec (s : State) (die : Nat) : Option Nat :=
  match (span (2048 * die) 2048).find? (fun k => (SMap.find? s.book.recs k).isNone) with
  | some k => some k
  | none => (span (2048 * die) 2048).find? (fun k => match s.recOf k with
    | some b => !b.live && !s.book.tasks.any (fun e => match e.2.booking with | some h => h.toNat == handleOf k b.gen | none => false)
    | none => true)

/-- A booking record taken: its GEN advances and skips 0 (07 R197). The handle of the record's last booking names none from then on, so
commands of one that was never placed go (R204). -/
def State.takeRec (s : State) (k ctx st reason : Nat) (hdr : W64) (steps : List BStep) (task : Nat) : State × W32 :=
  let g := SMap.get 0 s.book.gens k
  let gen := if g = 0xFFFFF then 1 else g + 1
  let stamp := s.book.stamp + 1
  let b : Booking := ⟨gen, ctx, st, reason, 0, 0, hdr, steps, task, stamp, Clock.empty, 0, [], s.slotNo, none⟩
  let s := match s.recOf k with
    | some y => if 6 ≤ y.st then s.dropCmds (fun c => ctlHandle c.ctl == handleOf k y.gen && c.ctx == y.ctx) else s
    | none => s
  ({ s with book := { s.book with recs := SMap.put s.book.recs k b, gens := SMap.put s.book.gens k gen, stamp := stamp } }, BitVec.ofNat 32 (handleOf k gen))

/-- A chain refused (07 R196): its record shows ST 7, its token is produced where the header names one it may use. With no free record it
has no handle. -/
def State.refuseChain (s : State) (die c reason : Nat) (hdr : Option W64) : State × W32 :=
  let (s, h) : State × W32 := match s.freeRec die with
    | none => (s, 0)
    | some k => s.takeRec k c 7 reason (hdr.getD 0) [] 0
  (match hdr with | some w => s.produceFor c (bits w 50 44) (bits w 55 51) Clock.empty | none => s, h)

/-- A task put in flight (07 R186, R191-R193): its record, its predecessors, its launch and its booking, which waits where no record is free
(R197), with the register that its handle goes to. `k` is its number; `unit` says that it takes a quota unit. A task without a chain whose
number a replayed log gives to a booking is not the recorded one (R214). -/
def State.putTask (s : State) (k : Nat) (t : Task) (unit : Bool) (launch : Option (List W64)) (chain : Option (Nat × W64 × List BStep))
    (dest : Option (Nat × Nat × Nat)) : State :=
  let c := t.ctx
  let preds := s.predsOf c t.ranges
  let s := if unit then s.addInfl c true else s
  let g := (s.ctx (s.tenant c)).blog
  let seq := g.seq
  let s := s.updBlog c (fun g => { g with seq := (g.seq + 1) % 2 ^ 32 })
  let s := if bits g.reg 1 0 = 2 ∧ chain.isNone then (match s.commitOf c seq (s.logRoom c) 0 with | some (_, w) => s.diverge c (some w) | none => s) else s
  let (s, lid) : State × Option Nat := match launch with
    | none => (s, none)
    | some h =>
      let (s, l) := s.newId
      ({ s with launches := SMap.put s.launches l ⟨c, k, h, lhItems h, false, [], []⟩ }, some l)
  let (s, hd, want) : State × Option W32 × Option Want := match chain with
    | none => (s, none, none)
    | some (die, hdr, steps) =>
      match s.freeRec die with
      | none => (s, none, some ⟨die, hdr, steps, none, dest⟩)
      | some r => let (s, h) := s.takeRec r c 1 0 hdr steps k; (s, some h, none)
  let t := { t with preds := preds, launch := lid, ready := false, booking := hd, seq := seq, admitted := true, want := want, log := (bits g.reg 1 0, g.session) }
  ({ s with book := { s.book with tasks := SMap.put s.book.tasks k t } }).settled

/-- A scalar register that a handle lands in, which is locked no more. -/
def Agent.landHandle (a : Agent) (n : Nat) (h : W32) : Agent :=
  { a with locks := a.locks.erase (.s n), regs := { a.regs with s := SMap.set 0 a.regs.s n (h.setWidth 64) } }

/-- A handle that has waited for a free record lands in its register (13 R360), in the agent's slot or where the agent is set aside. -/
def State.landHandle (s : State) (x : Nat) (dest : Option (Nat × Nat × Nat)) (h : W32) : State :=
  match dest with
  | none => s
  | some (core, st, n) =>
    let a := s.ag core st
    if a.ctx = x ∧ a.locks.contains (.s n) then s.updAg core st (fun a => a.landHandle n h)
    else s.updAside x (fun v => { v with agents := v.agents.map (fun (e : Nat × Agent) => if e.2.locks.contains (.s n) then (e.1, e.2.landHandle n h) else e) })

/-- Chains of a die that wait for a record take one, in the order of their tasks (07 R197). -/
def State.giveRecs (s : State) (die : Nat) : State :=
  s.book.tasks.foldl (fun s e =>
    match e.2.want with
    | none => s
    | some w =>
      match s.freeRec w.die with
      | none => s
      | some r =>
        if w.die ≠ die then s
        else match w.refuse with
          | some (reason, hdr) =>
            let (s, h) := s.refuseChain die e.2.ctx reason hdr
            { s with book := { s.book with tasks := SMap.del s.book.tasks e.1 } }.landHandle e.2.ctx w.dest h
          | none =>
            let (s, h) := s.takeRec r e.2.ctx 1 0 w.hdr w.steps e.1
            (s.updTask e.1 (fun t => { t with want := none, booking := some h })).landHandle e.2.ctx w.dest h) s

/-- A task number. -/
def State.newTask (s : State) : State × Nat := ({ s with book := { s.book with nextTask := s.book.nextTask + 1 } }, s.book.nextTask + 1)

/-- A blank task of a context. -/
def Task.blank (c die : Nat) (entry : Option W64) (tok : Option (Nat × Nat)) (words : List W64) : Task :=
  ⟨c, die, entry, tok, words, [], [], none, false, none, 0, none, none, false, Clock.empty, Clock.empty, none, (0, 0)⟩

/-- A task refused before any item runs (13 R359): word 3 written, its token produced. -/
def State.refuseTask (s : State) (c : Nat) (entry : Option W64) (tok : Option (Nat × Nat)) (code : Nat) (h : W32) : State :=
  let s := s.writeDone c entry code h.toNat
  match tok with | some (core, r) => s.produceFor c core r Clock.empty | none => s

/-- A queue's descriptor address (13 R363, 07 R182). -/
def State.queueVa (s : State) (c q : Nat) : W64 := BitVec.ofNat 64 (bits (s.cw c 3) 51 8 * 256 + 16 * q)

/-- A queue descriptor as the device reads it. -/
def State.queueDesc (s : State) (c q : Nat) : State × Option (W64 × W64) :=
  match s.bookRead c (s.queueVa c q) 16 with
  | (s, some bs) => let w := words64 2 bs; (s, some (w.getD 0 0, w.getD 1 0))
  | (s, none) => (s, none)

/-- A queue that is read: EN and LOGN (07 R182). -/
def queueOn (w0 : W64) : Bool := bit w0 0 && bits w0 11 8 != 0

/-- Address of entry k of a queue's ring (07 R183). -/
def ringVa (w0 : W64) (k : Nat) : W64 := BitVec.ofNat 64 (bits w0 51 12 * 4096 + 32 * (k % 2 ^ bits w0 11 8))

/-- The die whose booking unit reads a context's queues (07 R187). -/
def State.queueDie (s : State) (c : Nat) : Nat := match s.coresOf c with | k :: _ => dieOf k | [] => 0

/-- Two fractions compared. -/
def fracLe (x y : Nat × Nat) : Bool := x.1 * y.2 ≤ y.1 * x.2

/-- Contexts of a tenant, or the root alone, that hold a head waiting (07 R187). -/
def State.rivals (s : State) (t : Nat) : List Nat :=
  (s.ctxs.filter (fun e => s.tenant e.1 == t && (e.2.stt == 2) && e.2.headAt.any (fun h => h.2 != 0))).map (·.1)

/-- The lowest of the passes of contexts. -/
def State.lowPass (s : State) (l : List Nat) : Option (Nat × Nat) :=
  (l.filterMap (fun c => (s.ctx c).pass)).foldl (fun m p => match m with | none => some p | some x => if fracLe x p then m else some p) none

/-- A queue has, or no longer has, a head waiting (07 R187, R188); a context that comes to hold one after none takes its pass. -/
def State.noteHead (s : State) (c q : Nat) (waiting fresh : Bool) : State :=
  let x := s.ctx c
  let now := SMap.get 0 x.headAt q
  if !waiting then s.updCtx c (fun x => { x with headAt := SMap.del x.headAt q, age := SMap.del x.age q })
  else if now ≠ 0 ∧ !fresh then s
  else
    let had := x.headAt.any (fun h => h.2 != 0)
    let low := s.lowPass ((s.rivals (s.tenant c)).filter (· != c))
    let pass := if had then x.pass else match x.pass, low with
      | some p, some l => some (if fracLe l p then p else l)
      | some p, none => some p
      | none, some l => some l
      | none, none => some (0, 1)
    s.updCtx c (fun x => { x with headAt := SMap.put x.headAt q (s.cycle + 1), age := SMap.del x.age q, pass := pass })

/-- TAIL of a queue read (07 R185): whether its head waits. -/
def State.readTail (s : State) (c q : Nat) : State :=
  match s.queueDesc c q with
  | (s, none) => s.noteHead c q false false
  | (s, some (w0, w1)) =>
    let s := s.updCtx c (fun x => { x with tails := SMap.set 0 x.tails q (bits w1 31 0) })
    s.noteHead c q (queueOn w0 && bits w1 63 32 != bits w1 31 0) false

/-- TAIL of every queue read, at a slot boundary (07 R185). -/
def State.readTails (s : State) : State :=
  s.ctxs.foldl (fun s e => if e.2.stt = 2 ∧ bit (s.cw e.1 3) 0 then (List.range 16).foldl (fun s q => s.readTail e.1 q) s else s) s

/-- One over the share of a context's own queues, as a fraction (07 R187): along the path from its tenant, the total weight over the
weight taken at each level. -/
def State.invShare (s : State) (c : Nat) : Nat × Nat :=
  let weight (x : Nat) : Nat := max 1 (bits (s.cw x 6) 7 0)
  let heads (x : Nat) : Bool := (s.ctx x).headAt.any (fun h => h.2 != 0)
  let active (x : Nat) : Bool := s.ctxs.any (fun e => heads e.1 && (s.chain e.1).contains x)
  let path := ((s.chain c).filter (fun x => (s.ctx x).depth != 0)).reverse
  let path := if path.isEmpty then [c] else path
  path.zipIdx.foldl (fun (f : Nat × Nat) e =>
    let x := e.1
    let kids := (s.ctxs.filter (fun y => y.2.parent == x && y.2.depth == (s.ctx x).depth + 1 && (s.ctx x).depth != 0 && active y.1)).map (fun y => weight y.1)
    let total := kids.foldl (· + ·) 0 + (if heads x then weight x else 0)
    let mine := match path[e.2 + 1]? with | some y => weight y | none => weight x
    (f.1 * max 1 total, f.2 * mine)) (1, 1)

/-- Whether a tenant holds a resource that no other tenant holds (07 R187). -/
def State.holdsAlone (s : State) (t : Nat) : Bool :=
  let others := s.tenants.filter (· != t)
  s.cw t 12 != 0 || bits (s.cw t 13) 55 48 != 0
    || (List.range 128).any (fun k => [0, 1].any (fun d => s.holdsSide t k d && !others.any (fun o => s.holdsSide o k d)))
    || (List.range 16).any (fun k => s.holdsPort t k && !others.any (fun o => s.holdsPort o k))

/-- Tenants that take part in admissions on a die with a head waiting, in round-robin order (07 R187); the root is number 0. -/
def State.tenantOrder (s : State) (die : Nat) : List Nat :=
  let part (t : Nat) : Bool :=
    (s.ctx t).depth == 0 || s.holdsAlone t || (SMap.get 0 (s.ctx t).slices die != 0 && s.windowOf t die s.slotNo)
  let all := (rootCtx :: s.tenants).filter (fun t => part t && (s.rivals t).any (fun c => s.queueDie c == die))
  let sorted := (all.map (fun t => (s.tenNo t, t))).mergeSort (fun a b => a.1 ≤ b.1)
  let last := SMap.get 0 s.book.lastTen die
  ((sorted.filter (fun e => last ≤ e.1)) ++ (sorted.filter (fun e => e.1 < last))).map (·.2)

/-- Heads in the order in which a die's unit tries them (07 R187): context and queue. -/
def State.headOrder (s : State) (die : Nat) : List (Nat × Nat) :=
  (s.tenantOrder die).flatMap (fun t =>
    let cs := ((s.rivals t).filter (fun c => s.queueDie c == die && !s.stopAsked c)).mergeSort (fun a b =>
      let x := (s.ctx a).pass.getD (0, 1)
      let y := (s.ctx b).pass.getD (0, 1)
      if fracLe x y && fracLe y x then a ≤ b else fracLe x y)
    cs.flatMap (fun c =>
      let qs := (List.range 16).filter (fun q => SMap.get 0 (s.ctx c).headAt q != 0)
      let prio (q : Nat) : Nat := match (s.queueDesc c q).2 with | some (w0, _) => min 7 (bits w0 7 5 + SMap.get 0 (s.ctx c).age q) | none => 0
      (qs.mergeSort (fun a b => prio b < prio a || (prio a == prio b && a ≤ b))).map (fun q => (c, q))))

/-- The head of a queue passed to the unit (07 R185, R187): HEAD advances, the context's pass and the round robin move on. -/
def State.advanceHead (s : State) (die c q : Nat) (w0 w1 : W64) : State :=
  let inv := s.invShare c
  let head := (bits w1 63 32 + 1) % 2 ^ 32
  let s := (s.bookWrite c (s.queueVa c q + 12) (toBytes 4 head)).1
  let p := (s.ctx c).pass.getD (0, 1)
  let s := s.updCtx c (fun x => { x with pass := some (p.1 * inv.2 + inv.1 * p.2, p.2 * inv.2) })
  let s := { s with book := { s.book with lastTen := SMap.set 0 s.book.lastTen die (s.tenNo c + 1) } }
  s.noteHead c q (queueOn w0 && head != SMap.get 0 (s.ctx c).tails q) true

/-- A queue head tried (07 R186): admitted or refused, or nothing where a condition fails. -/
def State.tryHead (s : State) (die c q : Nat) : Option State :=
  match s.queueDesc c q with
  | (_, none) => none
  | (s, some (w0, w1)) =>
    if !queueOn w0 || bits w1 63 32 == SMap.get 0 (s.ctx c).tails q then none
    else
      let va := ringVa w0 (bits w1 63 32)
      match s.bookRead c va 32 with
      | (_, none) => none
      | (s, some bs) =>
        let ws := words64 4 bs
        let tok := (List.find? (fun (e : Nat × Task) => !e.2.admitted && e.2.ctx == c && e.2.entry == some va && e.2.parent.isNone) s.book.tasks).map (fun e => (e.1, e.2.tok))
        let drop (s : State) : State := match tok with
          | some (k, _) => { s with book := { s.book with tasks := SMap.del s.book.tasks k } }
          | none => s
        let tk := tok.bind (·.2)
        match s.parseEntry c ws with
        | (s, .refused) => some (((drop s).refuseTask c (some va) tk 1 0).advanceHead die c q w0 w1)
        | (s, .chainBad d r hdr) =>
          let (s, h) := (drop s).refuseChain d c r hdr
          some ((s.refuseTask c (some va) tk 2 h).advanceHead die c q w0 w1)
        | (s, .whole l ch rs) =>
          if !s.quotaFree c || !s.roomFor die c rs then none
          else
            let (s, k) := (drop s).newTask
            let s := s.advanceHead die c q w0 w1
            some (s.putTask k { Task.blank c die (some va) tk ws with ranges := rs } true l ch none)

/-- A TASK.LAUNCHW child tried (07 R190): its parent's unit, or one of the tenant's. -/
def State.tryChild (s : State) (die k : Nat) (t : Task) : Option State :=
  match s.parseEntry t.ctx t.words with
  | (s, r) =>
    let par : Option Task := t.parent.bind (fun p => SMap.find? s.book.tasks p)
    let back (s : State) : State :=
      let s := { s with book := { s.book with tasks := SMap.del s.book.tasks k } }
      match t.parent with
      | some p => s.updTask p (fun y => if y.lent = some k then { y with lent := none } else y)
      | none => s
    match r with
    | .refused => some ((back s).refuseTask t.ctx t.entry t.tok 1 0)
    | .chainBad d r hdr =>
      let (s, h) := (back s).refuseChain d t.ctx r hdr
      some (s.refuseTask t.ctx t.entry t.tok 2 h)
    | .whole l ch rs =>
      let lends : Bool := match par with | some p => p.lent == some k || p.lent.isNone | none => false
      if !(lends || s.quotaFree t.ctx) || !s.roomFor die t.ctx rs then none
      else
        let s := if lends then (match t.parent with | some p => s.updTask p (fun y => { y with lent := some k }) | none => s) else s
        some (s.putTask k { t with die := die, ranges := rs } (!lends) l ch none)

/-- TASK_ADMISSION (07 R186-R190): chains that wait for a record first, then children of TASK.LAUNCHW, then the heads in order; the first that
can is admitted or refused. -/
def execTaskAdmission (die : Nat) (s : State) : Out :=
  let s := s.giveRecs die
  if 1 < die ∨ s.dev.boot ≠ .up ∨ s.cycle < SMap.get 0 s.book.admitAt die then .next s
  else
    let kids := s.book.tasks.filter (fun e => !e.2.admitted && e.2.parent.isSome && s.queueDie e.2.ctx == die && (s.ctx e.2.ctx).stt == 2 && !s.stopAsked e.2.ctx)
    let r := match kids.findSome? (fun (e : Nat × Task) => s.tryChild die e.1 e.2) with
      | some t => some t
      | none => (s.headOrder die).findSome? (fun (e : Nat × Nat) => s.tryHead die e.1 e.2)
    match r with
    | none => .next s
    | some t => .next { t with book := { t.book with admitAt := SMap.set 0 t.book.admitAt die (s.cycle + 16) } }

/-- One aging period (07 R188): 2,500,000 cycles. -/
def agingPeriod : Nat := 2500000

/-- PRIORITY_AGING (07 R188). -/
def execPriorityAging (ctx q : Nat) (s : State) : Out :=
  let x := s.ctx ctx
  let since := SMap.get 0 x.headAt q
  let w := SMap.get 0 x.age q
  if since ≠ 0 ∧ since + agingPeriod * (w + 1) ≤ s.cycle + 1 then .next (s.updCtx ctx (fun x => { x with age := SMap.set 0 x.age q (w + 1) })) else .next s

/-- HBEAT (13 R352). -/
def execHbeat (u : U) (s : State) : Out := .next ((s.progress s.myCtx).fin u)

/-- WORKID (13 R353). -/
def execWorkid (u : U) (s : State) : Out :=
  let w := match s.me.item with
    | none => 0
    | some i =>
      if isSide s.cu.st then
        (match SMap.find? s.launches i.launch with
         | some l => (match l.cores.find? (fun e => e.1 == s.cu.core) with | some e => e.2 | none => i.workid)
         | none => i.workid)
      else i.workid
  scalarDone u s w 1

/-- No access of the issuing agent is outstanding and no lock holds. -/
def State.allDone (s : State) : Bool := s.me.pend.isEmpty && s.me.locks.isEmpty

/-- TASK.EXIT (13 R354); it never faults. -/
def execTaskExit (_ : U) (s : State) : Out :=
  if !s.allDone then .next s.hold else .next (s.exitThread s.cu.core s.cu.st)

/-- HALT (09 R275): on a sidecar the end of its program, on a thread TASK.EXIT. -/
def execHalt (_ : U) (s : State) : Out :=
  if !s.allDone then .next s.hold
  else if isSide s.cu.st then .next (s.haltSide s.cu.core s.cu.st)
  else .next (s.exitThread s.cu.core s.cu.st)

/-- YIELD.OP (13 R356, 15 R412). -/
def execYieldOp (u : U) (s : State) : Out :=
  let c := s.myCtx
  if !(s.stopAsked c || s.sideAsked c s.cu.core (sideOf s.cu.st)) then .next (s.fin u)
  else if !s.allDone then .next s.hold
  else if s.exhausted 1 3 then .next (s.raise .epoch 0 0 0)
  else match s.park s.cu.core s.cu.st s.nextPc [] with
    | (t, true) => .next t
    | (t, false) => .next (t.fin u)

/-- A park by an instruction, or its wait in place (06 R159): the events' descriptors and what they name. -/
def State.parkOrWait (s : State) (u : U) (waits : List W64) (ts : List Nat) (arr : Option (Nat × Nat)) : Out :=
  match s.park s.cu.core s.cu.st s.nextPc waits with
  | (t, true) => .next t
  | (t, false) => if ts.isEmpty && arr.isNone then .next (t.fin u) else .next (t.waitOn (.suspend ts arr))

/-- TASK.SUSPEND (13 R355). -/
def execTaskSuspend (u : U) (s : State) : Out :=
  let core := s.cu.core
  let ts := if u.c.toNat = 63 then [] else [u.c.toNat]
  let o := s.sA u
  let g := bits (s.sB u) 7 0
  let arr : Option (Option Nat) := if u.a = 0 then none else some (s.arrAddr s.myCtx s.myClu o)
  if !s.toksOk ts then .next s.priv
  else if arr = some none then .next (s.raiseWin .read 8 o)
  else if !s.allDone then .next s.hold
  else if s.exhausted 1 3 then .next (s.raise .epoch 0 0 0)
  else
    let at' : Option (Nat × Nat) := (arr.bind id).map (fun a => (a, g))
    let waits := (if at'.isSome then [waitArr g s.myClu o.toNat] else []) ++ ts.map (waitTok core)
    s.parkOrWait u waits ts at'

/-- Space of a ring (13 R358): full, or the position's entry still in flight. -/
def State.ringFull (s : State) (c : Nat) (w0 w1 : W64) : Bool :=
  let tail := bits w1 31 0
  (tail + 2 ^ 32 - bits w1 63 32) % 2 ^ 32 == 2 ^ bits w0 11 8
    || s.book.tasks.any (fun e => e.2.admitted && e.2.ctx == c && e.2.entry == some (ringVa w0 tail))

/-- TASK.LAUNCH's writes (13 R357, R358): the entry with word 3 zero, then TAIL with a release at .dev. -/
def State.postEntry (s : State) (u : U) (q : Nat) (w0 w1 : W64) (ws : List W64) (tok : Option (Nat × Nat)) : Out :=
  let c := s.myCtx
  let tail := bits w1 31 0
  let va := ringVa w0 tail
  match s.access c .write false va 32 with
  | (s, .error (f, x)) => .next (s.raiseX .write f x)
  | (s, .ok ps) =>
    match s.access c .write false (s.queueVa c q + 8) 8 with
    | (s, .error (f, x)) => .next (s.raiseX .write f x)
    | (s, .ok pt) =>
      match s.screen false ⟨1, none⟩ ps with
      | .error f => .next (f s)
      | .ok m1 =>
        match s.screen false ⟨1, some 3⟩ pt with
        | .error f => .next (f s)
        | .ok m2 =>
          if s.exhausted 1 3 then .next (s.raise .epoch 0 0 0)
          else
            let s := (s.recordMd m1).storeAs c ps (bytes64 (ws.take 3 ++ [0]))
            let (s, pub) := s.release 3
            let s := (s.recordMd m2).storeAs c [⟨false, (pt.headD ⟨false, 0, 0, 0, false, 0, 0⟩).a, 0, 4, false, s.queueVa c q + 8, 0⟩] (toBytes 4 ((tail + 1) % 2 ^ 32))
            let s := match pt with | p :: _ => s.setPubs false p.a [pub] | [] => s
            let s := match tok with
              | none => s
              | some _ => let (s, k) := s.newTask; { s with book := { s.book with tasks := SMap.put s.book.tasks k (Task.blank c 0 (some va) tok ws) } }
            let s := if bit (s.cw c 3) 0 then s.readTail c q else s
            .next ((s.wrS u.a.toNat (BitVec.ofNat 64 tail) 1).fin u)

/-- Whether the queue that TASK.LAUNCH names is seen to be off (13 R357): its descriptor can be read, and is not EN = 1 with LOGN ≠ 0. -/
def State.queueOff (s : State) (q : Nat) : Bool :=
  match s.lineRead ⟨0, none⟩ (s.queueVa s.myCtx q) 16 with
  | (_, .ok qd) => !queueOn ((words64 2 qd).getD 0 0)
  | (_, .error _) => false

/-- TASK.LAUNCH (13 R357, R358). A queue that is off is illegal before any other cause (14 R376), where its descriptor can be read. -/
def execTaskLaunch (u : U) (s : State) : Out :=
  let c := s.myCtx
  let x := s.sB u
  let q := bits x 3 0
  let ts := if u.c.toNat = 63 then [] else [u.c.toNat]
  if bit x 4 then .next s.illegal
  else if !s.allPerformed then .next s.hold
  else if s.queueOff q then .next s.illegal
  else if !s.toksOk ts then .next s.priv
  else if bits x 63 52 ≠ 0 then .next (s.raiseX .read ⟨(s.ctx c).depth, 5, 0, false, x, false⟩ x)
  else
    match s.lineRead ⟨0, none⟩ (BitVec.ofNat 64 (bits x 51 5 * 32)) 32 with
    | (s, .error f) => .next (f s)
    | (s, .ok bs) =>
      match s.lineRead ⟨0, none⟩ (s.queueVa c q) 16 with
      | (s, .error f) => .next (f s)
      | (s, .ok qd) =>
        let w := words64 2 qd
        let w0 := w.getD 0 0
        let w1 := w.getD 1 0
        if !queueOn w0 then .next s.illegal
        else if s.ringFull c w0 w1 then .next ((s.wrS u.a.toNat (BitVec.allOnes 64) 1).fin u)
        else s.postEntry u q w0 w1 (words64 4 bs) (if u.c.toNat = 63 then none else some (s.cu.core, u.c.toNat))

/-- Task of the issuing item (07 R190). -/
def State.myTask (s : State) : Option Nat := s.me.item.bind (fun i => (SMap.find? s.launches i.launch).map (·.task))

/-- TASK.LAUNCHW (13 R357, R358, 07 R190). -/
def execTaskLaunchw (u : U) (s : State) : Out :=
  let c := s.myCtx
  let core := s.cu.core
  let va := s.sA u
  let tc := u.c.toNat
  if va.toNat % 32 ≠ 0 then .next s.illegal
  else if !s.toksOk [tc] then .next s.priv
  else if !s.allDone then .next s.hold
  else
    match s.lineRead ⟨0, none⟩ va 32 with
    | (s, .error f) => .next (f s)
    | (s, .ok bs) =>
      if s.exhausted 1 3 then .next (s.raise .epoch 0 0 0)
      else
        let par := s.myTask
        let (s, k) := s.newTask
        let t := { Task.blank c 0 (some va) (some (core, tc)) (words64 4 bs) with parent := some (par.getD 0) }
        let s := { s with book := { s.book with tasks := SMap.put s.book.tasks k t } }
        let s := match par with | some p => s.updTask p (fun y => if y.lent.isNone then { y with lent := some k } else y) | none => s
        s.parkOrWait u [waitTok core tc] [tc] none

/-- CONTINUATION_PARK_TIMEOUT (06 R159): a TOK.WAIT or ARRIVE.WAIT that has waited 128 cycles, and still does, parks its thread; one that cannot
waits in place from then on. -/
def execContinuationParkTimeout (core st : Nat) (s : State) : Out :=
  let a := s.ag core st
  let key := s.raceOf core st
  let waits : Option (List W64) := match a.wait with
    | .tok ts => some (ts.map (waitTok core))
    | .arrive x g => some [waitArr g (x / 2 ^ 25) (x % 2 ^ 25 - (s.win a.ctx (x / 2 ^ 25)).base)]
    | _ => none
  match waits, a.wunit, a.waitAt with
  | some ws, some x, some w =>
    if 4 ≤ st ∨ a.run ≠ .running ∨ !s.runs a.ctx ∨ s.cycle < w + 128 ∨ !a.pend.isEmpty ∨ !a.locks.isEmpty
        ∨ s.tokReady core st ∨ s.arriveWaitDue core st then .next s
    else
      let stay (s : State) : State := s.updAg core st (fun a => { a with waitAt := none })
      if maxEpoch < (s.rs key).epoch + 1 ∨ s.cepochFull key then .next (stay s)
      else match s.park core st (x.pc + BitVec.ofNat 64 (4 * x.len)) ws with
        | (t, true) => .next t
        | (t, false) => .next (stay t)
  | _, _, _ => .next s

end Sys2Proof.Machine
end

