-- ==== Sys2Proof/Machine/Stops.lean ====
section
/-! DEFINITION. Preemption (14 R389-R393, R472, 15 R410, R412, 06 R174): requests, ordinary stops, forced saves of contexts and of
sides, what is set aside and brought back, time-slice windows. -/

namespace Sys2Proof.Machine

/-- The state an outcome leads to, or the one it came from. -/
def stateOr (s : State) (o : Out) : State := match o with | .next t => t | _ => s

/-- A context and its descendants (13 R351). -/
def State.subtree (s : State) (c : Nat) : List Nat := (s.ctxs.filter (fun e => (s.chain e.1).contains c)).map (·.1)

/-- PDEAD.LIMIT of a context (14 R389). -/
def State.limitOf (s : State) (c : Nat) : Nat := bits (s.cw c 5) 63 32

/-- A stop requested of a context (14 R389): PREQ is raised and LEFT starts. -/
def State.raiseStop (s : State) (c : Nat) (wd : Bool) : State :=
  let lim := s.limitOf c
  s.updCtx c (fun x =>
    if x.req then { x with reqWd := x.reqWd || wd }
    else { x with req := true, reqWd := wd, left := lim, stopping := true })

/-- A selection of sides: by core and side. -/
abbrev Sel := Nat → Nat → Bool

/-- Every side. -/
def Sel.all : Sel := fun _ _ => true

/-- Keys of the agents that run work of contexts on selected sides. -/
def State.agentsOn (s : State) (xs : List Nat) (sel : Sel) : List Nat :=
  (s.agents.filter (fun e => e.2.item.isSome && xs.contains e.2.ctx && sel (e.1 / 6) (sideOf (e.1 % 6)))).map (·.1)

/-- Whether a queued command belongs to a selected side: its half's, or that of the stream that issued it. -/
def Cmd.onSide (c : Cmd) (sel : Sel) (core q : Nat) : Bool :=
  if q = 6 then sel core 0 || (c.isFull && sel core 1)
  else if q = 7 ∨ q = 16 then sel core 1
  else sel core (sideOf c.st)

/-- Commands of contexts fed by selected sides: core, queue, command. -/
def State.cmdsOn (s : State) (xs : List Nat) (sel : Sel) : List (Nat × Nat × Cmd) :=
  s.cores.flatMap (fun e => e.2.eq.flatMap (fun q => (q.2.filter (fun c => xs.contains c.ctx && c.onSide sel e.1 q.1)).map (fun c => (e.1, q.1, c))))

/-- Commands by queue. -/
def queued (l : List (Nat × Nat × Cmd)) : SMap (List Cmd) := l.foldl (fun m e => SMap.set [] m e.2.1 (SMap.get [] m e.2.1 ++ [e.2.2])) []

/-- Every command of a selection changed. -/
def State.mapCmds (s : State) (xs : List Nat) (sel : Sel) (f : Cmd → Cmd) : State :=
  { s with cores := s.cores.map (fun e => (e.1, { e.2 with eq := e.2.eq.map (fun q =>
      (q.1, q.2.map (fun c => if xs.contains c.ctx && c.onSide sel e.1 q.1 then f c else c))) })) }

/-- A command told to stop at its next command boundary (14 R386, R391). -/
def Cmd.halt (c : Cmd) : Cmd :=
  if c.ended || c.fault.isSome || c.susp = 4 then c
  else if !c.started || c.atBoundary then { c with susp := 3 } else { c with susp := 2 }

/-- A command let go on: one that has started goes on in its window. -/
def Cmd.release (c : Cmd) : Cmd :=
  if c.fault.isSome then c
  else if c.susp = 2 ∨ c.susp = 3 then { c with susp := if c.started && c.atBoundary then 1 else 0 } else c

/-- Whether a command is at rest: stopped, faulted or done, with nothing of it on the fabric. -/
def State.atRest (s : State) (c : Cmd) : Bool :=
  (c.susp == 3 || c.ended || c.fault.isSome) && !s.flights.any (fun f => f.cmd == c.id) && c.sends.all (fun e => e.st != 1)

/-- Bytes filled up with zeros to a length. -/
def padTo (n : Nat) (l : List Byte) : List Byte := (l ++ List.replicate (n - l.length) 0).take n

/-- Block 0 of an agent section (14 R472). -/
def Agent.block0 (a : Agent) : List Byte :=
  let st := match a.run with | .idle => 0 | .running => 1 | .stopped => 2 | .faulted _ => 3
  let x := a.xfer.getD ⟨0, false, 0, 0⟩
  let pt := b2n a.xfer.isSome
  let l := a.loop.getD ⟨[], 0, 0, false, [], 0, 0⟩
  let map := (List.range 8).map (fun k => BitVec.ofNat 64 ((SMap.get 0 a.spmap (2 * k)).toNat + (SMap.get 0 a.spmap (2 * k + 1)).toNat * 2 ^ 32))
  let held := match a.held with | some h => BitVec.ofNat 64 (2 ^ 63 + bits h.addr 51 11 * 2048) | none => 0
  let rasblk := match a.ras.blocks.reverse with | b :: _ => b | [] => 0
  padTo 4096 (bytes64 ((List.range 64).map a.sreg ++ (List.range 8).map a.breg
    ++ [setBits a.pc 63 52 0, BitVec.ofNat 64 (st * 2 ^ 62 + pt * 2 ^ 61 + b2n x.taken * 2 ^ 60 + x.left * 2 ^ 58), x.tgt, x.src, a.allFlags, a.live,
        a.issdiag, BitVec.ofNat 64 (a.ras.spilled * 2 ^ 16 + rasblk)]
    ++ map ++ (List.range 8).map (fun k => (a.cfg.getD []).getD k 0) ++ (List.range 6).map (fun k => BitVec.ofNat 64 (l.c.getD k 0))
    ++ [BitVec.ofNat 64 l.n, BitVec.ofNat 64 (b2n a.loop.isSome * 2 ^ 63 + b2n l.brk * 2 ^ 62 + (if l.brk then l.p else 0)), held]))

/-- Blocks 0-3 of an agent section: block 0, the predicates, the loop buffer (14 R391); the body's place and the next unit's number stand
after the buffer, in bytes to which the spec gives no content. -/
def Agent.sideBlocks (a : Agent) : List (List Byte) :=
  let ps := (List.range 64).flatMap (fun k => toBytes 128 (a.preg k).toNat)
  let buf := match a.loop with
    | some l => padTo 3072 (l.body.flatMap (fun u => toBytes 12 u.iw.pack.toNat)) ++
        bytes64 [match l.body with | b :: _ => b.pc | [] => 0, BitVec.ofNat 64 (l.idx * 2 ^ 16 + l.body.length), l.after]
    | none => []
  [a.block0, ps.take 4096, ps.drop 4096, padTo 4096 buf]

/-- The twenty blocks of a thread slot's section (14 R391). -/
def Agent.threadBlocks (a : Agent) : List (List Byte) := a.sideBlocks ++ (List.range 16).map (fun k => (a.vreg k).bytes)

/-- Per-core state of a context (15 R473): fields of sides that it does not hold read zero. -/
def State.coreBlock0 (s : State) (x core : Nat) : List Byte :=
  let k := s.regs x core
  let on (d : Nat) : Bool := s.holdsSide x core d
  let ov : W64 := BitVec.ofNat 64 ((if on 0 then 0xFFFF else 0) + (if on 1 then 0xFFFF0000 else 0))
  let toks := (List.range 32).flatMap (fun t => toBytes 2 (if on (t / 16) then SMap.get 0 k.toks t else 0))
  let vc (d : Nat) : W64 := if on d then SMap.get 0 k.vcstat d else 0
  let q (i : Nat) : DataQ := ((if on (queueSide i) then SMap.find? k.dq i else none).getD ⟨[], [], 0, 0, 0, []⟩)
  let f (h : Nat) : List W64 := if on h then SMap.get [] k.fmtq h else []
  let word (ws : List W64) (n : Nat) : List W64 := (List.range n).map (fun j => ws.getD j 0)
  padTo 4096 (toks ++ bytes64 ([k.tokovf &&& ov, (if s.wholeEngine x core then SMap.get 0 k.vcstat 0 else vc 0), (if s.wholeEngine x core then 0 else vc 1), s.accFree x core]
    ++ (List.range 8).map (fun i => BitVec.ofNat 64 ((q i).count * 2 ^ 32 + (q i).blocks.headD 0 * 2 ^ 16 + min 32 (q i).chip.length))
    ++ [BitVec.ofNat 64 (f 0).length, BitVec.ofNat 64 (f 1).length] ++ word (f 0) 16 ++ word (f 1) 16
    ++ (List.range 8).flatMap (fun i => word (q i).chip 32)))

/-- Blocks taken from a context's pool, lowest first. -/
def State.takeBlocks (s : State) (x : Nat) : Nat → Option (State × List Nat)
  | 0 => some (s, [])
  | n + 1 =>
    match s.freeBlock x with
    | none => none
    | some b => ((s.takeBlock x b).takeBlocks x n).map (fun r => (r.1, b :: r.2))

/-- Blocks written, with the poison marks of their lines (02 R44); nothing where a write fails in translation. -/
def State.writeBlocks (s : State) (x : Nat) : List (Nat × List Byte × List Nat) → Option State
  | [] => some s
  | (b, bs, bad) :: t => match s.spillWrite x (s.blockVa x b) bs with
    | (s, .ok _) => (s.spillMark x (s.blockVa x b) 4096 bad).writeBlocks x t
    | (_, .error _) => none

/-- The registers that an agent has parked in quarters and bank registers moved to blocks of their own (14 R391). -/
def State.unpark (s : State) (key : Nat) : Option State :=
  let core := key / 6
  let st := key % 6
  let l := (s.parked core).filter (fun e => e.1 == st && (match e.2.2 with | .block _ => false | _ => true))
  match s.evictAll core ⟨List.range 64, [], none, true⟩ l with
  | (s, .ok) => some s
  | _ => none

/-- The accumulator rows of a core as a context's tenant has them, with their poison marks: in the store, or set aside. -/
def State.accOf (s : State) (x core : Nat) : SMap W32 × SMap Bool :=
  if s.coreAway x core then (let v := (s.ctx (s.tenant x)).aside; (v.acc, v.accPsn)) else (s.mem.acc, s.mem.accPsn)

/-- The bytes of a side's accumulator rows. -/
def State.rowBytes (s : State) (x core side : Nat) : List Byte :=
  let m := (s.accOf x core).1
  (span (accKey core (2048 * side) 0) (2048 * 64)).flatMap (fun k => toBytes 4 (SMap.get 0 m k).toNat)

/-- The rows of a side that carry a poison mark, counted from its first. -/
def State.rowMarks (s : State) (x core side : Nat) : List Nat :=
  let m := (s.accOf x core).2
  (List.range 2048).filter (fun r => SMap.get false m (core * 4096 + 2048 * side + r))

/-- 4 KiB groups of a byte list. -/
def blocksOf : Nat → List Byte → List (List Byte)
  | 0, _ => []
  | n + 1, l => l.take 4096 :: blocksOf n (l.drop 4096)

/-- What a forced save writes for a context, in order (14 R391): thread slots and sidecars held on the selected sides, those that an earlier
save set aside among them, cores (block 0; the other seven are the device's own), rows where the save serves their revocation. -/
def State.imageBlocks (s : State) (x : Nat) (sel : Sel) (rows : Bool) : List (Option (List Byte × List Nat)) :=
  let cs := (s.coresOf x).filter (fun k => sel k 0 || sel k 1)
  let on (k d : Nat) : Bool := s.holdsSide x k d && sel k d
  let mine (k st : Nat) : Agent := match SMap.find? (s.ctx x).aside.agents (k * 6 + st) with
    | some a => a
    | none => let a := s.ag k st; if a.ctx = x then a else Agent.blank
  cs.flatMap (fun k => ((List.range 4).filter (fun st => on k (sideOf st))).flatMap (fun st => (mine k st).threadBlocks.map (fun b => some (b, []))))
    ++ cs.flatMap (fun k => ([4, 5].filter (fun st => on k (sideOf st))).flatMap (fun st => (mine k st).sideBlocks.map (fun b => some (b, []))))
    ++ cs.flatMap (fun k => some (s.coreBlock0 x k, []) :: List.replicate 7 none)
    ++ (if rows then cs.flatMap (fun k => ([0, 1].filter (on k)).flatMap (fun d =>
        let bad := s.rowMarks x k d
        (blocksOf 128 (s.rowBytes x k d)).zipIdx.map (fun e =>
          some (e.1, (bad.filter (fun r => r / 16 == e.2)).flatMap (fun r => span (r % 16 * 4) 4))))) else [])

/-- States joined into what a context's agents published at its last stop (03 R94). -/
def State.joinStop (s : State) (x : Nat) (c : Clock) : State := s.updCtx x (fun y => { y with stopClk := y.stopClk.join c })

/-- An agent leaves its slot for a save: its device-scope release (03 R94). -/
def State.leaveSlot (s : State) (x key : Nat) : State :=
  let (s, c) := s.release3 (key / 6) (key % 6)
  (s.setAg (key / 6) (key % 6) (s.ag (key / 6) (key % 6)).vacant).joinStop x c

/-- The engine agents of a context on selected cores leave for a stop (03 R94): each one's device-scope release. -/
def State.releaseEngines (s : State) (x : Nat) (sel : Sel) : State :=
  let cs := (s.coresOf x).filter (fun k => sel k 0 || sel k 1)
  let keys := (cs.flatMap (fun k => [6, 7, 9, 10, 11, 12, 13].map (s.engKey x k))).eraseDups
  keys.foldl (fun s key => let (s, p) := s.publishClose key 3; (s.capEpoch key).joinStop x p.clk) s

/-- Commands and sidecar stores put beside what is set aside for a core. -/
def mergeCore (old new : Core) : Core :=
  { old with eq := new.eq.foldl (fun m q => SMap.set [] m q.1 (SMap.get [] m q.1 ++ q.2)) old.eq, imem := new.imem }

/-- A core's queues without some commands. -/
def Core.without (k : Core) (ids : List Nat) : Core :=
  { k with eq := (k.eq.map (fun q => (q.1, q.2.filter (fun (c : Cmd) => !ids.contains c.id)))).filter (fun q => !q.2.isEmpty) }

/-- Words 23-31 of a context's continuation records written to memory (06 R165); the device's own words 26-31 are free values. -/
def State.writeRecs (s : State) (x : Nat) : State :=
  let tag := s.fresh
  (s.ctx x).recs.foldl (fun (s : State) (e : Nat × List W64) =>
    (s.spillWrite x (s.placeVa x e.1 + 184) (bytes64 (e.2 ++ (List.range 6).map (fun k => Config.freeWord tag (6 * e.1 + k))))).1) { s with fresh := tag + 1 }

/-- One context of a forced save (14 R391): the image written, its agents and commands of the selected sides kept in the device's copy;
nothing where the spill region has no room. -/
def State.saveOne (s : State) (x : Nat) (sel : Sel) (rows : Bool) : Option State :=
  let keys := s.agentsOn [x] sel
  match keys.foldl (fun (o : Option State) k => o.bind (fun s => match s.rasSpillAll (k / 6) (k % 6) 16 with | (t, true) => some t | _ => none)) (some s) with
  | none => none
  | some s =>
    match s.takeBlocks x (s.imageBlocks x sel rows).length with
    | none => none
    | some (s, bl) =>
      match keys.foldl (fun (o : Option State) k => o.bind (fun s => s.unpark k)) (some s) with
      | none => none
      | some s =>
        match s.writeBlocks x ((bl.zip (s.imageBlocks x sel rows)).filterMap (fun e => e.2.map (fun b => (e.1, b)))) with
        | none => none
        | some s =>
          let ags : List (Nat × Agent) := keys.map (fun k => (k, s.ag (k / 6) (k % 6)))
          let cmds : List (Nat × Nat × Cmd) := s.cmdsOn [x] sel
          let keep (k : Nat) : Core := { Core.blank with eq := queued (cmds.filter (fun e => e.1 == k)), imem := (s.core k).imem }
          let kept : List (Nat × Core) := ((s.coresOf x).filter (fun k => sel k 0 || sel k 1)).map (fun k => (k, keep k))
          let s := ((keys.foldl (fun s k => s.leaveSlot x k) s).releaseEngines x sel).writeRecs x
          let ids := cmds.map (fun e => e.2.2.id)
          let s := { s with cores := s.cores.map (fun (e : Nat × Core) => (e.1, e.2.without ids)) }
          some (s.updCtx x (fun y =>
            let v := y.aside
            let av := ags.foldl (fun m (e : Nat × Agent) => SMap.put m e.1 e.2) v.agents
            let cv := kept.foldl (fun m (e : Nat × Core) => SMap.put m e.1 (mergeCore ((SMap.find? m e.1).getD Core.blank) e.2)) v.cores
            { y with aside := ⟨av, cv, bl.headD 0, bl ++ v.blocks, true, v.acc, v.accPsn⟩ }))

/-- Every context of a subtree saved, or none (14 R391). -/
def State.saveAll (s : State) (xs : List Nat) (sel : Sel) (rows : Bool) : Option State :=
  xs.foldl (fun (o : Option State) x => o.bind (fun s => s.saveOne x sel rows)) (some s)

/-- A record with no faulting stream (14 R378, R391): FORCED or WATCHDOG, for the parent of a context. -/
def State.ctxRecord (s : State) (c : Nat) (cause : Cause) (cword aux0 aux1 : W64) : State :=
  let core := (s.coresOf c).headD 0
  let t : TrapInfo := ⟨cause, cword, aux0, aux1, 0, none, false, none⟩
  s.deliver ⟨cause.code, true, c, core, 15, 0, s.recordWords c core 15 t false noCapture []⟩ (s.candidates c cause cword false)

/-- A booking whose context has stopped (14 R392): its later slots freed, ST 2 and START 0, to be searched again with NOTBEFORE 0. -/
def State.stopBooking (s : State) (k : Nat) : State :=
  (s.unplace k).updRec k (fun b =>
    { b with st := 2, start := 0, hdr := setBits b.hdr 43 34 0 })

/-- Every live booking of contexts stopped (14 R392). -/
def State.stopBookings (s : State) (xs : List Nat) : State :=
  ((s.book.recs.filter (fun e => xs.contains e.2.ctx && (e.2.st == 1 || e.2.st == 2 || e.2.st == 3))).map (·.1)).foldl (fun s k => s.stopBooking k) s

/-- Work set aside for a selection of contexts exists. -/
def Saved.isEmpty (v : Saved) : Bool := v.agents.isEmpty && v.cores.all (fun e => e.2.eq.isEmpty)

/-- The handle of a captured command resolved again where it came with an image (15 R420). -/
def State.reResolve (s : State) (core q : Nat) (c : Cmd) : State :=
  let again (h : HRange) (off : Nat) (dst : Bool) (put : HRange → CmdKind) : State :=
    if h.len ≠ 0 ∨ h.base ≠ 0 then s
    else
      let hw := BitVec.ofNat 64 (h.gen * 2 ^ 20 + h.index)
      match s.resolve c.ctx hw off 0 dst with
      | .ok r => s.updCmd core q c.id (fun c => { c with kind := put r })
      | .error e => s.engTrap core q c .handle (BitVec.ofNat 64 (e + 16 * b2n dst)) hw (BitVec.ofNat 64 off)
  match c.kind with
  | .ld h off sp n => again h off false (fun r => .ld r off sp n)
  | .st h off sp n => again h off true (fun r => .st r off sp n)
  | .g sc h off d i n es iw => again h off sc (fun r => .g sc r off d i n es iw)
  | .d2 m h off t nr w p => again h off m (fun r => .d2 m r off t nr w p)
  | _ => s

/-- Commands set aside for a context put back in the queues of the cores where it may run, behind what stands there (15 R412). -/
def State.bringCmds (s : State) (x : Nat) : State :=
  let v := (s.ctx x).aside
  v.cores.foldl (fun s e =>
    if e.2.eq.isEmpty ∨ !(s.holdsSide x e.1 0 || s.holdsSide x e.1 1) ∨ !s.coreOpen x e.1 ∨ (s.ctx x).stt ≠ 2 ∨ s.stopAsked x then s
    else
      let froz := s.frozen x e.1
      let s := s.updCtx x (fun y => { y with aside := { y.aside with cores := SMap.upd y.aside.cores e.1 (fun k => { k with eq := [] }) } })
      e.2.eq.foldl (fun s q =>
        let l := q.2.map (fun c => if froz then c else c.release)
        let s := if q.1 = 8 ∨ q.1 = 16 then s else s.joinBoth (s.engKey x e.1 q.1) (s.ctx x).stopClk
        l.foldl (fun s c => s.reResolve e.1 q.1 c) (s.setEq e.1 q.1 (s.eq e.1 q.1 ++ l))) s) s

/-- The slot in which an agent set aside goes on: its own, or for a thread that no record names any free slot where the context may start
work. -/
def State.bringSlot (s : State) (x key : Nat) (a : Agent) : Option Nat :=
  let core := key / 6 % 128
  let st := key % 6
  let may (t : Nat) : Bool := (s.ag core t).item.isNone && s.mayStart x core (sideOf t)
  let named := s.frozen x core || (match a.run with | .faulted _ => true | _ => false)
  if isSide st ∨ named then (if may st then some st else none)
  else if may st then some st else (List.range 4).find? may

/-- A sidecar's half of an instruction store. -/
def halfStore (m : SMap Byte) (st : Nat) : SMap Byte := SMap.slice m ((st - 4) * 0x8000) ((st - 3) * 0x8000)

/-- An agent set aside goes on in a slot (14 R393). -/
def State.bringAgent (s : State) (x key : Nat) (a : Agent) : State :=
  match s.bringSlot x key a with
  | none => s
  | some t =>
    let core := key / 6 % 128
    match (if isSide t then (s, true) else s.evictBank core t) with
    | (_, false) => s
    | (s, true) =>
      let froz := s.frozen x core
      let v := (s.ctx x).aside
      let s := s.updCtx x (fun y => { y with aside := { y.aside with agents := SMap.del y.aside.agents key } })
      let s := if isSide t then
          let half := halfStore ((SMap.find? v.cores core).getD Core.blank).imem t
          s.updCore core (fun k => { k with imem := SMap.splice k.imem ((t - 4) * 0x8000) ((t - 3) * 0x8000) half })
        else s
      let run := match a.run with | .stopped => if froz then Run.stopped else .running | r => r
      let s := s.setAg core t { a with run := run, ready := s.cycle, bounds := [], wunit := a.wunit.map (fun u => { u with core := core, st := t }) }
      s.joinBoth (s.raceOf core t) (s.ctx x).stopClk

/-- The blocks of an image no longer needed returned to the pool. -/
def State.dropImage (s : State) (x : Nat) : State :=
  let v := (s.ctx x).aside
  if v.isEmpty ∧ v.blocks ≠ [] then
    (v.blocks.foldl (fun s b => s.dropBlock x b) s).updCtx x (fun y => { y with aside := { y.aside with blocks := [], first := 0, forced := false } })
  else s

/-- What is set aside for a context brought back as far as its cores allow. -/
def State.bring (s : State) (x : Nat) : State :=
  if (s.ctx x).aside.isEmpty then s
  else
    let s := s.bringCmds x
    ((s.ctx x).aside.agents.foldl (fun s e => s.bringAgent x e.1 e.2) s).dropImage x

/-- Scratchpad windows and accumulator rows that an ordinary stop left dead (14 R390, 02 R54): each line or row holds what the context
left, or zero. -/
def State.deadStore (s : State) (x : Nat) : State :=
  let tag := s.fresh
  let s := { s with fresh := tag + 1 }
  let inWin (k : Nat) : Bool := (s.ctx x).win.any (fun w => w.1 == k / 2 ^ 25 && w.2.base ≤ k % 2 ^ 25 && k % 2 ^ 25 < w.2.lim)
  let inRow (k : Nat) : Bool := let r := s.accRows x (k / 2 ^ 18); r.1 ≤ k % 2 ^ 18 / 64 && k % 2 ^ 18 / 64 < r.1 + r.2
  let sp := SMap.keep s.mem.spad (fun k _ => !inWin k || Config.freeChoice tag (k / 64))
  let ac := SMap.keep s.mem.acc (fun k _ => !inRow k || Config.freeChoice tag (2 ^ 40 + k / 64))
  { s with mem := { s.mem with spad := sp, acc := ac } }

/-- The state that a context's agents published at its last stop joined by those that stand in their slots and by the engines of its commands
(03 R94, 04 R105). -/
def State.joinResumed (s : State) (x : Nat) : State :=
  let c := (s.ctx x).stopClk
  let ags := (s.agents.filter (fun e => e.2.ctx == x && e.2.item.isSome)).map (fun e => s.raceOf (e.1 / 6) (e.1 % 6))
  let engs := s.cores.flatMap (fun e => (e.2.eq.filter (fun q => q.1 != 8 && q.1 != 16 && q.2.any (fun (c : Cmd) => c.ctx == x))).map (fun q => s.engKey x e.1 q.1))
  (ags ++ engs.eraseDups).foldl (fun s k => s.joinBoth k c) s

/-- A context's own stopped streams let go on where nothing freezes them. -/
def State.unstop (s : State) (x : Nat) : State :=
  let s := s.joinResumed x
  let s := { s with agents := s.agents.map (fun (e : Nat × Agent) =>
    if e.2.ctx = x ∧ e.2.item.isSome ∧ e.2.run = Run.stopped ∧ !s.frozen x (e.1 / 6) then (e.1, { e.2 with run := .running, ready := s.cycle }) else e) }
  { s with cores := s.cores.map (fun (e : Nat × Core) => if s.frozen x e.1 then e else
      (e.1, { e.2 with eq := e.2.eq.map (fun (q : Nat × List Cmd) => (q.1, q.2.map (fun (c : Cmd) => if c.ctx = x then c.release else c))) })) }

/-- One context of a subtree that goes on (14 R393). -/
def State.revive (s : State) (x : Nat) : State :=
  if (s.ctx x).stt ≠ 2 ∨ s.stopAsked x then s
  else
    let s := match (s.ctx x).saved with
      | some v => (if v.forced then s else s.deadStore x).updCtx x (fun y => { y with saved := none })
      | none => s
    (s.unstop x).bring x

/-- A context resumed by .run (14 R393): REQ cleared, the watchdog back at ST 00, the image restored, the subtree goes on. -/
def State.resume (s : State) (c : Nat) : State :=
  let s := s.updCtx c (fun x => { x with stt := 2, req := false, reqWd := false, left := 0, stopping := false, wdSt := 0, wdCnt := 0 })
  (s.subtree c).foldl (fun s x => s.revive x) s

/-- The agents of contexts that keep their slots through a stop, and their engines, release (03 R94, 04 R104). -/
def State.releaseInPlace (s : State) (xs : List Nat) : State :=
  let s := (s.agentsOn xs Sel.all).foldl (fun s k =>
    let c := (s.ag (k / 6) (k % 6)).ctx
    let (s, p) := s.release3 (k / 6) (k % 6)
    s.joinStop c p) s
  xs.foldl (fun s x => s.releaseEngines x Sel.all) s

/-- Whether the ordinary stop of a context is complete (14 R390). -/
def State.stopDue (s : State) (c : Nat) : Bool :=
  let x := s.ctx c
  let xs := s.subtree c
  x.req && x.stopping && (s.agentsOn xs Sel.all).all (fun k => 4 ≤ k % 6) && (s.cmdsOn xs Sel.all).isEmpty && xs.all (fun y => (s.ctx y).stt == 3 || (s.ctx y).aside.isEmpty)

/-- A context's stop is over: STATE 011. -/
def State.stopped (s : State) (c : Nat) : State :=
  (s.updCtx c (fun x => { x with stt := if x.stt = 4 then 4 else 3, stopping := false })).stopBookings (s.subtree c)

/-- Streams of a selection told to stop: agents at a unit boundary, commands at their next command boundary (14 R391). -/
def State.haltSel (s : State) (xs : List Nat) (sel : Sel) : State :=
  let s := (s.agentsOn xs sel).foldl (fun s k => s.updAg (k / 6) (k % 6) Agent.halt) s
  s.mapCmds xs sel Cmd.halt

/-- An access of a stopped agent that is still to land or perform (08 R238). -/
def State.landing (s : State) (xs : List Nat) (sel : Sel) : Option Nat :=
  (s.agentsOn xs sel).find? (fun k => !(s.ag (k / 6) (k % 6)).pend.isEmpty)

/-- CONTEXT_STOP_COMPLETE (14 R390, 06 R174): the sidecars stop at a unit boundary, what they issued is performed, each agent releases, and
their registers are kept; a watchdog's request ends without a record. -/
def execContextStopComplete (ctx : Nat) (s : State) : Out :=
  if !s.stopDue ctx then .next s
  else
    let xs := s.subtree ctx
    let s := s.haltSel xs Sel.all
    match s.landing xs Sel.all with
    | some k => .next (s.moveOn (k / 6) (k % 6) 0)
    | none =>
      let s := s.releaseInPlace xs
      let s := xs.foldl (fun s x => s.updCtx x (fun y => { y with saved := some (y.saved.getD ⟨[], [], 0, [], false, [], []⟩) })) s
      .next ((s.stopped ctx).updCtx ctx (fun x => { x with wdSt := if x.wdSt = 1 then 0 else x.wdSt, wdCnt := if x.wdSt = 1 then 0 else x.wdCnt }))

/-- The sides whose deadline has passed (15 R410, R412). -/
def State.lateSides (s : State) (c : Nat) : Sel := fun k d => match SMap.find? (s.ctx c).sideReq (2 * k + d) with | some t => t ≤ s.cycle | none => false

/-- Whether a revocation of sides of a context is under way at some side (15 R412). -/
def State.sidesGoing (s : State) (c : Nat) : Sel := fun k d =>
  s.jobs.any (fun j => j.ctx == c && j.phase != 0 && (match j.kind with
    | .revoke 1 sv sw => bits sw 0 0 == k / 64 && bit sv (k % 64)
    | .revoke 2 sv sw => bits sw 0 0 == k / 64 && bits sw 1 1 == d && bit sv (k % 64)
    | _ => false))

/-- Whether a forced save of a context is due, and of what: 1 the subtree, 2 the sides whose deadline has passed. -/
def State.saveDue (s : State) (c : Nat) : Nat :=
  let x := s.ctx c
  if x.req && x.stopping && x.left == 0 then 1
  else if !(x.req && x.stopping) && ((s.agentsOn (s.subtree c) (s.lateSides c)).any (fun k => (s.ag (k / 6) (k % 6)).run != .stopped || !s.frozen c (k / 6)) ||
      !(s.cmdsOn (s.subtree c) (s.lateSides c)).isEmpty) then 2
  else 0

/-- The end of a forced save (14 R391, 06 R174): the record for the parent, with the watchdog's in its place. -/
def State.saveRecord (s : State) (c room : Nat) (first : Nat) : State :=
  let x := s.ctx c
  if x.wdSt = 1 ∨ x.wdSt = 2 then
    (s.updCtx c (fun x => { x with wdSt := 3 })).ctxRecord c .watchdog 0 (BitVec.ofNat 64 x.wdCnt) (BitVec.ofNat 64 (bits (s.cw c 5) 31 0))
  else s.ctxRecord c .forced (BitVec.ofNat 64 room) (BitVec.ofNat 64 first) 0

/-- The forced save of a subtree (14 R391): complete, or stopped in place where the spill region has no room. -/
def State.forceAll (s : State) (c : Nat) : State :=
  let xs := s.subtree c
  match s.saveAll xs Sel.all false with
  | some t =>
    let t := xs.foldl (fun t x => t.updCtx x (fun y => { y with saved := some ⟨[], [], y.aside.first, [], true, [], []⟩ })) t
    (t.stopped c).saveRecord c 0 (t.ctx c).aside.first
  | none => ((s.releaseInPlace xs).stopped c).saveRecord c 1 0

/-- The forced save of sides (15 R410, R412): the rows go into the image where the sides are being revoked. -/
def State.forceSides (s : State) (c : Nat) (sel : Sel) : State :=
  let xs := s.subtree c
  let rows := (List.range 128).any (fun k => [0, 1].any (fun d => sel k d && s.sidesGoing c k d))
  match s.saveAll xs sel rows with
  | some t => t.saveRecord c 0 (t.ctx c).aside.first
  | none =>
    -- no room: the sides stop in place, and no later deadline repeats the save
    (s.updCtx c (fun y => { y with sideReq := y.sideReq.map (fun e => if sel (e.1 / 2) (e.1 % 2) then (e.1, 2 ^ 64) else e) })).saveRecord c 1 0

/-- FORCED_SAVE (14 R391, 08 R238, 15 R410, R412): streams stop, what they issued lands, commands reach a command boundary, and then the
image is made. What issues in the cycle in which LEFT reaches 0 comes first: its fault is taken, a YIELD.OP has parked (14 R398). -/
def execForcedSave (ctx : Nat) (s : State) : Out :=
  let due := s.saveDue ctx
  let sel : Sel := if due = 1 then Sel.all else s.lateSides ctx
  let xs := s.subtree ctx
  if due = 0 ∨ (s.agentsOn xs sel).any (fun k => s.readyNow (k / 6) (s.ag (k / 6) (k % 6))) then .next s
  else
    let s := (s.updCtx ctx (fun x => { x with wdSt := if due = 1 ∧ x.wdSt = 1 then 2 else x.wdSt })).haltSel xs sel
    match s.landing xs sel with
    | some k =>
      .next (s.moveOn (k / 6) (k % 6) 0)
    | none =>
      if (s.cmdsOn xs sel).any (fun e => !s.atRest e.2.2) then .next s
      else .next (if due = 1 then s.forceAll ctx else s.forceSides ctx sel)

/-- WATCHDOG_EXPIRE (06 R174, R175): once a whole slot has passed with CNT at WIN, so that an HBEAT in the slot in which it reached WIN counts
first. -/
def execWatchdogExpire (ctx : Nat) (s : State) : Out :=
  let x := s.ctx ctx
  let win := bits (s.cw ctx 5) 31 0
  if x.stt = 2 ∧ win ≠ 0 ∧ x.wdSt = 0 ∧ x.wdFull ∧ win ≤ x.wdCnt then .next ((s.updCtx ctx (fun x => { x with wdSt := 1 })).raiseStop ctx true)
  else .next s

/-- Whether a context's watchdog counts this slot (06 R173): an agent runs or a continuation is ready, within its windows. -/
def State.wdCounts (s : State) (c : Nat) : Bool :=
  let x := s.ctx c
  let cs := s.coresOf c
  x.stt == 2 && bits (s.cw c 5) 31 0 != 0 && (cs.isEmpty || cs.any (s.coreOpen c)) &&
    (s.agents.any (fun e => e.2.ctx == c && e.2.run == .running && e.2.item.isSome) || s.cores.any (fun e => e.2.deque.any (fun k => k.ctx == c)))

/-- Every watchdog counts a slot (06 R173). -/
def State.tickWatchdogs (s : State) : State :=
  s.ctxs.foldl (fun s e =>
    let counts := s.wdCounts e.1
    s.updCtx e.1 (fun x => { x with wdFull := bits (s.cw e.1 5) 31 0 ≤ x.wdCnt, wdCnt := if counts then min 0xFFFFFFFF (x.wdCnt + 1) else x.wdCnt })) s

/-- The sides of a die that a tenant holds on time-shared cores. -/
def State.sharedSides (s : State) (t die : Nat) : List (Nat × Nat) :=
  ((span (64 * die) 64).filter s.coreShared).flatMap (fun k => ([0, 1].filter (s.holdsSide t k)).map (fun d => (k, d)))

/-- A core with the registers and queues of another, its commands, continuations and stores its own. -/
def Core.swapIn (k v : Core) : Core :=
  { k with toks := v.toks, tokClk := v.tokClk, tokovf := v.tokovf, vcstat := v.vcstat, fmtq := v.fmtq, dq := v.dq }

/-- A tenant's registers, queues and rows of a core set aside, with its subtree's commands there (15 R410, 04 R97); a command with parts on
the fabric stays in its queue, told to stop, and completes when the tenant is back (04 R103). -/
def State.leaveCore (s : State) (o core : Nat) : State :=
  let here : Sel := fun k _ => k == core
  let away (c : Cmd) : Bool := s.flights.any (fun f => f.cmd == c.id)
  let s := (s.subtree o).foldl (fun s x =>
    let mine := (s.cmdsOn [x] here).filter (fun e => !away e.2.2)
    let s := s.mapCmds [x] here (fun c => if away c then c.halt else c)
    let s := s.updCore core (fun k => k.without (mine.map (fun e => e.2.2.id)))
    if mine.isEmpty then s
    else s.updAside x (fun v => { v with cores := SMap.put v.cores core (mergeCore (v.core core) { Core.blank with eq := queued mine, imem := (v.core core).imem }) })) s
  let now := s.core core
  let acc := SMap.slice s.mem.acc (accKey core 0 0) (accKey (core + 1) 0 0)
  let psn := SMap.slice s.mem.accPsn (core * 4096) ((core + 1) * 4096)
  s.updAside o (fun v => { v with
    cores := SMap.put v.cores core ((v.core core).swapIn now),
    acc := SMap.splice v.acc (accKey core 0 0) (accKey (core + 1) 0 0) acc,
    accPsn := SMap.splice v.accPsn (core * 4096) ((core + 1) * 4096) psn })

/-- A tenant's registers, queues and rows of a core put back in it. -/
def State.enterCore (s : State) (t core : Nat) : State :=
  let v := (s.ctx t).aside
  let acc := SMap.splice s.mem.acc (accKey core 0 0) (accKey (core + 1) 0 0) (SMap.slice v.acc (accKey core 0 0) (accKey (core + 1) 0 0))
  let psn := SMap.splice s.mem.accPsn (core * 4096) ((core + 1) * 4096) (SMap.slice v.accPsn (core * 4096) ((core + 1) * 4096))
  let s := s.updCore core (fun k => { k.swapIn (v.core core) with owner := t })
  let s := { s with mem := { s.mem with acc := acc, accPsn := psn } }
  s.updAside t (fun v => { v with
    cores := SMap.upd v.cores core (fun k => k.swapIn Core.blank),
    acc := SMap.splice v.acc (accKey core 0 0) (accKey (core + 1) 0 0) [],
    accPsn := SMap.splice v.accPsn (core * 4096) ((core + 1) * 4096) [] })

/-- A time-shared core passes to a tenant (15 R410). -/
def State.switchCore (s : State) (t core : Nat) : State :=
  let o := (s.core core).owner
  if o = t then s else (if (SMap.find? s.ctxs o).isSome then s.leaveCore o core else s).enterCore t core

/-- Whether a tenant holds a side of a core. -/
def State.holdsCore (s : State) (t core : Nat) : Bool := s.holdsSide t core 0 || s.holdsSide t core 1

/-- The tenant whose state stands in a core, once its holders have changed: the one before while it holds the core, else one that does. -/
def State.ownCore (s : State) (core : Nat) : State :=
  let o := (s.core core).owner
  if o ≠ 0 ∧ s.holdsCore o core then s
  else match (s.tenants.filter (fun t => s.holdsCore t core)).mergeSort (fun a b => s.coreOpen a core || !s.coreOpen b core) with
    | t :: _ => s.enterCore t core
    | [] => s.updCore core (fun k => { k with owner := 0 })

/-- A tenant's window opens on a die (15 R410): its requests on shared sides end, the shared cores pass to it, its work goes on. -/
def State.openWindow (s : State) (t die : Nat) : State :=
  let sides := s.sharedSides t die
  let s := (sides.map (·.1)).eraseDups.foldl (fun s k => s.switchCore t k) s
  let s := s.updCtx t (fun x => { x with sideReq := x.sideReq.filter (fun e => !sides.contains (e.1 / 2, e.1 % 2) || s.sidesGoing t (e.1 / 2) (e.1 % 2)) })
  (s.subtree t).foldl (fun s x => (s.unstop x).bring x) s

/-- Sides asked to be left by a cycle, or by the earlier one by which they are asked already (15 R412, R413). -/
def askSides (sides : List (Nat × Nat)) (t : Nat) (m : SMap Nat) : SMap Nat :=
  sides.foldl (fun m e => SMap.put m (2 * e.1 + e.2) (match SMap.find? m (2 * e.1 + e.2) with | some u => min u t | none => t)) m

/-- A tenant's preemption request on its shared sides of a die (15 R410), with the deadline no later than the window's end. -/
def State.askWindow (s : State) (t die left : Nat) : State :=
  let d := s.cycle + min (s.limitOf t) (256 * left)
  s.updCtx t (fun x => { x with sideReq := askSides (s.sharedSides t die) d x.sideReq })

/-- What the boundary that begins the current slot does to a tenant's windows on a die (15 R410). -/
def State.sliceStep (s : State) (t die : Nat) : State :=
  let w := SMap.get 0 (s.ctx t).slices die
  if w = 0 ∨ (s.sharedSides t die).isEmpty then s
  else
    let p := 2 ^ bits w 3 0
    let len := bits w 24 14
    let pos := (s.slotNo + (p - bits w 13 4 % p)) % p
    let lead := (s.limitOf t + 255) / 256
    let s := if pos = 0 then s.openWindow t die else s
    if len < p ∧ pos = (if len ≤ lead then 0 else len - lead) then s.askWindow t die (len - pos) else s

/-- Time-slice windows at a slot boundary, with what could not be brought back before. -/
def State.sliceAll (s : State) : State :=
  let s := s.tenants.foldl (fun s t => [0, 1].foldl (fun s d => s.sliceStep t d) s) s
  s.ctxs.foldl (fun s e => if e.2.aside.isEmpty then s else s.bring e.1) s

end Sys2Proof.Machine
end

