-- ==== Sys2Proof/Machine/Cal.lean ====
section
/-! DEFINITION. The calendar instructions (13 R360-R362), the slot boundary (07 R177), offers and requests that lapse (07 R203, 17 R443). -/

namespace Sys2Proof.Machine

/-- CAL.BOOK past its reading of the chain (13 R360): `chain` is the refusal, or the chain with its ranges. With no record free sd stays locked
until one is, and its agent goes on. While a stop is asked of its context the booking unit admits none of its tasks (14 R390), so the condition
fails: DEDUCED (log 97). -/
def State.bookChain (s : State) (u : U) (die : Nat) (r : ChainRes) : Out :=
  let c := s.myCtx
  let dest := if u.a = 0 then none else some (s.cu.core, s.cu.st, u.a.toNat)
  let lock (s : State) : Out := .next ((s.updMe (fun a => if u.a = 0 then a else { a with locks := .s u.a.toNat :: a.locks })).fin u)
  if s.stopAsked c then scalarDone u s 0 1
  else match r with
    | .bad r hdr =>
      if (s.freeRec die).isNone then
        let (s, k) := s.newTask
        let t := { Task.blank c die none none [] with want := some ⟨die, 0, [], some (r, hdr), dest⟩ }
        lock { s with book := { s.book with tasks := SMap.put s.book.tasks k t } }
      else
        let (s, h) := s.refuseChain die c r hdr
        scalarDone u s (h.setWidth 64) 1
    | .ok hdr st rs =>
      if !s.quotaFree c || !s.roomFor die c rs then scalarDone u s 0 1
      else
        let (s, k) := s.newTask
        let s := s.putTask k { Task.blank c die none none [] with ranges := rs } true none (some (die, hdr, st)) dest
        match (SMap.find? s.book.tasks k).bind (·.booking) with
        | some h => scalarDone u s (h.setWidth 64) 1
        | none => lock s

/-- CAL.BOOK (13 R360): the task is admitted at once by the booking unit of the issuing agent's die. -/
def execCalBook (u : U) (s : State) : Out :=
  governed u s fun s =>
    let c := s.myCtx
    let clu := s.myClu
    let o := s.sB u
    let w := s.win c clu
    let n := bits (BitVec.ofNat 64 (ofBytes (s.rdBytes true (spKey clu (w.base + o.toNat)) 8))) 63 60
    let len := if 1 ≤ n ∧ n ≤ 8 then 16 + 16 * n else 16
    if o.toNat % 16 ≠ 0 ∨ !w.holds o 16 ∨ !w.holds o len then .next (s.raiseWin .read 8 o)
    else
      let r := s.readChain c clu o.toNat
      r.1.bookChain u (clu / 8) r.2

/-- CAL.CANCEL (13 R361): a retired or cancelled booking stays as it is, any other is cancelled. -/
def execCalCancel (u : U) (s : State) : Out :=
  governed u s fun s =>
    let h := bits (s.sA u) 31 0
    match s.bookAt h with
    | none => .next (s.fin u)
    | some b =>
      if !(s.chain b.ctx).contains s.myCtx then .next s.priv
      else if b.st = 4 ∨ b.st = 5 then .next (s.fin u)
      else .next ((s.cancelBooking (hKey h)).fin u)

/-- CAL.QUERY of a handle (13 R362, 07 R200). -/
def execCalQueryStatus (u : U) (s : State) : Out :=
  governed u s fun s =>
    match s.bookAt (bits (s.sC u) 31 0) with
    | none => scalarDone u s 0 4
    | some b =>
      if (s.ctx s.myCtx).depth ≠ 0 ∧ s.tenant b.ctx ≠ s.tenant s.myCtx then .next s.priv
      else scalarDone u s b.status 4

/-- CAL.QUERY of a calendar slot (13 R362, 07 R178). -/
def execCalQuerySlot (u : U) (s : State) : Out :=
  governed u s fun s =>
    let r := s.sC u
    let n := (s.sB u).toNat
    let cls := bits r 9 8
    let idx := bits r 7 0
    if bits r 63 10 ≠ 0 then .next s.illegal
    else if (s.ctx s.myCtx).depth ≠ 0 ∧ !s.holdsEng (s.tenant s.myCtx) cls idx then .next s.priv
    else if classSize cls ≤ idx ∨ (cls = 2 ∧ !groupPresent s.dev idx 0) ∨ n < s.slotNo ∨ s.slotNo + 1023 < n then scalarDone u s (BitVec.allOnes 64) 4
    else scalarDone u s (s.slotWord cls idx n) 4

/-- D and QD of 21 R469 over the forecasts of both dies. -/
def Dev.demand (d : Dev) : Nat × Nat :=
  (List.range 16).foldl (fun (m : Nat × Nat) k =>
    let w := SMap.get 0 d.afw k
    (max m.1 (max (max (bits w 63 56) (bits w 55 48)) (max (bits w 47 40) (bits w 39 32))), max m.2 (bits w 31 16))) (0, 0)

/-- The operating point that the forecasts and the fabric ports call for (21 R468, R469). -/
def Dev.target (d : Dev) : Nat :=
  let (x, q) := d.demand
  if d.trained ≠ 0 ∨ 192 ≤ x ∨ 0 < q then 0 else if 128 ≤ x then 1 else if 64 ≤ x then 2 else 3

/-- The operating point at a boundary (21 R469): the target of the forecasts that stand when it falls is applied, a rise at once, a fall
one point at a time and once in 64 slots. -/
def State.setPoint (s : State) : State :=
  let t := s.dev.target
  if t < s.dev.op then { s with dev := { s.dev with op := t } }
  else if s.dev.op < t ∧ (s.dev.opAt = 0 ∨ s.dev.opAt + 64 ≤ s.slotNo) then { s with dev := { s.dev with op := s.dev.op + 1, opAt := s.slotNo } }
  else s

/-- SLOTSYNC sent on every trained port each 1,024 slots (17 R441). -/
def State.syncPorts (s : State) : State :=
  if s.slotNo % 1024 ≠ 0 then s
  else (List.range 16).foldl (fun s k =>
    match s.portPeer k with
    | none => s
    | some p => s.sendFlit k ⟨0x20, s.dev.chip, p, 0, 0, false, 0, [], BitVec.ofNat 64 (s.slotCyc * 2 ^ 48 + s.slotNo), 0, 0⟩) s

/-- Windows whose .cal revocation takes effect at this boundary (15 R409, R411): the job is then ready to complete. -/
def State.calRevokes (s : State) : State :=
  s.jobs.foldl (fun s j =>
    match j.kind with
    | .revoke 8 _ sw =>
      let die := bits sw 0 0
      let w := SMap.get 0 (s.ctx j.ctx).slices die
      if j.phase = 1 ∧ (w = 0 ∨ s.slotNo % 2 ^ bits w 3 0 = 0) then
        let s := s.updCtx j.ctx (fun x => { x with slices := SMap.del x.slices die })
        { s with jobs := s.jobs.map (fun y => if y.id = j.id then { y with phase := 2 } else y) }
      else s
    | _ => s) s

/-- SLOT_BOUNDARY (07 R177, 95): the slot number advances and everything that a boundary brings follows. -/
def execSlotBoundary (s : State) : Out :=
  if s.cycle < s.slotAt + 256 then .next s
  else
    let s := { s with slotNo := (s.slotNo + 1) % 2 ^ 48, slotAt := s.slotAt + 256 }
    let s := s.setPoint.calRevokes.boundaryBookings.sliceAll.readTails.tickWatchdogs
    .next s.rewriteAfw.syncPorts

/-- OFFER_LAPSE (07 R203): an offer that has reached its end without a COMMIT is freed. -/
def execOfferLapse (id : Nat) (s : State) : Out :=
  match s.book.offers[id]? with
  | some o =>
    if !o.committed && o.till ≤ s.slotNo then .next { s with book := { s.book with offers := s.book.offers.eraseIdx id } } else .next s
  | none => .next s

/-- The step that a two-phase message answers (17 R440): record and step by tag. -/
def State.legOf (s : State) (tag : Nat) : Option (Nat × Nat × BStep) :=
  s.book.recs.findSome? (fun (e : Nat × Booking) =>
    (e.2.steps.zipIdx.find? (fun x => x.1.tent && x.1.tag == tag && x.1.leg != .none)).map (fun x => (e.1, x.2, x.1)))

/-- A refused step (07 R198, R203): the placement given up, the search tried again from the alternative, at most eight times. -/
def State.refuseStep (s : State) (k i : Nat) (alt : Option Nat) : State :=
  let s := s.unhold k
  let s := s.updRec k (fun b => { b with refusals := b.refusals + 1 })
  match s.recOf k, alt with
  | some b, some a =>
    if 8 ≤ b.refusals then s.noFit k 1
    else
      let alts := (List.range b.steps.length).map (fun j => if j = i then a else b.alts.getD j 0)
      let s := s.updRec k (fun b => { b with alts := alts })
      match s.recOf k with
      | some b => if s.maySearch b then s.search k else s
      | none => s
  | _, _ => s.noFit k 1

/-- PREPARE_TIMEOUT (17 R443): a PREPARE without a reply for 64 slots is a REFUSE with no alternative. -/
def execPrepareTimeout (tag : Nat) (s : State) : Out :=
  match s.legOf tag with
  | some (k, i, x) => (match x.leg with
    | .asked t => if t + 64 ≤ s.slotNo then .next (s.refuseStep k i none) else .next s
    | _ => .next s)
  | none => .next s

end Sys2Proof.Machine
end

