-- ==== Sys2Proof/Machine/Return.lean ====
section
/-! DEFINITION. Handlers and the return from an exception (14 R382-R388, 13 R371, R372): a waiting record's handler starts, TRAP.ACK,
TRAP.REFLECT, TRAP.RET, SYSCALL, records held for want of an entry. -/

namespace Sys2Proof.Machine

/-- Whether a context's streams stay stopped: it or an ancestor does not run. -/
def State.ctxHeld (s : State) (x : Nat) : Bool := (s.chain x).any (fun y => (s.ctx y).stt != 2)

/-- Fields of a record's words (14 R378, R379). -/
def rCtx (w : List W64) : Nat := bits (w.getD 0 0) 15 0
def rCause (w : List W64) : Nat := bits (w.getD 0 0) 23 16
def rFatal (w : List W64) : Bool := bit (w.getD 0 0) 24
def rStream (w : List W64) : Nat := bits (w.getD 0 0) 31 28
def rNest (w : List W64) : Nat := bits (w.getD 0 0) 37 36
def rFrz (w : List W64) : Bool := bit (w.getD 0 0) 38
def rNrep (w : List W64) : Nat := bits (w.getD 0 0) 43 40
def rCore (w : List W64) : Nat := bits (w.getD 7 0) 63 57
def rLink (w : List W64) : Nat := bits (w.getD 6 0) 10 0
/-- The F-entry and the replay entries of a record, eight words each (14 R377). -/
def rFent (w : List W64) : List W64 := (w.drop 8).take 8
def rRep (w : List W64) (k : Nat) : List W64 := (w.drop (80 + 8 * k)).take 8

/-- How long a waiting record has waited in delivery order: its SEQ after the context's next one, modulo 2^16 (14 R384). -/
def seqAge (cur seq : Nat) : Nat := (seq + 65536 - cur % 65536) % 65536

/-- The waiting record whose handler starts next (14 R384): fatal ones before replayable ones, each in SEQ order. -/
def TrapSt.nextWrote (t : TrapSt) : Option Wrote :=
  t.wrote.foldl (fun (m : Option Wrote) w =>
    match m with
    | none => some w
    | some x =>
      if (w.fatal && !x.fatal) || (w.fatal == x.fatal && seqAge t.seq w.seq < seqAge t.seq x.seq) then some w else m) none

/-- The core on whose deque a handler is pushed (14 R384). -/
def State.handlerCore (s : State) (c die : Nat) : Option Nat :=
  let cs := s.coresOf c
  match cs.find? (fun k => dieOf k == die) with
  | some k => some k
  | none => cs.head?

/-- HANDLER_START (14 R384). -/
def execHandlerStart (ctx : Nat) (s : State) : Out :=
  let t := (s.ctx ctx).trap
  match t.nextWrote with
  | none => .next s
  | some w =>
    match s.handlerCore ctx w.die with
    | none => .next s
    | some core =>
      if t.hstate ≠ .idle ∨ s.ctxHeld ctx then .next s
      else
        let h : Held := ⟨w.addr, w.entry, false, BitVec.ofNat 64 (bits t.tvec 51 2 * 4)⟩
        let (s, rw) := s.heldWords ctx w.addr
        let s := s.updTrap ctx (fun t =>
          { t with hstate := .unacked, tcausea := rw.getD 0 0, taddra := rw.getD 1 0, wrote := t.wrote.erase w })
        let k : Cont := ⟨ctx, 0, 0, 0, false, true, none, [], true, 0, 0, 0, [], some h, Clock.empty, [], core⟩
        .next (s.updCore core (fun x => { x with deque := k :: x.deque }))

/-- Whether a held record waits with its stream, whose context has stopped or whose image is set aside (14 R393, R398). -/
def State.recAsleep (s : State) (r : Rec) : Bool :=
  r.stream != 15 && ((s.chain r.ctx).any (fun y => (s.ctx y).stt == 3)
    || (r.stream < 6 && (s.ctx r.ctx).aside.agents.any (fun e => e.1 % 6 == r.stream && e.1 / 6 % 128 == r.core)))

/-- PENDING_RECORD_WRITE (14 R382): the oldest record that a context's device part holds and whose stream is in place is written once an entry
is free. -/
def execPendingRecordWrite (ctx : Nat) (s : State) : Out :=
  let l := (s.ctx ctx).trap.pending
  match l.find? (fun r => !s.recAsleep r) with
  | none => .next s
  | some r =>
    let t := l.erase r
    let seq := bits (r.words.getD 0 0) 63 48
    match s.placeRecord ctx seq r.fatal (s.entryOrder ctx r.fatal) r.words with
    | (s, .done l) => .next ((s.updTrap ctx (fun x => { x with pending := t })).received ctx 0 (l.headD 0) r.fatal seq r.cause (dieOf r.core))
    | (_, .full) => .next s
    | (s, .failed) =>
      let s := s.updTrap ctx (fun x => { x with pending := t, noArea := true })
      let up := (s.chain ctx).drop 1
      .next (if up.isEmpty then s.hstatPush 3 ctx 0 else s.deliver r up)

/-- TRAP.ACK (13 R371, 14 R384). -/
def execTrapAck (u : U) (s : State) : Out :=
  match s.me.held with
  | none => .next s.priv
  | some h =>
    let s := if h.acked then s else s.updTrap s.myCtx (fun t => { t with hstate := .idle })
    .next ((s.updMe (fun a => { a with held := some { h with acked := true } })).fin u)

/-- A record read from a handler's context's space, or the fault of the unit that reads it. -/
def State.recordAt (s : State) (va : W64) : State × Except (State → State) (List W64) :=
  match s.access s.myCtx .read true va 2048 with
  | (s, .error (f, x)) => (s, .error (fun s => s.raiseX .read f x))
  | (s, .ok ps) =>
    match s.firstPsn ps with
    | some p => (s, .error (fun s => s.raise .umem 0 p.line 0))
    | none => (s.l2Pieces ps false, .ok (words64 256 (s.load ps)))

/-- The records of a held set, with their addresses: the record, with the one its LINK names when it heads a pair (14 R384, R387). -/
def State.heldSet (s : State) (h : Held) : State × Except (State → State) (List (W64 × List W64)) :=
  match s.recordAt h.addr with
  | (s, .error f) => (s, .error f)
  | (s, .ok w) =>
    if rNest w ≠ 1 then (s, .ok [(h.addr, w)])
    else match s.recordAt (h.linkVa (rLink w)) with
      | (s, .error f) => (s, .error f)
      | (s, .ok x) => (s, .ok [(h.addr, w), (h.linkVa (rLink w), x)])

/-- CAUSE := 0 of a context's records: their entries are free (14 R382, R387). -/
def State.freeEntries (s : State) (c : Nat) (l : List W64) : State := l.foldl (fun s a => (s.spillWrite c (a + 2) [0]).1) s

/-- Blocks of a context's spill region that a capture entry names (14 R380). -/
def capBlocks (w : List W64) : List Nat :=
  let f := bits (w.getD 1 0) 63 32
  ((List.range 4).filterMap (fun k => if f / 2 ^ (29 - 2 * k) % 4 = 2 then some (bits (w.getD (3 + k) 0) 15 0) else none))
    ++ (if f / 2 ^ 21 % 4 = 2 then [bits (w.getD 7 0) 15 0] else [])

/-- The capture blocks of a record returned to the pool of its context (14 R387). -/
def State.freeCaptures (s : State) (w : List W64) : State :=
  (capBlocks (rFent w) ++ (List.range (rNrep w)).flatMap (fun k => capBlocks (rRep w k))).foldl (fun s b => s.dropBlock (rCtx w) b) s

/-- A capture entry as a unit to execute (14 R380, R387), its blocks read from its context's spill region. -/
def State.capUnit (s : State) (x : Nat) (w : List W64) : State × Cap :=
  let f := bits (w.getD 1 0) 63 32
  let iw := IW.unpack (BitVec.ofNat 96 ((w.getD 0 0).toNat + bits (w.getD 1 0) 31 0 * 2 ^ 64))
  let one (y : State × List CapOp) (k : Nat) : State × List CapOp :=
    match f / 2 ^ (29 - 2 * k) % 4 with
    | 1 => (y.1, y.2 ++ [.scalar (w.getD (3 + k) 0)])
    | 2 => (match y.1.spillRead x (y.1.blockVa x (bits (w.getD (3 + k) 0) 15 0)) 4096 with
      | (s, .ok bs) => (s, y.2 ++ [.vector (VReg.ofBlock bs)])
      | (s, .error _) => (s, y.2 ++ [.unread]))
    | _ => (y.1, y.2 ++ [.unread])
  let (s, ops) := (List.range 4).foldl one (s, [])
  let (s, pred) : State × Option Lanes := match f / 2 ^ 21 % 4 with
    | 1 => (s, some (uniform (f / 2 ^ 20 % 2 = 1)))
    | 2 =>
      let b := bits (w.getD 7 0) 15 0
      if s.spBlocks x ≤ b then (s, none)
      else (match s.spillRead x (s.blockVa x b) 128 with
        | (s, .ok bs) => (s, some (BitVec.ofNat 1024 (ofBytes bs)))
        | (s, .error _) => (s, none))
    | _ => (s, some (BitVec.allOnes 1024))
  (s, ⟨iw, f / 2 ^ 31 % 2 = 1, setBits (w.getD 2 0) 63 52 0, ops, pred⟩)

/-- The units that a TRAP.RET executes again (14 R387): the F-entry and the replay entries of the mask, where their V is 1. -/
def State.replayOf (s : State) (w : List W64) (mask : Nat) : State × List Cap :=
  let es := rFent w :: ((List.range (rNrep w)).filter (fun k => mask.testBit k)).map (rRep w)
  es.foldl (fun (y : State × List Cap) e => let (s, c) := y.1.capUnit (rCtx w) e; (s, if c.v then y.2 ++ [c] else y.2)) (s, [])

/-- Whether an agent is stopped on the fault that a record of a stream reports. -/
def Agent.faultedBy (a : Agent) (x seat cause : Nat) : Bool :=
  a.ctx == x && a.item.isSome && a.seat == seat && (match a.run with | .faulted c => c == cause | _ => false)

/-- An agent at the position of a stream entry (14 R379, R387): POS, with the pending transfer if PT says so; in a nest, at the body's unit of
that address. -/
def Agent.placedAt (a : Agent) (e : List W64) : Agent :=
  let pos := setBits (e.getD 0 0) 63 52 0
  let w1 := e.getD 1 0
  let src := match a.xfer with | some x => x.src | none => a.pc
  { a with
    pc := pos, xfer := if bit w1 61 then some ⟨setBits (e.getD 2 0) 63 52 0, bit w1 60, bits w1 59 58, src⟩ else none,
    loop := a.loop.map (fun l => if setBits a.pc 63 52 0 = pos then l else match l.body.findIdx? (fun u => u.pc == pos) with | some i => { l with idx := i } | none => l) }

/-- The entry of stream k in a record's stream table (14 R377, R379). -/
def rEntry (w : List W64) (k : Nat) : List W64 := (w.drop (16 + 4 * k)).take 4

/-- A stream entry of an engine gives the progress at which its command starts again (14 R379, R387, 04 R115). -/
def Cmd.placedAt (c : Cmd) (e : List W64) : Cmd :=
  let p := bits (e.getD 0 0) 47 0
  if p = c.prog % 2 ^ 48 then c else { c with prog := p, done := [], lines := [], ended := c.total ≤ p }

/-- The stream of a record goes on at the position its record gives (14 R387), wherever it stands or has been set aside; `caps` come first. -/
def State.resumeAgent (s : State) (x core st cause : Nat) (e : List W64) (caps : List Cap) : State :=
  let held := s.ctxHeld x || s.frozen x core
  let go (a : Agent) : Agent := { a.placedAt e with run := if held then .stopped else .running, replay := caps, ready := s.cycle }
  let pick (m : SMap Agent) : Option Nat := (List.find? (fun (e : Nat × Agent) => e.2.faultedBy x (agKey core st) cause) m).map (·.1)
  match pick s.agents with
  | some k => s.updAg (k / 6) (k % 6) go
  | none =>
    match pick (s.ctx x).aside.agents with
    | some k => s.updCtx x (fun y => { y with aside := { y.aside with agents := SMap.upd y.aside.agents k (fun a => { go a with run := .stopped }) } })
    | none => s

/-- The head command that a record stopped: restarted at the progress that its record gives, or abandoned (14 R387, 04 R115). -/
def State.resumeEngine (s : State) (x core st cause : Nat) (e : List W64) (fatal : Bool) : State :=
  let held := s.ctxHeld x || s.frozen x core
  let mine (c : Cmd) : Bool := c.ctx == x && c.fault == some cause
  let fix (l : List Cmd) : List Cmd :=
    match l.find? mine with
    | none => l
    | some c =>
      if fatal then l.filter (fun y => y.id != c.id)
      else l.map (fun y => if y.id = c.id then { y.placedAt e with fault := none, refused := [], susp := if held then 3 else 0 } else y)
  let qs : List Nat := if st = 8 then [8, 16] else [st]
  let live := qs.find? (fun q => (s.eq core q).any mine)
  match live with
  | some q => s.setEq core q (fix (s.eq core q))
  | none =>
    let put (k : Core) : Core := { k with eq := (k.eq.map (fun e => if qs.contains e.1 then (e.1, fix e.2) else e)).filter (fun e => !e.2.isEmpty) }
    s.updCtx x (fun y => { y with aside := { y.aside with cores := SMap.upd y.aside.cores core put } })

/-- Streams of a context that a freeze stopped on a core go on at the positions that the first record gives (14 R386, R387). -/
def State.thaw (s : State) (x core : Nat) (w : List W64) : State :=
  if s.ctxHeld x then s
  else
    let s := (List.range 6).foldl (fun s k => s.updAg core k (fun a =>
      if a.ctx = x ∧ a.item.isSome ∧ a.run = .stopped then
        { (if k = rStream w then a else a.placedAt (rEntry w k)) with run := .running, ready := s.cycle } else a)) s
    s.updCore core (fun k => { k with eq := k.eq.map (fun q => (q.1, q.2.map (fun c => if c.ctx = x then c.release else c))) })

/-- A record acted on as TRAP.RET with STOP = 0 does (14 R387): what failed is abandoned or executed again, the stream goes on; the return from
the record that froze its core lets every stream of the core go on (14 R386). -/
def State.returnTo (s : State) (w : List W64) (mask : Nat) : State :=
  let x := rCtx w
  let st := rStream w
  let core := rCore w
  let first := rFrz w && SMap.find? (s.ctx x).froze core == some st
  let s := if first then s.updCtx x (fun y => { y with froze := SMap.del y.froze core }) else s
  let s :=
    if st < 6 then
      let (s, caps) := if rFatal w then (s, []) else s.replayOf w mask
      s.resumeAgent x core st (rCause w) (rEntry w st) caps
    else s.resumeEngine x core st (rCause w) (rEntry w st) (rFatal w)
  if first then s.thaw x core w else s

/-- The handler's end (13 R371, 14 R384): its hold is over and its thread ends as by TASK.EXIT. -/
def State.endHandler (s : State) (h : Held) : State :=
  let s := if h.acked then s else s.updTrap s.myCtx (fun t => { t with hstate := .idle })
  s.exitThread s.cu.core s.cu.st

/-- TRAP.RET (13 R371, 14 R384, R387). -/
def execTrapRet (u : U) (s : State) : Out :=
  let v := s.sA u
  if bits v 63 9 ≠ 0 then .next s.illegal
  else match s.me.held with
  | none => .next s.priv
  | some h =>
    let c := s.myCtx
    if !s.allDone then .next s.hold
    else match s.heldSet h with
      | (s, .error f) => .next (f s)
      | (s, .ok set) =>
        -- a pair acts on the handler's own fault; the record that the handler holds keeps its capture blocks
        let w := (set.getLastD (0, [])).2
        let x := rCtx w
        let mine := (s.chain x).contains c && (SMap.find? s.ctxs x).isSome
        let s :=
          if !mine then s
          else if bit v 8 then
            let s := s.stopCtx x
            if x = c then
              let copy := setBits (w.getD 0 0) 24 24 1 :: w.drop 1
              let up := (s.chain c).drop 1
              if up.isEmpty then s.hstatPush 3 c 0
              else s.deliver ⟨rCause w, true, x, rCore w, rStream w, 0, copy⟩ up
            else s
          else
            let s := if set.length = 2 then s.updTrap x (fun t => { t with hstate := if t.hstate = .double then .unacked else t.hstate }) else s
            if rStream w = 15 then s else s.returnTo w (bits v 7 0)
        let s := if mine then s.freeCaptures w else s
        .next ((s.freeEntries c (set.map Prod.fst)).endHandler h)

/-- TRAP.REFLECT (13 R371): the held record goes to the parent, the faulting stream stays stopped for it. -/
def execTrapReflect (_ : U) (s : State) : Out :=
  match s.me.held with
  | none => .next s.priv
  | some h =>
    let c := s.myCtx
    if !s.allDone then .next s.hold
    else match s.heldSet h with
      | (s, .error f) => .next (f s)
      | (s, .ok set) =>
        let s := s.freeEntries c (set.map Prod.fst)
        let up := (s.chain c).drop 1
        let s := match set, up with
          | _, [] => s.hstatPush 3 c 0
          | [(_, w)], _ => s.deliver ⟨rCause w, rFatal w, rCtx w, rCore w, rStream w, 0, w⟩ up
          | _, _ => let w := (set.getLastD (0, [])).2; (s.deliverSet (dieOf (rCore w)) (rCause w) (set.map Prod.snd) up).1
        .next (s.endHandler h)

/-- SYSCALL (13 R372): it completes, then a breakpoint record with reason 1 goes to the parent. -/
def execSyscall (u : U) (s : State) : Out :=
  if (s.ctx s.myCtx).depth = 0 then .next s.priv
  else
    let v := s.sA u
    let s' := s.fin u
    .next (s'.trap ⟨.brk, 1, v, 0, s.cu.pc, none, false, some s'.me.pc⟩)

end Sys2Proof.Machine
end

