-- ==== Sys2Proof/Machine/Migrate.lean ====
section
/-! DEFINITION. Dirty logging and migration of a direct child (15 R414-R420, R473-R475, 20 R460, R461): DIRTYLOG, the image written and
read. -/

namespace Sys2Proof.Machine

/-- The contexts of a subtree in image order: by depth, then by CTXID. -/
def State.imageCtxs (s : State) (x : Nat) : List Nat :=
  (((s.subtree x).map (fun y => ((s.ctx y).depth, y))).mergeSort (fun a b => a.1 < b.1 || (a.1 == b.1 && a.2 ≤ b.2))).map Prod.snd

/-- Position of a unit in a list of units. -/
def idxOf (l : List Nat) (k : Nat) : Nat := (l.findIdx? (· == k)).getD 0

/-- A mask over a list of units, bit i for the i-th (15 R419). -/
def relMask (units : List Nat) (has : Nat → Bool) : Nat := (units.zipIdx.map (fun e => if has e.1 then 2 ^ e.2 else 0)).foldl (· + ·) 0

/-- A context's held units in unit-number order: clusters with held cores, groups, ports. -/
def State.cluList (s : State) (x : Nat) : List Nat := ((s.coresOf x).map cluOf).eraseDups
def State.cgList (s : State) (x : Nat) : List Nat := (List.range 72).filter (s.holdsGroup x)
def State.fxList (s : State) (x : Nat) : List Nat := (List.range 16).filter (s.holdsPort x)

/-- Handler states as section 1 codes them (15 R419). -/
def HState.code : HState → Nat | .idle => 0 | .unacked => 1 | .double => 2

/-- Section 1 (15 R419): one context's descriptor, its parent as an index, its holdings relative to the child's, no physical address. -/
def State.imgDescriptor (s : State) (x : Nat) (order : List Nat) (y : Nat) : List Byte :=
  let cs := s.coresOf x
  let d := s.ctx y
  let side (k : Nat) (l : List Nat) : W64 := BitVec.ofNat 64 (relMask l (fun c => s.holdsSide y c k))
  let gs := s.cgList x
  let w13 := relMask (gs.drop 64) (s.holdsGroup y) * 2 ^ 48 + relMask (s.fxList x) (s.holdsPort y) * 2 ^ 32 + bits (s.cw y 13) 31 27 * 2 ^ 27
  bytes64 [BitVec.ofNat 64 (d.stt * 2 ^ 61 + d.depth * 2 ^ 16 + (if y = x then 0 else idxOf order d.parent)), s.cw y 1, 0, s.cw y 3, s.cw y 4, s.cw y 5, s.cw y 6,
    BitVec.ofNat 64 d.trap.hstate.code, side 0 (cs.take 64), side 1 (cs.take 64), side 0 (cs.drop 64), side 1 (cs.drop 64),
    BitVec.ofNat 64 (relMask (gs.take 64) (s.holdsGroup y)), BitVec.ofNat 64 w13, s.cw y 14, s.cw y 15]

/-- Section 2 (15 R419): the child's shape, one entry for each core. -/
def State.imgShape (s : State) (x : Nat) : List (List Byte) :=
  (s.coresOf x).map (fun k => toBytes 8 (idxOf (s.cluList x) (cluOf k) * 16 + b2n (s.holdsSide x k 1) * 2 + b2n (s.holdsSide x k 0)))

/-- Section 3 (15 R419): a context's queue descriptors. -/
def State.imgQueues (s : State) (y : Nat) : List Byte :=
  if bit (s.cw y 3) 0 then ((s.devRead y (s.queueVa y 0) 256).2).getD (List.replicate 256 0) else List.replicate 256 0

/-- Section 4 (15 R419): a continuation's record with its device words and HOME as a relative core; one not started has PC, WORKID and
word 2 only. -/
def State.imgCont (s : State) (x : Nat) (order : List Nat) (k : Cont) : List Byte :=
  let w2 := BitVec.ofNat 64 (b2n k.pin * 2 ^ 23 + idxOf (s.coresOf x) k.home * 2 ^ 16 + idxOf order k.ctx)
  let st := if k.ready then 2 else 1
  if k.isNew then
    let h := match SMap.find? s.launches k.launch with | some l => l.words | none => []
    bytes64 ([lhEntry h, k.workid, w2] ++ List.replicate 20 (0 : W64) ++ [BitVec.ofNat 64 (4 + st)] ++ List.replicate 8 (0 : W64))
  else
    let mem := match k.place with | some p => (match (s.spillRead k.ctx (s.placeVa k.ctx p) 256).2 with | .ok bs => words64 32 bs | .error _ => []) | none => []
    let w (i : Nat) : W64 := mem.getD i 0
    let wt := k.waits.map (fun w => if bits w 63 62 = 1 then setBits w 22 16 (idxOf (s.coresOf x) (bits w 22 16)) else w)
    let hd : W64 := match k.held with | some h => BitVec.ofNat 64 (2 ^ 63 + bits h.addr 51 11 * 2048) | none => 0
    let pad : List W64 := List.replicate (3 - wt.length) 0
    let dev : List W64 := [BitVec.ofNat 64 (8 * k.waits.length + st), setBits k.vstat 63 16 0, BitVec.ofNat 64 (k.rasn * 2 ^ 16 + k.rasBlocks.reverse.headD 0), hd, 0, 0, 0, 0, 0]
    bytes64 ([w 0, w 1, w2, w 3] ++ (span 4 16).map w ++ (wt ++ pad) ++ dev)

/-- Every continuation of a subtree: in deques and waiting lists, core by core, then set aside. -/
def State.contsOf (s : State) (order : List Nat) : List Cont :=
  let of (m : SMap Core) : List Cont := m.flatMap (fun e => (e.2.deque ++ e.2.waiting).filter (fun k => order.contains k.ctx))
  of s.cores ++ order.flatMap (fun y => of (s.ctx y).aside.cores)

/-- An agent of a context at a core and stream, where it stands or as set aside. -/
def State.agentAt (s : State) (y core st : Nat) : Agent :=
  match List.find? (fun (e : Nat × Agent) => e.1 / 6 % 128 == core && e.1 % 6 == st) (s.ctx y).aside.agents with
  | some e => e.2
  | none => let a := s.ag core st; if a.ctx = y ∧ a.item.isSome then a else Agent.blank

/-- Section 5 (15 R419): agent sections of each context for its held slots of some streams. -/
def State.imgAgents (s : State) (x : Nat) (order sts : List Nat) (f : Agent → List (List Byte)) : List (List Byte) :=
  order.flatMap (fun y => (s.coresOf x).flatMap (fun k => (sts.filter (fun st => s.holdsSide y k (sideOf st))).map (fun st => (f (s.agentAt y k st)).flatten)))

/-- Copy engines of a context's clusters, in unit-number order, by cluster and engine (15 R474). -/
def State.cpeIdx (s : State) (x core q : Nat) : Nat :=
  let c := idxOf (s.cluList x) (cluOf core)
  if q = 13 then 0x80 + c else 4 * c + (q - 9)

/-- The operand values of a copy command (15 R474): OPA, OPA1, OPB, OPB1, OPC. -/
def CmdKind.operands : CmdKind → List W64
  | .acc _ row nr t => let (a, b) := (match t with | .desc a b => (a, b) | .data _ => (0, 0)); [a, b, BitVec.ofNat 64 ((nr - 1) * 2 ^ 16 + row), 0, 0]
  | .ld h off sp n => [BitVec.ofNat 64 (h.gen * 2 ^ 20 + h.index), BitVec.ofNat 64 off, BitVec.ofNat 64 sp, 0, BitVec.ofNat 64 n]
  | .st h off sp n => [BitVec.ofNat 64 (h.gen * 2 ^ 20 + h.index), BitVec.ofNat 64 off, BitVec.ofNat 64 sp, 0, BitVec.ofNat 64 n]
  | .x src dst dw n => [BitVec.ofNat 64 src, BitVec.ofNat 64 dst, dw, 0, BitVec.ofNat 64 n]
  | .g _ h off data idx n _ _ => [BitVec.ofNat 64 (h.gen * 2 ^ 20 + h.index), BitVec.ofNat 64 off, BitVec.ofNat 64 data, BitVec.ofNat 64 idx, BitVec.ofNat 64 n]
  | .d2 _ h off t nr w p =>
    let (a, b) := (match t with | .desc a b => (a, b) | .data _ => (0, 0))
    [BitVec.ofNat 64 (h.gen * 2 ^ 20 + h.index), BitVec.ofNat 64 off, a, b, BitVec.ofNat 64 ((nr - 1) * 2 ^ 48 + (w - 1) * 2 ^ 32 + p)]
  | .send list n => [BitVec.ofNat 64 list, 0, BitVec.ofNat 64 n, 0, 0]
  | _ => [0, 0, 0, 0, 0]

/-- Bookings of a subtree that section 8 lists: keys and records. -/
def State.imgBooks (s : State) (order : List Nat) : List (Nat × Booking) := s.book.recs.filter (fun e => order.contains e.2.ctx && e.2.live)

/-- A control word with the image's booking and step numbers; a command that has started names no token any more. -/
def State.imgCtl (s : State) (order : List Nat) (c : Cmd) : W64 :=
  let w := if c.started then setBits c.ctl 21 5 0 else c.ctl
  match (s.imgBooks order).zipIdx.find? (fun e => handleOf e.1.1 e.1.2.gen == ctlHandle c.ctl) with
  | some (e, i) =>
    let left := (e.2.steps.take (ctlStep c.ctl)).filter (fun x => !x.retired)
    setBits (setBits w 63 32 (i + 1)) 31 29 left.length
  | none => setBits w 63 29 0

/-- Copy commands of a subtree, queued or set aside: core, queue, position in the queue, command. -/
def State.imgCmds (s : State) (order : List Nat) : List (Nat × Nat × Nat × Cmd) :=
  let of (m : SMap Core) : List (Nat × Nat × Nat × Cmd) := m.flatMap (fun e => e.2.eq.flatMap (fun q =>
    if 9 ≤ q.1 ∧ q.1 ≤ 13 then ((q.2.filter (fun c => order.contains c.ctx && !c.ended)).zipIdx.map (fun c => (e.1, q.1, c.2, c.1))) else []))
  of s.cores ++ order.flatMap (fun y => of (s.ctx y).aside.cores)

/-- Section 7 (15 R474). -/
def State.imgCmd (s : State) (x : Nat) (order : List Nat) (e : Nat × Nat × Nat × Cmd) : List Byte :=
  let (core, q, pos, c) := e
  bytes64 ([BitVec.ofNat 64 (c.iw.major.toNat * 2 ^ 56 + idxOf (s.coresOf x) core * 2 ^ 48 + s.cpeIdx x core q * 2 ^ 40 + pos * 2 ^ 32 + bits c.iw.u.imm 15 0 * 2 ^ 16)]
    ++ c.kind.operands ++ [s.imgCtl order c, BitVec.ofNat 64 (c.prog % 2 ^ 48)])

/-- An engine's number relative to a context's held engines of its class. -/
def State.engRel (s : State) (x cls i : Nat) : Nat :=
  match cls with
  | 0 => 2 * idxOf (s.coresOf x) (i / 2) + i % 2
  | 1 => 4 * idxOf (s.cluList x) (i / 4) + i % 4
  | 2 => idxOf (s.cgList x) i
  | _ => idxOf (s.fxList x) i

/-- How many engines of a class a context holds. -/
def State.engCount (s : State) (x cls : Nat) : Nat :=
  match cls with
  | 0 => 2 * (s.coresOf x).length
  | 1 => 4 * (s.cluList x).length
  | 2 => (s.cgList x).length
  | _ => (s.fxList x).length

/-- The engine that a relative number stands for. -/
def State.engAbs (s : State) (x cls r : Nat) : Nat :=
  match cls with
  | 0 => 2 * (s.coresOf x).getD (r / 2) 0 + r % 2
  | 1 => 4 * (s.cluList x).getD (r / 4) 0 + r % 4
  | 2 => (s.cgList x).getD r 0
  | _ => (s.fxList x).getD r 0

/-- Section 8 (15 R419): a booking's chain header, its unretired steps, its status; commands already counted are taken off NCMD. -/
def State.imgBook (s : State) (x : Nat) (b : Booking) : List Byte :=
  let steps := b.steps.filter (fun y => !y.retired)
  let one (y : BStep) : List W64 :=
    let idx := if sAny y.w0 then 0 else s.engRel x (sCls y.w0) (sIndex y.w0)
    [setBits (setBits y.w0 58 51 idx) 26 15 (sNcmd y.w0 - y.count), y.w1]
  let hdr := setBits (setBits b.hdr 63 60 steps.length) 50 44 (idxOf (s.coresOf x) (bits b.hdr 50 44))
  let st := setBits b.status 47 0 (if b.start ≤ s.slotNo then 0 else b.start - s.slotNo)
  let ws := steps.flatMap one
  bytes64 ([hdr] ++ (ws ++ List.replicate (16 - ws.length) 0) ++ [st])

/-- Section 9 (15 R419): a context's counters at a core; the shadow stands above PMSEL. -/
def State.imgCounters (s : State) (y core : Nat) : List Byte :=
  let d := s.ctx y
  bytes64 ((List.range 16).map (fun k => BitVec.ofNat 64 (bits (SMap.get 0 d.pmsel (core * 16 + k)) 31 0 + bits (SMap.get 0 d.pmsh (core * 16 + k)) 30 0 * 2 ^ 32))
    ++ (List.range 16).map (fun k => SMap.get 0 d.pmc (core * 16 + k)))

/-- A fault's stream in a subtree: context, core, stream, cause. -/
def State.faultedStreams (s : State) (order : List Nat) : List (Nat × Nat × Nat × Nat) :=
  let ofAg (m : SMap Agent) : List (Nat × Nat × Nat × Nat) := m.filterMap (fun e =>
    match e.2.run with | .faulted c => if order.contains e.2.ctx ∧ e.2.item.isSome then some (e.2.ctx, e.1 / 6 % 128, e.1 % 6, c) else none | _ => none)
  let ofEq (m : SMap Core) : List (Nat × Nat × Nat × Nat) := m.flatMap (fun e => e.2.eq.flatMap (fun q =>
    q.2.filterMap (fun c => match c.fault with | some f => if order.contains c.ctx then some (c.ctx, e.1, (if q.1 = 16 then 8 else q.1), f) else none | none => none)))
  ofAg s.agents ++ ofEq s.cores ++ order.flatMap (fun y => ofAg (s.ctx y).aside.agents ++ ofEq (s.ctx y).aside.cores)

/-- The records of a context's area: held by handlers, then waiting: whether held, address, words. -/
def State.recordsOf (s : State) (y : Nat) : List (Bool × W64 × List W64) :=
  let held (m : SMap Agent) : List W64 := m.filterMap (fun e => if e.2.ctx = y then e.2.held.map (·.addr) else none)
  let hc := (s.contsOf [y]).filterMap (fun k => if k.isNew then none else k.held.map (·.addr))
  let new := (s.contsOf [y]).filterMap (fun k => if k.isNew then k.held.map (·.addr) else none)
  let rd (a : W64) : List W64 := (s.heldWords y a).2
  (held s.agents ++ held (s.ctx y).aside.agents ++ hc).map (fun a => (true, a, rd a))
    ++ (new ++ (s.ctx y).trap.wrote.map (·.addr)).map (fun a => (false, a, rd a))

/-- Section 12 (15 R475): the streams of the subtree stopped on their own fault, and its records that wait undelivered. -/
def State.imgStreams (s : State) (x : Nat) (order : List Nat) : List (List Byte) :=
  let mine := order.flatMap (fun y => (s.recordsOf y).map (fun r => (y, r)))
  let up := (s.chain x).drop 1
  let outs := up.flatMap (fun y => (s.recordsOf y).map (fun r => r.2.2) ++ (s.ctx y).trap.pending.map (·.words)) ++ order.flatMap (fun y => (s.ctx y).trap.pending.map (·.words))
  let entry (core st disp nrep cause cls rctx : Nat) (raddr : W64) (f reps : List W64) : List Byte :=
    bytes64 ([BitVec.ofNat 64 (idxOf (s.coresOf x) core * 2 ^ 56 + st * 2 ^ 52 + disp * 2 ^ 50 + nrep * 2 ^ 44 + cause * 2 ^ 36 + cls * 2 ^ 35 + rctx), raddr, 0, 0, 0, 0, 0, 0]
      ++ (f ++ List.replicate (8 - f.length) 0) ++ (reps ++ List.replicate (64 - reps.length) 0))
  let hits (w : List W64) (e : Nat × Nat × Nat × Nat) : Bool := rCtx w == e.1 && rCore w == e.2.1 && rStream w == e.2.2.1 && rCause w == e.2.2.2
  let fs := s.faultedStreams order
  let ofStream (e : Nat × Nat × Nat × Nat) : List Byte :=
    match mine.find? (fun r => hits r.2.2.2 e) with
    | some (y, held, a, w) => entry e.2.1 e.2.2.1 (if held then 0 else 1) 0 e.2.2.2 (b2n (rFatal w)) (idxOf order y) a [] []
    | none =>
      match outs.find? (fun w => hits w e) with
      | some w => entry e.2.1 e.2.2.1 2 (rNrep w) e.2.2.2 (b2n (rFatal w)) 0 0 (rFent w) ((List.range 8).flatMap (rRep w))
      | none => entry e.2.1 e.2.2.1 2 0 e.2.2.2 0 0 0 [] []
  let rest := mine.filter (fun r => !r.2.1 && !fs.any (hits r.2.2.2))
  fs.map ofStream ++ rest.map (fun r => let w := r.2.2.2; entry (rCore w) (rStream w) 1 0 (rCause w) (b2n (rFatal w)) (idxOf order r.1) r.2.2.1 [] [])

/-- The next multiple of 64. -/
def up64 (n : Nat) : Nat := (n + 63) / 64 * 64

/-- Sections put one after another on 64-byte boundaries (20 R461): the table's words and the bytes from an offset on. -/
def layout : Nat → List (Nat × List (List Byte)) → List W64 × List Byte
  | off, [] => ([0, BitVec.ofNat 64 off], [])
  | off, (kind, es) :: t =>
    let n := (es.map (·.length)).foldl (· + ·) 0
    let (tw, bs) := layout (off + up64 n) t
    (BitVec.ofNat 64 (kind * 2 ^ 56 + es.length * 2 ^ 32 + (es.headD []).length) :: BitVec.ofNat 64 off :: tw, padTo (up64 n) es.flatten ++ bs)

/-- A byte for each byte of an area: 1 where its line carries a poison mark. -/
def markBytes (n size : Nat) (bad : Nat → Bool) : List Byte := (List.range n).map (fun i => if bad (i / size) then 1 else 0)

/-- The migration image of a child that has stopped (15 R419, 20 R461), or with `marks` a byte for each of its bytes, 1 where the byte is of a
window's line or of a row that carries a poison mark (02 R44). Empty sections are left out. -/
def State.imageOf (s : State) (x : Nat) (marks : Bool) : List Byte :=
  let order := s.imageCtxs x
  let cs := s.coresOf x
  let frc := (match (s.ctx x).saved with | some v => v.forced | none => false) || !(s.ctx x).aside.agents.isEmpty
    || (s.agentsOn order Sel.all).any (fun k => k % 6 < 4)
  let win (k : Nat) : List Byte :=
    let w := s.win x k
    if marks then markBytes (w.lim - w.base) 64 (fun i => s.psn true (spKey k w.base + 64 * i)) else s.rdBytes true (spKey k w.base) (w.lim - w.base)
  let row (k d : Nat) : List Byte :=
    if marks then (let bad := s.rowMarks x k d; markBytes (2048 * 256) 256 bad.contains) else s.rowBytes x k d
  let sides := cs.flatMap (fun k => ([0, 1].filter (s.holdsSide x k)).map (fun d => (k, d)))
  let on (l : List (Nat × List (List Byte))) : List (Nat × List (List Byte)) := if frc then l else []
  let secs : List (Nat × List (List Byte)) :=
    [(1, order.map (s.imgDescriptor x order)), (2, s.imgShape x), (3, order.map s.imgQueues),
     (4, ((s.contsOf order).filter (fun k => !(k.isNew && k.held.isSome))).map (s.imgCont x order))]
    ++ on [(5, s.imgAgents x order [0, 1, 2, 3] Agent.threadBlocks), (5, s.imgAgents x order [4, 5] Agent.sideBlocks)]
    ++ [(6, cs.map (s.coreBlock0 x)), (7, (s.imgCmds order).map (s.imgCmd x order)), (8, (s.imgBooks order).map (fun e => s.imgBook x e.2)),
        (9, order.flatMap (fun y => cs.map (s.imgCounters y)))]
    ++ on ((s.cluList x).map (fun k => (10, [win k])) ++ [(11, sides.map (fun e => row e.1 e.2))])
    ++ [(12, s.imgStreams x order)]
  let secs := secs.filter (fun e => !e.2.isEmpty)
  let secs := if marks then secs.map (fun e => if e.1 = 10 ∨ e.1 = 11 then e else (e.1, e.2.map (fun b => List.replicate b.length 0))) else secs
  let n := secs.length + 1
  let start := up64 (64 + 16 * n)
  let (tw, bs) := layout start secs
  let len := (start + bs.length) / 64
  let head := padTo start (bytes64 ([BitVec.ofNat 64 (len * 2 ^ 32 + 2 ^ 16 + n), BitVec.ofNat 64 (s.slotNo % 2 ^ 48), BitVec.ofNat 64 (b2n frc), 0, 0, 0, 0, 0] ++ tw))
  (if marks then List.replicate start 0 else head) ++ bs

/-- The migration image. -/
def State.image (s : State) (x : Nat) : List Byte := s.imageOf x false

/-- The lines of the image that carry a poison mark: those of what they hold. -/
def State.imageMarks (s : State) (x : Nat) : List Nat :=
  let l := s.imageOf x true
  (List.range (l.length / 64)).filter (fun i => ((l.drop (64 * i)).take 64).any (· != 0))

/-! ## DIRTYLOG -/

/-- Dirty-logging state of a context changed. -/
def State.updDirty (s : State) (c : Nat) (f : DirtySt → DirtySt) : State := s.updCtx c (fun x => { x with dirty := f x.dirty })

/-- Address of a context's control block. -/
def State.logBlock (s : State) (c : Nat) : W64 := BitVec.ofNat 64 (bits (s.ctx c).dirty.reg 51 6 * 64)

/-- Word 6 of the control block written (15 R414). -/
def State.writeSt (s : State) (c st ilen : Nat) : State :=
  (s.devWrite c (s.logBlock c + 48) (toBytes 8 (st * 2 ^ 61 + ilen))).1.updDirty c (fun d => { d with st := st })

/-- Whether every page of an area of a context's space is mapped writable. -/
def State.writable (s : State) (c a n : Nat) : Bool :=
  n == 0 || ((List.range ((a % 65536 + n + 65535) / 65536)).all (fun i =>
    match (s.translate c .write false (BitVec.ofNat 64 (a / 65536 * 65536 + 65536 * i))).2 with | .ok _ => true | .error _ => false))

/-- The rules of a control block (15 R414). -/
def State.logOk (s : State) (c : Nat) (w : List W64) : Bool :=
  let g (k : Nat) : W64 := w.getD k 0
  let x := (g 0).toNat
  (SMap.find? s.ctxs x).isSome && (s.ctx x).parent == c && (s.ctx x).depth == (s.ctx c).depth + 1
    && bits (g 1) 63 52 == 0 && bits (g 1) 15 0 == 0 && bits (g 2) 63 32 == 0 && bits (g 3) 63 52 == 0 && bits (g 3) 2 0 == 0
    && bits (g 4) 63 52 == 0 && bits (g 4) 5 0 == 0 && bits (g 5) 63 32 == 0 && g 7 == 0
    && s.writable c (g 3).toNat ((bits (g 2) 31 0 + 63) / 64 * 8) && s.writable c (g 4).toNat (bits (g 5) 31 0 * 64)

/-- The control block read and checked (15 R414): its words, or a refusal. -/
def State.readLog (s : State) (c : Nat) : State × Option (List W64) :=
  match s.devRead c (s.logBlock c) 64 with
  | (s, none) => (s, none)
  | (s, some bs) => let w := words64 8 bs; (s, if s.logOk c w then some w else none)

/-- A refused write (15 R414): EN 0, ST 5. -/
def State.refuseLog (s : State) (c : Nat) : State :=
  (s.updDirty c (fun d => { d with reg := setBits d.reg 1 0 0 })).writeSt c 5 0

/-- Every bit of the bitmap set to 1 (15 R415). -/
def State.fillMap (s : State) (c : Nat) (w : List W64) : State :=
  let n := bits (w.getD 2 0) 31 0
  let va := w.getD 3 0
  let s := (s.devWrite c va (List.replicate (n / 8) 0xFF)).1
  if n % 8 = 0 then s
  else match s.devRead c (va + BitVec.ofNat 64 (n / 8)) 1 with
    | (s, some bs) => (s.devWrite c (va + BitVec.ofNat 64 (n / 8)) [bs.headD 0 ||| BitVec.ofNat 8 (2 ^ (n % 8) - 1)]).1
    | (s, none) => s

/-- A write of DIRTYLOG (15 R414, R415, R417, R418, R420). -/
def State.dirtyWrite (s : State) (v : W64) : State :=
  let c := s.myCtx
  let d := (s.ctx c).dirty
  let en := bit d.reg 0
  let setBlock (s : State) : State := s.updDirty c (fun d => { d with reg := setBits d.reg 51 6 (bits v 51 6) })
  if bit d.reg 1 then s
  else if !bit s.dev.featacc 6 then (setBlock s).refuseLog c
  else if bit v 2 && bit v 3 then s.refuseLog c
  else if bit v 3 then
    if en then s
    else
      match (setBlock s).readLog c with
      | (s, none) => s.refuseLog c
      | (s, some w) => s.updDirty c (fun d => { d with reg := setBits d.reg 1 1 1, blk := w, imp := true })
  else if bit v 2 then
    match (setBlock s).readLog c with
    | (s, none) => s.refuseLog c
    | (s, some w) =>
      let x := (w.getD 0 0).toNat
      let s := s.updDirty c (fun d => { d with reg := setBits d.reg 1 1 1, blk := w, imp := false })
      let s := s.writeSt c 2 0
      if (s.ctx x).stt = 2 then s.raiseStop x false else s
  else if bit v 0 && !en then
    match (setBlock s).readLog c with
    | (s, none) => s.refuseLog c
    | (s, some w) =>
      let s := (s.fillMap c w).updDirty c (fun d => { d with reg := setBits d.reg 0 0 1, blk := w, imp := false })
      s.writeSt c 1 0
  else if !bit v 0 && en then
    let s := (setBlock s).updDirty c (fun d => { d with reg := setBits d.reg 0 0 0 })
    if d.st = 1 then s.writeSt c 0 0 else s
  else setBlock s

/-- DIRTYLOG_ENABLE (15 R415): a CSR.WR that sets EN. -/
def execDirtylogEnable (u : U) (s : State) : Out := governed u s fun s => .next ((s.dirtyWrite (s.sB u)).fin u)
/-- DIRTYLOG_DISABLE (15 R418): a CSR.WR with EN 0. -/
def execDirtylogDisable (u : U) (s : State) : Out := governed u s fun s => .next ((s.dirtyWrite (s.sB u)).fin u)
/-- DIRTYLOG_EXPORT (15 R417). -/
def execDirtylogExport (u : U) (s : State) : Out := governed u s fun s => .next ((s.dirtyWrite (s.sB u)).fin u)
/-- DIRTYLOG_IMPORT (15 R420). -/
def execDirtylogImport (u : U) (s : State) : Out := governed u s fun s => .next ((s.dirtyWrite (s.sB u)).fin u)

/-- Whether an export or import by a context is under way. -/
def State.logBusy (s : State) (c : Nat) (imp : Bool) : Bool := bit (s.ctx c).dirty.reg 1 && (s.ctx c).dirty.imp == imp

/-- EN and BUSY cleared. -/
def State.endLog (s : State) (c : Nat) : State := s.updDirty c (fun d => { d with reg := setBits d.reg 1 0 0 })

/-- Whether the child of an export has stopped and every write of its subtree is performed (15 R417). -/
def State.exportReady (s : State) (c : Nat) : Bool :=
  let x := bits ((s.ctx c).dirty.blk.getD 0 0) 15 0
  s.logBusy c false && (s.ctx x).stt != 2 && (s.agentsOn (s.subtree x) Sel.all).all (fun k => (s.ag (k / 6) (k % 6)).pend.isEmpty)

/-- Word 6's release at .sys by an export (15 R417): the states that the child's subtree published as it stopped (03 R94). -/
def State.publishExport (s : State) (c : Nat) : State :=
  let x := bits ((s.ctx c).dirty.blk.getD 0 0) 15 0
  let k := (s.subtree x).foldl (fun (k : Clock) y => k.join (s.ctx y).stopClk) Clock.empty
  match s.access c .write false (s.logBlock c + 48) 8 with
  | (t, .ok (p :: _)) => t.setPubs p.sp p.a [⟨0, 127, s.tenNo x, 4, k, k⟩]
  | _ => s

/-- EXPORT_COMPLETE (15 R417): the image written, then word 6; or refused where it does not fit. -/
def execExportComplete (ctx : Nat) (s : State) : Out :=
  if !s.exportReady ctx then .next s
  else
    let w := (s.ctx ctx).dirty.blk
    let img := s.image (bits (w.getD 0 0) 15 0)
    if bits (w.getD 5 0) 31 0 < img.length / 64 then .next ((s.writeSt ctx 5 0).endLog ctx)
    else .next ((((((s.devWrite ctx (w.getD 4 0) img).1).devMark ctx (w.getD 4 0) img.length (s.imageMarks (bits (w.getD 0 0) 15 0))).writeSt ctx 3 (img.length / 64)).publishExport ctx).endLog ctx)

/-! ## Streams carried by an image -/

/-- The streams that an image carried stopped on a fault go on, as a TRAP.RET with STOP = 0 and every mask bit set lets them (15 R475);
their capture blocks return to the pool. -/
def State.startCarried (s : State) (x : Nat) : State :=
  let l := (s.subtree x).flatMap (fun y => (s.ctx y).carried)
  let s := (s.subtree x).foldl (fun s y => if (s.ctx y).carried.isEmpty then s else s.updCtx y (fun z => { z with carried := [] })) s
  l.foldl (fun s w => (s.returnTo w 0xFF).freeCaptures w) s

end Sys2Proof.Machine
end

