-- ==== Sys2Proof/Machine/Context.lean ====
section
/-! DEFINITION. Contexts (13 R363-R367, 15 R399-R413): creation, grants, revocations, destruction, with the procedures that go on after
the instruction has issued. -/

namespace Sys2Proof.Machine

/-- Whether descriptor word k breaks its layout: a bit that must be zero is set (01 R16, R33, 02 R49, 13 R363). -/
def wordBad (k : Nat) (v : W64) : Bool :=
  match k with
  | 1 => bits v 63 52 != 0 || bits v 15 1 != 0
  | 2 => bits v 63 57 != 0 || bits v 11 0 != 0
  | 3 => bits v 63 52 != 0 || bits v 7 1 != 0
  | 4 => bits v 63 52 != 0 || bits v 15 12 != 0
  | 6 => bits v 63 8 != 0
  | _ => false

/-- Whether a register names a direct child of the issuer that is not being destroyed (13 R365, R366). -/
def State.isChild (s : State) (x : W64) : Bool :=
  let c := s.myCtx
  let y := s.ctx x.toNat
  (SMap.find? s.ctxs x.toNat).isSome && y.parent == c && y.depth == (s.ctx c).depth + 1 && y.stt != 4

/-- Pages charged along a path, up by `new` and down by `old` (15 R401). -/
def State.chargePages (s : State) (path : List Nat) (old new : Nat) : State :=
  path.foldl (fun s x => let w := s.cw x 15; s.setCw x 15 (setBits w 31 0 (bits w 31 0 + new - old))) s

/-- Whether a charge would raise MEMU above MEMB somewhere on a path (15 R401); the root's limit binds nothing. -/
def State.overCharge (s : State) (path : List Nat) (old new : Nat) : Bool :=
  old < new && path.any (fun x => (s.ctx x).depth != 0 && bits (s.cw x 15) 63 32 < bits (s.cw x 15) 31 0 + new - old)

/-- The rules of a creation block (13 R364). -/
def blockBad (root : Bool) (w : List W64) : Bool :=
  w.getD 0 0 != 0 || (span 7 9).any (fun k => w.getD k 0 != 0) || (!root && w.getD 2 0 != 0) || (span 1 6).any (fun k => wordBad k (w.getD k 0))

/-- The context of a creation block (13 R364, 15 R400): created, holding nothing. -/
def Ctx.made (depth parent ten : Nat) (w : List W64) : Ctx :=
  let pages := bits (w.getD 4 0) 11 0
  let ht := min 20 (bits (w.getD 2 0) 56 52)
  let ws : List (Nat × W64) := (span 1 6).map (fun k => (k, w.getD k 0)) ++
    [(13, BitVec.ofNat 64 (ten * 2 ^ 56 + ht * 2 ^ 27)), (15, BitVec.ofNat 64 (pages * 2 ^ 32 + pages))]
  { Ctx.blank with stt := 1, depth := depth, parent := parent, w := ws.filter (fun e => e.2 != 0) }

/-- CTX.CREATE (13 R364, 15 R400, R401). -/
def execCtxCreate (u : U) (s : State) : Out :=
  governed u s fun s =>
    let c := s.myCtx
    let va := s.sB u
    let root := (s.ctx c).depth == 0
    if va.toNat % 128 ≠ 0 then .next s.illegal
    else
      let deep := (s.ctx c).depth == 3
      match s.lineRead ⟨0, none⟩ va 128 with
      | (s, .error f) => .next (if deep then s.priv else f s)
      | (s, .ok bs) =>
        let w := words64 16 bs
        let pages := bits (w.getD 4 0) 11 0
        if blockBad root w then .next s.illegal
        else if deep ∨ s.overCharge (s.chargePath c) 0 pages then .next s.priv
        else
          let used := s.ctxs.map Prod.fst
          let tens := s.tenants.map s.tenNo
          match lowestFree used (used.length + 1) 1, (if root then lowestFree tens (tens.length + 1) 1 else some (s.tenNo c)) with
          | some x, some t =>
            if 65535 < x ∨ 255 < t then scalarDone u s 0 1
            else scalarDone u ((s.chargePages (s.chargePath c) 0 pages).setCtx x (Ctx.made ((s.ctx c).depth + 1) c t w)) (BitVec.ofNat 64 x) 1
          | _, _ => scalarDone u s 0 1

/-- CTX.QUERY (13 R367, 15 R400). -/
def execCtxQuery (u : U) (s : State) : Out :=
  governed u s fun s =>
    let v := s.sB u
    let x := if v = 0 then s.myCtx else v.toNat
    let k := bits u.imm 3 0
    if (SMap.find? s.ctxs x).isNone ∨ !(s.chain x).contains s.myCtx then .next s.priv
    else
      let y := s.ctx x
      let r : W64 := match k with
        | 0 => BitVec.ofNat 64 (y.stt * 2 ^ 61 + y.depth * 2 ^ 16 + y.parent)
        | 6 => let w := s.cw x 6; if w = 0 then 1 else w
        | 7 => 0
        | k => s.cw x k
      scalarDone u s r 4

/-! ## What a job waits for and does -/

/-- Whether two jobs are revocations of one kind to one child (15 R411): .cores and .mxh both revoke sides. -/
def sameKind : JobKind → JobKind → Bool
  | .revoke a _ _, .revoke b _ _ => a == b || ((a == 1 || a == 2) && (b == 1 || b == 2))
  | _, _ => false

/-- The sides that .cores and .mxh operands name (13 R365). -/
def sidesNamed (kind : Nat) (sv sw : W64) : List (Nat × Nat) :=
  ((List.range 64).filter (fun k => bit sv k)).flatMap (fun k =>
    let core := 64 * bits sw 0 0 + k
    if kind = 2 then [(core, bits sw 1 1)] else [(core, 0), (core, 1)])

/-- A selection by a list of sides. -/
def pickOf (l : List (Nat × Nat)) : Sel := fun k d => l.contains (k, d)

/-- Groups or ports that operands name, as calendar class and index. -/
def engsNamed (kind : Nat) (sv sw : W64) : List (Nat × Nat) :=
  if kind = 3 then (setBitsOf 64 sv.toNat).map (fun g => (2, g)) ++ (setBitsOf 8 sw.toNat).map (fun k => (2, 64 + k))
  else (setBitsOf 16 sv.toNat).map (fun k => (3, k))

/-- The handle range of a command, if it has one. -/
def CmdKind.handle : CmdKind → Option HRange
  | .ld h _ _ _ => some h
  | .st h _ _ _ => some h
  | .g _ h _ _ _ _ _ _ => some h
  | .d2 _ h _ _ _ _ _ => some h
  | _ => none

/-- Every queued command: core, queue, command; with those set aside, but where `all` is false for those of a context that has stopped or is
to stop (log 127). -/
def State.allCmds (s : State) (all : Bool) : List (Nat × Nat × Cmd) :=
  let of (m : SMap Core) : List (Nat × Nat × Cmd) := m.flatMap (fun e => e.2.eq.flatMap (fun q => q.2.map (fun c => (e.1, q.1, c))))
  of s.cores ++ s.ctxs.flatMap (fun e => if all || (e.2.stt == 2 && !s.stopAsked e.1) then of e.2.aside.cores else [])

/-- Whether a command can still reach a group or a port. -/
def State.cmdUses (s : State) (c : Cmd) (eng : Nat × Nat) : Bool :=
  if eng.1 = 2 then
    (match c.kind.handle with
     | some h => (samples s.dev 96 h.base (h.base + h.len)).any (fun a => (placeOf s.dev a).1 == eng.2)
     | none => false)
  else
    (match c.kind with | .x _ _ dw _ => bit dw 55 && bits dw 47 44 == eng.2 | _ => false) || s.flights.any (fun f => f.cmd == c.id && f.port == eng.2)

/-- No access of a subtree to a group or port remains in flight (15 R411). -/
def State.engIdle (s : State) (xs : List Nat) (eng : Nat × Nat) : Bool :=
  !((s.allCmds false).any (fun e => xs.contains e.2.2.ctx && s.cmdUses e.2.2 eng))
    && (eng.1 != 2 || !s.agents.any (fun e => xs.contains e.2.ctx && e.2.pend.any (fun p => p.pieces.any (fun y => !y.sp && (placeOf s.dev y.a).1 == eng.2))))

/-- The accesses in flight whose translation an invalidation removes (01 R39): agent and number. -/
def State.oldUses (s : State) (x : Nat) (range : Option (Nat × Nat)) : List (Nat × Nat) :=
  s.agents.flatMap (fun e =>
    if !(s.chain e.2.ctx).contains x then []
    else (e.2.pend.filter (fun p => p.pieces.any (fun y => !y.sp &&
      (match range with
       | some (b, n) => e.2.ctx != x || (y.va.toNat < b + n && b < y.va.toNat + y.n)
       | none => true)))).map (fun p => (e.1, p.id)))

/-- Whether one of the accesses that an invalidation waits for has not been performed. -/
def State.stillPending (s : State) (l : List (Nat × Nat)) : Bool :=
  l.any (fun e => (s.ag (e.1 / 6) (e.1 % 6)).pend.any (fun p => p.id == e.2))

/-- Whether a job that has begun may complete. -/
def State.jobReady (s : State) (j : Job) : Bool :=
  let xs := s.subtree j.ctx
  j.phase != 0 && (match j.kind with
    | .revoke 1 sv sw => let sel := pickOf (sidesNamed 1 sv sw); (s.agentsOn xs sel).isEmpty && (s.cmdsOn xs sel).isEmpty
    | .revoke 2 sv sw => let sel := pickOf (sidesNamed 2 sv sw); (s.agentsOn xs sel).isEmpty && (s.cmdsOn xs sel).isEmpty
    | .revoke 3 sv sw => (engsNamed 3 sv sw).all (s.engIdle xs)
    | .revoke 4 sv sw => (engsNamed 4 sv sw).all (s.engIdle xs)
    | .revoke 7 _ _ => !((s.allCmds false).any (fun e => j.cmds.contains e.2.2.id))
    | .revoke 8 _ _ => j.phase == 2
    | .revoke 9 sv _ => !((s.allCmds true).any (fun e => match e.2.2.kind.handle with
        | some h => h.ctx == j.ctx && (sv == 0 || 2 ^ sv.toNat ≤ h.index)
        | none => false))
    | .revoke 10 _ _ => (s.ctx j.ctx).stt != 2 && !(s.ctx j.ctx).stopping
    | .revoke _ _ _ => true
    | .tlbRange _ n => if n = 0 then !s.jobs.any (fun k => j.cmds.contains k.id) else !s.stillPending j.pends
    | .tlbSpace => !s.stillPending j.pends
    | .handle i => !((s.allCmds true).any (fun e => match e.2.2.kind.handle with | some h => h.ctx == j.ctx && h.index == i | none => false))
    | .destroy => !(s.ctx j.ctx).stopping
    | .reset core => s.resetQuiet core)

/-- A booking refused because a resource of a step with ANY = 0 is gone (15 R413). -/
def State.permBooking (s : State) (k : Nat) : State :=
  match s.recOf k with
  | none => s
  | some b =>
    let s := s.unhold k
    let s := (List.range b.steps.length).foldl (fun s i => s.freeStep k i) s
    let s := s.dropCmds (fun c => ctlHandle c.ctl == handleOf k b.gen && c.ctx == b.ctx)
    (s.updRec k (fun b => { b with reason := 2 })).endBooking k 7

/-- Bookings of a subtree that a revocation touches (15 R413): searched again over what their contexts still hold, or refused. -/
def State.redoBookings (s : State) (xs : List Nat) (gone : Nat → Nat → Bool) : State :=
  let hit (x : BStep) (i : Nat) : Bool := !x.retired && (stepEngs (sCls x.w0) i (sShares x.w0)).any (fun e => gone (sCls x.w0) e.1)
  s.book.recs.foldl (fun s e =>
    match s.recOf e.1 with
    | none => s
    | some b =>
      if !b.live || !xs.contains b.ctx then s
      else if b.steps.any (fun x => !sAny x.w0 && hit x (sIndex x.w0)) then s.permBooking e.1
      else if b.steps.any (fun x => (!x.slots.isEmpty || x.begun) && hit x x.idx) then
        (s.unplace e.1).updRec e.1 (fun b => { b with steps := b.steps.map (fun x => if hit x x.idx then { x with begun := false } else x) })
      else s) s

/-- Cached translations of contexts dropped where the test says so, with the lines filled through them. -/
def State.dropTlb (s : State) (p : TlbE → Bool) (q : Nat → Nat → Bool) : State :=
  { s with dev := { s.dev with tlb := s.dev.tlb.filter (fun e => !p e), lines := s.dev.lines.filter (fun e => !q e.1 e.2.1) } }

/-! ## Sides move (15 R412) -/

/-- The core that receives the state of a revoked side (15 R412): one that is itself being revoked is passed over (15 R413). -/
def State.receiver (s : State) (x core : Nat) : Option Nat :=
  let cs := (s.coresOf x).filter (fun k => [0, 1].any (fun d => s.holdsSide x k d && !(s.chain x).any (fun y => s.sidesGoing y k d)))
  match cs.find? (fun k => cluOf k == cluOf core) with
  | some k => some k
  | none => match cs.find? (fun k => dieOf k == dieOf core) with | some k => some k | none => cs.head?

/-- The entries of a queue's ring, oldest first, with the blocks returned to the pool; an entry that cannot be read is zero. -/
def State.ringOf (s : State) (d : DataQ) : State × List W64 :=
  let x := d.own
  let (s, l) := (List.range d.count).foldl (fun (y : State × List W64) i =>
    let k := d.head + i
    match y.1.spillRead x (y.1.blockVa x (d.blocks.getD (k / 512) 0) + BitVec.ofNat 64 (8 * (k % 512))) 8 with
    | (s, .ok bs) => (s, y.2 ++ [BitVec.ofNat 64 (ofBytes bs)])
    | (s, .error _) => (s, y.2 ++ [0])) (s, [])
  (d.blocks.foldl (fun s b => s.dropBlock x b) s, l)

/-- A data queue's entries put after another's. -/
def State.joinQ (s : State) (old new : DataQ) : State × DataQ :=
  if old.count = 0 ∧ old.chip = [] then (s, new)
  else
    let (s, l) := s.ringOf new
    (s, { old with chip := old.chip ++ l ++ new.chip, pubs := old.pubs ++ new.pubs })

/-- Tokens, queues and format words of moved sides added to a core's (15 R412, 04 R98). -/
def State.addCore (s : State) (k f : Core) : State × Core :=
  let k := f.toks.foldl (fun (k : Core) (e : Nat × Nat) =>
    let v := SMap.get 0 k.toks e.1 + e.2
    { k with toks := SMap.set 0 k.toks e.1 (min v 0xFFFF), tokovf := if 0xFFFF < v then setBits k.tokovf e.1 e.1 1 else k.tokovf }) k
  let k := { k with tokClk := f.tokClk.foldl (fun m (e : Nat × Clock) => SMap.put m e.1 (((SMap.find? m e.1).getD Clock.empty).join e.2)) k.tokClk }
  let k := { k with tokovf := k.tokovf ||| f.tokovf }
  let k := { k with fmtq := f.fmtq.foldl (fun m (e : Nat × List W64) => SMap.set [] m e.1 (SMap.get [] m e.1 ++ e.2)) k.fmtq }
  f.dq.foldl (fun (y : State × Core) (e : Nat × DataQ) =>
    let (s, d) := y.1.joinQ ((SMap.find? y.2.dq e.1).getD ⟨[], [], 0, 0, 0, []⟩) e.2
    (s, { y.2 with dq := SMap.put y.2.dq e.1 d })) (s, k)

/-- The state of a core's sides apart from agents, commands and continuations. -/
def Core.sidesOnly (k : Core) (on : Nat → Bool) : Core :=
  let t : SMap Nat := SMap.keep k.toks (fun i _ => on (i / 16))
  let tc : SMap Clock := SMap.keep k.tokClk (fun i _ => on (i / 16))
  let fq : SMap (List W64) := SMap.keep k.fmtq (fun i _ => on i)
  let dq : SMap DataQ := SMap.keep k.dq (fun i _ => on (queueSide i))
  let ov : W64 := (if on 0 then k.tokovf &&& 0xFFFF else 0) ||| (if on 1 then k.tokovf &&& 0xFFFF0000 else 0)
  { Core.blank with toks := t, tokClk := tc, fmtq := fq, dq := dq, tokovf := ov }

/-- A core without that state. -/
def Core.sidesLess (k : Core) (on : Nat → Bool) : Core :=
  let t : SMap Nat := SMap.keep k.toks (fun i _ => !on (i / 16))
  let tc : SMap Clock := SMap.keep k.tokClk (fun i _ => !on (i / 16))
  let fq : SMap (List W64) := SMap.keep k.fmtq (fun i _ => !on i)
  let dq : SMap DataQ := SMap.keep k.dq (fun i _ => !on (queueSide i))
  let ov : W64 := (if on 0 then k.tokovf &&& ~~~ (0xFFFF : W64) else k.tokovf) &&& (if on 1 then ~~~ (0xFFFF0000 : W64) else BitVec.allOnes 64)
  { k with toks := t, tokClk := tc, fmtq := fq, dq := dq, tokovf := ov }

/-- Side state given to a core for a context: live, or with its tenant's registers where another tenant's stand there. -/
def State.giveCore (s : State) (x core : Nat) (f : Core) : State :=
  if s.coreAway x core then
    let t := s.tenant x
    let (s, k) := s.addCore ((s.ctx t).aside.core core) f
    s.updAside t (fun v => { v with cores := SMap.put v.cores core k })
  else
    let (s, k) := s.addCore (s.core core) f
    { s with cores := SMap.put s.cores core k }

/-- Side state taken from a core for a context. -/
def State.takeCore (s : State) (x core : Nat) (on : Nat → Bool) : State × Core :=
  if s.coreAway x core then
    let t := s.tenant x
    let k := (s.ctx t).aside.core core
    (s.updAside t (fun v => { v with cores := SMap.put v.cores core (k.sidesLess on) }), k.sidesOnly on)
  else (s.updCore core (fun k => k.sidesLess on), (s.core core).sidesOnly on)

/-- A wait descriptor that names a token of the selected sides of a core rewritten to name another core (15 R412). -/
def rewait (frm dst : Nat) (on : Nat → Bool) (w : W64) : W64 := if bits w 63 62 = 1 ∧ bits w 22 16 = frm ∧ on (bits w 4 0 / 16) then setBits w 22 16 dst else w

/-- A continuation's wait descriptors rewritten, in its record too (15 R412). -/
def State.rewaitCont (s : State) (frm dst : Nat) (on : Nat → Bool) (k : Cont) : State × Cont :=
  let ws := k.waits.map (rewait frm dst on)
  if ws = k.waits then (s, k)
  else
    ((match k.place with
      | some p => (s.spillWrite k.ctx (s.placeVa k.ctx p + 160) (bytes64 (ws ++ List.replicate (3 - ws.length) 0))).1
      | none => s), { k with waits := ws })

/-- Every continuation of a context that waits on a token of the selected sides of a core waits on that of another core (15 R412). -/
def State.rewaitAll (s : State) (x frm dst : Nat) (on : Nat → Bool) : State :=
  let all (s : State) (l : List Cont) : State × List Cont :=
    l.foldl (fun (y : State × List Cont) k => let (s, k) := if k.ctx = x then y.1.rewaitCont frm dst on k else (y.1, k); (s, y.2 ++ [k])) (s, [])
  s.cores.foldl (fun s e =>
    let (s, dq) := all s (s.core e.1).deque
    let (s, wt) := all s (s.core e.1).waiting
    s.updCore e.1 (fun c => { c with deque := dq, waiting := wt })) s

/-- A continuation moved to a core, its record's HOME and wait descriptors rewritten (15 R412). -/
def State.moveCont (s : State) (frm dst : Nat) (k : Cont) : State × Cont :=
  let k' := { k with home := dst, waits := k.waits.map (rewait frm dst (fun _ => true)) }
  let s := match k.place with
    | none => s
    | some p =>
      let s := match s.spillRead k.ctx (s.placeVa k.ctx p + 16) 8 with
        | (s, .ok bs) => (s.spillWrite k.ctx (s.placeVa k.ctx p + 16) (toBytes 8 (setBits (BitVec.ofNat 64 (ofBytes bs)) 22 16 dst).toNat)).1
        | (s, .error _) => s
      (s.spillWrite k.ctx (s.placeVa k.ctx p + 160) (bytes64 (k'.waits ++ List.replicate (3 - k'.waits.length) 0))).1
  (s, k')

/-- Continuations moved, in order. -/
def State.moveConts (s : State) (frm dst : Nat) (l : List Cont) : State × List Cont :=
  l.foldl (fun (y : State × List Cont) k => let (s, k) := y.1.moveCont frm dst k; (s, y.2 ++ [k])) (s, [])

/-- A free key for an agent set aside at a core and stream. -/
def freeKey (m : SMap Agent) : Nat → Nat → Nat
  | 0, k => k
  | n + 1, k => if (SMap.find? m k).isSome then freeKey m n (k + 768) else k

/-- What a context has set aside at a core for some streams given to another core: agents, commands, sidecar stores. -/
def State.rekey (s : State) (x frm dst : Nat) (agent : Nat → Bool) (cmd : Nat → Cmd → Bool) : State :=
  if frm = dst then s
  else
    let v := (s.ctx x).aside
    let mine := v.agents.filter (fun e => e.1 / 6 % 128 == frm && agent (e.1 % 6))
    let rest := v.agents.filter (fun e => !(e.1 / 6 % 128 == frm && agent (e.1 % 6)))
    let ags := mine.foldl (fun m e => SMap.put m (freeKey m 128 (dst * 6 + e.1 % 6)) e.2) rest
    let k := v.core frm
    let goes : List (Nat × List Cmd) := (k.eq.map (fun q => (q.1, (q.2.filter (cmd q.1)).map (fun c => { c with core := dst })))).filter (fun q => !q.2.isEmpty)
    let stays : List (Nat × List Cmd) := (k.eq.map (fun q => (q.1, q.2.filter (fun c => !cmd q.1 c)))).filter (fun q => !q.2.isEmpty)
    let half (m : SMap Byte) (e : Nat × Agent) : SMap Byte :=
      if isSide (e.1 % 6) then SMap.splice m ((e.1 % 6 - 4) * 0x8000) ((e.1 % 6 - 3) * 0x8000) (halfStore k.imem (e.1 % 6)) else m
    let t := v.core dst
    let t := { t with eq := goes.foldl (fun m q => SMap.set [] m q.1 (SMap.get [] m q.1 ++ q.2)) t.eq, imem := mine.foldl half t.imem }
    let cs := if (SMap.find? v.cores frm).isSome then SMap.put v.cores frm { k with eq := stays } else v.cores
    let s := s.updAside x (fun v => { v with agents := ags, cores := if goes.isEmpty && mine.isEmpty then cs else SMap.put cs dst t })
    { s with launches := s.launches.map (fun (e : Nat × Launch) =>
        if e.2.ctx = x then (e.1, { e.2 with sides := e.2.sides.map (fun k => if k / 6 = frm ∧ agent (k % 6) ∧ mine.any (fun a => a.1 % 6 == k % 6) then dst * 6 + k % 6 else k) }) else e) }

/-- The continuations of a context taken from a core's deque and waiting list. -/
def State.takeConts (s : State) (x core : Nat) : State × List Cont × List Cont :=
  let k := s.core core
  (s.updCore core (fun k => { k with deque := k.deque.filter (fun c => c.ctx != x), waiting := k.waiting.filter (fun c => c.ctx != x) }),
    k.deque.filter (fun c => c.ctx == x), k.waiting.filter (fun c => c.ctx == x))

/-- Continuations put behind those of a core. -/
def State.putConts (s : State) (frm dst : Nat) (dq wt : List Cont) : State :=
  let (s, dq) := s.moveConts frm dst dq
  let (s, wt) := s.moveConts frm dst wt
  s.updCore dst (fun k => { k with deque := k.deque ++ dq, waiting := k.waiting ++ wt })

/-- One context's state moved off revoked sides of a core (15 R412). -/
def State.moveOff (s : State) (x core : Nat) (on : Nat → Bool) : State :=
  let still := s.holdsSide x core 0 || s.holdsSide x core 1
  let s := match s.receiver x core with
    | some dst => (s.rekey x core dst (fun st => on (sideOf st)) (fun q c => if q = 6 ∨ q = 7 ∨ q = 16 then on (sideOf q) else on (sideOf c.st))).rewaitAll x core dst on
    | none => s
  if still then s
  else
    let (s, dq, wt) := s.takeConts x core
    match s.receiver x core with
    | some dst => s.putConts core dst dq wt
    | none =>
      if dq = [] ∧ wt = [] then s
      else s.updAside x (fun v => let k := v.core core; { v with cores := SMap.put v.cores core { k with deque := k.deque ++ dq, waiting := k.waiting ++ wt } })

/-- The end of a revocation of sides (15 R412): the state moved, the sides no longer held, bookings searched again. -/
def State.dropSides (s : State) (x : Nat) (sides : List (Nat × Nat)) : State :=
  let xs := s.subtree x
  let cores := (sides.map Prod.fst).eraseDups
  let on (k d : Nat) : Bool := sides.contains (k, d)
  let (s, frags) := cores.foldl (fun (y : State × List (Nat × Core)) k =>
    let (s, f) := y.1.takeCore x k (fun d => on k d && y.1.holdsSide x k d)
    (s, y.2 ++ [(k, f)])) (s, [])
  let s := xs.foldl (fun s y => sides.foldl (fun s e =>
    let w := 8 + e.2 + 2 * (e.1 / 64)
    s.setCw y w (setBits (s.cw y w) (e.1 % 64) (e.1 % 64) 0)) s) s
  let s := cores.foldl (fun s k => s.ownCore k) s
  let s := frags.foldl (fun s e => match s.receiver x e.1 with
    | some dst => s.giveCore x dst e.2
    | none =>
      let (s, k) := s.addCore ((s.ctx x).aside.core e.1) e.2
      s.updAside x (fun v => { v with cores := SMap.put v.cores e.1 k })) s
  let s := xs.foldl (fun s y => cores.foldl (fun s k => s.moveOff y k (on k)) s) s
  let s := s.updCtx x (fun y => { y with sideReq := y.sideReq.filter (fun e => !on (e.1 / 2) (e.1 % 2)) })
  let gone (cls i : Nat) : Bool := (cls == 0 && on (i / 2) (i % 2)) || (cls == 1 && cores.any (fun k => cluOf k == i / 4) && !s.holdsEng x 1 i)
  let s := s.redoBookings xs gone
  xs.foldl (fun s y => s.bring y) s

/-! ## Windows -/

/-- A descendant's or child's window cut to a range, its checked range clipped (15 R402, 02 R61). -/
def Win.clip (w : Win) (lo hi : Nat) : Win :=
  let base := max lo (min w.base hi)
  let lim := max base (min w.lim hi)
  let len := min w.chkLen (min w.cap ((lim - base) / 65536 - w.chkBase))
  ⟨base, lim, w.cap, w.chkBase, len⟩

/-- Cluster addresses of a window's checked range. -/
def Win.chkRange (w : Win) : Nat × Nat := (w.base + w.chkBase * 65536, w.base + (w.chkBase + w.chkLen) * 65536)

/-- A window stored; lines that enter or leave its checked range are as never read or written (02 R62). -/
def State.putWin (s : State) (x clu : Nat) (w : Win) : State :=
  let (a, b) := (s.win x clu).chkRange
  let (c, d) := w.chkRange
  let was (i : Nat) : Bool := a ≤ i && i < b
  let is (i : Nat) : Bool := c ≤ i && i < d
  let cut (k : Nat) : Bool := let i := k * 64; i / 2 ^ 25 == clu && (was (i % 2 ^ 25) != is (i % 2 ^ 25))
  let s := if (a, b) = (c, d) then s else { s with mem := { s.mem with spadMd := SMap.keep s.mem.spadMd (fun k _ => !cut k) } }
  s.updCtx x (fun y => { y with win := SMap.put y.win clu w })

/-- The root's CAP in a cluster: what no other context holds (02 R63). -/
def State.rootCap (s : State) (clu : Nat) : State :=
  let sum := ((s.ctxs.filter (fun e => e.2.depth != 0)).map (fun e => (s.win e.1 clu).cap)).foldl (· + ·) 0
  s.updCtx rootCtx (fun y => { y with win := SMap.put y.win clu { (s.win rootCtx clu) with cap := 64 - sum } })

/-- A context's window set, its descendants' cut to it (15 R402, R411). -/
def State.setWin (s : State) (x clu base lim cap : Nat) : State :=
  let w := s.win x clu
  let s := s.putWin x clu (Win.clip ⟨base, lim, cap, w.chkBase, w.chkLen⟩ base lim)
  let s := ((s.subtree x).filter (· != x)).foldl (fun s y =>
    if (SMap.find? (s.ctx y).win clu).isSome then s.putWin y clu ((s.win y clu).clip base lim) else s) s
  s.rootCap clu

/-- Fields of a .spad value (13 R365): base and limit in bytes, CAP. -/
def spadFields (sv : W64) : Nat × Nat × Nat := (bits sv 18 0 * 64, bits sv 37 19 * 64, bits sv 44 38)

/-! ## Jobs -/

/-- What a job does when its turn comes. -/
def State.beginJob (s : State) (j : Job) : State :=
  let x := j.ctx
  let xs := s.subtree x
  let s := { s with jobs := s.jobs.map (fun k => if k.id = j.id then { k with phase := 1 } else k) }
  match j.kind with
  | .revoke 7 sv sw =>
    let _ := sv
    let clu := sw.toNat
    let mine := (s.allCmds false).filter (fun e => xs.contains e.2.2.ctx && (cluOf e.1 == clu ||
      (match e.2.2.kind with | .x _ _ dw _ => !bit dw 55 && bits dw 51 48 == clu | _ => false)))
    { s with jobs := s.jobs.map (fun k => if k.id = j.id then { k with cmds := mine.map (fun e => e.2.2.id) } else k) }
  | .revoke 9 sv _ =>
    let s := s.setCw x 13 (setBits (s.cw x 13) 31 27 sv.toNat)
    if sv.toNat < bits (s.cw x 2) 56 52 then s.setCw x 2 (setBits (s.cw x 2) 56 52 sv.toNat) else s
  | .revoke 10 _ _ => if (s.ctx x).stt = 2 then s.raiseStop x false else s
  | .revoke 5 sv _ => s.setCw x 14 (setBits (s.cw x 14) 63 48 sv.toNat)
  | .revoke 6 sv _ => s.setCw x 15 (setBits (s.cw x 15) 63 32 sv.toNat)
  | .revoke k sv sw =>
    if k = 1 ∨ k = 2 then
      let t := s.cycle + s.limitOf x
      s.updCtx x (fun y => { y with sideReq := askSides ((sidesNamed k sv sw).filter (fun e => s.holdsSide x e.1 e.2)) t y.sideReq })
    else if k = 3 ∨ k = 4 then
      let l := engsNamed k sv sw
      s.redoBookings xs (fun cls i => l.contains (cls, i))
    else s
  | .destroy => if j.cmds = [2] then s.raiseStop x false else s
  | .tlbRange b n =>
    if n = 0 then s
    else
      let l := s.oldUses x (some (b, n))
      let s := s.dropTlb (fun e => if e.ctx = x then e.va < b + n && b < e.va + e.size else xs.contains e.ctx)
        (fun c a => if c = x then a < b + n && b < a + 64 else xs.contains c)
      { s with jobs := s.jobs.map (fun k => if k.id = j.id then { k with pends := l } else k) }
  | .tlbSpace =>
    let l := s.oldUses x none
    let s := s.dropTlb (fun e => xs.contains e.ctx) (fun c _ => xs.contains c)
    { s with jobs := s.jobs.map (fun k => if k.id = j.id then { k with pends := l } else k) }
  | .handle i => { s with dev := { s.dev with hnd := s.dev.hnd.filter (fun e => !(e.1 == x && e.2.1 == i)) } }
  | .reset _ => s

/-- Whether a job that waits may begin: no earlier job of its kind for its child; a destruction after every job of the subtree (13 R366,
15 R411). -/
def State.mayBegin (s : State) (j : Job) : Bool :=
  j.phase == 0 && (match j.kind with
    | .destroy => !s.jobs.any (fun k => k.id != j.id && (s.chain k.ctx).contains j.ctx)
    | _ => !s.jobs.any (fun k => k.id < j.id && k.ctx == j.ctx && sameKind k.kind j.kind))

/-- Jobs whose turn has come begin, in issue order. -/
def State.kick (s : State) : State :=
  (s.jobs.map (fun j => j.id)).foldl (fun s i => match s.jobs.find? (fun j => j.id == i) with
    | some j => if s.mayBegin j then s.beginJob j else s
    | none => s) s

/-- A destroyed subtree removed (13 R366): its bookings, tasks, work, commands, cached entries, holdings and CTXIDs. -/
def State.removeTree (s : State) (x : Nat) : State :=
  let xs := s.subtree x
  let s := s.book.recs.foldl (fun s e => match s.recOf e.1 with
    | some b => if xs.contains b.ctx ∧ b.live then
        (let s := s.unhold e.1
         ((List.range b.steps.length).foldl (fun s i => s.freeStep e.1 i) s).updRec e.1 (fun b => { b with st := 5, waitAt := none }))
      else s
    | none => s) s
  let infl := bits (s.cw x 14) 47 32
  let memu := bits (s.cw x 15) 31 0
  let up := (s.chain x).drop 1
  let s := up.foldl (fun s y => s.setCw y 14 (setBits (s.cw y 14) 47 32 (bits (s.cw y 14) 47 32 - infl))) s
  let s := s.chargePages up memu 0
  let clean (k : Core) : Core :=
    let eq := (k.eq.map (fun (q : Nat × List Cmd) => (q.1, q.2.filter (fun c => !xs.contains c.ctx)))).filter (fun q => !q.2.isEmpty)
    let dq := k.deque.filter (fun c => !xs.contains c.ctx)
    let wt := k.waiting.filter (fun c => !xs.contains c.ctx)
    let af : SMap W64 := SMap.keep k.accfree (fun i _ => !xs.contains i)
    let qs : SMap DataQ := k.dq.map (fun (q : Nat × DataQ) => (q.1, if xs.contains q.2.own then { q.2 with blocks := [], head := 0, count := 0, own := 0, pubs := q.2.pubs.drop q.2.count } else q.2))
    { k with eq := eq, deque := dq, waiting := wt, accfree := af, dq := qs }
  let gone := s.book.tasks.filter (fun e => xs.contains e.2.ctx)
  let tasks := s.book.tasks.filter (fun e => !xs.contains e.2.ctx)
  let s := { s with
    agents := s.agents.map (fun (e : Nat × Agent) => if xs.contains e.2.ctx ∧ e.2.item.isSome then (e.1, e.2.vacant) else e),
    cores := s.cores.map (fun (e : Nat × Core) => (e.1, clean e.2)),
    launches := s.launches.filter (fun e => !xs.contains e.2.ctx),
    book := { s.book with tasks := tasks },
    dev := { s.dev with hnd := s.dev.hnd.filter (fun e => !xs.contains e.1) } }
  let s := s.dropTlb (fun e => xs.contains e.ctx) (fun c _ => xs.contains c)
  let clus := ((s.ctx x).win.map Prod.fst)
  let s := { s with ctxs := s.ctxs.filter (fun e => !xs.contains e.1) }
  let s := clus.foldl (fun s k => s.rootCap k) s
  if gone.isEmpty then s else s.settled

/-- What the completion of a job does to the machine, its token aside. -/
def State.applyJob (s : State) (j : Job) : State :=
  let x := j.ctx
  let xs := s.subtree x
  match j.kind with
  | .revoke 3 sv sw =>
    let l := (engsNamed 3 sv sw).map Prod.snd
    let s := xs.foldl (fun s y =>
      let s := s.setCw y 12 (s.cw y 12 &&& ~~~ sv)
      s.setCw y 13 (setBits (s.cw y 13) 55 48 (bits (s.cw y 13 &&& ~~~ (BitVec.ofNat 64 (bits sw 7 0 * 2 ^ 48))) 55 48))) s
    s.dropTlb (fun e => xs.contains e.ctx && (samples s.dev 96 e.pa (e.pa + e.size)).any (fun a => l.contains (placeOf s.dev a).1)) (fun _ _ => false)
  | .revoke 4 sv _ => xs.foldl (fun s y => s.setCw y 13 (s.cw y 13 &&& ~~~ (BitVec.ofNat 64 (bits sv 15 0 * 2 ^ 32)))) s
  | .revoke 7 sv sw => let (b, l, cap) := spadFields sv; s.setWin x sw.toNat b l cap
  | .revoke 9 sv _ => { s with dev := { s.dev with hnd := s.dev.hnd.filter (fun e => !(e.1 == x && (sv == 0 || 2 ^ sv.toNat ≤ e.2.1))) } }
  | .revoke k sv sw => if k = 1 ∨ k = 2 then s.dropSides x (sidesNamed k sv sw) else s
  | .tlbRange _ _ => s
  | .tlbSpace => s
  | .handle _ => s
  | .reset _ => s
  | .destroy => s.removeTree x

/-- A job that is ready completes: its effect, its token, the jobs that waited behind it. -/
def State.endJob (s : State) (j : Job) : State :=
  let s := s.applyJob j
  (({ s with jobs := s.jobs.filter (fun k => k.id != j.id) }).produceFor j.own j.core j.tok j.clk).kick

/-- The completion of a job of given kinds, where it is ready. -/
def State.completeJob (s : State) (id : Nat) (p : JobKind → Bool) : Out :=
  match s.jobs.find? (fun j => j.id == id) with
  | some j => if p j.kind && s.jobReady j then .next (s.endJob j) else .next s
  | none => .next s

/-- REVOCATION_COMPLETE (15 R411). -/
def execRevocationComplete (id : Nat) (s : State) : Out := s.completeJob id (fun k => match k with | .revoke _ _ _ => true | _ => false)
/-- TLB_INV_COMPLETE (01 R39). -/
def execTlbInvComplete (id : Nat) (s : State) : Out := s.completeJob id (fun k => match k with | .tlbRange _ _ => true | .tlbSpace => true | _ => false)
/-- HANDLE_INV_COMPLETE (01 R40). -/
def execHandleInvComplete (id : Nat) (s : State) : Out := s.completeJob id (fun k => match k with | .handle _ => true | _ => false)
/-- DESTROY_COMPLETE (13 R366). -/
def execDestroyComplete (id : Nat) (s : State) : Out := s.completeJob id (fun k => match k with | .destroy => true | _ => false)

/-- An instruction that issues at once and leaves a job behind (13 R365, R366, R370): its token, the state the token is to carry. -/
def State.startJob (s : State) (u : U) (kind : JobKind) (x tok : Nat) (cmds : List Nat) (prep : State → State) : Out :=
  if s.exhausted 1 0 then .next (s.raise .epoch 0 0 0)
  else
    let (s, p) := s.publish s.myRace 0
    let (s, id) := s.newId
    let j : Job := ⟨id, kind, x, s.cu.core, tok, p.clk, cmds, agKey s.cu.core s.cu.st, 0, [], s.myCtx⟩
    let s := prep { s with jobs := s.jobs ++ [j] }
    let s := s.kick
    let now : Bool := match kind with
      | .revoke 5 _ _ => true
      | .revoke 6 _ _ => true
      | .revoke 10 _ _ => true
      | .reset _ => true
      | .tlbRange _ n => n == 0
      | _ => false
    let s := match s.jobs.find? (fun j => j.id == id) with
      | some j => if now && s.jobReady j then s.endJob j else s
      | none => s
    .next (s.fin u)

/-! ## The instructions -/

/-- A grant to a direct child (13 R365): turned away with the privilege fault, held behind a revocation of its kind, or done. -/
def State.granting (s : State) (u : U) (kind : Nat) (ok : Nat → Bool) (f : State → Nat → State) : Out :=
  let x := s.sA u
  if !s.isChild x || !ok x.toNat then .next s.priv
  else if s.jobs.any (fun j => j.ctx == x.toNat && sameKind j.kind (.revoke kind 0 0)) then .next s.hold
  else .next ((f s x.toNat).fin u)

/-- CTX.GRANT.set (13 R365, 15 R401). -/
def execCtxGrantSet (u : U) (s : State) : Out :=
  governed u s fun s =>
    let c := s.myCtx
    let root := (s.ctx c).depth == 0
    let x := (s.sA u).toNat
    let v := s.sB u
    let k := (s.sC u).toNat
    let mine : Bool := if k = 2 then root && (SMap.find? s.ctxs x).isSome && (s.ctx x).stt != 4 else s.isChild (s.sA u)
    let pages := bits v 11 0
    let old := bits (s.cw x 4) 11 0
    if !mine || k < 1 || 6 < k || wordBad k v || (k == 2 && x != rootCtx && bits (s.cw x 13) 31 27 < bits v 56 52)
        || (k == 4 && s.overCharge (s.chargePath x) old pages) then .next s.priv
    else
      let s := s.setCw x k v
      let s := if k = 4 then s.chargePages (s.chargePath x) old pages else s
      let s := if k = 3 ∧ !bit v 0 then s.updCtx x (fun y => { y with headAt := [], age := [], tails := [] }) else s
      .next (s.fin u)

/-- Rows and tokens of a side cleared for its new holder (02 R54, 04 R97). DESIGN CHOICE (log 181): its TOKOVF bits stay, as R97 names counts
and join states only. -/
def State.clearSide (s : State) (core d : Nat) : State :=
  let s := s.updCore core (fun k => { k with toks := k.toks.filter (fun e => e.1 / 16 != d), tokClk := k.tokClk.filter (fun e => e.1 / 16 != d) })
  let acc := SMap.splice s.mem.acc (accKey core (2048 * d) 0) (accKey core (2048 * (d + 1)) 0) []
  let psn := SMap.splice s.mem.accPsn (core * 4096 + 2048 * d) (core * 4096 + 2048 * (d + 1)) []
  { s with mem := { s.mem with acc := acc, accPsn := psn } }

/-- Work that waited because its context held no core goes to a core just granted (15 R412): the state moved off other cores, and
launches not dealt yet. -/
def State.settleOn (s : State) (x dst : Nat) : State :=
  let v := (s.ctx x).aside
  let lost := ((v.cores.map Prod.fst) ++ (v.agents.map Prod.fst).map (fun k => k / 6 % 128)).eraseDups.filter (fun k => !(s.holdsSide x k 0 || s.holdsSide x k 1))
  let s := lost.foldl (fun (s : State) k =>
    let f := (s.ctx x).aside.core k
    let s := s.rekey x k dst (fun _ => true) (fun _ _ => true)
    let s := s.updAside x (fun v => { v with cores := SMap.del v.cores k })
    ((s.giveCore x dst f).putConts k dst f.deque f.waiting).rewaitAll x k dst (fun _ => true)) s
  let todo := s.launches.filter (fun e => e.2.ctx == x && !e.2.dealt)
  let s := todo.foldl (fun (s : State) (e : Nat × Launch) => match SMap.find? s.book.tasks e.2.task with
    | some t => if t.ready then s.deal e.1 t.inh else s
    | none => s) s
  s.bring x

/-- A side cleared for its new holder where its tenant's registers and rows stand: in the core, or set aside. -/
def State.clearSideFor (s : State) (x core d : Nat) : State :=
  if s.coreAway x core then
    s.updAside (s.tenant x) (fun v => { v with
      cores := SMap.upd v.cores core (fun k => { k with toks := k.toks.filter (fun e => e.1 / 16 != d), tokClk := k.tokClk.filter (fun e => e.1 / 16 != d) }),
      acc := SMap.splice v.acc (accKey core (2048 * d) 0) (accKey core (2048 * (d + 1)) 0) [],
      accPsn := SMap.splice v.accPsn (core * 4096 + 2048 * d) (core * 4096 + 2048 * (d + 1)) [] })
  else s.clearSide core d

/-- Sides given to a child (15 R404, R412): the granted rows and tokens are zero for it (02 R54, 04 R97). -/
def State.grantSides (s : State) (x : Nat) (sides : List (Nat × Nat)) : State :=
  let new := sides.filter (fun e => !s.holdsSide x e.1 e.2)
  let t := s.tenant x
  let s := new.foldl (fun s e =>
    let w := 8 + e.2 + 2 * (e.1 / 64)
    let s := s.setCw x w (setBits (s.cw x w) (e.1 % 64) (e.1 % 64) 1)
    let o := (s.core e.1).owner
    if o ≠ 0 ∧ (o = t ∨ s.holdsCore o e.1) then s else s.updCore e.1 (fun k => { k with owner := t })) s
  let s := new.foldl (fun s e => s.clearSideFor x e.1 e.2) s
  match s.coresOf x, new with
  | _, [] => s
  | _, e :: _ => s.settleOn x e.1

/-- CTX.GRANT.cores (15 R404): both sides of cores. -/
def execCtxGrantCores (u : U) (s : State) : Out :=
  governed u s fun s =>
    let l := sidesNamed 1 (s.sB u) (s.sC u)
    s.granting u 1 (fun _ => bits (s.sC u) 63 1 == 0 && l.all (fun e => s.holdsSide s.myCtx e.1 e.2)) (fun s x => s.grantSides x l)

/-- CTX.GRANT.mxh (15 R404): one side of cores. -/
def execCtxGrantMxh (u : U) (s : State) : Out :=
  governed u s fun s =>
    let l := sidesNamed 2 (s.sB u) (s.sC u)
    s.granting u 2 (fun _ => bits (s.sC u) 63 2 == 0 && l.all (fun e => s.holdsSide s.myCtx e.1 e.2)) (fun s x => s.grantSides x l)

/-- CTX.GRANT.cg (15 R399): a group held by one tenant at most. -/
def execCtxGrantCg (u : U) (s : State) : Out :=
  governed u s fun s =>
    let sv := s.sB u
    let sw := s.sC u
    let l := (engsNamed 3 sv sw).map Prod.snd
    s.granting u 3 (fun x => bits sw 63 8 == 0 && l.all (fun g => s.holdsGroup s.myCtx g) &&
        !l.any (fun g => s.tenants.any (fun t => t != s.tenant x && s.holdsGroup t g)))
      (fun s x =>
        let s := s.setCw x 12 (s.cw x 12 ||| sv)
        s.setCw x 13 (s.cw x 13 ||| BitVec.ofNat 64 (bits sw 7 0 * 2 ^ 48)))

/-- CTX.GRANT.fx (13 R365). -/
def execCtxGrantFx (u : U) (s : State) : Out :=
  governed u s fun s =>
    let sv := s.sB u
    s.granting u 4 (fun _ => bits sv 63 16 == 0 && s.sC u == 0 && (setBitsOf 16 sv.toNat).all (fun k => s.holdsPort s.myCtx k))
      (fun s x => s.setCw x 13 (s.cw x 13 ||| BitVec.ofNat 64 (bits sv 15 0 * 2 ^ 32)))

/-- A limit raised (13 R365): no more than the issuer's, no less than the child's. -/
def State.raiseLimit (s : State) (u : U) (kind word hi lo : Nat) : Out :=
  let v := (s.sB u).toNat
  s.granting u kind (fun x => s.sC u == 0 && v ≤ bits (s.cw s.myCtx word) hi lo && bits (s.cw x word) hi lo ≤ v)
    (fun s x => s.setCw x word (setBits (s.cw x word) hi lo v))

/-- CTX.GRANT.quota (15 R401). -/
def execCtxGrantQuota (u : U) (s : State) : Out := governed u s fun s => s.raiseLimit u 5 14 63 48
/-- CTX.GRANT.mem (15 R401). -/
def execCtxGrantMem (u : U) (s : State) : Out := governed u s fun s => s.raiseLimit u 6 15 63 32
/-- CTX.GRANT.ht (13 R365). -/
def execCtxGrantHt (u : U) (s : State) : Out := governed u s fun s => s.raiseLimit u 9 13 31 27

/-- CTX.GRANT.spad (15 R402, 02 R63, R64). -/
def execCtxGrantSpad (u : U) (s : State) : Out :=
  governed u s fun s =>
    let c := s.myCtx
    let sv := s.sB u
    let sw := s.sC u
    let clu := sw.toNat
    let (b, l, cap) := spadFields sv
    let mine := s.win c clu
    s.granting u 7 (fun x =>
        let others := ((s.ctxs.filter (fun e => e.2.depth != 0 && e.1 != x)).map (fun e => (s.win e.1 clu).cap)).foldl (· + ·) 0
        bits sv 63 45 == 0 && clu < 16 && b ≤ l && mine.base ≤ b && l ≤ mine.lim && ((s.ctx c).depth == 0 || cap ≤ mine.cap)
          && others + cap ≤ 64 && (s.win rootCtx clu).chkLen ≤ 64 - (others + cap))
      (fun s x =>
        let w := s.win x clu
        let zero (s : State) (lo hi : Nat) : State :=
          if hi ≤ lo then s
          else
            let s := s.zeroBytes true (spKey clu lo) (hi - lo)
            { s with mem := { s.mem with spadPsn := SMap.splice s.mem.spadPsn (spKey clu lo / 64) (spKey clu hi / 64) [] } }
        let s := if w.lim ≤ w.base then zero s b l else zero (zero s b (min l w.base)) (max b w.lim) l
        s.setWin x clu b l cap)

/-- The rules of a time-slice window word (15 R409). -/
def calWordOk (w : W64) : Bool :=
  bits w 63 25 == 0 && 4 ≤ bits w 3 0 && bits w 3 0 ≤ 10 && bits w 13 4 < 2 ^ bits w 3 0 && 1 ≤ bits w 24 14 && bits w 24 14 ≤ 2 ^ bits w 3 0

/-- Whether two tenants hold a resource of a die to which windows apply (15 R409). -/
def State.shareOn (s : State) (t o die : Nat) : Bool :=
  (span (64 * die) 64).any (fun k => [0, 1].any (fun d => s.holdsSide t k d && s.holdsSide o k d))
    || (span (8 * die) 8).any (fun k => s.holdsPort t k && s.holdsPort o k)

/-- CTX.GRANT.cal (15 R409): the root's alone. -/
def execCtxGrantCal (u : U) (s : State) : Out :=
  governed u s fun s =>
    let sv := s.sB u
    let sw := s.sC u
    let die := bits sw 0 0
    s.granting u 8 (fun x => (s.ctx s.myCtx).depth == 0 && bits sw 63 1 == 0 && calWordOk sv &&
        !s.tenants.any (fun o => o != x && s.shareOn x o die && (List.range 1024).any (fun n => inWindow sv n && s.windowOf o die n)))
      (fun s x => s.updCtx x (fun y => { y with slices := SMap.put y.slices die sv }))

/-- CTX.GRANT.run (13 R365, 14 R393): a created or stopped child runs. -/
def execCtxGrantRun (u : U) (s : State) : Out :=
  governed u s fun s =>
    s.granting u 10 (fun _ => s.sB u == 1 && s.sC u == 0)
      (fun s x => if (s.ctx x).stt = 1 ∨ (s.ctx x).stt = 3 then (s.startCarried x).resume x else s)

/-- A revocation from a direct child (13 R365): turned away with the privilege fault, or begun. -/
def State.revoking (s : State) (u : U) (kind : Nat) (ok : Nat → Bool) : Out :=
  let x := s.sA u
  if !s.toksOk [u.e.toNat] || !s.isChild x || !ok x.toNat then .next s.priv
  else s.startJob u (.revoke kind (s.sB u) (s.sC u)) x.toNat u.e.toNat [] id

/-- CTX.REVOKE.cores (15 R412). -/
def execCtxRevokeCores (u : U) (s : State) : Out := governed u s fun s => s.revoking u 1 (fun _ => bits (s.sC u) 63 1 == 0)
/-- CTX.REVOKE.mxh (15 R412). -/
def execCtxRevokeMxh (u : U) (s : State) : Out := governed u s fun s => s.revoking u 2 (fun _ => bits (s.sC u) 63 2 == 0)
/-- CTX.REVOKE.cg (15 R411). -/
def execCtxRevokeCg (u : U) (s : State) : Out := governed u s fun s => s.revoking u 3 (fun _ => bits (s.sC u) 63 8 == 0)
/-- CTX.REVOKE.fx (15 R411). -/
def execCtxRevokeFx (u : U) (s : State) : Out := governed u s fun s => s.revoking u 4 (fun _ => bits (s.sB u) 63 16 == 0 && s.sC u == 0)
/-- CTX.REVOKE.quota (13 R365): to a value no larger than the child's. -/
def execCtxRevokeQuota (u : U) (s : State) : Out :=
  governed u s fun s => s.revoking u 5 (fun x => s.sC u == 0 && (s.sB u).toNat ≤ bits (s.cw x 14) 63 48)
/-- CTX.REVOKE.mem (13 R365). -/
def execCtxRevokeMem (u : U) (s : State) : Out :=
  governed u s fun s => s.revoking u 6 (fun x => s.sC u == 0 && (s.sB u).toNat ≤ bits (s.cw x 15) 63 32)
/-- CTX.REVOKE.ht (15 R411). -/
def execCtxRevokeHt (u : U) (s : State) : Out :=
  governed u s fun s => s.revoking u 9 (fun x => s.sC u == 0 && (s.sB u).toNat ≤ bits (s.cw x 13) 31 27)
/-- CTX.REVOKE.spad (15 R411): the new window lies within the child's. -/
def execCtxRevokeSpad (u : U) (s : State) : Out :=
  governed u s fun s =>
    let (b, l, cap) := spadFields (s.sB u)
    let clu := (s.sC u).toNat
    s.revoking u 7 (fun x => let w := s.win x clu; bits (s.sB u) 63 45 == 0 && clu < 16 && b ≤ l && w.base ≤ b && l ≤ w.lim && cap ≤ w.cap)
/-- CTX.REVOKE.cal (15 R409): the root's alone. -/
def execCtxRevokeCal (u : U) (s : State) : Out :=
  governed u s fun s => s.revoking u 8 (fun _ => (s.ctx s.myCtx).depth == 0 && bits (s.sC u) 63 1 == 0)
/-- CTX.REVOKE.run (13 R365, 14 R389): a stop with deadline. -/
def execCtxRevokeRun (u : U) (s : State) : Out := governed u s fun s => s.revoking u 10 (fun _ => s.sB u == 1 && s.sC u == 0)

/-- CTX.DESTROY (13 R366). -/
def execCtxDestroy (u : U) (s : State) : Out :=
  governed u s fun s =>
    let x := s.sA u
    if !s.toksOk [u.e.toNat] || !s.isChild x then .next s.priv
    else s.startJob u .destroy x.toNat u.e.toNat [(s.ctx x.toNat).stt] (fun s => s.updCtx x.toNat (fun y => { y with stt := 4 }))

end Sys2Proof.Machine
end

