-- ==== Sys2Proof/Machine/Root.lean ====
section
/-! DEFINITION. The root context as bring-up makes it (21 R465), and placing a program. -/

namespace Sys2Proof.Machine

/-- Masks of present groups: tier-1 groups of present stacks, tier-2 groups with memory (02 R65). -/
def presentLo (d : Dev) : Nat := ((List.range 8).map (fun k => if d.hbm.testBit k then 255 * 2 ^ (8 * k) else 0)).foldl (· + ·) 0
/-- Present tier-2 groups, bit k for CG(64 + k). -/
def presentHi (d : Dev) : Nat := ((List.range 8).map (fun k => if SMap.get 0 d.tier2 (64 + k) ≠ 0 then 2 ^ k else 0)).foldl (· + ·) 0

/-- The root (21 R465, step 6; 15 R400): every present resource, words 1-6 as given, its window the whole scratchpad of every
cluster, CAP 64 (02 R63), running. -/
def Ctx.root (d : Dev) (ws : SMap W64) : Ctx :=
  let all : W64 := BitVec.allOnes 64
  let held : List (Nat × W64) :=
    [(8, all), (9, all), (10, all), (11, all), (12, BitVec.ofNat 64 (presentLo d)),
     (13, BitVec.ofNat 64 (presentHi d * 2 ^ 48 + 0xFFFF * 2 ^ 32 + 20 * 2 ^ 27)), (14, BitVec.ofNat 64 (0xFFFF * 2 ^ 48)),
     (15, BitVec.ofNat 64 (0xFFFFFFFF * 2 ^ 32))]
  { Ctx.blank with stt := 2, w := ws ++ held, win := (List.range 16).map (fun k => (k, ⟨0, spadSize, 64, 0, 0⟩)) }

/-- Where `withFetchWord` puts its tables and its program: a level-0 and a level-1 table and a 512 MiB leaf. -/
def bootL0 : Nat := 0x00010000
def bootL1 : Nat := 0x00020000
def bootPage : Nat := 0x20000000
def bootPc : Nat := 0x00010000

/-- The bytes of a word list, little-endian (00 R5). -/
def bytes32 (ws : List W32) : List Byte := ws.flatMap (fun w => toBytes 4 w.toNat)

/-- A machine with a program placed: the boot complete with every feature accepted, the root running with one leaf mapped, and
thread slot 0 of core C0 about to issue its first unit at `bootPc`. -/
def State.place (s : State) (ws : List W32) : State :=
  let trw := BitVec.ofNat 64 (bootL0 + 1)
  let s := { s with
    dev := { s.dev with featacc := 0xFF, featSet := true, boot := .up, tlb := [], lines := [], throttle := false, iset := [] },
    slotAt := s.cycle, agenda := [Turn.agent 0 0] }
  let s := s.setCtx rootCtx (Ctx.root s.dev [(1, trw)])
  let s := s.wrP64 bootL0 (BitVec.ofNat 64 (bootL1 + 1))
  let s := s.wrP64 bootL1 (BitVec.ofNat 64 (bootPage + 0x1F + 0x180))
  let s := s.wrBytes false (bootPage + bootPc) (bytes32 ws)
  let item : Item := ⟨rootCtx, 0, 0, 0, false, none, false⟩
  s.setAg 0 0 { Agent.blank with run := .running, item := some item, pc := BitVec.ofNat 64 bootPc, ready := s.cycle }

end Sys2Proof.Machine
end

