-- ==== Sys2Proof/Machine/Import.lean ====
section
/-! DEFINITION. An image read back into a child (15 R419, R420, R473-R475, 14 R472). -/

namespace Sys2Proof.Machine

/-- The section table of an image: kind and entries of each section, or nothing where it is malformed. -/
def sections (img : List Byte) : Nat → Nat → Option (List (Nat × List (List Byte)))
  | 0, _ => none
  | n + 1, i =>
    let w := words64 2 ((img.drop (64 + 16 * i)).take 16)
    let kind := bits (w.getD 0 0) 63 56
    let off := (w.getD 1 0).toNat
    if kind = 0 then (if n = 0 then some [] else none)
    else
      let count := bits (w.getD 0 0) 55 32
      let size := bits (w.getD 0 0) 31 0
      if 12 < kind ∨ off % 64 ≠ 0 ∨ img.length < off + count * size ∨ count = 0 then none
      else (sections img n (i + 1)).map (fun t => (kind, chunks size count (img.drop off)) :: t)

/-- What the device keeps of an image while it loads it: whether registers are in it, its contexts' descriptors, its sections, and its sections
with a byte for each byte, 1 where the byte's line carries a poison mark (02 R44). -/
structure Image where
  frc : Bool
  secs : List (Nat × List (List Byte))
  ds : List (List W64)
  marks : List (Nat × List (List Byte))
  deriving DecidableEq, Repr

/-- Entries of every section of a kind. -/
def Image.sec (m : Image) (kind : Nat) : List (List Byte) := (m.secs.filter (fun e => e.1 == kind)).flatMap Prod.snd

/-- Marks of every section of a kind. -/
def Image.marksOf (m : Image) (kind : Nat) : List (List Byte) := (m.marks.filter (fun e => e.1 == kind)).flatMap Prod.snd

/-- Word k of the descriptor of an image's context. -/
def Image.d (m : Image) (i k : Nat) : W64 := (m.ds.getD i []).getD k 0

/-- Whether an image's context holds a side of a relative core. -/
def Image.side (m : Image) (i r side : Nat) : Bool := bit (m.d i (8 + side + 2 * (r / 64))) (r % 64)

/-- Size of the entries that the spec fixes (15 R419). -/
def secSizes : List (Nat × List Nat) :=
  [(1, [128]), (2, [8]), (3, [256]), (4, [256]), (5, [81920, 16384]), (6, [4096]), (7, [64]), (8, [144]), (9, [256]), (11, [524288]), (12, [640])]

/-- The agents whose sections an image holds, in order: context index, relative core, stream. -/
def Image.agents (m : Image) (n : Nat) (sts : List Nat) : List (Nat × Nat × Nat) :=
  (List.range m.ds.length).flatMap (fun i => (List.range n).flatMap (fun r => (sts.filter (fun st => m.side i r (sideOf st))).map (fun st => (i, r, st))))

/-- The sides whose rows an image holds, in order: relative core, side. -/
def Image.rows (m : Image) : List (Nat × Nat) :=
  (m.sec 2).zipIdx.flatMap (fun e => ([0, 1].filter (fun d => (ofBytes e.1).testBit d)).map (fun d => (e.2, d)))

/-- A descriptor of an image is well formed (15 R419): its parent comes before it, one level above. -/
def Image.descOk (m : Image) (i : Nat) : Bool :=
  let w0 := m.d i 0
  let p := bits w0 15 0
  let st := bits w0 63 61
  1 ≤ st && st ≤ 3 && bits w0 60 18 == 0 && (span 1 6).all (fun k => !wordBad k (m.d i k)) && bits (m.d i 7) 63 2 == 0 && bits (m.d i 7) 1 0 != 3
    && (if i = 0 then p == 0 else p < i && bits w0 17 16 == bits (m.d p 0) 17 16 + 1)

/-- Whether the sections have the entries they must for a partition of n cores in k clusters (15 R419). -/
def Image.wellFormed (m : Image) (n k : Nat) : Bool :=
  let ctxs := m.ds.length
  let count (kind size : Nat) : Nat := ((m.sec kind).filter (fun b => b.length == size)).length
  secSizes.all (fun e => (m.sec e.1).all (fun b => e.2.contains b.length))
    && 1 ≤ ctxs && (List.range ctxs).all m.descOk && (m.sec 3).length == ctxs && (m.sec 6).length == n && (m.sec 9).length == ctxs * n
    && (if m.frc then count 5 81920 == (m.agents n [0, 1, 2, 3]).length && count 5 16384 == (m.agents n [4, 5]).length
          && (m.sec 10).length == k && (m.sec 11).length == m.rows.length
        else (m.sec 5).isEmpty && (m.sec 10).isEmpty && (m.sec 11).isEmpty)

/-- Two bits of a shape entry: sides held. -/
def sidesIn (image mine : Nat) : Bool := (List.range 2).all (fun d => !image.testBit d || mine.testBit d)

/-- Whether a child's shape takes an image's (15 R420): the same clusters core by core, and every side of the image held. -/
def State.shapeOk (s : State) (x : Nat) (l : List (List Byte)) : Bool :=
  let mine := (s.imgShape x).map ofBytes
  let img := l.map ofBytes
  mine.length == img.length && (mine.zip img).all (fun e => e.1 / 16 == e.2 / 16 && e.2 / 4 % 4 == 0 && sidesIn e.2 e.1)

/-- A copy command's entry is well formed (15 R474) for a partition of n cores; `nb` bookings come with it. -/
def State.cmdOk (s : State) (x n nb : Nat) (w : List W64) : Bool :=
  let w0 := w.getD 0 0
  let major := bits w0 63 56
  let r := bits w0 55 48
  let e := bits w0 47 40
  let clu := idxOf (s.cluList x) (cluOf ((s.coresOf x).getD r 0))
  let ctl := w.getD 6 0
  0x84 ≤ major && major ≤ 0x8B && r < n && (if major = 0x8B then e == 0x80 + clu else e / 4 == clu) && bits w0 15 0 == 0 && bits (w.getD 7 0) 63 48 == 0
    && ctlOk ctl && ctlHandle ctl ≤ nb

/-- The image that stands at IMG in a logger's space, for a child: nothing where it is malformed or the child cannot take it (15 R420). -/
def State.readImage (s : State) (c x : Nat) (va : W64) (max : Nat) : Option Image :=
  match (s.devRead c va 64).2 with
  | none => none
  | some h =>
    let w := words64 8 h
    let len := bits (w.getD 0 0) 63 32
    let n := bits (w.getD 0 0) 15 0
    if bits (w.getD 0 0) 31 16 ≠ 1 ∨ max < len ∨ n = 0 ∨ len * 64 < 64 + 16 * n ∨ bits (w.getD 1 0) 63 48 ≠ 0 ∨ bits (w.getD 2 0) 63 1 ≠ 0
        ∨ (span 3 5).any (fun k => w.getD k 0 != 0) then none
    else match (s.devRead c va (64 * len)).2 with
      | none => none
      | some img =>
        match sections img n 0 with
        | none => none
        | some secs =>
          let ds := ((secs.filter (fun e => e.1 == 1)).flatMap Prod.snd).map (words64 16)
          let bad := s.devMarks c va (64 * len)
          let mb : List Byte := img.take (64 + 16 * n) ++ (markBytes (64 * len) 64 bad.contains).drop (64 + 16 * n)
          let m : Image := ⟨bit (w.getD 2 0) 0, secs, ds, (sections mb n 0).getD []⟩
          let cs := s.coresOf x
          let cl := s.cluList x
          let depth := (s.ctx x).depth
          let deep := (List.range ds.length).any (fun i => 3 < depth + bits (m.d i 0) 17 16 - bits (m.d 0 0) 17 16)
          let wins := (m.sec 10).zipIdx.all (fun e => let k := s.win x (cl.getD e.2 0); e.1.length == k.lim - k.base)
          if m.wellFormed cs.length cl.length && s.ctxs.length + ds.length ≤ 65536 && !deep && wins && s.shapeOk x (m.sec 2)
              && (m.sec 7).all (fun b => s.cmdOk x cs.length (m.sec 8).length (words64 8 b)) then some m else none

/-- Fresh CTXIDs for an image's contexts after the first (13 R364). -/
def freshIds (used : List Nat) : Nat → List Nat
  | 0 => []
  | n + 1 => let k := (lowestFree used (used.length + 1) 1).getD 0; k :: freshIds (k :: used) n

/-- A handler state from its code (15 R419). -/
def hstateOf : Nat → HState
  | 1 => .unacked
  | 2 => .double
  | _ => .idle

/-- A mask over relative units mapped onto a list of units. -/
def absUnits (units : List Nat) (mask : Nat) : List Nat := (units.zipIdx.filter (fun e => mask.testBit e.2)).map Prod.fst

/-- One context of an image (15 R420): the child's words, or a descendant with its holdings rebuilt from the child's. -/
def State.importCtx (s : State) (x : Nat) (order : List Nat) (m : Image) (i : Nat) : State :=
  let y := order.getD i x
  let pages := bits (m.d i 4) 11 0
  let hs := hstateOf (bits (m.d i 7) 1 0)
  let words (s : State) : State := [1, 3, 4, 5, 6].foldl (fun s k => s.setCw y k (m.d i k)) s
  if i = 0 then
    let old := bits (s.cw x 4) 11 0
    ((words s).chargePages (s.chargePath x) old pages).updTrap x (fun t => { t with hstate := hs })
  else
    let cs := s.coresOf x
    let depth := (s.ctx x).depth + bits (m.d i 0) 17 16 - bits (m.d 0 0) 17 16
    let parent := order.getD (bits (m.d i 0) 15 0) x
    let c : Ctx := { Ctx.blank with stt := bits (m.d i 0) 63 61, depth := depth, parent := parent, trap := { TrapSt.blank with hstate := hs } }
    let s := words (s.setCtx y c)
    let s := cs.zipIdx.foldl (fun s e => [0, 1].foldl (fun s d =>
      if m.side i e.2 d && s.holdsSide x e.1 d then
        let k := 8 + d + 2 * (e.1 / 64)
        s.setCw y k (setBits (s.cw y k) (e.1 % 64) (e.1 % 64) 1)
      else s) s) s
    let gs := absUnits (s.cgList x) ((m.d i 12).toNat + bits (m.d i 13) 55 48 * 2 ^ 64)
    let fs := absUnits (s.fxList x) (bits (m.d i 13) 47 32)
    let lo := ((gs.filter (· < 64)).map (fun g => 2 ^ g)).foldl (· + ·) 0
    let hi := ((gs.filter (64 ≤ ·)).map (fun g => 2 ^ (g - 64))).foldl (· + ·) 0
    let fx := (fs.map (fun k => 2 ^ k)).foldl (· + ·) 0
    let s := s.setCw y 12 (BitVec.ofNat 64 lo)
    let s := s.setCw y 13 (BitVec.ofNat 64 (s.tenNo x * 2 ^ 56 + hi * 2 ^ 48 + fx * 2 ^ 32 + min (bits (m.d i 13) 31 27) (bits (s.cw x 13) 31 27) * 2 ^ 27))
    let s := s.setCw y 14 (BitVec.ofNat 64 (min (bits (m.d i 14) 63 48) (bits (s.cw x 14) 63 48) * 2 ^ 48))
    let s := s.setCw y 15 (BitVec.ofNat 64 (min (bits (m.d i 15) 63 32) (bits (s.cw x 15) 63 32) * 2 ^ 32))
    s.chargePages (s.chargePath y) 0 pages

/-- Blocks of a context taken out of its pool. -/
def State.claim (s : State) (y : Nat) (l : List Nat) : State := s.updCtx y (fun c => { c with blocks := (l ++ c.blocks).eraseDups })

/-- The blocks of a return-address chain, newest first (06 R161, 09 R270). -/
def State.rasChain (s : State) (y : Nat) : Nat → Nat → List Nat
  | 0, _ => []
  | n + 1, b =>
    match (s.spillRead y (s.blockVa y b + 4088) 8).2 with
    | .ok bs => let k := ofBytes bs; if k < 65520 then s.rasChain y n k ++ [b] else [b]
    | .error _ => [b]

/-- Blocks of a chain that holds a number of return addresses. -/
def rasBlocksFor (n : Nat) : Nat := (n + 510) / 511

/-- An agent section read (14 R472): the agent as it is set aside. Its work identifier is in no section and stays a free value. -/
def State.readAgent (s : State) (y : Nat) (st cause : Nat) (bs : List Byte) : State × Option Agent :=
  let w := words64 512 bs
  let g (k : Nat) : W64 := w.getD k 0
  let run := bits (g 73) 63 62
  if run = 0 then (s, none)
  else
    let sr : SMap W64 := SMap.entries 0 0 (w.take 64)
    let br : SMap W64 := SMap.entries 0 0 ((w.drop 64).take 8)
    let pr : SMap Lanes := SMap.entries 0 0 ((chunks 128 64 (bs.drop 4096)).map (fun b => BitVec.ofNat 1024 (ofBytes b)))
    let vr : SMap VReg := if isSide st then [] else SMap.entries (.dense []) 0 ((chunks 4096 16 (bs.drop 16384)).map VReg.ofBlock)
    let map : SMap W32 := SMap.entries 0 0 ((chunks 4 16 (bs.drop 640)).map (fun b => BitVec.ofNat 32 (ofBytes b)))
    let cfg := (w.drop 88).take 8
    let brk := bit (g 103) 62
    let tl := words64 3 ((bs.drop (12288 + 3072)).take 24)
    let units := (chunks 12 (bits (tl.getD 1 0) 15 0) (bs.drop 12288)).map (fun b => IW.unpack (BitVec.ofNat 96 (ofBytes b)))
    let body := (units.foldl (fun (z : W64 × List BodyUnit) iw =>
      let n := iw.npfx + (if iw.w64 then 2 else 1)
      (z.1 + BitVec.ofNat 64 (4 * n), z.2 ++ [(⟨z.1, n, iw⟩ : BodyUnit)])) (tl.getD 0 0, [])).2
    let loop : Option LoopSt := if bit (g 103) 63 then
        some ⟨(span 96 6).map (fun k => (g k).toNat), (g 102).toNat, if brk then bits (g 103) 61 0 else loopP cfg, brk, body, bits (tl.getD 1 0) 63 16, tl.getD 2 0⟩
      else none
    let xfer : Option Xfer := if bit (g 73) 61 then some ⟨g 74, bit (g 73) 60, bits (g 73) 59 58, g 75⟩ else none
    let rasn := bits (g 79) 31 16
    let chain := if rasn = 0 then [] else s.rasChain y (rasBlocksFor rasn) (bits (g 79) 15 0)
    let va := BitVec.ofNat 64 (bits (g 104) 51 11 * 2048)
    let base := (s.entryVa y 0).toNat
    let held : Option Held := if bit (g 104) 63 then some ⟨va, (va.toNat - base) / 2048, (s.ctx y).trap.hstate == .idle, 0⟩ else none
    let tag := s.fresh
    let it : Item := ⟨y, 0, 0, Config.freeWord tag 0, false, none, held.isSome⟩
    let a : Agent := { Agent.blank with
      run := if run = 3 then .faulted cause else .stopped, item := some it, pc := g 72, regs := ⟨sr, pr, br, vr⟩, vstat := g 76 &&& flagMask, live := g 77 &&& ~~~ 1, issdiag := g 78 }
    let a := { a with ras := ⟨[], rasn, chain⟩, spmap := map, cfg := if cfg.all (· == 0) then none else some cfg, loop := loop, xfer := xfer, held := held }
    let blocks := map.filterMap (fun e => match parkOf e.2 with | some (.block b) => some b | _ => none)
    (({ s with fresh := tag + 1 }).claim y (blocks ++ chain), some a)

/-- Fields of a section 12 entry (15 R475). -/
def seCore (w : List W64) : Nat := bits (w.getD 0 0) 63 56
def seStream (w : List W64) : Nat := bits (w.getD 0 0) 55 52
def seDisp (w : List W64) : Nat := bits (w.getD 0 0) 51 50
def seNrep (w : List W64) : Nat := bits (w.getD 0 0) 47 44
def seCause (w : List W64) : Nat := bits (w.getD 0 0) 43 36
def seFatal (w : List W64) : Bool := bit (w.getD 0 0) 35
def seRctx (w : List W64) : Nat := bits (w.getD 0 0) 15 0

/-- The entries of section 12. -/
def Image.streams (m : Image) : List (List W64) := (m.sec 12).map (words64 80)

/-- Sections 5 and 6: the agents set aside for their contexts (15 R419, 14 R472). -/
def State.importAgents (s : State) (order cs : List Nat) (m : Image) (sts : List Nat) (size : Nat) : State :=
  let es := (m.sec 5).filter (fun b => b.length == size)
  ((m.agents cs.length sts).zip es).foldl (fun s e =>
    let (i, r, st) := e.1
    let y := order.getD i 0
    let cause := match m.streams.find? (fun w => seCore w == r && seStream w == st) with | some w => seCause w | none => 0
    match s.readAgent y st cause e.2 with
    | (s, some a) => s.updAside y (fun v => { v with agents := SMap.put v.agents (cs.getD r 0 * 6 + st) { a with seat := cs.getD r 0 * 6 + st }, forced := true })
    | (s, none) => s) s

/-- A data queue of a per-core entry (15 R473). -/
def State.readQueue (s : State) (x : Nat) (w : List W64) (q : Nat) : State × DataQ :=
  let h := w.getD (12 + q) 0
  let n := bits h 63 32
  let blocks := if n = 0 then [] else span (bits h 31 16) ((n + 511) / 512)
  let chip := (w.drop (54 + 32 * q)).take (min 32 (bits h 5 0))
  let p : Pub := ⟨0, 0, 0, 0, Clock.empty, Clock.empty⟩
  (s.claim x blocks, ⟨chip, blocks, 0, n, x, List.replicate (n + chip.length) p⟩)

/-- Section 6: tokens, flags and queues of a core (15 R473). -/
def State.importCore (s : State) (x core : Nat) (b : List Byte) : State :=
  let w := words64 512 b
  let toks : SMap Nat := SMap.entries 0 0 ((chunks 2 32 b).map ofBytes)
  let (s, dq) := (List.range 8).foldl (fun (y : State × SMap DataQ) q =>
    let (s, d) := y.1.readQueue x w q
    (s, if d.chip.isEmpty && d.count == 0 then y.2 else SMap.put y.2 q d)) (s, [])
  let fq (h : Nat) : List W64 := (w.drop (22 + 16 * h)).take (min 16 (bits (w.getD (20 + h) 0) 4 0))
  let fmt := [0, 1].foldl (fun (f : SMap (List W64)) h => SMap.set [] f h (fq h)) []
  let s := s.giveCore x core { Core.blank with toks := toks, tokovf := w.getD 8 0 &&& 0xFFFFFFFF, fmtq := fmt, dq := dq }
  let s := s.updRegs x core (fun k => { k with vcstat := SMap.set 0 (SMap.set 0 k.vcstat 0 (w.getD 9 0 &&& flagMask)) 1 (w.getD 10 0 &&& flagMask) })
  s.updCore core (fun k => { k with accfree := SMap.set 0 k.accfree x (w.getD 11 0) })

/-- What a copy command of section 7 does (15 R474); its handle is resolved again when it is brought back (15 R420). -/
def importKind (x major : Nat) (imm : W64) (o : List W64) : CmdKind :=
  let g (k : Nat) : W64 := o.getD k 0
  let h : HRange := ⟨0, 0, false, x, bits (g 0) 19 0, bits (g 0) 35 20⟩
  match major with
  | 0x84 => .acc (bit imm 15) (bits (g 2) 11 0) (bits (g 2) 27 16 + 1) (.desc (g 0) (g 1))
  | 0x85 => .ld h (g 1).toNat (g 2).toNat (g 4).toNat
  | 0x86 => .st h (g 1).toNat (g 2).toNat (g 4).toNat
  | 0x87 => .x (g 0).toNat (g 1).toNat (g 2) (g 4).toNat
  | 0x8A => .d2 (bit imm 15) h (g 1).toNat (.desc (g 2) (g 3)) (bits (g 4) 63 48 + 1) (bits (g 4) 47 32 + 1) (bits (g 4) 31 0)
  | 0x8B => .send (g 0).toNat (g 2).toNat
  | k => .g (k == 0x89) h (g 1).toNat (g 2).toNat (g 3).toNat (g 4).toNat (2 ^ bits imm 15 12) (if bit imm 11 then 8 else 4)

/-- Section 7: a copy command set aside at the end of its queue (15 R420); `hs` are the handles of the image's bookings. -/
def State.importCmd (s : State) (x : Nat) (m : Image) (hs : List Nat) (b : List Byte) : State :=
  let w := words64 8 b
  let w0 := w.getD 0 0
  let major := bits w0 63 56
  let core := (s.coresOf x).getD (bits w0 55 48) 0
  let e := bits w0 47 40
  let q := if major = 0x8B then 13 else 9 + e % 4
  let imm := BitVec.ofNat 64 (bits w0 31 16)
  let kind := importKind x major imm ((w.drop 1).take 5)
  let ctl0 := w.getD 6 0
  let hd := if ctlHandle ctl0 = 0 then 0 else hs.getD (ctlHandle ctl0 - 1) 0
  let ctl := setBits ctl0 63 32 hd
  let prog := bits (w.getD 7 0) 47 0
  let (s, id) := s.newId
  let win := s.win x (cluOf core)
  let win2 := match kind with | .x _ _ dw _ => s.win x (bits dw 51 48) | _ => win
  let u : U := { U.zero with imm := BitVec.ofNat 32 (bits w0 31 16) }
  let iw : IW := { IW.blank with w64 := true, major := BitVec.ofNat 8 major, u := u }
  let flt : Option Nat := if (s.ctx x).aside.cores.any (fun k => k.1 == core && !(SMap.get [] k.2.eq q).isEmpty) then none
    else (m.streams.find? (fun f => seStream f == q && (s.coresOf x).getD (seCore f) 0 == core)).map seCause
  let c : Cmd := ⟨id, kind, x, core, 0, 0, iw, ctl, if prog = 0 then ctlConsumes ctl else [], ctlTp ctl, Clock.empty, prog != 0, prog, [], false, flt, 3, 0,
    win, win2, [], [], [], true, [], (match kind with | .send _ _ => (List.range 16).map (fun k => (k, s.win x k)) | _ => []), []⟩
  s.updAside x (fun v =>
    let k := v.core core
    { v with cores := SMap.put v.cores core { k with eq := SMap.set [] k.eq q (SMap.get [] k.eq q ++ [c]) } })

/-- Section 8: a booking to be searched again when the child runs (15 R420, 14 R392): its handle, 0 where no record is free. One with a step on
an engine that the child does not hold is refused (15 R413). -/
def State.importBook (s : State) (x : Nat) (b : List Byte) : State × Nat :=
  let w := words64 18 b
  let h := w.getD 0 0
  let n := min 8 (bits h 63 60)
  let steps := (List.range n).map (fun i =>
    let w0 := w.getD (1 + 2 * i) 0
    newStep (if sAny w0 then w0 else setBits w0 58 51 (s.engAbs x (sCls w0) (sIndex w0))) (w.getD (2 + 2 * i) 0))
  let gone := (List.range n).any (fun i => let w0 := w.getD (1 + 2 * i) 0; !sAny w0 && s.engCount x (sCls w0) ≤ sIndex w0)
  let hdr := setBits (setBits h 50 44 ((s.coresOf x).getD (bits h 50 44) 0)) 43 34 0
  let die := match steps with | y :: _ => (if sAny y.w0 then dieOf ((s.coresOf x).headD 0) else dieOfEng (sCls y.w0) y.idx) | [] => 0
  match s.freeRec die with
  | none => (s, 0)
  | some k =>
    let st := w.getD 17 0
    let (s, hd) := s.takeRec k x 2 (bits st 60 57) hdr steps 0
    let s := s.updRec k (fun r => { r with slips := bits st 53 48 })
    (if gone then (s.updRec k (fun b => { b with reason := 2 })).endBooking k 7 else s, hd.toNat)

/-- Section 9: a context's counters at a core (15 R419). -/
def State.importCounters (s : State) (y core : Nat) (b : List Byte) : State :=
  let w := words64 32 b
  (List.range 16).foldl (fun s n =>
    let sel := w.getD n 0
    let k := core * 16 + n
    s.updCtx y (fun c =>
      let ps := SMap.set 0 c.pmsel k (pmselOf (BitVec.ofNat 64 (bits sel 31 0)))
      let sh := SMap.set 0 c.pmsh k (BitVec.ofNat 64 (bits sel 62 32))
      let pc := SMap.set 0 c.pmc k (w.getD (16 + n) 0)
      { c with pmsel := ps, pmsh := sh, pmc := pc })) s

/-- Section 4: a continuation, its record written to a place of its own; one not started becomes a record with no value kept. -/
def State.importCont (s : State) (order cs : List Nat) (b : List Byte) : State :=
  let w := words64 32 b
  let g (k : Nat) : W64 := w.getD k 0
  let y := order.getD (bits (g 2) 15 0) 0
  let home := cs.getD (bits (g 2) 22 16) 0
  let pin := bit (g 2) 23
  let isNew := bit (g 23) 2
  let ready := isNew || bits (g 23) 1 0 == 2
  let waits := ((w.drop 20).take (bits (g 23) 4 3)).map (fun v => if bits v 63 62 = 1 then setBits v 22 16 (cs.getD (bits v 22 16) 0) else v)
  let rasn := if isNew then 0 else bits (g 25) 31 16
  let chain := if rasn = 0 then [] else s.rasChain y (rasBlocksFor rasn) (bits (g 25) 15 0)
  let s := s.claim y chain
  match s.freePlace y with
  | none => s
  | some (p, new) =>
    let s := if new then s.takeBlock y (p / 16) else s
    let live := if isNew then 0 else g 3
    let va := BitVec.ofNat 64 (bits (g 26) 51 11 * 2048)
    let held : Option Held := if !isNew && bit (g 26) 63 then some ⟨va, (va.toNat - (s.entryVa y 0).toNat) / 2048, (s.ctx y).trap.hstate == .idle, 0⟩ else none
    let k : Cont := ⟨y, 0, 0, g 1, pin, false, some p, if ready then [] else waits, ready, if isNew then 0 else g 24, live, rasn, chain, held, Clock.empty, [], home⟩
    let w2 := BitVec.ofNat 64 (b2n pin * 2 ^ 23 + home * 2 ^ 16 + y)
    let w23 := BitVec.ofNat 64 (8 * k.waits.length + (if ready then 2 else 1))
    let pad : List W64 := List.replicate (3 - k.waits.length) 0
    let tl : List W64 := [w23, BitVec.ofNat 64 (bits k.vstat 15 0), BitVec.ofNat 64 (rasn * 2 ^ 16 + bits (g 25) 15 0), 0, 0, 0, 0, 0, 0]
    let words := [g 0, g 1, w2, live] ++ (w.drop 4).take 16 ++ (k.waits ++ pad) ++ tl
    let s := (s.spillWrite y (s.placeVa y p) (bytes64 words)).1
    s.updCore home (fun c => if ready then { c with deque := c.deque ++ [k] } else { c with waiting := c.waiting ++ [k] })

/-- The context whose stream a section 12 entry names: that of the agent brought by the image, else the child. -/
def State.streamCtx (s : State) (x : Nat) (order : List Nat) (core st : Nat) : Nat :=
  (order.find? (fun y => match SMap.find? (s.ctx y).aside.agents (core * 6 + st) with | some a => (match a.run with | .faulted _ => true | _ => false) | none => false)).getD x

/-- Section 12 (15 R475): a record of the subtree is rewritten to name its context and core on this device and waits for its receiver where
it waited; one that lay outside is carried until the child runs. -/
def State.importStream (s : State) (x : Nat) (order cs : List Nat) (w : List W64) : State :=
  let core := cs.getD (seCore w) 0
  let st := seStream w
  let c := s.streamCtx x order core st
  if seDisp w = 2 then
    let w0 := BitVec.ofNat 64 (seNrep w * 2 ^ 40 + st * 2 ^ 28 + b2n (seFatal w) * 2 ^ 24 + seCause w * 2 ^ 16 + c)
    let w7 := BitVec.ofNat 64 (core * 2 ^ 57)
    let f : List W64 := (w.drop 8).take 8
    let reps : List W64 := (w.drop 16).take 64
    let v := (s.ctx c).aside
    let entry := if st < 6 then agentEntry ((SMap.find? v.agents (agKey core st)).getD Agent.blank) else engineEntry (SMap.get [] ((SMap.find? v.cores core).getD Core.blank).eq st)
    let mid : List W64 := (List.range 16).flatMap (fun k => if k = st then entry else [0, 0, 0, 0])
    let tl : List W64 := List.replicate 112 0
    let rec0 : List W64 := [w0, 0, 0, 0, 0, 0, 0, w7] ++ f ++ mid ++ reps ++ tl
    let blocks := capBlocks f ++ (List.range (seNrep w)).flatMap (fun k => capBlocks ((reps.drop (8 * k)).take 8))
    (s.claim c blocks).updCtx c (fun y => { y with carried := y.carried ++ [rec0] })
  else
    let y := order.getD (seRctx w) x
    let va := w.getD 1 0
    let (s, old) := s.heldWords y va
    let w0 := setBits (old.getD 0 0) 15 0 c
    let w7 := setBits (old.getD 7 0) 63 57 core
    let s := (s.spillWrite y va (toBytes 8 w0.toNat)).1
    let s := (s.spillWrite y (va + 56) (toBytes 8 w7.toNat)).1
    let s := s.claim c (capBlocks (rFent old) ++ (List.range (rNrep old)).flatMap (fun k => capBlocks (rRep old k)))
    let s := if rFrz old && !s.frozen c core then s.updCtx c (fun y => { y with froze := SMap.put y.froze core st }) else s
    if seDisp w = 1 then
      let e : Wrote := ⟨(va.toNat - (s.entryVa y 0).toNat) / 2048, va, seFatal w, bits (old.getD 0 0) 63 48, seCause w, dieOf core⟩
      s.updTrap y (fun t => { t with wrote := t.wrote ++ [e] })
    else s

/-- The leaves of a context's own tree: where each page begins in its space, and its size (01 R15-R18). -/
def State.treeLeaves (s : State) (x : Nat) : Nat → Nat → Nat → Nat → List (Nat × Nat)
  | 0, _, _, _ => []
  | n + 1, lvl, base, va =>
    let step := match lvl with | 0 => 2 ^ 42 | 1 => 2 ^ 29 | _ => 2 ^ 16
    (List.range (if lvl = 0 then 1024 else 8192)).flatMap (fun i =>
      let ea := BitVec.ofNat 64 (base + 8 * i)
      let at0 : Option Nat := match (s.chain x).drop 1 with
        | [] => some ea.toNat
        | up => (match (xlate up .read true ea s).2 with | .ok t => some t.pa | .error _ => none)
      match at0 with
      | none => []
      | some pa =>
        let e := s.rdP64 pa
        if !bit e 0 then []
        else if bit e 1 then [(va + i * step, step)]
        else s.treeLeaves x n (lvl + 1) (bits e 51 16 * 65536) (va + i * step))

/-- Metadata of every line that a context can name, and of its windows' checked ranges, as never read or written (03 R94). -/
def State.freshLines (s : State) (x : Nat) : State :=
  let leaves := s.treeLeaves x 3 0 (bits (s.cw x 1) 51 16 * 65536) 0
  let pages4k := leaves.flatMap (fun e => (List.range (e.2 / 4096)).filterMap (fun k =>
    match (xlate (s.chain x) .read true (BitVec.ofNat 64 (e.1 + 4096 * k)) s).2 with
    | .ok t => some (t.pa / 4096)
    | .error _ => none))
  let md := SMap.keep s.mem.md (fun k _ => !pages4k.contains (k / 64))
  let mine (k : Nat) : Bool := (s.ctx x).win.any (fun w => w.1 == k / 2 ^ 25 && (let r := w.2.chkRange; r.1 ≤ k % 2 ^ 25 && k % 2 ^ 25 < r.2))
  let sp := SMap.keep s.mem.spadMd (fun k _ => !mine (k * 64))
  { s with mem := { s.mem with md := md, spadMd := sp } }

/-- Section 11: the rows of a side, with the poison marks of their lines (02 R44). -/
def State.importRows (s : State) (x core side : Nat) (bs marks : List Byte) : State :=
  let lo := accKey core (2048 * side) 0
  let hi := accKey core (2048 * (side + 1)) 0
  let r0 := core * 4096 + 2048 * side
  let rows : SMap W32 := SMap.entries 0 lo ((chunks 4 131072 bs).map (fun b => BitVec.ofNat 32 (ofBytes b)))
  let bad : SMap Bool := SMap.entries false r0 ((chunks 256 2048 marks).map (fun b => b.any (· != 0)))
  if s.coreAway x core then
    s.updAside (s.tenant x) (fun v => { v with acc := SMap.splice v.acc lo hi rows, accPsn := SMap.splice v.accPsn r0 (r0 + 2048) bad })
  else { s with mem := { s.mem with acc := SMap.splice s.mem.acc lo hi rows, accPsn := SMap.splice s.mem.accPsn r0 (r0 + 2048) bad } }

/-- An image loaded into a child (15 R420). -/
def State.importImage (s : State) (x : Nat) (m : Image) : State :=
  let order := x :: freshIds (s.ctxs.map Prod.fst) (m.ds.length - 1)
  let cs := s.coresOf x
  let cl := s.cluList x
  let s := (List.range m.ds.length).foldl (fun s i => s.importCtx x order m i) s
  let s := order.zip (m.sec 3) |>.foldl (fun s e => if bit (s.cw e.1 3) 0 then (s.devWrite e.1 (s.queueVa e.1 0) e.2).1 else s) s
  let s := s.importAgents order cs m [0, 1, 2, 3] 81920
  let s := s.importAgents order cs m [4, 5] 16384
  let s := (cs.zip (m.sec 6)).foldl (fun s e => s.importCore x e.1 e.2) s
  let (s, hs) := (m.sec 8).foldl (fun (y : State × List Nat) b => let (s, h) := y.1.importBook x b; (s, y.2 ++ [h])) (s, [])
  let s := (m.sec 7).foldl (fun s b => s.importCmd x m hs b) s
  let s := ((order.flatMap (fun y => cs.map (fun k => (y, k)))).zip (m.sec 9)).foldl (fun s e => s.importCounters e.1.1 e.1.2 e.2) s
  let s := (cl.zip ((m.sec 10).zip (m.marksOf 10))).foldl (fun s e =>
    let a := spKey e.1 (s.win x e.1).base
    let s := s.wrBytes true a e.2.1
    (List.range (e.2.1.length / 64)).foldl (fun s i => s.setPsn true (a + 64 * i) (((e.2.2.drop (64 * i)).take 64).any (· != 0))) s) s
  let s := (m.rows.zip ((m.sec 11).zip (m.marksOf 11))).foldl (fun s e => s.importRows x (cs.getD e.1.1 0) e.1.2 e.2.1 e.2.2) s
  let s := (m.sec 4).foldl (fun s b => s.importCont order cs b) s
  let s := m.streams.foldl (fun s w => s.importStream x order cs w) s
  let s := order.foldl (fun s y => s.freshLines y) s
  let saved : Saved := ⟨[], [], 0, [], m.frc, [], []⟩
  let s := order.foldl (fun s y => s.updCtx y (fun c => { c with saved := some saved })) s
  s.updCtx x (fun c => { c with stt := 3 })

/-- IMPORT_COMPLETE (15 R420): the image loaded and ST 4 written, or ST 5 with nothing changed. -/
def execImportComplete (ctx : Nat) (s : State) : Out :=
  if !s.logBusy ctx true then .next s
  else
    let w := (s.ctx ctx).dirty.blk
    let x := (w.getD 0 0).toNat
    let tasks := s.book.tasks.any (fun e => (s.chain e.2.ctx).contains x)
    let img := if (s.ctx x).stt = 1 ∧ !tasks then s.readImage ctx x (w.getD 4 0) (bits (w.getD 5 0) 31 0) else none
    match img with
    | none => .next ((s.writeSt ctx 5 0).endLog ctx)
    | some m =>
      let len := match (s.devRead ctx (w.getD 4 0) 8).2 with | some b => ofBytes b / 2 ^ 32 | none => 0
      .next (((s.importImage x m).writeSt ctx 4 len).endLog ctx)

end Sys2Proof.Machine
end

