-- ==== Sys2Proof/Machine/System.lean ====
section
/-! DEFINITION. TLB.INV (13 R370, 01 R38-R40) and CORE.RESET (13 R373, 06 R175, 04 R118). -/

namespace Sys2Proof.Machine

/-- TLB.INV (13 R370): the invalidation word's rules, who may issue the form, and the invalidation begun. -/
def State.tlbInv (u : U) (s : State) : Out :=
  governed u s fun s =>
    let w := s.sA u
    let kind := bits w 17 16
    let b := u.b.toNat
    let c := s.myCtx
    let x := if bits w 15 0 = 0 then c else bits w 15 0
    if bits w 63 18 ≠ 0 ∨ kind = 3 ∨ (kind = 0 ∧ (b < 2 ∨ b % 2 = 1)) ∨ (kind = 1 ∧ b ≠ 0) then .next s.illegal
    else
      let live := (SMap.find? s.ctxs x).isSome
      let ok := live && (if kind = 2 then (s.ctx c).depth == 0 else (s.chain x).contains c)
      if !s.toksOk [u.c.toNat] || !ok then .next s.priv
      else
        let me := agKey s.cu.core s.cu.st
        let before := (s.jobs.filter (fun j => j.ag == me && (match j.kind with | .tlbRange _ _ => true | .tlbSpace => true | .handle _ => true | _ => false))).map (fun j => j.id)
        match kind with
        | 0 => s.startJob u (.tlbRange (s.sB u).toNat (s.rdS (b + 1)).toNat) x u.c.toNat before id
        | 1 => s.startJob u .tlbSpace x u.c.toNat [] id
        | _ => s.startJob u (.handle (s.sB u).toNat) x u.c.toNat [] id

/-- TLB.INV, range form (13 R370). -/
def execTlbInvRange (u : U) (s : State) : Out := s.tlbInv u
/-- TLB.INV, whole-space form. -/
def execTlbInvSpace (u : U) (s : State) : Out := s.tlbInv u
/-- TLB.INV, handle form. -/
def execTlbInvHandle (u : U) (s : State) : Out := s.tlbInv u

/-- The core to which a reset core's entries of a context move (06 R175). -/
def State.resetTo (s : State) (x core : Nat) : Option Nat :=
  let cs := (s.coresOf x).filter (· != core)
  match (span 1 7).map (fun i => cluOf core * 8 + (core % 8 + i) % 8) |>.find? cs.contains with
  | some k => some k
  | none => match cs.find? (fun k => dieOf k == dieOf core) with | some k => some k | none => cs.head?

/-- A running continuation as the reset pushes it again (13 R373): with the record of its last park, or as a new item. -/
def State.requeued (s : State) (core st : Nat) (it : Item) : Cont :=
  let a := s.ag core st
  let clk := s.clockOf (s.raceOf core st)
  match it.place with
  | none => ⟨it.ctx, it.launch, it.index, it.workid, it.pin, true, none, [], true, 0, 0, 0, [], a.held, clk, [], core⟩
  | some p =>
    let d := (SMap.find? (s.ctx it.ctx).recs p).getD [0, 0, 0]
    let w25 := d.getD 2 0
    let n := bits w25 31 16
    let chain := if n = 0 then [] else s.rasChain it.ctx (rasBlocksFor n) (bits w25 15 0)
    ⟨it.ctx, it.launch, it.index, it.workid, it.pin, false, some p, [], true, d.getD 1 0, a.live, n, chain, a.held, clk, [], core⟩

/-- The register of a slot that waits for a booking handle goes with the slot's thread (13 R360). -/
def State.forgetDest (s : State) (core st : Nat) : State :=
  let drop (w : Want) : Want := { w with dest := w.dest.filter (fun d => !(d.1 == core && d.2.1 == st)) }
  { s with book := { s.book with tasks := s.book.tasks.map (fun (e : Nat × Task) => (e.1, { e.2 with want := e.2.want.map drop })) } }

/-- A thread slot of a reset core (13 R373): its continuation pushed again, or over as by TASK.EXIT. -/
def State.resetSlot (s : State) (core st : Nat) (rq : Bool) : State :=
  let a := s.ag core st
  match a.item with
  | none => s
  | some it =>
    let s := s.forgetDest core st
    if !rq then s.exitThread core st
    else
      let k := s.requeued core st it
      let s := (s.closePath (s.raceOf core st)).capEpoch (s.raceOf core st)
      let s := a.ras.blocks.foldl (fun s b => s.dropBlock it.ctx b) s
      let s := (s.claim it.ctx k.rasBlocks).clearParked core st
      let s := s.setAg core st a.vacant
      let s := match k.place with | some p => s.setRecSt it.ctx p 2 | none => s
      s.updCore core (fun c => { c with deque := k :: c.deque })

/-- A reset core's continuations move, context by context, ready ones behind the entries of the cores that take them, waiting ones with them
(06 R175). -/
def State.resetDeque (s : State) (core : Nat) : State :=
  let s := (s.core core).deque.foldl (fun s k =>
    match s.resetTo k.ctx core with
    | none => s
    | some dst =>
      let s := s.updCore core (fun c => { c with deque := c.deque.erase k })
      let (s, k) := s.moveCont core dst k
      s.updCore dst (fun c => { c with deque := c.deque ++ [k] })) s
  (s.core core).waiting.foldl (fun s k =>
    match s.resetTo k.ctx core with
    | none => s
    | some dst =>
      let s := s.updCore core (fun c => { c with waiting := c.waiting.erase k })
      let (s, k) := s.moveCont dst dst k
      s.updCore dst (fun c => { c with waiting := c.waiting ++ [k] })) s

/-- Everything that a reset does to a core but for the commands still on their way to a boundary (13 R373). -/
def State.resetCore (s : State) (core : Nat) (rq : Bool) : State :=
  let s := (List.range 4).foldl (fun s st => s.resetSlot core st rq) s
  let s := s.resetDeque core
  let hit (b : Booking) : Bool := b.live && b.steps.any (fun x => sCls x.w0 == 0 && x.idx / 2 == core && !x.retired && (!sAny x.w0 || x.begun || !x.slots.isEmpty))
  let s := ((s.book.recs.filter (fun e => hit e.2)).map Prod.fst).foldl (fun s k => s.cancelBooking k) s
  let fed : List (Nat × Nat) := (s.core core).eq.flatMap (fun (q : Nat × List Cmd) => q.2.map (fun c => (ctlHandle c.ctl, ctlStep c.ctl)))
  let s := fed.foldl (fun s e => if (s.bookAt e.1).isSome then s.updStep (hKey e.1) e.2 (fun x => { x with begun := false }) else s) s
  let drop (l : List Cmd) : List Cmd := l.filterMap (fun c =>
    if c.started && c.fault.isNone && !c.ended then some { c with susp := 4 } else none)
  let s := s.updCore core (fun c => { c with eq := (c.eq.map (fun (q : Nat × List Cmd) => (q.1, drop q.2))).filter (fun q => !q.2.isEmpty) })
  let s := [4, 5].foldl (fun s st => if (s.ag core st).item.isSome then s.haltSide core st else s) s
  let s := (s.core core).dq.foldl (fun s e => e.2.blocks.foldl (fun s b => s.dropBlock e.2.own b) s) s
  let s := s.updCore core (fun c => { c with dq := [], fmtq := [], toks := [], tokClk := [], tokovf := 0, bad := [] })
  let s := { s with ctxs := s.ctxs.map (fun (e : Nat × Ctx) => (e.1, { e.2 with froze := SMap.del e.2.froze core })) }
  let acc := SMap.splice s.mem.acc (accKey core 0 0) (accKey (core + 1) 0 0) []
  let psn := SMap.splice s.mem.accPsn (core * 4096) ((core + 1) * 4096) []
  { s with mem := { s.mem with acc := acc, accPsn := psn } }

/-- CORE.RESET (13 R373). -/
def execCoreReset (u : U) (s : State) : Out :=
  governed u s fun s =>
    let v := s.sA u
    let core := bits v 6 0
    let c := s.myCtx
    if bits v 63 9 ≠ 0 ∨ bit v 7 then .next s.illegal
    else if !s.toksOk [u.c.toNat] || core == s.cu.core || !((s.ctx c).depth == 0 || s.wholeEngine c core) then .next s.priv
    else s.startJob u (.reset core) c u.c.toNat [] (fun s => (s.resetCore core (bit v 8)).settled)

end Sys2Proof.Machine
end

