-- ==== Sys2Proof/Machine/Csr.lean ====
section
/-! DEFINITION. Control and status registers (13 R368, R369): who reaches each, what it reads, what a write does. -/

namespace Sys2Proof.Machine

/-- Side of the running agent (15 R404). -/
def State.mySide (s : State) : Nat := sideOf s.cu.st

/-- The check of a CSR access before its value (13 R368, R369, 16 R429): LIVE on a sidecar is the wrong agent's; then the Who column. -/
def State.csrGate (s : State) (n : Nat) : Option (State → State) :=
  let d := (s.ctx s.myCtx).depth
  if n = 0x012 ∧ isSide s.cu.st then some State.wrongAgent
  else if ((n = 0x01D ∨ n = 0x01E) ∧ 1 < d) ∨ (0x040 ≤ n ∧ n < 0x080 ∧ d ≠ 0) then some State.priv
  else if 0x100 ≤ n ∧ !s.holdsSide s.myCtx s.cu.core ((if n < 0x110 then n - 0x100 else (n - 0x110) / 2) / 8) then some State.priv
  else none

/-- VCSTAT of the running agent's side: one register on an unsplit core (10 R303, 15 R404). -/
def State.myVc (s : State) : Nat := if s.wholeEngine s.myCtx s.cu.core then 0 else s.mySide

/-- The TOKOVF bits of the sides that the context holds (04 R97, R100). -/
def State.ovfMask (s : State) : W64 :=
  BitVec.ofNat 64 ((if s.holdsSide s.myCtx s.cu.core 0 then 0xFFFF else 0) + (if s.holdsSide s.myCtx s.cu.core 1 then 0xFFFF0000 else 0))

/-- FEAT3 (16 R429): the counter events that the device has. -/
def State.feat3 (s : State) : W64 := if s.dev.featSet && !s.chkOn then 0x7FFE else 0xFFFE

/-- FEAT0-FEAT3 (17 R438). -/
def State.feat (s : State) (k : Nat) : W64 :=
  match k with
  | 0 => 0xFF
  | 1 => BitVec.ofNat 64 (presentHi s.dev + s.dev.hbm % 256 * 256)
  | 2 => BitVec.ofNat 64 (s.dev.chip % 256 + s.dev.trained % 65536 * 65536)
  | _ => s.feat3

/-- Whether the device lacks the event that a counter selects (16 R430). -/
def State.pmcLost (s : State) (k : Nat) : Bool :=
  let ev := bits (SMap.get 0 (s.ctx s.myCtx).pmsel (s.cu.core * 16 + k)) 15 0
  ev != 0 && (16 ≤ ev || !bit s.feat3 ev)

/-- PREQ as the context's agent reads it (14 R389, 15 R410, R412). -/
def State.preq (s : State) : W64 :=
  let c := s.myCtx
  let r := s.stopAsked c || s.sideAsked c s.cu.core s.mySide
  let wd := (s.chain c).any (fun x => (s.ctx x).req && (s.ctx x).reqWd)
  BitVec.ofNat 64 (b2n (r && wd) * 2 + b2n r)

/-- PDEAD (14 R389): the cycles until the earliest of the forced saves asked for, and the context's own limit. -/
def State.pdead (s : State) : W64 :=
  let c := s.myCtx
  let key := s.cu.core * 2 + s.mySide
  let l := (s.chain c).filterMap (fun x => if (s.ctx x).req then some (s.ctx x).left else none)
    ++ (s.chain c).filterMap (fun x => (SMap.find? (s.ctx x).sideReq key).map (fun t => t - s.cycle))
  let left := match l with | [] => 0 | y :: t => t.foldl min y
  BitVec.ofNat 64 (min left 0xFFFFFFFF * 2 ^ 32 + bits (s.cw c 5) 63 32)

/-- A CSR's value (13 R369). Inside a flag's bound a VSTAT flag may not have landed (05 R148). -/
def State.csrValue (s : State) (n : Nat) : W64 :=
  let c := s.myCtx
  let x := s.ctx c
  let core := s.cu.core
  let clu := cluOf core
  let w := s.win c clu
  match n with
  | 0x000 => BitVec.ofNat 64 (x.depth * 65536 + c)
  | 0x001 => x.trap.tvec
  | 0x002 => x.trap.mode
  | 0x003 => x.trap.tcausea
  | 0x004 => x.trap.tcauseb
  | 0x005 => x.trap.taddra
  | 0x006 => x.trap.taddrb
  | 0x007 => x.trap.tframe
  | 0x008 => s.preq
  | 0x009 => s.pdead
  | 0x00A => BitVec.ofNat 64 (x.wdSt * 2 ^ 62 + x.wdCnt)
  | 0x00B => BitVec.ofNat 64 (bits (s.cw c 5) 31 0)
  | 0x010 => (s.me.landFlags s.cycle).vstat
  | 0x011 => s.me.issdiag
  | 0x012 => s.me.live
  | 0x013 => SMap.get 0 (s.core core).vcstat s.myVc
  | 0x014 => (s.core core).tokovf &&& s.ovfMask
  | 0x018 => BitVec.ofNat 64 w.base
  | 0x019 => BitVec.ofNat 64 w.lim
  | 0x01A => BitVec.ofNat 64 (w.cap * 2 ^ 32 + w.chkLen * 2 ^ 16 + w.chkBase)
  | 0x01B => setBits (setBits (s.cw c 4) 63 52 0) 15 12 0
  | 0x01C => s.accFree c core
  | 0x01D => BitVec.ofNat 64 (b2n x.chkBusy * 2)
  | 0x01E => (s.ctx (s.tenant c)).blog.reg
  | 0x01F => x.dirty.reg
  | 0x020 => x.dbg.reg
  | n =>
    if n < 0x034 then s.feat (n - 0x030)
    else if n < 0x048 then SMap.get 0 s.dev.afw (dieOf core * 8 + (n - 0x040))
    else if n < 0x060 then SMap.get 0 s.dev.iset (n - 0x050)
    else if n < 0x080 then SMap.get 0 s.dev.hsem (n - 0x060)
    else if n < 0x110 then SMap.get 0 x.pmsel (core * 16 + (n - 0x100))
    else
      let k := (n - 0x110) / 2
      if s.pmcLost k then BitVec.allOnes 64
      else if n % 2 = 0 then BitVec.ofNat 64 (bits (SMap.get 0 x.pmc (core * 16 + k)) 31 0)
      else SMap.get 0 x.pmsh (core * 16 + k)

/-- What a read leaves behind (16 R430): a read of PMCn.LO latches the upper bits in the shadow. -/
def State.csrTouched (s : State) (n : Nat) : State :=
  let k := s.cu.core * 16 + (n - 0x110) / 2
  if 0x110 ≤ n ∧ n % 2 = 0 ∧ !s.pmcLost ((n - 0x110) / 2) then
    s.updCtx s.myCtx (fun x => { x with pmsh := SMap.set 0 x.pmsh k (BitVec.ofNat 64 (bits (SMap.get 0 x.pmc k) 62 32)) })
  else s

/-- What a CSR write comes to. -/
inductive CsrRes where
  | done (s : State)
  | stop (s : State)
  | wait

/-- A write that clears the flags written 1 (05 R147, R148): those landed in earlier cycles; a flag that lands in this cycle or later ends set. -/
def State.wrVstat (s : State) (v : W64) : State :=
  s.updMe (fun a => let b := a.landFlags (s.cycle - 1); { b with vstat := b.vstat &&& ~~~ v })

/-- A write of CHKREG (02 R61, R62, 17 R438). -/
def State.wrChkreg (s : State) (v : W64) : State :=
  let clu := cluOf s.cu.core
  let w := s.win s.myCtx clu
  let len := bits v 22 16
  let base := bits v 8 0
  if !s.chkOn ∨ w.cap < len ∨ w.lim - w.base < (base + len) * 65536 then s
  else s.putWin s.myCtx clu { w with chkBase := base, chkLen := len }

/-- A write of ACCFREE (02 R46, R51): the columns withdrawn are emptied first. -/
def State.wrAccfree (s : State) (v : W64) : CsrRes :=
  let c := s.myCtx
  let core := s.cu.core
  if (s.accRows c core).2 = 0 then .done s
  else
    let gone := (List.range 64).filter (fun k => bit (s.accFree c core) k && !bit v k)
    match s.evictAll core ⟨gone, [], none, false⟩ (s.quartersIn c core gone) with
    | (s, .ok) => .done (s.updCore core (fun k => { k with accfree := SMap.set 0 k.accfree c v }))
    | (s, e) => .stop (s.evictFault e)

/-- The race state of tenants forgotten (03 R93): clocks, frontiers, snapshots, epochs, and the states that releases left behind. -/
def State.forgetRaces (s : State) (ten : Nat → Bool) : State :=
  let mine (c : Nat) : Bool := ten (s.tenNo c)
  let races := SMap.keep s.races (fun k _ => !ten (keyTen k))
  let ce := SMap.keep s.cepochs (fun k _ => !ten (k / 16))
  let old (l : List Pub) : List Pub := l.filter (fun p => !ten p.ten)
  let pubs : SMap (List Pub) := (s.mem.pubs.map (fun (e : Nat × List Pub) => (e.1, old e.2))).filter (fun e => !e.2.isEmpty)
  let inWin (a : Nat) : Bool := s.ctxs.any (fun x => mine x.1 && x.2.win.any (fun w => w.1 == a / 2 ^ 25 && w.2.base ≤ a % 2 ^ 25 && a % 2 ^ 25 < w.2.lim))
  let arr := SMap.keep s.mem.arr (fun a _ => !inWin a)
  let cont (k : Cont) : Cont := if mine k.ctx then { k with clk := Clock.empty, bs := [] } else k
  let cmd (c : Cmd) : Cmd := if mine c.ctx then { c with clk := Clock.empty } else c
  let ag (a : Agent) : Agent :=
    if mine a.ctx then { a with readPubs := old a.readPubs, fencePub := none, pend := a.pend.map (fun p => { p with pubs := old p.pubs }) } else a
  let held (core d : Nat) : Bool := s.ctxs.any (fun x => mine x.1 && s.holdsSide x.1 core d)
  let core (there : Nat → Bool) (k : Core) : Core :=
    let tc := SMap.keep k.tokClk (fun t _ => !there (t / 16))
    let eq := k.eq.map (fun (q : Nat × List Cmd) => (q.1, q.2.map cmd))
    let dq := k.dq.map (fun (q : Nat × DataQ) => (q.1, { q.2 with pubs := q.2.pubs.map (fun p => if ten p.ten then { p with clk := Clock.empty, xclk := Clock.empty } else p) }))
    { k with tokClk := tc, eq := eq, dq := dq, deque := k.deque.map cont, waiting := k.waiting.map cont }
  let saved (x : Saved) : Saved := { x with agents := x.agents.map (fun (e : Nat × Agent) => (e.1, ag e.2)), cores := x.cores.map (fun (e : Nat × Core) => (e.1, core (fun _ => true) e.2)) }
  let ctx (e : Nat × Ctx) : Nat × Ctx :=
    if mine e.1 then (e.1, { e.2 with stopClk := Clock.empty, aside := saved e.2.aside, saved := e.2.saved.map saved }) else e
  let jobs := s.jobs.map (fun j => if mine j.ctx then { j with clk := Clock.empty } else j)
  let recs := s.book.recs.map (fun (e : Nat × Booking) => if mine e.2.ctx then (e.1, { e.2 with clk := Clock.empty }) else e)
  let tasks := s.book.tasks.map (fun (e : Nat × Task) => if mine e.2.ctx then (e.1, { e.2 with clk := Clock.empty, inh := Clock.empty }) else e)
  { s with
    races := races, cepochs := ce, mem := { s.mem with pubs := pubs, arr := arr }, book := { s.book with recs := recs, tasks := tasks }, jobs := jobs,
    agents := s.agents.map (fun (e : Nat × Agent) => (e.1, ag e.2)), cores := s.cores.map (fun (e : Nat × Core) => (e.1, core (held e.1) e.2)), ctxs := s.ctxs.map ctx }

/-- A write of CHKRESET (03 R93): the lines of the tenant's groups and windows as never read or written, the race state anew. -/
def State.wrChkreset (s : State) (v : W64) : State :=
  let c := s.myCtx
  let root := (s.ctx c).depth == 0
  if !bit v 0 || (s.ctx c).chkBusy then s
  else
    let t := s.tenNo c
    let s := s.forgetRaces (fun n => root || n == t)
    let md := SMap.keep s.mem.md (fun k _ => !(root || s.holdsGroup c (placeOf s.dev (k * 64)).1))
    let mine := s.ctxs.filter (fun e => root || (s.chain e.1).contains c)
    let inRange (a : Nat) : Bool := mine.any (fun e => e.2.win.any (fun w => let r := w.2.chkRange; w.1 == a / 2 ^ 25 && r.1 ≤ a % 2 ^ 25 && a % 2 ^ 25 < r.2))
    let sp := SMap.keep s.mem.spadMd (fun k _ => !inRange (k * 64))
    ({ s with mem := { s.mem with md := md, spadMd := sp } }).updCtx c (fun x => { x with chkBusy := true })

/-- A write of BLOG (07 R212-R214, 17 R438). -/
def State.wrBlog (s : State) (v : W64) : State :=
  let c := s.tenant s.myCtx
  let g := (s.ctx c).blog
  if bits v 1 0 = 3 then s
  else
    let old := bits g.reg 1 0
    let mode := if bit s.dev.featacc 5 then bits v 1 0 else old
    let flags : W64 := (g.reg &&& 0xC) &&& ~~~ v
    let reg := setBits (setBits (setBits (setBits 0 63 16 (bits v 63 16)) 1 0 mode) 3 3 (bits flags 3 3)) 2 2 (bits flags 2 2)
    let s := s.updBlog c (fun g => { g with reg := reg })
    if mode = 1 ∧ old ≠ 1 then s.updBlog c (fun g => { g with seq := 0, pos := 0, session := g.session + 1 })
    else if mode = 2 ∧ old ≠ 2 then
      let first := match s.logAt c 0 with | some w => bits (w.getD 0 0) 47 0 | none => 0
      let now := s.slotNo
      s.updBlog c (fun g => { g with seq := 0, pos := 0, base := now, first := first, session := g.session + 1 })
    else s

/-- A write of BCMBASE (16 R421): the control block and the breakpoint table are read again. -/
def State.wrBcmbase (s : State) (v : W64) : State :=
  let c := s.myCtx
  let reg := setBits (setBits 0 51 14 (bits v 51 14)) 2 0 (bits v 2 0)
  let s := s.updDbg c (fun d => { d with reg := reg, bps := [] })
  let base := BitVec.ofNat 64 (bits v 51 14 * 16384)
  match s.devRead c base 64 with
  | (s, none) => s.dbgOff c
  | (s, some bs) =>
    let w := words64 8 bs
    let rlog := bits (w.getD 1 0) 4 0
    let okLog := 8 ≤ rlog && rlog ≤ 24
    let ring := bits (w.getD 0 0) 51 6 * 64
    let s := s.updDbg c (fun d => { d with reg := if okLog then d.reg else setBits d.reg 2 2 0, ring := ring, rlog := rlog, head := w.getD 2 0, lostAll := w.getD 4 0, lost := 0 })
    match s.devRead c (base + 0x100) 256 with
    | (s, none) => s.dbgOff c
    | (s, some bs) => s.updDbg c (fun d => { d with bps := (chunks 32 8 bs).map (words64 4) })

/-- Offset in a set's span of a group's location (02 R69). -/
def spanOff (w : W64) (g l : Nat) : Option Nat :=
  let n := 2 ^ isetWays w
  if isetFirst w ≤ g ∧ g < isetFirst w + n then some (l / 4096 * (4096 * n) + (g - isetFirst w) * 4096 + l % 4096) else none

/-- The group and location of a span offset, as a memory key (02 R69). -/
def spanKey (w : W64) (u : Nat) : Nat :=
  let n := 2 ^ isetWays w
  (isetFirst w + u / 4096 % n) * 2 ^ 40 + u / (4096 * n) * 4096 + u % 4096

/-- Whether a group's location lies in a set's metadata carve-out (02 R71). -/
def carved (w : W64) (g l : Nat) : Bool :=
  isetEn w && isetCkg w != 0 && (match spanOff w g l with | some u => carveFrom w ≤ u && u < isetSize w | none => false)

/-- The checkable line whose metadata stands where another set kept that of a line, by its physical line number (02 R70, R71). -/
def mdMove (old new : W64) (key : Nat) : Option Nat :=
  let p := spanKey old (carveFrom old + (key * 64 - isetBase old - checkFrom old) / 64 * 16)
  if !carved new (p / 2 ^ 40) (p % 2 ^ 40) then none
  else match spanOff new (p / 2 ^ 40) (p % 2 ^ 40) with
    | none => none
    | some q => some ((isetBase new + checkFrom new + (q - carveFrom new) / 16 * 64) / 64)

/-- A write of ISETn (02 R68-R71). -/
def State.wrIset (s : State) (n : Nat) (v : W64) : State :=
  let w := v &&& 0x873F0007
  let k := 2 ^ isetWays w
  let meets (x : W64) : Bool := isetEn x && isetFirst x < isetFirst w + k && isetFirst w < isetFirst x + 2 ^ isetWays x
  let others := s.dev.iset.any (fun e => e.1 != n && meets e.2)
  let ok := isetWays w ≤ 6 && isetFirst w % k == 0 && isetCkg w ≤ 4 && !others
  let new := if isetEn w && !ok then setBits w 31 31 0 else w
  let old := SMap.get 0 s.dev.iset n
  let oldC := if isetEn old then isetCkg old else 0
  let newC := if isetEn new then isetCkg new else 0
  let inSpan (x : W64) (key : Nat) : Bool := isetEn x && isetBase x ≤ key * 64 && key * 64 < isetBase x + isetSize x
  let inOld (key : Nat) : Bool := inSpan old key
  let inNew (key : Nat) : Bool := inSpan new key
  let stay := SMap.keep s.mem.md (fun key _ => !inOld key && !inNew key)
  let md : SMap (W64 × W64) :=
    if oldC < newC then stay
    else (s.mem.md.filter (fun e => inOld e.1)).foldl (fun m e => match mdMove old new e.1 with | some q => SMap.set (0, 0) m q e.2 | none => m) stay
  let freed (a : Nat) : Bool := carved old (a / 2 ^ 40) (a % 2 ^ 40) && !carved new (a / 2 ^ 40) (a % 2 ^ 40)
  let bs := SMap.keep s.mem.bytes (fun a _ => !freed a)
  let ps := SMap.keep s.mem.psn (fun l _ => !freed (l * 64))
  { s with mem := { s.mem with md := md, bytes := bs, psn := ps }, dev := { s.dev with iset := SMap.set 0 s.dev.iset n new } }

/-- Where the states published by the releases of a semaphore stand. -/
def semKey (n : Nat) : Nat := 2 ^ 62 + n

/-- A write of HSEMn by a device agent (17 R437): an acquire at .sys, a release at .sys that closes the path, or nothing. -/
def State.wrHsem (s : State) (n : Nat) (v : W64) : CsrRes :=
  let w := SMap.get 0 s.dev.hsem n
  let put (s : State) (x : W64) : State := ({ s with dev := { s.dev with hsem := SMap.set 0 s.dev.hsem n x } }).semServed n 3
  if bits v 1 0 = 3 ∧ bits w 1 0 = 0 then
    let l := (SMap.get [] s.mem.pubs (semKey n)).filter (fun p => edgeOk p s.myRace 4)
    .done (put (l.foldl (fun s p => s.joinPub s.myRace p) s) (setBits w 1 0 3))
  else if bits v 1 0 = 0 ∧ bits w 1 0 = 3 then
    if !s.allPerformed then .wait
    else if s.exhausted 1 4 then .stop (s.raise .epoch 0 0 0)
    else
      let (s, p) := s.release 4
      let pubs := SMap.set [] s.mem.pubs (semKey n) [p]
      .done (put { s with mem := { s.mem with pubs := pubs } } (BitVec.ofNat 64 (bits v 63 32 * 2 ^ 32)))
  else .done (s.semServed n 3)

/-- A write of a counter's half (16 R430). -/
def State.wrPmc (s : State) (n : Nat) (v : W64) : State :=
  let k := s.cu.core * 16 + (n - 0x110) / 2
  s.updCtx s.myCtx (fun x =>
    let old := SMap.get 0 x.pmc k
    if n % 2 = 0 then { x with pmc := SMap.set 0 x.pmc k (setBits old 31 0 (bits v 31 0)) }
    else { x with pmc := SMap.set 0 x.pmc k (setBits old 62 32 (bits v 30 0)), pmsh := SMap.set 0 x.pmsh k (BitVec.ofNat 64 (bits v 30 0)) })

/-- A write of PMSELn (16 R429). -/
def State.wrPmsel (s : State) (k : Nat) (v : W64) : State :=
  s.updCtx s.myCtx (fun c => { c with pmsel := SMap.set 0 c.pmsel (s.cu.core * 16 + k) (pmselOf v) })

/-- A write of TRAPMODE (14 R381, 17 R438). -/
def State.wrTrapmode (s : State) (v : W64) : State :=
  let refl := bits v 63 32
  let rlog := min 8 (bits v 4 1)
  let mode := if bit s.dev.featacc 4 then bits v 0 0 else 0
  s.updTrap s.myCtx (fun t => { t with mode := BitVec.ofNat 64 (refl * 2 ^ 32 + rlog * 2 + mode) })

/-- A CSR's write (13 R368, 00 R6, R7): read-only registers and reserved bits take nothing. -/
def State.csrWrite (s : State) (n : Nat) (v : W64) : CsrRes :=
  let c := s.myCtx
  match n with
  | 0x001 => .done (s.updTrap c (fun t => { t with tvec := BitVec.ofNat 64 (bits v 51 2 * 4 + bits v 0 0) }))
  | 0x002 => .done (s.wrTrapmode v)
  | 0x007 => .done (s.updTrap c (fun t => { t with tframe := BitVec.ofNat 64 (bits v 51 11 * 2048), noArea := false }))
  | 0x010 => .done (s.wrVstat v)
  | 0x011 => .done (s.updMe (fun a => { a with issdiag := BitVec.ofNat 64 (bits v 0 0) }))
  | 0x012 => .done (s.updMe (fun a => { a with live := BitVec.ofNat 64 (bits v 63 1 * 2) }))
  | 0x013 => .done (s.updCore s.cu.core (fun k => { k with vcstat := SMap.set 0 k.vcstat s.myVc (SMap.get 0 k.vcstat s.myVc &&& ~~~ v) }))
  | 0x014 => let m := s.ovfMask; .done (s.updCore s.cu.core (fun k => { k with tokovf := k.tokovf &&& ~~~ (v &&& m) }))
  | 0x01A => .done (s.wrChkreg v)
  | 0x01C => s.wrAccfree v
  | 0x01D => .done (s.wrChkreset v)
  | 0x01E => .done (s.wrBlog v)
  | 0x01F => .done (s.dirtyWrite v)
  | 0x020 => .done (s.wrBcmbase v)
  | n =>
    if 0x050 ≤ n ∧ n < 0x060 then .done (s.wrIset (n - 0x050) v)
    else if 0x060 ≤ n ∧ n < 0x080 then s.wrHsem (n - 0x060) v
    else if 0x100 ≤ n ∧ n < 0x110 then .done (s.wrPmsel (n - 0x100) v)
    else if 0x110 ≤ n then .done (s.wrPmc n v)
    else .done s

/-- CSR number of a unit (13 R368). -/
def csrNo (u : U) : Nat := u.imm.toNat % 65536

/-- A CSR.RD of a unit's register (13 R368). -/
def State.csrRead (s : State) (u : U) : Out :=
  governed u s fun s =>
    match s.csrGate (csrNo u) with
    | some f => .next (f s)
    | none =>
      let v := s.csrValue (csrNo u)
      scalarDone u (s.csrTouched (csrNo u)) v 4

/-- A CSR.WR by its writing function (13 R368). -/
def State.csrStore (s : State) (u : U) (f : State → W64 → CsrRes) : Out :=
  governed u s fun s =>
    match s.csrGate (csrNo u) with
    | some g => .next (g s)
    | none =>
      match f s (s.sB u) with
      | .done s => .next (s.fin u)
      | .stop s => .next s
      | .wait => .next s.hold

/-- CSR.RD (13 R368). -/
def execCsrRd (u : U) (s : State) : Out := s.csrRead u

/-- CSR.WR (13 R368). -/
def execCsrWr (u : U) (s : State) : Out := s.csrStore u (fun s v => s.csrWrite (csrNo u) v)

/-- CSR.SWAP (13 R368): the old value to sd, s[b] to the register, as one step. -/
def execCsrSwap (u : U) (s : State) : Out :=
  governed u s fun s =>
    match s.csrGate (csrNo u) with
    | some g => .next (g s)
    | none =>
      let old := s.csrValue (csrNo u)
      match (s.csrTouched (csrNo u)).csrWrite (csrNo u) (s.sB u) with
      | .done s => scalarDone u s old 4
      | .stop s => .next s
      | .wait => .next s.hold

/-- CHKRESET_GO (03 R93): a CSR.WR of CHKRESET. -/
def execChkresetGo (u : U) (s : State) : Out := s.csrStore u (fun s v => .done (s.wrChkreset v))
/-- BLOG_WRITE (07 R212). -/
def execBlogWrite (u : U) (s : State) : Out := s.csrStore u (fun s v => .done (s.wrBlog v))
/-- BCMBASE_WRITE (16 R421). -/
def execBcmbaseWrite (u : U) (s : State) : Out := s.csrStore u (fun s v => .done (s.wrBcmbase v))
/-- CHKREG_WRITE (02 R62). -/
def execChkregWrite (u : U) (s : State) : Out := s.csrStore u (fun s v => .done (s.wrChkreg v))
/-- ACCFREE_WRITE (02 R46, R51). -/
def execAccfreeWrite (u : U) (s : State) : Out := s.csrStore u State.wrAccfree
/-- ISET_WRITE (02 R68-R71). -/
def execIsetWrite (u : U) (s : State) : Out := s.csrStore u (fun s v => .done (s.wrIset (csrNo u - 0x050) v))
/-- HSEM_ACQUIRE (17 R437): a CSR.WR that writes OWNER 11. -/
def execHsemAcquire (u : U) (s : State) : Out := s.csrStore u (fun s v => s.wrHsem (csrNo u - 0x060) v)
/-- HSEM_RELEASE (17 R437): a CSR.WR that writes OWNER 00. -/
def execHsemRelease (u : U) (s : State) : Out := s.csrStore u (fun s v => s.wrHsem (csrNo u - 0x060) v)
/-- PMC_LO_READ (16 R430): a CSR.RD of PMCn.LO. -/
def execPmcLoRead (u : U) (s : State) : Out := s.csrRead u
/-- PMC_HI_WRITE (16 R430): a CSR.WR of PMCn.HI. -/
def execPmcHiWrite (u : U) (s : State) : Out := s.csrStore u (fun s v => .done (s.wrPmc (csrNo u) v))

/-- CHKRESET_DONE (03 R93): BUSY clears. -/
def execChkresetDone (ctx : Nat) (s : State) : Out :=
  if (s.ctx ctx).chkBusy then .next (s.updCtx ctx (fun x => { x with chkBusy := false })) else .next s

end Sys2Proof.Machine
end

