-- ==== Sys2Proof/Machine/Errors.lean ====
section
/-! DEFINITION. Errors that arise in storage and in device-held structures (14 R394-R396, 02 R44), instruction-line fills (08 R229,
R232). -/

namespace Sys2Proof.Machine

/-- MEMORY_ERROR_DETECT (14 R394, 02 R44): the poison mark of a line or row is set. -/
def execMemoryErrorDetect (p : Place) (s : State) : Out :=
  match p with
  | .phys a => .next (s.setPsn false a true)
  | .spad clu ca => .next (if clu < 16 ∧ ca < spadSize then s.setPsn true (spKey clu ca) true else s)
  | .accRow core row => .next (if core < 128 ∧ row < 4096 then s.setRowPsn core row true else s)

/-- The UMEM record of a booking whose calendar slot or record is lost (14 R396), for its context. -/
def State.bookingLost (s : State) (k : Nat) : State :=
  match s.recOf k with
  | none => s
  | some b =>
    if !b.live then s
    else
      let s := s.cancelBooking k
      let c := b.ctx
      let core := (s.coresOf c).headD 0
      let t : TrapInfo := ⟨.umem, 5, BitVec.ofNat 64 (handleOf k b.gen), 0, 0, none, false, none⟩
      s.deliver ⟨Cause.umem.code, true, c, core, 15, 0, s.recordWords c core 15 t false noCapture []⟩ (s.candidates c .umem 5 false)

/-- STRUCTURE_ERROR (14 R396). -/
def execStructureError (x : Struct) (s : State) : Out :=
  match x with
  | .tlbEntry k => .next { s with dev := { s.dev with tlb := s.dev.tlb.eraseIdx k } }
  | .codeLine k => .next { s with dev := { s.dev with lines := s.dev.lines.eraseIdx k } }
  | .l2Line a =>
    let (g, l) := placeOf s.dev a
    let k := g * 2048 + l / 64 % 2048
    let set := SMap.get [] s.dev.l2 k
    if set.any (fun e => e.1 == l / 64 && e.2) then .next (s.setPsn false a true)
    else .next { s with dev := { s.dev with l2 := SMap.set [] s.dev.l2 k (set.filter (fun e => e.1 != l / 64)) } }
  | .calSlot cls idx slot =>
    match List.find? (fun (e : Nat × Booking) => e.2.live && e.2.steps.any (fun y => y.slots.contains slot && y.sharesOn cls idx != 0)) s.book.recs with
    | some e => .next (s.bookingLost e.1)
    | none => .next s
  | .record h =>
    match s.bookAt h.toNat with
    | some _ => .next (s.bookingLost (hKey h.toNat))
    | none => .next s

/-- LINE_FILL (08 R229, R232): a context's line read whole and parsed; a line that cannot be fetched is not kept. -/
def execLineFill (ctx : Nat) (va : W64) (s : State) : Out :=
  let line := va.toNat / 64 * 64
  if (SMap.find? s.ctxs ctx).isNone then .next s
  else
    match s.translate ctx .fetch false (BitVec.ofNat 64 line) with
    | (_, .error _) => .next s
    | (t, .ok x) =>
      if t.psn false x.pa then .next s
      else
        let us := fillLine (wordsOf (t.rdBytes false (x.pa / 64 * 64) 64))
        let t := t.l2Touch x.pa x.policy false
        let rest := t.dev.lines.filter (fun e => !(e.1 == ctx && e.2.1 == line))
        .next { t with dev := { t.dev with lines := (ctx, line, us) :: rest } }

end Sys2Proof.Machine
end

