-- ==== Sys2Proof/Machine/Host.lean ====
section
/-! DEFINITION. Host ports (17 R433-R439): frames, the host window, hardware semaphores. -/

namespace Sys2Proof.Machine

/-- A reply to a frame. -/
def State.reply (s : State) (port status : Nat) (data : List Byte) : State :=
  { s with hostOut := s.hostOut ++ [⟨port, status, data⟩] }

/-- A frame of a port served (17 R433, 21 R465, R470): nothing before the ports are enabled; ERR once the compute dies are off. -/
def State.frame (s : State) (port : Nat) (err : List Byte) (f : State → State) : Out :=
  if 2 ≤ port ∨ s.dev.boot = .off then .next s
  else if s.dev.boot = .dead then .next (s.reply port 1 err)
  else .next (f s)

/-- LEN and alignment (17 R434): 8 to 256 bytes in multiples of 8, aligned to 8, within 4 KiB. -/
def frameOk (a n : Nat) : Bool := 8 ≤ n && n ≤ 256 && n % 8 == 0 && a % 8 == 0 && a % 4096 + n ≤ 4096

/-- A register of the host window (17 R436): its value as the host reads it. -/
def State.winReg (s : State) (o : Nat) : W64 :=
  if o < 0x020 then s.feat (o / 8)
  else if o = 0x040 then s.dev.hstatWord
  else if 0x100 ≤ o ∧ o < 0x200 then SMap.get 0 s.dev.hsem ((o - 0x100) / 8)
  else if 0x200 ≤ o ∧ o < 0x280 then SMap.get 0 s.dev.fxcfg ((o - 0x200) / 8)
  else if o = 0x280 then s.dev.fxpeer
  else 0

/-- A write of FEATACC (17 R438, 21 R471): the first since the reset. -/
def State.wrFeatacc (s : State) (v : W64) : State :=
  if s.dev.featSet then s else { s with dev := { s.dev with featacc := v &&& 0xFF, featSet := true } }

/-- A write of HSTAT (17 R439): SEQ acknowledges the event shown. -/
def State.ackHstat (s : State) (v : W64) : State :=
  match s.dev.hstat with
  | w :: t =>
    if bits v 63 48 = bits w 63 48 then ({ s with dev := { s.dev with hstat := t, hstatOvf := false } }).showHstat s.dev.hstatWord else s
  | [] => s

/-- A write of FXCFGk (17 R441): a port that is not enabled is not trained. -/
def State.wrFxcfg (s : State) (k : Nat) (v : W64) : State :=
  let tr := if bit v 8 then s.dev.trained else s.dev.trained - (if s.dev.trained.testBit k then 2 ^ k else 0)
  { s with dev := { s.dev with fxcfg := SMap.set 0 s.dev.fxcfg k (v &&& 0x1FF), trained := tr } }

/-- A host write of a register of the host window (17 R436). -/
def State.winWrite (s : State) (o : Nat) (v : W64) : State :=
  if o = 0x020 then s.wrFeatacc v
  else if o = 0x040 then s.ackHstat v
  else if 0x200 ≤ o ∧ o < 0x280 then s.wrFxcfg ((o - 0x200) / 8) v
  else if o = 0x280 then { s with dev := { s.dev with fxpeer := v &&& 0x0000FFFF01FFFFFF } }
  else s

/-- The lines of an external access to memory (03 R95). -/
def State.extPieces (s : State) (a n : Nat) : List Piece :=
  (cutLines 64 (n / 64 + 2) a n).map (fun (x, k) => ⟨false, x, x - a, k, s.chkOn && inCheckable s.dev x && !s.chkPaused rootCtx, BitVec.ofNat 64 x, 0⟩)

/-- Bytes written from outside (03 R95, 04 R116): each line stored, a whole one without its mark, its metadata set where it is checked. -/
def State.extStore (s : State) (ps : List Piece) (data : List Byte) : State :=
  ps.foldl (fun s p =>
    let s := (s.storeOne p data).externalWrite p
    if p.sp then s else s.l2Touch p.a 0 true) (s.engUnshadow ps data)

/-- READ (17 R433-R436): a frame that breaks the rules or touches an absent byte returns all ones. -/
def execRead (port addr len : Nat) (s : State) : Out :=
  let ones := List.replicate len (0xFF : Byte)
  s.frame port ones fun (s : State) =>
    let a := addr % 2 ^ 53
    if !frameOk addr len then s.reply port 1 ones
    else if a.testBit 52 then s.reply port 0 ((List.range (len / 8)).flatMap (fun i => toBytes 8 (s.winReg (a % 4096 + 8 * i)).toNat))
    else if !(span a len).all (present s.dev) then s.reply port 1 ones
    else
      let ps := s.extPieces a len
      let bad := ps.any (fun p => s.psn false p.a)
      (ps.foldl (fun s p => s.l2Touch p.a 0 false) s).reply port (if bad then 2 else 0) (s.rdBytes false a len)

/-- A WRITE or WRITE.REL frame (17 R434, R436): performed in arrival order, acknowledged. -/
def State.hostWrite (s : State) (port addr : Nat) (data : List Byte) : Out :=
  s.frame port [] fun (s : State) =>
    let a := addr % 2 ^ 53
    let n := data.length
    if !frameOk addr n then s.reply port 1 []
    else if a.testBit 52 then
      ((List.range (n / 8)).foldl (fun s i => s.winWrite (a % 4096 + 8 * i) (BitVec.ofNat 64 (ofBytes ((data.drop (8 * i)).take 8)))) s).reply port 0 []
    else if !(span a n).all (present s.dev) then s.reply port 1 []
    else (s.extStore (s.extPieces a n) data).reply port 0 []

/-- WRITE (17 R433, R436). -/
def execWrite (port addr : Nat) (data : List Byte) (s : State) : Out := s.hostWrite port addr data

/-- WRITE.REL (17 R436): as WRITE; every earlier write of the port has been performed. -/
def execWriteRel (port addr : Nat) (data : List Byte) (s : State) : Out := s.hostWrite port addr data

/-- The lines of an external write at a window offset of a context (17 R435, R443); none where it leaves the window. -/
def State.extSpad (s : State) (c clu o n : Nat) : Option (List Piece) :=
  (s.accessSp c clu (BitVec.ofNat 64 o) n).map (fun ps => ps.map (fun p => { p with chk := p.chk && !s.chkPaused c }))

/-- SPWRITE (17 R435): bytes written into the root's window, each line part counted into the arrival word after it. -/
def execSpwrite (port clu off : Nat) (data : List Byte) (arv : Bool) (aoff : Nat) (s : State) : Out :=
  s.frame port [] fun (s : State) =>
    let n := data.length
    let o := off % 2 ^ 25
    let k := clu % 16
    let word := s.arrAddr rootCtx k (BitVec.ofNat 64 (aoff % 2 ^ 22 * 8))
    match s.extSpad rootCtx k o n with
    | none => s.reply port 1 []
    | some ps =>
      if !frameOk off n ∨ (arv ∧ word.isNone) then s.reply port 1 []
      else
        let s := s.extStore ps data
        let s := match arv, word with
          | true, some w => ps.foldl (fun (s : State) (p : Piece) => s.arrive w p.n Clock.empty 1) s
          | _, _ => s
        s.reply port 0 []

/-- A semaphore's word set. -/
def State.putSem (s : State) (n : Nat) (w : W64) : State := { s with dev := { s.dev with hsem := SMap.set 0 s.dev.hsem n w } }

/-- The resulting word of a SEM frame. -/
def State.semReply (s : State) (port n : Nat) : State := s.reply port 0 (toBytes 8 (SMap.get 0 s.dev.hsem n).toNat)

/-- Whether an event is a SEM request that waits in its cycle for those that the round robin serves first (17 R437). -/
def State.waitsTurn (s : State) (i : Instr) : Bool :=
  match i with
  | .semAcq p n => n < 32 && s.semAhead n (p + 1)
  | .semRel p n _ => n < 32 && s.semAhead n (p + 1)
  | _ => false

/-- An event put behind the other turns of its cycle. -/
def State.later (s : State) (i : Instr) : State :=
  let now := s.thisCycle
  { s with agenda := now ++ Turn.event i :: s.agenda.drop now.length }

/-- A SEM frame with ACQ (17 R437). -/
def execSemAcq (port n : Nat) (s : State) : Out :=
  s.frame port [] fun (s : State) =>
    let w := SMap.get 0 s.dev.hsem n
    if 32 ≤ n then s.reply port 1 []
    else
      let s := s.semServed n (port + 1)
      if bits w 1 0 = 0 then (s.putSem n (setBits w 1 0 (port + 1))).semReply port n
      else s.semReply port n

/-- A SEM frame with REL (17 R437): a release of HSEM30, or in recovery of HSEM31, is a request to the housekeeping core (21 R466, R467). -/
def execSemRel (port n : Nat) (data : W32) (s : State) : Out :=
  s.frame port [] fun (s : State) =>
    let w := SMap.get 0 s.dev.hsem n
    if 32 ≤ n then s.reply port 1 []
    else if bits w 1 0 = port + 1 then
      let s := s.semServed n (port + 1)
      let pubs := SMap.set [] s.mem.pubs (semKey n) []
      let hk := if n = 30 ∨ (n = 31 ∧ s.dev.boot = .recovery) then s.dev.hk ++ [(n, data)] else s.dev.hk
      let s := { s with mem := { s.mem with pubs := pubs }, dev := { s.dev with hk := hk } }
      (s.putSem n (BitVec.ofNat 64 (data.toNat * 2 ^ 32))).semReply port n
    else (s.semServed n (port + 1)).semReply port n

/-- FEATACC_WRITE (17 R438): a host write of FEATACC. -/
def execFeataccWrite (v : W64) (s : State) : Out := if s.dev.boot = .dead then .next s else .next (s.wrFeatacc v)

/-- HSTAT_ACK (17 R439): a host write of HSTAT. -/
def execHstatAck (v : W64) (s : State) : Out := if s.dev.boot = .dead then .next s else .next (s.ackHstat v)

end Sys2Proof.Machine
end

