-- ==== Sys2Proof/Machine/Fabric.lean ====
section
/-! DEFINITION. Fabric ports and flits (17 R440-R445, 07 R202-R203). -/

namespace Sys2Proof.Machine

/-- Whether the fabric works: the ports are enabled and the dies have power (21 R465, R470). -/
def Dev.linked (d : Dev) : Bool := d.boot != .off && d.boot != .dead

/-- A flit sent back over the port it came by (17 R440, R441): the tag echoed. -/
def State.answer (s : State) (k : Nat) (f : Flit) (kind : Nat) (w0 w1 w2 : W64) : State :=
  s.sendFlit k ⟨kind, s.dev.chip, (s.portPeer k).getD f.src, f.tag, 0, false, 0, [], w0, w1, w2⟩

/-- A flit received on a port (17 R440): of its kind and for this chip; a WRITE for another chip is answered by a WACK that accepts nothing. -/
def State.receive (s : State) (k kind : Nat) (f : Flit) (act : State → State) : Out :=
  if !s.dev.linked ∨ !s.dev.trained.testBit k ∨ f.kind ≠ kind then .next s
  else if f.dst ≠ s.dev.chip then .next (if kind = 1 then s.answer k f 2 0 0 0 else s)
  else .next (act s)

/-- FXCFG_WRITE (17 R441). -/
def execFxcfgWrite (k : Nat) (v : W64) (s : State) : Out := if s.dev.linked ∧ k < 16 then .next (s.wrFxcfg k v) else .next s

/-- The peer from which the slot counter is taken (17 R441): the lowest below this chip. -/
def State.syncPeer (s : State) : Option Nat :=
  let l := ((List.range 16).filterMap s.portPeer).filter (· < s.dev.chip)
  match l with | [] => none | x :: t => some (t.foldl min x)

/-- The slot counter set to a peer's. -/
def State.setSlot (s : State) (peer slot cyc : Nat) : State :=
  { s with slotNo := slot % 2 ^ 48, slotAt := s.cycle - cyc % 256, dev := { s.dev with syncFrom := some peer } }

/-- FABRIC_PORT_TRAINED (17 R441, 21 R471): the port trains; the side with the higher CHIPID takes its slot counter from its lowest peer,
once it runs at OP0. -/
def execFabricPortTrained (k : Nat) (slot cyc : Nat) (s : State) : Out :=
  let w := SMap.get 0 s.dev.fxcfg k
  if !s.dev.linked ∨ 16 ≤ k ∨ !bit w 8 ∨ s.dev.trained.testBit k then .next s
  else
    let s := { s with dev := { s.dev with trained := s.dev.trained + 2 ^ k } }
    let peer := bits w 7 0
    if s.syncPeer ≠ some peer then .next s
    else if s.dev.op = 0 then .next (s.setSlot peer slot cyc)
    else .next { s with dev := { s.dev with syncFrom := none } }

/-- FABRIC_PORT_LOST (17 R445): HSTAT kind 4; what was in flight waits for the training. -/
def execFabricPortLost (k : Nat) (s : State) : Out :=
  if s.dev.linked ∧ s.dev.trained.testBit k then
    .next (({ s with dev := { s.dev with trained := s.dev.trained - 2 ^ k } }).hstatPush 4 k 0)
  else .next s

/-- SLOTSYNC (17 R441, R445): the first from the peer sets the counter; each later one moves it by at most one cycle. -/
def execSlotsync (k : Nat) (f : Flit) (s : State) : Out :=
  s.receive k 0x20 f fun s =>
    let slot := bits f.w0 47 0
    let cyc := bits f.w0 55 48
    match s.syncPeer with
    | none => s
    | some p =>
      if s.portPeer k ≠ some p ∨ s.dev.op ≠ 0 then s
      else if s.dev.syncFrom ≠ some p then s.setSlot p slot cyc
      else
        let theirs := slot * 256 + cyc
        let ours := s.slotNo * 256 + (s.cycle - s.slotAt)
        if ours < theirs then { s with slotAt := s.slotAt - 1 }
        else if theirs < ours then { s with slotAt := s.slotAt + 1 }
        else s

/-- The fabric-peer context (17 R443). -/
def State.pctx (s : State) : Nat := bits s.dev.fxpeer 47 32

/-- The lines of an inbound part, where it lies in the peer context's window (17 R443). -/
def State.partPieces (s : State) (clu : Nat) (x : Part) : Option (List Piece) :=
  let n := x.data.length
  if s.pctx = 0 ∨ n = 0 ∨ 64 < x.start + n then none else s.extSpad s.pctx clu (x.line % 2 ^ 19 * 64 + x.start) n

/-- An accepted part written with its mark (04 R116). -/
def State.putPart (s : State) (ps : List Piece) (x : Part) : State :=
  let s := s.extStore ps x.data
  if x.psn then ps.foldl (fun (s : State) (p : Piece) => s.setPsn true p.a true) s else s

/-- FABRIC_WRITE (17 R443): each part inside the window is written and then counted; the WACK says which were. -/
def execFabricWrite (k : Nat) (f : Flit) (s : State) : Out :=
  s.receive k 1 f fun s =>
    let clu := f.clu % 16
    let word := s.arrAddr s.pctx clu (BitVec.ofNat 64 (f.aoff % 2 ^ 22 * 8))
    let parts := (f.parts.take 3).zipIdx.filterMap (fun e =>
      if f.arv && word.isNone then none else (s.partPieces clu e.1).map (fun ps => (e.2, e.1, ps)))
    let s := parts.foldl (fun (s : State) (e : Nat × Part × List Piece) =>
      let s := s.putPart e.2.2 e.2.1
      match f.arv, word with
      | true, some w => s.arrive w e.2.1.data.length Clock.empty 4
      | _, _ => s) s
    let mask := (parts.map (fun e => 2 ^ e.1)).foldl (· + ·) 0
    s.answer k f 2 (BitVec.ofNat 64 mask) 0 0

/-- A command of a queue by its number. -/
def State.cmdOf (s : State) (core q id : Nat) : Option Cmd := List.find? (fun (c : Cmd) => c.id == id) (s.eq core q)

/-- Once every flit of a command is answered, its refused parts stop it (17 R443): SPWIN in the stream, at the lowest of them. -/
def State.refusalDue (s : State) (core q id : Nat) : State :=
  match s.cmdOf core q id with
  | none => s
  | some c =>
    match c.refused with
    | [] => s
    | r :: t =>
      if c.fault.isSome || s.flights.any (fun f => f.cmd == id) then s
      else
        let a := BitVec.ofNat 64 (t.foldl (fun m e => min m e.1) r.1)
        s.engTrap core q c .xlate (faultWord .write ⟨(s.ctx c.ctx).depth, 8, 0, false, a, false⟩) a a

/-- Parts of a copy that were answered: position and length, accepted or not. -/
def State.ackCopy (s : State) (core q : Nat) (c : Cmd) (l : List ((Nat × Nat) × Bool)) : State :=
  let base := match c.kind with | .x src _ _ _ => src | _ => 0
  let c := l.foldl (fun (c : Cmd) e =>
    if e.2 then (let d := c.did e.1.1; { d with edge := c.edge || d.edge }) else { c with refused := c.refused ++ [(base + e.1.1, e.1.2)] }) c
  s.updCmd core q c.id (fun _ => c)

/-- Parts of a send entry that were answered; an entry delivered whole is settled (12 R348). -/
def State.ackSend (s : State) (core q : Nat) (c : Cmd) (n : Nat) (l : List ((Nat × Nat) × Bool)) : State :=
  match c.sends.find? (fun e => e.entry == n) with
  | none => s
  | some e =>
    let got := ((l.filter (·.2)).map (fun x => x.1.2)).foldl (· + ·) 0
    let bad := (l.filter (fun x => !x.2)).map (fun x => (e.src + x.1.1, x.1.2))
    let e' := { e with sent := e.sent + got }
    let c := { c.putSend e' with refused := c.refused ++ bad, edge := c.edge || past4K e.sent e'.sent }
    if bad.isEmpty ∧ e.len ≤ e'.sent then s.settleSend core q c e' else s.updCmd core q c.id (fun _ => c)

/-- WACK (17 R443): the parts it answers are done or refused. -/
def execWack (k : Nat) (f : Flit) (s : State) : Out :=
  s.receive k 2 f fun s =>
    match s.flights.find? (fun x => x.port == k && x.tag == f.tag) with
    | none => s
    | some x =>
      let s := { s with flights := s.flights.filter (fun y => y.tag != f.tag) }
      match s.cmdOf x.core x.st x.cmd with
      | none => s
      | some c =>
        let l := x.offs.zipIdx.map (fun e => (e.1, bit f.w0 e.2))
        (if x.entry = 0 then s.ackCopy x.core x.st c l else s.ackSend x.core x.st c (x.entry - 1) l).refusalDue x.core x.st x.cmd

/-- SENDREQ (17 R444): a slot reserved in the peer context's table, or RFULL. -/
def execSendreq (k : Nat) (f : Flit) (s : State) : Out :=
  s.receive k 4 f fun s =>
    let clu := f.clu % 16
    let buf := bits f.w0 11 0
    let w := s.win s.pctx clu
    match s.reserve w clu buf (bits f.w0 31 16) with
    | (s, none) => s.answer k f 6 0 0 0
    | (s, some (off, arv, aoff)) =>
      let s := match (s.bufferAt w.len buf).bind (fun o => s.extSpad s.pctx clu o 8) with
        | some ps => ps.foldl (fun (s : State) (p : Piece) => s.externalWrite p) s
        | none => s
      s.answer k f 5 (BitVec.ofNat 64 off) (BitVec.ofNat 64 (aoff * 8 + b2n arv)) 0

/-- The send entry that a reply answers: its queue, command and entry. -/
def State.askOf (s : State) (k tag : Nat) : Option (Nat × Cmd × SendSt) :=
  s.cores.findSome? (fun (e : Nat × Core) => (SMap.get [] e.2.eq 13).findSome? (fun (c : Cmd) =>
    (c.sends.find? (fun x => x.st == 1 && x.tag == tag && bits x.dest 47 44 == k)).map (fun x => (e.1, c, x))))

/-- RACCEPT (17 R444): the payload may go to the slot allotted. -/
def execRaccept (k : Nat) (f : Flit) (s : State) : Out :=
  s.receive k 5 f fun s =>
    match s.askOf k f.tag with
    | none => s
    | some (core, c, _) =>
      s.updCmd core 13 c.id (fun c => { c with sends := c.sends.map (fun x =>
        if x.st == 1 && x.tag == f.tag then { x with st := 2, off := bits f.w0 24 0, arv := bit f.w1 0, aoff := bits f.w1 24 3, sent := 0 } else x) })

/-- RFULL (17 R444): the second destination, or STAT 3. -/
def execRfull (k : Nat) (f : Flit) (s : State) : Out :=
  s.receive k 6 f fun s =>
    match s.askOf k f.tag with
    | none => s
    | some (core, c, e) =>
      if e.dst = 0 ∧ e.v2 then
        let e := { e with dst := 1 }
        s.sendTo core 13 (c.putSend { e with st := 5 }) c e 2
      else s.settleSend core 13 c e

/-- Whether the peer context holds an engine that a request names (17 R443). -/
def State.peerHolds (s : State) (cls idx sh : Nat) : Bool :=
  s.pctx != 0 && idx < classSize cls && 1 ≤ sh && sh ≤ (if cls = 0 then 2 else bookable cls) && (cls != 0 || sh == 1 || idx % 2 == 0)
    && s.holdsStep s.pctx cls idx sh

/-- Whether a remote leg fits on an engine from a slot (07 R198, fits). -/
def State.legFits (s : State) (cls idx sh start dur : Nat) : Bool :=
  s.slotNo < start && (span start dur).all (fun u => u ≤ s.slotNo + 1023 && (stepEngs cls idx sh).all (fun e =>
    s.slotOk s.pctx cls e.1 u && s.heldBut [] cls e.1 u + e.2 ≤ bookable cls))

/-- The earliest start from a slot on at which a remote leg fits. -/
def State.legStart (s : State) (cls idx sh dur : Nat) : Nat → Nat → Option Nat
  | 0, _ => none
  | n + 1, start =>
    if s.slotNo + 1024 < start + dur then none
    else if s.legFits cls idx sh start dur then some start
    else s.legStart cls idx sh dur n (start + 1)

/-- PREPARE (07 R202): the slots held tentatively for 64 slots, or a REFUSE with the earliest start that would fit. -/
def execPrepare (k : Nat) (f : Flit) (s : State) : Out :=
  s.receive k 0x10 f fun s =>
    let start := bits f.w0 47 0
    let dur := bits f.w1 9 0
    let cls := bits f.w1 11 10
    let idx := bits f.w1 19 12
    let sh := bits f.w1 23 20
    if dur = 0 ∨ !s.peerHolds cls idx sh then s.answer k f 0x12 f.w0 f.w1 0
    else if s.legFits cls idx sh start dur then
      let o : Offer := ⟨k, f.tag, cls, idx, sh, start, dur, s.slotNo + 64, false⟩
      ({ s with book := { s.book with offers := s.book.offers ++ [o] } }).answer k f 0x11 f.w0 f.w1 0
    else
      let alt : W64 := match s.legStart cls idx sh dur 1025 (max start (s.slotNo + 1)) with | some a => BitVec.ofNat 64 (2 ^ 63 + a) | none => 0
      s.answer k f 0x12 f.w0 f.w1 alt

/-- OFFER (07 R202, R203): the step is offered; with every remote step offered the placement commits. -/
def execOffer (k : Nat) (f : Flit) (s : State) : Out :=
  s.receive k 0x11 f fun s =>
    match s.legOf f.tag with
    | some (r, i, x) => (match x.leg with
      | .asked _ => (s.updStep r i (fun x => { x with leg := .offered })).negotiate r 0
      | _ => s)
    | none => s

/-- A step whose committed leg the remote unit has refused: its booking is placed again (07 R203). -/
def State.lateRefuse (s : State) (tag : Nat) : State :=
  match s.book.recs.findSome? (fun (e : Nat × Booking) =>
      (e.2.steps.zipIdx.find? (fun x => x.1.leg == .committed && x.1.tag == tag && e.2.live)).map (fun x => (e.1, x.2))) with
  | none => s
  | some (r, i) =>
    let s := (s.updStep r i (fun x => { x with leg := .none })).unplace r
    match s.recOf r with
    | some b => if s.maySearch b then s.search r else s
    | none => s

/-- REFUSE (07 R202, R203). -/
def execRefuse (k : Nat) (f : Flit) (s : State) : Out :=
  s.receive k 0x12 f fun s =>
    match s.legOf f.tag with
    | some (r, i, x) => (match x.leg with
      | .asked _ => s.refuseStep r i (if bit f.w2 63 then some (bits f.w2 47 0) else none)
      | _ => s)
    | none => s.lateRefuse f.tag

/-- The offer that a message of a port names. -/
def Offer.is (o : Offer) (k tag : Nat) : Bool := o.port == k && o.tag == tag

/-- COMMIT (07 R203): the held slots become committed; after the lapse it draws a REFUSE. -/
def execCommit (k : Nat) (f : Flit) (s : State) : Out :=
  s.receive k 0x13 f fun s =>
    match s.book.offers.find? (fun o => o.is k f.tag) with
    | some o =>
      if o.committed then s
      else if o.till ≤ s.slotNo then
        ({ s with book := { s.book with offers := s.book.offers.filter (fun o => !o.is k f.tag) } }).answer k f 0x12 f.w0 f.w1 0
      else { s with book := { s.book with offers := s.book.offers.map (fun o => if o.is k f.tag then { o with committed := true } else o) } }
    | none => s.answer k f 0x12 f.w0 f.w1 0

/-- RELEASE (07 R202, R207): the slots from START on are freed, committed ones for backfill. -/
def execRelease (k : Nat) (f : Flit) (s : State) : Out :=
  s.receive k 0x14 f fun s =>
    match s.book.offers.find? (fun o => o.is k f.tag) with
    | none => s
    | some o =>
      let from' := max o.start (bits f.w0 47 0)
      let offers := s.book.offers.filterMap (fun y =>
        if !y.is k f.tag then some y
        else if y.committed && y.start < from' then some { y with dur := min y.dur (from' - y.start) }
        else none)
      let lo := max from' (s.slotNo + 1)
      let t := { s with book := { s.book with offers := offers } }
      if !o.committed then t
      else (stepEngs o.cls o.idx o.shares).foldl (fun s e => s.addFreed o.cls e.1 (span lo (o.start + o.dur - lo))) t

end Sys2Proof.Machine
end

