-- ==== Sys2Proof/Machine/Power.lean ====
section
/-! DEFINITION. Bring-up, recovery, attestation and power (21 R465-R471). -/

namespace Sys2Proof.Machine

/-- The machine with every SRAM, register file and poison mark cleared and no context (21 R465, step 3): the memory tiers, the module's
fittings and its boot flash, and frames already sent, stand; slots count from here. -/
def State.cleared (s : State) (b : Boot) : State :=
  let d := s.dev
  let dev := { Dev.reset with hbm := d.hbm, tier2 := d.tier2, chip := d.chip, image := d.image, throttle := d.throttle, boot := b }
  { State.reset with
    cycle := s.cycle, slotAt := s.cycle, fresh := s.fresh, picks := s.picks, agenda := s.agenda, plan := s.plan, fxOut := s.fxOut, hostOut := s.hostOut,
    mem := { Mem.blank with bytes := s.mem.bytes }, dev := dev }

/-- What a host has written before the root starts stands (21 R471): FEATACC. -/
def State.keepFeat (s : State) (old : Dev) : State := { s with dev := { s.dev with featacc := old.featacc, featSet := old.featSet } }

/-- POWER_GOOD (21 R465): steps 1 to 4; an image that does not verify leads to recovery. -/
def execPowerGood (verified : Bool) (s : State) : Out :=
  let t := s.cleared (if verified then .waiting else .recovery)
  let t := { t with dev := { t.dev with throttle := false } }
  .next (if s.dev.boot = .off then t.keepFeat s.dev else t)

/-- The root block's words 1-6 (21 R465, 13 R364). -/
def State.rootBlock (s : State) : SMap W64 := (span 1 6).foldl (fun m k => SMap.set 0 m k (s.rdP64 (0x1000 + 8 * k))) []

/-- ROOT_CONTEXT_START (21 R465, step 6): once FEATACC has been written the root is made from the root block and set running. -/
def execRootContextStart (s : State) : Out :=
  if s.dev.boot ≠ .waiting ∨ !s.dev.featSet then .next s
  else .next ({ s with dev := { s.dev with boot := .up } }.setCtx rootCtx (Ctx.root s.dev s.rootBlock))

/-- The first request of a semaphore to the housekeeping core, and the requests without it. -/
def Dev.request (d : Dev) (n : Nat) : Option (W32 × List (Nat × W32)) :=
  (d.hk.find? (fun e => e.1 == n)).map (fun e => (e.2, d.hk.erase e))

/-- RECOVERY_VERIFY (21 R466): the candidate image at physical 0; one that verifies goes to the boot flash and the boot starts again. -/
def execRecoveryVerify (verified : Bool) (s : State) : Out :=
  if s.dev.boot ≠ .recovery then .next s
  else match s.dev.request 31 with
    | none => .next s
    | some (n, rest) =>
      if verified then
        let img := s.rdBytes false 0 (n.toNat * 4096)
        let t := (s.cleared .waiting).keepFeat s.dev
        .next { t with dev := { t.dev with image := some img, hk := rest } }
      else .next { s with dev := { s.dev with hk := rest } }

/-- The attestation report for a nonce (21 R467). -/
def State.attest (s : State) (nonce : List Byte) : List Byte :=
  let img := s.dev.image.getD Config.factoryImage
  let body := nonce ++ sha256 img ++ (List.range 4).flatMap (fun k => toBytes 8 (s.feat k).toNat) ++ toBytes 8 (Config.firmwareVersion img).toNat
    ++ toBytes 8 (s.slotNo * 65536 + s.dev.chip % 256) ++ List.replicate 16 0
  body ++ (List.range 384).map (Config.signature (sha256 body))

/-- ATTESTATION_REPORT (21 R467): the report at P + 64; HSEM30 is taken and released with DATA 0. -/
def execAttestationReport (s : State) : Out :=
  if s.dev.boot ≠ .waiting ∧ s.dev.boot ≠ .up then .next s
  else match s.dev.request 30 with
    | none => .next s
    | some (d, rest) =>
      if bits (SMap.get 0 s.dev.hsem 30) 1 0 ≠ 0 then .next s
      else
        let p := d.toNat * 4096
        let rep := s.attest (s.rdBytes false p 32)
        let s := if (span p 576).all (present s.dev) then s.extStore (s.extPieces (p + 64) 512) rep else s
        let pubs := SMap.set [] s.mem.pubs (semKey 30) []
        .next (({ s with mem := { s.mem with pubs := pubs }, dev := { s.dev with hk := rest } }).putSem 30 0)

/-- THERMAL_THROTTLE (21 R470): agents issue in alternate cycles. -/
def execThermalThrottle (s : State) : Out := .next (if s.dev.linked then { s with dev := { s.dev with throttle := true } } else s)

/-- THROTTLE_END (21 R470). -/
def execThrottleEnd (s : State) : Out := .next (if s.dev.linked then { s with dev := { s.dev with throttle := false } } else s)

/-- COMPUTE_POWER_OFF (21 R470): the compute dies lose power and what they hold; every host frame then returns ERR. -/
def execComputePowerOff (s : State) : Out := .next (if s.dev.linked then s.cleared .dead else s)

end Sys2Proof.Machine
end

