-- ==== Sys2Proof/Machine/Scalar.lean ====
section
/-! DEFINITION. Scalar, address and predicate instructions (09 R246-R260). -/

namespace Sys2Proof.Machine

/-- ADD (09 R249). -/
def execAdd (u : U) (s : State) : Out :=
  flagDone u s (narrow 64 (satOf u) ((s.sB u).toInt + (s.sC u).toInt)) 1
/-- SUB (09 R249). -/
def execSub (u : U) (s : State) : Out :=
  flagDone u s (narrow 64 (satOf u) ((s.sB u).toInt - (s.sC u).toInt)) 1
/-- AND (09 R249). -/
def execAnd (u : U) (s : State) : Out := scalarDone u s (s.sB u &&& s.sC u) 1
/-- OR (09 R249). -/
def execOr (u : U) (s : State) : Out := scalarDone u s (s.sB u ||| s.sC u) 1
/-- XOR (09 R249). -/
def execXor (u : U) (s : State) : Out := scalarDone u s (s.sB u ^^^ s.sC u) 1
/-- SHL (09 R249). -/
def execShl (u : U) (s : State) : Out := flagDone u s (shlSat 64 (satOf u) (s.sB u) (bits (s.sC u) 5 0)) 1
/-- SHR (09 R249). -/
def execShr (u : U) (s : State) : Out := scalarDone u s (s.sB u >>> bits (s.sC u) 5 0) 1
/-- SAR (09 R249). -/
def execSar (u : U) (s : State) : Out := scalarDone u s ((s.sB u).sshiftRight (bits (s.sC u) 5 0)) 1
/-- ROL (09 R249). -/
def execRol (u : U) (s : State) : Out := scalarDone u s ((s.sB u).rotateLeft (bits (s.sC u) 5 0)) 1
/-- MIN (09 R249). -/
def execMin (u : U) (s : State) : Out := scalarDone u s (if (s.sC u).slt (s.sB u) then s.sC u else s.sB u) 1
/-- MAX (09 R249). -/
def execMax (u : U) (s : State) : Out := scalarDone u s (if (s.sB u).slt (s.sC u) then s.sC u else s.sB u) 1
/-- MUL (09 R250). -/
def execMul (u : U) (s : State) : Out :=
  flagDone u s (narrow 64 (satOf u) ((s.sB u).toInt * (s.sC u).toInt)) 3
/-- MULH (09 R250). -/
def execMulh (u : U) (s : State) : Out := scalarDone u s (BitVec.ofInt 64 ((s.sB u).toInt * (s.sC u).toInt / 2 ^ 64)) 3
/-- DIV (09 R250). -/
def execDiv (u : U) (s : State) : Out := flagDone u s (divRem true (satOf u) (rndOf u) (s.sB u) (s.sC u)) 18
/-- REM (09 R250). -/
def execRem (u : U) (s : State) : Out := flagDone u s (divRem false (satOf u) (rndOf u) (s.sB u) (s.sC u)) 18
/-- CLZ (09 R251). -/
def execClz (u : U) (s : State) : Out := scalarDone u s (BitVec.ofNat 64 (clz64 (s.sB u))) 1
/-- POPC (09 R251). -/
def execPopc (u : U) (s : State) : Out := scalarDone u s (BitVec.ofNat 64 (popCount 64 (s.sB u).toNat)) 1
/-- MOV (09 R251). -/
def execMov (u : U) (s : State) : Out := scalarDone u s (s.sB u) 1
/-- CMP (09 R257). -/
def execCmp (u : U) (s : State) : Out := predDone u s (uniform (condS u.mi.toNat (s.sB u) (s.sC u))) 1
/-- ADDI, 32-bit form (09 R252). -/
def execAddi (u : U) (s : State) : Out := flagDone u s (narrow 64 (satOf u) ((s.sB u).toInt + (immS u).toInt)) 1
/-- ADDI, 64-bit form (09 R252). -/
def execAddiX (u : U) (s : State) : Out :=
  governed u s fun s => flagDone u s (narrow 64 (satOf u) ((s.sB u).toInt + (immS u).toInt)) 1
/-- LEA, 32-bit form (09 R255). -/
def execLea (u : U) (s : State) : Out := scalarDone u s (s.sB u + (s.sC u <<< u.mi.toNat)) 1
/-- LEA, 64-bit form (09 R255). -/
def execLeaX (u : U) (s : State) : Out :=
  governed u s fun s => scalarDone u s (s.sB u + (s.sC u <<< u.mi.toNat) + imm16S u) 1
/-- PAND (09 R258). -/
def execPand (u : U) (s : State) : Out := predDone u s (s.rdP u.b.toNat &&& s.rdP u.c.toNat) 1
/-- POR (09 R258). -/
def execPor (u : U) (s : State) : Out := predDone u s (s.rdP u.b.toNat ||| s.rdP u.c.toNat) 1
/-- PXOR (09 R258). -/
def execPxor (u : U) (s : State) : Out := predDone u s (s.rdP u.b.toNat ^^^ s.rdP u.c.toNat) 1
/-- PNOT (09 R258). -/
def execPnot (u : U) (s : State) : Out := predDone u s (~~~ s.rdP u.b.toNat) 1
/-- PMOV (09 R258). -/
def execPmov (u : U) (s : State) : Out := predDone u s (s.rdP u.b.toNat) 1
/-- PCNT (09 R258). -/
def execPcnt (u : U) (s : State) : Out := scalarDone u s (BitVec.ofNat 64 (popCount 1024 (s.rdP u.b.toNat).toNat)) 1
/-- PSETI (09 R259). -/
def execPseti (u : U) (s : State) : Out :=
  governed u s fun s => predDone u s (BitVec.ofNat 1024 (2 ^ bits u.imm 10 0 - 1)) 1
/-- MOVI (09 R253). -/
def execMovi (u : U) (s : State) : Out := governed u s fun s => scalarDone u s (immS u) 1
/-- LUI (09 R253). -/
def execLui (u : U) (s : State) : Out :=
  governed u s fun s => scalarDone u s ((u.imm.zeroExtend 64 <<< 32) ||| ((s.sB u).truncate 32).zeroExtend 64) 1
/-- POS and length of EXT and INS (09 R254). -/
def fieldPos (u : U) : Nat := bits u.imm 5 0
def fieldLen (u : U) : Nat := bits u.imm 11 6 + 1
/-- EXT (09 R254). -/
def execExt (u : U) (s : State) : Out :=
  governed u s fun s =>
    let x := bits (s.sB u) (fieldPos u + fieldLen u - 1) (fieldPos u)
    let v := if bit u.imm 12 ∧ x.testBit (fieldLen u - 1) then BitVec.ofInt 64 ((x : Int) - 2 ^ fieldLen u) else BitVec.ofNat 64 x
    scalarDone u s v 1
/-- INS (09 R254): sd is also a source. -/
def execIns (u : U) (s : State) : Out :=
  governed u s fun s => scalarDone u s (setBits (s.sA u) (fieldPos u + fieldLen u - 1) (fieldPos u) (s.sB u).toNat) 1
/-- SEL (09 R256). -/
def execSel (u : U) (s : State) : Out :=
  governed u s fun s => scalarDone u s (if (s.rdP u.e.toNat).getLsbD 0 then s.sB u else s.sC u) 1
/-- VOTE.ANY (09 R260). -/
def execVoteAny (u : U) (s : State) : Out := predDone u s (uniform (s.rdP u.b.toNat &&& s.rdP u.c.toNat != 0)) 2
/-- VOTE.ALL (09 R260). -/
def execVoteAll (u : U) (s : State) : Out := predDone u s (uniform (s.rdP u.c.toNat &&& ~~~ s.rdP u.b.toNat == 0)) 2

end Sys2Proof.Machine
end

