-- ==== Sys2Proof/Machine/Dispatch.lean ====
section
/-! DEFINITION. What each instruction and event does: one arm for each constructor of `Instr`. -/

namespace Sys2Proof.Machine

/-- The meaning of an instruction or an event in a state. -/
def exec (i : Instr) (s : State) : Host.Outcome State Fault Refusal :=
  match i with
  | .add u => Sys2Proof.Machine.execAdd u s
  | .sub u => Sys2Proof.Machine.execSub u s
  | .and u => Sys2Proof.Machine.execAnd u s
  | .or u => Sys2Proof.Machine.execOr u s
  | .xor u => Sys2Proof.Machine.execXor u s
  | .shl u => Sys2Proof.Machine.execShl u s
  | .shr u => Sys2Proof.Machine.execShr u s
  | .sar u => Sys2Proof.Machine.execSar u s
  | .rol u => Sys2Proof.Machine.execRol u s
  | .min u => Sys2Proof.Machine.execMin u s
  | .max u => Sys2Proof.Machine.execMax u s
  | .mul u => Sys2Proof.Machine.execMul u s
  | .mulh u => Sys2Proof.Machine.execMulh u s
  | .div u => Sys2Proof.Machine.execDiv u s
  | .rem u => Sys2Proof.Machine.execRem u s
  | .clz u => Sys2Proof.Machine.execClz u s
  | .popc u => Sys2Proof.Machine.execPopc u s
  | .mov u => Sys2Proof.Machine.execMov u s
  | .cmp u => Sys2Proof.Machine.execCmp u s
  | .addi u => Sys2Proof.Machine.execAddi u s
  | .addiX u => Sys2Proof.Machine.execAddiX u s
  | .lea u => Sys2Proof.Machine.execLea u s
  | .leaX u => Sys2Proof.Machine.execLeaX u s
  | .pand u => Sys2Proof.Machine.execPand u s
  | .por u => Sys2Proof.Machine.execPor u s
  | .pxor u => Sys2Proof.Machine.execPxor u s
  | .pnot u => Sys2Proof.Machine.execPnot u s
  | .pmov u => Sys2Proof.Machine.execPmov u s
  | .pcnt u => Sys2Proof.Machine.execPcnt u s
  | .pseti u => Sys2Proof.Machine.execPseti u s
  | .movi u => Sys2Proof.Machine.execMovi u s
  | .lui u => Sys2Proof.Machine.execLui u s
  | .ext u => Sys2Proof.Machine.execExt u s
  | .ins u => Sys2Proof.Machine.execIns u s
  | .sel u => Sys2Proof.Machine.execSel u s
  | .voteAny u => Sys2Proof.Machine.execVoteAny u s
  | .voteAll u => Sys2Proof.Machine.execVoteAll u s
  | .brPrep u => Sys2Proof.Machine.execBrPrep u s
  | .brPrepX u => Sys2Proof.Machine.execBrPrepX u s
  | .brGo u => Sys2Proof.Machine.execBrGo u s
  | .call u => Sys2Proof.Machine.execCall u s
  | .callX u => Sys2Proof.Machine.execCallX u s
  | .ret u => Sys2Proof.Machine.execRet u s
  | .loopCfg u => Sys2Proof.Machine.execLoopCfg u s
  | .loopGo u => Sys2Proof.Machine.execLoopGo u s
  | .loopBrk u => Sys2Proof.Machine.execLoopBrk u s
  | .nop u => Sys2Proof.Machine.execNop u s
  | .nopW u => Sys2Proof.Machine.execNopW u s
  | .halt u => Sys2Proof.Machine.execHalt u s
  | .brk u => Sys2Proof.Machine.execBrk u s
  | .traceMark u => Sys2Proof.Machine.execTraceMark u s
  | .traceMarkX u => Sys2Proof.Machine.execTraceMarkX u s
  | .ldB u => Sys2Proof.Machine.execLdB u s
  | .ldH u => Sys2Proof.Machine.execLdH u s
  | .ldW u => Sys2Proof.Machine.execLdW u s
  | .ldD u => Sys2Proof.Machine.execLdD u s
  | .ldBSp u => Sys2Proof.Machine.execLdBSp u s
  | .ldHSp u => Sys2Proof.Machine.execLdHSp u s
  | .ldWSp u => Sys2Proof.Machine.execLdWSp u s
  | .ldDSp u => Sys2Proof.Machine.execLdDSp u s
  | .stB u => Sys2Proof.Machine.execStB u s
  | .stH u => Sys2Proof.Machine.execStH u s
  | .stW u => Sys2Proof.Machine.execStW u s
  | .stD u => Sys2Proof.Machine.execStD u s
  | .stBSp u => Sys2Proof.Machine.execStBSp u s
  | .stHSp u => Sys2Proof.Machine.execStHSp u s
  | .stWSp u => Sys2Proof.Machine.execStWSp u s
  | .stDSp u => Sys2Proof.Machine.execStDSp u s
  | .ldx u => Sys2Proof.Machine.execLdx u s
  | .ldAcq u => Sys2Proof.Machine.execLdAcq u s
  | .ldRlx u => Sys2Proof.Machine.execLdRlx u s
  | .stx u => Sys2Proof.Machine.execStx u s
  | .stRel u => Sys2Proof.Machine.execStRel u s
  | .stRlx u => Sys2Proof.Machine.execStRlx u s
  | .amoAdd u => Sys2Proof.Machine.execAmoAdd u s
  | .amoMin u => Sys2Proof.Machine.execAmoMin u s
  | .amoMax u => Sys2Proof.Machine.execAmoMax u s
  | .amoAnd u => Sys2Proof.Machine.execAmoAnd u s
  | .amoOr u => Sys2Proof.Machine.execAmoOr u s
  | .amoXor u => Sys2Proof.Machine.execAmoXor u s
  | .amoSwap u => Sys2Proof.Machine.execAmoSwap u s
  | .amoCas u => Sys2Proof.Machine.execAmoCas u s
  | .amoAddl u => Sys2Proof.Machine.execAmoAddl u s
  | .pref u => Sys2Proof.Machine.execPref u s
  | .fence u => Sys2Proof.Machine.execFence u s
  | .fenceXp u => Sys2Proof.Machine.execFenceXp u s
  | .tokWait u => Sys2Proof.Machine.execTokWait u s
  | .tokTest u => Sys2Proof.Machine.execTokTest u s
  | .tokAdd u => Sys2Proof.Machine.execTokAdd u s
  | .arriveSet u => Sys2Proof.Machine.execArriveSet u s
  | .arriveWait u => Sys2Proof.Machine.execArriveWait u s
  | .qPush u => Sys2Proof.Machine.execQPush u s
  | .qPop u => Sys2Proof.Machine.execQPop u s
  | .qPopp u => Sys2Proof.Machine.execQPopp u s
  | .qPeek u => Sys2Proof.Machine.execQPeek u s
  | .vadd u => Sys2Proof.Machine.execVadd u s
  | .vsub u => Sys2Proof.Machine.execVsub u s
  | .vmul u => Sys2Proof.Machine.execVmul u s
  | .vmin u => Sys2Proof.Machine.execVmin u s
  | .vmax u => Sys2Proof.Machine.execVmax u s
  | .vand u => Sys2Proof.Machine.execVand u s
  | .vor u => Sys2Proof.Machine.execVor u s
  | .vxor u => Sys2Proof.Machine.execVxor u s
  | .vshl u => Sys2Proof.Machine.execVshl u s
  | .vshr u => Sys2Proof.Machine.execVshr u s
  | .vabs u => Sys2Proof.Machine.execVabs u s
  | .vneg u => Sys2Proof.Machine.execVneg u s
  | .vfma u => Sys2Proof.Machine.execVfma u s
  | .vbcastR u => Sys2Proof.Machine.execVbcastR u s
  | .vbcastC u => Sys2Proof.Machine.execVbcastC u s
  | .vrotR u => Sys2Proof.Machine.execVrotR u s
  | .vrotC u => Sys2Proof.Machine.execVrotC u s
  | .vredR u => Sys2Proof.Machine.execVredR u s
  | .vredC u => Sys2Proof.Machine.execVredC u s
  | .vscanR u => Sys2Proof.Machine.execVscanR u s
  | .vscanC u => Sys2Proof.Machine.execVscanC u s
  | .vreda u => Sys2Proof.Machine.execVreda u s
  | .vexp u => Sys2Proof.Machine.execVexp u s
  | .vlog u => Sys2Proof.Machine.execVlog u s
  | .vrcp u => Sys2Proof.Machine.execVrcp u s
  | .vrsq u => Sys2Proof.Machine.execVrsq u s
  | .vtanh u => Sys2Proof.Machine.execVtanh u s
  | .vsliLvl u => Sys2Proof.Machine.execVsliLvl u s
  | .vmovs u => Sys2Proof.Machine.execVmovs u s
  | .vspill u => Sys2Proof.Machine.execVspill u s
  | .vfill u => Sys2Proof.Machine.execVfill u s
  | .vaddX u => Sys2Proof.Machine.execVaddX u s
  | .vsubX u => Sys2Proof.Machine.execVsubX u s
  | .vmulX u => Sys2Proof.Machine.execVmulX u s
  | .vfmaX u => Sys2Proof.Machine.execVfmaX u s
  | .vminX u => Sys2Proof.Machine.execVminX u s
  | .vmaxX u => Sys2Proof.Machine.execVmaxX u s
  | .vabsX u => Sys2Proof.Machine.execVabsX u s
  | .vnegX u => Sys2Proof.Machine.execVnegX u s
  | .vandX u => Sys2Proof.Machine.execVandX u s
  | .vorX u => Sys2Proof.Machine.execVorX u s
  | .vxorX u => Sys2Proof.Machine.execVxorX u s
  | .vshlX u => Sys2Proof.Machine.execVshlX u s
  | .vshrX u => Sys2Proof.Machine.execVshrX u s
  | .vcmp u => Sys2Proof.Machine.execVcmp u s
  | .vsel u => Sys2Proof.Machine.execVsel u s
  | .vimm u => Sys2Proof.Machine.execVimm u s
  | .vmovsX u => Sys2Proof.Machine.execVmovsX u s
  | .vmovsIns u => Sys2Proof.Machine.execVmovsIns u s
  | .vmovsExt u => Sys2Proof.Machine.execVmovsExt u s
  | .vcvt u => Sys2Proof.Machine.execVcvt u s
  | .vcvtSli32F64 u => Sys2Proof.Machine.execVcvtSli32F64 u s
  | .vcvtF64Sli32 u => Sys2Proof.Machine.execVcvtF64Sli32 u s
  | .vcvtBxQuantise u => Sys2Proof.Machine.execVcvtBxQuantise u s
  | .vcvtBxDequantise u => Sys2Proof.Machine.execVcvtBxDequantise u s
  | .vexpX u => Sys2Proof.Machine.execVexpX u s
  | .vlogX u => Sys2Proof.Machine.execVlogX u s
  | .vrcpX u => Sys2Proof.Machine.execVrcpX u s
  | .vrsqX u => Sys2Proof.Machine.execVrsqX u s
  | .vtanhX u => Sys2Proof.Machine.execVtanhX u s
  | .vsliLvlX u => Sys2Proof.Machine.execVsliLvlX u s
  | .vbcastRX u => Sys2Proof.Machine.execVbcastRX u s
  | .vbcastCX u => Sys2Proof.Machine.execVbcastCX u s
  | .vrotRX u => Sys2Proof.Machine.execVrotRX u s
  | .vrotCX u => Sys2Proof.Machine.execVrotCX u s
  | .vredRX u => Sys2Proof.Machine.execVredRX u s
  | .vredCX u => Sys2Proof.Machine.execVredCX u s
  | .vredaX u => Sys2Proof.Machine.execVredaX u s
  | .vscanRX u => Sys2Proof.Machine.execVscanRX u s
  | .vscanCX u => Sys2Proof.Machine.execVscanCX u s
  | .vld u => Sys2Proof.Machine.execVld u s
  | .vst u => Sys2Proof.Machine.execVst u s
  | .vspillX u => Sys2Proof.Machine.execVspillX u s
  | .vfillX u => Sys2Proof.Machine.execVfillX u s
  | .vchain u => Sys2Proof.Machine.execVchain u s
  | .fmtPush u => Sys2Proof.Machine.execFmtPush u s
  | .mxMma u => Sys2Proof.Machine.execMxMma u s
  | .mxMmas u => Sys2Proof.Machine.execMxMmas u s
  | .mxZero u => Sys2Proof.Machine.execMxZero u s
  | .cpAcc u => Sys2Proof.Machine.execCpAcc u s
  | .cpLd u => Sys2Proof.Machine.execCpLd u s
  | .cpSt u => Sys2Proof.Machine.execCpSt u s
  | .cpX u => Sys2Proof.Machine.execCpX u s
  | .cpG u => Sys2Proof.Machine.execCpG u s
  | .cpS u => Sys2Proof.Machine.execCpS u s
  | .cp2d u => Sys2Proof.Machine.execCp2d u s
  | .cpSend u => Sys2Proof.Machine.execCpSend u s
  | .hbeat u => Sys2Proof.Machine.execHbeat u s
  | .workid u => Sys2Proof.Machine.execWorkid u s
  | .yieldOp u => Sys2Proof.Machine.execYieldOp u s
  | .taskExit u => Sys2Proof.Machine.execTaskExit u s
  | .taskSuspend u => Sys2Proof.Machine.execTaskSuspend u s
  | .taskLaunch u => Sys2Proof.Machine.execTaskLaunch u s
  | .taskLaunchw u => Sys2Proof.Machine.execTaskLaunchw u s
  | .calBook u => Sys2Proof.Machine.execCalBook u s
  | .calCancel u => Sys2Proof.Machine.execCalCancel u s
  | .calQueryStatus u => Sys2Proof.Machine.execCalQueryStatus u s
  | .calQuerySlot u => Sys2Proof.Machine.execCalQuerySlot u s
  | .trapRet u => Sys2Proof.Machine.execTrapRet u s
  | .trapAck u => Sys2Proof.Machine.execTrapAck u s
  | .trapReflect u => Sys2Proof.Machine.execTrapReflect u s
  | .syscall u => Sys2Proof.Machine.execSyscall u s
  | .coreReset u => Sys2Proof.Machine.execCoreReset u s
  | .tlbInvRange u => Sys2Proof.Machine.execTlbInvRange u s
  | .tlbInvSpace u => Sys2Proof.Machine.execTlbInvSpace u s
  | .tlbInvHandle u => Sys2Proof.Machine.execTlbInvHandle u s
  | .csrRd u => Sys2Proof.Machine.execCsrRd u s
  | .csrWr u => Sys2Proof.Machine.execCsrWr u s
  | .csrSwap u => Sys2Proof.Machine.execCsrSwap u s
  | .ctxCreate u => Sys2Proof.Machine.execCtxCreate u s
  | .ctxGrantSet u => Sys2Proof.Machine.execCtxGrantSet u s
  | .ctxGrantCores u => Sys2Proof.Machine.execCtxGrantCores u s
  | .ctxGrantMxh u => Sys2Proof.Machine.execCtxGrantMxh u s
  | .ctxGrantCg u => Sys2Proof.Machine.execCtxGrantCg u s
  | .ctxGrantFx u => Sys2Proof.Machine.execCtxGrantFx u s
  | .ctxGrantQuota u => Sys2Proof.Machine.execCtxGrantQuota u s
  | .ctxGrantMem u => Sys2Proof.Machine.execCtxGrantMem u s
  | .ctxGrantSpad u => Sys2Proof.Machine.execCtxGrantSpad u s
  | .ctxGrantCal u => Sys2Proof.Machine.execCtxGrantCal u s
  | .ctxGrantHt u => Sys2Proof.Machine.execCtxGrantHt u s
  | .ctxGrantRun u => Sys2Proof.Machine.execCtxGrantRun u s
  | .ctxRevokeCores u => Sys2Proof.Machine.execCtxRevokeCores u s
  | .ctxRevokeMxh u => Sys2Proof.Machine.execCtxRevokeMxh u s
  | .ctxRevokeCg u => Sys2Proof.Machine.execCtxRevokeCg u s
  | .ctxRevokeFx u => Sys2Proof.Machine.execCtxRevokeFx u s
  | .ctxRevokeQuota u => Sys2Proof.Machine.execCtxRevokeQuota u s
  | .ctxRevokeMem u => Sys2Proof.Machine.execCtxRevokeMem u s
  | .ctxRevokeSpad u => Sys2Proof.Machine.execCtxRevokeSpad u s
  | .ctxRevokeCal u => Sys2Proof.Machine.execCtxRevokeCal u s
  | .ctxRevokeHt u => Sys2Proof.Machine.execCtxRevokeHt u s
  | .ctxRevokeRun u => Sys2Proof.Machine.execCtxRevokeRun u s
  | .ctxDestroy u => Sys2Proof.Machine.execCtxDestroy u s
  | .ctxQuery u => Sys2Proof.Machine.execCtxQuery u s
  | .dirtylogEnable u => Sys2Proof.Machine.execDirtylogEnable u s
  | .dirtylogDisable u => Sys2Proof.Machine.execDirtylogDisable u s
  | .dirtylogExport u => Sys2Proof.Machine.execDirtylogExport u s
  | .dirtylogImport u => Sys2Proof.Machine.execDirtylogImport u s
  | .chkresetGo u => Sys2Proof.Machine.execChkresetGo u s
  | .blogWrite u => Sys2Proof.Machine.execBlogWrite u s
  | .bcmbaseWrite u => Sys2Proof.Machine.execBcmbaseWrite u s
  | .chkregWrite u => Sys2Proof.Machine.execChkregWrite u s
  | .accfreeWrite u => Sys2Proof.Machine.execAccfreeWrite u s
  | .isetWrite u => Sys2Proof.Machine.execIsetWrite u s
  | .hsemAcquire u => Sys2Proof.Machine.execHsemAcquire u s
  | .hsemRelease u => Sys2Proof.Machine.execHsemRelease u s
  | .pmcLoRead u => Sys2Proof.Machine.execPmcLoRead u s
  | .pmcHiWrite u => Sys2Proof.Machine.execPmcHiWrite u s
  | .slotBoundary => Sys2Proof.Machine.execSlotBoundary s
  | .watchdogExpire ctx => Sys2Proof.Machine.execWatchdogExpire ctx s
  | .forcedSave ctx => Sys2Proof.Machine.execForcedSave ctx s
  | .offerLapse id => Sys2Proof.Machine.execOfferLapse id s
  | .prepareTimeout tag => Sys2Proof.Machine.execPrepareTimeout tag s
  | .waitListSearch die => Sys2Proof.Machine.execWaitListSearch die s
  | .priorityAging ctx q => Sys2Proof.Machine.execPriorityAging ctx q s
  | .continuationParkTimeout core st => Sys2Proof.Machine.execContinuationParkTimeout core st s
  | .taskAdmission die => Sys2Proof.Machine.execTaskAdmission die s
  | .bookingSearch handle => Sys2Proof.Machine.execBookingSearch handle s
  | .backfill cls idx => Sys2Proof.Machine.execBackfill cls idx s
  | .engineCommandStart e => Sys2Proof.Machine.execEngineCommandStart e s
  | .engineLineAccess e part => Sys2Proof.Machine.execEngineLineAccess e part s
  | .matrixBlockPair e => Sys2Proof.Machine.execMatrixBlockPair e s
  | .chainElement e => Sys2Proof.Machine.execChainElement e s
  | .sendEntry e => Sys2Proof.Machine.execSendEntry e s
  | .commandBoundarySuspend e => Sys2Proof.Machine.execCommandBoundarySuspend e s
  | .engineCommandComplete e => Sys2Proof.Machine.execEngineCommandComplete e s
  | .storeLeave core st => Sys2Proof.Machine.execStoreLeave core st s
  | .loadDataReturn core st k => Sys2Proof.Machine.execLoadDataReturn core st k s
  | .pendingRecordWrite ctx => Sys2Proof.Machine.execPendingRecordWrite ctx s
  | .handlerStart ctx => Sys2Proof.Machine.execHandlerStart ctx s
  | .tokWaitConsume core st => Sys2Proof.Machine.execTokWaitConsume core st s
  | .arriveWaitComplete core st => Sys2Proof.Machine.execArriveWaitComplete core st s
  | .queueWaitResume core st => Sys2Proof.Machine.execQueueWaitResume core st s
  | .continuationReady core k => Sys2Proof.Machine.execContinuationReady core k s
  | .continuationTake core => Sys2Proof.Machine.execContinuationTake core s
  | .continuationSteal core => Sys2Proof.Machine.execContinuationSteal core s
  | .contextStopComplete ctx => Sys2Proof.Machine.execContextStopComplete ctx s
  | .revocationComplete id => Sys2Proof.Machine.execRevocationComplete id s
  | .tlbInvComplete id => Sys2Proof.Machine.execTlbInvComplete id s
  | .handleInvComplete id => Sys2Proof.Machine.execHandleInvComplete id s
  | .chkresetDone ctx => Sys2Proof.Machine.execChkresetDone ctx s
  | .exportComplete ctx => Sys2Proof.Machine.execExportComplete ctx s
  | .importComplete ctx => Sys2Proof.Machine.execImportComplete ctx s
  | .destroyComplete id => Sys2Proof.Machine.execDestroyComplete id s
  | .memoryErrorDetect p => Sys2Proof.Machine.execMemoryErrorDetect p s
  | .structureError x => Sys2Proof.Machine.execStructureError x s
  | .lineFill ctx va => Sys2Proof.Machine.execLineFill ctx va s
  | .powerGood verified => Sys2Proof.Machine.execPowerGood verified s
  | .rootContextStart => Sys2Proof.Machine.execRootContextStart s
  | .recoveryVerify verified => Sys2Proof.Machine.execRecoveryVerify verified s
  | .attestationReport => Sys2Proof.Machine.execAttestationReport s
  | .thermalThrottle => Sys2Proof.Machine.execThermalThrottle s
  | .throttleEnd => Sys2Proof.Machine.execThrottleEnd s
  | .computePowerOff => Sys2Proof.Machine.execComputePowerOff s
  | .read port addr len => Sys2Proof.Machine.execRead port addr len s
  | .write port addr data => Sys2Proof.Machine.execWrite port addr data s
  | .writeRel port addr data => Sys2Proof.Machine.execWriteRel port addr data s
  | .spwrite port clu off data arv aoff => Sys2Proof.Machine.execSpwrite port clu off data arv aoff s
  | .semAcq port n => Sys2Proof.Machine.execSemAcq port n s
  | .semRel port n data => Sys2Proof.Machine.execSemRel port n data s
  | .feataccWrite v => Sys2Proof.Machine.execFeataccWrite v s
  | .hstatAck v => Sys2Proof.Machine.execHstatAck v s
  | .fxcfgWrite k v => Sys2Proof.Machine.execFxcfgWrite k v s
  | .fabricPortTrained k slot cyc => Sys2Proof.Machine.execFabricPortTrained k slot cyc s
  | .fabricPortLost k => Sys2Proof.Machine.execFabricPortLost k s
  | .fabricWrite k f => Sys2Proof.Machine.execFabricWrite k f s
  | .wack k f => Sys2Proof.Machine.execWack k f s
  | .sendreq k f => Sys2Proof.Machine.execSendreq k f s
  | .raccept k f => Sys2Proof.Machine.execRaccept k f s
  | .rfull k f => Sys2Proof.Machine.execRfull k f s
  | .prepare k f => Sys2Proof.Machine.execPrepare k f s
  | .offer k f => Sys2Proof.Machine.execOffer k f s
  | .refuse k f => Sys2Proof.Machine.execRefuse k f s
  | .commit k f => Sys2Proof.Machine.execCommit k f s
  | .release k f => Sys2Proof.Machine.execRelease k f s
  | .slotsync k f => Sys2Proof.Machine.execSlotsync k f s

end Sys2Proof.Machine
end

