-- ==== Sys2Proof/Machine/Sched.lean ====
section
/-! DEFINITION. What moves next when the agenda names nothing: the machine's own rule (log 2). -/

namespace Sys2Proof.Machine

/-- Whether an agent may issue in this cycle (08 R233): not while another agent of its core that issues in it comes first. -/
def State.canIssueAt (s : State) (core st : Nat) : Bool := s.readyNow core (s.ag core st) && !s.givesWay core st

/-- The agent that issues next: the first of those that may issue in this cycle. -/
def State.nextAgent (s : State) : Option (Nat × Nat) :=
  if !s.issueCycle then none
  else (List.find? (fun e => s.readyNow (e.1 / 6) e.2 && !s.givesWay (e.1 / 6) (e.1 % 6)) s.agents).map (fun e => (e.1 / 6, e.1 % 6))

/-- A slot boundary is due (07 R177). -/
def State.slotDue (s : State) : Bool := s.slotAt + 256 ≤ s.cycle

/-- Contexts whose command a matrix half of a core runs (16 R429, event 6), each once, with that half's stream. -/
def State.halvesAt (s : State) (core : Nat) : List (Nat × Nat) :=
  [6, 7].foldl (fun (l : List (Nat × Nat)) q => match s.headCmd core q with
    | some c => if c.started && c.fault.isNone && c.susp % 2 == 0 && !l.any (fun e => e.1 == c.ctx) then l ++ [(c.ctx, q)] else l
    | none => l) []

/-- Cycles that pass: request deadlines count down (14 R389), counters of running agents and halves count (16 R429). -/
def State.elapse (s : State) (n : Nat) : State :=
  let cs := s.ctxs.map (fun e => if e.2.req then (e.1, { e.2 with left := e.2.left - n }) else e)
  let s := { s with cycle := s.cycle + n, ctxs := cs }
  if s.ctxs.all (fun e => e.2.pmsel.isEmpty) then s
  else (List.range 128).foldl (fun s core =>
    let s := ((List.range 6).map (fun k => (s.ag core k, k))).foldl (fun (x : State × List Nat) e =>
      let a := e.1
      if a.run == .running && a.item.isSome && !x.2.contains a.ctx then (x.1.count a.ctx core e.2 1 n, a.ctx :: x.2) else x) (s, []) |>.1
    (s.halvesAt core).foldl (fun s e => s.count e.1 core e.2 6 n) s) s

/-- Cycles until something is due: the next agent's issue, the slot boundary, a deadline (14 R391, 15 R410), a wait's 128 cycles (06 R159). -/
def State.idleFor (s : State) : Nat :=
  let b := s.slotAt + 256 - s.cycle
  let rs := s.agents.filterMap (fun e =>
    if s.canIssue (e.1 / 6) e.2 then some (max 1 (e.2.ready - s.cycle))
    else match e.2.waitAt with
      | some w => if e.2.wait ≠ .none ∧ s.cycle < w + 128 then some (w + 128 - s.cycle) else none
      | none => none)
  let ls := s.ctxs.filterMap (fun e => if e.2.req ∧ 0 < e.2.left then some e.2.left else none)
  let qs := s.ctxs.flatMap (fun e => (e.2.sideReq.map Prod.snd).filterMap (fun t => if s.cycle < t then some (t - s.cycle) else none))
  max 1 ((rs ++ ls ++ qs).foldl min b)

/-- Time passes until something is due. -/
def State.passTime (s : State) : State := s.elapse s.idleFor

/-- The engine of a command queue. -/
def engOf (core q : Nat) : Eng :=
  if q ≤ 7 then .mxh core (q - 6) else if q = 8 then .vch core 0 else if q = 16 then .vch core 1
  else if q ≤ 12 then .cpe (cluOf core * 4 + (q - 9)) core else .snd (cluOf core) core

/-- A device event with its parameters, as what it makes of a state. -/
abbrev Event := State → Out

/-- What the engines may do next (04 R101, R111). -/
def State.engineEvents (s : State) : List Event :=
  s.cores.flatMap (fun e => (e.2.eq.filter (fun q => !q.2.isEmpty)).flatMap (fun q =>
    let g := engOf e.1 q.1
    [execEngineCommandComplete g, execCommandBoundarySuspend g, execEngineCommandStart g]
      ++ (if q.1 ≤ 7 then [execMatrixBlockPair g] else if q.1 = 8 ∨ q.1 = 16 then [execChainElement g]
          else (List.range (s.runners g).length).map (execEngineLineAccess g) ++ (if q.1 = 13 then [execSendEntry g] else []))))

/-- What the agents wait for (04 R99, R106, R109, 06 R153, R159, 08 R236). -/
def State.agentEvents (s : State) : List Event :=
  s.agents.flatMap (fun e =>
    let core := e.1 / 6
    let st := e.1 % 6
    (List.range e.2.pend.length).flatMap (fun k => [execLoadDataReturn core st k, execStoreLeave core (storePlace st k)])
      ++ (match e.2.wait with
        | .none => []
        | .tok _ => [execTokWaitConsume core st, execContinuationParkTimeout core st]
        | .arrive _ _ => [execArriveWaitComplete core st, execContinuationParkTimeout core st]
        | .queue _ _ => [execQueueWaitResume core st]
        | .suspend _ _ => [execTokWaitConsume core st, execArriveWaitComplete core st]))

/-- What continuations wait for (06 R162, R163). -/
def State.contEvents (s : State) : List Event :=
  let ready := s.cores.filter (fun e => !e.2.deque.isEmpty)
  s.cores.flatMap (fun e => (List.range e.2.waiting.length).map (fun k => execContinuationReady e.1 k))
    ++ ready.map (fun e => execContinuationTake e.1)
    ++ (if ready.isEmpty then [] else (List.range 128).map execContinuationSteal)

/-- What contexts wait for (14 R382, R384, R390, R391, 06 R174, 03 R93, 15 R417, R420). -/
def State.ctxEvents (s : State) : List Event :=
  s.ctxs.flatMap (fun e =>
    [execWatchdogExpire e.1, execForcedSave e.1, execContextStopComplete e.1, execPendingRecordWrite e.1, execHandlerStart e.1, execChkresetDone e.1]
      ++ (if e.2.dirty.st = 0 then [] else [execExportComplete e.1, execImportComplete e.1])
      ++ e.2.headAt.map (fun h => execPriorityAging e.1 h.1))

/-- Invalidations, revocations and destructions in progress. -/
def State.jobEvents (s : State) : List Event :=
  s.jobs.flatMap (fun j => match j.kind with
    | .reset _ => []
    | .tlbRange _ _ => [execTlbInvComplete j.id]
    | .tlbSpace => [execTlbInvComplete j.id]
    | .handle _ => [execHandleInvComplete j.id]
    | .revoke _ _ _ => [execRevocationComplete j.id]
    | .destroy => [execDestroyComplete j.id])

/-- What the booking units may do next (07 R187, R198, R201, R203, R208, 17 R443). -/
def State.bookEvents (s : State) : List Event :=
  (List.range s.book.offers.length).map execOfferLapse
    ++ s.book.recs.flatMap (fun e => e.2.steps.filterMap (fun x => match x.leg with | .asked _ => some (execPrepareTimeout x.tag) | _ => none))
    ++ s.book.freed.map (fun r => execBackfill r.1 r.2.1)
    ++ (s.book.recs.filter (fun e => e.2.live)).map (fun e => execBookingSearch (BitVec.ofNat 32 (handleOf e.1 e.2.gen)))
    ++ [execWaitListSearch 0, execWaitListSearch 1, execTaskAdmission 0, execTaskAdmission 1]

/-- The events that may be due, in the order of the machine's own rule (log 2); an event that is not due changes nothing. -/
def State.dueEvents (s : State) : List Event :=
  match s.dev.boot with
  | .up =>
    s.jobEvents ++ s.ctxEvents ++ s.agentEvents ++ s.engineEvents ++ s.contEvents ++ s.bookEvents
      ++ (if s.dev.hk.isEmpty then [] else [execAttestationReport])
  | .waiting => [execRootContextStart, execAttestationReport]
  | _ => []

/-- What the first event that changes the state makes of it. -/
def firstDue (s : State) : List Event → Option State
  | [] => none
  | f :: l =>
    match f s with
    | .next t => if t = s then firstDue s l else some t
    | _ => firstDue s l

/-- A handle-table entry cached (01 R40). -/
def State.fillHandle (s : State) (c i : Nat) : State :=
  let rest := s.dev.hnd.filter (fun e => !(e.1 == c && e.2.1 == i))
  let t := { s with dev := { s.dev with hnd := rest } }
  let logn := bits (s.cw c 2) 56 52
  if logn = 0 ∨ 20 < logn ∨ 2 ^ logn ≤ i then s else { s with dev := { s.dev with hnd := (c, i, t.hEntry c i) :: rest } }

/-- A translation put first in its die's TLB, which holds 8,192 (01 R24): beyond that its oldest entry leaves (DESIGN CHOICE, log 75). -/
def State.putTlb (s : State) (e : TlbE) : State :=
  let l := e :: s.dev.tlb
  let l := if (l.filter (fun x => x.die == e.die)).length ≤ 8192 then l else (l.reverse.eraseP (fun x => x.die == e.die)).reverse
  { s with dev := { s.dev with tlb := l } }

/-- A composed translation cached in a die's TLB (01 R24, R25): walked afresh; a walk that fails caches nothing. DESIGN CHOICE (log 75):
the walk of such a fill sets A, and D where it fills for a write, in the entries it uses, though no access is made (01 R22). -/
def State.fillTlb (s : State) (die c : Nat) (va : W64) (wr : Bool) : State :=
  match xlate (s.chain c) (if wr then .write else .read) false va s with
  | (_, .error _) => s
  | (t, .ok x) =>
    let t := t.markAd
    let base := va.toNat - va.toNat % x.size
    let e : TlbE := ⟨die, c, base, x.size, x.pa - va.toNat % x.size, x.rd, x.wr, x.x, x.chk, x.chkDepth, x.policy, x.dirty,
      x.rootVa.toNat - va.toNat % x.size, x.chkVa.toNat - va.toNat % x.size⟩
    t.putTlb e

/-- A turn of the agenda that is neither an agent's nor an event's. -/
def State.serve (s : State) (t : Turn) : State :=
  match t with
  | .tlbFill die c va wr => if die < 2 ∧ (SMap.find? s.ctxs c).isSome then s.fillTlb die c va wr else s
  | .hndFill c i => if (SMap.find? s.ctxs c).isSome then s.fillHandle c i else s
  | .conflict c clu port bank n =>
    if (SMap.find? s.ctxs c).isSome ∧ clu < 16 ∧ port < 32 ∧ bank < 64 then s.conflict c clu port bank n else s
  | .cycles n => s.elapse (min n s.idleFor)
  | .regError core st file idx =>
    if file ≤ 3 ∨ file = 8 ∨ file = 9 then s.updAg core st (fun a => { a with bad := (file, idx) :: a.bad })
    else if file ≤ 7 then s.updCore core (fun k => { k with bad := (file, idx) :: k.bad })
    else s
  | .residue e => s.residueFails e
  | .agent _ _ => s
  | .event _ => s

end Sys2Proof.Machine
end

