-- ==== Sys2Proof/Machine/Step.lean ====
section
/-! DEFINITION. One step of the machine: a slot boundary that is due, then what the agenda names, then the machine's own rule. -/

namespace Sys2Proof.Machine

/-- An agent's turn: its next unit is fetched, checked and run; where it would trap, older accesses finish first (08 R239). -/
def stepAgent (s : State) (core st : Nat) : Host.Outcome State Fault Refusal :=
  match s.issue core st with
  | .done t => .next (s.olderFirst core st (t.loopEnd core st))
  | .run i early t => (match t.settle early (exec i t) with | .next r => .next (s.olderFirst core st r) | r => r)

/-- Whether a turn of an agent stops it on a fault of its own. -/
def faults (core st : Nat) (o : Host.Outcome State Fault Refusal) : Bool :=
  match o with
  | .next r => (match (r.ag core st).run with | .faulted _ => true | _ => false)
  | _ => false

/-- Whether a turn of an agent ends its loop and takes a snapshot (16 R423). -/
def endsLoop (s : State) (core st : Nat) (o : Host.Outcome State Fault Refusal) : Bool :=
  match o with
  | .next r => (s.ag core st).loop.isSome && (r.ag core st).loop.isNone && s.snap (s.ag core st).ctx != 0
  | _ => false

/-- Agents of a cluster before another in stream order, lower core first, whose loops end in the same cycle by the agenda (16 R432). -/
def loopsFirst (s : State) (core st : Nat) : List (Nat × Nat) :=
  let named := s.thisCycle.filterMap (fun t => match t with | .agent c k => some (c, k) | _ => none)
  if named.isEmpty then []
  else ((List.range 48).map (fun i => (cluOf core * 8 + i / 6, i % 6))).filter (fun e =>
    e.1 * 6 + e.2 < core * 6 + st && named.contains e && s.canIssueAt e.1 e.2 && endsLoop s e.1 e.2 (stepAgent s e.1 e.2))

/-- An agent's turn in its cycle: where it traps, the agents of its core that trap in the same cycle do so with it, in stream order (14 R398);
where it ends a loop, the snapshots of its cluster are taken in stream order, lower core first (16 R432). -/
def turnOf (s : State) (core st : Nat) : Host.Outcome State Fault Refusal :=
  let o := stepAgent s core st
  if endsLoop s core st o then
    (loopsFirst s core st ++ [(core, st)]).foldl (fun o e => match o with | .next r => stepAgent r e.1 e.2 | o => o) (.next s)
  else if !faults core st o then o
  else
    let others := (List.range 6).filter (fun k => k != st && s.canIssueAt core k && faults core k (stepAgent s core k))
    if others.isEmpty then o
    else ((List.range 6).filter (fun k => k == st || others.contains k)).foldl (fun o k =>
      match o with
      | .next r => stepAgent (r.setAg core k (s.ag core k)) core k
      | o => o) (.next s)

/-- The machine's own rule when the agenda names nothing (log 2): an event that is due, else an agent's turn, else time passes. -/
def ownStep (s : State) : Host.Outcome State Fault Refusal :=
  match firstDue s s.dueEvents with
  | some t => .next t
  | none =>
    match s.nextAgent with
    | some (core, st) => turnOf s core st
    | none => .next s.passTime

/-- One step. -/
def step (s : State) : Host.Outcome State Fault Refusal :=
  if s.slotDue then exec .slotBoundary s
  else
    match s.agenda with
    | .agent core st :: t =>
      let s := { s with agenda := t }
      if s.canIssueAt core st then turnOf s core st else .next s
    | .event i :: t =>
      let s := { s with agenda := t }
      if (keyOf i).isSome then .next s
      else if s.waitsTurn i then .next (s.later i)
      else exec i s
    | x :: t => .next ({ s with agenda := t }.serve x)
    | [] => ownStep s

/-- The state with an instruction placed where the machine fetches next (log 40). -/
def State.withFetchWord (s : State) (nbits w : Nat) : State := s.place (tableWords nbits w)

end Sys2Proof.Machine
end

