-- ==== Sys2Proof/Laws/SMap.lean ====
section
/-! SUPPORT. Laws of sparse storage: reading after writing, and the canonical form. -/

namespace Sys2Proof.Machine.SMap

variable {α : Type}

@[simp] theorem find?_nil (k : Nat) : find? ([] : SMap α) k = none := rfl

theorem find?_cons (e : Nat × α) (t : SMap α) (k : Nat) : find? (e :: t) k = if e.1 = k then some e.2 else find? t k := by
  by_cases h : e.1 = k <;> simp [find?, h]

theorem find?_ins (m : SMap α) (k j : Nat) (v : α) (h : find? m k = none) :
    find? (ins m k v) j = if j = k then some v else find? m j := by
  induction m with
  | nil => simp [ins, find?_cons, eq_comm]
  | cons e t ih =>
    rw [find?_cons] at h
    split at h
    · cases h
    next hk =>
      by_cases hlt : k < e.1 <;> simp only [ins, hlt, if_true, if_false, find?_cons]
      · by_cases hj : j = k
        · simp [hj]
        · simp [hj, Ne.symm hj]
      · rw [ih h]
        by_cases hj : j = k
        · subst hj; simp [hk]
        · simp [hj]

theorem find?_del (m : SMap α) (k j : Nat) : find? (del m k) j = if j = k then none else find? m j := by
  induction m with
  | nil => simp [del]
  | cons e t ih =>
    by_cases hk : e.1 = k
    · have : del (e :: t) k = del t k := by simp [del, hk]
      rw [this, ih, find?_cons]
      by_cases hj : j = k
      · simp [hj]
      · simp [hj, hk, Ne.symm hj]
    · have : del (e :: t) k = e :: del t k := by simp [del, hk]
      rw [this, find?_cons, find?_cons, ih]
      by_cases hj : j = k
      · subst hj; simp [hk]
      · simp [hj]

/-- Reading after putting. -/
theorem find?_put (m : SMap α) (k j : Nat) (v : α) : find? (put m k v) j = if j = k then some v else find? m j := by
  rw [put, find?_ins _ _ _ _ (by simp [find?_del]), find?_del]
  split <;> simp_all

@[simp] theorem find?_put_same (m : SMap α) (k : Nat) (v : α) : find? (put m k v) k = some v := by simp [find?_put]

theorem find?_put_ne (m : SMap α) {k j : Nat} (v : α) (h : j ≠ k) : find? (put m k v) j = find? m j := by simp [find?_put, h]

/-- Reading after setting. -/
theorem get_set [DecidableEq α] (d : α) (m : SMap α) (k j : Nat) (v : α) : get d (set d m k v) j = if j = k then v else get d m j := by
  unfold get set
  split
  next h => rw [find?_del]; split <;> simp_all
  next h => rw [find?_put]; split <;> simp_all

@[simp] theorem get_set_same [DecidableEq α] (d : α) (m : SMap α) (k : Nat) (v : α) : get d (set d m k v) k = v := by simp [get_set]

theorem get_set_ne [DecidableEq α] (d : α) (m : SMap α) {k j : Nat} (v : α) (h : j ≠ k) : get d (set d m k v) j = get d m j := by
  simp [get_set, h]

@[simp] theorem get_nil (d : α) (k : Nat) : get d [] k = d := rfl

/-- Reading in a map changed under one key. -/
theorem find?_upd (m : SMap α) (k j : Nat) (f : α → α) : find? (upd m k f) j = if j = k then (find? m k).map f else find? m j := by
  induction m with
  | nil => simp [upd]
  | cons e t ih =>
    have hc : upd (e :: t) k f = (if e.1 == k then (k, f e.2) else e) :: upd t k f := rfl
    rw [hc, find?_cons, ih, find?_cons, find?_cons]
    by_cases he : e.1 = k <;> by_cases hj : j = k
    · simp [he, hj]
    · have : ¬ k = j := fun h => hj h.symm
      simp [he, hj, this]
    · simp [he, hj]
    · simp [he, hj]

/-- The entries that a test keeps. -/
theorem find?_keep_of (m : SMap α) (p : Nat → α → Bool) (k : Nat) (h : ∀ v, p k v = true) : find? (keep m p) k = find? m k := by
  induction m with
  | nil => rfl
  | cons e t ih =>
    by_cases hp : p e.1 e.2 = true
    · have : keep (e :: t) p = e :: keep t p := by simp [keep, hp]
      rw [this, find?_cons, find?_cons, ih]
    · have : keep (e :: t) p = keep t p := by simp [keep, hp]
      rw [this, ih, find?_cons]
      by_cases he : e.1 = k
      · exact absurd (he ▸ h e.2) hp
      · simp [he]

/-- Every key of a rising list is above its first. -/
theorem rising_cons {e : Nat × α} {t : SMap α} : rising (e :: t) = true ↔ (∀ x ∈ t, e.1 < x.1) ∧ rising t = true := by
  induction t generalizing e with
  | nil => simp [rising]
  | cons x r ih =>
    simp only [rising, Bool.and_eq_true, decide_eq_true_eq, List.mem_cons, forall_eq_or_imp]
    constructor
    · rintro ⟨h, hr⟩
      exact ⟨⟨h, fun y hy => Nat.lt_trans h ((ih.1 hr).1 y hy)⟩, hr⟩
    · rintro ⟨⟨h, _⟩, hr⟩
      exact ⟨h, hr⟩

theorem rising_filter (m : SMap α) (p : Nat × α → Bool) (h : rising m = true) : rising (m.filter p) = true := by
  induction m with
  | nil => rfl
  | cons e t ih =>
    obtain ⟨h1, h2⟩ := rising_cons.1 h
    by_cases hp : p e = true
    · rw [List.filter_cons_of_pos hp]
      exact rising_cons.2 ⟨fun x hx => h1 x ((List.mem_filter.1 hx).1), ih h2⟩
    · rw [List.filter_cons_of_neg hp]
      exact ih h2

theorem mem_ins (m : SMap α) (k : Nat) (v : α) (x : Nat × α) : x ∈ ins m k v ↔ x = (k, v) ∨ x ∈ m := by
  induction m with
  | nil => simp [ins]
  | cons e t ih =>
    by_cases h : k < e.1 <;> simp only [ins, h, if_true, if_false, List.mem_cons]
    rw [ih]
    exact or_left_comm

theorem rising_ins (m : SMap α) (k : Nat) (v : α) (h : rising m = true) (hk : ∀ x ∈ m, x.1 ≠ k) : rising (ins m k v) = true := by
  induction m with
  | nil => rfl
  | cons e t ih =>
    obtain ⟨h1, h2⟩ := rising_cons.1 h
    by_cases hlt : k < e.1 <;> simp only [ins, hlt, if_true, if_false]
    · refine rising_cons.2 ⟨?_, h⟩
      intro x hx
      rcases List.mem_cons.1 hx with rfl | hx
      · exact hlt
      · exact Nat.lt_trans hlt (h1 x hx)
    · refine rising_cons.2 ⟨?_, ih h2 (fun x hx => hk x (List.mem_cons_of_mem _ hx))⟩
      intro x hx
      rcases (mem_ins t k v x).1 hx with rfl | hx
      · exact Nat.lt_of_le_of_ne (Nat.le_of_not_lt hlt) (hk e List.mem_cons_self)
      · exact h1 x hx

variable [DecidableEq α]

theorem canon_iff (d : α) (m : SMap α) : canon d m = true ↔ rising m = true ∧ ∀ x ∈ m, x.2 ≠ d := by
  simp [canon, List.all_eq_true]

@[simp] theorem canon_nil (d : α) : canon d ([] : SMap α) = true := rfl

theorem canon_filter (d : α) (m : SMap α) (p : Nat × α → Bool) (h : canon d m = true) : canon d (m.filter p) = true := by
  rw [canon_iff] at h ⊢
  exact ⟨rising_filter m p h.1, fun x hx => h.2 x ((List.mem_filter.1 hx).1)⟩

theorem canon_keep (d : α) (m : SMap α) (p : Nat → α → Bool) (h : canon d m = true) : canon d (keep m p) = true :=
  canon_filter d m _ h

theorem canon_del (d : α) (m : SMap α) (k : Nat) (h : canon d m = true) : canon d (del m k) = true := canon_filter d m _ h

/-- Setting keeps the canonical form. -/
theorem canon_set (d : α) (m : SMap α) (k : Nat) (v : α) (h : canon d m = true) : canon d (set d m k v) = true := by
  unfold set
  split
  · exact canon_del d m k h
  next hv =>
    have hd := (canon_iff d _).1 (canon_del d m k h)
    rw [canon_iff]
    refine ⟨rising_ins _ _ _ hd.1 (fun x hx => by simpa [del] using (List.mem_filter.1 hx).2), ?_⟩
    intro x hx
    rcases (mem_ins _ k v x).1 hx with rfl | hx
    · exact hv
    · exact hd.2 x hx

end Sys2Proof.Machine.SMap
end

