-- ==== Sys2Proof/Laws/State.lean ====
section
/-! SUPPORT. What each update of the state leaves alone, field by field, and what reading an agent, a core or a context after an
update gives. -/

namespace Sys2Proof.Machine.State

@[simp] theorem setAg_cycle (s : State) (core st : Nat) (a : Agent) : (s.setAg core st a).cycle = s.cycle := rfl
@[simp] theorem setAg_cores (s : State) (core st : Nat) (a : Agent) : (s.setAg core st a).cores = s.cores := rfl
@[simp] theorem setAg_ctxs (s : State) (core st : Nat) (a : Agent) : (s.setAg core st a).ctxs = s.ctxs := rfl
@[simp] theorem setAg_launches (s : State) (core st : Nat) (a : Agent) : (s.setAg core st a).launches = s.launches := rfl
@[simp] theorem setAg_mem (s : State) (core st : Nat) (a : Agent) : (s.setAg core st a).mem = s.mem := rfl
@[simp] theorem setAg_races (s : State) (core st : Nat) (a : Agent) : (s.setAg core st a).races = s.races := rfl
@[simp] theorem setAg_cepochs (s : State) (core st : Nat) (a : Agent) : (s.setAg core st a).cepochs = s.cepochs := rfl
@[simp] theorem setAg_dev (s : State) (core st : Nat) (a : Agent) : (s.setAg core st a).dev = s.dev := rfl
@[simp] theorem setAg_book (s : State) (core st : Nat) (a : Agent) : (s.setAg core st a).book = s.book := rfl
@[simp] theorem setAg_jobs (s : State) (core st : Nat) (a : Agent) : (s.setAg core st a).jobs = s.jobs := rfl
@[simp] theorem setAg_nextId (s : State) (core st : Nat) (a : Agent) : (s.setAg core st a).nextId = s.nextId := rfl
@[simp] theorem setAg_flights (s : State) (core st : Nat) (a : Agent) : (s.setAg core st a).flights = s.flights := rfl
@[simp] theorem setAg_fxOut (s : State) (core st : Nat) (a : Agent) : (s.setAg core st a).fxOut = s.fxOut := rfl
@[simp] theorem setAg_hostOut (s : State) (core st : Nat) (a : Agent) : (s.setAg core st a).hostOut = s.hostOut := rfl
@[simp] theorem setAg_slotNo (s : State) (core st : Nat) (a : Agent) : (s.setAg core st a).slotNo = s.slotNo := rfl
@[simp] theorem setAg_slotAt (s : State) (core st : Nat) (a : Agent) : (s.setAg core st a).slotAt = s.slotAt := rfl
@[simp] theorem setAg_adw (s : State) (core st : Nat) (a : Agent) : (s.setAg core st a).adw = s.adw := rfl
@[simp] theorem setAg_cu (s : State) (core st : Nat) (a : Agent) : (s.setAg core st a).cu = s.cu := rfl
@[simp] theorem setAg_fresh (s : State) (core st : Nat) (a : Agent) : (s.setAg core st a).fresh = s.fresh := rfl
@[simp] theorem setAg_picks (s : State) (core st : Nat) (a : Agent) : (s.setAg core st a).picks = s.picks := rfl
@[simp] theorem setAg_agenda (s : State) (core st : Nat) (a : Agent) : (s.setAg core st a).agenda = s.agenda := rfl
@[simp] theorem setAg_plan (s : State) (core st : Nat) (a : Agent) : (s.setAg core st a).plan = s.plan := rfl

@[simp] theorem updAg_cycle (s : State) (core st : Nat) (f : Agent → Agent) : (s.updAg core st f).cycle = s.cycle := rfl
@[simp] theorem updAg_cores (s : State) (core st : Nat) (f : Agent → Agent) : (s.updAg core st f).cores = s.cores := rfl
@[simp] theorem updAg_ctxs (s : State) (core st : Nat) (f : Agent → Agent) : (s.updAg core st f).ctxs = s.ctxs := rfl
@[simp] theorem updAg_launches (s : State) (core st : Nat) (f : Agent → Agent) : (s.updAg core st f).launches = s.launches := rfl
@[simp] theorem updAg_mem (s : State) (core st : Nat) (f : Agent → Agent) : (s.updAg core st f).mem = s.mem := rfl
@[simp] theorem updAg_races (s : State) (core st : Nat) (f : Agent → Agent) : (s.updAg core st f).races = s.races := rfl
@[simp] theorem updAg_cepochs (s : State) (core st : Nat) (f : Agent → Agent) : (s.updAg core st f).cepochs = s.cepochs := rfl
@[simp] theorem updAg_dev (s : State) (core st : Nat) (f : Agent → Agent) : (s.updAg core st f).dev = s.dev := rfl
@[simp] theorem updAg_book (s : State) (core st : Nat) (f : Agent → Agent) : (s.updAg core st f).book = s.book := rfl
@[simp] theorem updAg_jobs (s : State) (core st : Nat) (f : Agent → Agent) : (s.updAg core st f).jobs = s.jobs := rfl
@[simp] theorem updAg_nextId (s : State) (core st : Nat) (f : Agent → Agent) : (s.updAg core st f).nextId = s.nextId := rfl
@[simp] theorem updAg_flights (s : State) (core st : Nat) (f : Agent → Agent) : (s.updAg core st f).flights = s.flights := rfl
@[simp] theorem updAg_fxOut (s : State) (core st : Nat) (f : Agent → Agent) : (s.updAg core st f).fxOut = s.fxOut := rfl
@[simp] theorem updAg_hostOut (s : State) (core st : Nat) (f : Agent → Agent) : (s.updAg core st f).hostOut = s.hostOut := rfl
@[simp] theorem updAg_slotNo (s : State) (core st : Nat) (f : Agent → Agent) : (s.updAg core st f).slotNo = s.slotNo := rfl
@[simp] theorem updAg_slotAt (s : State) (core st : Nat) (f : Agent → Agent) : (s.updAg core st f).slotAt = s.slotAt := rfl
@[simp] theorem updAg_adw (s : State) (core st : Nat) (f : Agent → Agent) : (s.updAg core st f).adw = s.adw := rfl
@[simp] theorem updAg_cu (s : State) (core st : Nat) (f : Agent → Agent) : (s.updAg core st f).cu = s.cu := rfl
@[simp] theorem updAg_fresh (s : State) (core st : Nat) (f : Agent → Agent) : (s.updAg core st f).fresh = s.fresh := rfl
@[simp] theorem updAg_picks (s : State) (core st : Nat) (f : Agent → Agent) : (s.updAg core st f).picks = s.picks := rfl
@[simp] theorem updAg_agenda (s : State) (core st : Nat) (f : Agent → Agent) : (s.updAg core st f).agenda = s.agenda := rfl
@[simp] theorem updAg_plan (s : State) (core st : Nat) (f : Agent → Agent) : (s.updAg core st f).plan = s.plan := rfl

@[simp] theorem updMe_cycle (s : State) (f : Agent → Agent) : (s.updMe f).cycle = s.cycle := rfl
@[simp] theorem updMe_cores (s : State) (f : Agent → Agent) : (s.updMe f).cores = s.cores := rfl
@[simp] theorem updMe_ctxs (s : State) (f : Agent → Agent) : (s.updMe f).ctxs = s.ctxs := rfl
@[simp] theorem updMe_launches (s : State) (f : Agent → Agent) : (s.updMe f).launches = s.launches := rfl
@[simp] theorem updMe_mem (s : State) (f : Agent → Agent) : (s.updMe f).mem = s.mem := rfl
@[simp] theorem updMe_races (s : State) (f : Agent → Agent) : (s.updMe f).races = s.races := rfl
@[simp] theorem updMe_cepochs (s : State) (f : Agent → Agent) : (s.updMe f).cepochs = s.cepochs := rfl
@[simp] theorem updMe_dev (s : State) (f : Agent → Agent) : (s.updMe f).dev = s.dev := rfl
@[simp] theorem updMe_book (s : State) (f : Agent → Agent) : (s.updMe f).book = s.book := rfl
@[simp] theorem updMe_jobs (s : State) (f : Agent → Agent) : (s.updMe f).jobs = s.jobs := rfl
@[simp] theorem updMe_nextId (s : State) (f : Agent → Agent) : (s.updMe f).nextId = s.nextId := rfl
@[simp] theorem updMe_flights (s : State) (f : Agent → Agent) : (s.updMe f).flights = s.flights := rfl
@[simp] theorem updMe_fxOut (s : State) (f : Agent → Agent) : (s.updMe f).fxOut = s.fxOut := rfl
@[simp] theorem updMe_hostOut (s : State) (f : Agent → Agent) : (s.updMe f).hostOut = s.hostOut := rfl
@[simp] theorem updMe_slotNo (s : State) (f : Agent → Agent) : (s.updMe f).slotNo = s.slotNo := rfl
@[simp] theorem updMe_slotAt (s : State) (f : Agent → Agent) : (s.updMe f).slotAt = s.slotAt := rfl
@[simp] theorem updMe_adw (s : State) (f : Agent → Agent) : (s.updMe f).adw = s.adw := rfl
@[simp] theorem updMe_cu (s : State) (f : Agent → Agent) : (s.updMe f).cu = s.cu := rfl
@[simp] theorem updMe_fresh (s : State) (f : Agent → Agent) : (s.updMe f).fresh = s.fresh := rfl
@[simp] theorem updMe_picks (s : State) (f : Agent → Agent) : (s.updMe f).picks = s.picks := rfl
@[simp] theorem updMe_agenda (s : State) (f : Agent → Agent) : (s.updMe f).agenda = s.agenda := rfl
@[simp] theorem updMe_plan (s : State) (f : Agent → Agent) : (s.updMe f).plan = s.plan := rfl

@[simp] theorem updCore_cycle (s : State) (c : Nat) (f : Core → Core) : (s.updCore c f).cycle = s.cycle := rfl
@[simp] theorem updCore_agents (s : State) (c : Nat) (f : Core → Core) : (s.updCore c f).agents = s.agents := rfl
@[simp] theorem updCore_ctxs (s : State) (c : Nat) (f : Core → Core) : (s.updCore c f).ctxs = s.ctxs := rfl
@[simp] theorem updCore_launches (s : State) (c : Nat) (f : Core → Core) : (s.updCore c f).launches = s.launches := rfl
@[simp] theorem updCore_mem (s : State) (c : Nat) (f : Core → Core) : (s.updCore c f).mem = s.mem := rfl
@[simp] theorem updCore_races (s : State) (c : Nat) (f : Core → Core) : (s.updCore c f).races = s.races := rfl
@[simp] theorem updCore_cepochs (s : State) (c : Nat) (f : Core → Core) : (s.updCore c f).cepochs = s.cepochs := rfl
@[simp] theorem updCore_dev (s : State) (c : Nat) (f : Core → Core) : (s.updCore c f).dev = s.dev := rfl
@[simp] theorem updCore_book (s : State) (c : Nat) (f : Core → Core) : (s.updCore c f).book = s.book := rfl
@[simp] theorem updCore_jobs (s : State) (c : Nat) (f : Core → Core) : (s.updCore c f).jobs = s.jobs := rfl
@[simp] theorem updCore_nextId (s : State) (c : Nat) (f : Core → Core) : (s.updCore c f).nextId = s.nextId := rfl
@[simp] theorem updCore_flights (s : State) (c : Nat) (f : Core → Core) : (s.updCore c f).flights = s.flights := rfl
@[simp] theorem updCore_fxOut (s : State) (c : Nat) (f : Core → Core) : (s.updCore c f).fxOut = s.fxOut := rfl
@[simp] theorem updCore_hostOut (s : State) (c : Nat) (f : Core → Core) : (s.updCore c f).hostOut = s.hostOut := rfl
@[simp] theorem updCore_slotNo (s : State) (c : Nat) (f : Core → Core) : (s.updCore c f).slotNo = s.slotNo := rfl
@[simp] theorem updCore_slotAt (s : State) (c : Nat) (f : Core → Core) : (s.updCore c f).slotAt = s.slotAt := rfl
@[simp] theorem updCore_adw (s : State) (c : Nat) (f : Core → Core) : (s.updCore c f).adw = s.adw := rfl
@[simp] theorem updCore_cu (s : State) (c : Nat) (f : Core → Core) : (s.updCore c f).cu = s.cu := rfl
@[simp] theorem updCore_fresh (s : State) (c : Nat) (f : Core → Core) : (s.updCore c f).fresh = s.fresh := rfl
@[simp] theorem updCore_picks (s : State) (c : Nat) (f : Core → Core) : (s.updCore c f).picks = s.picks := rfl
@[simp] theorem updCore_agenda (s : State) (c : Nat) (f : Core → Core) : (s.updCore c f).agenda = s.agenda := rfl
@[simp] theorem updCore_plan (s : State) (c : Nat) (f : Core → Core) : (s.updCore c f).plan = s.plan := rfl

@[simp] theorem setEq_cycle (s : State) (c q : Nat) (l : List Cmd) : (s.setEq c q l).cycle = s.cycle := rfl
@[simp] theorem setEq_agents (s : State) (c q : Nat) (l : List Cmd) : (s.setEq c q l).agents = s.agents := rfl
@[simp] theorem setEq_ctxs (s : State) (c q : Nat) (l : List Cmd) : (s.setEq c q l).ctxs = s.ctxs := rfl
@[simp] theorem setEq_launches (s : State) (c q : Nat) (l : List Cmd) : (s.setEq c q l).launches = s.launches := rfl
@[simp] theorem setEq_mem (s : State) (c q : Nat) (l : List Cmd) : (s.setEq c q l).mem = s.mem := rfl
@[simp] theorem setEq_races (s : State) (c q : Nat) (l : List Cmd) : (s.setEq c q l).races = s.races := rfl
@[simp] theorem setEq_cepochs (s : State) (c q : Nat) (l : List Cmd) : (s.setEq c q l).cepochs = s.cepochs := rfl
@[simp] theorem setEq_dev (s : State) (c q : Nat) (l : List Cmd) : (s.setEq c q l).dev = s.dev := rfl
@[simp] theorem setEq_book (s : State) (c q : Nat) (l : List Cmd) : (s.setEq c q l).book = s.book := rfl
@[simp] theorem setEq_jobs (s : State) (c q : Nat) (l : List Cmd) : (s.setEq c q l).jobs = s.jobs := rfl
@[simp] theorem setEq_nextId (s : State) (c q : Nat) (l : List Cmd) : (s.setEq c q l).nextId = s.nextId := rfl
@[simp] theorem setEq_flights (s : State) (c q : Nat) (l : List Cmd) : (s.setEq c q l).flights = s.flights := rfl
@[simp] theorem setEq_fxOut (s : State) (c q : Nat) (l : List Cmd) : (s.setEq c q l).fxOut = s.fxOut := rfl
@[simp] theorem setEq_hostOut (s : State) (c q : Nat) (l : List Cmd) : (s.setEq c q l).hostOut = s.hostOut := rfl
@[simp] theorem setEq_slotNo (s : State) (c q : Nat) (l : List Cmd) : (s.setEq c q l).slotNo = s.slotNo := rfl
@[simp] theorem setEq_slotAt (s : State) (c q : Nat) (l : List Cmd) : (s.setEq c q l).slotAt = s.slotAt := rfl
@[simp] theorem setEq_adw (s : State) (c q : Nat) (l : List Cmd) : (s.setEq c q l).adw = s.adw := rfl
@[simp] theorem setEq_cu (s : State) (c q : Nat) (l : List Cmd) : (s.setEq c q l).cu = s.cu := rfl
@[simp] theorem setEq_fresh (s : State) (c q : Nat) (l : List Cmd) : (s.setEq c q l).fresh = s.fresh := rfl
@[simp] theorem setEq_picks (s : State) (c q : Nat) (l : List Cmd) : (s.setEq c q l).picks = s.picks := rfl
@[simp] theorem setEq_agenda (s : State) (c q : Nat) (l : List Cmd) : (s.setEq c q l).agenda = s.agenda := rfl
@[simp] theorem setEq_plan (s : State) (c q : Nat) (l : List Cmd) : (s.setEq c q l).plan = s.plan := rfl

@[simp] theorem setCtx_cycle (s : State) (c : Nat) (x : Ctx) : (s.setCtx c x).cycle = s.cycle := rfl
@[simp] theorem setCtx_agents (s : State) (c : Nat) (x : Ctx) : (s.setCtx c x).agents = s.agents := rfl
@[simp] theorem setCtx_cores (s : State) (c : Nat) (x : Ctx) : (s.setCtx c x).cores = s.cores := rfl
@[simp] theorem setCtx_launches (s : State) (c : Nat) (x : Ctx) : (s.setCtx c x).launches = s.launches := rfl
@[simp] theorem setCtx_mem (s : State) (c : Nat) (x : Ctx) : (s.setCtx c x).mem = s.mem := rfl
@[simp] theorem setCtx_races (s : State) (c : Nat) (x : Ctx) : (s.setCtx c x).races = s.races := rfl
@[simp] theorem setCtx_cepochs (s : State) (c : Nat) (x : Ctx) : (s.setCtx c x).cepochs = s.cepochs := rfl
@[simp] theorem setCtx_dev (s : State) (c : Nat) (x : Ctx) : (s.setCtx c x).dev = s.dev := rfl
@[simp] theorem setCtx_book (s : State) (c : Nat) (x : Ctx) : (s.setCtx c x).book = s.book := rfl
@[simp] theorem setCtx_jobs (s : State) (c : Nat) (x : Ctx) : (s.setCtx c x).jobs = s.jobs := rfl
@[simp] theorem setCtx_nextId (s : State) (c : Nat) (x : Ctx) : (s.setCtx c x).nextId = s.nextId := rfl
@[simp] theorem setCtx_flights (s : State) (c : Nat) (x : Ctx) : (s.setCtx c x).flights = s.flights := rfl
@[simp] theorem setCtx_fxOut (s : State) (c : Nat) (x : Ctx) : (s.setCtx c x).fxOut = s.fxOut := rfl
@[simp] theorem setCtx_hostOut (s : State) (c : Nat) (x : Ctx) : (s.setCtx c x).hostOut = s.hostOut := rfl
@[simp] theorem setCtx_slotNo (s : State) (c : Nat) (x : Ctx) : (s.setCtx c x).slotNo = s.slotNo := rfl
@[simp] theorem setCtx_slotAt (s : State) (c : Nat) (x : Ctx) : (s.setCtx c x).slotAt = s.slotAt := rfl
@[simp] theorem setCtx_adw (s : State) (c : Nat) (x : Ctx) : (s.setCtx c x).adw = s.adw := rfl
@[simp] theorem setCtx_cu (s : State) (c : Nat) (x : Ctx) : (s.setCtx c x).cu = s.cu := rfl
@[simp] theorem setCtx_fresh (s : State) (c : Nat) (x : Ctx) : (s.setCtx c x).fresh = s.fresh := rfl
@[simp] theorem setCtx_picks (s : State) (c : Nat) (x : Ctx) : (s.setCtx c x).picks = s.picks := rfl
@[simp] theorem setCtx_agenda (s : State) (c : Nat) (x : Ctx) : (s.setCtx c x).agenda = s.agenda := rfl
@[simp] theorem setCtx_plan (s : State) (c : Nat) (x : Ctx) : (s.setCtx c x).plan = s.plan := rfl

@[simp] theorem updCtx_cycle (s : State) (c : Nat) (f : Ctx → Ctx) : (s.updCtx c f).cycle = s.cycle := by unfold updCtx; split <;> rfl
@[simp] theorem updCtx_agents (s : State) (c : Nat) (f : Ctx → Ctx) : (s.updCtx c f).agents = s.agents := by unfold updCtx; split <;> rfl
@[simp] theorem updCtx_cores (s : State) (c : Nat) (f : Ctx → Ctx) : (s.updCtx c f).cores = s.cores := by unfold updCtx; split <;> rfl
@[simp] theorem updCtx_launches (s : State) (c : Nat) (f : Ctx → Ctx) : (s.updCtx c f).launches = s.launches := by unfold updCtx; split <;> rfl
@[simp] theorem updCtx_mem (s : State) (c : Nat) (f : Ctx → Ctx) : (s.updCtx c f).mem = s.mem := by unfold updCtx; split <;> rfl
@[simp] theorem updCtx_races (s : State) (c : Nat) (f : Ctx → Ctx) : (s.updCtx c f).races = s.races := by unfold updCtx; split <;> rfl
@[simp] theorem updCtx_cepochs (s : State) (c : Nat) (f : Ctx → Ctx) : (s.updCtx c f).cepochs = s.cepochs := by unfold updCtx; split <;> rfl
@[simp] theorem updCtx_dev (s : State) (c : Nat) (f : Ctx → Ctx) : (s.updCtx c f).dev = s.dev := by unfold updCtx; split <;> rfl
@[simp] theorem updCtx_book (s : State) (c : Nat) (f : Ctx → Ctx) : (s.updCtx c f).book = s.book := by unfold updCtx; split <;> rfl
@[simp] theorem updCtx_jobs (s : State) (c : Nat) (f : Ctx → Ctx) : (s.updCtx c f).jobs = s.jobs := by unfold updCtx; split <;> rfl
@[simp] theorem updCtx_nextId (s : State) (c : Nat) (f : Ctx → Ctx) : (s.updCtx c f).nextId = s.nextId := by unfold updCtx; split <;> rfl
@[simp] theorem updCtx_flights (s : State) (c : Nat) (f : Ctx → Ctx) : (s.updCtx c f).flights = s.flights := by unfold updCtx; split <;> rfl
@[simp] theorem updCtx_fxOut (s : State) (c : Nat) (f : Ctx → Ctx) : (s.updCtx c f).fxOut = s.fxOut := by unfold updCtx; split <;> rfl
@[simp] theorem updCtx_hostOut (s : State) (c : Nat) (f : Ctx → Ctx) : (s.updCtx c f).hostOut = s.hostOut := by unfold updCtx; split <;> rfl
@[simp] theorem updCtx_slotNo (s : State) (c : Nat) (f : Ctx → Ctx) : (s.updCtx c f).slotNo = s.slotNo := by unfold updCtx; split <;> rfl
@[simp] theorem updCtx_slotAt (s : State) (c : Nat) (f : Ctx → Ctx) : (s.updCtx c f).slotAt = s.slotAt := by unfold updCtx; split <;> rfl
@[simp] theorem updCtx_adw (s : State) (c : Nat) (f : Ctx → Ctx) : (s.updCtx c f).adw = s.adw := by unfold updCtx; split <;> rfl
@[simp] theorem updCtx_cu (s : State) (c : Nat) (f : Ctx → Ctx) : (s.updCtx c f).cu = s.cu := by unfold updCtx; split <;> rfl
@[simp] theorem updCtx_fresh (s : State) (c : Nat) (f : Ctx → Ctx) : (s.updCtx c f).fresh = s.fresh := by unfold updCtx; split <;> rfl
@[simp] theorem updCtx_picks (s : State) (c : Nat) (f : Ctx → Ctx) : (s.updCtx c f).picks = s.picks := by unfold updCtx; split <;> rfl
@[simp] theorem updCtx_agenda (s : State) (c : Nat) (f : Ctx → Ctx) : (s.updCtx c f).agenda = s.agenda := by unfold updCtx; split <;> rfl
@[simp] theorem updCtx_plan (s : State) (c : Nat) (f : Ctx → Ctx) : (s.updCtx c f).plan = s.plan := by unfold updCtx; split <;> rfl

@[simp] theorem setRs_cycle (s : State) (k : Nat) (x : RaceSt) : (s.setRs k x).cycle = s.cycle := rfl
@[simp] theorem setRs_agents (s : State) (k : Nat) (x : RaceSt) : (s.setRs k x).agents = s.agents := rfl
@[simp] theorem setRs_cores (s : State) (k : Nat) (x : RaceSt) : (s.setRs k x).cores = s.cores := rfl
@[simp] theorem setRs_ctxs (s : State) (k : Nat) (x : RaceSt) : (s.setRs k x).ctxs = s.ctxs := rfl
@[simp] theorem setRs_launches (s : State) (k : Nat) (x : RaceSt) : (s.setRs k x).launches = s.launches := rfl
@[simp] theorem setRs_mem (s : State) (k : Nat) (x : RaceSt) : (s.setRs k x).mem = s.mem := rfl
@[simp] theorem setRs_cepochs (s : State) (k : Nat) (x : RaceSt) : (s.setRs k x).cepochs = s.cepochs := rfl
@[simp] theorem setRs_dev (s : State) (k : Nat) (x : RaceSt) : (s.setRs k x).dev = s.dev := rfl
@[simp] theorem setRs_book (s : State) (k : Nat) (x : RaceSt) : (s.setRs k x).book = s.book := rfl
@[simp] theorem setRs_jobs (s : State) (k : Nat) (x : RaceSt) : (s.setRs k x).jobs = s.jobs := rfl
@[simp] theorem setRs_nextId (s : State) (k : Nat) (x : RaceSt) : (s.setRs k x).nextId = s.nextId := rfl
@[simp] theorem setRs_flights (s : State) (k : Nat) (x : RaceSt) : (s.setRs k x).flights = s.flights := rfl
@[simp] theorem setRs_fxOut (s : State) (k : Nat) (x : RaceSt) : (s.setRs k x).fxOut = s.fxOut := rfl
@[simp] theorem setRs_hostOut (s : State) (k : Nat) (x : RaceSt) : (s.setRs k x).hostOut = s.hostOut := rfl
@[simp] theorem setRs_slotNo (s : State) (k : Nat) (x : RaceSt) : (s.setRs k x).slotNo = s.slotNo := rfl
@[simp] theorem setRs_slotAt (s : State) (k : Nat) (x : RaceSt) : (s.setRs k x).slotAt = s.slotAt := rfl
@[simp] theorem setRs_adw (s : State) (k : Nat) (x : RaceSt) : (s.setRs k x).adw = s.adw := rfl
@[simp] theorem setRs_cu (s : State) (k : Nat) (x : RaceSt) : (s.setRs k x).cu = s.cu := rfl
@[simp] theorem setRs_fresh (s : State) (k : Nat) (x : RaceSt) : (s.setRs k x).fresh = s.fresh := rfl
@[simp] theorem setRs_picks (s : State) (k : Nat) (x : RaceSt) : (s.setRs k x).picks = s.picks := rfl
@[simp] theorem setRs_agenda (s : State) (k : Nat) (x : RaceSt) : (s.setRs k x).agenda = s.agenda := rfl
@[simp] theorem setRs_plan (s : State) (k : Nat) (x : RaceSt) : (s.setRs k x).plan = s.plan := rfl

@[simp] theorem setAcc_cycle (s : State) (c r k : Nat) (v : W32) : (s.setAcc c r k v).cycle = s.cycle := rfl
@[simp] theorem setAcc_agents (s : State) (c r k : Nat) (v : W32) : (s.setAcc c r k v).agents = s.agents := rfl
@[simp] theorem setAcc_cores (s : State) (c r k : Nat) (v : W32) : (s.setAcc c r k v).cores = s.cores := rfl
@[simp] theorem setAcc_ctxs (s : State) (c r k : Nat) (v : W32) : (s.setAcc c r k v).ctxs = s.ctxs := rfl
@[simp] theorem setAcc_launches (s : State) (c r k : Nat) (v : W32) : (s.setAcc c r k v).launches = s.launches := rfl
@[simp] theorem setAcc_races (s : State) (c r k : Nat) (v : W32) : (s.setAcc c r k v).races = s.races := rfl
@[simp] theorem setAcc_cepochs (s : State) (c r k : Nat) (v : W32) : (s.setAcc c r k v).cepochs = s.cepochs := rfl
@[simp] theorem setAcc_dev (s : State) (c r k : Nat) (v : W32) : (s.setAcc c r k v).dev = s.dev := rfl
@[simp] theorem setAcc_book (s : State) (c r k : Nat) (v : W32) : (s.setAcc c r k v).book = s.book := rfl
@[simp] theorem setAcc_jobs (s : State) (c r k : Nat) (v : W32) : (s.setAcc c r k v).jobs = s.jobs := rfl
@[simp] theorem setAcc_nextId (s : State) (c r k : Nat) (v : W32) : (s.setAcc c r k v).nextId = s.nextId := rfl
@[simp] theorem setAcc_flights (s : State) (c r k : Nat) (v : W32) : (s.setAcc c r k v).flights = s.flights := rfl
@[simp] theorem setAcc_fxOut (s : State) (c r k : Nat) (v : W32) : (s.setAcc c r k v).fxOut = s.fxOut := rfl
@[simp] theorem setAcc_hostOut (s : State) (c r k : Nat) (v : W32) : (s.setAcc c r k v).hostOut = s.hostOut := rfl
@[simp] theorem setAcc_slotNo (s : State) (c r k : Nat) (v : W32) : (s.setAcc c r k v).slotNo = s.slotNo := rfl
@[simp] theorem setAcc_slotAt (s : State) (c r k : Nat) (v : W32) : (s.setAcc c r k v).slotAt = s.slotAt := rfl
@[simp] theorem setAcc_adw (s : State) (c r k : Nat) (v : W32) : (s.setAcc c r k v).adw = s.adw := rfl
@[simp] theorem setAcc_cu (s : State) (c r k : Nat) (v : W32) : (s.setAcc c r k v).cu = s.cu := rfl
@[simp] theorem setAcc_fresh (s : State) (c r k : Nat) (v : W32) : (s.setAcc c r k v).fresh = s.fresh := rfl
@[simp] theorem setAcc_picks (s : State) (c r k : Nat) (v : W32) : (s.setAcc c r k v).picks = s.picks := rfl
@[simp] theorem setAcc_agenda (s : State) (c r k : Nat) (v : W32) : (s.setAcc c r k v).agenda = s.agenda := rfl
@[simp] theorem setAcc_plan (s : State) (c r k : Nat) (v : W32) : (s.setAcc c r k v).plan = s.plan := rfl

@[simp] theorem setRowPsn_cycle (s : State) (c r : Nat) (v : Bool) : (s.setRowPsn c r v).cycle = s.cycle := rfl
@[simp] theorem setRowPsn_agents (s : State) (c r : Nat) (v : Bool) : (s.setRowPsn c r v).agents = s.agents := rfl
@[simp] theorem setRowPsn_cores (s : State) (c r : Nat) (v : Bool) : (s.setRowPsn c r v).cores = s.cores := rfl
@[simp] theorem setRowPsn_ctxs (s : State) (c r : Nat) (v : Bool) : (s.setRowPsn c r v).ctxs = s.ctxs := rfl
@[simp] theorem setRowPsn_launches (s : State) (c r : Nat) (v : Bool) : (s.setRowPsn c r v).launches = s.launches := rfl
@[simp] theorem setRowPsn_races (s : State) (c r : Nat) (v : Bool) : (s.setRowPsn c r v).races = s.races := rfl
@[simp] theorem setRowPsn_cepochs (s : State) (c r : Nat) (v : Bool) : (s.setRowPsn c r v).cepochs = s.cepochs := rfl
@[simp] theorem setRowPsn_dev (s : State) (c r : Nat) (v : Bool) : (s.setRowPsn c r v).dev = s.dev := rfl
@[simp] theorem setRowPsn_book (s : State) (c r : Nat) (v : Bool) : (s.setRowPsn c r v).book = s.book := rfl
@[simp] theorem setRowPsn_jobs (s : State) (c r : Nat) (v : Bool) : (s.setRowPsn c r v).jobs = s.jobs := rfl
@[simp] theorem setRowPsn_nextId (s : State) (c r : Nat) (v : Bool) : (s.setRowPsn c r v).nextId = s.nextId := rfl
@[simp] theorem setRowPsn_flights (s : State) (c r : Nat) (v : Bool) : (s.setRowPsn c r v).flights = s.flights := rfl
@[simp] theorem setRowPsn_fxOut (s : State) (c r : Nat) (v : Bool) : (s.setRowPsn c r v).fxOut = s.fxOut := rfl
@[simp] theorem setRowPsn_hostOut (s : State) (c r : Nat) (v : Bool) : (s.setRowPsn c r v).hostOut = s.hostOut := rfl
@[simp] theorem setRowPsn_slotNo (s : State) (c r : Nat) (v : Bool) : (s.setRowPsn c r v).slotNo = s.slotNo := rfl
@[simp] theorem setRowPsn_slotAt (s : State) (c r : Nat) (v : Bool) : (s.setRowPsn c r v).slotAt = s.slotAt := rfl
@[simp] theorem setRowPsn_adw (s : State) (c r : Nat) (v : Bool) : (s.setRowPsn c r v).adw = s.adw := rfl
@[simp] theorem setRowPsn_cu (s : State) (c r : Nat) (v : Bool) : (s.setRowPsn c r v).cu = s.cu := rfl
@[simp] theorem setRowPsn_fresh (s : State) (c r : Nat) (v : Bool) : (s.setRowPsn c r v).fresh = s.fresh := rfl
@[simp] theorem setRowPsn_picks (s : State) (c r : Nat) (v : Bool) : (s.setRowPsn c r v).picks = s.picks := rfl
@[simp] theorem setRowPsn_agenda (s : State) (c r : Nat) (v : Bool) : (s.setRowPsn c r v).agenda = s.agenda := rfl
@[simp] theorem setRowPsn_plan (s : State) (c r : Nat) (v : Bool) : (s.setRowPsn c r v).plan = s.plan := rfl

@[simp] theorem wrB_cycle (s : State) (sp : Bool) (a : Nat) (v : Byte) : (s.wrB sp a v).cycle = s.cycle := by unfold wrB; split <;> rfl
@[simp] theorem wrB_agents (s : State) (sp : Bool) (a : Nat) (v : Byte) : (s.wrB sp a v).agents = s.agents := by unfold wrB; split <;> rfl
@[simp] theorem wrB_cores (s : State) (sp : Bool) (a : Nat) (v : Byte) : (s.wrB sp a v).cores = s.cores := by unfold wrB; split <;> rfl
@[simp] theorem wrB_ctxs (s : State) (sp : Bool) (a : Nat) (v : Byte) : (s.wrB sp a v).ctxs = s.ctxs := by unfold wrB; split <;> rfl
@[simp] theorem wrB_launches (s : State) (sp : Bool) (a : Nat) (v : Byte) : (s.wrB sp a v).launches = s.launches := by unfold wrB; split <;> rfl
@[simp] theorem wrB_races (s : State) (sp : Bool) (a : Nat) (v : Byte) : (s.wrB sp a v).races = s.races := by unfold wrB; split <;> rfl
@[simp] theorem wrB_cepochs (s : State) (sp : Bool) (a : Nat) (v : Byte) : (s.wrB sp a v).cepochs = s.cepochs := by unfold wrB; split <;> rfl
@[simp] theorem wrB_dev (s : State) (sp : Bool) (a : Nat) (v : Byte) : (s.wrB sp a v).dev = s.dev := by unfold wrB; split <;> rfl
@[simp] theorem wrB_book (s : State) (sp : Bool) (a : Nat) (v : Byte) : (s.wrB sp a v).book = s.book := by unfold wrB; split <;> rfl
@[simp] theorem wrB_jobs (s : State) (sp : Bool) (a : Nat) (v : Byte) : (s.wrB sp a v).jobs = s.jobs := by unfold wrB; split <;> rfl
@[simp] theorem wrB_nextId (s : State) (sp : Bool) (a : Nat) (v : Byte) : (s.wrB sp a v).nextId = s.nextId := by unfold wrB; split <;> rfl
@[simp] theorem wrB_flights (s : State) (sp : Bool) (a : Nat) (v : Byte) : (s.wrB sp a v).flights = s.flights := by unfold wrB; split <;> rfl
@[simp] theorem wrB_fxOut (s : State) (sp : Bool) (a : Nat) (v : Byte) : (s.wrB sp a v).fxOut = s.fxOut := by unfold wrB; split <;> rfl
@[simp] theorem wrB_hostOut (s : State) (sp : Bool) (a : Nat) (v : Byte) : (s.wrB sp a v).hostOut = s.hostOut := by unfold wrB; split <;> rfl
@[simp] theorem wrB_slotNo (s : State) (sp : Bool) (a : Nat) (v : Byte) : (s.wrB sp a v).slotNo = s.slotNo := by unfold wrB; split <;> rfl
@[simp] theorem wrB_slotAt (s : State) (sp : Bool) (a : Nat) (v : Byte) : (s.wrB sp a v).slotAt = s.slotAt := by unfold wrB; split <;> rfl
@[simp] theorem wrB_adw (s : State) (sp : Bool) (a : Nat) (v : Byte) : (s.wrB sp a v).adw = s.adw := by unfold wrB; split <;> rfl
@[simp] theorem wrB_cu (s : State) (sp : Bool) (a : Nat) (v : Byte) : (s.wrB sp a v).cu = s.cu := by unfold wrB; split <;> rfl
@[simp] theorem wrB_fresh (s : State) (sp : Bool) (a : Nat) (v : Byte) : (s.wrB sp a v).fresh = s.fresh := by unfold wrB; split <;> rfl
@[simp] theorem wrB_picks (s : State) (sp : Bool) (a : Nat) (v : Byte) : (s.wrB sp a v).picks = s.picks := by unfold wrB; split <;> rfl
@[simp] theorem wrB_agenda (s : State) (sp : Bool) (a : Nat) (v : Byte) : (s.wrB sp a v).agenda = s.agenda := by unfold wrB; split <;> rfl
@[simp] theorem wrB_plan (s : State) (sp : Bool) (a : Nat) (v : Byte) : (s.wrB sp a v).plan = s.plan := by unfold wrB; split <;> rfl

@[simp] theorem setPsn_cycle (s : State) (sp : Bool) (a : Nat) (v : Bool) : (s.setPsn sp a v).cycle = s.cycle := by unfold setPsn; split <;> rfl
@[simp] theorem setPsn_agents (s : State) (sp : Bool) (a : Nat) (v : Bool) : (s.setPsn sp a v).agents = s.agents := by unfold setPsn; split <;> rfl
@[simp] theorem setPsn_cores (s : State) (sp : Bool) (a : Nat) (v : Bool) : (s.setPsn sp a v).cores = s.cores := by unfold setPsn; split <;> rfl
@[simp] theorem setPsn_ctxs (s : State) (sp : Bool) (a : Nat) (v : Bool) : (s.setPsn sp a v).ctxs = s.ctxs := by unfold setPsn; split <;> rfl
@[simp] theorem setPsn_launches (s : State) (sp : Bool) (a : Nat) (v : Bool) : (s.setPsn sp a v).launches = s.launches := by unfold setPsn; split <;> rfl
@[simp] theorem setPsn_races (s : State) (sp : Bool) (a : Nat) (v : Bool) : (s.setPsn sp a v).races = s.races := by unfold setPsn; split <;> rfl
@[simp] theorem setPsn_cepochs (s : State) (sp : Bool) (a : Nat) (v : Bool) : (s.setPsn sp a v).cepochs = s.cepochs := by unfold setPsn; split <;> rfl
@[simp] theorem setPsn_dev (s : State) (sp : Bool) (a : Nat) (v : Bool) : (s.setPsn sp a v).dev = s.dev := by unfold setPsn; split <;> rfl
@[simp] theorem setPsn_book (s : State) (sp : Bool) (a : Nat) (v : Bool) : (s.setPsn sp a v).book = s.book := by unfold setPsn; split <;> rfl
@[simp] theorem setPsn_jobs (s : State) (sp : Bool) (a : Nat) (v : Bool) : (s.setPsn sp a v).jobs = s.jobs := by unfold setPsn; split <;> rfl
@[simp] theorem setPsn_nextId (s : State) (sp : Bool) (a : Nat) (v : Bool) : (s.setPsn sp a v).nextId = s.nextId := by unfold setPsn; split <;> rfl
@[simp] theorem setPsn_flights (s : State) (sp : Bool) (a : Nat) (v : Bool) : (s.setPsn sp a v).flights = s.flights := by unfold setPsn; split <;> rfl
@[simp] theorem setPsn_fxOut (s : State) (sp : Bool) (a : Nat) (v : Bool) : (s.setPsn sp a v).fxOut = s.fxOut := by unfold setPsn; split <;> rfl
@[simp] theorem setPsn_hostOut (s : State) (sp : Bool) (a : Nat) (v : Bool) : (s.setPsn sp a v).hostOut = s.hostOut := by unfold setPsn; split <;> rfl
@[simp] theorem setPsn_slotNo (s : State) (sp : Bool) (a : Nat) (v : Bool) : (s.setPsn sp a v).slotNo = s.slotNo := by unfold setPsn; split <;> rfl
@[simp] theorem setPsn_slotAt (s : State) (sp : Bool) (a : Nat) (v : Bool) : (s.setPsn sp a v).slotAt = s.slotAt := by unfold setPsn; split <;> rfl
@[simp] theorem setPsn_adw (s : State) (sp : Bool) (a : Nat) (v : Bool) : (s.setPsn sp a v).adw = s.adw := by unfold setPsn; split <;> rfl
@[simp] theorem setPsn_cu (s : State) (sp : Bool) (a : Nat) (v : Bool) : (s.setPsn sp a v).cu = s.cu := by unfold setPsn; split <;> rfl
@[simp] theorem setPsn_fresh (s : State) (sp : Bool) (a : Nat) (v : Bool) : (s.setPsn sp a v).fresh = s.fresh := by unfold setPsn; split <;> rfl
@[simp] theorem setPsn_picks (s : State) (sp : Bool) (a : Nat) (v : Bool) : (s.setPsn sp a v).picks = s.picks := by unfold setPsn; split <;> rfl
@[simp] theorem setPsn_agenda (s : State) (sp : Bool) (a : Nat) (v : Bool) : (s.setPsn sp a v).agenda = s.agenda := by unfold setPsn; split <;> rfl
@[simp] theorem setPsn_plan (s : State) (sp : Bool) (a : Nat) (v : Bool) : (s.setPsn sp a v).plan = s.plan := by unfold setPsn; split <;> rfl

@[simp] theorem setPubs_cycle (s : State) (sp : Bool) (a : Nat) (l : List Pub) : (s.setPubs sp a l).cycle = s.cycle := rfl
@[simp] theorem setPubs_agents (s : State) (sp : Bool) (a : Nat) (l : List Pub) : (s.setPubs sp a l).agents = s.agents := rfl
@[simp] theorem setPubs_cores (s : State) (sp : Bool) (a : Nat) (l : List Pub) : (s.setPubs sp a l).cores = s.cores := rfl
@[simp] theorem setPubs_ctxs (s : State) (sp : Bool) (a : Nat) (l : List Pub) : (s.setPubs sp a l).ctxs = s.ctxs := rfl
@[simp] theorem setPubs_launches (s : State) (sp : Bool) (a : Nat) (l : List Pub) : (s.setPubs sp a l).launches = s.launches := rfl
@[simp] theorem setPubs_races (s : State) (sp : Bool) (a : Nat) (l : List Pub) : (s.setPubs sp a l).races = s.races := rfl
@[simp] theorem setPubs_cepochs (s : State) (sp : Bool) (a : Nat) (l : List Pub) : (s.setPubs sp a l).cepochs = s.cepochs := rfl
@[simp] theorem setPubs_dev (s : State) (sp : Bool) (a : Nat) (l : List Pub) : (s.setPubs sp a l).dev = s.dev := rfl
@[simp] theorem setPubs_book (s : State) (sp : Bool) (a : Nat) (l : List Pub) : (s.setPubs sp a l).book = s.book := rfl
@[simp] theorem setPubs_jobs (s : State) (sp : Bool) (a : Nat) (l : List Pub) : (s.setPubs sp a l).jobs = s.jobs := rfl
@[simp] theorem setPubs_nextId (s : State) (sp : Bool) (a : Nat) (l : List Pub) : (s.setPubs sp a l).nextId = s.nextId := rfl
@[simp] theorem setPubs_flights (s : State) (sp : Bool) (a : Nat) (l : List Pub) : (s.setPubs sp a l).flights = s.flights := rfl
@[simp] theorem setPubs_fxOut (s : State) (sp : Bool) (a : Nat) (l : List Pub) : (s.setPubs sp a l).fxOut = s.fxOut := rfl
@[simp] theorem setPubs_hostOut (s : State) (sp : Bool) (a : Nat) (l : List Pub) : (s.setPubs sp a l).hostOut = s.hostOut := rfl
@[simp] theorem setPubs_slotNo (s : State) (sp : Bool) (a : Nat) (l : List Pub) : (s.setPubs sp a l).slotNo = s.slotNo := rfl
@[simp] theorem setPubs_slotAt (s : State) (sp : Bool) (a : Nat) (l : List Pub) : (s.setPubs sp a l).slotAt = s.slotAt := rfl
@[simp] theorem setPubs_adw (s : State) (sp : Bool) (a : Nat) (l : List Pub) : (s.setPubs sp a l).adw = s.adw := rfl
@[simp] theorem setPubs_cu (s : State) (sp : Bool) (a : Nat) (l : List Pub) : (s.setPubs sp a l).cu = s.cu := rfl
@[simp] theorem setPubs_fresh (s : State) (sp : Bool) (a : Nat) (l : List Pub) : (s.setPubs sp a l).fresh = s.fresh := rfl
@[simp] theorem setPubs_picks (s : State) (sp : Bool) (a : Nat) (l : List Pub) : (s.setPubs sp a l).picks = s.picks := rfl
@[simp] theorem setPubs_agenda (s : State) (sp : Bool) (a : Nat) (l : List Pub) : (s.setPubs sp a l).agenda = s.agenda := rfl
@[simp] theorem setPubs_plan (s : State) (sp : Bool) (a : Nat) (l : List Pub) : (s.setPubs sp a l).plan = s.plan := rfl

@[simp] theorem setMd_cycle (s : State) (p : Piece) (m : W64 × W64) : (s.setMd p m).cycle = s.cycle := by unfold setMd; split <;> rfl
@[simp] theorem setMd_agents (s : State) (p : Piece) (m : W64 × W64) : (s.setMd p m).agents = s.agents := by unfold setMd; split <;> rfl
@[simp] theorem setMd_cores (s : State) (p : Piece) (m : W64 × W64) : (s.setMd p m).cores = s.cores := by unfold setMd; split <;> rfl
@[simp] theorem setMd_ctxs (s : State) (p : Piece) (m : W64 × W64) : (s.setMd p m).ctxs = s.ctxs := by unfold setMd; split <;> rfl
@[simp] theorem setMd_launches (s : State) (p : Piece) (m : W64 × W64) : (s.setMd p m).launches = s.launches := by unfold setMd; split <;> rfl
@[simp] theorem setMd_races (s : State) (p : Piece) (m : W64 × W64) : (s.setMd p m).races = s.races := by unfold setMd; split <;> rfl
@[simp] theorem setMd_cepochs (s : State) (p : Piece) (m : W64 × W64) : (s.setMd p m).cepochs = s.cepochs := by unfold setMd; split <;> rfl
@[simp] theorem setMd_dev (s : State) (p : Piece) (m : W64 × W64) : (s.setMd p m).dev = s.dev := by unfold setMd; split <;> rfl
@[simp] theorem setMd_book (s : State) (p : Piece) (m : W64 × W64) : (s.setMd p m).book = s.book := by unfold setMd; split <;> rfl
@[simp] theorem setMd_jobs (s : State) (p : Piece) (m : W64 × W64) : (s.setMd p m).jobs = s.jobs := by unfold setMd; split <;> rfl
@[simp] theorem setMd_nextId (s : State) (p : Piece) (m : W64 × W64) : (s.setMd p m).nextId = s.nextId := by unfold setMd; split <;> rfl
@[simp] theorem setMd_flights (s : State) (p : Piece) (m : W64 × W64) : (s.setMd p m).flights = s.flights := by unfold setMd; split <;> rfl
@[simp] theorem setMd_fxOut (s : State) (p : Piece) (m : W64 × W64) : (s.setMd p m).fxOut = s.fxOut := by unfold setMd; split <;> rfl
@[simp] theorem setMd_hostOut (s : State) (p : Piece) (m : W64 × W64) : (s.setMd p m).hostOut = s.hostOut := by unfold setMd; split <;> rfl
@[simp] theorem setMd_slotNo (s : State) (p : Piece) (m : W64 × W64) : (s.setMd p m).slotNo = s.slotNo := by unfold setMd; split <;> rfl
@[simp] theorem setMd_slotAt (s : State) (p : Piece) (m : W64 × W64) : (s.setMd p m).slotAt = s.slotAt := by unfold setMd; split <;> rfl
@[simp] theorem setMd_adw (s : State) (p : Piece) (m : W64 × W64) : (s.setMd p m).adw = s.adw := by unfold setMd; split <;> rfl
@[simp] theorem setMd_cu (s : State) (p : Piece) (m : W64 × W64) : (s.setMd p m).cu = s.cu := by unfold setMd; split <;> rfl
@[simp] theorem setMd_fresh (s : State) (p : Piece) (m : W64 × W64) : (s.setMd p m).fresh = s.fresh := by unfold setMd; split <;> rfl
@[simp] theorem setMd_picks (s : State) (p : Piece) (m : W64 × W64) : (s.setMd p m).picks = s.picks := by unfold setMd; split <;> rfl
@[simp] theorem setMd_agenda (s : State) (p : Piece) (m : W64 × W64) : (s.setMd p m).agenda = s.agenda := by unfold setMd; split <;> rfl
@[simp] theorem setMd_plan (s : State) (p : Piece) (m : W64 × W64) : (s.setMd p m).plan = s.plan := by unfold setMd; split <;> rfl

@[simp] theorem wrS_cycle (s : State) (n : Nat) (v : W64) (l : Nat) : (s.wrS n v l).cycle = s.cycle := by unfold wrS; split <;> rfl
@[simp] theorem wrS_cores (s : State) (n : Nat) (v : W64) (l : Nat) : (s.wrS n v l).cores = s.cores := by unfold wrS; split <;> rfl
@[simp] theorem wrS_ctxs (s : State) (n : Nat) (v : W64) (l : Nat) : (s.wrS n v l).ctxs = s.ctxs := by unfold wrS; split <;> rfl
@[simp] theorem wrS_launches (s : State) (n : Nat) (v : W64) (l : Nat) : (s.wrS n v l).launches = s.launches := by unfold wrS; split <;> rfl
@[simp] theorem wrS_mem (s : State) (n : Nat) (v : W64) (l : Nat) : (s.wrS n v l).mem = s.mem := by unfold wrS; split <;> rfl
@[simp] theorem wrS_races (s : State) (n : Nat) (v : W64) (l : Nat) : (s.wrS n v l).races = s.races := by unfold wrS; split <;> rfl
@[simp] theorem wrS_cepochs (s : State) (n : Nat) (v : W64) (l : Nat) : (s.wrS n v l).cepochs = s.cepochs := by unfold wrS; split <;> rfl
@[simp] theorem wrS_dev (s : State) (n : Nat) (v : W64) (l : Nat) : (s.wrS n v l).dev = s.dev := by unfold wrS; split <;> rfl
@[simp] theorem wrS_book (s : State) (n : Nat) (v : W64) (l : Nat) : (s.wrS n v l).book = s.book := by unfold wrS; split <;> rfl
@[simp] theorem wrS_jobs (s : State) (n : Nat) (v : W64) (l : Nat) : (s.wrS n v l).jobs = s.jobs := by unfold wrS; split <;> rfl
@[simp] theorem wrS_nextId (s : State) (n : Nat) (v : W64) (l : Nat) : (s.wrS n v l).nextId = s.nextId := by unfold wrS; split <;> rfl
@[simp] theorem wrS_flights (s : State) (n : Nat) (v : W64) (l : Nat) : (s.wrS n v l).flights = s.flights := by unfold wrS; split <;> rfl
@[simp] theorem wrS_fxOut (s : State) (n : Nat) (v : W64) (l : Nat) : (s.wrS n v l).fxOut = s.fxOut := by unfold wrS; split <;> rfl
@[simp] theorem wrS_hostOut (s : State) (n : Nat) (v : W64) (l : Nat) : (s.wrS n v l).hostOut = s.hostOut := by unfold wrS; split <;> rfl
@[simp] theorem wrS_slotNo (s : State) (n : Nat) (v : W64) (l : Nat) : (s.wrS n v l).slotNo = s.slotNo := by unfold wrS; split <;> rfl
@[simp] theorem wrS_slotAt (s : State) (n : Nat) (v : W64) (l : Nat) : (s.wrS n v l).slotAt = s.slotAt := by unfold wrS; split <;> rfl
@[simp] theorem wrS_adw (s : State) (n : Nat) (v : W64) (l : Nat) : (s.wrS n v l).adw = s.adw := by unfold wrS; split <;> rfl
@[simp] theorem wrS_cu (s : State) (n : Nat) (v : W64) (l : Nat) : (s.wrS n v l).cu = s.cu := by unfold wrS; split <;> rfl
@[simp] theorem wrS_fresh (s : State) (n : Nat) (v : W64) (l : Nat) : (s.wrS n v l).fresh = s.fresh := by unfold wrS; split <;> rfl
@[simp] theorem wrS_picks (s : State) (n : Nat) (v : W64) (l : Nat) : (s.wrS n v l).picks = s.picks := by unfold wrS; split <;> rfl
@[simp] theorem wrS_agenda (s : State) (n : Nat) (v : W64) (l : Nat) : (s.wrS n v l).agenda = s.agenda := by unfold wrS; split <;> rfl
@[simp] theorem wrS_plan (s : State) (n : Nat) (v : W64) (l : Nat) : (s.wrS n v l).plan = s.plan := by unfold wrS; split <;> rfl

@[simp] theorem wrP_cycle (s : State) (n : Nat) (v : Lanes) (l : Nat) : (s.wrP n v l).cycle = s.cycle := by unfold wrP; split <;> rfl
@[simp] theorem wrP_cores (s : State) (n : Nat) (v : Lanes) (l : Nat) : (s.wrP n v l).cores = s.cores := by unfold wrP; split <;> rfl
@[simp] theorem wrP_ctxs (s : State) (n : Nat) (v : Lanes) (l : Nat) : (s.wrP n v l).ctxs = s.ctxs := by unfold wrP; split <;> rfl
@[simp] theorem wrP_launches (s : State) (n : Nat) (v : Lanes) (l : Nat) : (s.wrP n v l).launches = s.launches := by unfold wrP; split <;> rfl
@[simp] theorem wrP_mem (s : State) (n : Nat) (v : Lanes) (l : Nat) : (s.wrP n v l).mem = s.mem := by unfold wrP; split <;> rfl
@[simp] theorem wrP_races (s : State) (n : Nat) (v : Lanes) (l : Nat) : (s.wrP n v l).races = s.races := by unfold wrP; split <;> rfl
@[simp] theorem wrP_cepochs (s : State) (n : Nat) (v : Lanes) (l : Nat) : (s.wrP n v l).cepochs = s.cepochs := by unfold wrP; split <;> rfl
@[simp] theorem wrP_dev (s : State) (n : Nat) (v : Lanes) (l : Nat) : (s.wrP n v l).dev = s.dev := by unfold wrP; split <;> rfl
@[simp] theorem wrP_book (s : State) (n : Nat) (v : Lanes) (l : Nat) : (s.wrP n v l).book = s.book := by unfold wrP; split <;> rfl
@[simp] theorem wrP_jobs (s : State) (n : Nat) (v : Lanes) (l : Nat) : (s.wrP n v l).jobs = s.jobs := by unfold wrP; split <;> rfl
@[simp] theorem wrP_nextId (s : State) (n : Nat) (v : Lanes) (l : Nat) : (s.wrP n v l).nextId = s.nextId := by unfold wrP; split <;> rfl
@[simp] theorem wrP_flights (s : State) (n : Nat) (v : Lanes) (l : Nat) : (s.wrP n v l).flights = s.flights := by unfold wrP; split <;> rfl
@[simp] theorem wrP_fxOut (s : State) (n : Nat) (v : Lanes) (l : Nat) : (s.wrP n v l).fxOut = s.fxOut := by unfold wrP; split <;> rfl
@[simp] theorem wrP_hostOut (s : State) (n : Nat) (v : Lanes) (l : Nat) : (s.wrP n v l).hostOut = s.hostOut := by unfold wrP; split <;> rfl
@[simp] theorem wrP_slotNo (s : State) (n : Nat) (v : Lanes) (l : Nat) : (s.wrP n v l).slotNo = s.slotNo := by unfold wrP; split <;> rfl
@[simp] theorem wrP_slotAt (s : State) (n : Nat) (v : Lanes) (l : Nat) : (s.wrP n v l).slotAt = s.slotAt := by unfold wrP; split <;> rfl
@[simp] theorem wrP_adw (s : State) (n : Nat) (v : Lanes) (l : Nat) : (s.wrP n v l).adw = s.adw := by unfold wrP; split <;> rfl
@[simp] theorem wrP_cu (s : State) (n : Nat) (v : Lanes) (l : Nat) : (s.wrP n v l).cu = s.cu := by unfold wrP; split <;> rfl
@[simp] theorem wrP_fresh (s : State) (n : Nat) (v : Lanes) (l : Nat) : (s.wrP n v l).fresh = s.fresh := by unfold wrP; split <;> rfl
@[simp] theorem wrP_picks (s : State) (n : Nat) (v : Lanes) (l : Nat) : (s.wrP n v l).picks = s.picks := by unfold wrP; split <;> rfl
@[simp] theorem wrP_agenda (s : State) (n : Nat) (v : Lanes) (l : Nat) : (s.wrP n v l).agenda = s.agenda := by unfold wrP; split <;> rfl
@[simp] theorem wrP_plan (s : State) (n : Nat) (v : Lanes) (l : Nat) : (s.wrP n v l).plan = s.plan := by unfold wrP; split <;> rfl

@[simp] theorem wrBt_cycle (s : State) (n : Nat) (v : W64) (l : Nat) : (s.wrBt n v l).cycle = s.cycle := rfl
@[simp] theorem wrBt_cores (s : State) (n : Nat) (v : W64) (l : Nat) : (s.wrBt n v l).cores = s.cores := rfl
@[simp] theorem wrBt_ctxs (s : State) (n : Nat) (v : W64) (l : Nat) : (s.wrBt n v l).ctxs = s.ctxs := rfl
@[simp] theorem wrBt_launches (s : State) (n : Nat) (v : W64) (l : Nat) : (s.wrBt n v l).launches = s.launches := rfl
@[simp] theorem wrBt_mem (s : State) (n : Nat) (v : W64) (l : Nat) : (s.wrBt n v l).mem = s.mem := rfl
@[simp] theorem wrBt_races (s : State) (n : Nat) (v : W64) (l : Nat) : (s.wrBt n v l).races = s.races := rfl
@[simp] theorem wrBt_cepochs (s : State) (n : Nat) (v : W64) (l : Nat) : (s.wrBt n v l).cepochs = s.cepochs := rfl
@[simp] theorem wrBt_dev (s : State) (n : Nat) (v : W64) (l : Nat) : (s.wrBt n v l).dev = s.dev := rfl
@[simp] theorem wrBt_book (s : State) (n : Nat) (v : W64) (l : Nat) : (s.wrBt n v l).book = s.book := rfl
@[simp] theorem wrBt_jobs (s : State) (n : Nat) (v : W64) (l : Nat) : (s.wrBt n v l).jobs = s.jobs := rfl
@[simp] theorem wrBt_nextId (s : State) (n : Nat) (v : W64) (l : Nat) : (s.wrBt n v l).nextId = s.nextId := rfl
@[simp] theorem wrBt_flights (s : State) (n : Nat) (v : W64) (l : Nat) : (s.wrBt n v l).flights = s.flights := rfl
@[simp] theorem wrBt_fxOut (s : State) (n : Nat) (v : W64) (l : Nat) : (s.wrBt n v l).fxOut = s.fxOut := rfl
@[simp] theorem wrBt_hostOut (s : State) (n : Nat) (v : W64) (l : Nat) : (s.wrBt n v l).hostOut = s.hostOut := rfl
@[simp] theorem wrBt_slotNo (s : State) (n : Nat) (v : W64) (l : Nat) : (s.wrBt n v l).slotNo = s.slotNo := rfl
@[simp] theorem wrBt_slotAt (s : State) (n : Nat) (v : W64) (l : Nat) : (s.wrBt n v l).slotAt = s.slotAt := rfl
@[simp] theorem wrBt_adw (s : State) (n : Nat) (v : W64) (l : Nat) : (s.wrBt n v l).adw = s.adw := rfl
@[simp] theorem wrBt_cu (s : State) (n : Nat) (v : W64) (l : Nat) : (s.wrBt n v l).cu = s.cu := rfl
@[simp] theorem wrBt_fresh (s : State) (n : Nat) (v : W64) (l : Nat) : (s.wrBt n v l).fresh = s.fresh := rfl
@[simp] theorem wrBt_picks (s : State) (n : Nat) (v : W64) (l : Nat) : (s.wrBt n v l).picks = s.picks := rfl
@[simp] theorem wrBt_agenda (s : State) (n : Nat) (v : W64) (l : Nat) : (s.wrBt n v l).agenda = s.agenda := rfl
@[simp] theorem wrBt_plan (s : State) (n : Nat) (v : W64) (l : Nat) : (s.wrBt n v l).plan = s.plan := rfl

@[simp] theorem wrV_cycle (s : State) (n : Nat) (v : VReg) (l : Nat) : (s.wrV n v l).cycle = s.cycle := rfl
@[simp] theorem wrV_cores (s : State) (n : Nat) (v : VReg) (l : Nat) : (s.wrV n v l).cores = s.cores := rfl
@[simp] theorem wrV_ctxs (s : State) (n : Nat) (v : VReg) (l : Nat) : (s.wrV n v l).ctxs = s.ctxs := rfl
@[simp] theorem wrV_launches (s : State) (n : Nat) (v : VReg) (l : Nat) : (s.wrV n v l).launches = s.launches := rfl
@[simp] theorem wrV_mem (s : State) (n : Nat) (v : VReg) (l : Nat) : (s.wrV n v l).mem = s.mem := rfl
@[simp] theorem wrV_races (s : State) (n : Nat) (v : VReg) (l : Nat) : (s.wrV n v l).races = s.races := rfl
@[simp] theorem wrV_cepochs (s : State) (n : Nat) (v : VReg) (l : Nat) : (s.wrV n v l).cepochs = s.cepochs := rfl
@[simp] theorem wrV_dev (s : State) (n : Nat) (v : VReg) (l : Nat) : (s.wrV n v l).dev = s.dev := rfl
@[simp] theorem wrV_book (s : State) (n : Nat) (v : VReg) (l : Nat) : (s.wrV n v l).book = s.book := rfl
@[simp] theorem wrV_jobs (s : State) (n : Nat) (v : VReg) (l : Nat) : (s.wrV n v l).jobs = s.jobs := rfl
@[simp] theorem wrV_nextId (s : State) (n : Nat) (v : VReg) (l : Nat) : (s.wrV n v l).nextId = s.nextId := rfl
@[simp] theorem wrV_flights (s : State) (n : Nat) (v : VReg) (l : Nat) : (s.wrV n v l).flights = s.flights := rfl
@[simp] theorem wrV_fxOut (s : State) (n : Nat) (v : VReg) (l : Nat) : (s.wrV n v l).fxOut = s.fxOut := rfl
@[simp] theorem wrV_hostOut (s : State) (n : Nat) (v : VReg) (l : Nat) : (s.wrV n v l).hostOut = s.hostOut := rfl
@[simp] theorem wrV_slotNo (s : State) (n : Nat) (v : VReg) (l : Nat) : (s.wrV n v l).slotNo = s.slotNo := rfl
@[simp] theorem wrV_slotAt (s : State) (n : Nat) (v : VReg) (l : Nat) : (s.wrV n v l).slotAt = s.slotAt := rfl
@[simp] theorem wrV_adw (s : State) (n : Nat) (v : VReg) (l : Nat) : (s.wrV n v l).adw = s.adw := rfl
@[simp] theorem wrV_cu (s : State) (n : Nat) (v : VReg) (l : Nat) : (s.wrV n v l).cu = s.cu := rfl
@[simp] theorem wrV_fresh (s : State) (n : Nat) (v : VReg) (l : Nat) : (s.wrV n v l).fresh = s.fresh := rfl
@[simp] theorem wrV_picks (s : State) (n : Nat) (v : VReg) (l : Nat) : (s.wrV n v l).picks = s.picks := rfl
@[simp] theorem wrV_agenda (s : State) (n : Nat) (v : VReg) (l : Nat) : (s.wrV n v l).agenda = s.agenda := rfl
@[simp] theorem wrV_plan (s : State) (n : Nat) (v : VReg) (l : Nat) : (s.wrV n v l).plan = s.plan := rfl

@[simp] theorem orVstat_cycle (s : State) (f : W64) (l : Nat) : (s.orVstat f l).cycle = s.cycle := rfl
@[simp] theorem orVstat_cores (s : State) (f : W64) (l : Nat) : (s.orVstat f l).cores = s.cores := rfl
@[simp] theorem orVstat_ctxs (s : State) (f : W64) (l : Nat) : (s.orVstat f l).ctxs = s.ctxs := rfl
@[simp] theorem orVstat_launches (s : State) (f : W64) (l : Nat) : (s.orVstat f l).launches = s.launches := rfl
@[simp] theorem orVstat_mem (s : State) (f : W64) (l : Nat) : (s.orVstat f l).mem = s.mem := rfl
@[simp] theorem orVstat_races (s : State) (f : W64) (l : Nat) : (s.orVstat f l).races = s.races := rfl
@[simp] theorem orVstat_cepochs (s : State) (f : W64) (l : Nat) : (s.orVstat f l).cepochs = s.cepochs := rfl
@[simp] theorem orVstat_dev (s : State) (f : W64) (l : Nat) : (s.orVstat f l).dev = s.dev := rfl
@[simp] theorem orVstat_book (s : State) (f : W64) (l : Nat) : (s.orVstat f l).book = s.book := rfl
@[simp] theorem orVstat_jobs (s : State) (f : W64) (l : Nat) : (s.orVstat f l).jobs = s.jobs := rfl
@[simp] theorem orVstat_nextId (s : State) (f : W64) (l : Nat) : (s.orVstat f l).nextId = s.nextId := rfl
@[simp] theorem orVstat_flights (s : State) (f : W64) (l : Nat) : (s.orVstat f l).flights = s.flights := rfl
@[simp] theorem orVstat_fxOut (s : State) (f : W64) (l : Nat) : (s.orVstat f l).fxOut = s.fxOut := rfl
@[simp] theorem orVstat_hostOut (s : State) (f : W64) (l : Nat) : (s.orVstat f l).hostOut = s.hostOut := rfl
@[simp] theorem orVstat_slotNo (s : State) (f : W64) (l : Nat) : (s.orVstat f l).slotNo = s.slotNo := rfl
@[simp] theorem orVstat_slotAt (s : State) (f : W64) (l : Nat) : (s.orVstat f l).slotAt = s.slotAt := rfl
@[simp] theorem orVstat_adw (s : State) (f : W64) (l : Nat) : (s.orVstat f l).adw = s.adw := rfl
@[simp] theorem orVstat_cu (s : State) (f : W64) (l : Nat) : (s.orVstat f l).cu = s.cu := rfl
@[simp] theorem orVstat_fresh (s : State) (f : W64) (l : Nat) : (s.orVstat f l).fresh = s.fresh := rfl
@[simp] theorem orVstat_picks (s : State) (f : W64) (l : Nat) : (s.orVstat f l).picks = s.picks := rfl
@[simp] theorem orVstat_agenda (s : State) (f : W64) (l : Nat) : (s.orVstat f l).agenda = s.agenda := rfl
@[simp] theorem orVstat_plan (s : State) (f : W64) (l : Nat) : (s.orVstat f l).plan = s.plan := rfl

@[simp] theorem advance_cycle (s : State) : (s.advance).cycle = s.cycle := rfl
@[simp] theorem advance_cores (s : State) : (s.advance).cores = s.cores := rfl
@[simp] theorem advance_ctxs (s : State) : (s.advance).ctxs = s.ctxs := rfl
@[simp] theorem advance_launches (s : State) : (s.advance).launches = s.launches := rfl
@[simp] theorem advance_mem (s : State) : (s.advance).mem = s.mem := rfl
@[simp] theorem advance_races (s : State) : (s.advance).races = s.races := rfl
@[simp] theorem advance_cepochs (s : State) : (s.advance).cepochs = s.cepochs := rfl
@[simp] theorem advance_dev (s : State) : (s.advance).dev = s.dev := rfl
@[simp] theorem advance_book (s : State) : (s.advance).book = s.book := rfl
@[simp] theorem advance_jobs (s : State) : (s.advance).jobs = s.jobs := rfl
@[simp] theorem advance_nextId (s : State) : (s.advance).nextId = s.nextId := rfl
@[simp] theorem advance_flights (s : State) : (s.advance).flights = s.flights := rfl
@[simp] theorem advance_fxOut (s : State) : (s.advance).fxOut = s.fxOut := rfl
@[simp] theorem advance_hostOut (s : State) : (s.advance).hostOut = s.hostOut := rfl
@[simp] theorem advance_slotNo (s : State) : (s.advance).slotNo = s.slotNo := rfl
@[simp] theorem advance_slotAt (s : State) : (s.advance).slotAt = s.slotAt := rfl
@[simp] theorem advance_adw (s : State) : (s.advance).adw = s.adw := rfl
@[simp] theorem advance_cu (s : State) : (s.advance).cu = s.cu := rfl
@[simp] theorem advance_fresh (s : State) : (s.advance).fresh = s.fresh := rfl
@[simp] theorem advance_picks (s : State) : (s.advance).picks = s.picks := rfl
@[simp] theorem advance_agenda (s : State) : (s.advance).agenda = s.agenda := rfl
@[simp] theorem advance_plan (s : State) : (s.advance).plan = s.plan := rfl

@[simp] theorem paced_cycle (s : State) (g n : Nat) : (s.paced g n).cycle = s.cycle := rfl
@[simp] theorem paced_cores (s : State) (g n : Nat) : (s.paced g n).cores = s.cores := rfl
@[simp] theorem paced_ctxs (s : State) (g n : Nat) : (s.paced g n).ctxs = s.ctxs := rfl
@[simp] theorem paced_launches (s : State) (g n : Nat) : (s.paced g n).launches = s.launches := rfl
@[simp] theorem paced_mem (s : State) (g n : Nat) : (s.paced g n).mem = s.mem := rfl
@[simp] theorem paced_races (s : State) (g n : Nat) : (s.paced g n).races = s.races := rfl
@[simp] theorem paced_cepochs (s : State) (g n : Nat) : (s.paced g n).cepochs = s.cepochs := rfl
@[simp] theorem paced_dev (s : State) (g n : Nat) : (s.paced g n).dev = s.dev := rfl
@[simp] theorem paced_book (s : State) (g n : Nat) : (s.paced g n).book = s.book := rfl
@[simp] theorem paced_jobs (s : State) (g n : Nat) : (s.paced g n).jobs = s.jobs := rfl
@[simp] theorem paced_nextId (s : State) (g n : Nat) : (s.paced g n).nextId = s.nextId := rfl
@[simp] theorem paced_flights (s : State) (g n : Nat) : (s.paced g n).flights = s.flights := rfl
@[simp] theorem paced_fxOut (s : State) (g n : Nat) : (s.paced g n).fxOut = s.fxOut := rfl
@[simp] theorem paced_hostOut (s : State) (g n : Nat) : (s.paced g n).hostOut = s.hostOut := rfl
@[simp] theorem paced_slotNo (s : State) (g n : Nat) : (s.paced g n).slotNo = s.slotNo := rfl
@[simp] theorem paced_slotAt (s : State) (g n : Nat) : (s.paced g n).slotAt = s.slotAt := rfl
@[simp] theorem paced_adw (s : State) (g n : Nat) : (s.paced g n).adw = s.adw := rfl
@[simp] theorem paced_cu (s : State) (g n : Nat) : (s.paced g n).cu = s.cu := rfl
@[simp] theorem paced_fresh (s : State) (g n : Nat) : (s.paced g n).fresh = s.fresh := rfl
@[simp] theorem paced_picks (s : State) (g n : Nat) : (s.paced g n).picks = s.picks := rfl
@[simp] theorem paced_agenda (s : State) (g n : Nat) : (s.paced g n).agenda = s.agenda := rfl
@[simp] theorem paced_plan (s : State) (g n : Nat) : (s.paced g n).plan = s.plan := rfl

@[simp] theorem fin_cycle (s : State) (u : U) : (s.fin u).cycle = s.cycle := by unfold fin; split <;> rfl
@[simp] theorem fin_cores (s : State) (u : U) : (s.fin u).cores = s.cores := by unfold fin; split <;> rfl
@[simp] theorem fin_ctxs (s : State) (u : U) : (s.fin u).ctxs = s.ctxs := by unfold fin; split <;> rfl
@[simp] theorem fin_launches (s : State) (u : U) : (s.fin u).launches = s.launches := by unfold fin; split <;> rfl
@[simp] theorem fin_mem (s : State) (u : U) : (s.fin u).mem = s.mem := by unfold fin; split <;> rfl
@[simp] theorem fin_races (s : State) (u : U) : (s.fin u).races = s.races := by unfold fin; split <;> rfl
@[simp] theorem fin_cepochs (s : State) (u : U) : (s.fin u).cepochs = s.cepochs := by unfold fin; split <;> rfl
@[simp] theorem fin_dev (s : State) (u : U) : (s.fin u).dev = s.dev := by unfold fin; split <;> rfl
@[simp] theorem fin_book (s : State) (u : U) : (s.fin u).book = s.book := by unfold fin; split <;> rfl
@[simp] theorem fin_jobs (s : State) (u : U) : (s.fin u).jobs = s.jobs := by unfold fin; split <;> rfl
@[simp] theorem fin_nextId (s : State) (u : U) : (s.fin u).nextId = s.nextId := by unfold fin; split <;> rfl
@[simp] theorem fin_flights (s : State) (u : U) : (s.fin u).flights = s.flights := by unfold fin; split <;> rfl
@[simp] theorem fin_fxOut (s : State) (u : U) : (s.fin u).fxOut = s.fxOut := by unfold fin; split <;> rfl
@[simp] theorem fin_hostOut (s : State) (u : U) : (s.fin u).hostOut = s.hostOut := by unfold fin; split <;> rfl
@[simp] theorem fin_slotNo (s : State) (u : U) : (s.fin u).slotNo = s.slotNo := by unfold fin; split <;> rfl
@[simp] theorem fin_slotAt (s : State) (u : U) : (s.fin u).slotAt = s.slotAt := by unfold fin; split <;> rfl
@[simp] theorem fin_adw (s : State) (u : U) : (s.fin u).adw = s.adw := by unfold fin; split <;> rfl
@[simp] theorem fin_cu (s : State) (u : U) : (s.fin u).cu = s.cu := by unfold fin; split <;> rfl
@[simp] theorem fin_fresh (s : State) (u : U) : (s.fin u).fresh = s.fresh := by unfold fin; split <;> rfl
@[simp] theorem fin_picks (s : State) (u : U) : (s.fin u).picks = s.picks := by unfold fin; split <;> rfl
@[simp] theorem fin_agenda (s : State) (u : U) : (s.fin u).agenda = s.agenda := by unfold fin; split <;> rfl
@[simp] theorem fin_plan (s : State) (u : U) : (s.fin u).plan = s.plan := by unfold fin; split <;> rfl

@[simp] theorem hold_cycle (s : State) : (s.hold).cycle = s.cycle := rfl
@[simp] theorem hold_cores (s : State) : (s.hold).cores = s.cores := rfl
@[simp] theorem hold_ctxs (s : State) : (s.hold).ctxs = s.ctxs := rfl
@[simp] theorem hold_launches (s : State) : (s.hold).launches = s.launches := rfl
@[simp] theorem hold_mem (s : State) : (s.hold).mem = s.mem := rfl
@[simp] theorem hold_races (s : State) : (s.hold).races = s.races := rfl
@[simp] theorem hold_cepochs (s : State) : (s.hold).cepochs = s.cepochs := rfl
@[simp] theorem hold_dev (s : State) : (s.hold).dev = s.dev := rfl
@[simp] theorem hold_book (s : State) : (s.hold).book = s.book := rfl
@[simp] theorem hold_jobs (s : State) : (s.hold).jobs = s.jobs := rfl
@[simp] theorem hold_nextId (s : State) : (s.hold).nextId = s.nextId := rfl
@[simp] theorem hold_flights (s : State) : (s.hold).flights = s.flights := rfl
@[simp] theorem hold_fxOut (s : State) : (s.hold).fxOut = s.fxOut := rfl
@[simp] theorem hold_hostOut (s : State) : (s.hold).hostOut = s.hostOut := rfl
@[simp] theorem hold_slotNo (s : State) : (s.hold).slotNo = s.slotNo := rfl
@[simp] theorem hold_slotAt (s : State) : (s.hold).slotAt = s.slotAt := rfl
@[simp] theorem hold_adw (s : State) : (s.hold).adw = s.adw := rfl
@[simp] theorem hold_cu (s : State) : (s.hold).cu = { s.cu with held := true } := rfl
@[simp] theorem hold_fresh (s : State) : (s.hold).fresh = s.fresh := rfl
@[simp] theorem hold_picks (s : State) : (s.hold).picks = s.picks := rfl
@[simp] theorem hold_agenda (s : State) : (s.hold).agenda = s.agenda := rfl
@[simp] theorem hold_plan (s : State) : (s.hold).plan = s.plan := rfl

@[simp] theorem waitOn_cycle (s : State) (w : Wait) : (s.waitOn w).cycle = s.cycle := rfl
@[simp] theorem waitOn_cores (s : State) (w : Wait) : (s.waitOn w).cores = s.cores := rfl
@[simp] theorem waitOn_ctxs (s : State) (w : Wait) : (s.waitOn w).ctxs = s.ctxs := rfl
@[simp] theorem waitOn_launches (s : State) (w : Wait) : (s.waitOn w).launches = s.launches := rfl
@[simp] theorem waitOn_mem (s : State) (w : Wait) : (s.waitOn w).mem = s.mem := rfl
@[simp] theorem waitOn_races (s : State) (w : Wait) : (s.waitOn w).races = s.races := rfl
@[simp] theorem waitOn_cepochs (s : State) (w : Wait) : (s.waitOn w).cepochs = s.cepochs := rfl
@[simp] theorem waitOn_dev (s : State) (w : Wait) : (s.waitOn w).dev = s.dev := rfl
@[simp] theorem waitOn_book (s : State) (w : Wait) : (s.waitOn w).book = s.book := rfl
@[simp] theorem waitOn_jobs (s : State) (w : Wait) : (s.waitOn w).jobs = s.jobs := rfl
@[simp] theorem waitOn_nextId (s : State) (w : Wait) : (s.waitOn w).nextId = s.nextId := rfl
@[simp] theorem waitOn_flights (s : State) (w : Wait) : (s.waitOn w).flights = s.flights := rfl
@[simp] theorem waitOn_fxOut (s : State) (w : Wait) : (s.waitOn w).fxOut = s.fxOut := rfl
@[simp] theorem waitOn_hostOut (s : State) (w : Wait) : (s.waitOn w).hostOut = s.hostOut := rfl
@[simp] theorem waitOn_slotNo (s : State) (w : Wait) : (s.waitOn w).slotNo = s.slotNo := rfl
@[simp] theorem waitOn_slotAt (s : State) (w : Wait) : (s.waitOn w).slotAt = s.slotAt := rfl
@[simp] theorem waitOn_adw (s : State) (w : Wait) : (s.waitOn w).adw = s.adw := rfl
@[simp] theorem waitOn_cu (s : State) (w : Wait) : (s.waitOn w).cu = s.cu := rfl
@[simp] theorem waitOn_fresh (s : State) (w : Wait) : (s.waitOn w).fresh = s.fresh := rfl
@[simp] theorem waitOn_picks (s : State) (w : Wait) : (s.waitOn w).picks = s.picks := rfl
@[simp] theorem waitOn_agenda (s : State) (w : Wait) : (s.waitOn w).agenda = s.agenda := rfl
@[simp] theorem waitOn_plan (s : State) (w : Wait) : (s.waitOn w).plan = s.plan := rfl

@[simp] theorem sendFlit_cycle (s : State) (k : Nat) (f : Flit) : (s.sendFlit k f).cycle = s.cycle := rfl
@[simp] theorem sendFlit_agents (s : State) (k : Nat) (f : Flit) : (s.sendFlit k f).agents = s.agents := rfl
@[simp] theorem sendFlit_cores (s : State) (k : Nat) (f : Flit) : (s.sendFlit k f).cores = s.cores := rfl
@[simp] theorem sendFlit_ctxs (s : State) (k : Nat) (f : Flit) : (s.sendFlit k f).ctxs = s.ctxs := rfl
@[simp] theorem sendFlit_launches (s : State) (k : Nat) (f : Flit) : (s.sendFlit k f).launches = s.launches := rfl
@[simp] theorem sendFlit_mem (s : State) (k : Nat) (f : Flit) : (s.sendFlit k f).mem = s.mem := rfl
@[simp] theorem sendFlit_races (s : State) (k : Nat) (f : Flit) : (s.sendFlit k f).races = s.races := rfl
@[simp] theorem sendFlit_cepochs (s : State) (k : Nat) (f : Flit) : (s.sendFlit k f).cepochs = s.cepochs := rfl
@[simp] theorem sendFlit_dev (s : State) (k : Nat) (f : Flit) : (s.sendFlit k f).dev = s.dev := rfl
@[simp] theorem sendFlit_book (s : State) (k : Nat) (f : Flit) : (s.sendFlit k f).book = s.book := rfl
@[simp] theorem sendFlit_jobs (s : State) (k : Nat) (f : Flit) : (s.sendFlit k f).jobs = s.jobs := rfl
@[simp] theorem sendFlit_nextId (s : State) (k : Nat) (f : Flit) : (s.sendFlit k f).nextId = s.nextId := rfl
@[simp] theorem sendFlit_flights (s : State) (k : Nat) (f : Flit) : (s.sendFlit k f).flights = s.flights := rfl
@[simp] theorem sendFlit_hostOut (s : State) (k : Nat) (f : Flit) : (s.sendFlit k f).hostOut = s.hostOut := rfl
@[simp] theorem sendFlit_slotNo (s : State) (k : Nat) (f : Flit) : (s.sendFlit k f).slotNo = s.slotNo := rfl
@[simp] theorem sendFlit_slotAt (s : State) (k : Nat) (f : Flit) : (s.sendFlit k f).slotAt = s.slotAt := rfl
@[simp] theorem sendFlit_adw (s : State) (k : Nat) (f : Flit) : (s.sendFlit k f).adw = s.adw := rfl
@[simp] theorem sendFlit_cu (s : State) (k : Nat) (f : Flit) : (s.sendFlit k f).cu = s.cu := rfl
@[simp] theorem sendFlit_fresh (s : State) (k : Nat) (f : Flit) : (s.sendFlit k f).fresh = s.fresh := rfl
@[simp] theorem sendFlit_picks (s : State) (k : Nat) (f : Flit) : (s.sendFlit k f).picks = s.picks := rfl
@[simp] theorem sendFlit_agenda (s : State) (k : Nat) (f : Flit) : (s.sendFlit k f).agenda = s.agenda := rfl
@[simp] theorem sendFlit_plan (s : State) (k : Nat) (f : Flit) : (s.sendFlit k f).plan = s.plan := rfl

@[simp] theorem reply_cycle (s : State) (p st : Nat) (d : List Byte) : (s.reply p st d).cycle = s.cycle := rfl
@[simp] theorem reply_agents (s : State) (p st : Nat) (d : List Byte) : (s.reply p st d).agents = s.agents := rfl
@[simp] theorem reply_cores (s : State) (p st : Nat) (d : List Byte) : (s.reply p st d).cores = s.cores := rfl
@[simp] theorem reply_ctxs (s : State) (p st : Nat) (d : List Byte) : (s.reply p st d).ctxs = s.ctxs := rfl
@[simp] theorem reply_launches (s : State) (p st : Nat) (d : List Byte) : (s.reply p st d).launches = s.launches := rfl
@[simp] theorem reply_mem (s : State) (p st : Nat) (d : List Byte) : (s.reply p st d).mem = s.mem := rfl
@[simp] theorem reply_races (s : State) (p st : Nat) (d : List Byte) : (s.reply p st d).races = s.races := rfl
@[simp] theorem reply_cepochs (s : State) (p st : Nat) (d : List Byte) : (s.reply p st d).cepochs = s.cepochs := rfl
@[simp] theorem reply_dev (s : State) (p st : Nat) (d : List Byte) : (s.reply p st d).dev = s.dev := rfl
@[simp] theorem reply_book (s : State) (p st : Nat) (d : List Byte) : (s.reply p st d).book = s.book := rfl
@[simp] theorem reply_jobs (s : State) (p st : Nat) (d : List Byte) : (s.reply p st d).jobs = s.jobs := rfl
@[simp] theorem reply_nextId (s : State) (p st : Nat) (d : List Byte) : (s.reply p st d).nextId = s.nextId := rfl
@[simp] theorem reply_flights (s : State) (p st : Nat) (d : List Byte) : (s.reply p st d).flights = s.flights := rfl
@[simp] theorem reply_fxOut (s : State) (p st : Nat) (d : List Byte) : (s.reply p st d).fxOut = s.fxOut := rfl
@[simp] theorem reply_slotNo (s : State) (p st : Nat) (d : List Byte) : (s.reply p st d).slotNo = s.slotNo := rfl
@[simp] theorem reply_slotAt (s : State) (p st : Nat) (d : List Byte) : (s.reply p st d).slotAt = s.slotAt := rfl
@[simp] theorem reply_adw (s : State) (p st : Nat) (d : List Byte) : (s.reply p st d).adw = s.adw := rfl
@[simp] theorem reply_cu (s : State) (p st : Nat) (d : List Byte) : (s.reply p st d).cu = s.cu := rfl
@[simp] theorem reply_fresh (s : State) (p st : Nat) (d : List Byte) : (s.reply p st d).fresh = s.fresh := rfl
@[simp] theorem reply_picks (s : State) (p st : Nat) (d : List Byte) : (s.reply p st d).picks = s.picks := rfl
@[simp] theorem reply_agenda (s : State) (p st : Nat) (d : List Byte) : (s.reply p st d).agenda = s.agenda := rfl
@[simp] theorem reply_plan (s : State) (p st : Nat) (d : List Byte) : (s.reply p st d).plan = s.plan := rfl

@[simp] theorem putSem_cycle (s : State) (n : Nat) (w : W64) : (s.putSem n w).cycle = s.cycle := rfl
@[simp] theorem putSem_agents (s : State) (n : Nat) (w : W64) : (s.putSem n w).agents = s.agents := rfl
@[simp] theorem putSem_cores (s : State) (n : Nat) (w : W64) : (s.putSem n w).cores = s.cores := rfl
@[simp] theorem putSem_ctxs (s : State) (n : Nat) (w : W64) : (s.putSem n w).ctxs = s.ctxs := rfl
@[simp] theorem putSem_launches (s : State) (n : Nat) (w : W64) : (s.putSem n w).launches = s.launches := rfl
@[simp] theorem putSem_mem (s : State) (n : Nat) (w : W64) : (s.putSem n w).mem = s.mem := rfl
@[simp] theorem putSem_races (s : State) (n : Nat) (w : W64) : (s.putSem n w).races = s.races := rfl
@[simp] theorem putSem_cepochs (s : State) (n : Nat) (w : W64) : (s.putSem n w).cepochs = s.cepochs := rfl
@[simp] theorem putSem_book (s : State) (n : Nat) (w : W64) : (s.putSem n w).book = s.book := rfl
@[simp] theorem putSem_jobs (s : State) (n : Nat) (w : W64) : (s.putSem n w).jobs = s.jobs := rfl
@[simp] theorem putSem_nextId (s : State) (n : Nat) (w : W64) : (s.putSem n w).nextId = s.nextId := rfl
@[simp] theorem putSem_flights (s : State) (n : Nat) (w : W64) : (s.putSem n w).flights = s.flights := rfl
@[simp] theorem putSem_fxOut (s : State) (n : Nat) (w : W64) : (s.putSem n w).fxOut = s.fxOut := rfl
@[simp] theorem putSem_hostOut (s : State) (n : Nat) (w : W64) : (s.putSem n w).hostOut = s.hostOut := rfl
@[simp] theorem putSem_slotNo (s : State) (n : Nat) (w : W64) : (s.putSem n w).slotNo = s.slotNo := rfl
@[simp] theorem putSem_slotAt (s : State) (n : Nat) (w : W64) : (s.putSem n w).slotAt = s.slotAt := rfl
@[simp] theorem putSem_adw (s : State) (n : Nat) (w : W64) : (s.putSem n w).adw = s.adw := rfl
@[simp] theorem putSem_cu (s : State) (n : Nat) (w : W64) : (s.putSem n w).cu = s.cu := rfl
@[simp] theorem putSem_fresh (s : State) (n : Nat) (w : W64) : (s.putSem n w).fresh = s.fresh := rfl
@[simp] theorem putSem_picks (s : State) (n : Nat) (w : W64) : (s.putSem n w).picks = s.picks := rfl
@[simp] theorem putSem_agenda (s : State) (n : Nat) (w : W64) : (s.putSem n w).agenda = s.agenda := rfl
@[simp] theorem putSem_plan (s : State) (n : Nat) (w : W64) : (s.putSem n w).plan = s.plan := rfl

/-- An agent after an agent has been stored. -/
theorem ag_setAg (s : State) (c k : Nat) (a : Agent) (c' k' : Nat) :
    (s.setAg c k a).ag c' k' = if agKey c' k' = agKey c k then a else s.ag c' k' := by
  unfold ag setAg
  rw [SMap.find?_put]
  split <;> rfl

@[simp] theorem ag_setAg_same (s : State) (c k : Nat) (a : Agent) : (s.setAg c k a).ag c k = a := by simp [ag_setAg]

theorem ag_updAg (s : State) (c k : Nat) (f : Agent → Agent) (c' k' : Nat) :
    (s.updAg c k f).ag c' k' = if agKey c' k' = agKey c k then f (s.ag c k) else s.ag c' k' := ag_setAg _ _ _ _ _ _

@[simp] theorem ag_updAg_same (s : State) (c k : Nat) (f : Agent → Agent) : (s.updAg c k f).ag c k = f (s.ag c k) := by simp [ag_updAg]

@[simp] theorem me_updMe (s : State) (f : Agent → Agent) : (s.updMe f).me = f s.me := by simp [me, updMe]

/-- The agent that issues is another's neighbour only by its key. -/
theorem ag_updMe (s : State) (f : Agent → Agent) (c k : Nat) :
    (s.updMe f).ag c k = if agKey c k = agKey s.cu.core s.cu.st then f s.me else s.ag c k := ag_updAg _ _ _ _ _ _

/-- A core after a core has been changed. -/
theorem core_updCore (s : State) (c : Nat) (f : Core → Core) (c' : Nat) : (s.updCore c f).core c' = if c' = c then f (s.core c) else s.core c' := by
  unfold core updCore
  rw [SMap.find?_put]
  split <;> rfl

@[simp] theorem core_updCore_same (s : State) (c : Nat) (f : Core → Core) : (s.updCore c f).core c = f (s.core c) := by simp [core_updCore]

/-- A context after a context has been stored. -/
theorem ctx_setCtx (s : State) (c : Nat) (x : Ctx) (c' : Nat) : (s.setCtx c x).ctx c' = if c' = c then x else s.ctx c' := by
  unfold ctx setCtx
  rw [SMap.find?_put]
  split <;> rfl

@[simp] theorem ctx_setCtx_same (s : State) (c : Nat) (x : Ctx) : (s.setCtx c x).ctx c = x := by simp [ctx_setCtx]

/-- The agents, cores and contexts are each a function of one field. -/
theorem ag_congr {s t : State} (h : t.agents = s.agents) (c k : Nat) : t.ag c k = s.ag c k := by simp [ag, h]
theorem core_congr {s t : State} (h : t.cores = s.cores) (c : Nat) : t.core c = s.core c := by simp [core, h]
theorem ctx_congr {s t : State} (h : t.ctxs = s.ctxs) (c : Nat) : t.ctx c = s.ctx c := by simp [ctx, h]

end Sys2Proof.Machine.State
end

