-- ==== Sys2Proof/Safety.lean ====
section
/-! DEFINITION. What a safe run is, in the terms the statements use: the canonical form of the byte stores, and frames: what a unit
has written and what it has left as it was. -/

namespace Sys2Proof.Machine

/-- Every byte store of the machine is in canonical form: keys strictly rising, no entry equal to what an unlisted key reads as. -/
def State.memWf (s : State) : Prop := Memory.wf s.mem.bytes = true ∧ Memory.wf s.mem.spad = true

/-- Only the issuing agent has changed: every other agent and every other field of the state is as it was. -/
def OnlyMe (s r : State) : Prop :=
  { r with agents := s.agents } = s ∧ ∀ c k, agKey c k ≠ agKey s.cu.core s.cu.st → r.ag c k = s.ag c k

/-- The bound of a register after a write of latency l (08 R234, R235): a reader before it gets a free value; an open bound of an
earlier writer stays. -/
def Lands (s r : State) (g : RegRef) (l : Nat) : Prop :=
  ∀ t, s.cycle < t → r.me.early t g = (decide (t < s.cycle + l) || s.me.early t g)

/-- The bounds of every register outside a list, and the errors held in register-file entries, are as they were. -/
def Unbound (s r : State) (l : List RegRef) : Prop :=
  (∀ g t, s.cycle ≤ t → g ∉ l → r.me.early t g = s.me.early t g) ∧ (∀ x ∈ r.me.bad, x ∈ s.me.bad)
    ∧ ∀ x ∈ s.me.bad, x ∉ l.map RegRef.file → x ∈ r.me.bad

/-- A unit of latency l has raised VSTAT flags (05 R147, R148): each is set once every result has landed; read at a cycle before the bound
has passed they are all there or none is, and from the bound on they are there. -/
def FlagsRaised (s r : State) (f : W64) (l : Nat) : Prop :=
  r.me.allFlags = s.me.allFlags ||| f
  ∧ ∀ t, s.cycle ≤ t → ∃ g, (g = 0 ∨ g = f) ∧ (s.cycle + l ≤ t → g = f) ∧ (r.me.landFlags t).vstat = (s.me.landFlags t).vstat ||| g

/-- A unit has written scalar register n and raised VSTAT flags, and nothing else (09 R246, 05 R147, 08 R235): a write to s0 is
discarded; where an earlier writer's bound is still open the register keeps one of the two values. -/
def WroteS (s r : State) (n : Nat) (v flags : W64) (l : Nat) : Prop :=
  OnlyMe s r
  ∧ { r.me with regs := { r.me.regs with s := s.me.regs.s }, vstat := s.me.vstat, flagq := s.me.flagq, bounds := s.me.bounds, bad := s.me.bad } = s.me
  ∧ FlagsRaised s r flags l
  ∧ (∀ k, k ≠ n → r.me.sreg k = s.me.sreg k)
  ∧ (n = 0 → r.me.regs = s.me.regs)
  ∧ (n ≠ 0 → (r.me.sreg n = v ∨ s.me.early s.cycle (.s n) = true ∧ r.me.sreg n = s.me.sreg n) ∧ Lands s r (.s n) l)
  ∧ Unbound s r [.s n, .vstat]

/-- A predicate as an agent's register holds it: a sidecar's takes lane 0's value in every lane (09 R247). -/
def asHeld (s : State) (v : Lanes) : Lanes := if isSide s.cu.st then uniform (v.getLsbD 0) else v

/-- A unit has written predicate register n and raised VSTAT flags, and nothing else: a write to p0 is discarded (09 R246). -/
def WroteP (s r : State) (n : Nat) (v : Lanes) (flags : W64) (l : Nat) : Prop :=
  OnlyMe s r
  ∧ { r.me with regs := { r.me.regs with p := s.me.regs.p }, vstat := s.me.vstat, flagq := s.me.flagq, bounds := s.me.bounds, bad := s.me.bad } = s.me
  ∧ FlagsRaised s r flags l
  ∧ (∀ k, k ≠ n → r.me.preg k = s.me.preg k)
  ∧ (n = 0 → r.me.regs = s.me.regs)
  ∧ (n ≠ 0 → (r.me.preg n = asHeld s v ∨ s.me.early s.cycle (.p n) = true ∧ r.me.preg n = s.me.preg n) ∧ Lands s r (.p n) l)
  ∧ Unbound s r [.p n, .vstat]

/-- A unit has written branch-target register n, and nothing else (09 R261). -/
def WroteB (s r : State) (n : Nat) (v : W64) (l : Nat) : Prop :=
  OnlyMe s r
  ∧ { r.me with regs := { r.me.regs with b := s.me.regs.b }, bounds := s.me.bounds, bad := s.me.bad } = s.me
  ∧ (∀ k, k ≠ n → r.me.breg k = s.me.breg k)
  ∧ (r.me.breg n = v ∨ s.me.early s.cycle (.b n) = true ∧ r.me.breg n = s.me.breg n) ∧ Lands s r (.b n) l
  ∧ Unbound s r [.b n]

/-- A unit has written vector register n lane by lane and raised VSTAT flags, and nothing else (10 R280). -/
def WroteV (s r : State) (n : Nat) (v : Nat → W32) (flags : W64) (l : Nat) : Prop :=
  OnlyMe s r
  ∧ { r.me with regs := { r.me.regs with v := s.me.regs.v }, vstat := s.me.vstat, flagq := s.me.flagq, bounds := s.me.bounds, bad := s.me.bad } = s.me
  ∧ FlagsRaised s r flags l
  ∧ (∀ k, k ≠ n → r.me.vreg k = s.me.vreg k)
  ∧ ((∀ j, j < 1024 → (r.me.vreg n).lane j = v j) ∨ s.me.early s.cycle (.v n) = true ∧ r.me.vreg n = s.me.vreg n)
  ∧ Lands s r (.v n) l
  ∧ Unbound s r [.v n, .vstat]

/-- An instruction of a unit completes: exec answers a next state, in which the unit has completed (`State.fin`, 08 R233) after an
effect with the property P. -/
def Completes (i : Instr) (u : U) (s : State) (P : State → Prop) : Prop := ∃ r, exec i s = .next (r.fin u) ∧ P r

/-- An instruction completes with a scalar result in s[a], VSTAT flags and the latency bound l, and no other effect. -/
def PutsS (i : Instr) (u : U) (s : State) (v flags : W64) (l : Nat) : Prop := Completes i u s (fun r => WroteS s r u.a.toNat v flags l)

/-- An instruction completes with a predicate result in p[a], VSTAT flags and the latency bound l, and no other effect. -/
def PutsP (i : Instr) (u : U) (s : State) (v : Lanes) (flags : W64) (l : Nat) : Prop :=
  Completes i u s (fun r => WroteP s r u.a.toNat v flags l)

/-- An instruction completes with a vector result in v[a], VSTAT flags and the latency bound l, and no other effect. -/
def PutsV (i : Instr) (u : U) (s : State) (v : Nat → W32) (flags : W64) (l : Nat) : Prop :=
  Completes i u s (fun r => WroteV s r u.a.toNat v flags l)

/-- The exact signed result x in w bits (05 R120): wrapped; under the saturation modifier the nearest value in range, with
VSTAT.SAT where that is not x. -/
def Clamped (w : Nat) (sat : Bool) (x : Int) (v : BitVec w) (flags : W64) : Prop :=
  if sat then v.toInt = max (-(2 ^ (w - 1) : Int)) (min x (2 ^ (w - 1) - 1)) ∧ flags = (if v.toInt = x then 0 else fSAT)
  else v = BitVec.ofInt w x ∧ flags = 0

/-- An instruction completes with an exact signed sum or product in s[a], wrapped or clamped. -/
def PutsInt (i : Instr) (u : U) (s : State) (x : Int) (l : Nat) : Prop :=
  ∃ v f, Clamped 64 (satOf u) x v f ∧ PutsS i u s v f l

/-- Lane k of operand c of a vector unit: a register's, or the immediate's (08 R241). -/
def State.laneC (s : State) (w64 : Bool) (u : U) (k : Nat) : W32 :=
  if w64 = true ∧ u.c.toNat = 63 then immLane (etyOf w64 u) u.imm k else (s.opV 2 u.c).lane k

/-- The flags of an element-wise result: those some active lane raises (10 R280). -/
def Flagged (s : State) (u : U) (f : Nat → W32 × W64) (fl : W64) : Prop :=
  ∀ j, fl.getLsbD j = true ↔ ∃ k, k < 1024 ∧ (s.gov u).getLsbD k = true ∧ (f k).2.getLsbD j = true

/-- The lanes of an element-wise result: an inactive lane keeps its value (10 R280). -/
def merged (s : State) (u : U) (f : Nat → W32 × W64) (k : Nat) : W32 :=
  if (s.gov u).getLsbD k then (f k).1 else (s.me.vreg u.a.toNat).lane k

/-- An instruction completes with an element-wise result in v[a], its flags and the latency bound l, and no other effect. -/
def PutsLanes (i : Instr) (u : U) (s : State) (f : Nat → W32 × W64) (l : Nat) : Prop :=
  ∃ fl, Flagged s u f fl ∧ PutsV i u s (merged s u f) fl l

/-- An instruction completes with an element-wise SLI result in v[a] and its selected level-crossing flags in p[e], inactive lanes
false, both with bound 25, and no other effect (10 R285). -/
def PutsFlagged (w64 : Bool) (i : Instr) (u : U) (s : State) (f : Nat → W32 × W64) : Prop :=
  ∃ fl pv, Flagged s u f fl ∧ (∀ k, k < 1024 → pv.getLsbD k = ((s.gov u).getLsbD k && (f k).2 &&& lxMask w64 u != 0))
    ∧ Completes i u s (fun r => ∃ x, WroteP s x u.e.toNat pv 0 25 ∧ WroteV x r u.a.toNat (merged s u f) fl 25)

/-- A command has entered stream q of a core, last, unstarted, with its issuer's path state and window (12 R330, R331, 03 R87, 02 R62);
nothing else of the machine has changed but the number drawn for it. -/
def Enqueued (t r : State) (c core q : Nat) (kind : CmdKind) (consumes : List Nat) (tp : Nat) : Prop :=
  ∃ cmd : Cmd, r = ({ t with nextId := t.nextId + 1 }).setEq core q (t.eq core q ++ [cmd])
    ∧ cmd.kind = kind ∧ cmd.ctx = c ∧ cmd.core = core ∧ cmd.consumes = consumes ∧ cmd.tp = tp ∧ cmd.clk = (t.rs t.myRace).xclk
    ∧ cmd.win = t.win c (cluOf core) ∧ cmd.started = false ∧ cmd.prog = 0 ∧ cmd.done = [] ∧ cmd.ended = false ∧ cmd.fault = none
    ∧ cmd.susp = 0 ∧ cmd.flags = 0

/-- The checks that every engine command passes before it is queued (12 R330-R332): its tokens, its control word, the queue that its
class and booking select has room, an epoch is left, and the parked registers on its rows have been moved, which leaves `t`. -/
def CmdReady (s : State) (kind : CmdKind) (cls q : Nat) (ctl : W64) (rows : Option (Nat × Nat)) (t : State) (q' : Nat) (kind' : CmdKind) : Prop :=
  s.ctlPriv ctl = false ∧ ctlOk ctl = true ∧ s.queueFor kind cls q ctl = some (q', kind') ∧ (s.eq s.cu.core q').length < 16
    ∧ s.engExhausted s.myCtx s.cu.core q' = false
    ∧ (match rows with | some (r, n) => s.evictRows s.myCtx s.cu.core r n | none => (s, .ok)) = (t, .ok)

/-- The scratchpad lines of a matrix operand, none for one taken from a vector register. -/
def State.operandPieces (s : State) (t : Tile) (nr : Nat) (ws : List Nat) : List Piece :=
  match t with | .desc w0 w1 => tilePieces s.myWin s.myClu w0 w1 nr ws | .data _ => []

/-- A format queue without its head. -/
def State.popFmt (s : State) (core q : Nat) : State :=
  s.updCore core (fun x => { x with fmtq := SMap.set [] x.fmtq q ((SMap.get [] x.fmtq q).drop 1) })

/-- A transfer to a target has begun with n delay slots (09 R263, R266, R268, R269): with none the agent already stands at the target, or
at the next unit where it is not taken; else the target, the taken bit and the slots left are held. Nothing else has changed. -/
def Began (s t : State) (u : U) (tgt : W64) (taken : Bool) (n : Nat) : Prop :=
  OnlyMe s t
  ∧ t.me = (if n = 0 then
      { s.me with pc := if taken then tgt else s.nextPc, xsrc := if taken then some s.cu.pc else none, ready := s.cycle + 1 + u.g.toNat }
    else { s.me with pc := s.nextPc, xfer := some ⟨tgt, taken, n, s.cu.pc⟩, ready := s.cycle + 1 + u.g.toNat })

/-- The return addresses of the issuing agent after one more has been pushed, on-chip entries newest first (09 R270). -/
def State.pushed (s : State) (ret : W64) : State := s.updMe (fun a => { a with ras := { a.ras with chip := (ret :: a.ras.chip).take 16 } })

/-- q is n / d rounded by a rounding code (05 R124), for d ≠ 0. -/
def Rounded (rnd : Nat) (n d q : Int) : Prop :=
  let e := (2 * (n - q * d)).natAbs
  match rnd with
  | 1 => q = n.tdiv d
  | 2 => q = -((-n).fdiv d)
  | 3 => q = n.fdiv d
  | 0 => e < d.natAbs ∨ e = d.natAbs ∧ q % 2 = 0
  | _ => e < d.natAbs ∨ e = d.natAbs ∧ n.natAbs < (q * d).natAbs

/-- Nothing has changed but bytes of memory, the lines that the L2 slices hold, the list of page-table entries that the access in course has
updated, and the counter of translations chosen. -/
def Walked (s t : State) : Prop :=
  { t with mem := { t.mem with bytes := s.mem.bytes }, dev := { t.dev with l2 := s.dev.l2 }, adw := s.adw, picks := s.picks } = s

/-- Where a byte is stored: scratchpad by its key, memory by the group location that the interleave sets select (02 R69). -/
def State.cellOf (s : State) (sp : Bool) (a : Nat) : Bool × Nat := (sp, if sp then a else memKey s.dev a)

/-- The cells of the bytes of pieces. -/
def State.cellsOf (s : State) (ps : List Piece) : List (Bool × Nat) := ps.flatMap (fun p => (span p.a p.n).map (s.cellOf p.sp))

/-- No byte of memory or scratchpad differs. -/
def SameBytes (s t : State) : Prop := ∀ sp a, t.rdB sp a = s.rdB sp a

/-- Every byte of memory and scratchpad outside the given pieces reads as before; where no two of the pieces' bytes share their place, the
pieces read back the data, each from its offset. -/
def StoredBytes (s t : State) (ps : List Piece) (data : List Byte) : Prop :=
  (∀ sp a, s.cellOf sp a ∉ s.cellsOf ps → t.rdB sp a = s.rdB sp a)
  ∧ ((s.cellsOf ps).Nodup → (∀ p ∈ ps, p.off + p.n ≤ data.length) → t.load ps = ps.flatMap (fun p => (data.drop p.off).take p.n))

/-- No counter of the issuing agent's context is selected, no dirty log covers its writes and no update of a page-table entry waits to be
marked: the device writes nothing of its own. -/
def Quiet (s : State) : Prop := (s.ctx s.myCtx).pmsel = [] ∧ s.loggers s.myCtx = [] ∧ s.adw = []

/-- No counter of a context is selected, no dirty log covers its writes and no update of a page-table entry waits to be marked. -/
def QuietFor (s : State) (c : Nat) : Prop := (s.ctx c).pmsel = [] ∧ s.loggers c = [] ∧ s.adw = []

/-- No agent differs but in the stores that it has still to deliver. -/
def SameAgents (s r : State) : Prop := ∀ k st, { r.ag k st with pend := (s.ag k st).pend } = s.ag k st

/-- A part of a command of an engine has been performed: the command in the queue has become another, no agent has changed, and, counters
and logs aside, no byte outside the pieces written, which hold the data (04 R111). -/
def PartDone (s r : State) (core q : Nat) (c c' : Cmd) (dst : List Piece) (data : List Byte) : Prop :=
  QuietFor s c.ctx → r.eq core q = (s.eq core q).map (fun x => if x.id = c.id then c' else x)
    ∧ SameAgents s r ∧ StoredBytes s r dst data ∧ ∀ k row j, r.accAt k row j = s.accAt k row j

/-- A read of pieces has been performed: metadata recorded, L2 touched; no agent and no core has changed, and, counters and logs aside, no
byte (11 R314, 02 R66). -/
def ReadDone (t r : State) (ps : List Piece) (m : List (Piece × (W64 × W64))) : Prop :=
  r = (t.recordMd m).l2Ps t.myCtx t.cu.core t.cu.st ps false
  ∧ (Quiet t → r.agents = t.agents ∧ r.cores = t.cores ∧ r.ctxs = t.ctxs ∧ SameBytes t r)

/-- A write of pieces has been performed: metadata recorded, the data stored, L2 touched; no agent and no core has changed, and, counters
and logs aside, no byte outside the pieces (11 R314, R313). -/
def WriteDone (t r : State) (ps : List Piece) (m : List (Piece × (W64 × W64))) (data : List Byte) : Prop :=
  r = ((t.recordMd m).storeAs t.myCtx ps data).l2Ps t.myCtx t.cu.core t.cu.st ps true
  ∧ (Quiet t → r.agents = t.agents ∧ r.cores = t.cores ∧ r.ctxs = t.ctxs ∧ StoredBytes t r ps data)

/-- A load may be performed now (11 R309-R314): its address translates or lies in the window, no outstanding read shares a byte, the machine
does not put it off, and the poison and race checks pass. `t` is the state in which it reads, the stores that its checked lines wait for
performed (04 R106). -/
def LoadReady (s : State) (sp : Bool) (scope : Option Nat) (ea : W64) (n : Nat) (t : State) (ps : List Piece)
    (m : List (Piece × (W64 × W64))) : Prop :=
  ∃ s1 s2, s.reach sp .read ea n = (s1, .ok ps) ∧ s1.putsOff = (s2, false) ∧ s2.readMeets ps = false
    ∧ t = s2.settleLines (some s2.myKey) ps ∧ t.screen true ⟨0, scope⟩ ps = .ok m

/-- A store of pieces, checked with metadata m, may be performed now and shown to every reader at once (04 R104, R106): the machine puts
nothing off, earlier reads have been performed, no earlier store waits in the agent, and none to a common byte is unperformed. `t` is the
state in which it writes. -/
def PiecesReady (s1 : State) (scope : Option Nat) (t : State) (ps : List Piece) (m : List (Piece × (W64 × W64))) : Prop :=
  ∃ s2 s3, s1.putsOff = (s2, false) ∧ s2.readsDone = true ∧ s2.me.pend.any (fun p => p.isStore && p.stage == 0) = false
    ∧ s2.screen false ⟨1, scope⟩ ps = .ok m ∧ s2.putsOff = (s3, false) ∧ s3.storeMeets ps = false
    ∧ (if scope.isSome = true then t = s3 else s3.putsOff = (t, false))

/-- A store may be performed now and shown to every reader at once (11 R309-R314, 04 R104, R106): its address translates or lies in the
window, and its pieces may be written. -/
def StoreReady (s : State) (sp : Bool) (scope : Option Nat) (ea : W64) (n : Nat) (t : State) (ps : List Piece)
    (m : List (Piece × (W64 × W64))) : Prop :=
  ∃ s1, s.reach sp .write ea n = (s1, .ok ps) ∧ PiecesReady s1 scope t ps m

/-- An atomic may be performed now (11 R313, R315): earlier accesses have gone as far as its ordering asks, its address translates or lies
in the window, the machine does not put it off, the poison and race checks of its kind (0 a failed compare, 2 else) pass, and a release
has epochs left. `t` is the state in which it acts. -/
def AmoReady (s : State) (u : U) (kind : Nat) (t : State) (ps : List Piece) (m : List (Piece × (W64 × W64))) : Prop :=
  (amoRel u = true → s.allPerformed = true)
    ∧ ∃ s1 s2, s.reach (amoSp u) .atomic (BitVec.ofNat 64 ((s.sB u).toNat / amoSize u * amoSize u)) (amoSize u) = (s1, .ok ps)
      ∧ s1.readsDone = true ∧ s1.storeMeets ps = false
      ∧ (if amoSp u = true ∨ amoRel u = true ∧ (amoAcq u = true ∨ s1.exhausted 1 (amoScope u) = true) then s2 = s1 else s1.putsOff = (s2, false))
      ∧ t = s2.settleLines (some s2.myKey) ps
      ∧ t.screen true ⟨kind, some (amoScope u)⟩ ps = .ok m
      ∧ (amoRel u = true → t.exhausted 1 (if kind = 2 then amoScope u else 0) = false)

/-- An atomic has written a value over its pieces (none for a failed compare) and its old value, with flags, into s[a] (11 R316, R317):
counters and logs aside no other byte, no core and no other agent has changed, and of its own agent only s[a], VSTAT and the published
states it keeps. -/
def AmoDone (s1 r : State) (u : U) (ps : List Piece) (new : Option Nat) (flags : W64) : Prop :=
  ∃ x, WroteS x r u.a.toNat (BitVec.ofNat 64 (ofBytes (s1.load ps))) flags (amoLat u)
    ∧ (Quiet s1 → x.cores = s1.cores ∧ (∀ c k, agKey c k ≠ agKey s1.cu.core s1.cu.st → x.ag c k = s1.ag c k)
        ∧ x.me = { s1.me with readPubs := x.me.readPubs }
        ∧ match new with
          | some v => StoredBytes s1 x ps (toBytes (amoSize u) v)
          | none => SameBytes s1 x)

/-- An address with its low bits cleared to a multiple of n (11 R313, R315). -/
def alignTo (n : Nat) (a : W64) : W64 := BitVec.ofNat 64 (a.toNat / n * n)

/-- A value loaded from little-endian bytes, zero- or sign-extended from their width. -/
def extended (sext : Bool) (n : Nat) (bs : List Byte) : W64 :=
  if sext then (BitVec.ofNat (8 * n) (ofBytes bs)).signExtend 64 else BitVec.ofNat 64 (ofBytes bs)

/-- Word k of a context's descriptor has become v, and nothing else of the machine has changed (15 R400). -/
def WordSet (s r : State) (x k : Nat) (v : W64) : Prop :=
  r.cw x k = v ∧ (∀ m, m ≠ k → r.cw x m = s.cw x m) ∧ (∀ y, y ≠ x → r.ctx y = s.ctx y) ∧ { r.ctx x with w := (s.ctx x).w } = s.ctx x
    ∧ { r with ctxs := s.ctxs } = s

/-- A token's count after one production (04 R98). -/
def State.tokUp (s : State) (core t : Nat) : Nat := if s.tok core t = 0xFFFF then 0xFFFF else s.tok core t + 1

/-- A job of a kind for a context has been left behind, with the token that reports it, after those already there; then those whose turn
has come have begun (13 R365, R366, R370). -/
def JobLeft (s r : State) (kind : JobKind) (x tok : Nat) (cmds : List Nat) (ctxs : SMap Ctx) : Prop :=
  ∃ (t : State) (j : Job), r = t.kick ∧ t.jobs = s.jobs ++ [j] ∧ j.kind = kind ∧ j.ctx = x ∧ j.core = s.cu.core ∧ j.tok = tok ∧ j.cmds = cmds ∧ j.phase = 0
    ∧ t.agents = s.agents ∧ t.cores = s.cores ∧ t.mem = s.mem ∧ t.book = s.book ∧ t.dev = s.dev ∧ t.ctxs = ctxs

end Sys2Proof.Machine
end

