-- ==== Sys2Proof/Laws/Memory.lean ====
section
/-! SUPPORT. Laws of the byte stores: a read after a write, what a write leaves alone, and that every memory operation keeps the
canonical form. -/

namespace Sys2Proof.Machine

/-- A byte read after a byte has been written. -/
theorem Memory.read_write (m : SMap Byte) (a b : Nat) (v : Byte) :
    Memory.read (Memory.write m a v) b = if b = a then v else Memory.read m b := SMap.get_set _ _ _ _ _

/-- A write keeps the canonical form. -/
theorem Memory.write_wf (m : SMap Byte) (a : Nat) (v : Byte) (h : Memory.wf m = true) : Memory.wf (Memory.write m a v) = true :=
  SMap.canon_set _ _ _ _ h

/-- Removing entries keeps the canonical form. -/
theorem Memory.keep_wf (m : SMap Byte) (p : Nat → Byte → Bool) (h : Memory.wf m = true) : Memory.wf (SMap.keep m p) = true :=
  SMap.canon_keep _ _ _ h

namespace State

/-- Reset memory is canonical. -/
theorem memWf_reset : State.reset.memWf := ⟨rfl, rfl⟩

/-- Canonicity depends on the two byte stores only. -/
theorem memWf_congr {s t : State} (h : s.memWf) (hb : t.mem.bytes = s.mem.bytes) (hs : t.mem.spad = s.mem.spad) : t.memWf := by
  unfold memWf at *; rw [hb, hs]; exact h

theorem memWf_of_mem {s t : State} (h : s.memWf) (hm : t.mem = s.mem) : t.memWf := memWf_congr h (by rw [hm]) (by rw [hm])

theorem memWf_wrB {s : State} (h : s.memWf) (sp : Bool) (a : Nat) (v : Byte) : (s.wrB sp a v).memWf := by
  obtain ⟨hb, hs⟩ := h
  unfold wrB
  split
  · exact ⟨hb, Memory.write_wf _ _ _ hs⟩
  · exact ⟨Memory.write_wf _ _ _ hb, hs⟩

theorem memWf_wrBytes {s : State} (h : s.memWf) (sp : Bool) (a : Nat) (bs : List Byte) : (s.wrBytes sp a bs).memWf := by
  induction bs generalizing s a with
  | nil => exact h
  | cons b t ih => exact ih (memWf_wrB h sp a b) _

theorem memWf_wrP64 {s : State} (h : s.memWf) (a : Nat) (v : W64) : (s.wrP64 a v).memWf := memWf_wrBytes h _ _ _

theorem memWf_zeroBytes {s : State} (h : s.memWf) (sp : Bool) (a n : Nat) : (s.zeroBytes sp a n).memWf := by
  unfold zeroBytes
  split
  · exact ⟨h.1, Memory.keep_wf _ (fun k _ => !(decide (a ≤ k) && decide (k < a + n))) h.2⟩
  · exact memWf_wrBytes h _ _ _

theorem memWf_setPsn {s : State} (h : s.memWf) (sp : Bool) (a : Nat) (v : Bool) : (s.setPsn sp a v).memWf := by
  unfold setPsn; split <;> exact memWf_congr h rfl rfl

theorem memWf_setPubs {s : State} (h : s.memWf) (sp : Bool) (a : Nat) (l : List Pub) : (s.setPubs sp a l).memWf := memWf_congr h rfl rfl

theorem memWf_setMd {s : State} (h : s.memWf) (p : Piece) (m : W64 × W64) : (s.setMd p m).memWf := by
  unfold setMd; split <;> exact memWf_congr h rfl rfl

/-- A fold of steps that each keep the form keeps it. -/
theorem memWf_foldl {β : Type} (l : List β) (f : State → β → State) (hf : ∀ s b, s.memWf → (f s b).memWf) :
    ∀ {s : State}, s.memWf → (l.foldl f s).memWf := by
  induction l with
  | nil => exact fun h => h
  | cons b t ih => exact fun h => ih (hf _ b h)

theorem memWf_dropPubs {s : State} (h : s.memWf) (sp : Bool) (a n : Nat) : (s.dropPubs sp a n).memWf := by
  unfold dropPubs
  split
  · exact h
  · exact memWf_foldl _ _ (fun _ _ h => memWf_setPubs h _ _ _) h

theorem memWf_recordMd {s : State} (h : s.memWf) (l : List (Piece × (W64 × W64))) : (s.recordMd l).memWf :=
  memWf_foldl _ _ (fun _ _ h => memWf_setMd h _ _) h

theorem memWf_storeOne {s : State} (h : s.memWf) (p : Piece) (data : List Byte) : (s.storeOne p data).memWf := by
  unfold storeOne
  apply memWf_dropPubs
  split
  · exact memWf_setPsn (memWf_wrBytes h _ _ _) _ _ _
  · exact memWf_wrBytes h _ _ _

theorem memWf_store {s : State} (h : s.memWf) (ps : List Piece) (data : List Byte) : (s.store ps data).memWf :=
  memWf_foldl _ _ (fun _ _ h => memWf_storeOne h _ _) h

theorem memWf_wrIset {s : State} (h : s.memWf) (n : Nat) (v : W64) : (s.wrIset n v).memWf := by
  obtain ⟨hb, hs⟩ := h
  refine ⟨?_, hs⟩
  simp only [wrIset]
  apply SMap.canon_keep
  exact hb

theorem memWf_cleared {s : State} (h : s.memWf) (b : Boot) : (s.cleared b).memWf := ⟨h.1, rfl⟩

/-- A byte read after a byte has been written: of memory by its storage key, of scratchpad by its address. -/
theorem rdB_wrB (s : State) (sp : Bool) (a : Nat) (v : Byte) (sp' : Bool) (b : Nat) :
    (s.wrB sp a v).rdB sp' b =
      if sp = sp' ∧ (if sp then b = a else memKey s.dev b = memKey s.dev a) then v else s.rdB sp' b := by
  cases sp <;> cases sp' <;> simp [wrB, rdB, Memory.read_write]

/-- A write of consecutive bytes leaves alone every byte whose storage is none of theirs. -/
theorem rdB_wrBytes_ne (s : State) (sp : Bool) (a : Nat) (bs : List Byte) (sp' : Bool) (b : Nat)
    (h : ∀ k, k < bs.length → ¬(sp = sp' ∧ (if sp then b = a + k else memKey s.dev b = memKey s.dev (a + k)))) :
    (s.wrBytes sp a bs).rdB sp' b = s.rdB sp' b := by
  induction bs generalizing s a with
  | nil => rfl
  | cons x t ih =>
    have hd : (s.wrB sp a x).dev = s.dev := wrB_dev s sp a x
    rw [wrBytes, ih]
    · rw [rdB_wrB, if_neg]
      simpa using h 0 (by simp)
    · intro k hk
      have := h (k + 1) (by simpa using hk)
      rw [hd]
      simpa [Nat.add_assoc, Nat.add_comm 1 k] using this

@[simp] theorem wrBytes_agents (s : State) (sp : Bool) (a : Nat) (bs : List Byte) : (s.wrBytes sp a bs).agents = s.agents := by
  induction bs generalizing s a with
  | nil => rfl
  | cons x t ih => simp [wrBytes, ih]

@[simp] theorem wrBytes_dev (s : State) (sp : Bool) (a : Nat) (bs : List Byte) : (s.wrBytes sp a bs).dev = s.dev := by
  induction bs generalizing s a with
  | nil => rfl
  | cons x t ih => simp [wrBytes, ih]

@[simp] theorem wrBytes_cores (s : State) (sp : Bool) (a : Nat) (bs : List Byte) : (s.wrBytes sp a bs).cores = s.cores := by
  induction bs generalizing s a with
  | nil => rfl
  | cons x t ih => simp [wrBytes, ih]

@[simp] theorem wrBytes_ctxs (s : State) (sp : Bool) (a : Nat) (bs : List Byte) : (s.wrBytes sp a bs).ctxs = s.ctxs := by
  induction bs generalizing s a with
  | nil => rfl
  | cons x t ih => simp [wrBytes, ih]

end State
end Sys2Proof.Machine
end

