-- ==== Sys2Proof/Laws/Ops.lean ====
section
/-! SUPPORT. What each shared operation can do: registers written with their bounds, governed units, the advance of the program
counter. -/

namespace Sys2Proof.Machine

/-- The bounds after a register has landed. -/
theorem Agent.land_bounds (a : Agent) (now : Nat) (r : RegRef) (l : Nat) :
    (a.land now r l).1.bounds = if l ≤ 1 ∧ (!a.early now r) = true then a.bounds.filter (fun b => b.reg != r && decide (now < b.till))
      else ⟨r, max (now + l) ((a.bounds.filter (fun b => b.reg == r)).foldl (fun m b => max m b.till) 0)⟩
        :: a.bounds.filter (fun b => b.reg != r && decide (now < b.till)) := by
  simp only [Agent.land]; split <;> rfl

/-- What an open bound is. -/
theorem Agent.early_iff (a : Agent) (t : Nat) (r : RegRef) : a.early t r = true ↔ ∃ b ∈ a.bounds, b.reg = r ∧ t < b.till := by
  simp [Agent.early]

theorem lt_max_iff (t a b : Nat) : t < max a b ↔ t < a ∨ t < b := by omega

/-- Bounds dropped because they have run out or are the written register's do not show from now on. -/
theorem Agent.early_land (a : Agent) (now : Nat) (r : RegRef) (l t : Nat) (g : RegRef) (hg : g ≠ r) (ht : now ≤ t) :
    (a.land now r l).1.early t g = a.early t g := by
  have key : ∀ bs : List Bound, (bs.filter (fun b => b.reg != r && decide (now < b.till))).any (fun b => b.reg == g && decide (t < b.till))
      = bs.any (fun b => b.reg == g && decide (t < b.till)) := by
    intro bs
    rw [Bool.eq_iff_iff]
    simp only [List.any_eq_true, List.mem_filter, Bool.and_eq_true, beq_iff_eq, bne_iff_ne, ne_eq, decide_eq_true_eq]
    constructor
    · rintro ⟨b, ⟨hb, -⟩, h⟩
      exact ⟨b, hb, h⟩
    · rintro ⟨b, hb, h1, h2⟩
      exact ⟨b, ⟨hb, by rw [h1]; exact hg, by omega⟩, h1, h2⟩
  rw [Agent.early, Agent.land_bounds, Agent.early]
  split
  · exact key _
  · rw [List.any_cons, key]
    have : (r == g) = false := by simpa using fun h => hg h.symm
    simp [this, Agent.early]

theorem maxTill (l : List Bound) (m t : Nat) : t < l.foldl (fun m b => max m b.till) m ↔ t < m ∨ ∃ b ∈ l, t < b.till := by
  induction l generalizing m with
  | nil => simp
  | cons b l ih => rw [List.foldl_cons, ih]; simp [lt_max_iff, or_assoc]

/-- The written register's bound after a write. -/
theorem Agent.early_land_same (a : Agent) (now : Nat) (r : RegRef) (l t : Nat) (ht : now < t) :
    (a.land now r l).1.early t r = (decide (t < now + l) || a.early t r) := by
  have hrest : ∀ bs : List Bound, (bs.filter (fun b => b.reg != r && decide (now < b.till))).any (fun b => b.reg == r && decide (t < b.till)) = false := by
    intro bs
    rw [List.any_eq_false]
    intro b hb
    have := (List.mem_filter.1 hb).2
    simp only [Bool.and_eq_true, bne_iff_ne, ne_eq] at this
    simp [this.1]
  rw [Agent.early, Agent.land_bounds]
  split
  next h =>
    have ho : a.early now r = false := by simpa using h.2
    have : a.early t r = false := by
      rw [Agent.early, List.any_eq_false] at ho ⊢
      intro b hb hc
      refine ho b hb ?_
      simp only [Bool.and_eq_true, decide_eq_true_eq] at hc ⊢
      exact ⟨hc.1, by omega⟩
    rw [this]
    have : ¬ t < now + l := by omega
    simpa [Agent.early, this] using hrest a.bounds
  next h =>
    rw [Agent.early, List.any_cons, hrest, Bool.or_false, Bool.eq_iff_iff]
    simp only [BEq.rfl, Bool.true_and, decide_eq_true_eq, Bool.or_eq_true, List.any_eq_true, lt_max_iff,
      maxTill, List.mem_filter, Bool.and_eq_true, beq_iff_eq, Nat.not_lt_zero, false_or]
    exact or_congr_right ⟨fun ⟨b, hb, ht⟩ => ⟨b, hb.1, hb.2, ht⟩, fun ⟨b, h1, h2, h3⟩ => ⟨b, ⟨h1, h2⟩, h3⟩⟩

/-- Nothing but bounds and errors changes as a register lands. -/
theorem Agent.land_rest (a : Agent) (now : Nat) (r : RegRef) (l : Nat) :
    (a.land now r l).1 = { a with bounds := (a.land now r l).1.bounds, bad := a.bad.filter (· != r.file) } := by
  simp only [Agent.land]; split <;> rfl

@[simp] theorem Agent.land_open (a : Agent) (now : Nat) (r : RegRef) (l : Nat) : (a.land now r l).2 = a.early now r := rfl

@[simp] theorem Agent.land_regs (a : Agent) (now : Nat) (r : RegRef) (l : Nat) : (a.land now r l).1.regs = a.regs := by
  rw [Agent.land_rest]

@[simp] theorem Agent.land_bad (a : Agent) (now : Nat) (r : RegRef) (l : Nat) : (a.land now r l).1.bad = a.bad.filter (· != r.file) := by
  rw [Agent.land_rest]

@[simp] theorem Agent.land_flagq (a : Agent) (now : Nat) (r : RegRef) (l : Nat) : (a.land now r l).1.flagq = a.flagq := by
  rw [Agent.land_rest]

@[simp] theorem Agent.land_vstat (a : Agent) (now : Nat) (r : RegRef) (l : Nat) : (a.land now r l).1.vstat = a.vstat := by
  rw [Agent.land_rest]

/-- A change of the issuing agent changes nothing else. -/
theorem onlyMe_updMe (s : State) (f : Agent → Agent) : OnlyMe s (s.updMe f) :=
  ⟨rfl, fun c k h => by rw [State.ag_updMe, if_neg h]⟩

theorem onlyMe_refl (s : State) : OnlyMe s s := ⟨rfl, fun _ _ _ => rfl⟩

theorem onlyMe_cu {s r : State} (h : OnlyMe s r) : r.cu = s.cu := by rw [← h.1]

theorem onlyMe_trans {s t r : State} (h1 : OnlyMe s t) (h2 : OnlyMe t r) : OnlyMe s r := by
  refine ⟨?_, fun c k h => ?_⟩
  · obtain ⟨a, -⟩ := h1
    obtain ⟨b, -⟩ := h2
    rw [← a, ← b]
  · rw [h2.2 c k (by rw [onlyMe_cu h1]; exact h), h1.2 c k h]

/-- The bounds and errors that a landing register leaves as they are. -/
theorem unbound_land {s r : State} (g : RegRef) (l : Nat) (L : List RegRef) (hg : g ∈ L)
    (hb : r.me.bounds = (s.me.land s.cycle g l).1.bounds) (hd : r.me.bad = (s.me.land s.cycle g l).1.bad) : Unbound s r L := by
  refine ⟨fun x t ht hx => ?_, fun x hx => ?_, fun x hx hn => ?_⟩
  · have := Agent.early_land s.me s.cycle g l t x (fun h => hx (h ▸ hg)) ht
    simpa only [Agent.early, hb] using this
  · rw [hd, Agent.land_bad] at hx
    exact (List.mem_filter.1 hx).1
  · rw [hd, Agent.land_bad]
    refine List.mem_filter.2 ⟨hx, ?_⟩
    simp only [bne_iff_ne, ne_eq]
    exact fun h => hn (h ▸ List.mem_map_of_mem hg)

/-- The bound that a landing register gets. -/
theorem lands_land {s r : State} (g : RegRef) (l : Nat) (hb : r.me.bounds = (s.me.land s.cycle g l).1.bounds) : Lands s r g l := by
  intro t ht
  have := Agent.early_land_same s.me s.cycle g l t ht
  simpa only [Agent.early, hb] using this

/-- Setting one entry of a register map. -/
theorem getD_set_same {α : Type} [DecidableEq α] (d : α) (m : SMap α) (k : Nat) (v : α) : SMap.get d (SMap.set d m k v) k = v :=
  SMap.get_set_same d m k v

/-- A register landed changes bounds and errors only. -/
theorem Agent.land_ex (a : Agent) (now : Nat) (r : RegRef) (l : Nat) :
    ∃ b e, (a.land now r l).1 = { a with bounds := b, bad := e } := ⟨_, _, Agent.land_rest a now r l⟩

/-- Bits of flags put together. -/
theorem landingFlags_bit (l : List FlagLand) (j : Nat) : (landingFlags l).getLsbD j = l.any (fun e => e.flags.getLsbD j) := by
  have key : ∀ (f : W64), (l.foldl (fun f e => f ||| e.flags) f).getLsbD j = (f.getLsbD j || l.any (fun e => e.flags.getLsbD j)) := by
    induction l with
    | nil => intro f; simp
    | cons e l ih => intro f; rw [List.foldl_cons, ih]; simp [Bool.or_assoc]
  rw [landingFlags, key]; simp

/-- Flags that are apart by a test, together again. -/
theorem landingFlags_split (l : List FlagLand) (p q : FlagLand → Bool) (h : ∀ e, q e = !p e) :
    landingFlags (l.filter p) ||| landingFlags (l.filter q) = landingFlags l := by
  ext j
  rw [← BitVec.getLsbD_eq_getElem, ← BitVec.getLsbD_eq_getElem, BitVec.getLsbD_or, landingFlags_bit, landingFlags_bit, landingFlags_bit]
  induction l with
  | nil => rfl
  | cons e l ih =>
    simp only [List.filter_cons, h]
    cases p e <;> simp [List.any_cons, ← ih, Bool.or_left_comm, Bool.or_assoc, h]

/-- Flags of a list and of its tail. -/
theorem landingFlags_cons (e : FlagLand) (l : List FlagLand) : landingFlags (e :: l) = landingFlags l ||| e.flags := by
  ext j
  rw [← BitVec.getLsbD_eq_getElem, ← BitVec.getLsbD_eq_getElem, BitVec.getLsbD_or, landingFlags_bit, landingFlags_bit, List.any_cons, Bool.or_comm]

/-- No flag raised. -/
theorem raised_same {s r : State} (l : Nat) (hv : r.me.vstat = s.me.vstat) (hq : r.me.flagq = s.me.flagq) : FlagsRaised s r 0 l := by
  refine ⟨by simp [Agent.allFlags, hv, hq], fun t _ => ⟨0, .inl rfl, fun _ => rfl, ?_⟩⟩
  simp [Agent.landFlags, hv, hq]

/-- Flags raised, then none. -/
theorem raised_trans {s t r : State} {f : W64} {l : Nat} (h1 : FlagsRaised s t f l) (hc : t.cycle = s.cycle) (h2 : FlagsRaised t r 0 l) : FlagsRaised s r f l := by
  refine ⟨by rw [h2.1, h1.1]; simp, fun x hx => ?_⟩
  obtain ⟨g, ha, hb, hg⟩ := h1.2 x hx
  obtain ⟨g', ha', -, hg'⟩ := h2.2 x (hc ▸ hx)
  refine ⟨g, ha, hb, ?_⟩
  have : g' = 0 := by rcases ha' with h | h <;> exact h
  rw [hg', hg, this]; simp

/-- A scalar register written. -/
theorem wroteS_wrS (s : State) (n : Nat) (v : W64) (l : Nat) : WroteS s (s.wrS n v l) n v 0 l := by
  by_cases hn : n = 0
  · subst hn
    have : s.wrS 0 v l = s := rfl
    rw [this]
    exact ⟨onlyMe_refl s, rfl, raised_same l rfl rfl, fun _ _ => rfl, fun _ => rfl, fun h => absurd rfl h, fun _ _ _ _ => rfl, fun _ h => h, fun _ h _ => h⟩
  · rw [State.wrS, if_neg hn]
    refine ⟨onlyMe_updMe _ _, ?_, ?_, fun k hk => ?_, fun h => absurd h hn, fun _ => ⟨?_, lands_land (.s n) l ?_⟩,
      unbound_land (.s n) l _ (by simp) ?_ ?_⟩
    · obtain ⟨b, e, h⟩ := Agent.land_ex s.me s.cycle (.s n) l
      simp only [State.me_updMe, h]
    · exact raised_same l (by rw [State.me_updMe]; simp) (by rw [State.me_updMe]; simp)
    · rw [State.me_updMe]; simp only [Agent.sreg, Agent.land_regs, SMap.get_set_ne _ _ _ hk]
    · rw [State.me_updMe]
      simp only [Agent.sreg, if_neg hn, Agent.land_regs, SMap.get_set_same, Agent.land_open]
      by_cases h : (s.me.early s.cycle (.s n) && Config.freeChoice s.fresh n) = true
      · rw [if_pos h]; exact .inr ⟨by simp_all, rfl⟩
      · rw [if_neg h]; exact .inl rfl
    · rw [State.me_updMe]
    · rw [State.me_updMe]
    · rw [State.me_updMe]

/-- VSTAT flags raised, then a register written. -/
theorem orVstat_me (s : State) (f : W64) (l : Nat) : (s.orVstat f l).me
    = { (if l ≤ 1 then s.me else (s.me.land s.cycle .vstat l).1) with
        vstat := s.me.vstat ||| (if l ≤ 1 then f else landingFlags (s.me.flagq.filter (fun e => decide (e.born + e.span ≤ s.cycle)))),
        flagq := if l ≤ 1 then s.me.flagq else
          (let q := s.me.flagq.filter (fun e => decide (s.cycle < e.born + e.span))
           if f = 0 then q else ⟨f, s.cycle, l, s.fresh⟩ :: q) } := by
  rw [State.orVstat, State.me_updMe]
  by_cases h : l ≤ 1
  · simp only [if_pos h]
  · simp only [if_neg h]

theorem orVstat_onlyMe (s : State) (f : W64) (l : Nat) : OnlyMe s (s.orVstat f l) := onlyMe_updMe _ _

theorem orVstat_unbound (s : State) (f : W64) (l : Nat) : Unbound s (s.orVstat f l) [.vstat] := by
  by_cases hl : l ≤ 1
  · have h : (s.orVstat f l).me.bounds = s.me.bounds ∧ (s.orVstat f l).me.bad = s.me.bad := by rw [orVstat_me, if_pos hl]; exact ⟨rfl, rfl⟩
    refine ⟨fun x t _ _ => ?_, fun x hx => ?_, fun x hx _ => ?_⟩
    · rw [Agent.early, h.1]; rfl
    · rw [h.2] at hx; exact hx
    · rw [h.2]; exact hx
  · exact unbound_land .vstat l _ (by simp) (by rw [orVstat_me, if_neg hl]) (by rw [orVstat_me, if_neg hl])

theorem orVstat_frame (s : State) (f : W64) (l : Nat) :
    ∃ v q b e, (s.orVstat f l).me = { s.me with vstat := v, flagq := q, bounds := b, bad := e } := by
  rw [orVstat_me]
  by_cases hl : l ≤ 1
  · rw [if_pos hl]; exact ⟨_, _, _, _, rfl⟩
  · rw [if_neg hl]
    obtain ⟨b, e, h⟩ := Agent.land_ex s.me s.cycle .vstat l
    rw [h]; exact ⟨_, _, _, _, rfl⟩

/-- The flags that an instruction raises land with its result. -/
theorem orVstat_raised (s : State) (f : W64) (l : Nat) : FlagsRaised s (s.orVstat f l) f l := by
  by_cases hl : l ≤ 1
  · have hv : (s.orVstat f l).me.vstat = s.me.vstat ||| f := by rw [orVstat_me]; simp [hl]
    have hq : (s.orVstat f l).me.flagq = s.me.flagq := by rw [orVstat_me]; simp [hl]
    refine ⟨?_, fun t _ => ⟨f, .inr rfl, fun _ => rfl, ?_⟩⟩
    · rw [Agent.allFlags, Agent.allFlags, hv, hq, BitVec.or_assoc, BitVec.or_assoc, BitVec.or_comm f]
    · simp only [Agent.landFlags, hv, hq]; rw [BitVec.or_assoc, BitVec.or_assoc, BitVec.or_comm f]
  · have hv : (s.orVstat f l).me.vstat = s.me.vstat ||| landingFlags (s.me.flagq.filter (fun e => decide (e.born + e.span ≤ s.cycle))) := by
      rw [orVstat_me]; simp only [if_neg hl]
    have hq : (s.orVstat f l).me.flagq = (if f = 0 then s.me.flagq.filter (fun e => decide (s.cycle < e.born + e.span))
        else ⟨f, s.cycle, l, s.fresh⟩ :: s.me.flagq.filter (fun e => decide (s.cycle < e.born + e.span))) := by
      rw [orVstat_me]; simp only [if_neg hl]
    have hs := landingFlags_split s.me.flagq (fun e => decide (e.born + e.span ≤ s.cycle)) (fun e => decide (s.cycle < e.born + e.span))
      (fun e => by rw [← decide_not]; exact decide_eq_decide.2 (by omega))
    refine ⟨?_, fun t ht => ?_⟩
    · rw [Agent.allFlags, Agent.allFlags, hv, hq, ← hs]
      by_cases hf : f = 0
      · simp only [hf]; simp [BitVec.or_assoc]
      · simp only [if_neg hf, landingFlags_cons]; simp [BitVec.or_assoc]
    · have hd : landingFlags (s.me.flagq.filter (·.landed t))
          = landingFlags (s.me.flagq.filter (fun e => decide (e.born + e.span ≤ s.cycle)))
            ||| landingFlags ((s.me.flagq.filter (fun e => decide (s.cycle < e.born + e.span))).filter (·.landed t)) := by
        rw [← landingFlags_split (s.me.flagq.filter (·.landed t)) (fun e => decide (e.born + e.span ≤ s.cycle))
          (fun e => decide (s.cycle < e.born + e.span)) (fun e => by rw [← decide_not]; exact decide_eq_decide.2 (by omega))]
        rw [List.filter_filter, List.filter_filter, List.filter_filter]
        congr 1
        · congr 1
          refine List.filter_congr fun e _ => ?_
          by_cases h : e.born + e.span ≤ s.cycle
          · have : e.landed t = true := by rw [FlagLand.landed]; simp; left; omega
            simp [h, this]
          · simp [h]
        · congr 1
          exact List.filter_congr fun e _ => Bool.and_comm _ _
      simp only [Agent.landFlags, hv, hq, hd]
      by_cases hf : f = 0
      · refine ⟨0, .inl rfl, fun _ => hf.symm, ?_⟩
        simp only [if_pos hf]; simp [BitVec.or_assoc]
      · simp only [if_neg hf, List.filter_cons]
        by_cases hn : (FlagLand.mk f s.cycle l s.fresh).landed t = true
        · refine ⟨f, .inr rfl, fun _ => rfl, ?_⟩
          rw [if_pos hn, landingFlags_cons]; simp [BitVec.or_assoc]
        · refine ⟨0, .inl rfl, fun h => absurd ?_ hn, ?_⟩
          · rw [FlagLand.landed]; simp [h]
          · rw [if_neg hn]; simp [BitVec.or_assoc]

@[simp] theorem orVstat_cycle (s : State) (f : W64) (l : Nat) : (s.orVstat f l).cycle = s.cycle := rfl
@[simp] theorem orVstat_cu (s : State) (f : W64) (l : Nat) : (s.orVstat f l).cu = s.cu := rfl
@[simp] theorem orVstat_fresh (s : State) (f : W64) (l : Nat) : (s.orVstat f l).fresh = s.fresh := rfl

/-- Two lists of registers whose bounds may change, one after the other. -/
theorem unbound_trans {s t r : State} {l1 l2 : List RegRef} (hc : t.cycle = s.cycle) (h1 : Unbound s t l1) (h2 : Unbound t r l2) :
    Unbound s r (l2 ++ l1) := by
  obtain ⟨a1, b1, c1⟩ := h1
  obtain ⟨a2, b2, c2⟩ := h2
  refine ⟨fun g n hn hg => ?_, fun x hx => b1 x (b2 x hx), fun x hx hn => ?_⟩
  · rw [List.mem_append] at hg
    rw [a2 g n (hc ▸ hn) (fun h => hg (.inl h)), a1 g n hn (fun h => hg (.inr h))]
  · rw [List.map_append, List.mem_append] at hn
    exact c2 x (c1 x hx (fun h => hn (.inr h))) (fun h => hn (.inl h))

theorem unbound_mono {s r : State} {l1 l2 : List RegRef} (h : Unbound s r l1) (hl : ∀ x ∈ l1, x ∈ l2) : Unbound s r l2 :=
  ⟨fun g n hn hg => h.1 g n hn (fun x => hg (hl g x)), h.2.1, fun x hx hn => h.2.2 x hx (fun y => hn (by
    obtain ⟨z, hz, rfl⟩ := List.mem_map.1 y
    exact List.mem_map_of_mem (hl z hz)))⟩

/-- A scalar register written after flags were raised. -/
theorem wroteS_flags (s : State) (n : Nat) (v f : W64) (l : Nat) : WroteS s ((s.orVstat f l).wrS n v l) n v f l := by
  obtain ⟨w, q, b, e, hm⟩ := orVstat_frame s f l
  have hr := orVstat_raised s f l
  have hu := orVstat_unbound s f l
  have ho := orVstat_onlyMe s f l
  have hc : (s.orVstat f l).cycle = s.cycle := rfl
  generalize s.orVstat f l = t at *
  obtain ⟨h1, h2, h3, h4, h5, h6, h7⟩ := wroteS_wrS t n v l
  have he : ∀ x, s.cycle ≤ x → t.me.early x (.s n) = s.me.early x (.s n) := fun x hx => hu.1 _ x hx (by simp)
  refine ⟨onlyMe_trans ho h1, ?_, ?_, fun k hk => ?_, fun h => ?_, fun h => ?_, unbound_mono (unbound_trans hc hu h7) (by simp)⟩
  · rw [hm] at h2; simp only at h2
    generalize (t.wrS n v l).me = a at *
    cases a; cases hs : s.me; rw [hs] at h2; simp only [Agent.mk.injEq] at h2 ⊢; exact h2
  · exact raised_trans hr hc h3
  · rw [h4 k hk, hm]; rfl
  · rw [h5 h, hm]
  · obtain ⟨ha, hb⟩ := h6 h
    refine ⟨?_, fun x hx => ?_⟩
    · rw [hc, he _ (Nat.le_refl _)] at ha
      rw [hm] at ha; exact ha
    · rw [hb x (hc ▸ hx), hc, he x (Nat.le_of_lt hx)]

/-- A predicate register written. -/
theorem wroteP_wrP (s : State) (n : Nat) (v : Lanes) (l : Nat) : WroteP s (s.wrP n v l) n v 0 l := by
  by_cases hn : n = 0
  · subst hn
    have : s.wrP 0 v l = s := rfl
    rw [this]
    exact ⟨onlyMe_refl s, rfl, raised_same l rfl rfl, fun _ _ => rfl, fun _ => rfl, fun h => absurd rfl h, fun _ _ _ _ => rfl, fun _ h => h, fun _ h _ => h⟩
  · rw [State.wrP, if_neg hn]
    refine ⟨onlyMe_updMe _ _, ?_, ?_, fun k hk => ?_, fun h => absurd h hn, fun _ => ⟨?_, lands_land (.p n) l ?_⟩,
      unbound_land (.p n) l _ (by simp) ?_ ?_⟩
    · obtain ⟨b, e, h⟩ := Agent.land_ex s.me s.cycle (.p n) l
      simp only [State.me_updMe, h]
    · exact raised_same l (by rw [State.me_updMe]; simp) (by rw [State.me_updMe]; simp)
    · rw [State.me_updMe]; simp only [Agent.preg, Agent.land_regs, SMap.get_set_ne _ _ _ hk]
    · rw [State.me_updMe]
      simp only [Agent.preg, if_neg hn, Agent.land_regs, SMap.get_set_same, Agent.land_open]
      by_cases h : (s.me.early s.cycle (.p n) && Config.freeChoice s.fresh (128 + n)) = true
      · rw [if_pos h]; exact .inr ⟨by simp_all, rfl⟩
      · rw [if_neg h]; exact .inl rfl
    · rw [State.me_updMe]
    · rw [State.me_updMe]
    · rw [State.me_updMe]

/-- A predicate register written after flags were raised. -/
theorem wroteP_flags (s : State) (n : Nat) (v : Lanes) (f : W64) (l : Nat) : WroteP s ((s.orVstat f l).wrP n v l) n v f l := by
  obtain ⟨w, q, b, e, hm⟩ := orVstat_frame s f l
  have hr := orVstat_raised s f l
  have hu := orVstat_unbound s f l
  have ho := orVstat_onlyMe s f l
  have hc : (s.orVstat f l).cycle = s.cycle := rfl
  have hh : asHeld (s.orVstat f l) v = asHeld s v := rfl
  generalize s.orVstat f l = t at *
  obtain ⟨h1, h2, h3, h4, h5, h6, h7⟩ := wroteP_wrP t n v l
  have he : ∀ x, s.cycle ≤ x → t.me.early x (.p n) = s.me.early x (.p n) := fun x hx => hu.1 _ x hx (by simp)
  refine ⟨onlyMe_trans ho h1, ?_, ?_, fun k hk => ?_, fun h => ?_, fun h => ?_, unbound_mono (unbound_trans hc hu h7) (by simp)⟩
  · rw [hm] at h2; simp only at h2
    generalize (t.wrP n v l).me = a at *
    cases a; cases hs : s.me; rw [hs] at h2; simp only [Agent.mk.injEq] at h2 ⊢; exact h2
  · exact raised_trans hr hc h3
  · rw [h4 k hk, hm]; rfl
  · rw [h5 h, hm]
  · obtain ⟨ha, hb⟩ := h6 h
    refine ⟨?_, fun x hx => ?_⟩
    · rw [hc, he _ (Nat.le_refl _), hh] at ha
      rw [hm] at ha; exact ha
    · rw [hb x (hc ▸ hx), hc, he x (Nat.le_of_lt hx)]

/-- A branch-target register written. -/
theorem wroteB_wrBt (s : State) (n : Nat) (v : W64) (l : Nat) : WroteB s (s.wrBt n v l) n v l := by
  rw [State.wrBt]
  refine ⟨onlyMe_updMe _ _, ?_, fun k hk => ?_, ?_, lands_land (.b n) l ?_, unbound_land (.b n) l _ (by simp) ?_ ?_⟩
  · obtain ⟨b, e, h⟩ := Agent.land_ex s.me s.cycle (.b n) l
    simp only [State.me_updMe, h]
  · rw [State.me_updMe]; simp only [Agent.breg, Agent.land_regs, SMap.get_set_ne _ _ _ hk]
  · rw [State.me_updMe]
    simp only [Agent.breg, Agent.land_regs, SMap.get_set_same]
    split
    next h => exact .inr ⟨(Bool.and_eq_true _ _ ▸ h).1, rfl⟩
    next h => exact .inl rfl
  · rw [State.me_updMe]
  · rw [State.me_updMe]
  · rw [State.me_updMe]

/-- A vector register written. -/
theorem wroteV_wrV (s : State) (n : Nat) (v : VReg) (l : Nat) : WroteV s (s.wrV n v l) n v.lane 0 l := by
  rw [State.wrV]
  refine ⟨onlyMe_updMe _ _, ?_, ?_, fun k hk => ?_, ?_, lands_land (.v n) l ?_, unbound_land (.v n) l _ (by simp) ?_ ?_⟩
  · obtain ⟨b, e, h⟩ := Agent.land_ex s.me s.cycle (.v n) l
    simp only [State.me_updMe, h]
  · exact raised_same l (by rw [State.me_updMe]; simp) (by rw [State.me_updMe]; simp)
  · rw [State.me_updMe]; simp only [Agent.vreg, Agent.land_regs, SMap.get_set_ne _ _ _ hk]
  · rw [State.me_updMe]
    simp only [Agent.vreg, Agent.land_regs, SMap.get_set_same]
    split
    next h => exact .inr ⟨(Bool.and_eq_true _ _ ▸ h).1, rfl⟩
    next h => exact .inl (fun _ _ => rfl)
  · rw [State.me_updMe]
  · rw [State.me_updMe]
  · rw [State.me_updMe]

/-- A vector register written after flags were raised. -/
theorem wroteV_flags (s : State) (n : Nat) (v : VReg) (f : W64) (l : Nat) : WroteV s ((s.orVstat f l).wrV n v l) n v.lane f l := by
  obtain ⟨w, q, b, e, hm⟩ := orVstat_frame s f l
  have hr := orVstat_raised s f l
  have hu := orVstat_unbound s f l
  have ho := orVstat_onlyMe s f l
  have hc : (s.orVstat f l).cycle = s.cycle := rfl
  generalize s.orVstat f l = t at *
  obtain ⟨h1, h2, h3, h4, ha, hb, h7⟩ := wroteV_wrV t n v l
  have he : ∀ x, s.cycle ≤ x → t.me.early x (.v n) = s.me.early x (.v n) := fun x hx => hu.1 _ x hx (by simp)
  refine ⟨onlyMe_trans ho h1, ?_, ?_, fun k hk => ?_, ?_, fun x hx => ?_, unbound_mono (unbound_trans hc hu h7) (by simp)⟩
  · rw [hm] at h2; simp only at h2
    generalize (t.wrV n v l).me = a at *
    cases a; cases hs : s.me; rw [hs] at h2; simp only [Agent.mk.injEq] at h2 ⊢; exact h2
  · exact raised_trans hr hc h3
  · rw [h4 k hk, hm]; rfl
  · rw [hc, he _ (Nat.le_refl _)] at ha
    rw [hm] at ha; exact ha
  · rw [hb x (hc ▸ hx), hc, he x (Nat.le_of_lt hx)]

end Sys2Proof.Machine
end

