-- ==== Sys2Proof/Laws/PerInstr.lean ====
section
/-! SUPPORT. Statements about every constructor of `Instr`, one lemma each. -/

namespace Sys2Proof.Laws.KeyBack

set_option Elab.async false

open Sys2Proof.Machine

/-- The word size, major and minor of a well-formed instruction name it back (08 R224, R225). -/
def Statement (i : Instr) : Prop :=
  ∀ w64 major minor u, keyOf i = some (w64, major, minor, u) → i.wellFormed = true → ofKey w64 major u.mi.toNat u = some i.base

/-- An instruction with a key: its row's conditions suffice. -/
theorem fixed {i : Instr} {w : Bool} {M k : Nat} {u : U} (hk : keyOf i = some (w, M, k, u))
    (ho : rowOk i = true → ofKey w M k u = some i.base) : Statement i := by
  intro w' M' k' u' h hw
  rw [hk] at h
  cases h
  unfold Instr.wellFormed at hw
  rw [hk] at hw
  simp only [Bool.and_eq_true] at hw
  obtain ⟨h1, h2⟩ := hw
  have hm : u.mi.toNat = k := by
    unfold unitOk at h1
    split at h1
    · cases h1
    · simp only [Bool.and_eq_true, beq_iff_eq] at h1
      exact h1.1.1.1.2
  rw [hm]
  exact ho h2

/-- An event has no key. -/
theorem event {i : Instr} (h : keyOf i = none) : Statement i := by
  intro _ _ _ _ hk
  rw [h] at hk
  cases hk

theorem add (u : U) : Statement (.add u) := fixed rfl (fun _ => rfl)
theorem sub (u : U) : Statement (.sub u) := fixed rfl (fun _ => rfl)
theorem and (u : U) : Statement (.and u) := fixed rfl (fun _ => rfl)
theorem or (u : U) : Statement (.or u) := fixed rfl (fun _ => rfl)
theorem xor (u : U) : Statement (.xor u) := fixed rfl (fun _ => rfl)
theorem shl (u : U) : Statement (.shl u) := fixed rfl (fun _ => rfl)
theorem shr (u : U) : Statement (.shr u) := fixed rfl (fun _ => rfl)
theorem sar (u : U) : Statement (.sar u) := fixed rfl (fun _ => rfl)
theorem rol (u : U) : Statement (.rol u) := fixed rfl (fun _ => rfl)
theorem min (u : U) : Statement (.min u) := fixed rfl (fun _ => rfl)
theorem max (u : U) : Statement (.max u) := fixed rfl (fun _ => rfl)
theorem mul (u : U) : Statement (.mul u) := fixed rfl (fun _ => rfl)
theorem mulh (u : U) : Statement (.mulh u) := fixed rfl (fun _ => rfl)
theorem div (u : U) : Statement (.div u) := fixed rfl (fun _ => rfl)
theorem rem (u : U) : Statement (.rem u) := fixed rfl (fun _ => rfl)
theorem clz (u : U) : Statement (.clz u) := fixed rfl (fun _ => rfl)
theorem popc (u : U) : Statement (.popc u) := fixed rfl (fun _ => rfl)
theorem mov (u : U) : Statement (.mov u) := fixed rfl (fun _ => rfl)
theorem cmp (u : U) : Statement (.cmp u) := fixed rfl (fun _ => rfl)
theorem addi (u : U) : Statement (.addi u) := fixed rfl (fun _ => rfl)
theorem addiX (u : U) : Statement (.addiX u) := fixed rfl (fun _ => rfl)
theorem lea (u : U) : Statement (.lea u) := fixed rfl (fun _ => rfl)
theorem leaX (u : U) : Statement (.leaX u) := fixed rfl (fun _ => rfl)
theorem pand (u : U) : Statement (.pand u) := fixed rfl (fun _ => rfl)
theorem por (u : U) : Statement (.por u) := fixed rfl (fun _ => rfl)
theorem pxor (u : U) : Statement (.pxor u) := fixed rfl (fun _ => rfl)
theorem pnot (u : U) : Statement (.pnot u) := fixed rfl (fun _ => rfl)
theorem pmov (u : U) : Statement (.pmov u) := fixed rfl (fun _ => rfl)
theorem pcnt (u : U) : Statement (.pcnt u) := fixed rfl (fun _ => rfl)
theorem pseti (u : U) : Statement (.pseti u) := fixed rfl (fun _ => rfl)
theorem movi (u : U) : Statement (.movi u) := fixed rfl (fun _ => rfl)
theorem lui (u : U) : Statement (.lui u) := fixed rfl (fun _ => rfl)
theorem ext (u : U) : Statement (.ext u) := fixed rfl (fun _ => rfl)
theorem ins (u : U) : Statement (.ins u) := fixed rfl (fun _ => rfl)
theorem sel (u : U) : Statement (.sel u) := fixed rfl (fun _ => rfl)
theorem voteAny (u : U) : Statement (.voteAny u) := fixed rfl (fun _ => rfl)
theorem voteAll (u : U) : Statement (.voteAll u) := fixed rfl (fun _ => rfl)
theorem brPrep (u : U) : Statement (.brPrep u) := fixed rfl (fun _ => rfl)
theorem brPrepX (u : U) : Statement (.brPrepX u) := fixed rfl (fun _ => rfl)
theorem brGo (u : U) : Statement (.brGo u) := fixed rfl (fun _ => rfl)
theorem call (u : U) : Statement (.call u) := fixed rfl (fun _ => rfl)
theorem callX (u : U) : Statement (.callX u) := fixed rfl (fun _ => rfl)
theorem ret (u : U) : Statement (.ret u) := fixed rfl (fun _ => rfl)
theorem loopCfg (u : U) : Statement (.loopCfg u) := fixed rfl (fun _ => rfl)
theorem loopGo (u : U) : Statement (.loopGo u) := fixed rfl (fun _ => rfl)
theorem loopBrk (u : U) : Statement (.loopBrk u) := fixed rfl (fun _ => rfl)
theorem nop (u : U) : Statement (.nop u) := fixed rfl (fun _ => rfl)
theorem nopW (u : U) : Statement (.nopW u) := fixed rfl (fun _ => rfl)
theorem halt (u : U) : Statement (.halt u) := fixed rfl (fun _ => rfl)
theorem brk (u : U) : Statement (.brk u) := fixed rfl (fun _ => rfl)
theorem traceMark (u : U) : Statement (.traceMark u) := fixed rfl (fun _ => rfl)
theorem traceMarkX (u : U) : Statement (.traceMarkX u) := fixed rfl (fun _ => rfl)
theorem ldB (u : U) : Statement (.ldB u) := fixed rfl (fun _ => rfl)
theorem ldH (u : U) : Statement (.ldH u) := fixed rfl (fun _ => rfl)
theorem ldW (u : U) : Statement (.ldW u) := fixed rfl (fun _ => rfl)
theorem ldD (u : U) : Statement (.ldD u) := fixed rfl (fun _ => rfl)
theorem ldBSp (u : U) : Statement (.ldBSp u) := fixed rfl (fun _ => rfl)
theorem ldHSp (u : U) : Statement (.ldHSp u) := fixed rfl (fun _ => rfl)
theorem ldWSp (u : U) : Statement (.ldWSp u) := fixed rfl (fun _ => rfl)
theorem ldDSp (u : U) : Statement (.ldDSp u) := fixed rfl (fun _ => rfl)
theorem stB (u : U) : Statement (.stB u) := fixed rfl (fun _ => rfl)
theorem stH (u : U) : Statement (.stH u) := fixed rfl (fun _ => rfl)
theorem stW (u : U) : Statement (.stW u) := fixed rfl (fun _ => rfl)
theorem stD (u : U) : Statement (.stD u) := fixed rfl (fun _ => rfl)
theorem stBSp (u : U) : Statement (.stBSp u) := fixed rfl (fun _ => rfl)
theorem stHSp (u : U) : Statement (.stHSp u) := fixed rfl (fun _ => rfl)
theorem stWSp (u : U) : Statement (.stWSp u) := fixed rfl (fun _ => rfl)
theorem stDSp (u : U) : Statement (.stDSp u) := fixed rfl (fun _ => rfl)
theorem ldx (u : U) : Statement (.ldx u) := fixed rfl (fun _ => rfl)
theorem ldAcq (u : U) : Statement (.ldAcq u) := fixed rfl (fun _ => rfl)
theorem ldRlx (u : U) : Statement (.ldRlx u) := fixed rfl (fun _ => rfl)
theorem stx (u : U) : Statement (.stx u) := fixed rfl (fun _ => rfl)
theorem stRel (u : U) : Statement (.stRel u) := fixed rfl (fun _ => rfl)
theorem stRlx (u : U) : Statement (.stRlx u) := fixed rfl (fun _ => rfl)
theorem amoAdd (u : U) : Statement (.amoAdd u) := fixed rfl (fun _ => rfl)
theorem amoMin (u : U) : Statement (.amoMin u) := fixed rfl (fun _ => rfl)
theorem amoMax (u : U) : Statement (.amoMax u) := fixed rfl (fun _ => rfl)
theorem amoAnd (u : U) : Statement (.amoAnd u) := fixed rfl (fun _ => rfl)
theorem amoOr (u : U) : Statement (.amoOr u) := fixed rfl (fun _ => rfl)
theorem amoXor (u : U) : Statement (.amoXor u) := fixed rfl (fun _ => rfl)
theorem amoSwap (u : U) : Statement (.amoSwap u) := fixed rfl (fun _ => rfl)
theorem amoCas (u : U) : Statement (.amoCas u) := fixed rfl (fun _ => rfl)
theorem amoAddl (u : U) : Statement (.amoAddl u) := fixed rfl (fun _ => rfl)
theorem pref (u : U) : Statement (.pref u) := fixed rfl (fun _ => rfl)
theorem fence (u : U) : Statement (.fence u) := fixed rfl (fun _ => rfl)
theorem fenceXp (u : U) : Statement (.fenceXp u) := fixed rfl (fun _ => rfl)
theorem tokWait (u : U) : Statement (.tokWait u) := fixed rfl (fun _ => rfl)
theorem tokTest (u : U) : Statement (.tokTest u) := fixed rfl (fun _ => rfl)
theorem tokAdd (u : U) : Statement (.tokAdd u) := fixed rfl (fun _ => rfl)
theorem arriveSet (u : U) : Statement (.arriveSet u) := fixed rfl (fun _ => rfl)
theorem arriveWait (u : U) : Statement (.arriveWait u) := fixed rfl (fun _ => rfl)
theorem qPush (u : U) : Statement (.qPush u) := fixed rfl (fun _ => rfl)
theorem qPop (u : U) : Statement (.qPop u) := fixed rfl (fun _ => rfl)
theorem qPopp (u : U) : Statement (.qPopp u) := fixed rfl (fun _ => rfl)
theorem qPeek (u : U) : Statement (.qPeek u) := fixed rfl (fun _ => rfl)
theorem vadd (u : U) : Statement (.vadd u) := fixed rfl (fun _ => rfl)
theorem vsub (u : U) : Statement (.vsub u) := fixed rfl (fun _ => rfl)
theorem vmul (u : U) : Statement (.vmul u) := fixed rfl (fun _ => rfl)
theorem vmin (u : U) : Statement (.vmin u) := fixed rfl (fun _ => rfl)
theorem vmax (u : U) : Statement (.vmax u) := fixed rfl (fun _ => rfl)
theorem vand (u : U) : Statement (.vand u) := fixed rfl (fun _ => rfl)
theorem vor (u : U) : Statement (.vor u) := fixed rfl (fun _ => rfl)
theorem vxor (u : U) : Statement (.vxor u) := fixed rfl (fun _ => rfl)
theorem vshl (u : U) : Statement (.vshl u) := fixed rfl (fun _ => rfl)
theorem vshr (u : U) : Statement (.vshr u) := fixed rfl (fun _ => rfl)
theorem vabs (u : U) : Statement (.vabs u) := fixed rfl (fun _ => rfl)
theorem vneg (u : U) : Statement (.vneg u) := fixed rfl (fun _ => rfl)
theorem vfma (u : U) : Statement (.vfma u) := fixed rfl (fun _ => rfl)
theorem vbcastR (u : U) : Statement (.vbcastR u) := fixed rfl (fun _ => rfl)
theorem vbcastC (u : U) : Statement (.vbcastC u) := fixed rfl (fun _ => rfl)
theorem vrotR (u : U) : Statement (.vrotR u) := fixed rfl (fun _ => rfl)
theorem vrotC (u : U) : Statement (.vrotC u) := fixed rfl (fun _ => rfl)
theorem vredR (u : U) : Statement (.vredR u) := fixed rfl (fun _ => rfl)
theorem vredC (u : U) : Statement (.vredC u) := fixed rfl (fun _ => rfl)
theorem vscanR (u : U) : Statement (.vscanR u) := fixed rfl (fun _ => rfl)
theorem vscanC (u : U) : Statement (.vscanC u) := fixed rfl (fun _ => rfl)
theorem vreda (u : U) : Statement (.vreda u) := fixed rfl (fun _ => rfl)
theorem vexp (u : U) : Statement (.vexp u) := fixed rfl (fun _ => rfl)
theorem vlog (u : U) : Statement (.vlog u) := fixed rfl (fun _ => rfl)
theorem vrcp (u : U) : Statement (.vrcp u) := fixed rfl (fun _ => rfl)
theorem vrsq (u : U) : Statement (.vrsq u) := fixed rfl (fun _ => rfl)
theorem vtanh (u : U) : Statement (.vtanh u) := fixed rfl (fun _ => rfl)
theorem vsliLvl (u : U) : Statement (.vsliLvl u) := fixed rfl (fun _ => rfl)
theorem vmovs (u : U) : Statement (.vmovs u) := fixed rfl (fun _ => rfl)
theorem vspill (u : U) : Statement (.vspill u) := fixed rfl (fun _ => rfl)
theorem vfill (u : U) : Statement (.vfill u) := fixed rfl (fun _ => rfl)
theorem vaddX (u : U) : Statement (.vaddX u) := fixed rfl (fun _ => rfl)
theorem vsubX (u : U) : Statement (.vsubX u) := fixed rfl (fun _ => rfl)
theorem vmulX (u : U) : Statement (.vmulX u) := fixed rfl (fun _ => rfl)
theorem vfmaX (u : U) : Statement (.vfmaX u) := fixed rfl (fun _ => rfl)
theorem vminX (u : U) : Statement (.vminX u) := fixed rfl (fun _ => rfl)
theorem vmaxX (u : U) : Statement (.vmaxX u) := fixed rfl (fun _ => rfl)
theorem vabsX (u : U) : Statement (.vabsX u) := fixed rfl (fun _ => rfl)
theorem vnegX (u : U) : Statement (.vnegX u) := fixed rfl (fun _ => rfl)
theorem vandX (u : U) : Statement (.vandX u) := fixed rfl (fun _ => rfl)
theorem vorX (u : U) : Statement (.vorX u) := fixed rfl (fun _ => rfl)
theorem vxorX (u : U) : Statement (.vxorX u) := fixed rfl (fun _ => rfl)
theorem vshlX (u : U) : Statement (.vshlX u) := fixed rfl (fun _ => rfl)
theorem vshrX (u : U) : Statement (.vshrX u) := fixed rfl (fun _ => rfl)
theorem vcmp (u : U) : Statement (.vcmp u) := fixed rfl (fun _ => rfl)
theorem vsel (u : U) : Statement (.vsel u) := fixed rfl (fun _ => rfl)
theorem vimm (u : U) : Statement (.vimm u) := fixed rfl (fun _ => rfl)
theorem vmovsX (u : U) : Statement (.vmovsX u) := fixed rfl (fun h => by
  replace h : (bits u.imm 15 14 == 0) = true := h
  show ofVmovs u = some (.vmovsX u)
  simp only [ofVmovs]; grind)
theorem vmovsIns (u : U) : Statement (.vmovsIns u) := fixed rfl (fun h => by
  replace h : (bits u.imm 15 14 == 1) = true := h
  show ofVmovs u = some (.vmovsIns u)
  simp only [ofVmovs]; grind)
theorem vmovsExt (u : U) : Statement (.vmovsExt u) := fixed rfl (fun h => by
  replace h : (bits u.imm 15 14 == 2) = true := h
  show ofVmovs u = some (.vmovsExt u)
  simp only [ofVmovs]; grind)
theorem vcvt (u : U) : Statement (.vcvt u) := fixed rfl (fun h => by
  replace h : (cvtMode u == 0) = true := h
  show ofVcvt u = some (.vcvt u)
  simp only [ofVcvt]; grind)
theorem vcvtSli32F64 (u : U) : Statement (.vcvtSli32F64 u) := fixed rfl (fun h => by
  replace h : (cvtMode u == 1) = true := h
  show ofVcvt u = some (.vcvtSli32F64 u)
  simp only [ofVcvt]; grind)
theorem vcvtF64Sli32 (u : U) : Statement (.vcvtF64Sli32 u) := fixed rfl (fun h => by
  replace h : (cvtMode u == 2) = true := h
  show ofVcvt u = some (.vcvtF64Sli32 u)
  simp only [ofVcvt]; grind)
theorem vcvtBxQuantise (u : U) : Statement (.vcvtBxQuantise u) := fixed rfl (fun h => by
  replace h : (cvtMode u == 3 && (u.mi == 8 || u.mi == 9)) = true := h
  show ofVcvt u = some (.vcvtBxQuantise u)
  simp only [ofVcvt]; grind)
theorem vcvtBxDequantise (u : U) : Statement (.vcvtBxDequantise u) := fixed rfl (fun h => by
  replace h : (cvtMode u == 3 && !(u.mi == 8 || u.mi == 9)) = true := h
  show ofVcvt u = some (.vcvtBxDequantise u)
  simp only [ofVcvt]; grind)
theorem vexpX (u : U) : Statement (.vexpX u) := fixed rfl (fun _ => rfl)
theorem vlogX (u : U) : Statement (.vlogX u) := fixed rfl (fun _ => rfl)
theorem vrcpX (u : U) : Statement (.vrcpX u) := fixed rfl (fun _ => rfl)
theorem vrsqX (u : U) : Statement (.vrsqX u) := fixed rfl (fun _ => rfl)
theorem vtanhX (u : U) : Statement (.vtanhX u) := fixed rfl (fun _ => rfl)
theorem vsliLvlX (u : U) : Statement (.vsliLvlX u) := fixed rfl (fun _ => rfl)
theorem vbcastRX (u : U) : Statement (.vbcastRX u) := fixed rfl (fun _ => rfl)
theorem vbcastCX (u : U) : Statement (.vbcastCX u) := fixed rfl (fun _ => rfl)
theorem vrotRX (u : U) : Statement (.vrotRX u) := fixed rfl (fun _ => rfl)
theorem vrotCX (u : U) : Statement (.vrotCX u) := fixed rfl (fun _ => rfl)
theorem vredRX (u : U) : Statement (.vredRX u) := fixed rfl (fun _ => rfl)
theorem vredCX (u : U) : Statement (.vredCX u) := fixed rfl (fun _ => rfl)
theorem vredaX (u : U) : Statement (.vredaX u) := fixed rfl (fun _ => rfl)
theorem vscanRX (u : U) : Statement (.vscanRX u) := fixed rfl (fun _ => rfl)
theorem vscanCX (u : U) : Statement (.vscanCX u) := fixed rfl (fun _ => rfl)
theorem vld (u : U) : Statement (.vld u) := fixed rfl (fun _ => rfl)
theorem vst (u : U) : Statement (.vst u) := fixed rfl (fun _ => rfl)
theorem vspillX (u : U) : Statement (.vspillX u) := fixed rfl (fun _ => rfl)
theorem vfillX (u : U) : Statement (.vfillX u) := fixed rfl (fun _ => rfl)
theorem vchain (u : U) : Statement (.vchain u) := fixed rfl (fun _ => rfl)
theorem fmtPush (u : U) : Statement (.fmtPush u) := fixed rfl (fun _ => rfl)
theorem mxMma (u : U) : Statement (.mxMma u) := fixed rfl (fun _ => rfl)
theorem mxMmas (u : U) : Statement (.mxMmas u) := fixed rfl (fun _ => rfl)
theorem mxZero (u : U) : Statement (.mxZero u) := fixed rfl (fun _ => rfl)
theorem cpAcc (u : U) : Statement (.cpAcc u) := fixed rfl (fun _ => rfl)
theorem cpLd (u : U) : Statement (.cpLd u) := fixed rfl (fun _ => rfl)
theorem cpSt (u : U) : Statement (.cpSt u) := fixed rfl (fun _ => rfl)
theorem cpX (u : U) : Statement (.cpX u) := fixed rfl (fun _ => rfl)
theorem cpG (u : U) : Statement (.cpG u) := fixed rfl (fun _ => rfl)
theorem cpS (u : U) : Statement (.cpS u) := fixed rfl (fun _ => rfl)
theorem cp2d (u : U) : Statement (.cp2d u) := fixed rfl (fun _ => rfl)
theorem cpSend (u : U) : Statement (.cpSend u) := fixed rfl (fun _ => rfl)
theorem hbeat (u : U) : Statement (.hbeat u) := fixed rfl (fun _ => rfl)
theorem workid (u : U) : Statement (.workid u) := fixed rfl (fun _ => rfl)
theorem yieldOp (u : U) : Statement (.yieldOp u) := fixed rfl (fun _ => rfl)
theorem taskExit (u : U) : Statement (.taskExit u) := fixed rfl (fun _ => rfl)
theorem taskSuspend (u : U) : Statement (.taskSuspend u) := fixed rfl (fun _ => rfl)
theorem taskLaunch (u : U) : Statement (.taskLaunch u) := fixed rfl (fun _ => rfl)
theorem taskLaunchw (u : U) : Statement (.taskLaunchw u) := fixed rfl (fun _ => rfl)
theorem calBook (u : U) : Statement (.calBook u) := fixed rfl (fun _ => rfl)
theorem calCancel (u : U) : Statement (.calCancel u) := fixed rfl (fun _ => rfl)
theorem calQueryStatus (u : U) : Statement (.calQueryStatus u) := fixed rfl (fun h => by
  replace h : (u.b == 0) = true := h
  show some (if u.b = 0 then Instr.calQueryStatus u else .calQuerySlot u) = some (.calQueryStatus u)
  grind)
theorem calQuerySlot (u : U) : Statement (.calQuerySlot u) := fixed rfl (fun h => by
  replace h : (u.b != 0) = true := h
  show some (if u.b = 0 then Instr.calQueryStatus u else .calQuerySlot u) = some (.calQuerySlot u)
  grind)
theorem trapRet (u : U) : Statement (.trapRet u) := fixed rfl (fun _ => rfl)
theorem trapAck (u : U) : Statement (.trapAck u) := fixed rfl (fun _ => rfl)
theorem trapReflect (u : U) : Statement (.trapReflect u) := fixed rfl (fun _ => rfl)
theorem syscall (u : U) : Statement (.syscall u) := fixed rfl (fun _ => rfl)
theorem coreReset (u : U) : Statement (.coreReset u) := fixed rfl (fun _ => rfl)
theorem tlbInvRange (u : U) : Statement (.tlbInvRange u) := fixed rfl (fun h => by
  replace h : (u.b != 0 && u.b.toNat % 2 == 0) = true := h
  show some (if u.b = 0 then Instr.tlbInvSpace u else if u.b.toNat % 2 = 0 then .tlbInvRange u else .tlbInvHandle u) = some (.tlbInvRange u)
  grind)
theorem tlbInvSpace (u : U) : Statement (.tlbInvSpace u) := fixed rfl (fun h => by
  replace h : (u.b == 0) = true := h
  show some (if u.b = 0 then Instr.tlbInvSpace u else if u.b.toNat % 2 = 0 then .tlbInvRange u else .tlbInvHandle u) = some (.tlbInvSpace u)
  grind)
theorem tlbInvHandle (u : U) : Statement (.tlbInvHandle u) := fixed rfl (fun h => by
  replace h : (u.b.toNat % 2 == 1) = true := h
  show some (if u.b = 0 then Instr.tlbInvSpace u else if u.b.toNat % 2 = 0 then .tlbInvRange u else .tlbInvHandle u) = some (.tlbInvHandle u)
  grind)
theorem csrRd (u : U) : Statement (.csrRd u) := fixed rfl (fun h => by
  replace h : (!(0x110 ≤ u.imm.toNat && u.imm.toNat ≤ 0x12F && u.imm.toNat % 2 == 0)) = true := h
  show ofCsr 0 u = some (.csrRd u)
  simp only [ofCsr]; grind)
theorem csrWr (u : U) : Statement (.csrWr u) := fixed rfl (fun h => by
  replace h : (ofCsr 1 u == some (.csrWr u)) = true := h
  exact eq_of_beq h)
theorem csrSwap (u : U) : Statement (.csrSwap u) := fixed rfl (fun _ => rfl)
theorem ctxCreate (u : U) : Statement (.ctxCreate u) := fixed rfl (fun _ => rfl)
theorem ctxGrantSet (u : U) : Statement (.ctxGrantSet u) := fixed rfl (fun h => by
  replace h : (u.imm.toNat == 0) = true := h
  show ofCtx 1 u = some (.ctxGrantSet u)
  simp only [ofCtx]; grind)
theorem ctxGrantCores (u : U) : Statement (.ctxGrantCores u) := fixed rfl (fun h => by
  replace h : (u.imm.toNat == 1) = true := h
  show ofCtx 1 u = some (.ctxGrantCores u)
  simp only [ofCtx]; grind)
theorem ctxGrantMxh (u : U) : Statement (.ctxGrantMxh u) := fixed rfl (fun h => by
  replace h : (u.imm.toNat == 2) = true := h
  show ofCtx 1 u = some (.ctxGrantMxh u)
  simp only [ofCtx]; grind)
theorem ctxGrantCg (u : U) : Statement (.ctxGrantCg u) := fixed rfl (fun h => by
  replace h : (u.imm.toNat == 3) = true := h
  show ofCtx 1 u = some (.ctxGrantCg u)
  simp only [ofCtx]; grind)
theorem ctxGrantFx (u : U) : Statement (.ctxGrantFx u) := fixed rfl (fun h => by
  replace h : (u.imm.toNat == 4) = true := h
  show ofCtx 1 u = some (.ctxGrantFx u)
  simp only [ofCtx]; grind)
theorem ctxGrantQuota (u : U) : Statement (.ctxGrantQuota u) := fixed rfl (fun h => by
  replace h : (u.imm.toNat == 5) = true := h
  show ofCtx 1 u = some (.ctxGrantQuota u)
  simp only [ofCtx]; grind)
theorem ctxGrantMem (u : U) : Statement (.ctxGrantMem u) := fixed rfl (fun h => by
  replace h : (u.imm.toNat == 6) = true := h
  show ofCtx 1 u = some (.ctxGrantMem u)
  simp only [ofCtx]; grind)
theorem ctxGrantSpad (u : U) : Statement (.ctxGrantSpad u) := fixed rfl (fun h => by
  replace h : (u.imm.toNat == 7) = true := h
  show ofCtx 1 u = some (.ctxGrantSpad u)
  simp only [ofCtx]; grind)
theorem ctxGrantCal (u : U) : Statement (.ctxGrantCal u) := fixed rfl (fun h => by
  replace h : (u.imm.toNat == 8) = true := h
  show ofCtx 1 u = some (.ctxGrantCal u)
  simp only [ofCtx]; grind)
theorem ctxGrantHt (u : U) : Statement (.ctxGrantHt u) := fixed rfl (fun h => by
  replace h : (u.imm.toNat == 9) = true := h
  show ofCtx 1 u = some (.ctxGrantHt u)
  simp only [ofCtx]; grind)
theorem ctxGrantRun (u : U) : Statement (.ctxGrantRun u) := fixed rfl (fun h => by
  replace h : (u.imm.toNat == 10) = true := h
  show ofCtx 1 u = some (.ctxGrantRun u)
  simp only [ofCtx]; grind)
theorem ctxRevokeCores (u : U) : Statement (.ctxRevokeCores u) := fixed rfl (fun h => by
  replace h : (u.imm.toNat == 1) = true := h
  show ofCtx 2 u = some (.ctxRevokeCores u)
  simp only [ofCtx]; grind)
theorem ctxRevokeMxh (u : U) : Statement (.ctxRevokeMxh u) := fixed rfl (fun h => by
  replace h : (u.imm.toNat == 2) = true := h
  show ofCtx 2 u = some (.ctxRevokeMxh u)
  simp only [ofCtx]; grind)
theorem ctxRevokeCg (u : U) : Statement (.ctxRevokeCg u) := fixed rfl (fun h => by
  replace h : (u.imm.toNat == 3) = true := h
  show ofCtx 2 u = some (.ctxRevokeCg u)
  simp only [ofCtx]; grind)
theorem ctxRevokeFx (u : U) : Statement (.ctxRevokeFx u) := fixed rfl (fun h => by
  replace h : (u.imm.toNat == 4) = true := h
  show ofCtx 2 u = some (.ctxRevokeFx u)
  simp only [ofCtx]; grind)
theorem ctxRevokeQuota (u : U) : Statement (.ctxRevokeQuota u) := fixed rfl (fun h => by
  replace h : (u.imm.toNat == 5) = true := h
  show ofCtx 2 u = some (.ctxRevokeQuota u)
  simp only [ofCtx]; grind)
theorem ctxRevokeMem (u : U) : Statement (.ctxRevokeMem u) := fixed rfl (fun h => by
  replace h : (u.imm.toNat == 6) = true := h
  show ofCtx 2 u = some (.ctxRevokeMem u)
  simp only [ofCtx]; grind)
theorem ctxRevokeSpad (u : U) : Statement (.ctxRevokeSpad u) := fixed rfl (fun h => by
  replace h : (u.imm.toNat == 7) = true := h
  show ofCtx 2 u = some (.ctxRevokeSpad u)
  simp only [ofCtx]; grind)
theorem ctxRevokeCal (u : U) : Statement (.ctxRevokeCal u) := fixed rfl (fun h => by
  replace h : (u.imm.toNat == 8) = true := h
  show ofCtx 2 u = some (.ctxRevokeCal u)
  simp only [ofCtx]; grind)
theorem ctxRevokeHt (u : U) : Statement (.ctxRevokeHt u) := fixed rfl (fun h => by
  replace h : (u.imm.toNat == 9) = true := h
  show ofCtx 2 u = some (.ctxRevokeHt u)
  simp only [ofCtx]; grind)
theorem ctxRevokeRun (u : U) : Statement (.ctxRevokeRun u) := fixed rfl (fun h => by
  replace h : (u.imm.toNat == 10) = true := h
  show ofCtx 2 u = some (.ctxRevokeRun u)
  simp only [ofCtx]; grind)
theorem ctxDestroy (u : U) : Statement (.ctxDestroy u) := fixed rfl (fun _ => rfl)
theorem ctxQuery (u : U) : Statement (.ctxQuery u) := fixed rfl (fun _ => rfl)
theorem dirtylogEnable (u : U) : Statement (.dirtylogEnable u) := fixed rfl (fun h => by
  replace h : (u.imm.toNat == 0x01F) = true := h
  show ofCsr 1 u = some (.csrWr u)
  simp only [ofCsr]; grind)
theorem dirtylogDisable (u : U) : Statement (.dirtylogDisable u) := fixed rfl (fun h => by
  replace h : (u.imm.toNat == 0x01F) = true := h
  show ofCsr 1 u = some (.csrWr u)
  simp only [ofCsr]; grind)
theorem dirtylogExport (u : U) : Statement (.dirtylogExport u) := fixed rfl (fun h => by
  replace h : (u.imm.toNat == 0x01F) = true := h
  show ofCsr 1 u = some (.csrWr u)
  simp only [ofCsr]; grind)
theorem dirtylogImport (u : U) : Statement (.dirtylogImport u) := fixed rfl (fun h => by
  replace h : (u.imm.toNat == 0x01F) = true := h
  show ofCsr 1 u = some (.csrWr u)
  simp only [ofCsr]; grind)
theorem chkresetGo (u : U) : Statement (.chkresetGo u) := fixed rfl (fun h => by
  replace h : (u.imm.toNat == 0x01D) = true := h
  show ofCsr 1 u = some (.chkresetGo u)
  simp only [ofCsr]; grind)
theorem blogWrite (u : U) : Statement (.blogWrite u) := fixed rfl (fun h => by
  replace h : (u.imm.toNat == 0x01E) = true := h
  show ofCsr 1 u = some (.blogWrite u)
  simp only [ofCsr]; grind)
theorem bcmbaseWrite (u : U) : Statement (.bcmbaseWrite u) := fixed rfl (fun h => by
  replace h : (u.imm.toNat == 0x020) = true := h
  show ofCsr 1 u = some (.bcmbaseWrite u)
  simp only [ofCsr]; grind)
theorem chkregWrite (u : U) : Statement (.chkregWrite u) := fixed rfl (fun h => by
  replace h : (u.imm.toNat == 0x01A) = true := h
  show ofCsr 1 u = some (.chkregWrite u)
  simp only [ofCsr]; grind)
theorem accfreeWrite (u : U) : Statement (.accfreeWrite u) := fixed rfl (fun h => by
  replace h : (u.imm.toNat == 0x01C) = true := h
  show ofCsr 1 u = some (.accfreeWrite u)
  simp only [ofCsr]; grind)
theorem isetWrite (u : U) : Statement (.isetWrite u) := fixed rfl (fun h => by
  replace h : (0x050 ≤ u.imm.toNat && u.imm.toNat ≤ 0x05F) = true := h
  show ofCsr 1 u = some (.isetWrite u)
  simp only [ofCsr]; grind)
theorem hsemAcquire (u : U) : Statement (.hsemAcquire u) := fixed rfl (fun h => by
  replace h : (0x060 ≤ u.imm.toNat && u.imm.toNat ≤ 0x07F) = true := h
  show ofCsr 1 u = some (.csrWr u)
  simp only [ofCsr]; grind)
theorem hsemRelease (u : U) : Statement (.hsemRelease u) := fixed rfl (fun h => by
  replace h : (0x060 ≤ u.imm.toNat && u.imm.toNat ≤ 0x07F) = true := h
  show ofCsr 1 u = some (.csrWr u)
  simp only [ofCsr]; grind)
theorem pmcLoRead (u : U) : Statement (.pmcLoRead u) := fixed rfl (fun h => by
  replace h : (0x110 ≤ u.imm.toNat && u.imm.toNat ≤ 0x12F && u.imm.toNat % 2 == 0) = true := h
  show ofCsr 0 u = some (.pmcLoRead u)
  simp only [ofCsr]; grind)
theorem pmcHiWrite (u : U) : Statement (.pmcHiWrite u) := fixed rfl (fun h => by
  replace h : (0x110 ≤ u.imm.toNat && u.imm.toNat ≤ 0x12F && u.imm.toNat % 2 == 1) = true := h
  show ofCsr 1 u = some (.pmcHiWrite u)
  simp only [ofCsr]; grind)
theorem slotBoundary : Statement .slotBoundary := event rfl
theorem watchdogExpire (ctx : Nat) : Statement (.watchdogExpire ctx) := event rfl
theorem forcedSave (ctx : Nat) : Statement (.forcedSave ctx) := event rfl
theorem offerLapse (id : Nat) : Statement (.offerLapse id) := event rfl
theorem prepareTimeout (tag : Nat) : Statement (.prepareTimeout tag) := event rfl
theorem waitListSearch (die : Nat) : Statement (.waitListSearch die) := event rfl
theorem priorityAging (ctx q : Nat) : Statement (.priorityAging ctx q) := event rfl
theorem continuationParkTimeout (core st : Nat) : Statement (.continuationParkTimeout core st) := event rfl
theorem taskAdmission (die : Nat) : Statement (.taskAdmission die) := event rfl
theorem bookingSearch (handle : W32) : Statement (.bookingSearch handle) := event rfl
theorem backfill (cls idx : Nat) : Statement (.backfill cls idx) := event rfl
theorem engineCommandStart (e : Eng) : Statement (.engineCommandStart e) := event rfl
theorem engineLineAccess (e : Eng) (part : Nat) : Statement (.engineLineAccess e part) := event rfl
theorem matrixBlockPair (e : Eng) : Statement (.matrixBlockPair e) := event rfl
theorem chainElement (e : Eng) : Statement (.chainElement e) := event rfl
theorem sendEntry (e : Eng) : Statement (.sendEntry e) := event rfl
theorem commandBoundarySuspend (e : Eng) : Statement (.commandBoundarySuspend e) := event rfl
theorem engineCommandComplete (e : Eng) : Statement (.engineCommandComplete e) := event rfl
theorem storeLeave (core place : Nat) : Statement (.storeLeave core place) := event rfl
theorem loadDataReturn (core st k : Nat) : Statement (.loadDataReturn core st k) := event rfl
theorem pendingRecordWrite (ctx : Nat) : Statement (.pendingRecordWrite ctx) := event rfl
theorem handlerStart (ctx : Nat) : Statement (.handlerStart ctx) := event rfl
theorem tokWaitConsume (core st : Nat) : Statement (.tokWaitConsume core st) := event rfl
theorem arriveWaitComplete (core st : Nat) : Statement (.arriveWaitComplete core st) := event rfl
theorem queueWaitResume (core st : Nat) : Statement (.queueWaitResume core st) := event rfl
theorem continuationReady (core k : Nat) : Statement (.continuationReady core k) := event rfl
theorem continuationTake (core : Nat) : Statement (.continuationTake core) := event rfl
theorem continuationSteal (core : Nat) : Statement (.continuationSteal core) := event rfl
theorem contextStopComplete (ctx : Nat) : Statement (.contextStopComplete ctx) := event rfl
theorem revocationComplete (id : Nat) : Statement (.revocationComplete id) := event rfl
theorem tlbInvComplete (id : Nat) : Statement (.tlbInvComplete id) := event rfl
theorem handleInvComplete (id : Nat) : Statement (.handleInvComplete id) := event rfl
theorem chkresetDone (ctx : Nat) : Statement (.chkresetDone ctx) := event rfl
theorem exportComplete (ctx : Nat) : Statement (.exportComplete ctx) := event rfl
theorem importComplete (ctx : Nat) : Statement (.importComplete ctx) := event rfl
theorem destroyComplete (id : Nat) : Statement (.destroyComplete id) := event rfl
theorem memoryErrorDetect (p : Place) : Statement (.memoryErrorDetect p) := event rfl
theorem structureError (x : Struct) : Statement (.structureError x) := event rfl
theorem lineFill (ctx : Nat) (va : W64) : Statement (.lineFill ctx va) := event rfl
theorem powerGood (verified : Bool) : Statement (.powerGood verified) := event rfl
theorem rootContextStart : Statement .rootContextStart := event rfl
theorem recoveryVerify (verified : Bool) : Statement (.recoveryVerify verified) := event rfl
theorem attestationReport : Statement .attestationReport := event rfl
theorem thermalThrottle : Statement .thermalThrottle := event rfl
theorem throttleEnd : Statement .throttleEnd := event rfl
theorem computePowerOff : Statement .computePowerOff := event rfl
theorem read (port : Nat) (addr len : Nat) : Statement (.read port addr len) := event rfl
theorem write (port : Nat) (addr : Nat) (data : List Byte) : Statement (.write port addr data) := event rfl
theorem writeRel (port : Nat) (addr : Nat) (data : List Byte) : Statement (.writeRel port addr data) := event rfl
theorem spwrite (port clu off : Nat) (data : List Byte) (arv : Bool) (aoff : Nat) : Statement (.spwrite port clu off data arv aoff) := event rfl
theorem semAcq (port n : Nat) : Statement (.semAcq port n) := event rfl
theorem semRel (port n : Nat) (data : W32) : Statement (.semRel port n data) := event rfl
theorem feataccWrite (v : W64) : Statement (.feataccWrite v) := event rfl
theorem hstatAck (v : W64) : Statement (.hstatAck v) := event rfl
theorem fxcfgWrite (k : Nat) (v : W64) : Statement (.fxcfgWrite k v) := event rfl
theorem fabricPortTrained (k : Nat) (slot cyc : Nat) : Statement (.fabricPortTrained k slot cyc) := event rfl
theorem fabricPortLost (k : Nat) : Statement (.fabricPortLost k) := event rfl
theorem fabricWrite (k : Nat) (f : Flit) : Statement (.fabricWrite k f) := event rfl
theorem wack (k : Nat) (f : Flit) : Statement (.wack k f) := event rfl
theorem sendreq (k : Nat) (f : Flit) : Statement (.sendreq k f) := event rfl
theorem raccept (k : Nat) (f : Flit) : Statement (.raccept k f) := event rfl
theorem rfull (k : Nat) (f : Flit) : Statement (.rfull k f) := event rfl
theorem prepare (k : Nat) (f : Flit) : Statement (.prepare k f) := event rfl
theorem offer (k : Nat) (f : Flit) : Statement (.offer k f) := event rfl
theorem refuse (k : Nat) (f : Flit) : Statement (.refuse k f) := event rfl
theorem commit (k : Nat) (f : Flit) : Statement (.commit k f) := event rfl
theorem release (k : Nat) (f : Flit) : Statement (.release k f) := event rfl
theorem slotsync (k : Nat) (f : Flit) : Statement (.slotsync k f) := event rfl

end Sys2Proof.Laws.KeyBack
end

