-- ==== Sys2Proof/Certificates/Slice0/Obligations.lean ====
section
/-! DEFINITION. The statements for the provers: what the spec's rules say of the machine, in the terms of `Safety`. -/

open Sys2Proof Sys2Proof.Machine

/-- 09 R246: s0 reads zero and p0 all-true; 08 R235: a register outside its producer's bound reads what the file holds; 09 R247: an
early read of a sidecar's predicate is still uniform. -/
def Obligations.RegisterReads : Prop :=
  ∀ s : State,
    s.rdS 0 = 0 ∧ s.rdP 0 = BitVec.allOnes 1024
    ∧ (∀ n, s.me.early s.cycle (.s n) = false → s.rdS n = s.me.sreg n)
    ∧ (∀ n, s.me.early s.cycle (.p n) = false → s.rdP n = s.me.preg n)
    ∧ (∀ n, s.me.early s.cycle (.b n) = false → s.rdBt n = s.me.breg n)
    ∧ (∀ n, s.me.early s.cycle (.v n) = false → s.rdV n = s.me.vreg n)
    ∧ (∀ n, isSide s.cu.st = true → s.me.early s.cycle (.p n) = true → s.rdP n = 0 ∨ s.rdP n = BitVec.allOnes 1024)

/-- 09 R249, R250, R252, 05 R120: the exact result wrapped or clamped, with the frame of `WroteS`. -/
def Obligations.ScalarSums : Prop :=
  ∀ (u : U) (s : State),
    PutsInt (.add u) u s ((s.sB u).toInt + (s.sC u).toInt) 1
    ∧ PutsInt (.sub u) u s ((s.sB u).toInt - (s.sC u).toInt) 1
    ∧ PutsInt (.shl u) u s ((s.sB u).toInt * 2 ^ ((s.sC u).toNat % 64)) 1
    ∧ PutsInt (.addi u) u s ((s.sB u).toInt + u.imm.toInt) 1
    ∧ PutsInt (.mul u) u s ((s.sB u).toInt * (s.sC u).toInt) 3

/-- 09 R249-R251, R255: results and frame. -/
def Obligations.ScalarBits : Prop :=
  ∀ (u : U) (s : State),
    let x := s.sB u
    let y := s.sC u
    let k := y.toNat % 64
    PutsS (.and u) u s (x &&& y) 0 1 ∧ PutsS (.or u) u s (x ||| y) 0 1 ∧ PutsS (.xor u) u s (x ^^^ y) 0 1
    ∧ PutsS (.shr u) u s (BitVec.ofNat 64 (x.toNat / 2 ^ k)) 0 1
    ∧ PutsS (.sar u) u s (BitVec.ofInt 64 (x.toInt / 2 ^ k)) 0 1
    ∧ PutsS (.rol u) u s (if k = 0 then x else (x <<< k) ||| (x >>> (64 - k))) 0 1
    ∧ PutsS (.min u) u s (BitVec.ofInt 64 (min x.toInt y.toInt)) 0 1
    ∧ PutsS (.max u) u s (BitVec.ofInt 64 (max x.toInt y.toInt)) 0 1
    ∧ PutsS (.mulh u) u s (BitVec.ofInt 64 (x.toInt * y.toInt / 2 ^ 64)) 0 3
    ∧ (∃ n, n ≤ 64 ∧ (∀ j, j < n → x.getLsbD (63 - j) = false) ∧ (n < 64 → x.getLsbD (63 - n) = true)
        ∧ PutsS (.clz u) u s (BitVec.ofNat 64 n) 0 1)
    ∧ PutsS (.popc u) u s (BitVec.ofNat 64 ((List.range 64).filter (fun j => x.getLsbD j)).length) 0 1
    ∧ PutsS (.mov u) u s x 0 1
    ∧ PutsS (.lea u) u s (x + y * BitVec.ofNat 64 (2 ^ u.mi.toNat)) 0 1

/-- 09 R250: the three cases of the division, with the frame of `WroteS`. -/
def Obligations.ScalarDivide : Prop :=
  ∀ (u : U) (s : State),
    let b := (s.sB u).toInt
    let c := (s.sC u).toInt
    (c = 0 → PutsS (.div u) u s (BitVec.allOnes 64) fDZI 18 ∧ PutsS (.rem u) u s (BitVec.allOnes 64) fDZI 18)
    ∧ (b = -(2 ^ 63) → c = -1 →
        (if satOf u then PutsS (.div u) u s (BitVec.ofInt 64 (2 ^ 63 - 1)) fSAT 18 else PutsS (.div u) u s (BitVec.ofInt 64 (-(2 ^ 63))) 0 18)
        ∧ PutsS (.rem u) u s 0 0 18)
    ∧ (c ≠ 0 → ¬(b = -(2 ^ 63) ∧ c = -1) →
        ∃ q, Rounded (rndOf u) b c q ∧ PutsS (.div u) u s (BitVec.ofInt 64 q) 0 18 ∧ PutsS (.rem u) u s (BitVec.ofInt 64 (b - q * c)) 0 18)

/-- 09 R252-R256, R259: results and frame of the governed 64-bit scalar forms. -/
def Obligations.ScalarGoverned : Prop :=
  ∀ (u : U) (s : State), s.lane0 u = true →
    let pos := bits u.imm 5 0
    let len := bits u.imm 11 6 + 1
    PutsInt (.addiX u) u s ((s.sB u).toInt + u.imm.toInt) 1
    ∧ PutsS (.leaX u) u s (s.sB u + s.sC u * BitVec.ofNat 64 (2 ^ u.mi.toNat) + (u.imm.truncate 16).signExtend 64) 0 1
    ∧ PutsS (.movi u) u s (BitVec.ofInt 64 u.imm.toInt) 0 1
    ∧ PutsS (.lui u) u s (BitVec.ofNat 64 (u.imm.toNat * 2 ^ 32 + (s.sB u).toNat % 2 ^ 32)) 0 1
    ∧ (∃ v : W64, (∀ k, k < 64 → v.getLsbD k =
          if k < len then (s.sB u).getLsbD (pos + k) else bit u.imm 12 && (s.sB u).getLsbD (pos + len - 1))
        ∧ PutsS (.ext u) u s v 0 1)
    ∧ (∃ v : W64, (∀ k, k < 64 → v.getLsbD k =
          if pos ≤ k ∧ k < pos + len then (s.sB u).getLsbD (k - pos) else (s.sA u).getLsbD k)
        ∧ PutsS (.ins u) u s v 0 1)
    ∧ PutsS (.sel u) u s (if (s.rdP u.e.toNat).getLsbD 0 then s.sB u else s.sC u) 0 1
    ∧ (∃ v : Lanes, (∀ k, k < 1024 → v.getLsbD k = decide (k < bits u.imm 10 0)) ∧ PutsP (.pseti u) u s v 0 1)

/-- 09 R257, R258, R260: predicate results lane by lane, with the frame of `WroteP`. -/
def Obligations.Predicates : Prop :=
  ∀ (u : U) (s : State),
    let x := s.rdP u.b.toNat
    let y := s.rdP u.c.toNat
    let all (c : Prop) (v : Lanes) : Prop := (c → v = BitVec.allOnes 1024) ∧ (¬c → v = 0)
    (∀ c : Prop, [(0, s.sB u = s.sC u), (1, s.sB u ≠ s.sC u), (2, (s.sB u).toInt < (s.sC u).toInt),
          (3, (s.sC u).toInt ≤ (s.sB u).toInt), (4, (s.sB u).toNat < (s.sC u).toNat), (5, (s.sC u).toNat ≤ (s.sB u).toNat)][u.mi.toNat]?
        = some (u.mi.toNat, c) → ∃ v, all c v ∧ PutsP (.cmp u) u s v 0 1)
    ∧ PutsP (.pand u) u s (x &&& y) 0 1 ∧ PutsP (.por u) u s (x ||| y) 0 1 ∧ PutsP (.pxor u) u s (x ^^^ y) 0 1
    ∧ PutsP (.pnot u) u s (~~~ x) 0 1 ∧ PutsP (.pmov u) u s x 0 1
    ∧ PutsS (.pcnt u) u s (BitVec.ofNat 64 ((List.range 1024).filter (fun j => x.getLsbD j)).length) 0 1
    ∧ (∃ v, all (∃ k, k < 1024 ∧ x.getLsbD k = true ∧ y.getLsbD k = true) v ∧ PutsP (.voteAny u) u s v 0 2)
    ∧ (∃ v, all (∀ k, k < 1024 → y.getLsbD k = true → x.getLsbD k = true) v ∧ PutsP (.voteAll u) u s v 0 2)

/-- 09 R261: the target written, its two low bits clear, and the frame of `WroteB`. 09 R263: the transfer of BR.GO, and the trap of a non-uniform predicate. -/
def Obligations.Branches : Prop :=
  (∀ (u : U) (s : State),
    (∃ v : W64, v.toNat = (s.cu.pc + 4 * immS u).toNat / 4 * 4 ∧ Completes (.brPrep u) u s (fun r => WroteB s r u.a.toNat v 2))
    ∧ (∃ v : W64, v.toNat = ((if u.b = 0 then s.cu.pc else s.sB u) + immS u).toNat / 4 * 4
        ∧ Completes (.brPrepX u) u s (fun r => WroteB s r u.a.toNat v 2)))
  ∧ (∀ (u : U) (s : State),
    let p := s.rdP u.a.toNat
    (p = BitVec.allOnes 1024 → ∃ t, exec (.brGo u) s = .next t ∧ Began s t u (s.rdBt u.b.toNat) true u.c.toNat)
    ∧ (p = 0 → ∃ t, exec (.brGo u) s = .next t ∧ Began s t u (s.rdBt u.b.toNat) false u.c.toNat)
    ∧ (p ≠ 0 → p ≠ BitVec.allOnes 1024 → exec (.brGo u) s = .next (s.raise .nonUnif 0 0 0)))

/-- 09 R268, R270: the push and the transfer of CALL, for a store with room on chip, a full one, and the limit. 09 R269, R270: the pop and the transfer of RET. -/
def Obligations.CallsAndReturns : Prop :=
  (∀ (u : U) (s s1 : State) (ret : W64),
    let forms : List (Instr × W64 × Nat) :=
      [(.call u, s.rdBt u.a.toNat, u.b.toNat), (.callX u, (if u.b = 0 then s.cu.pc else s.sB u) + immS u, u.a.toNat)]
    ∀ e ∈ forms, s.afterSlots e.2.2 s.nextPc = (s1, .ok ret) →
      (s1.me.ras.count < 65535 → s1.me.ras.chip.length < 16 →
        ∃ t, exec e.1 s = .next t ∧ Began (s1.pushed ret) t u e.2.1 true e.2.2)
      ∧ (∀ s2, s1.me.ras.count < 65535 → 16 ≤ s1.me.ras.chip.length →
          s1.rasSpill s1.cu.core s1.cu.st (s1.me.ras.chip.getD 15 0) = (s2, .ok ()) →
          ∃ t, exec e.1 s = .next t ∧ Began (s2.pushed ret) t u e.2.1 true e.2.2)
      ∧ (65535 ≤ s1.me.ras.count → exec e.1 s = .next s1.spillQ))
  ∧ (∀ (u : U) (s : State),
    (∀ ret rest, s.me.ras.chip = ret :: rest →
      ∃ t, exec (.ret u) s = .next t ∧ Began (s.updMe (fun a => { a with ras := { a.ras with chip := rest } })) t u ret true u.a.toNat)
    ∧ (∀ s1 ret, s.me.ras.chip = [] → s.me.ras.spilled ≠ 0 → s.rasFillBack s.cu.core s.cu.st = (s1, .ok ret) →
      ∃ t, exec (.ret u) s = .next t ∧ Began s1 t u ret true u.a.toNat)
    ∧ (s.me.ras.chip = [] → s.me.ras.spilled = 0 → exec (.ret u) s = .next (s.raise .retEmpty 0 0 0)))

/-- 09 R271-R273, 06 R168: the three loop instructions. 06 R166, R167, 09 R273: the traps of the loop instructions. -/
def Obligations.LoopInstructions : Prop :=
  (∀ (u : U) (s : State),
    (∀ s1 bs, s.lineRead ⟨0, none⟩ (BitVec.ofNat 64 ((s.sA u).toNat / 64 * 64)) 64 = (s1, .ok bs) →
      Completes (.loopCfg u) u s (fun r => OnlyMe s1 r ∧ r.me = { s1.me with cfg := some (words64 8 bs) }))
    ∧ (∀ d s1 x body after, s.me.loop = none → s.me.cfg = some d → loopOk d = true →
      s.captureBody (loopLen d) s.nextPc = (s1, .ok (x :: body, after)) →
      ∃ t, exec (.loopGo u) s = .next t ∧ OnlyMe s1 t
        ∧ t.me.loop = some ⟨[0, 0, 0, 0, 0, 0], 0, loopP d, false, x :: body, 0, after⟩ ∧ t.me.pc = x.pc ∧ t.me.xfer = none
        ∧ t.me.ready = s1.cycle + 1 + u.g.toNat ∧ (∀ n, t.me.sreg n = s1.me.sreg n)
        ∧ (∀ k, k < 8 → loopStages d ≠ 0 → t.me.preg (48 + k) = if k = 0 then BitVec.allOnes 1024 else 0)
        ∧ (∀ n, loopStages d = 0 ∨ n < 48 ∨ 55 < n → t.me.preg n = s1.me.preg n))
    ∧ (∀ l, s.me.loop = some l → s.rdP u.a.toNat = BitVec.allOnes 1024 → l.n < l.p →
      Completes (.loopBrk u) u s (fun r => OnlyMe s r ∧ r.me = { s.me with loop := some { l with p := l.n + 1, brk := true } }))
    ∧ (∀ l, s.me.loop = some l → s.rdP u.a.toNat = 0 ∨ (s.rdP u.a.toNat = BitVec.allOnes 1024 ∧ l.p ≤ l.n) →
      Completes (.loopBrk u) u s (fun r => r = s)))
  ∧ (∀ (u : U) (s : State),
    ((s.me.loop ≠ none ∨ s.me.cfg = none ∨ ∃ d, s.me.cfg = some d ∧ loopOk d = false) → exec (.loopGo u) s = .next s.illegal)
    ∧ (s.me.loop = none → exec (.loopBrk u) s = .next s.illegal)
    ∧ (s.me.loop ≠ none → s.rdP u.a.toNat ≠ 0 → s.rdP u.a.toNat ≠ BitVec.allOnes 1024 →
        exec (.loopBrk u) s = .next (s.raise .nonUnif 0 0 0)))

/-- 06 R168: the counters, the strides and the stage predicates at the end of a pass. -/
def Obligations.LoopPasses : Prop :=
  ∀ (a : Agent) (d : List W64) (lp : LoopSt), lp.c.length = 6 → lp.body ≠ [] →
    let b := a.endPass d lp
    (lp.n + 1 < loopPasses d lp.p →
      ∃ l, b.loop = some l ∧ l.n = lp.n + 1 ∧ l.idx = 0 ∧ l.p = lp.p ∧ l.body = lp.body ∧ b.pc = (lp.body.headD ⟨0, 0, IW.blank⟩).pc
        ∧ (loopStages d ≠ 0 → ∀ k, k < 8 →
            b.preg (48 + k) = if k < loopStages d ∧ k ≤ lp.n + 1 ∧ lp.n + 1 < lp.p + k then BitVec.allOnes 1024 else 0)
        ∧ (lp.p ≤ lp.n + 1 → l.c = lp.c)
        ∧ (∀ v, v < 6 → lp.n + 1 < lp.p → (∀ k, k < v → lp.c.getD k 0 = loopCount d k) → (v = 5 ∨ lp.c.getD v 0 ≠ loopCount d v) →
            (∀ k, k < 6 → l.c.getD k 0 = if k < v then 0 else if k = v then lp.c.getD v 0 + 1 else lp.c.getD k 0)
            ∧ (∀ r, r ≠ 0 → b.sreg r = ((List.range 3).filter (fun i => loopReg d i = r)).foldl (fun x i => x + (loopStride d v i <<< loopScl d)) (a.sreg r))))
    ∧ (loopPasses d lp.p ≤ lp.n + 1 → b.loop = none ∧ b.pc = lp.after)
    ∧ (lp.p ≤ lp.n + 1 → b.regs.s = a.regs.s)
    ∧ (∀ n, n ≠ loopReg d 0 → n ≠ loopReg d 1 → n ≠ loopReg d 2 → b.sreg n = a.sreg n)

/-- 09 R274, R276, R277: the marks and the waits. 08 R233, 09 R263, R266, 06 R166: the advance of the program counter, with its frame. -/
def Obligations.Completion : Prop :=
  (∀ (u : U) (s : State),
    Completes (.nop u) u s (fun r => r = s)
    ∧ (s.cu.cap = none → ∃ t, exec (.nopW u) s = .next t ∧ OnlyMe s t
        ∧ t.me = { (s.fin u).me with ready := s.cycle + 1 + u.imm.toNat + u.g.toNat })
    ∧ (∀ i ∈ [Instr.traceMark u, Instr.traceMarkX u], (i = .traceMarkX u → s.lane0 u = true) →
        Completes i u s (fun r => (s.tracing s.myCtx = false → r = s)
          ∧ r = s.trace 0 s.myCtx s.cu.core s.cu.st (s.me.spot s.cu.pc (stageOf u)) (BitVec.ofNat 64 u.imm.toNat) (s.sA u)))
    ∧ exec (.brk u) s = .next ((s.fin u).trap ⟨.brk, 0, BitVec.ofNat 64 u.imm.toNat, 0, s.cu.pc, none, false, some (s.fin u).me.pc⟩))
  ∧ (∀ (u : U) (s : State),
    (s.cu.cap ≠ none → s.fin u = s)
    ∧ (s.cu.cap = none → OnlyMe s (s.fin u) ∧ (s.fin u).me.ready = s.cycle + 1 + u.g.toNat)
    ∧ (s.cu.cap = none → s.cu.inLoop = false ∨ s.me.loop = none →
        (s.me.xfer = none → (s.fin u).me = { s.me with pc := s.nextPc, ready := s.cycle + 1 + u.g.toNat })
        ∧ (∀ x, s.me.xfer = some x → x.left ≤ 1 → x.taken = true →
            (s.fin u).me = { s.me with pc := x.tgt, xfer := none, xsrc := some x.src, ready := s.cycle + 1 + u.g.toNat })
        ∧ (∀ x, s.me.xfer = some x → x.left ≤ 1 → x.taken = false →
            (s.fin u).me = { s.me with pc := s.nextPc, xfer := none, xsrc := none, ready := s.cycle + 1 + u.g.toNat })
        ∧ (∀ x, s.me.xfer = some x → 2 ≤ x.left →
            (s.fin u).me = { s.me with pc := s.nextPc, xfer := some { x with left := x.left - 1 }, ready := s.cycle + 1 + u.g.toNat }))
    ∧ (∀ l x, s.cu.cap = none → s.cu.inLoop = true → s.me.loop = some l → l.body[l.idx + 1]? = some x →
        (s.fin u).me = { s.me with loop := some { l with idx := l.idx + 1 }, pc := x.pc, ready := s.cycle + 1 + u.g.toNat }))

/-- 01 R20, R22, R29: what the translation of an access may change. -/
def Obligations.TranslationFrame : Prop :=
  ∀ (s s1 : State) (sp : Bool) (acc : Acc) (ea : W64) (n : Nat) (r : Except (State → State) (List Piece)),
    s.reach sp acc ea n = (s1, r) →
    Walked s s1
    ∧ (sp = true → s1 = s)
    ∧ (∀ c free a x, s.tlbHit c acc a = some x →
        s.lookup free c acc a = ({ s with picks := s.picks + 1 }, .ok x)
        ∨ (∃ t y, xlateFor free (s.chain c) acc false a { s with picks := s.picks + 1 } = (t, y) ∧ s.lookup free c acc a = (t.markAd, y)))

/-- 01 R11: the out-of-range address. The premises hold in every state the machine reaches: no A/D update is left over from an earlier
access, and the chain of the context goes up to the root. -/
def Obligations.OutOfRange : Prop :=
  ∀ (s : State) (a : W64), a.toNat / 2 ^ 52 ≠ 0 → s.adw = [] → (s.chain s.myCtx).length = (s.ctx s.myCtx).depth + 1 →
    ∃ f : XFail, f.reason = 5 ∧ f.depth = (s.ctx s.myCtx).depth ∧ f.level = 0 ∧ f.walk = false ∧ f.poison = false
      ∧ (∀ (acc : Acc) (n : Nat), n ≠ 0 → ∃ h, s.reach false acc a n = (s, .error h) ∧ ∀ t, h t = t.raiseX acc f a)
      ∧ (∀ u : U, s.sB u + immS u = a → exec (.ldD u) s = .next (s.raiseX .read f a))
      ∧ (∀ u : U, s.sB u + immS u = a → exec (.stD u) s = .next (s.raiseX .write f a))

/-- 01 R18: the malformed entries, and the walk that meets one. -/
def Obligations.MalformedEntry : Prop :=
  (∀ (e a : W64) (lvl : Nat), lvl < 3 →
    (pteBad e lvl a = true ↔
      (∃ k, (52 ≤ k ∧ k ≤ 55 ∨ 11 ≤ k ∧ k ≤ 15) ∧ e.getLsbD k = true)
      ∨ (e.getLsbD 9 = true ∧ e.getLsbD 10 = true)
      ∨ (e.getLsbD 1 = true ∧ lvl = 0) ∨ (e.getLsbD 1 = false ∧ lvl = 2)
      ∨ (e.getLsbD 1 = false ∧ ∃ k, 2 ≤ k ∧ k ≤ 10 ∧ e.getLsbD k = true)
      ∨ (e.getLsbD 1 = true ∧ lvl = 1 ∧ ((∃ k, 16 ≤ k ∧ k ≤ 28 ∧ e.getLsbD k = true) ∨ e.getLsbD 6 = true))
      ∨ (e.getLsbD 1 = true ∧ lvl = 2 ∧ e.getLsbD 6 = true ∧ ∃ k, 16 ≤ k ∧ k ≤ 20 ∧ e.getLsbD k ≠ a.getLsbD k)))
  ∧ ∀ (s : State) (k n lvl base owner : Nat) (wk : Bool) (a : W64) (rd : W64 → State → State × Except XFail (Nat × W64 × Nat)) (pea : Nat),
      pea = base + pteIndex lvl a * 8 → k = 0 → pea < 2 ^ 64 → present s.dev pea = true → s.groupOk owner pea = true → s.psn false pea = false →
      (s.rdP64 pea).getLsbD 0 = true → pteBad (s.rdP64 pea) lvl a = true →
      walkLevels k wk owner rd (n + 1) lvl base a s = (s.l2Touch pea 0 false, .error ⟨0, 1, lvl, wk, a, false⟩)

/-- 11 R309-R314: ordinary loads, result and frame. -/
def Obligations.Loads : Prop :=
  ∀ (u : U) (s t : State) (ps : List Piece) (m : List (Piece × (W64 × W64))),
    (∀ e ∈ ([(.ldB u, false, 1), (.ldH u, false, 2), (.ldW u, false, 4), (.ldD u, false, 8),
          (.ldBSp u, true, 1), (.ldHSp u, true, 2), (.ldWSp u, true, 4), (.ldDSp u, true, 8)] : List (Instr × Bool × Nat)),
      LoadReady s e.2.1 none (s.sB u + immS u) e.2.2 t ps m →
      Completes e.1 u s (fun r => ∃ x, ReadDone t x ps m
        ∧ WroteS x r u.a.toNat (extended false e.2.2 (t.loadBy t.me ps)) 0 (if e.2.1 then 6 else 1)))
    ∧ (s.lane0 u = true → LoadReady s (xSp u) none (s.sB u + imm16S u) (xSize u) t ps m →
      Completes (.ldx u) u s (fun r => ∃ x, ReadDone t x ps m
        ∧ WroteS x r u.a.toNat (extended (xSx u) (xSize u) (t.loadBy t.me ps)) 0 (if xSp u then 6 else 1)))

/-- 11 R312, R313, 03 R78: strong loads. -/
def Obligations.StrongLoads : Prop :=
  ∀ (u : U) (s t : State) (ps : List Piece) (m : List (Piece × (W64 × W64))), s.lane0 u = true →
    let n := xSize u
    let ea := alignTo n (s.sB u + imm16S u)
    let v := extended (xSx u) n (t.loadBy t.me ps)
    (LoadReady s (xSp u) (some (xScope u)) ea n t ps m →
      Completes (.ldAcq u) u s (fun r => ∃ x j y, ReadDone t x ps m
        ∧ j = ((x.pubsOf ps).filter (fun p => edgeOk p x.myRace (xScope u))).foldl (fun s p => s.joinPub x.myRace p) x ∧ OnlyMe j y
        ∧ y.me = { j.me with readPubs := j.me.readPubs
            ++ ((x.pubsOf ps).filter (fun p => !edgeOk p x.myRace (xScope u))).filter (fun p => !j.me.readPubs.contains p) }
        ∧ WroteS y r u.a.toNat v 0 (if xSp u then 6 else 1)))
    ∧ (LoadReady s (xSp u) (some (xScope u)) ea n t ps m →
      Completes (.ldRlx u) u s (fun r => ∃ x y, ReadDone t x ps m ∧ OnlyMe x y
        ∧ y.me = { x.me with readPubs := x.me.readPubs ++ (x.pubsOf ps).filter (fun p => !x.me.readPubs.contains p) }
        ∧ WroteS y r u.a.toNat v 0 (if xSp u then 6 else 1)))

/-- 08 R236, 11 R309: the interlocked result of a load. 04 R104, R106, 03 R81: the path of a store from its agent to memory. -/
def Obligations.PendingAccesses : Prop :=
  ((∀ (u : U) (s s1 s2 : State) (ps : List Piece) (later : Bool), s.reach false .read (s.sB u + immS u) 8 = (s1, .ok ps) →
    s1.putsOff = (s2, later) → later = true ∨ s2.readMeets ps = true →
    Completes (.ldD u) u s (fun r => OnlyMe s2 r ∧ (u.a ≠ 0 → r.me.locked (.s u.a.toNat) = true)
      ∧ ∃ p, r.me = { s2.me with pend := s2.me.pend ++ [p] } ∧ p.kind = .load false ∧ p.stage = 0 ∧ p.pieces = ps ∧ p.rest = unitParts ps
        ∧ p.size = 8 ∧ p.scope = none ∧ p.dest = if u.a = 0 then none else some (.s u.a.toNat)))
  ∧ ∀ (s : State) (core st : Nat) (p : Pend) (rest : List Pend) (m : List (Piece × (W64 × W64))),
      let n := p.cap.iw.u.a.toNat
      let mine := { s.ag core st with pend := [] }
      let y := s.settleLines (some (agKey core st)) p.pieces
      let t : State := { y.setAg core st { s.ag core st with pend := rest } with
        cu := ⟨core, st, p.cap.uaddr, iwLen p.cap.iw, p.cap.iw, false, some p.cap, false⟩ }
      (s.ag core st).pend = p :: rest → p.kind = .load false → p.stage = 0 → p.dest = some (.s n) → p.scope = none → p.size ≠ 0 →
      p.pieces.any (·.sp) = false → p.part.2 = [] → t.screen true ⟨0, none⟩ p.pieces = .ok m →
      ∃ r, exec (.loadDataReturn core st 0) s = .next r ∧ ∃ x, ReadDone t x p.pieces m
        ∧ WroteS x r n (loadValue p.sext p.size (y.readPart mine p.data p.rest)) 0 1)
  ∧ ((∀ (u : U) (s s1 s2 : State) (ps : List Piece) (later : Bool), s.reach false .write (s.sB u + immS u) 8 = (s1, .ok ps) → ps ≠ [] →
    s1.putsOff = (s2, later) → later = true ∨ s2.readsDone = false ∨ s2.me.pend.any (fun p => p.isStore && p.stage == 0) = true →
    Completes (.stD u) u s (fun r => OnlyMe s2 r
      ∧ ∃ p, r.me = { s2.me with pend := s2.me.pend ++ [p] } ∧ p.kind = .store ∧ p.stage = 0 ∧ p.pieces = ps ∧ p.rest = unitParts ps
        ∧ p.data = toBytes 8 (s.sA u).toNat))
  ∧ (∀ (s : State) (core st : Nat) (p : Pend) (rest : List Pend) (m : List (Piece × (W64 × W64))), st < 8 →
      (s.ag core st).pend = p :: rest → p.kind = .store → p.stage = 0 →
      ({ s with cu := ⟨core, st, p.cap.uaddr, iwLen p.cap.iw, p.cap.iw, false, some p.cap, false⟩ } : State).screen false ⟨1, p.scope⟩ p.pieces = .ok m →
      exec (.storeLeave core st) s = .next ((s.recordMd m).updAg core st (fun a => { a with pend := { p with stage := 1 } :: rest })))
  ∧ (∀ (s : State) (core st : Nat) (p : Pend) (rest : List Pend) (q : Piece), st < 8 →
      (s.ag core st).pend = p :: rest → p.kind = .store → p.stage = 1 → p.scope = none → p.rest = [q] →
      exec (.storeLeave core st) s = .next (((s.storeAs (s.ag core st).ctx [q] p.data).l2Ps (s.ag core st).ctx core st [q] true).updAg core st
        (fun a => { a with pend := { p with stage := 2, pieces := [q], rest := [], old := s.rdBytes q.sp q.a q.n } :: rest })))
  ∧ ∀ (s : State) (core st : Nat) (p : Pend) (rest : List Pend), st < 8 →
      (s.ag core st).pend = p :: rest → p.kind = .store → p.stage = 2 →
      exec (.storeLeave core st) s = .next (s.setAg core st { s.ag core st with pend := rest }))

/-- 11 R309-R314: stores, the bytes written and the frame. 11 R313, 03 R87: the release store. -/
def Obligations.Stores : Prop :=
  (∀ (u : U) (s t : State) (ps : List Piece) (m : List (Piece × (W64 × W64))),
    let data (n : Nat) : List Byte := toBytes n (s.sA u).toNat
    (∀ e ∈ ([(.stB u, false, 1), (.stH u, false, 2), (.stW u, false, 4), (.stD u, false, 8),
          (.stBSp u, true, 1), (.stHSp u, true, 2), (.stWSp u, true, 4), (.stDSp u, true, 8)] : List (Instr × Bool × Nat)),
      StoreReady s e.2.1 none (s.sB u + immS u) e.2.2 t ps m →
      Completes e.1 u s (fun r => WriteDone t r ps m (data e.2.2)))
    ∧ (s.lane0 u = true → StoreReady s (xSp u) none (s.sB u + imm16S u) (xSize u) t ps m →
      Completes (.stx u) u s (fun r => WriteDone t r ps m (data (xSize u))))
    ∧ (∀ p rest, ps = p :: rest → s.lane0 u = true →
      StoreReady s (xSp u) (some (xScope u)) (alignTo (xSize u) (s.sB u + imm16S u)) (xSize u) t ps m →
      Completes (.stRlx u) u s (fun r => ∃ x, WriteDone t x ps m (data (xSize u))
        ∧ r = x.setPubs p.sp p.a (match s.me.fencePub with | some f => [f] | none => []))))
  ∧ (∀ (u : U) (s s1 t t' : State) (p : Piece) (rest : List Piece) (m : List (Piece × (W64 × W64))) (pub : Pub),
    let ps := p :: rest
    let sc := xScope u
    s.lane0 u = true → s.allPerformed = true →
    s.reach (xSp u) .write (alignTo (xSize u) (s.sB u + imm16S u)) (xSize u) = (s1, .ok ps) →
    s1.screen false ⟨1, some sc⟩ ps = .ok m → s1.exhausted 1 sc = false → s1.release sc = (t, pub) → t.putsOff = (t', false) →
    Completes (.stRel u) u s (fun r => ∃ x, WriteDone t' x ps m (toBytes (xSize u) (s.sA u).toNat) ∧ r = x.setPubs p.sp p.a (s.writePubs [pub])))

/-- 03 R87, R88, 04 R105: publication and the closing of a path. 11 R320-R322: the fences and the prefetch hint. -/
def Obligations.Fences : Prop :=
  (∀ (s : State) (key scope : Nat),
    let ten := keyTen key
    let clu := keyClu key
    (∀ t p, s.publish key scope = (t, p) →
      (t.rs key).epoch = (s.rs key).epoch + 1 ∧ p.scope = scope ∧ p.ten = ten ∧ p.clu = clu ∧ p.agt = keyAgt key
      ∧ SMap.get 0 p.clk.vc (keyEnt key) = (s.rs key).epoch
      ∧ t.ce ten clu = s.ce ten clu + (if 3 ≤ scope then 1 else 0)
      ∧ (3 ≤ scope → s.ce ten clu ≤ SMap.get 0 p.clk.fr clu)
      ∧ (∀ k, k ≠ key → t.rs k = s.rs k)
      ∧ { t with races := s.races, cepochs := s.cepochs } = s)
    ∧ (s.closePath key).rs key = { s.rs key with xclk := s.clockOf key, epoch := (s.rs key).epoch + 1 }
    ∧ (∀ k, k ≠ key → (s.closePath key).rs k = s.rs k)
    ∧ { s.closePath key with races := s.races } = s)
  ∧ (∀ (u : U) (s : State),
    let sc := u.a.toNat
    (s.allPerformed = true → s.exhausted 1 sc = false →
      Completes (.fence u) u s (fun r =>
        (∃ p, r.me.fencePub = some p ∧ p.scope = sc ∧ (1 ≤ sc → (r.rs s.myRace).xclk = p.clk) ∧ r.me = { s.me with readPubs := s.me.readPubs.filter (fun p => !edgeOk p s.myRace sc), fencePub := some p })
        ∧ (r.rs s.myRace).epoch = (s.rs s.myRace).epoch + 1
        ∧ (∀ c k, agKey c k ≠ agKey s.cu.core s.cu.st → r.ag c k = s.ag c k)
        ∧ { r with agents := s.agents, races := s.races, cepochs := s.cepochs } = s))
    ∧ (s.pathClear = true → s.exhausted 1 0 = false → Completes (.fenceXp u) u s (fun r => r = s.closePath s.myRace))
    ∧ (s.lane0 u = true → Completes (.pref u) u s (fun r => Walked s r
        ∧ ((∃ f, (s.translate s.myCtx .read false (s.sA u + imm16S u)).2 = .error f) → r = s))))

/-- 11 R315-R318: the atomics. -/
def Obligations.Atomics : Prop :=
  ∀ (u : U) (s t : State) (ps : List Piece) (m : List (Piece × (W64 × W64))), ps ≠ [] → s.lane0 u = true →
    let n := amoSize u
    let x := ofBytes (t.load ps)
    let y := (s.sC u).toNat % 2 ^ (8 * n)
    let sx := (BitVec.ofNat (8 * n) x).toInt
    let sy := (BitVec.ofNat (8 * n) y).toInt
    (AmoReady s u 2 t ps m →
      (∀ e ∈ ([(.amoAdd u, (x + y) % 2 ^ (8 * n)),
          (.amoMin u, if amoUns u then min x y else (BitVec.ofInt (8 * n) (min sx sy)).toNat),
          (.amoMax u, if amoUns u then max x y else (BitVec.ofInt (8 * n) (max sx sy)).toNat),
          (.amoAnd u, x &&& y), (.amoOr u, x ||| y), (.amoXor u, x ^^^ y), (.amoSwap u, y)] : List (Instr × Nat)),
        Completes e.1 u s (fun r => AmoDone t r u ps (some e.2) 0))
      ∧ (x = (s.sE u).toNat % 2 ^ (8 * n) → Completes (.amoCas u) u s (fun r => AmoDone t r u ps (some y) 0))
      ∧ Completes (.amoAddl u) u s (fun r => AmoDone t r u ps (some (sliOp 3 0 x y).1) (sliOp 3 0 x y).2))
    ∧ (AmoReady s u 0 t ps m → x ≠ (s.sE u).toNat % 2 ^ (8 * n) →
      Completes (.amoCas u) u s (fun r => AmoDone t r u ps none 0))

/-- 11 R323, 04 R97-R102: the token instructions. -/
def Obligations.Tokens : Prop :=
  ∀ (u : U) (s : State),
    let core := s.cu.core
    let ts := waitToks u
    let behind := s.outranked core (9 + s.cu.st) ts
    let mine (l : List Nat) : Bool := l.all (fun t => s.tokOk s.myCtx core t)
    (mine ts = true → (∀ t ∈ ts, (ts.filter (· == t)).length ≤ s.tok core t) → behind = false →
      Completes (.tokWait u) u s (fun r => (∀ k, r.tok core k = s.tok core k - (ts.filter (· == k)).length)
        ∧ (∀ c, c ≠ core → r.core c = s.core c) ∧ { r with cores := s.cores, races := s.races } = s))
    ∧ (mine ts = true → (∃ t ∈ ts, s.tok core t < (ts.filter (· == t)).length) ∨ behind = true → exec (.tokWait u) s = .next (s.waitOn (.tok ts)))
    ∧ (mine ts = false → exec (.tokWait u) s = .next s.priv)
    ∧ (mine [u.b.toNat] = true → PutsS (.tokTest u) u s (BitVec.ofNat 64 (s.tok core u.b.toNat)) 0 4)
    ∧ (mine [u.a.toNat] = true → s.readsDone = true → s.pathClear = true → s.exhausted 1 0 = false → s.tok core u.a.toNat ≤ 0xFFFF →
      Completes (.tokAdd u) u s (fun r => r.tok core u.a.toNat = min 0xFFFF (s.tok core u.a.toNat + 1)
        ∧ (r.core core).tokovf = (if s.tok core u.a.toNat = 0xFFFF then setBits (s.core core).tokovf u.a.toNat u.a.toNat 1 else (s.core core).tokovf)
        ∧ (∀ k, k ≠ u.a.toNat → r.tok core k = s.tok core k) ∧ (∀ c, c ≠ core → r.core c = s.core c)
        ∧ { r with cores := s.cores, races := s.races } = s))

/-- 11 R324, R325, 04 R107-R110: arrival words. -/
def Obligations.ArrivalWords : Prop :=
  (∀ (u : U) (s : State) (a : Nat), s.arrAddr s.myCtx s.myClu (s.sA u) = some a →
    (∀ t, s.readsDone = true → s.putsOff = (t, false) → t.storeMeets [⟨true, a, 0, 8, false, s.sA u, 0⟩] = false → s.adw = [] →
      Completes (.arriveSet u) u s (fun r => r.rdSp64 a = s.sB u ∧ r.arrSt a = (Clock.empty, Clock.empty, 0, 0)
        ∧ (∀ sp b, ¬(sp = true ∧ a ≤ b ∧ b < a + 8) → r.rdB sp b = s.rdB sp b) ∧ { r with mem := s.mem } = t))
    ∧ (s.psn true a = false → (s.arrWord s.cu.core s.cu.st a).toNat / 2 ^ 56 ≠ (s.sB u).toNat % 256 →
      Completes (.arriveWait u) u s (fun r => { r with races := s.races, agents := s.agents } = s
        ∧ (∀ c k, agKey c k ≠ agKey s.cu.core s.cu.st → r.ag c k = s.ag c k)
        ∧ r.me = { s.me with readPubs := s.me.readPubs ++ (s.pubsAt true a).filter (fun p => !s.me.readPubs.contains p) }))
    ∧ (s.psn true a = false → (s.arrWord s.cu.core s.cu.st a).toNat / 2 ^ 56 = (s.sB u).toNat % 256 →
      exec (.arriveWait u) s = .next (s.waitOn (.arrive a ((s.sB u).toNat % 256)))))
  ∧ (∀ (u : U) (s : State), s.arrAddr s.myCtx s.myClu (s.sA u) = none →
      exec (.arriveSet u) s = .next (s.raiseWin .write 8 (s.sA u)) ∧ exec (.arriveWait u) s = .next (s.raiseWin .read 8 (s.sA u)))
  ∧ ∀ (s : State) (a n scope : Nat) (st : Clock),
      let w := (s.rdSp64 a).toNat
      let gen := w / 2 ^ 56
      let cnt := w / 2 ^ 28 % 2 ^ 28
      let tgt := w % 2 ^ 28
      let v := ((s.arrive a n st scope).rdSp64 a).toNat
      v % 2 ^ 28 = tgt
      ∧ (tgt = 0 → v / 2 ^ 56 = gen ∧ v / 2 ^ 28 % 2 ^ 28 = min (cnt + n) (2 ^ 28 - 1))
      ∧ (tgt ≠ 0 → cnt + n < tgt → v / 2 ^ 56 = gen ∧ v / 2 ^ 28 % 2 ^ 28 = cnt + n)
      ∧ (tgt ≠ 0 → tgt ≤ cnt + n → cnt + n - tgt < 2 ^ 28 → v / 2 ^ 56 = (gen + 1) % 256 ∧ v / 2 ^ 28 % 2 ^ 28 = cnt + n - tgt)
      ∧ (∀ sp b, ¬(sp = true ∧ a ≤ b ∧ b < a + 8) → (s.arrive a n st scope).rdB sp b = s.rdB sp b)

/-- 11 R326, 06 R152, R153: the data queues. -/
def Obligations.DataQueues : Prop :=
  ∀ (u : U) (s : State),
    let core := s.cu.core
    let c := s.myCtx
    let qa := u.a.toNat
    let qb := u.b.toNat
    (mayPush qa s.cu.st = true → s.holdsSide c core (queueSide qa) = true → s.me.pend.all (fun p => p.stage == 2) = true → s.exhausted 1 0 = false →
      ((s.dq core qa).chip.length < 32 →
        Completes (.qPush u) u s (fun r => (r.dq core qa).chip = (s.dq core qa).chip ++ [s.sB u] ∧ (r.dq core qa).count = (s.dq core qa).count
          ∧ (∀ q, q ≠ qa → r.dq core q = s.dq core q) ∧ (∀ k, k ≠ core → r.core k = s.core k)
          ∧ { r with cores := s.cores, races := s.races } = s))
      ∧ (∀ x v, 32 ≤ (s.dq core qa).chip.length → s.qSpill c core qa = .ok x v →
        Completes (.qPush u) u s (fun r => (r.dq core qa).chip = (s.dq core qa).chip.drop 1 ++ [s.sB u]
          ∧ (r.dq core qa).count = (s.dq core qa).count + 1)))
    ∧ (mayPop qb s.cu.st = true → s.holdsSide c core (queueSide qb) = true → (s.dq core qb).count = 0 →
      (∀ v t, (s.dq core qb).chip = v :: t →
        Completes (.qPop u) u s (fun r => ∃ x, (x.dq core qb).chip = t ∧ x.agents = s.agents ∧ x.mem = s.mem ∧ WroteS x r qa v 0 1)
        ∧ Completes (.qPopp u) u s (fun r => ∃ x, (x.dq core qb).chip = t ∧ x.agents = s.agents ∧ x.mem = s.mem
            ∧ WroteP x r qa (if v = 0 then 0 else BitVec.allOnes 1024) 0 1)
        ∧ Completes (.qPeek u) u s (fun r => ∃ x, x.cores = s.cores ∧ x.agents = s.agents ∧ x.mem = s.mem ∧ WroteS x r qa v 0 1))
      ∧ ((s.dq core qb).chip = [] → exec (.qPop u) s = .next (s.waitOn (.queue qb false))
          ∧ exec (.qPopp u) s = .next (s.waitOn (.queue qb false)) ∧ exec (.qPeek u) s = .next (s.waitOn (.queue qb false))))
    ∧ (∀ x v, mayPop qb s.cu.st = true → s.holdsSide c core (queueSide qb) = true → s.qTake core qb true = .ok x v →
        Completes (.qPop u) u s (fun r => WroteS x r qa v 0 1) ∧ Completes (.qPopp u) u s (fun r => WroteP x r qa (if v = 0 then 0 else BitVec.allOnes 1024) 0 1))
    ∧ (mayPop qb s.cu.st = false → exec (.qPop u) s = .next s.wrongAgent ∧ exec (.qPopp u) s = .next s.wrongAgent
        ∧ exec (.qPeek u) s = .next s.wrongAgent)
    ∧ (mayPush qa s.cu.st = false → exec (.qPush u) s = .next s.wrongAgent)
    ∧ (mayPush qa s.cu.st = true → s.holdsSide c core (queueSide qa) = false → exec (.qPush u) s = .next s.priv)

/-- 04 R99, R109, 06 R153: the events that end waits. -/
def Obligations.WaitsEnd : Prop :=
  ∀ (s : State) (core st : Nat), s.alive core st = true →
    let t := s.rewake core st
    let u := t.cu.iw.u
    (∀ ts, (s.ag core st).wait = .tok ts → s.canConsume core ts = true → s.outranked core (9 + st) ts = false →
      exec (.tokWaitConsume core st) s = .next (((t.consumeBy core st ts).fin u).loopEnd core st)
      ∧ ∀ k, (t.consumeBy core st ts).tok core k = s.tok core k - (ts.filter (· == k)).length)
    ∧ (∀ a g, (s.ag core st).wait = .arrive a g → s.psn true a = false → arrGen (s.arrWord core st a) ≠ g →
      exec (.arriveWaitComplete core st) s = .next ((((t.takeWord a).joinEpisode t.myRace a).fin u).loopEnd core st))
    ∧ (∀ q push, (s.ag core st).wait = .queue q push → s.queueWaitDue core st = true → s.popBehind core st = false →
      ∃ r, t.queueOp u.mi.toNat u = .next r ∧ exec (.queueWaitResume core st) s = .next (r.loopEnd core st))
    ∧ (t.ag core st).wait = .none

/-- 10 R283, R284, 05 R120: integer elements. 05 R123, 10 R283, R286, R293: special operands of the F types. -/
def Obligations.Elements : Prop :=
  (∀ (ty rnd : Nat) (sat : Bool) (x y z : Nat), isI ty = true →
    let h : How := ⟨ty, rnd, sat⟩
    let w := elemBits ty
    let a := intOf ty x
    let b := intOf ty y
    let c := intOf ty z
    let exact (v : Int) (r : Res) : Prop := r.1 < 2 ^ w ∧ Clamped w sat v (BitVec.ofNat w r.1) r.2
    exact (a + b) (elArith h 0 x y) ∧ exact (a - b) (elArith h 1 x y) ∧ exact (a * b) (elArith h 2 x y)
    ∧ exact (a * b + c) (elFma h x y z) ∧ exact (a.natAbs : Int) (elAbsNeg h false x) ∧ exact (-a) (elAbsNeg h true x)
    ∧ exact (a * 2 ^ y) (elShl h x y)
    ∧ intOf ty (elShr h x y).1 = a / 2 ^ y ∧ (elShr h x y).2 = 0
    ∧ intOf ty (elPick h false x y).1 = min a b ∧ intOf ty (elPick h true x y).1 = max a b
    ∧ (elPick h false x y).2 = 0 ∧ (elPick h true x y).2 = 0)
  ∧ (∀ (f : Fmt) (rnd : Nat) (sat : Bool) (x y : Nat),
    let a := f.dec x
    let b := f.dec y
    let iv : W64 := if a = .nan true ∨ b = .nan true then fIV else 0
    ((a.isNan = true ∨ b.isNan = true) →
      f.add rnd sat x y = (f.nan, iv) ∧ f.sub rnd sat x y = (f.nan, iv) ∧ f.mul rnd sat x y = (f.nan, iv)
      ∧ f.pick false x y = (f.nan, iv) ∧ f.pick true x y = (f.nan, iv)
      ∧ (∀ cc, cc < 8 → ((f.cmp cc x y).1 = true ↔ cc = 1 ∨ cc = 6))
      ∧ (∀ cc, 2 ≤ cc → cc ≤ 5 → (f.cmp cc x y).2 = fIV))
    ∧ (∀ n, a = .inf n → b = .inf n → f.sub rnd sat x y = (f.nan, fIV) ∧ f.add rnd sat x y = (f.inf n, 0))
    ∧ (∀ n g m e, a = .inf n → b = .fin g m e →
        f.add rnd sat x y = (f.inf n, 0) ∧ f.sub rnd sat x y = (f.inf n, 0)
        ∧ f.mul rnd sat x y = (if m = 0 then (f.nan, fIV) else (f.inf (n != g), 0)))
    ∧ (∀ n e, a = .fin n 0 e → f.rcp rnd sat x = (f.inf n, fDZ) ∧ f.rsq rnd sat x = (f.inf n, fDZ))
    ∧ (∀ z, a = .inf true ∧ (∃ n e, b = .fin n 0 e) → f.fma rnd sat x y z = (f.nan, fIV)))

/-- 10 R280, R283, R285: the three arithmetic instructions, with the frame of `WroteV`. -/
def Obligations.VectorArithmetic : Prop :=
  ∀ (w64 : Bool) (u : U) (s : State),
    let ty := etyOf w64 u
    let h : How := ⟨ty, rndOf u, satOf u⟩
    let f (op : Nat) (k : Nat) : W32 × W64 :=
      let r := elArith h op (elemOf ty ((s.opV 1 u.b).lane k)) (elemOf ty (s.laneC w64 u k))
      (fillLane ty r.1, r.2)
    let forms : List (Instr × Nat) :=
      if w64 then [(.vaddX u, 0), (.vsubX u, 1), (.vmulX u, 2)] else [(.vadd u, 0), (.vsub u, 1), (.vmul u, 2)]
    ∀ e ∈ forms, if isS ty then PutsFlagged w64 e.1 u s (f e.2) else PutsLanes e.1 u s (f e.2) 4

/-- 10 R280-R297: element-wise instructions, with the frame of `WroteV`. -/
def Obligations.VectorElementwise : Prop :=
  ∀ (w64 : Bool) (u : U) (s : State),
    let ty := etyOf w64 u
    let h : How := ⟨ty, rndOf u, satOf u⟩
    let x (k : Nat) : Nat := elemOf ty ((s.opV 1 u.b).lane k)
    let y (k : Nat) : Nat := elemOf ty (s.laneC w64 u k)
    let z (k : Nat) : Nat := elemOf ty ((s.opV 3 u.e).lane k)
    let pick (a b : Instr) : Instr := if w64 then b else a
    let puts (a b : Instr) (l : Nat) (g : Nat → Nat × W64) : Prop :=
      PutsLanes (pick a b) u s (fun k => (fillLane ty (g k).1, (g k).2)) l
    puts (.vmin u) (.vminX u) 4 (fun k => elPick h false (x k) (y k)) ∧ puts (.vmax u) (.vmaxX u) 4 (fun k => elPick h true (x k) (y k))
    ∧ puts (.vand u) (.vandX u) 4 (fun k => (x k &&& y k, 0)) ∧ puts (.vor u) (.vorX u) 4 (fun k => (x k ||| y k, 0))
    ∧ puts (.vxor u) (.vxorX u) 4 (fun k => (x k ^^^ y k, 0))
    ∧ puts (.vshl u) (.vshlX u) 4 (fun k => elShl h (x k) (y k)) ∧ puts (.vshr u) (.vshrX u) 4 (fun k => elShr h (x k) (y k))
    ∧ puts (.vabs u) (.vabsX u) 4 (fun k => elAbsNeg h false (x k)) ∧ puts (.vneg u) (.vnegX u) 4 (fun k => elAbsNeg h true (x k))
    ∧ puts (.vfma u) (.vfmaX u) 4 (fun k => elFma h (x k) (y k) (z k))
    ∧ PutsLanes (pick (.vsliLvl u) (.vsliLvlX u)) u s (fun k => (BitVec.ofNat 32 (sliLvl ty (x k)), 0)) 4
    ∧ (∀ e ∈ ([(pick (.vexp u) (.vexpX u), 0), (pick (.vlog u) (.vlogX u), 1), (pick (.vrcp u) (.vrcpX u), 2),
          (pick (.vrsq u) (.vrsqX u), 3), (pick (.vtanh u) (.vtanhX u), 4)] : List (Instr × Nat)),
        let g (k : Nat) : W32 × W64 := (fillLane ty (elSpecial h e.2 (x k)).1, (elSpecial h e.2 (x k)).2)
        if isS ty then PutsFlagged w64 e.1 u s g else PutsLanes e.1 u s g 12)
    ∧ PutsLanes (.vcvt u) u s (fun k =>
        let r := elConv (cvtSrc u) u.mi.toNat (rndOf u) (satOf u) (elemOf (cvtSrc u) ((s.opV 1 u.b).lane k))
        (fillLane u.mi.toNat r.1, r.2)) (if isS (cvtSrc u) || isS u.mi.toNat then 25 else 4)

/-- 10 R286-R288: compare, select, immediate and moves. -/
def Obligations.VectorMoves : Prop :=
  ∀ (u : U) (s : State),
    let ty := u.mi.toNat
    let x (k : Nat) : W32 := (s.opV 1 u.b).lane k
    let cmp (k : Nat) : Bool × W64 := elCmp ty u.e.toNat (elemOf ty (x k)) (elemOf ty (s.laneC true u k))
    let n := bits u.imm 9 0
    let low (t : Nat) : W32 := fillLane t ((s.sB u).toNat % 2 ^ elemBits t)
    (∃ v fl, (∀ k, k < 1024 → v.getLsbD k = ((s.gov u).getLsbD k && (cmp k).1)) ∧ Flagged s u (fun k => (0, (cmp k).2)) fl
      ∧ PutsP (.vcmp u) u s v fl 4)
    ∧ PutsLanes (.vsel u) u s (fun k => (if (s.rdP u.e.toNat).getLsbD k then x k else s.laneC true u k, 0)) 4
    ∧ PutsLanes (.vimm u) u s (fun k => (immLane ty u.imm k, 0)) 4
    ∧ PutsLanes (.vmovs u) u s (fun _ => (low (etyOf false u), 0)) 4
    ∧ PutsLanes (.vmovsX u) u s (fun _ => (low ty, 0)) 4
    ∧ PutsV (.vmovsIns u) u s (fun k => if k = n ∧ (s.gov u).getLsbD n = true then low ty else (s.me.vreg u.a.toNat).lane k) 0 4
    ∧ ((s.gov u).getLsbD n = true → PutsS (.vmovsExt u) u s
        (if isI ty then BitVec.ofInt 64 (intOf ty (elemOf ty (x n))) else BitVec.ofNat 64 (elemOf ty (x n))) 0 4)
    ∧ ((s.gov u).getLsbD n = false → Completes (.vmovsExt u) u s (fun r => r = s))

/-- 10 R290: lane movement, with the frame of `WroteV`. -/
def Obligations.LaneMovement : Prop :=
  ∀ (w64 : Bool) (u : U) (s : State),
    let v (i j : Nat) : W32 := (s.opV 1 u.b).lane (64 * i + j)
    let k := if w64 then bits u.imm 5 0 else u.c.toNat
    let puts (a b : Instr) (l : Nat) (f : Nat → Nat → W32) : Prop :=
      PutsLanes (if w64 then b else a) u s (fun q => (f (q / 64) (q % 64), 0)) l
    puts (.vbcastR u) (.vbcastRX u) 6 (fun i _ => v i k)
    ∧ (k < 16 → puts (.vbcastC u) (.vbcastCX u) 10 (fun _ j => v k j))
    ∧ puts (.vrotR u) (.vrotRX u) 6 (fun i j => v i ((j + 64 - k) % 64))
    ∧ (k < 16 → puts (.vrotC u) (.vrotCX u) 10 (fun i j => v ((i + 16 - k) % 16) j))

/-- 10 R291, R292, 05 R143: reductions and scans, and what the tree is. -/
def Obligations.Reductions : Prop :=
  (∀ (w64 cols : Bool) (u : U) (s : State),
    let ty := etyOf w64 u
    let op := elReduce ⟨ty, rndOf u, satOf u⟩ (if w64 then bits u.imm 5 0 else u.c.toNat)
    let el (q : Nat) : Option Nat := if (s.gov u).getLsbD q then some (elemOf ty ((s.opV 1 u.b).lane q)) else none
    let len := if cols then 16 else 64
    let lev := if cols then 4 else 6
    let line (n : Nat) : List (Option Nat) := (List.range len).map (fun k => el (if cols then 64 * k + n else 64 * n + k))
    let lat := (if cols then 10 else 6) + (if isS ty then 25 * lev else 0)
    let at2 (q : Nat) : Nat × Nat := if cols then (q % 64, q / 64) else (q / 64, q % 64)
    let pick (a b c d : Instr) : Instr := if w64 then (if cols then d else c) else (if cols then b else a)
    let fl (f : Nat → W64) (x : W64) : Prop := ∀ j, x.getLsbD j = true ↔ ∃ n, n < (if cols then 64 else 16) ∧ (f n).getLsbD j = true
    (∃ x, fl (fun n => (tree op lev (line n)).2) x ∧ PutsV (pick (.vredR u) (.vredC u) (.vredRX u) (.vredCX u)) u s
        (merged s u (fun q => (fillLane ty ((tree op lev (line (at2 q).1)).1.getD 0), 0))) x lat)
    ∧ (∃ x, fl (fun n => orFlags ((scanLine op lev (line n)).map (·.2))) x ∧ PutsV (pick (.vscanR u) (.vscanC u) (.vscanRX u) (.vscanCX u)) u s
        (merged s u (fun q => (fillLane ty ((scanLine op lev (line (at2 q).1)).getD (at2 q).2 (0, 0)).1, 0))) x lat)
    ∧ (let t := tree op 10 ((List.range 1024).map el)
       let r := t.1.getD (elEmpty ty (if w64 then bits u.imm 5 0 else u.c.toNat))
       PutsS (if w64 then .vredaX u else .vreda u) u s (if isI ty then BitVec.ofInt 64 (intOf ty r) else BitVec.ofNat 64 r) t.2
         (16 + if isS ty then 250 else 0)))
  ∧ ∀ (op : Nat → Nat → Res) (k : Nat) (l r : List (Option Nat)), l.length = 2 ^ k → r.length = 2 ^ k →
      (tree op (k + 1) (l ++ r)).1 = (match (tree op k l).1, (tree op k r).1 with
        | some a, some b => some (op a b).1
        | some a, none => some a
        | none, x => x)

/-- 10 R300: the elements of VLD and VST, their values and the frame. -/
def Obligations.VectorLoadStore : Prop :=
  ∀ (u : U) (s : State),
    let ty := u.mi.toNat
    let z := elemSize ty
    let lanes := (List.range 1024).filter (fun k => (s.gov u).getLsbD k)
    let base := alignTo z (s.sB u + imm16S u)
    let pitch := if u.e = 0 then BitVec.ofNat 64 (64 * z) else alignTo z (s.sE u)
    let sp : Bool := u.c.toNat = 1
    (s.vecRuns u).flatMap (fun e => (List.range (e.2 / z)).map (fun q => e.1 + BitVec.ofNat 64 (q * z)))
        = lanes.map (fun k => base + BitVec.ofNat 64 (k / 64) * pitch + BitVec.ofNat 64 (k % 64 * z))
    ∧ (∀ (s1 s2 t : State) (ps : List Piece) (m : List (Piece × (W64 × W64))) (later : Bool),
      s.reachRuns sp .read (s.vecRuns u) 0 = (s1, .ok ps) → s1.putsOff = (s2, later) → ps = [] ∨ later = false ∧ s2.readMeets ps = false →
      t = s2.settleLines (some s2.myKey) ps → t.screen true ⟨0, none⟩ ps = .ok m →
      Completes (.vld u) u s (fun r => ∃ x, ReadDone t x ps m ∧ WroteV x r u.a.toNat (fun k =>
        if (x.gov u).getLsbD k then
          fillLane ty (ofBytes (((t.loadBy t.me ps).drop (z * ((List.range k).filter (fun j => (x.gov u).getLsbD j)).length)).take z))
        else (x.me.vreg u.a.toNat).lane k) 0 (if sp then 72 else 1)))
    ∧ (∀ (s1 t : State) (ps : List Piece) (m : List (Piece × (W64 × W64))),
      s.reachRuns sp .write (s.vecRuns u) 0 = (s1, .ok ps) → PiecesReady s1 none t ps m →
      Completes (.vst u) u s (fun r => WriteDone t r ps m (lanes.flatMap (fun k => toBytes z ((s.opV 0 u.a).lane k).toNat))))

/-- 10 R301, R302, 02 R47-R51: parking. -/
def Obligations.Parking : Prop :=
  ∀ (u : U) (s : State),
    let c := s.myCtx
    let core := s.cu.core
    let n := u.a.toNat
    let v := s.opV 0 u.a
    let free := match parkOf (SMap.get 0 s.me.spmap n) with
      | some p => (s.parkClear c core p).setSpmap core s.cu.st n 0
      | none => s
    let was := parkOf (SMap.get 0 s.me.spmap n)
    let idle := s.me.pend.any (fun p => match p.kind with | .vspill _ => p.cap.iw.u.a == u.a | _ => false) = false
    (idle → ∀ i ∈ [Instr.vspill u, .vspillX u],
      (∀ p t, free.choosePark c core ⟨[], [], none, false⟩ = some p → (∀ b, p = .block b → was = none → s.putsOff.2 = false) →
        free.parkWrite c core p v = (t, .ok ()) →
        Completes i u s (fun r => SMap.get 0 r.me.spmap n = p.word
          ∧ match p with
            | .bank b k => (r.ag core b).vreg k = v
            | .quarter k q => ∀ j, j < 1024 → r.accAt core (free.quarterRow c core q + j) k = v.lane j
            | .block _ => True))
      ∧ (∀ p b, free.choosePark c core ⟨[], [], none, false⟩ = some p → p = .block b → was = none → s.putsOff.2 = true →
        Completes i u s (fun r => SMap.get 0 r.me.spmap n = p.word ∧ ∃ x, r.me.pend = s.me.pend ++ [x] ∧ x.kind = .vspill b))
      ∧ (free.choosePark c core ⟨[], [], none, false⟩ = none → exec i s = .next s.spillQ))
    ∧ (idle → ∀ i ∈ [Instr.vfill u, .vfillX u],
      (was = none → Completes i u s (fun r => r = s))
      ∧ (∀ b, was = some (.block b) → s.putsOff.2 = true →
        Completes i u s (fun r => r.me.locked (.v n) = true ∧ ∃ x, r.me.pend = s.me.pend ++ [x] ∧ x.kind = .vfill))
      ∧ (∀ p (s0 t : State) w, was = some p → (match p with | .block _ => s.putsOff = (s0, false) | _ => s0 = s) → s0.parkRead c core p = (t, .ok w) →
        Completes i u s (fun r => WroteV ((t.parkClear c core p).setSpmap core t.cu.st n 0) r n w.lane 0 1))
      ∧ (∀ p (s0 t : State) x va, was = some p → (match p with | .block _ => s.putsOff = (s0, false) | _ => s0 = s) → s0.parkRead c core p = (t, .error (.psn x va)) →
        exec i s = .next (t.raise .umem x va 0)))
    ∧ (∀ k q t w, s.parkRead c core (.quarter k q) = (t, .ok w) →
        t = s ∧ ∀ j, j < 1024 → w.lane j = s.accAt core (s.quarterRow c core q + j) k)

/-- 10 R296-R299: the other modes of VCVT. -/
def Obligations.BlockFormats : Prop :=
  ∀ (u : U) (s : State),
    (s.lane0 u = true →
      (let r := sliOfIeee Fmt.f64 3 (s.sB u).toNat
       PutsS (.vcvtSli32F64 u) u s (BitVec.ofNat 64 r.1) r.2 25)
      ∧ (let r := sliToIeee Fmt.f64 3 (rndOf u) (satOf u) ((s.sB u).toNat % 2 ^ 32)
         PutsS (.vcvtF64Sli32 u) u s (BitVec.ofNat 64 r.1) r.2 25))
    ∧ (∀ (ps : List Piece) (m : List (Piece × (W64 × W64))), s.readsDone = true → s.me.pend.any (·.hidden) = false →
      s.bxTile u u.mi.toNat u.a 0 .write = .ok ps → s.screen false ⟨1, none⟩ ps = .ok m →
      let given := if u.e ≠ 0 ∧ (s.sE u).getLsbD 16 = true then some ((s.sE u).toNat % 256, (s.sE u).toNat / 256 % 256) else none
      let rows := (rowsOf (s.opV 1 u.b).lanes).map (bxRow u.mi.toNat (cvtSrc u) u given)
      Completes (.vcvtBxQuantise u) u s (fun r => ∃ x, WriteDone s x ps m (rows.flatMap (·.1)) ∧ r = x.orVstat (orFlags (rows.map (·.2))) 4))
    ∧ (∀ (t : State) (ps : List Piece) (m : List (Piece × (W64 × W64))),
      s.bxTile u (cvtSrc u) u.b 1 .read = .ok ps → s.readMeets ps = false → t = s.settleLines (some s.myKey) ps → t.screen true ⟨0, none⟩ ps = .ok m →
      let n := ((bxSpans (cvtSrc u) u).map (·.2)).foldl (· + ·) 0
      let l := (chunks n 16 (t.loadBy t.me ps)).flatMap (bxUnrow (cvtSrc u) u.mi.toNat u (rndOf u) (satOf u))
      Completes (.vcvtBxDequantise u) u s (fun r => ∃ x, ReadDone t x ps m
        ∧ WroteV x r u.a.toNat (fun k => (l.getD k (0, 0)).1) (orFlags (l.map (·.2))) 4))

/-- 12 R330-R341: the matrix instructions at issue. 10 R303, R304: VCHAIN at issue. -/
def Obligations.ComputeCommands : Prop :=
  (∀ (u : U) (s t : State) (q' : Nat) (kind' : CmdKind), s.lane0 u = true →
    let c := s.myCtx
    let core := s.cu.core
    let q := u.mi.toNat
    let ctl := s.sE u
    let l := SMap.get [] (s.core core).fmtq q
    let f := l.headD 0
    let ta := if fAV f then vregTile (s.opV 0 u.a) (fRows f) (widthsA f) else .desc (s.sA u) (s.rdS (u.a.toNat + 1))
    let tb := if fBV f then vregTile (s.opV 1 u.b) 64 (widthsB f) else .desc (s.sB u) (s.rdS (u.b.toNat + 1))
    (s.holdsSide c core q = true → fmtOk (s.dev.featacc.getLsbD 1) (s.sA u) = true → l.length < 16 →
      Completes (.fmtPush u) u s (fun r => SMap.get [] (r.core core).fmtq q = l ++ [s.sA u] ∧ (∀ k, k ≠ core → r.core k = s.core k)
        ∧ { r.core core with fmtq := (s.core core).fmtq } = s.core core ∧ { r with cores := s.cores } = s))
    ∧ (s.holdsSide c core q = false → exec (.fmtPush u) s = .next s.priv)
    ∧ (s.holdsSide c core q = true → fmtOk (s.dev.featacc.getLsbD 1) (s.sA u) = false → exec (.fmtPush u) s = .next s.illegal)
    ∧ (s.holdsSide c core q = true → (fFull f = true → s.wholeEngine c core = true) → ¬(fFull f = true ∧ q = 1) → l ≠ [] →
      fRow0 f + fRows f ≤ (s.accRows c core).2 →
      (CmdReady s (.zero f) 0 (6 + q) ctl (some (fRow0 f, fRows f)) t q' kind' →
        Completes (.mxZero u) u s (fun r => Enqueued (t.popFmt core q) r c core q' kind' (ctlConsumes ctl) (ctlTp ctl)))
      ∧ (∀ md, (fAV f = true → u.a.toNat < 16) → (fBV f = true → u.b.toNat < 16) →
        (fAV f = false → tileOk u.a.toNat (s.sA u) (s.rdS (u.a.toNat + 1)) (s.winLen c s.myClu) (fRows f) ((widthsA f).headD 0) (widthsA f).length = true) →
        (fBV f = false → tileOk u.b.toNat (s.sB u) (s.rdS (u.b.toNat + 1)) (s.winLen c s.myClu) 64 ((widthsB f).headD 0) (widthsB f).length = true) →
        s.raceAll c (s.engKey c core (6 + q)) (s.engClk (s.engKey c core (6 + q)) (s.rs s.myRace).xclk) ⟨0, none⟩
          (s.operandPieces ta (fRows f) (widthsA f) ++ s.operandPieces tb 64 (widthsB f)) = .ok md →
        CmdReady s (.mma f ta tb) 0 (6 + q) ctl (some (fRow0 f, fRows f)) t q' kind' →
        Completes (if fN f = 0 then .mxMma u else .mxMmas u) u s
          (fun r => Enqueued ((t.recordMd md).popFmt core q) r c core q' kind' (ctlConsumes ctl) (ctlTp ctl))))
    ∧ (s.holdsSide c core q = true → s.ctlPriv ctl = false → ctlOk ctl = true → l = [] →
      ∀ i ∈ [Instr.mxMma u, .mxMmas u, .mxZero u], exec i s = .next (s.raise .fmtUnder 0 0 0)))
  ∧ (∀ (u : U) (s t : State) (bs : List Byte),
    let cons := ((List.range 3).map (fun k => u.imm.toNat / 2 ^ (5 * k) % 32)).take u.c.toNat
    let tp := u.b.toNat
    (∀ f, s.lineRead ⟨0, none⟩ (alignTo 64 (s.sA u)) 64 = (t, .error f) →
      exec (.vchain u) s = .next (if s.toksOk (tp :: cons) = true then f t else s.priv))
    ∧ (s.lineRead ⟨0, none⟩ (alignTo 64 (s.sA u)) 64 = (t, .ok bs) →
      (chainOk u.mi.toNat (words64 8 bs) = false → exec (.vchain u) s = .next t.illegal)
      ∧ (chainOk u.mi.toNat (words64 8 bs) = true →
        (t.toksOk (tp :: cons) = false → exec (.vchain u) s = .next t.priv)
        ∧ (t.toksOk (tp :: cons) = true →
          (t.eq s.cu.core (t.chainQ s.myCtx s.cu.core)).length < (if t.wholeEngine s.myCtx s.cu.core = true then 16 else 8) →
          Completes (.vchain u) u s (fun r =>
            Enqueued t r s.myCtx s.cu.core (t.chainQ s.myCtx s.cu.core) (.chain u.mi.toNat (words64 8 bs)) cons tp)))))

/-- 12 R330-R332, R342-R348: the copy instructions at issue. -/
def Obligations.CopyCommands : Prop :=
  ∀ (u : U) (s t : State) (q' : Nat) (kind' : CmdKind) (x : HRange), s.lane0 u = true →
    let c := s.myCtx
    let core := s.cu.core
    let ctl := s.sE u
    let a0 := s.sA u
    let a1 := s.rdS (u.a.toNat + 1)
    let b0 := s.sB u
    let b1 := s.rdS (u.b.toNat + 1)
    let len := (s.sC u).toNat
    let q := 9 + u.imm.toNat % 4
    let queued (i : Instr) (kind : CmdKind) (cls q : Nat) (rows : Option (Nat × Nat)) : Prop :=
      (CmdReady s kind cls q ctl rows t q' kind' →
        Completes i u s (fun r => Enqueued t r c core q' kind' (ctlConsumes ctl) (ctlTp ctl)))
      ∧ (s.ctlPriv ctl = false → ctlOk ctl = true → s.queueFor kind cls q ctl = none → s.engExhausted c core q = false → rows = none →
        Completes i u s (fun r => r = s))
    let nr := bits b0 27 16 + 1
    let row := bits b0 11 0
    let es := 2 ^ (u.imm.toNat / 2 ^ 12 % 16)
    let iw := if u.imm.getLsbD 11 then 8 else 4
    let booked := ctlHandle ctl ≠ 0 ∧ s.slotting c 1 ctl ≠ .free
    let sh := s.sC u
    let h := bits sh 63 48 + 1
    let w := bits sh 47 32 + 1
    let mp := bits sh 31 0
    (bits b0 63 28 = 0 → bits b0 15 12 = 0 → tileOk u.a.toNat a0 a1 (s.winLen c s.myClu) nr 256 1 = true → row + nr ≤ (s.accRows c core).2 →
      queued (.cpAcc u) (.acc (u.imm.getLsbD 15) row nr (.desc a0 a1)) 1 q (some (row, nr)))
    ∧ (∀ e ∈ ([(false, Instr.cpLd u, CmdKind.ld x a1.toNat b0.toNat len), (true, .cpSt u, .st x a1.toNat b0.toNat len)] : List (Bool × Instr × CmdKind)),
      s.handleCheck a0 a1 len e.1 [(a1.toNat, len)] = .ok x → s.myWin.holds b0 len = true → queued e.2.1 e.2.2 1 q none)
    ∧ (∀ e ∈ ([(false, Instr.cpG u), (true, .cpS u)] : List (Bool × Instr)),
      s.handleCheck a0 a1 0 e.1 [] = .ok x → s.myWin.holds b0 (len * es) = true → s.myWin.holds b1 (len * iw) = true → b1.toNat % iw = 0 →
      queued e.2 (.g e.1 x a1.toNat b0.toNat b1.toNat len es iw) 1 q none)
    ∧ (s.handleCheck a0 a1 ((h - 1) * mp + w) (u.imm.getLsbD 15) ((List.range h).map (fun i => (a1.toNat + i * mp, w))) = .ok x →
      tileOk u.b.toNat b0 b1 (s.winLen c s.myClu) h w 1 = true →
      queued (.cp2d u) (.d2 (u.imm.getLsbD 15) x a1.toNat (.desc b0 b1) h w mp) 1 q none)
    ∧ (dwOk b0 booked = true → s.myWin.holds a0 len = true →
      (b0.getLsbD 55 = true → s.fabOn = true ∧ (¬booked → s.holdsPort c (bits b0 47 44) = true ∧ s.portPeer (bits b0 47 44) = some (bits b0 63 56))) →
      (b0.getLsbD 55 = false → (s.win c (bits b0 51 48)).holds a1 len = true
        ∧ (b0.getLsbD 0 = true → (s.arrAddr c (bits b0 51 48) (BitVec.ofNat 64 (bits b0 24 3 * 8))).isSome = true)) →
      queued (.cpX u) (.x a0.toNat a1.toNat b0 len) 1 q none)
    ∧ (a0.toNat % 32 = 0 → s.myWin.holds a0 (32 * b0.toNat) = true → queued (.cpSend u) (.send a0.toNat b0.toNat) 3 13 none)

/-- 04 R98-R101, 07 R181, 12 R338, R341: engine events. -/
def Obligations.EngineEvents : Prop :=
  ∀ (e : Eng) (core q : Nat) (s : State) (c : Cmd), engAt e = some (core, q) →
    (s.nextCmd core q = some c → s.startable? core q c = true → s.outranked core (consumerRank q) c.consumes = false → (∀ x ∈ (7, q) :: c.consumes.map (fun t => (4, t)), x ∉ (s.core core).bad) →
      let c' := { c with started := true, susp := 0, clk := c.clk.join (s.consume core c.consumes).2, ended := c.total == 0 }
      let s' := ((s.consume core c.consumes).1.updCmd core q c.id (fun _ => c')).beginStep core q c'
      ((∀ f a b, c.kind ≠ .mma f a b) → exec (.engineCommandStart e) s = .next s')
      ∧ ∀ f a b d, c.kind = .mma f a b → s'.headCmd core q = some d →
          let r := (s'.outRows core d f).1
          let k := accKey core r 0
          (fZero f = true → exec (.engineCommandStart e) s = .next (s'.updCmd core q d.id (fun _ => { d with acc := List.replicate (64 * fRows f) 0 })))
          ∧ (fZero f = false → (∀ i ∈ span r (fRows f), s'.rowPsn core i = false) →
              exec (.engineCommandStart e) s = .next (s'.updCmd core q d.id (fun _ =>
                { d with acc := SMap.dense 0 (SMap.slice s'.mem.acc k (k + 64 * fRows f)) k (64 * fRows f) }))))
    ∧ ((∀ x, s.nextCmd core q = some x → s.startable? core q x = false ∨ s.outranked core (consumerRank q) x.consumes = true) → exec (.engineCommandStart e) s = .next s)
    ∧ (∀ f ta tb s1 c1, s.running e = some (core, q, c) → c.kind = .mma f ta tb → s.readLines c (pairLines core c f c.prog ta tb) = (s1, c1, none) →
      (s1.ctx c1.ctx).pmsel = [] → let (a, b) := c1.operands core f ta tb
      (mmaPair f c1.prog a b c1.acc).length = 64 * fRows f →
      ∃ r, exec (.matrixBlockPair e) s = .next r ∧ r.agents = s1.agents ∧ r.mem.bytes = s1.mem.bytes ∧ r.mem.spad = s1.mem.spad
        ∧ ∀ i j, i < fRows f → j < 64 →
          r.accAt core ((s1.accRows c1.ctx core).1 + fRow0 f + i) j = (mmaPair f c1.prog a b c1.acc).getD (64 * i + j) 0)
    ∧ (∀ f ta tb part p s1 c1, s.running e = some (core, q, c) → c.kind = .mma f ta tb → overlaps q = false →
      ((operandLines core c f ta tb).filter (fun p => (c.lineAt (p.a / 64)).isNone))[part]? = some p → s.readLines c [p] = (s1, c1, none) →
      exec (.engineLineAccess e part) s = .next (s1.updCmd core q c1.id (fun _ => c1)))
    ∧ (∀ f, s.running e = some (core, q, c) → c.kind = .zero f →
      ∃ r, exec (.matrixBlockPair e) s = .next r ∧ r.agents = s.agents ∧ r.mem.bytes = s.mem.bytes ∧ r.mem.spad = s.mem.spad
        ∧ ∀ i j, i < fRows f → j < 64 → r.accAt core ((s.accRows c.ctx core).1 + fRow0 f + i) j = 0)
    ∧ (∀ rest, s.eq core q = c :: rest → c.ended = true → c.fault = none → c.susp ≠ 4 → s.coreAway c.ctx core = false → (∀ f ∈ s.flights, f.cmd ≠ c.id) → (∀ x ∈ rest, x.id ≠ c.id) →
      (q = 8 ∨ q = 16 ∨ ctlHandle c.ctl = 0) →
      ∃ r, exec (.engineCommandComplete e) s = .next r ∧ r.eq core q = rest
        ∧ r.tok core c.tp = (if s.tok core c.tp = 0xFFFF then 0xFFFF else s.tok core c.tp + 1)
        ∧ (q = 8 → SMap.get 0 (r.core core).vcstat 0 = SMap.get 0 (s.core core).vcstat 0 ||| c.flags)
        ∧ (q = 16 → SMap.get 0 (r.core core).vcstat 1 = SMap.get 0 (s.core core).vcstat 1 ||| c.flags)
        ∧ (q < 8 ∨ 8 < q ∧ q < 16 → (r.rs (s.engKey c.ctx core q)).epoch = (s.rs (s.engKey c.ctx core q)).epoch + 1))
    ∧ (s.headCmd core q = some c → (∀ x ∈ s.eq core q, x.susp ≠ 4) → c.started = true → c.atBoundary = true → c.fault = none → c.susp = 0 →
      s.cmdOpen core q c = false →
      exec (.commandBoundarySuspend e) s = .next (s.updCmd core q c.id (fun x => { x with susp := 1 })))

/-- 04 R111, 12 R342-R346: the parts of copies. -/
def Obligations.EngineMoves : Prop :=
  ∀ (e : Eng) (core q part k p : Nat) (s : State) (c : Cmd), s.chosen e part = some ((core, q, c), k) → s.nextPart c k = some p →
    let n := c.partLen p
    let clu := cluOf core
    let movedFrom (s0 : State) (src dst : List Piece) : Prop :=
      ∀ s1 t c', s0.moveCheck core q c src dst = .ok s1 → s0.moveBytes core q c src dst = .ok (t, c') →
        (∃ r, exec (.engineLineAccess e part) s = .next r ∧ PartDone s1 r core q c (c'.did p) dst (s1.engLoad src))
        ∧ ((∀ x ∈ src, x.chk = false) → SameBytes s0 s1 ∧ s1.engLoad src = s0.engLoad src)
    let moved (src dst : List Piece) : Prop := movedFrom s src dst
    (
(∀ h off sp len, c.kind = .ld h off sp len → moved (memPieces s.dev h c.srcAt p n) (spPieces c.win clu c.dstAt p n))
      ∧ (∀ h off sp len, c.kind = .st h off sp len → moved (spPieces c.win clu c.srcAt p n) (memPieces s.dev h c.dstAt p n))
      ∧ (∀ h off t nr w pitch, c.kind = .d2 false h off t nr w pitch →
          moved (memPieces s.dev h c.srcAt p n) (spPieces c.win clu c.dstAt p n))
      ∧ (∀ h off t nr w pitch, c.kind = .d2 true h off t nr w pitch →
          moved (spPieces c.win clu c.srcAt p n) (memPieces s.dev h c.dstAt p n))
      ∧ (∀ src dst dw len, c.kind = .x src dst dw len → dw.getLsbD 55 = false → dw.getLsbD 0 = false →
          moved (spPieces c.win clu c.srcAt p n) (spPieces c.win2 (bits dw 51 48) c.dstAt p n))
      ∧ (∀ row nr t s', c.kind = .acc true row nr t →
          let ps := spPieces c.win clu (fun x => c.win.base + t.at 0 p x) 0 256
          s.moveCheck core q c ps [] = .ok s' → (s.ctx c.ctx).pmsel = [] →
          ∃ r, exec (.engineLineAccess e part) s = .next r ∧ r.agents = s'.agents ∧ SameBytes s' r
            ∧ ∀ j, j < 64 → r.accAt core ((s.accRows c.ctx core).1 + row + p) j = BitVec.ofNat 32 (ofBytes (((s'.engLoad ps).drop (4 * j)).take 4)))
      ∧ (∀ row nr t s', c.kind = .acc false row nr t →
          let ps := spPieces c.win clu (fun x => c.win.base + t.at 0 p x) 0 256
          s.moveCheck core q c [] ps = .ok s' →
          ∃ r d, exec (.engineLineAccess e part) s = .next r  ∧ PartDone s' r core q c (c.did p) ps d
            ∧ (SMap.rising s.mem.acc = true →
              d = (List.range 64).flatMap (fun j => toBytes 4 (s.accAt core ((s.accRows c.ctx core).1 + row + p) j).toNat))))
    ∧ (∀ sc h off data idx cnt es iw, c.kind = .g sc h off data idx cnt es iw →
        let ip := spPieces c.win clu (fun x => c.win.base + idx + p * iw + x) 0 iw
        ∀ si, s.firstPsn ip = none → s.moveCheck core q c ip [] = .ok si →
        let o := off + ofBytes (si.engLoad ip) * es
        let mp := memPieces s.dev h (fun x => h.base + o + x) 0 es
        let sp := spPieces c.win clu (fun x => c.win.base + data + p * es + x) 0 es
        o + es ≤ h.len → si.groupRefused c.ctx (h.base + o) es = none →
        (sc = true → movedFrom si sp mp) ∧ (sc = false → movedFrom si mp sp))

/-- 10 R305, R306, 12 R348, 17 R444: chain elements and send entries. -/
def Obligations.ChainsAndSends : Prop :=
  ∀ (e : Eng) (core q : Nat) (s : State) (c : Cmd),
    (∀ ty d t l, s.running e = some (core, q, c) → c.kind = .chain ty d →
      let ops := chOps (d.getD 0 0)
      let ks := 0 :: [1, 2].filter (fun k => ops.any (fun b => chSrc b == k && chFn b ≤ 7))
      let src (k : Nat) : List Piece := (l.filter (fun x => x.1 == k)).flatMap (·.2)
      let rd := t.chainReads c l ks
      let val (k : Nat) : Nat := if k = 3 then (d.getD 6 0).toNat % 2 ^ elemBits ty else ((rd.2.find? (fun x => x.1 == k)).map (·.2)).getD 0
      let r := chainRun ty val ops (val 0)
      s.chainStreams c core (elemSize ty) c.prog d (ks ++ [3]) = (t, .ok l) → t.firstPsn ((l.filter (fun x => x.1 != 3)).flatMap (·.2)) = none →
      t.chkPaused c.ctx = true ∨ (∀ x ∈ l, ∀ p ∈ x.2, p.chk = false) →
      let c' := { rd.1 with flags := c.flags ||| r.2, prog := c.prog + 1, ended := decide (c.total ≤ c.prog + 1) }
      ∃ x, exec (.chainElement e) s = .next x ∧ PartDone t x core q c c' (src 3) (toBytes (elemSize ty) r.1))
    ∧ (∀ (t : State) k (ps : List Piece), (∀ p ∈ ps, p.a % 64 + p.n ≤ 64) → ps.length ≤ 1 → (∀ x ∈ c.lines, x.1 ≠ k) →
      (t.chainLoad c k ps).2 = t.engLoad ps)
    ∧ (∀ list n t t2 off arv aoff, (s.runners e).find? (fun x => x.2.2.prog < x.2.2.total && x.2.2.susp != 4) = some (core, q, c) → c.kind = .send list n →
      let ps := spPieces c.win (cluOf core) (fun x => c.win.base + list + 32 * c.prog + x) 0 32
      let w := words64 4 (t.engLoad ps)
      let d := w.getD 1 0
      s.firstPsn ps = none → s.moveCheck core q c ps [] = .ok t → s.entryBad c.ctx w = false →
      c.win.holds (BitVec.ofNat 64 (bits (w.getD 0 0) 24 0)) (bits (w.getD 0 0) 47 32) = true → d.getLsbD 55 = false →
      let c1 := { c with prog := c.prog + 1 }
      t.reserveChecked core q c1 (c.winAt (bits d 51 48)) (bits d 51 48) (bits d 43 32) (bits (w.getD 0 0) 47 32) = .ok (t2, some (off, arv, aoff)) →
      let sends := c.sends.filter (fun x => x.entry != c.prog) ++ [⟨c.prog, 2, 0, 0, off, arv, aoff, 0, w⟩]
      exec (.sendEntry e) s = .next (t2.updCmd core q c.id (fun _ => { c1 with sends := sends, edge := false })))
    ∧ ∀ (w : Win) clu buf len r t, s.reserve w clu buf len = (t, some r) →
        ∃ o, s.bufferAt w.len buf = some o ∧
          let a := spKey clu (w.base + o)
          ofBytes (t.rdBytes true (a + 4) 2) = (ofBytes (s.rdBytes true (a + 4) 2) + 1) % 2 ^ 16
          ∧ (∀ sp x, ¬(sp = true ∧ a + 4 ≤ x ∧ x < a + 6) → t.rdB sp x = s.rdB sp x) ∧ { t with mem := s.mem } = s

/-- 13 R352-R356, 09 R275, 06 R159: a thread's own task instructions. -/
def Obligations.ThreadInstructions : Prop :=
  ∀ (u : U) (s : State),
    let core := s.cu.core
    let st := s.cu.st
    let c := s.myCtx
    let gone (i : Instr) : Prop := ∃ t, exec i s = .next t ∧ (t.ag core st).item = none ∧ (t.ag core st).run = .idle
      ∧ ∀ k j, agKey k j ≠ agKey core st → { t.ag k j with regs := (s.ag k j).regs } = s.ag k j
    let parked (pc : W64) (waits : List W64) (t : State) : Prop := s.park core st pc waits = (t, true)
    Completes (.hbeat u) u s (fun r => (r.ctx c).wdCnt = 0 ∧ { r.ctx c with wdCnt := (s.ctx c).wdCnt } = s.ctx c ∧ (∀ x, x ≠ c → r.ctx x = s.ctx x) ∧ { r with ctxs := s.ctxs } = s)
    ∧ (∀ it, s.me.item = some it → isSide st = false → PutsS (.workid u) u s it.workid 0 1)
    ∧ (∀ it l w, s.me.item = some it → isSide st = true → SMap.find? s.launches it.launch = some l →
        l.cores.find? (fun e => e.1 == core) = some (core, w) → PutsS (.workid u) u s w 0 1)
    ∧ (s.allDone = true → gone (.taskExit u) ∧ gone (.halt u))
    ∧ (s.stopAsked c = false → s.sideAsked c core (sideOf st) = false → Completes (.yieldOp u) u s (fun r => r = s))
    ∧ (∀ t, (s.stopAsked c = true ∨ s.sideAsked c core (sideOf st) = true) → s.allDone = true → s.exhausted 1 3 = false →
        parked s.nextPc [] t → exec (.yieldOp u) s = .next t)
    ∧ (∀ (t : State) (arr : Option (Nat × Nat)),
        let g := (s.sB u).toNat % 256
        let ts := if u.c.toNat = 63 then [] else [u.c.toNat]
        let waits := (if u.a = 0 then [] else [waitArr g s.myClu (s.sA u).toNat]) ++ ts.map (waitTok core)
        (if u.a = 0 then arr = none else ∃ a, s.arrAddr c s.myClu (s.sA u) = some a ∧ arr = some (a, g)) →
        s.toksOk ts = true → s.allDone = true → s.exhausted 1 3 = false →
        (parked s.nextPc waits t → exec (.taskSuspend u) s = .next t)
        ∧ (s.park core st s.nextPc waits = (t, false) →
          exec (.taskSuspend u) s = .next (if waits = [] then t.fin u else t.waitOn (.suspend ts arr))))
    ∧ ∀ pc waits t, parked pc waits t → ∃ it k, s.me.item = some it ∧ (t.ag core st).item = none
        ∧ k.ctx = it.ctx ∧ k.launch = it.launch ∧ k.workid = it.workid ∧ k.waits = waits ∧ k.isNew = false ∧ k.place ≠ none ∧ k.live = s.me.live
        ∧ if waits = [] then (t.core core).deque = k :: (s.core core).deque else (t.core core).waiting = (s.core core).waiting ++ [k]

/-- 13 R357, R358, 07 R190: posting tasks. -/
def Obligations.LaunchInstructions : Prop :=
  ∀ (u : U) (s s1 s2 : State) (bs qd : List Byte),
    let c := s.myCtx
    let x := s.sB u
    let q := x.toNat % 16
    let w0 := (words64 2 qd).getD 0 0
    let w1 := (words64 2 qd).getD 1 0
    let tail := w1.toNat % 2 ^ 32
    let launched (s1 : State) : State :=
      let k := s1.book.nextTask + 1
      let child : Task := { Task.blank c 0 (some (s.sA u)) (some (s.cu.core, u.c.toNat)) (words64 4 bs) with parent := some (s1.myTask.getD 0) }
      let b : State := { s1 with book := { s1.book with nextTask := k, tasks := SMap.put s1.book.tasks k child } }
      match s1.myTask with | some p => b.updTask p (fun y => if y.lent.isNone then { y with lent := some k } else y) | none => b
    (x.getLsbD 4 = true ∨ s.allPerformed = true ∧ s.queueOff q = true → exec (.taskLaunch u) s = .next s.illegal)
    ∧ (s.toksOk (if u.c.toNat = 63 then [] else [u.c.toNat]) = true → x.getLsbD 4 = false → x.toNat < 2 ^ 52 → s.allPerformed = true → s.queueOff q = false →
      s.lineRead ⟨0, none⟩ (BitVec.ofNat 64 (x.toNat / 32 * 32)) 32 = (s1, .ok bs) →
      s1.lineRead ⟨0, none⟩ (s1.queueVa c q) 16 = (s2, .ok qd) → queueOn w0 = true →
      (s2.ringFull c w0 w1 = true → Completes (.taskLaunch u) u s (fun r => WroteS s2 r u.a.toNat (BitVec.allOnes 64) 0 1))
      ∧ (∀ (s3 s4 : State) (ps : List Piece) (p : Piece) (pt : List Piece) (m1 m2 : List (Piece × (W64 × W64))), s2.ringFull c w0 w1 = false →
        s2.access s2.myCtx .write false (ringVa w0 tail) 32 = (s3, .ok ps) →
        s3.access s2.myCtx .write false (s3.queueVa s2.myCtx q + 8) 8 = (s4, .ok (p :: pt)) →
        s4.screen false ⟨1, none⟩ ps = .ok m1 → s4.screen false ⟨1, some 3⟩ (p :: pt) = .ok m2 → s4.exhausted 1 3 = false →
        Completes (.taskLaunch u) u s (fun r => ∃ t, WroteS t r u.a.toNat (BitVec.ofNat 64 tail) 0 1
          ∧ (QuietFor s4 s2.myCtx → bit (s4.cw s2.myCtx 3) 0 = false →
            StoredBytes s4 t (ps ++ [⟨false, p.a, 32, 4, false, 0, 0⟩]) (bytes64 ((words64 4 bs).take 3 ++ [0]) ++ toBytes 4 ((tail + 1) % 2 ^ 32))))))
    ∧ (∀ t, s.toksOk [u.c.toNat] = true → (s.sA u).toNat % 32 = 0 → s.allDone = true → s.lineRead ⟨0, none⟩ (s.sA u) 32 = (s1, .ok bs) →
      s1.exhausted 1 3 = false →
      let b := launched s1
      b.park b.cu.core b.cu.st b.nextPc [waitTok s.cu.core u.c.toNat] = (t, true) → exec (.taskLaunchw u) s = .next t)
    ∧ (∀ t, s.toksOk [u.c.toNat] = true → (s.sA u).toNat % 32 = 0 → s.allDone = true → s.lineRead ⟨0, none⟩ (s.sA u) 32 = (s1, .ok bs) →
      s1.exhausted 1 3 = false →
      let b := launched s1
      b.park b.cu.core b.cu.st b.nextPc [waitTok s.cu.core u.c.toNat] = (t, false) → exec (.taskLaunchw u) s = .next (t.waitOn (.suspend [u.c.toNat] none)))

/-- 13 R360-R362: the calendar instructions. -/
def Obligations.CalendarInstructions : Prop :=
  ∀ (u : U) (s s1 : State), s.lane0 u = true →
    let c := s.myCtx
    let o := s.sB u
    let clu := s.myClu
    let n := ofBytes (s.rdBytes true (spKey clu ((s.win c clu).base + o.toNat)) 8) / 2 ^ 60
    let fits := o.toNat % 16 = 0 ∧ (s.win c clu).holds o 16 = true ∧ (s.win c clu).holds o (if 1 ≤ n ∧ n ≤ 8 then 16 + 16 * n else 16) = true
    let h := (s.sA u).toNat % 2 ^ 32
    let q := (s.sC u).toNat % 2 ^ 32
    let r := s.sC u
    let slot := (s.sB u).toNat
    let dest := if u.a = 0 then none else some (s.cu.core, s.cu.st, u.a.toNat)
    let locked (t : State) : State := t.updMe (fun a => if u.a = 0 then a else { a with locks := .s u.a.toNat :: a.locks })
    (¬fits → exec (.calBook u) s = .next (s.raiseWin .read 8 o))
    ∧ (∀ x, fits → s.readChain c clu o.toNat = (s1, x) → s1.stopAsked c = true → Completes (.calBook u) u s (fun x => WroteS s1 x u.a.toNat 0 0 1))
    ∧ (∀ hdr st rs, fits → s.readChain c clu o.toNat = (s1, .ok hdr st rs) → s1.stopAsked c = false → s1.quotaFree c = true → s1.roomFor (clu / 8) c rs = true →
        (s1.freeRec (clu / 8)).isSome = true →
        ∃ t v, Completes (.calBook u) u s (fun x => WroteS t x u.a.toNat v 0 1)
          ∧ t = s1.newTask.1.putTask s1.newTask.2 { Task.blank c (clu / 8) none none [] with ranges := rs } true none (some (clu / 8, hdr, st)) dest
          ∧ ((SMap.find? t.book.tasks s1.newTask.2).bind (·.booking)).getD 0 = v.truncate 32 ∧ v.toNat < 2 ^ 32)
    ∧ (∀ hdr st rs, fits → s.readChain c clu o.toNat = (s1, .ok hdr st rs) → s1.stopAsked c = false → s1.quotaFree c = true →
        s1.roomFor (clu / 8) c rs = true → s1.freeRec (clu / 8) = none →
        Completes (.calBook u) u s (fun x => x = locked (s1.newTask.1.putTask s1.newTask.2
          { Task.blank c (clu / 8) none none [] with ranges := rs } true none (some (clu / 8, hdr, st)) dest)))
    ∧ (∀ hdr st rs, fits → s.readChain c clu o.toNat = (s1, .ok hdr st rs) → (s1.quotaFree c = false ∨ s1.roomFor (clu / 8) c rs = false) →
        Completes (.calBook u) u s (fun x => WroteS s1 x u.a.toNat 0 0 1))
    ∧ (∀ why hdr t v, fits → s.readChain c clu o.toNat = (s1, .bad why hdr) → s1.stopAsked c = false → (s1.freeRec (clu / 8)).isSome = true →
        s1.refuseChain (clu / 8) c why hdr = (t, v) → Completes (.calBook u) u s (fun x => WroteS t x u.a.toNat (v.setWidth 64) 0 1))
    ∧ (s.bookAt h = none → Completes (.calCancel u) u s (fun x => x = s))
    ∧ (∀ b, s.bookAt h = some b → (s.chain b.ctx).contains c = true →
        Completes (.calCancel u) u s (fun x => x = if b.st = 4 ∨ b.st = 5 then s else s.cancelBooking (hKey h)))
    ∧ (∀ b, s.bookAt h = some b → (s.chain b.ctx).contains c = false → exec (.calCancel u) s = .next s.priv)
    ∧ (s.bookAt q = none → PutsS (.calQueryStatus u) u s 0 0 4)
    ∧ (∀ b, s.bookAt q = some b → ((s.ctx c).depth = 0 ∨ s.tenant b.ctx = s.tenant c) → PutsS (.calQueryStatus u) u s b.status 0 4)
    ∧ (∀ b, s.bookAt q = some b → (s.ctx c).depth ≠ 0 → s.tenant b.ctx ≠ s.tenant c → exec (.calQueryStatus u) s = .next s.priv)
    ∧ (r.toNat < 2 ^ 10 → ((s.ctx c).depth = 0 ∨ s.holdsEng (s.tenant c) (bits r 9 8) (bits r 7 0) = true) →
        (bits r 7 0 < classSize (bits r 9 8) → (bits r 9 8 = 2 → groupPresent s.dev (bits r 7 0) 0 = true) → s.slotNo ≤ slot → slot ≤ s.slotNo + 1023 →
          PutsS (.calQuerySlot u) u s (s.slotWord (bits r 9 8) (bits r 7 0) slot) 0 4)
        ∧ ((classSize (bits r 9 8) ≤ bits r 7 0 ∨ slot < s.slotNo ∨ s.slotNo + 1023 < slot) →
          PutsS (.calQuerySlot u) u s (BitVec.allOnes 64) 0 4))

/-- 14 R375-R385, 13 R372: what an exception saves and where it goes. -/
def Obligations.Exceptions : Prop :=
  (∀ (s : State) (c : Cause) (cw a0 a1 : W64),
    let t := s.raise c cw a0 a1
    t.me.run = .faulted c.code ∧ t.me.wait = .none ∧ t.me.regs = s.pastFault.me.regs ∧ (s.cu.inLoop = false → t.me.regs = s.me.regs) ∧ t.me.regs.b = s.me.regs.b
    ∧ t.me.vstat = s.me.vstat ∧ t.me.ras = s.me.ras ∧ t.me.item = s.me.item
    ∧ (s.cu.cap = none → s.cu.inLoop = false → s.me.xfer = none → t.me.pc = s.nextPc))
  ∧ (∀ (s : State) (ctx core st : Nat) (t : TrapInfo) (frz : Bool) (fcap : List W64) (reps : List (List W64)),
    ctx < 2 ^ 16 → core < 128 → st < 16 → (s.ctx ctx).depth < 4 → reps.length ≤ 8 →
    let w := s.recordWords ctx core st t frz fcap reps
    let h := w.getD 0 0
    h.toNat % 2 ^ 16 = ctx ∧ bits h 23 16 = t.cause.code ∧ h.getLsbD 24 = t.cause.fatal ∧ bits h 31 28 = st ∧ bits h 35 34 = (s.ctx ctx).depth
    ∧ bits h 37 36 = 0 ∧ h.getLsbD 38 = frz ∧ h.getLsbD 39 = t.xaddr.isSome ∧ bits h 43 40 = reps.length
    ∧ w.getD 1 0 = t.addr ∧ w.getD 2 0 = t.xaddr.getD 0 ∧ w.getD 3 0 = t.cword ∧ w.getD 4 0 = t.aux0 ∧ w.getD 5 0 = t.aux1
    ∧ bits (w.getD 7 0) 63 57 = core ∧ (w.getD 7 0).toNat % 2 ^ 48 = s.slotNo % 2 ^ 48)
  ∧ (∀ (s t : State) (r : Rec) (c i : Nat) (up : List Nat), s.passesOn c r.cause = false →
    s.placeRecord c (s.ctx c).trap.seq r.fatal (s.entryOrder c r.fatal) r.words = (t, .done [i]) → (SMap.find? t.ctxs c).isSome = true →
    let d := s.deliver r (c :: up)
    (d.ctx c).trap.seq = ((s.ctx c).trap.seq + 1) % 65536
    ∧ (d.ctx c).trap.wrote = (t.ctx c).trap.wrote ++ [⟨i, t.entryVa c i, r.fatal, (s.ctx c).trap.seq, r.cause, dieOf r.core⟩]
    ∧ d.agents = t.agents ∧ d.mem = t.mem ∧ ∀ x, x ≠ c → d.ctx x = t.ctx x)
  ∧ ∀ (u : U) (s : State),
    ((s.ctx s.myCtx).depth = 0 → exec (.syscall u) s = .next s.priv)
    ∧ ((s.ctx s.myCtx).depth ≠ 0 → ∃ t, exec (.syscall u) s = .next t ∧ t.me.run = .faulted 18 ∧ t.me.pc = (s.fin u).me.pc
        ∧ t = (s.fin u).trap ⟨.brk, 1, s.sA u, 0, s.cu.pc, none, false, some (s.fin u).me.pc⟩)

/-- 14 R384, R387, 13 R371: handlers. -/
def Obligations.Handlers : Prop :=
  (∀ (u : U) (s : State), s.me.held = none →
    exec (.trapAck u) s = .next s.priv ∧ (bits (s.sA u) 63 9 = 0 → exec (.trapRet u) s = .next s.priv) ∧ exec (.trapReflect u) s = .next s.priv)
  ∧ (∀ (u : U) (s : State), bits (s.sA u) 63 9 ≠ 0 → exec (.trapRet u) s = .next s.illegal)
  ∧ (∀ (u : U) (s : State) (h : Held), s.me.held = some h →
    Completes (.trapAck u) u s (fun r => r.me = { s.me with held := some { h with acked := true } }
      ∧ (∀ k j, agKey k j ≠ agKey s.cu.core s.cu.st → r.ag k j = s.ag k j) ∧ { r with agents := s.agents, ctxs := s.ctxs } = s
      ∧ (∀ x, x ≠ s.myCtx → r.ctx x = s.ctx x) ∧ (h.acked = true → r.ctxs = s.ctxs)
      ∧ (h.acked = false → (SMap.find? s.ctxs s.myCtx).isSome = true →
          r.ctx s.myCtx = { s.ctx s.myCtx with trap := { (s.ctx s.myCtx).trap with hstate := .idle } })))
  ∧ (∀ (u : U) (s s1 : State) (h : Held) (w : List W64), s.me.held = some h → s.allDone = true → s.heldSet h = (s1, .ok [(h.addr, w)]) →
    let a := s1.ag (rCore w) (rStream w)
    let key := agKey (rCore w) (rStream w)
    ((s.sA u).toNat < 2 ^ 8 → (s1.chain (rCtx w)).contains s.myCtx = true → (SMap.find? s1.ctxs (rCtx w)).isSome = true → rStream w < 6 →
      rFrz w = false → s1.ctxHeld (rCtx w) = false → s1.frozen (rCtx w) (rCore w) = false →
      (List.find? (fun (e : Nat × Agent) => e.2.faultedBy (rCtx w) key (rCause w)) s1.agents).map (·.1) = some key → key ≠ agKey s.cu.core s.cu.st →
      ∃ t, exec (.trapRet u) s = .next t ∧ (t.ag s.cu.core s.cu.st).item = none
        ∧ (t.ag (rCore w) (rStream w)).run = .running ∧ (t.ag (rCore w) (rStream w)).pc = (a.placedAt (rEntry w (rStream w))).pc
        ∧ (t.ag (rCore w) (rStream w)).xfer = (a.placedAt (rEntry w (rStream w))).xfer
        ∧ (t.ag (rCore w) (rStream w)).replay = if rFatal w then [] else (s1.replayOf w ((s.sA u).toNat % 256)).2)
    ∧ ((s1.chain (rCtx w)).contains s.myCtx = true → (SMap.find? s1.ctxs (rCtx w)).isSome = true →
      let ended (t : State) : State := ((t.freeCaptures w).freeEntries s.myCtx [h.addr]).endHandler h
      ((s.sA u).toNat < 2 ^ 8 → exec (.trapRet u) s = .next (ended (if rStream w = 15 then s1 else s1.returnTo w ((s.sA u).toNat % 256))))
      ∧ (bits (s.sA u) 63 9 = 0 → (s.sA u).getLsbD 8 = true → rCtx w ≠ s.myCtx → exec (.trapRet u) s = .next (ended (s1.stopCtx (rCtx w)))))
    ∧ (∀ p up, (s1.chain s.myCtx).drop 1 = p :: up → ∃ t, exec (.trapReflect u) s = .next t ∧ (t.ag s.cu.core s.cu.st).item = none
      ∧ t = ((s1.freeEntries s.myCtx [h.addr]).deliver ⟨rCause w, rFatal w, rCtx w, rCore w, rStream w, 0, w⟩ (p :: up)).endHandler h))
  ∧ ∀ (s : State) (c core : Nat) (w : Wrote), (s.ctx c).trap.nextWrote = some w → s.handlerCore c w.die = some core →
      (s.ctx c).trap.hstate = .idle → s.ctxHeld c = false →
      ∃ t k, exec (.handlerStart c) s = .next t ∧ (t.core core).deque = k :: (s.core core).deque ∧ k.ctx = c
        ∧ k.held = some ⟨w.addr, w.entry, false, BitVec.ofNat 64 (bits (s.ctx c).trap.tvec 51 2 * 4)⟩ ∧ k.isNew = true
        ∧ ((SMap.find? s.ctxs c).isSome = true → (t.ctx c).trap.hstate = .unacked ∧ (t.ctx c).trap.wrote = (s.ctx c).trap.wrote.erase w
          ∧ (t.ctx c).trap.tcausea = (s.heldWords c w.addr).2.getD 0 0
          ∧ (t.ctx c).trap.taddra = (s.heldWords c w.addr).2.getD 1 0)

/-- 13 R364, R365, R367, 15 R399-R404, R409: contexts created, read and granted to. -/
def Obligations.ContextGrants : Prop :=
  ∀ (u : U) (s : State), s.lane0 u = true →
    let c := s.myCtx
    let x := (s.sA u).toNat
    let v := s.sB u
    let w := s.sC u
    let grant (k : Nat) (i : Instr) (P : State → Prop) : Prop :=
      s.isChild (s.sA u) = true → s.jobs.any (fun j => j.ctx == x && sameKind j.kind (.revoke k 0 0)) = false → Completes i u s P
    let held (l : List (Nat × Nat)) (r : State) : Prop :=
      ∃ t, (∀ e ∈ l, t.holdsSide x e.1 e.2 = true) ∧ t.agents = s.agents ∧ t.mem.bytes = s.mem.bytes
        ∧ (∀ y, y ≠ x → y ≠ s.tenant x → t.ctx y = s.ctx y)
        ∧ (∀ e ∈ l, s.holdsSide x e.1 e.2 = false → t.coreAway x e.1 = false →
          (∀ row col, 2048 * e.2 ≤ row → row < 2048 * (e.2 + 1) → col < 64 → t.accAt e.1 row col = 0) ∧ ∀ k, k < 16 → t.tok e.1 (16 * e.2 + k) = 0)
        ∧ (r = t ∨ ∃ core, r = t.settleOn x core)
    (∀ (t : State) (bs : List Byte), v.toNat % 128 = 0 → (s.ctx c).depth < 3 → s.lineRead ⟨0, none⟩ v 128 = (t, .ok bs) →
      let ws := words64 16 bs
      let pages := bits (ws.getD 4 0) 11 0
      blockBad ((s.ctx c).depth == 0) ws = false → t.overCharge (t.chargePath c) 0 pages = false → t.ctxs.length < 255 →
      Completes (.ctxCreate u) u s (fun r => ∃ q y, WroteS q r u.a.toNat (BitVec.ofNat 64 y) 0 1
        ∧ 1 ≤ y ∧ SMap.find? t.ctxs y = none ∧ (∀ k, 1 ≤ k → k < y → (SMap.find? t.ctxs k).isSome = true)
        ∧ (q.ctx y).stt = 1 ∧ (q.ctx y).depth = (s.ctx c).depth + 1 ∧ (q.ctx y).parent = c ∧ (∀ k, 1 ≤ k → k ≤ 6 → q.cw y k = ws.getD k 0)
        ∧ (∀ k, 8 ≤ k → k ≤ 12 → q.cw y k = 0) ∧ (q.ctx y).win = [] ∧ (0 < (s.ctx c).depth → q.tenNo y = t.tenNo c)
        ∧ ∀ z, z ≠ y → z ∉ t.chargePath c → q.ctx z = t.ctx z))
    ∧ (let y := if v = 0 then c else v.toNat
       let k := bits u.imm 3 0
       (((SMap.find? s.ctxs y).isSome = false ∨ (s.chain y).contains c = false) → exec (.ctxQuery u) s = .next s.priv)
       ∧ ((SMap.find? s.ctxs y).isSome = true → (s.chain y).contains c = true → PutsS (.ctxQuery u) u s
          (if k = 0 then BitVec.ofNat 64 ((s.ctx y).stt * 2 ^ 61 + (s.ctx y).depth * 2 ^ 16 + (s.ctx y).parent)
           else if k = 7 then 0 else if k = 6 ∧ s.cw y 6 = 0 then 1 else s.cw y k) 0 4))
    ∧ (s.isChild (s.sA u) = false → ∀ i ∈ [Instr.ctxGrantCores u, .ctxGrantMxh u, .ctxGrantCg u, .ctxGrantFx u, .ctxGrantQuota u, .ctxGrantMem u,
        .ctxGrantSpad u, .ctxGrantCal u, .ctxGrantHt u, .ctxGrantRun u], exec i s = .next s.priv)
    ∧ (s.isChild (s.sA u) = true → wordBad w.toNat v = false →
      (w.toNat ∈ [1, 5, 6] ∨ w.toNat = 3 ∧ v.getLsbD 0 = true → Completes (.ctxGrantSet u) u s (fun r => WordSet s r x w.toNat v))
      ∧ (w.toNat = 2 → (s.ctx c).depth = 0 → bits v 56 52 ≤ bits (s.cw x 13) 31 27 → Completes (.ctxGrantSet u) u s (fun r => WordSet s r x 2 v))
      ∧ (w.toNat = 2 → (s.ctx c).depth ≠ 0 → exec (.ctxGrantSet u) s = .next s.priv)
      ∧ (w.toNat = 4 → s.overCharge (s.chargePath x) (bits (s.cw x 4) 11 0) (bits v 11 0) = false →
          Completes (.ctxGrantSet u) u s (fun r => r.cw x 4 = v ∧ ∀ y, y ∉ s.chargePath x → r.ctx y = s.ctx y)))
    ∧ (bits w 63 1 = 0 → (∀ e ∈ sidesNamed 1 v w, s.holdsSide c e.1 e.2 = true) → grant 1 (.ctxGrantCores u) (held (sidesNamed 1 v w)))
    ∧ (bits w 63 2 = 0 → (∀ e ∈ sidesNamed 2 v w, s.holdsSide c e.1 e.2 = true) → grant 2 (.ctxGrantMxh u) (held (sidesNamed 2 v w)))
    ∧ (bits w 63 8 = 0 →
        (∀ e ∈ engsNamed 3 v w, s.holdsGroup c e.2 = true ∧ ∀ t ∈ s.tenants, t ≠ s.tenant x → s.holdsGroup t e.2 = false) →
        grant 3 (.ctxGrantCg u) (fun r => r.cw x 12 = s.cw x 12 ||| v ∧ r.cw x 13 = s.cw x 13 ||| w <<< 48 ∧ (∀ k, k ≠ 12 → k ≠ 13 → r.cw x k = s.cw x k)
          ∧ (∀ y, y ≠ x → r.ctx y = s.ctx y) ∧ { r with ctxs := s.ctxs } = s))
    ∧ (bits v 63 16 = 0 → w = 0 → (∀ k, k < 16 → v.getLsbD k = true → s.holdsPort c k = true) →
        grant 4 (.ctxGrantFx u) (fun r => WordSet s r x 13 (s.cw x 13 ||| v <<< 32)))
    ∧ (w = 0 → v.toNat ≤ bits (s.cw c 14) 63 48 → bits (s.cw x 14) 63 48 ≤ v.toNat →
        grant 5 (.ctxGrantQuota u) (fun r => WordSet s r x 14 (setBits (s.cw x 14) 63 48 v.toNat)))
    ∧ (w = 0 → v.toNat ≤ bits (s.cw c 15) 63 32 → bits (s.cw x 15) 63 32 ≤ v.toNat →
        grant 6 (.ctxGrantMem u) (fun r => WordSet s r x 15 (setBits (s.cw x 15) 63 32 v.toNat)))
    ∧ (w = 0 → v.toNat ≤ bits (s.cw c 13) 31 27 → bits (s.cw x 13) 31 27 ≤ v.toNat →
        grant 9 (.ctxGrantHt u) (fun r => WordSet s r x 13 (setBits (s.cw x 13) 31 27 v.toNat)))
    ∧ (let clu := w.toNat
       let b := bits v 18 0 * 64
       let l := bits v 37 19 * 64
       let cap := bits v 44 38
       let others := ((s.ctxs.filter (fun e => e.2.depth != 0 && e.1 != x)).map (fun e => (s.win e.1 clu).cap)).foldl (· + ·) 0
       bits v 63 45 = 0 → clu < 16 → b ≤ l → (s.win c clu).base ≤ b → l ≤ (s.win c clu).lim → ((s.ctx c).depth = 0 ∨ cap ≤ (s.win c clu).cap) →
       others + cap + (s.win rootCtx clu).chkLen ≤ 64 → (s.ctx rootCtx).depth = 0 →
       grant 7 (.ctxGrantSpad u) (fun r => (r.win x clu).base = b ∧ (r.win x clu).lim = l ∧ (r.win x clu).cap = cap
         ∧ (∀ a, b ≤ a → a < l → ((s.win x clu).lim ≤ (s.win x clu).base ∨ a < (s.win x clu).base ∨ (s.win x clu).lim ≤ a) → r.rdB true (spKey clu a) = 0)
         ∧ r.agents = s.agents ∧ r.mem.bytes = s.mem.bytes))
    ∧ ((s.ctx c).depth = 0 → bits w 63 1 = 0 → calWordOk v = true →
        (∀ o ∈ s.tenants, o ≠ x → s.shareOn x o (bits w 0 0) = true → ∀ n, n < 1024 → ¬(inWindow v n = true ∧ s.windowOf o (bits w 0 0) n = true)) →
        grant 8 (.ctxGrantCal u) (fun r => SMap.get 0 (r.ctx x).slices (bits w 0 0) = v ∧ (∀ y, y ≠ x → r.ctx y = s.ctx y) ∧ { r with ctxs := s.ctxs } = s))
    ∧ (v = 1 → w = 0 →
        grant 10 (.ctxGrantRun u) (fun r =>
          ((s.ctx x).stt ≠ 1 → (s.ctx x).stt ≠ 3 → r = s)
          ∧ ((s.ctx x).stt = 1 ∨ (s.ctx x).stt = 3 → (∀ y ∈ s.subtree x, (s.ctx y).carried = [] ∧ (s.ctx y).saved = none ∧ (s.ctx y).aside.isEmpty = true) →
            (r.ctx x).stt = 2 ∧ (r.ctx x).req = false ∧ ∀ y, y ≠ x → r.ctx y = s.ctx y)))

/-- 13 R365, R366, R370, R373, 15 R411, 01 R39, R40: revocations, destructions, invalidations, resets. -/
def Obligations.Jobs : Prop :=
  (∀ (u : U) (s : State), s.lane0 u = true → s.exhausted 1 0 = false →
    let x := (s.sA u).toNat
    let v := s.sB u
    let w := s.sC u
    let tok := u.e.toNat
    let child : Prop := s.toksOk [tok] = true ∧ s.isChild (s.sA u) = true
    let leaves (i : Instr) (k : Nat) : Prop := child → Completes i u s (fun r => JobLeft s r (.revoke k v w) x tok [] s.ctxs)
    (¬child → ∀ i ∈ [Instr.ctxRevokeCores u, .ctxRevokeMxh u, .ctxRevokeCg u, .ctxRevokeFx u, .ctxRevokeQuota u, .ctxRevokeMem u, .ctxRevokeSpad u,
        .ctxRevokeCal u, .ctxRevokeHt u, .ctxRevokeRun u, .ctxDestroy u], exec i s = .next s.priv)
    ∧ (bits w 63 1 = 0 → leaves (.ctxRevokeCores u) 1) ∧ (bits w 63 2 = 0 → leaves (.ctxRevokeMxh u) 2) ∧ (bits w 63 8 = 0 → leaves (.ctxRevokeCg u) 3)
    ∧ (bits v 63 16 = 0 → w = 0 → leaves (.ctxRevokeFx u) 4)
    ∧ (bits v 63 45 = 0 → w.toNat < 16 → bits v 18 0 ≤ bits v 37 19 → (s.win x w.toNat).base ≤ bits v 18 0 * 64 →
        bits v 37 19 * 64 ≤ (s.win x w.toNat).lim → bits v 44 38 ≤ (s.win x w.toNat).cap → leaves (.ctxRevokeSpad u) 7)
    ∧ ((s.ctx s.myCtx).depth = 0 → bits w 63 1 = 0 → leaves (.ctxRevokeCal u) 8)
    ∧ (w = 0 → v.toNat ≤ bits (s.cw x 13) 31 27 → leaves (.ctxRevokeHt u) 9)
    ∧ (child → s.jobs = [] → s.coreAway s.myCtx s.cu.core = false →
      (w = 0 → v.toNat ≤ bits (s.cw x 14) 63 48 → Completes (.ctxRevokeQuota u) u s (fun r =>
        bits (r.cw x 14) 63 48 = v.toNat ∧ bits (r.cw x 14) 47 0 = bits (s.cw x 14) 47 0 ∧ r.jobs = [] ∧ r.tok s.cu.core tok = s.tokUp s.cu.core tok
          ∧ r.agents = s.agents ∧ r.mem = s.mem))
      ∧ (w = 0 → v.toNat ≤ bits (s.cw x 15) 63 32 → Completes (.ctxRevokeMem u) u s (fun r =>
        bits (r.cw x 15) 63 32 = v.toNat ∧ bits (r.cw x 15) 31 0 = bits (s.cw x 15) 31 0 ∧ r.jobs = [] ∧ r.tok s.cu.core tok = s.tokUp s.cu.core tok
          ∧ r.agents = s.agents ∧ r.mem = s.mem))
      ∧ (v = 1 → w = 0 → (s.ctx x).stt ≠ 2 → (s.ctx x).stopping = false → Completes (.ctxRevokeRun u) u s (fun r =>
        r.jobs = [] ∧ r.ctxs = s.ctxs ∧ r.tok s.cu.core tok = s.tokUp s.cu.core tok ∧ r.agents = s.agents ∧ r.mem = s.mem))
      ∧ (v = 1 → w = 0 → (s.ctx x).stt = 2 → Completes (.ctxRevokeRun u) u s (fun r =>
        (∃ j, r.jobs = [j] ∧ j.kind = .revoke 10 1 0 ∧ j.ctx = x ∧ j.tok = tok) ∧ (r.ctx x).req = true ∧ ((s.ctx x).req = false → (r.ctx x).left = s.limitOf x)
          ∧ r.cores = s.cores ∧ r.agents = s.agents ∧ r.mem = s.mem)))
    ∧ (child → Completes (.ctxDestroy u) u s (fun r =>
        JobLeft s r .destroy x tok [(s.ctx x).stt] (s.updCtx x (fun y => { y with stt := 4 })).ctxs))
    ∧ (let a := s.sA u
       let y := if bits a 15 0 = 0 then s.myCtx else bits a 15 0
       let b := u.b.toNat
       bits a 63 18 = 0 → (SMap.find? s.ctxs y).isSome = true → s.toksOk [u.c.toNat] = true →
       (bits a 17 16 = 0 → 2 ≤ b → b % 2 = 0 → (s.chain y).contains s.myCtx = true → s.rdS (b + 1) ≠ 0 →
          Completes (.tlbInvRange u) u s (fun r => ∃ before, JobLeft s r (.tlbRange v.toNat (s.rdS (b + 1)).toNat) y u.c.toNat before s.ctxs))
       ∧ (bits a 17 16 = 0 → 2 ≤ b → b % 2 = 0 → (s.chain y).contains s.myCtx = true → s.rdS (b + 1) = 0 → s.jobs = [] → s.coreAway s.myCtx s.cu.core = false →
          Completes (.tlbInvRange u) u s (fun r => r.jobs = [] ∧ r.tok s.cu.core u.c.toNat = s.tokUp s.cu.core u.c.toNat ∧ r.dev = s.dev ∧ r.agents = s.agents
            ∧ r.mem = s.mem))
       ∧ (bits a 17 16 = 1 → b = 0 → (s.chain y).contains s.myCtx = true →
          Completes (.tlbInvSpace u) u s (fun r => JobLeft s r .tlbSpace y u.c.toNat [] s.ctxs))
       ∧ (bits a 17 16 = 2 → (s.ctx s.myCtx).depth = 0 → Completes (.tlbInvHandle u) u s (fun r => JobLeft s r (.handle v.toNat) y u.c.toNat [] s.ctxs))
       ∧ (bits a 17 16 = 2 → (s.ctx s.myCtx).depth ≠ 0 → exec (.tlbInvHandle u) s = .next s.priv)
       ∧ (bits a 17 16 = 3 → ∀ i ∈ [Instr.tlbInvRange u, .tlbInvSpace u, .tlbInvHandle u], exec i s = .next s.illegal))
    ∧ (let k := bits (s.sA u) 6 0
       (bits (s.sA u) 63 9 ≠ 0 ∨ (s.sA u).getLsbD 7 = true → exec (.coreReset u) s = .next s.illegal)
       ∧ (bits (s.sA u) 63 9 = 0 → (s.sA u).getLsbD 7 = false → (s.toksOk [u.c.toNat] = false ∨ k = s.cu.core) → exec (.coreReset u) s = .next s.priv)
       ∧ (bits (s.sA u) 63 9 = 0 → (s.sA u).getLsbD 7 = false → s.toksOk [u.c.toNat] = true → k ≠ s.cu.core →
          ((s.ctx s.myCtx).depth = 0 ∨ s.wholeEngine s.myCtx k = true) → Completes (.coreReset u) u s (fun r => ∃ (q : State) (j : Job), j.kind = .reset k ∧ j.tok = u.c.toNat ∧ q.agents = s.agents ∧ q.cores = s.cores
            ∧ q.mem = s.mem ∧ q.jobs = s.jobs ++ [j]
            ∧ let b := ((q.resetCore k ((s.sA u).getLsbD 8)).settled).kick
              r = match b.jobs.find? (fun i => i.id == j.id) with | some j' => if b.jobReady j' = true then b.endJob j' else b | none => b))))
  ∧ (∀ (s : State) (core : Nat) (rq : Bool),
      let r := s.resetCore core rq
      (r.core core).toks = [] ∧ (r.core core).fmtq = [] ∧ (r.core core).dq = [] ∧ (r.core core).tokovf = 0
        ∧ (∀ q, ∀ c ∈ r.eq core q, c.susp = 4)
        ∧ ∀ row col, row < 4096 → col < 64 → r.accAt core row col = 0)
  ∧ (∀ (s : State) (j : Job), s.jobs = [j] →
      let done (i : Instr) : Prop := (s.jobReady j = false → exec i s = .next s)
        ∧ (s.jobReady j = true → (s.applyJob j).jobs = [j] → (s.applyJob j).coreAway j.own j.core = false → ∃ t, exec i s = .next t ∧ t.jobs = [] ∧ t.tok j.core j.tok = (s.applyJob j).tokUp j.core j.tok
          ∧ t.agents = (s.applyJob j).agents ∧ t.ctxs = (s.applyJob j).ctxs ∧ t.dev = (s.applyJob j).dev ∧ t.mem = (s.applyJob j).mem)
      (∀ k v w, j.kind = .revoke k v w → done (.revocationComplete j.id)) ∧ (∀ b n, j.kind = .tlbRange b n → done (.tlbInvComplete j.id))
        ∧ (j.kind = .tlbSpace → done (.tlbInvComplete j.id)) ∧ (∀ n, j.kind = .handle n → done (.handleInvComplete j.id))
        ∧ (j.kind = .destroy → done (.destroyComplete j.id)))
  ∧ (∀ (s : State) (j : Job) (v w : W64),
      (j.kind = .revoke 3 v w → ∀ y ∈ s.subtree j.ctx, ∀ g, (g < 64 → v.getLsbD g = true) → (64 ≤ g → g < 72 ∧ w.getLsbD (g - 64) = true) →
        (s.applyJob j).holdsGroup y g = false)
      ∧ (j.kind = .revoke 4 v w → ∀ y ∈ s.subtree j.ctx, ∀ k, k < 16 → v.getLsbD k = true → (s.applyJob j).holdsPort y k = false)
      ∧ (j.kind = .revoke 7 v w → j.ctx ≠ rootCtx → (SMap.find? s.ctxs j.ctx).isSome = true → bits v 18 0 ≤ bits v 37 19 →
        let r := (s.applyJob j).win j.ctx w.toNat
        r.base = bits v 18 0 * 64 ∧ r.lim = bits v 37 19 * 64 ∧ r.cap = bits v 44 38)
      ∧ (j.kind = .revoke 9 v w → ∀ e ∈ (s.applyJob j).dev.hnd, e.1 = j.ctx → v ≠ 0 ∧ e.2.1 < 2 ^ v.toNat)
      ∧ (j.kind = .destroy → ∀ y ∈ s.subtree j.ctx, y ≠ rootCtx → s.book.recs = [] → s.book.tasks = [] → SMap.find? (s.applyJob j).ctxs y = none))

/-- 13 R368, R369: control and status registers. -/
def Obligations.ControlRegisters : Prop :=
  ∀ (u : U) (s : State), s.lane0 u = true →
    let n := csrNo u
    let v := s.sB u
    let c := s.myCtx
    let core := s.cu.core
    let rdwr := [Instr.csrRd u, .csrWr u, .csrSwap u]
    let writes (P : State → Prop) : Prop := Completes (.csrWr u) u s P
    (n = 0x012 → isSide s.cu.st = true → ∀ i ∈ rdwr, exec i s = .next s.wrongAgent)
    ∧ (0x040 ≤ n → n < 0x080 → (s.ctx c).depth ≠ 0 → ∀ i ∈ rdwr, exec i s = .next s.priv)
    ∧ (n = 0x01D ∨ n = 0x01E → 1 < (s.ctx c).depth → ∀ i ∈ rdwr, exec i s = .next s.priv)
    ∧ (0x100 ≤ n → n < 0x110 → s.holdsSide c core ((n - 0x100) / 8) = false → ∀ i ∈ rdwr, exec i s = .next s.priv)
    ∧ (0x110 ≤ n → n < 0x130 → s.holdsSide c core ((n - 0x110) / 16) = false → ∀ i ∈ rdwr, exec i s = .next s.priv)
    ∧ (s.csrGate n = none →
      Completes (.csrRd u) u s (fun r => WroteS (s.csrTouched n) r u.a.toNat (s.csrValue n) 0 4)
      ∧ (n < 0x110 ∨ n % 2 = 1 → s.csrTouched n = s)
      ∧ (∀ t, s.csrWrite n v = .done t → writes (fun r => r = t))
      ∧ (∀ t, (s.csrTouched n).csrWrite n v = .done t → Completes (.csrSwap u) u s (fun r => WroteS t r u.a.toNat (s.csrValue n) 0 4))
      ∧ (n ∈ [0x000, 0x003, 0x004, 0x005, 0x006, 0x008, 0x009, 0x00A, 0x00B, 0x018, 0x019, 0x01B] ∨ 0x030 ≤ n ∧ n < 0x048 → writes (fun r => r = s))
      ∧ ((SMap.find? s.ctxs c).isSome = true →
        (n = 0x001 → writes (fun r => r.csrValue 0x001 = v &&& 0x000FFFFFFFFFFFFD ∧ r.agents = s.agents ∧ r.cores = s.cores ∧ r.mem = s.mem))
        ∧ (n = 0x007 → writes (fun r => r.csrValue 0x007 = v &&& 0x000FFFFFFFFFF800 ∧ r.agents = s.agents ∧ r.cores = s.cores ∧ r.mem = s.mem))
        ∧ (n = 0x002 → writes (fun r => bits (r.csrValue 0x002) 63 32 = bits v 63 32 ∧ bits (r.csrValue 0x002) 4 1 = min 8 (bits v 4 1)
            ∧ ((r.csrValue 0x002).getLsbD 0 = (v.getLsbD 0 && s.dev.featacc.getLsbD 4)) ∧ r.agents = s.agents ∧ r.cores = s.cores ∧ r.mem = s.mem)))
      ∧ (n = 0x010 → writes (fun r => OnlyMe s r ∧ (let a := s.me.landFlags (s.cycle - 1); r.me = { a with vstat := a.vstat &&& ~~~ v })
          ∧ (s.me.flagq = [] → r.me = { s.me with vstat := s.me.vstat &&& ~~~ v })))
      ∧ (n = 0x011 → writes (fun r => r.me = { s.me with issdiag := v &&& 1 } ∧ OnlyMe s r))
      ∧ (n = 0x012 → writes (fun r => r.me = { s.me with live := v &&& ~~~ 1 } ∧ OnlyMe s r))
      ∧ (n = 0x013 → writes (fun r => r.csrValue 0x013 = s.csrValue 0x013 &&& ~~~ v ∧ (∀ k, k ≠ core → r.core k = s.core k) ∧ { r with cores := s.cores } = s))
      ∧ (n = 0x014 → writes (fun r => r.csrValue 0x014 = s.csrValue 0x014 &&& ~~~ v
          ∧ (r.core core).tokovf &&& ~~~ s.ovfMask = (s.core core).tokovf &&& ~~~ s.ovfMask ∧ (∀ k, k ≠ core → r.core k = s.core k) ∧ { r with cores := s.cores } = s)))
    ∧ (∀ i ∈ [Instr.dirtylogEnable u, .dirtylogDisable u, .dirtylogExport u, .dirtylogImport u],
        Completes i u s (fun r => r = s.dirtyWrite v) ∧ ((s.ctx c).dirty.reg.getLsbD 1 = true → Completes i u s (fun r => r = s)))
    ∧ ((SMap.find? s.ctxs c).isSome = true → s.dev.featacc.getLsbD 6 = true → bits v 3 0 = 0 → bits (s.ctx c).dirty.reg 1 0 = 1 → (s.ctx c).dirty.st ≠ 1 →
        Completes (.dirtylogDisable u) u s (fun r => bits (r.ctx c).dirty.reg 1 0 = 0 ∧ bits (r.ctx c).dirty.reg 51 6 = bits v 51 6 ∧ r.agents = s.agents
          ∧ r.mem = s.mem))

/-- 03 R93, 07 R212, 16 R421, R430, 02 R51-R69, 17 R437: the writes of control registers that act. -/
def Obligations.RegisterEffects : Prop :=
  (∀ (u : U) (s : State), s.lane0 u = true → s.csrGate (csrNo u) = none →
    let n := csrNo u
    let v := s.sB u
    let c := s.myCtx
    let core := s.cu.core
    let clu := cluOf core
    let x := SMap.get 0 s.dev.hsem (n - 0x060)
    let k := core * 16 + (n - 0x110) / 2
    let pmc := SMap.get 0 (s.ctx c).pmc k
    (v.getLsbD 0 = false ∨ (s.ctx c).chkBusy = true → Completes (.chkresetGo u) u s (fun r => r = s))
    ∧ (v.getLsbD 0 = true → (s.ctx c).chkBusy = false → (SMap.find? s.ctxs c).isSome = true →
        Completes (.chkresetGo u) u s (fun r => (r.ctx c).chkBusy = true ∧ r.mem.bytes = s.mem.bytes ∧ r.mem.spad = s.mem.spad
          ∧ ∀ key, ((s.ctx c).depth = 0 ∨ s.holdsGroup c (placeOf s.dev (key * 64)).1 = true) → SMap.find? r.mem.md key = none))
    ∧ (bits v 1 0 = 3 → Completes (.blogWrite u) u s (fun r => r = s))
    ∧ (bits v 1 0 = 1 → s.dev.featacc.getLsbD 5 = true → (SMap.find? s.ctxs (s.tenant c)).isSome = true →
        Completes (.blogWrite u) u s (fun r =>
          let g := (r.ctx (s.tenant c)).blog
          bits g.reg 1 0 = 1 ∧ bits g.reg 63 16 = bits v 63 16 ∧ (∀ j, j = 2 ∨ j = 3 → g.reg.getLsbD j = ((s.ctx (s.tenant c)).blog.reg.getLsbD j && !v.getLsbD j))
            ∧ (bits (s.ctx (s.tenant c)).blog.reg 1 0 ≠ 1 → g.seq = 0 ∧ g.pos = 0) ∧ r.agents = s.agents ∧ r.cores = s.cores ∧ r.mem = s.mem))
    ∧ Completes (.bcmbaseWrite u) u s (fun r => r = s.wrBcmbase v)
    ∧ (let w := s.win c clu
       let ok : Prop := s.chkOn = true ∧ bits v 22 16 ≤ w.cap ∧ (bits v 8 0 + bits v 22 16) * 65536 ≤ w.lim - w.base
       (¬ok → Completes (.chkregWrite u) u s (fun r => r = s))
       ∧ (ok → (SMap.find? s.ctxs c).isSome = true → Completes (.chkregWrite u) u s (fun r => (r.win c clu).chkBase = bits v 8 0 ∧ (r.win c clu).chkLen = bits v 22 16
          ∧ (r.win c clu).base = w.base ∧ (r.win c clu).lim = w.lim ∧ (r.win c clu).cap = w.cap ∧ r.agents = s.agents ∧ r.mem.bytes = s.mem.bytes ∧ r.mem.spad = s.mem.spad)))
    ∧ ((s.accRows c core).2 = 0 → Completes (.accfreeWrite u) u s (fun r => r = s))
    ∧ ((s.accRows c core).2 ≠ 0 → s.quartersIn c core ((List.range 64).filter (fun j => bit (s.accFree c core) j && !bit v j)) = [] →
        Completes (.accfreeWrite u) u s (fun r => r.accFree c core = v ∧ (∀ j, j ≠ core → r.core j = s.core j) ∧ { r with cores := s.cores } = s))
    ∧ (0x050 ≤ n → n < 0x060 →
        let w := v &&& 0x873F0007
        let m := 2 ^ isetWays w
        let legal : Prop := isetWays w ≤ 6 ∧ isetFirst w % m = 0 ∧ isetCkg w ≤ 4
          ∧ ∀ e ∈ s.dev.iset, e.1 ≠ n - 0x050 → isetEn e.2 = true → isetFirst w + m ≤ isetFirst e.2 ∨ isetFirst e.2 + 2 ^ isetWays e.2 ≤ isetFirst w
        Completes (.isetWrite u) u s (fun r => (legal → SMap.get 0 r.dev.iset (n - 0x050) = w)
          ∧ (¬legal → isetEn (SMap.get 0 r.dev.iset (n - 0x050)) = false) ∧ (∀ j, j ≠ n - 0x050 → SMap.get 0 r.dev.iset j = SMap.get 0 s.dev.iset j)
          ∧ (isetEn (SMap.get 0 s.dev.iset (n - 0x050)) = false → r.mem.bytes = s.mem.bytes) ∧ r.agents = s.agents ∧ r.cores = s.cores ∧ r.mem.spad = s.mem.spad))
    ∧ (0x060 ≤ n → n < 0x080 →
      (bits v 1 0 = 3 → bits x 1 0 = 0 → Completes (.hsemAcquire u) u s (fun r => SMap.get 0 r.dev.hsem (n - 0x060) = setBits x 1 0 3 ∧ SMap.get 0 r.dev.hsemLast (n - 0x060) = 3
          ∧ (∀ j, j ≠ n - 0x060 → SMap.get 0 r.dev.hsem j = SMap.get 0 s.dev.hsem j) ∧ r.mem = s.mem ∧ r.agents = s.agents ∧ r.cores = s.cores))
      ∧ (bits v 1 0 = 3 → bits x 1 0 ≠ 0 → Completes (.hsemAcquire u) u s (fun r => r = s.semServed (n - 0x060) 3 ∧ r.dev.hsem = s.dev.hsem))
      ∧ (bits v 1 0 = 0 → bits x 1 0 = 3 → s.allPerformed = true → s.exhausted 1 4 = false →
          Completes (.hsemRelease u) u s (fun r => SMap.get 0 r.dev.hsem (n - 0x060) = BitVec.ofNat 64 (bits v 63 32 * 2 ^ 32) ∧ SMap.get 0 r.dev.hsemLast (n - 0x060) = 3
            ∧ (∀ j, j ≠ n - 0x060 → SMap.get 0 r.dev.hsem j = SMap.get 0 s.dev.hsem j) ∧ r.mem.bytes = s.mem.bytes ∧ r.agents = s.agents ∧ r.cores = s.cores))
      ∧ (bits v 1 0 = 0 → bits x 1 0 ≠ 3 → Completes (.hsemRelease u) u s (fun r => r = s.semServed (n - 0x060) 3 ∧ r.dev.hsem = s.dev.hsem)))
    ∧ (0x110 ≤ n → n < 0x130 → s.pmcLost ((n - 0x110) / 2) = false → (SMap.find? s.ctxs c).isSome = true →
      (n % 2 = 0 → Completes (.pmcLoRead u) u s (fun r => WroteS (s.csrTouched n) r u.a.toNat (BitVec.ofNat 64 (bits pmc 31 0)) 0 4
          ∧ SMap.get 0 (r.ctx c).pmsh k = BitVec.ofNat 64 (bits pmc 62 32)))
      ∧ (n % 2 = 1 → Completes (.pmcHiWrite u) u s (fun r => bits (SMap.get 0 (r.ctx c).pmc k) 62 32 = bits v 30 0 ∧ bits (SMap.get 0 (r.ctx c).pmc k) 31 0 = bits pmc 31 0
          ∧ (∀ j, j ≠ k → SMap.get 0 (r.ctx c).pmc j = SMap.get 0 (s.ctx c).pmc j) ∧ r.agents = s.agents ∧ r.cores = s.cores ∧ r.mem = s.mem))))
  ∧ ∀ (c : Nat) (s : State), ∃ t, exec (.chkresetDone c) s = .next t ∧ (t.ctx c).chkBusy = false ∧ ((s.ctx c).chkBusy = false → t = s)
      ∧ (∀ y, y ≠ c → t.ctx y = s.ctx y) ∧ { t with ctxs := s.ctxs } = s

/-- 17 R433-R439: frames of the host ports. -/
def Obligations.HostFrames : Prop :=
  ∀ (port addr : Nat) (data : List Byte) (s : State), port < 2 →
    let n := data.length
    let ps := s.extPieces addr n
    let ones := List.replicate n (0xFF : Byte)
    (s.dev.boot = .off → exec (.read port addr n) s = .next s ∧ exec (.write port addr data) s = .next s ∧ ∀ k, exec (.semAcq port k) s = .next s)
    ∧ (s.dev.boot = .dead → exec (.read port addr n) s = .next (s.reply port 1 ones) ∧ exec (.write port addr data) s = .next (s.reply port 1 [])
        ∧ ∀ k, exec (.semAcq port k) s = .next (s.reply port 1 []))
    ∧ exec (.writeRel port addr data) s = exec (.write port addr data) s
    ∧ (s.dev.boot ≠ .off → s.dev.boot ≠ .dead →
      (frameOk addr n = false ∨ addr < 2 ^ 52 ∧ (∃ a ∈ span addr n, present s.dev a = false) →
        exec (.read port addr n) s = .next (s.reply port 1 ones) ∧ exec (.write port addr data) s = .next (s.reply port 1 []))
      ∧ (frameOk addr n = true → addr < 2 ^ 52 → (∀ a ∈ span addr n, present s.dev a = true) →
        (∃ t, exec (.read port addr n) s = .next t ∧ t.hostOut = (s.reply port (if ps.any (fun p => s.psn false p.a) then 2 else 0) (s.rdBytes false addr n)).hostOut
          ∧ t.mem = s.mem ∧ t.agents = s.agents ∧ t.cores = s.cores ∧ t.ctxs = s.ctxs)
        ∧ ∃ t, exec (.write port addr data) s = .next t ∧ t.hostOut = (s.reply port 0 []).hostOut ∧ StoredBytes s t ps data ∧ SameAgents s t
          ∧ t.cores = s.cores ∧ t.ctxs = s.ctxs)
      ∧ (∀ clu off aoff, clu < 16 → off < 2 ^ 25 →
        ((s.extSpad rootCtx clu off n = none ∨ frameOk off n = false) → ∀ arv, exec (.spwrite port clu off data arv aoff) s = .next (s.reply port 1 []))
        ∧ (∀ qs, s.extSpad rootCtx clu off n = some qs → frameOk off n = true → ∃ t, exec (.spwrite port clu off data false aoff) s = .next t
          ∧ t.hostOut = (s.reply port 0 []).hostOut ∧ StoredBytes s t qs data ∧ SameAgents s t ∧ t.cores = s.cores ∧ t.ctxs = s.ctxs))
      ∧ (∀ k d, k < 32 →
        let w := SMap.get 0 s.dev.hsem k
        let s0 := s.semServed k (port + 1)
        (bits w 1 0 = 0 → exec (.semAcq port k) s = .next ((s0.putSem k (setBits w 1 0 (port + 1))).semReply port k))
        ∧ (bits w 1 0 ≠ 0 → exec (.semAcq port k) s = .next (s0.semReply port k))
        ∧ (bits w 1 0 ≠ port + 1 → exec (.semRel port k d) s = .next (s0.semReply port k))
        ∧ (bits w 1 0 = port + 1 → ∃ t, exec (.semRel port k d) s = .next t ∧ SMap.get 0 t.dev.hsem k = BitVec.ofNat 64 (d.toNat * 2 ^ 32)
            ∧ (∀ j, j ≠ k → SMap.get 0 t.dev.hsem j = SMap.get 0 s.dev.hsem j) ∧ t.mem.bytes = s.mem.bytes ∧ t.agents = s.agents ∧ t.cores = s.cores)))
    ∧ (∀ v : W64, s.dev.boot ≠ .dead →
      (s.dev.featSet = true → exec (.feataccWrite v) s = .next s)
      ∧ (s.dev.featSet = false → exec (.feataccWrite v) s = .next { s with dev := { s.dev with featacc := v &&& 0xFF, featSet := true } })
      ∧ (s.dev.hstat = [] → exec (.hstatAck v) s = .next s)
      ∧ ∀ w l, s.dev.hstat = w :: l → (bits v 63 48 ≠ bits w 63 48 → exec (.hstatAck v) s = .next s)
        ∧ (bits v 63 48 = bits w 63 48 → ∃ t, exec (.hstatAck v) s = .next t ∧ t.dev.hstat = l ∧ t.dev.hstatOvf = false ∧ t.mem = s.mem ∧ t.agents = s.agents))

/-- 17 R440-R445: the fabric ports. 07 R202, R203, 17 R443: PREPARE, OFFER, REFUSE, COMMIT, RELEASE. -/
def Obligations.FabricMessages : Prop :=
  (∀ (k : Nat) (f : Flit) (s : State),
    let mine : List (Nat × Instr) := [(0x20, .slotsync k f), (2, .wack k f), (4, .sendreq k f), (5, .raccept k f), (6, .rfull k f), (0x10, .prepare k f),
      (0x11, .offer k f), (0x12, .refuse k f), (0x13, .commit k f), (0x14, .release k f)]
    let ok : Prop := s.dev.linked = true ∧ s.dev.trained.testBit k = true ∧ f.dst = s.dev.chip
    let w := SMap.get 0 s.dev.fxcfg k
    let s1 : State := { s with dev := { s.dev with trained := s.dev.trained + 2 ^ k } }
    (∀ e ∈ (1, Instr.fabricWrite k f) :: mine, (s.dev.linked = false ∨ s.dev.trained.testBit k = false ∨ f.kind ≠ e.1) → exec e.2 s = .next s)
    ∧ (∀ e ∈ mine, f.dst ≠ s.dev.chip → exec e.2 s = .next s)
    ∧ (s.dev.linked = true → s.dev.trained.testBit k = true → f.kind = 1 → f.dst ≠ s.dev.chip → exec (.fabricWrite k f) s = .next (s.answer k f 2 0 0 0))
    ∧ (∀ v, s.dev.linked = true → k < 16 → ∃ t, exec (.fxcfgWrite k v) s = .next t ∧ SMap.get 0 t.dev.fxcfg k = v &&& 0x1FF
        ∧ (∀ j, j ≠ k → SMap.get 0 t.dev.fxcfg j = SMap.get 0 s.dev.fxcfg j ∧ t.dev.trained.testBit j = s.dev.trained.testBit j)
        ∧ t.dev.trained.testBit k = (s.dev.trained.testBit k && v.getLsbD 8) ∧ t.mem = s.mem ∧ t.agents = s.agents)
    ∧ (∀ slot cyc, s.dev.linked = true → k < 16 → w.getLsbD 8 = true → s.dev.trained.testBit k = false →
        ∃ t, exec (.fabricPortTrained k slot cyc) s = .next t ∧ t.dev.trained.testBit k = true ∧ (s1.syncPeer ≠ some (bits w 7 0) → t = s1)
          ∧ (s1.syncPeer = some (bits w 7 0) → s.dev.op = 0 → t.slotNo = slot % 2 ^ 48 ∧ t.slotAt = s.cycle - cyc % 256 ∧ t.dev.syncFrom = some (bits w 7 0)))
    ∧ (∀ slot cyc, w.getLsbD 8 = false → exec (.fabricPortTrained k slot cyc) s = .next s)
    ∧ (s.dev.linked = true → s.dev.trained.testBit k = true → s.dev.hstat.length < 16 → ∃ t e, exec (.fabricPortLost k) s = .next t
        ∧ t.dev.trained.testBit k = false ∧ t.dev.hstat = s.dev.hstat ++ [e] ∧ (k < 2 ^ 16 → bits e 47 44 = 4 ∧ bits e 31 16 = k) ∧ t.flights = s.flights
        ∧ t.mem = s.mem ∧ t.agents = s.agents)
    ∧ (ok → f.kind = 0x20 → ∀ p, s.syncPeer = some p → s.portPeer k = some p → s.dev.op = 0 →
        (s.dev.syncFrom ≠ some p → exec (.slotsync k f) s = .next (s.setSlot p (bits f.w0 47 0) (bits f.w0 55 48)))
        ∧ (s.dev.syncFrom = some p → ∃ t, exec (.slotsync k f) s = .next t ∧ { t with slotAt := s.slotAt } = s ∧ t.slotAt ≤ s.slotAt + 1 ∧ s.slotAt ≤ t.slotAt + 1))
    ∧ (∀ x, ok → f.kind = 1 → f.arv = false → f.parts = [x] →
        (s.partPieces (f.clu % 16) x = none → exec (.fabricWrite k f) s = .next (s.answer k f 2 0 0 0))
        ∧ ∀ ps, s.partPieces (f.clu % 16) x = some ps → ∃ t, exec (.fabricWrite k f) s = .next t ∧ t.fxOut = (s.answer k f 2 1 0 0).fxOut
          ∧ StoredBytes s t ps x.data ∧ SameAgents s t ∧ t.cores = s.cores ∧ t.ctxs = s.ctxs)
    ∧ (ok → f.kind = 2 →
        (s.flights.find? (fun y => y.port == k && y.tag == f.tag) = none → exec (.wack k f) s = .next s)
        ∧ ∀ x c, s.flights.find? (fun y => y.port == k && y.tag == f.tag) = some x → x.entry = 0 → s.cmdOf x.core x.st x.cmd = some c → c.refused = [] →
          (∀ i, i < x.offs.length → f.w0.getLsbD i = true) → ∃ t, exec (.wack k f) s = .next t ∧ t.flights = s.flights.filter (fun y => y.tag != f.tag)
            ∧ t.eq x.core x.st = (s.eq x.core x.st).map (fun y => if y.id = c.id then x.offs.foldl (fun (c : Cmd) e => let d := c.did e.1; { d with edge := c.edge || d.edge }) c else y)
            ∧ t.agents = s.agents ∧ t.mem = s.mem)
    ∧ (ok → f.kind = 4 → ∀ t,
        (s.reserve (s.win s.pctx (f.clu % 16)) (f.clu % 16) (bits f.w0 11 0) (bits f.w0 31 16) = (t, none) → exec (.sendreq k f) s = .next (t.answer k f 6 0 0 0))
        ∧ ∀ off arv aoff, s.reserve (s.win s.pctx (f.clu % 16)) (f.clu % 16) (bits f.w0 11 0) (bits f.w0 31 16) = (t, some (off, arv, aoff)) →
          ∃ r, exec (.sendreq k f) s = .next r ∧ r.fxOut = (t.answer k f 5 (BitVec.ofNat 64 off) (BitVec.ofNat 64 (aoff * 8 + b2n arv)) 0).fxOut
            ∧ r.mem.spad = t.mem.spad ∧ r.mem.bytes = s.mem.bytes ∧ r.agents = s.agents)
    ∧ (ok → s.askOf k f.tag = none → (f.kind = 5 → exec (.raccept k f) s = .next s) ∧ (f.kind = 6 → exec (.rfull k f) s = .next s))
    ∧ ∀ core c e, ok → s.askOf k f.tag = some (core, c, e) →
        (f.kind = 5 → ∃ t, exec (.raccept k f) s = .next t ∧ t.agents = s.agents ∧ t.mem = s.mem
          ∧ t.eq core 13 = (s.eq core 13).map (fun y => if y.id = c.id then { y with sends := y.sends.map (fun x =>
            if x.st == 1 && x.tag == f.tag then { x with st := 2, off := bits f.w0 24 0, arv := bit f.w1 0, aoff := bits f.w1 24 3, sent := 0 } else x) } else y))
        ∧ (f.kind = 6 → (e.dst ≠ 0 ∨ e.v2 = false) → exec (.rfull k f) s = .next (s.settleSend core 13 c e))
        ∧ (f.kind = 6 → e.dst = 0 → e.v2 = true → exec (.rfull k f) s = .next (s.sendTo core 13 (c.putSend { e with dst := 1, st := 5 }) c { e with dst := 1 } 2)))
  ∧ (∀ (k : Nat) (f : Flit) (s : State), s.dev.linked = true → s.dev.trained.testBit k = true → f.dst = s.dev.chip →
    let start := bits f.w0 47 0
    let dur := bits f.w1 9 0
    let cls := bits f.w1 11 10
    let idx := bits f.w1 19 12
    let sh := bits f.w1 23 20
    let rest := s.book.offers.filter (fun o => !o.is k f.tag)
    (f.kind = 0x10 →
      (dur = 0 ∨ s.peerHolds cls idx sh = false → exec (.prepare k f) s = .next (s.answer k f 0x12 f.w0 f.w1 0))
      ∧ (dur ≠ 0 → s.peerHolds cls idx sh = true →
        (s.legFits cls idx sh start dur = true → ∃ t, exec (.prepare k f) s = .next t
          ∧ t.book.offers = s.book.offers ++ [⟨k, f.tag, cls, idx, sh, start, dur, s.slotNo + 64, false⟩] ∧ t.book.recs = s.book.recs
          ∧ t.fxOut = (s.answer k f 0x11 f.w0 f.w1 0).fxOut ∧ t.agents = s.agents ∧ t.mem = s.mem)
        ∧ (s.legFits cls idx sh start dur = false → ∃ a, exec (.prepare k f) s = .next (s.answer k f 0x12 f.w0 f.w1 a)
          ∧ (a = 0 ∨ ∃ m, a = BitVec.ofNat 64 (2 ^ 63 + m) ∧ start ≤ m ∧ s.legFits cls idx sh m dur = true))))
    ∧ (∀ o, f.kind = 0x13 → s.book.offers.find? (fun o => o.is k f.tag) = some o →
      (o.committed = true → exec (.commit k f) s = .next s)
      ∧ (o.committed = false → s.slotNo < o.till → ∃ t, exec (.commit k f) s = .next t ∧ t.fxOut = s.fxOut ∧ t.book.recs = s.book.recs
          ∧ t.book.offers = s.book.offers.map (fun o => if o.is k f.tag then { o with committed := true } else o))
      ∧ (o.committed = false → o.till ≤ s.slotNo → ∃ t, exec (.commit k f) s = .next t ∧ t.book.offers = rest ∧ t.book.recs = s.book.recs
          ∧ t.fxOut = (s.answer k f 0x12 f.w0 f.w1 0).fxOut))
    ∧ (f.kind = 0x13 → s.book.offers.find? (fun o => o.is k f.tag) = none → exec (.commit k f) s = .next (s.answer k f 0x12 f.w0 f.w1 0))
    ∧ (f.kind = 0x14 →
      (s.book.offers.find? (fun o => o.is k f.tag) = none → exec (.release k f) s = .next s)
      ∧ (∀ o, s.book.offers.find? (fun o => o.is k f.tag) = some o → (∀ x ∈ s.book.offers, x.is k f.tag = true → x.committed = false) →
        ∃ t, exec (.release k f) s = .next t ∧ t.book.offers = rest ∧ t.book.freed = s.book.freed ∧ t.book.recs = s.book.recs ∧ t.agents = s.agents))
    ∧ (f.kind = 0x11 →
      (s.legOf f.tag = none → exec (.offer k f) s = .next s)
      ∧ ∀ r i x, s.legOf f.tag = some (r, i, x) → (∀ t, x.leg = .asked t → exec (.offer k f) s = .next ((s.updStep r i (fun x => { x with leg := .offered })).negotiate r 0))
        ∧ ((∀ t, x.leg ≠ .asked t) → exec (.offer k f) s = .next s))
    ∧ (f.kind = 0x12 → ∀ r i x t, s.legOf f.tag = some (r, i, x) → x.leg = .asked t →
      exec (.refuse k f) s = .next (s.refuseStep r i (if f.w2.getLsbD 63 then some (bits f.w2 47 0) else none))))

/-- 07 R177, R187, R188, R198-R208, 06 R173: booking units at work. -/
def Obligations.Bookings : Prop :=
  (∀ (s : State) (c : Nat) (but : List Nat) (g : List BStep) (n lo u : Nat) (l : List (BStep × Nat)),
    s.findSlot c but g n lo = some (u, l) →
      lo ≤ u ∧ s.placeGroup c but u g [] = some l ∧ u + (g.map (·.dur)).foldl max 0 ≤ s.slotNo + 1024
        ∧ ∀ v, lo ≤ v → v < u → s.placeGroup c but v g [] = none)
  ∧ (∀ (s : State) (h : W32) (b : Booking), s.bookAt h.toNat = some b →
      (s.maySearch b = false → exec (.bookingSearch h) s = .next s)
      ∧ (s.maySearch b = true → s.logMode b ≠ 2 →
        (s.greedy b (groupsOf b.steps) (s.lowerBound b) = none → exec (.bookingSearch h) s = .next (s.noFit (hKey h.toNat) 0))
        ∧ ∀ pl, s.greedy b (groupsOf b.steps) (s.lowerBound b) = some pl → (pl.map Prod.fst).Nodup → b.st = 1 → (∀ x ∈ b.steps, sRem x.w0 = false) →
          ∃ t b', exec (.bookingSearch h) s = .next t ∧ t.recOf (hKey h.toNat) = some b' ∧ b'.st = 2 ∧ b'.steps.length = b.steps.length
            ∧ ∀ i x, b.steps[i]? = some x → ∃ y, b'.steps[i]? = some y ∧ y.tent = false
              ∧ (∀ e ∈ pl, e.1 = i → y.idx = e.2.1 ∧ y.slots = x.slots ++ span e.2.2 x.dur)
              ∧ ((∀ e ∈ pl, e.1 ≠ i) → y.idx = x.idx ∧ y.slots = x.slots)))
  ∧ (∀ s : State,
      (s.cycle < s.slotAt + 256 → exec .slotBoundary s = .next s)
      ∧ (s.slotAt + 256 ≤ s.cycle → s.jobs = [] → s.book.recs = [] → SMap.rising s.ctxs = true →
          (∀ e ∈ s.ctxs, e.2.slices = [] ∧ e.2.aside.isEmpty = true ∧ bit (s.cw e.1 3) 0 = false) →
        let b : State := { s with slotNo := (s.slotNo + 1) % 2 ^ 48, slotAt := s.slotAt + 256 }
        ∃ t, exec .slotBoundary s = .next t ∧ t.slotNo = b.slotNo ∧ t.slotAt = b.slotAt ∧ t.agents = s.agents ∧ t.cores = s.cores ∧ t.mem = s.mem
          ∧ ∀ c, (t.ctx c).wdCnt = if b.wdCounts c then min 0xFFFFFFFF ((s.ctx c).wdCnt + 1) else (s.ctx c).wdCnt)
      ∧ (∀ die, s.waitDue die = [] → exec (.waitListSearch die) s = .next s)
      ∧ (∀ die k b, s.waitDue die = [k] → s.recOf k = some b →
        let t := s.updRec k (fun b => { b with st := 1 })
        exec (.waitListSearch die) s = .next (if t.maySearch { b with st := 1 } then t.search k else s.updRec k (fun b => { b with waitAt := some s.slotNo })))
      ∧ (∀ cls idx, (∀ r ∈ s.book.freed, r.1 = cls → r.2.1 ≠ idx) → exec (.backfill cls idx) s = .next s)
      ∧ (∀ cls idx first len, s.book.freed = [(cls, idx, first, len)] →
        let b : State := { s with book := { s.book with freed := [] } }
        let l := b.fillers cls idx first len
        (l = [] → exec (.backfill cls idx) s = .next b)
        ∧ (∀ st k lo d rest, l = (st, k, lo, d) :: rest →
            let q := (b.holdPlacement k [(0, idx, lo)]).commitRec k 1
            let left := (if first < lo then [(cls, idx, first, lo - first)] else []) ++ (if lo + d < first + len then [(cls, idx, lo + d, first + len - (lo + d))] else [])
            exec (.backfill cls idx) s = .next { q with book := { q.book with freed := left ++ q.book.freed } }
            ∧ (SMap.rising s.book.recs = true → ∃ y, q.recOf k = some y ∧ y.st = 2 ∧ y.steps.all (fun x => x.idx == idx && !x.tent) = true))
        ∧ ∀ st k lo d, (st, k, lo, d) ∈ l → ∃ y x, (k, y) ∈ s.book.recs ∧ y.steps = [x] ∧ y.st = 6 ∧ st = y.stamp ∧ d = x.dur ∧ first ≤ lo ∧ lo + d ≤ first + len
            ∧ b.fits y.ctx [] [] { x with slots := [] } idx lo = true)
      ∧ (∀ die, s.cycle < SMap.get 0 s.book.admitAt die → exec (.taskAdmission die) s = .next (s.giveRecs die))
      ∧ (∀ die t, die ≤ 1 → s.dev.boot = .up → SMap.get 0 s.book.admitAt die ≤ s.cycle → s.book.tasks = [] →
        (s.headOrder die).findSome? (fun e => s.tryHead die e.1 e.2) = some t →
          ∃ r, exec (.taskAdmission die) s = .next r ∧ SMap.get 0 r.book.admitAt die = s.cycle + 16 ∧ r.agents = t.agents ∧ r.mem = t.mem ∧ r.book.tasks = t.book.tasks)
      ∧ (∀ die, s.book.tasks = [] → (s.headOrder die).findSome? (fun e => s.tryHead die e.1 e.2) = none → exec (.taskAdmission die) s = .next s)
      ∧ (∀ c q, let x := s.ctx c
        let due : Prop := SMap.get 0 x.headAt q ≠ 0 ∧ SMap.get 0 x.headAt q + 2500000 * (SMap.get 0 x.age q + 1) ≤ s.cycle + 1
        (¬due → exec (.priorityAging c q) s = .next s)
        ∧ (due → ∃ t, exec (.priorityAging c q) s = .next t ∧ SMap.get 0 (t.ctx c).age q = SMap.get 0 x.age q + 1 ∧ (∀ y, y ≠ c → t.ctx y = s.ctx y)
            ∧ { t with ctxs := s.ctxs } = s))
      ∧ (∀ i o, s.book.offers[i]? = some o →
        (o.committed = true ∨ s.slotNo < o.till → exec (.offerLapse i) s = .next s)
        ∧ (o.committed = false → o.till ≤ s.slotNo → ∃ t, exec (.offerLapse i) s = .next t ∧ t.book.offers = s.book.offers.eraseIdx i ∧ t.book.recs = s.book.recs))
      ∧ (∀ tag k i x a, s.legOf tag = some (k, i, x) → x.leg = .asked a →
        (s.slotNo < a + 64 → exec (.prepareTimeout tag) s = .next s)
        ∧ (a + 64 ≤ s.slotNo → exec (.prepareTimeout tag) s = .next (s.refuseStep k i none))))

/-- 06 R157-R174, 14 R382, R390, R391, 15 R417, R420: what continuations and contexts wait for. -/
def Obligations.ThreadEvents : Prop :=
  ∀ s : State,
    (∀ core i, ((s.core core).waiting[i]? = none → exec (.continuationReady core i) s = .next s)
      ∧ ∀ k, (s.core core).waiting[i]? = some k → (s.contReady k = false → exec (.continuationReady core i) s = .next s)
        ∧ (s.contReady k = true → (∀ e ∈ waitToksOf k, s.coreAway k.ctx e.1 = false) → ∃ t k', exec (.continuationReady core i) s = .next t ∧ (t.core core).deque = k' :: (s.core core).deque
            ∧ (t.core core).waiting = (s.core core).waiting.eraseIdx i ∧ k'.ready = true ∧ k'.ctx = k.ctx ∧ k'.launch = k.launch ∧ k'.place = k.place
            ∧ k'.waits = k.waits ∧ t.agents = s.agents ∧ ∀ c r, t.tok c r + ((waitToksOf k).filter (fun e => e = (c, r))).length = s.tok c r))
    ∧ (∀ core, (s.takeIndex core = none → exec (.continuationTake core) s = .next s) ∧ (s.stealIndex core = none → exec (.continuationSteal core) s = .next s))
    ∧ (∀ core v i k s' st l,
        (s.core v).deque[i]? = some k → k.isNew = true → k.held = none → s.openSlot core k (List.range 4) = some (s', st) →
        SMap.find? s'.launches k.launch = some l →
        let w := l.words
        let started (t : State) : Prop := (t.ag core st).run = .running ∧ (t.ag core st).wait = .none ∧ (t.ag core st).pc = lhEntry w
          ∧ (t.ag core st).item = some ⟨k.ctx, k.launch, k.index, k.workid, k.pin, k.place, false⟩ ∧ (t.ag core st).sreg 1 = w.getD 7 0
          ∧ (∀ n, n ≠ 1 → (t.ag core st).sreg n = 0) ∧ (t.ag core st).vstat = 0
          ∧ (∀ c j, agKey c j ≠ agKey core st → agKey c j ≠ agKey core 4 → agKey c j ≠ agKey core 5 → t.ag c j = s'.ag c j)
          ∧ (t.core v).deque = (s'.core v).deque.eraseIdx i
        (v = core → s.takeIndex core = some i → ∃ t, exec (.continuationTake core) s = .next t ∧ started t)
        ∧ (s.stealIndex core = some (v, i) → (s.ctx k.ctx).pmsel = [] → (s'.ctx k.ctx).pmsel = [] → ∃ t, exec (.continuationSteal core) s = .next t ∧ started t))
    ∧ (∀ core st ws x w, let a := s.ag core st
        ((∃ ts, a.wait = .tok ts ∧ ws = ts.map (waitTok core))
          ∨ ∃ y g, a.wait = .arrive y g ∧ ws = [waitArr g (y / 2 ^ 25) (y % 2 ^ 25 - (s.win a.ctx (y / 2 ^ 25)).base)]) →
        a.wunit = some x → a.waitAt = some w →
        (s.cycle < w + 128 ∨ 4 ≤ st ∨ a.pend ≠ [] ∨ s.tokReady core st = true ∨ s.arriveWaitDue core st = true → exec (.continuationParkTimeout core st) s = .next s)
        ∧ (st < 4 → a.run = .running → s.runs a.ctx = true → w + 128 ≤ s.cycle → a.pend = [] → a.locks = [] → s.tokReady core st = false →
            s.arriveWaitDue core st = false → (s.rs (s.raceOf core st)).epoch + 1 ≤ maxEpoch → s.cepochFull (s.raceOf core st) = false → ∀ t ok,
            s.park core st (x.pc + BitVec.ofNat 64 (4 * x.len)) ws = (t, ok) →
            exec (.continuationParkTimeout core st) s = .next (if ok = true then t else t.updAg core st (fun a => { a with waitAt := none }))))
    ∧ (∀ core st, (s.ag core st).waitAt = none → exec (.continuationParkTimeout core st) s = .next s)
    ∧ (∀ c, ((s.ctx c).trap.pending = [] → exec (.pendingRecordWrite c) s = .next s)
        ∧ ∀ r l t i, (s.ctx c).trap.pending = r :: l → s.recAsleep r = false → (SMap.find? t.ctxs c).isSome = true →
          s.placeRecord c (bits (r.words.getD 0 0) 63 48) r.fatal (s.entryOrder c r.fatal) r.words = (t, .done [i]) →
          ∃ t', exec (.pendingRecordWrite c) s = .next t' ∧ (t'.ctx c).trap.pending = l
            ∧ (t'.ctx c).trap.wrote = (t.ctx c).trap.wrote ++ [⟨i, t.entryVa c i, r.fatal, bits (r.words.getD 0 0) 63 48, r.cause, dieOf r.core⟩] ∧ t'.mem = t.mem ∧ t'.agents = t.agents)
    ∧ (∀ c, let x := s.ctx c
        let win := bits (s.cw c 5) 31 0
        let due : Prop := x.stt = 2 ∧ win ≠ 0 ∧ x.wdSt = 0 ∧ x.wdFull = true ∧ win ≤ x.wdCnt
        (¬due → exec (.watchdogExpire c) s = .next s)
        ∧ (due → ∃ t, exec (.watchdogExpire c) s = .next t ∧ (t.ctx c).wdSt = 1 ∧ (t.ctx c).req = true ∧ (x.req = false → (t.ctx c).left = s.limitOf c)
            ∧ (∀ y, y ≠ c → t.ctx y = s.ctx y) ∧ { t with ctxs := s.ctxs } = s))
    ∧ (∀ c, (s.saveDue c = 0 → exec (.forcedSave c) s = .next s)
        ∧ (s.saveDue c = 1 → (∀ k ∈ s.agentsOn (s.subtree c) Sel.all, s.readyNow (k / 6) (s.ag (k / 6) (k % 6)) = false) →
          let h := (s.updCtx c (fun x => { x with wdSt := if x.wdSt = 1 then 2 else x.wdSt })).haltSel (s.subtree c) Sel.all
          h.landing (s.subtree c) Sel.all = none →
          ((∃ e ∈ h.cmdsOn (s.subtree c) Sel.all, h.atRest e.2.2 = false) → exec (.forcedSave c) s = .next h)
          ∧ ((∀ e ∈ h.cmdsOn (s.subtree c) Sel.all, h.atRest e.2.2 = true) → exec (.forcedSave c) s = .next (h.forceAll c))))
    ∧ (∀ c, (s.stopDue c = false → exec (.contextStopComplete c) s = .next s)
        ∧ (s.stopDue c = true → s.book.recs = [] → (s.ctx c).stt = 2 → (s.haltSel (s.subtree c) Sel.all).landing (s.subtree c) Sel.all = none →
            ∃ t, exec (.contextStopComplete c) s = .next t ∧ (t.ctx c).stt = 3
            ∧ (t.ctx c).stopping = false ∧ ((s.ctx c).wdSt = 1 → (t.ctx c).wdSt = 0) ∧ t.mem = s.mem
            ∧ ∀ k st, t.ag k st = if agKey k st ∈ s.agentsOn (s.subtree c) Sel.all then (s.ag k st).halt else s.ag k st))
    ∧ (∀ c, let d := (s.ctx c).dirty
        let x := (d.blk.getD 0 0).toNat
        (s.exportReady c = false → exec (.exportComplete c) s = .next s)
        ∧ (s.exportReady c = true → (SMap.find? s.ctxs c).isSome = true → bits (d.blk.getD 5 0) 31 0 < (s.image (bits (d.blk.getD 0 0) 15 0)).length / 64 →
            ∃ t, exec (.exportComplete c) s = .next t ∧ (t.ctx c).dirty.st = 5 ∧ bits (t.ctx c).dirty.reg 1 0 = 0 ∧ t.agents = s.agents)
        ∧ (s.exportReady c = true → (SMap.find? s.ctxs c).isSome = true → (s.image (bits (d.blk.getD 0 0) 15 0)).length / 64 ≤ bits (d.blk.getD 5 0) 31 0 →
            let img := s.image (bits (d.blk.getD 0 0) 15 0)
            ∃ t, exec (.exportComplete c) s = .next t ∧ (t.ctx c).dirty.st = 3 ∧ bits (t.ctx c).dirty.reg 1 0 = 0 ∧ t.agents = s.agents ∧ t.cores = s.cores
              ∧ ∀ q ps, s.access c .write false (d.blk.getD 4 0) img.length = (q, .ok ps) → QuietFor q c →
                ∃ m, StoredBytes q m ps img ∧ t.mem = (((m.devMark c (d.blk.getD 4 0) img.length (s.imageMarks (bits (d.blk.getD 0 0) 15 0))).writeSt c 3
                  (img.length / 64)).publishExport c).mem)
        ∧ (s.logBusy c true = false → exec (.importComplete c) s = .next s)
        ∧ (s.logBusy c true = true → (SMap.find? s.ctxs c).isSome = true → (s.ctx x).stt ≠ 1 →
            ∃ t, exec (.importComplete c) s = .next t ∧ (t.ctx c).dirty.st = 5 ∧ bits (t.ctx c).dirty.reg 1 0 = 0 ∧ t.agents = s.agents ∧ t.cores = s.cores)
        ∧ (∀ m, s.logBusy c true = true → (SMap.find? s.ctxs c).isSome = true → x ≠ c → (s.ctx x).stt = 1 → (∀ e ∈ s.book.tasks, x ∉ s.chain e.2.ctx) →
            s.readImage c x (d.blk.getD 4 0) (bits (d.blk.getD 5 0) 31 0) = some m →
            ∃ t, exec (.importComplete c) s = .next t ∧ (t.ctx c).dirty.st = 4 ∧ bits (t.ctx c).dirty.reg 1 0 = 0 ∧ (t.ctx x).stt = 3))

/-- 21 R465-R470, 14 R394, R396, 02 R44, 08 R229, R232: the device's own events. -/
def Obligations.PowerAndErrors : Prop :=
  ∀ s : State,
    let cleared (t : State) (b : Boot) : Prop := t.dev.boot = b ∧ t.agents = [] ∧ t.cores = [] ∧ t.ctxs = [] ∧ t.mem.bytes = s.mem.bytes ∧ t.mem.spad = [] ∧ t.mem.acc = []
      ∧ t.mem.psn = [] ∧ t.mem.md = [] ∧ t.slotNo = 0 ∧ t.book = Book.reset ∧ t.dev.hsem = [] ∧ t.dev.iset = [] ∧ t.dev.trained = 0
    let feat (t : State) (a : BitVec 64) (b : Bool) : Prop := t.dev.featacc = a ∧ t.dev.featSet = b
    (∀ v, ∃ t, exec (.powerGood v) s = .next t ∧ cleared t (if v then .waiting else .recovery) ∧ t.dev.throttle = false
        ∧ (s.dev.boot = .off → feat t s.dev.featacc s.dev.featSet) ∧ (s.dev.boot ≠ .off → feat t 0 false))
    ∧ (s.dev.boot ≠ .waiting ∨ s.dev.featSet = false → exec .rootContextStart s = .next s)
    ∧ (s.dev.boot = .waiting → s.dev.featSet = true → ∃ t, exec .rootContextStart s = .next t ∧ t.dev.boot = .up ∧ (t.ctx rootCtx).stt = 2 ∧ (t.ctx rootCtx).depth = 0
        ∧ (∀ k, 1 ≤ k → k ≤ 6 → t.cw rootCtx k = s.rdP64 (0x1000 + 8 * k)) ∧ (∀ k d, k < 128 → d < 2 → t.holdsSide rootCtx k d = true)
        ∧ t.cw rootCtx 12 = BitVec.ofNat 64 (presentLo s.dev) ∧ t.cw rootCtx 13 = BitVec.ofNat 64 (presentHi s.dev * 2 ^ 48 + 0xFFFF * 2 ^ 32 + 20 * 2 ^ 27)
        ∧ t.cw rootCtx 14 = 0xFFFF000000000000 ∧ t.cw rootCtx 15 = 0xFFFFFFFF00000000
        ∧ (∀ k, k < 16 → t.win rootCtx k = ⟨0, spadSize, 64, 0, 0⟩ ∧ t.holdsPort rootCtx k = true) ∧ t.mem = s.mem ∧ t.agents = s.agents)
    ∧ (s.dev.boot ≠ .recovery ∨ s.dev.request 31 = none → ∀ v, exec (.recoveryVerify v) s = .next s)
    ∧ (∀ n rest, s.dev.boot = .recovery → s.dev.request 31 = some (n, rest) →
        (∃ t, exec (.recoveryVerify false) s = .next t ∧ t = { s with dev := { s.dev with hk := rest } })
        ∧ ∃ t, exec (.recoveryVerify true) s = .next t ∧ cleared t .waiting ∧ t.dev.hk = rest ∧ feat t s.dev.featacc s.dev.featSet ∧ t.dev.image = some (s.rdBytes false 0 (n.toNat * 4096)))
    ∧ ((s.dev.boot ≠ .waiting ∧ s.dev.boot ≠ .up) ∨ s.dev.request 30 = none → exec .attestationReport s = .next s)
    ∧ (∀ d rest, s.dev.boot = .waiting ∨ s.dev.boot = .up → s.dev.request 30 = some (d, rest) → bits (SMap.get 0 s.dev.hsem 30) 1 0 = 0 →
        let p := d.toNat * 4096
        (∀ a ∈ span p 576, present s.dev a = true) → ∃ t, exec .attestationReport s = .next t ∧ SMap.get 0 t.dev.hsem 30 = 0 ∧ t.dev.hk = rest ∧ SameAgents s t
          ∧ (∀ n, n ≠ 30 → SMap.get 0 t.dev.hsem n = SMap.get 0 s.dev.hsem n)
          ∧ StoredBytes s t (s.extPieces (p + 64) 512) (s.attest (s.rdBytes false p 32)))
    ∧ (s.dev.linked = true → exec .thermalThrottle s = .next { s with dev := { s.dev with throttle := true } }
        ∧ exec .throttleEnd s = .next { s with dev := { s.dev with throttle := false } } ∧ ∃ t, exec .computePowerOff s = .next t ∧ cleared t .dead)
    ∧ (s.dev.throttle = true → s.cycle % 2 = 1 → s.nextAgent = none ∧ ∀ core st, s.canIssueAt core st = false)
    ∧ (∀ a, ∃ t, exec (.memoryErrorDetect (.phys a)) s = .next t ∧ t.psn false a = true ∧ t.mem.bytes = s.mem.bytes ∧ t.agents = s.agents ∧ t.mem.spad = s.mem.spad)
    ∧ (∀ clu a, clu < 16 → a < spadSize → ∃ t, exec (.memoryErrorDetect (.spad clu a)) s = .next t ∧ t.psn true (spKey clu a) = true ∧ t.mem.bytes = s.mem.bytes
        ∧ t.agents = s.agents ∧ t.mem.spad = s.mem.spad)
    ∧ (∀ core row, core < 128 → row < 4096 → ∃ t, exec (.memoryErrorDetect (.accRow core row)) s = .next t ∧ t.rowPsn core row = true ∧ t.mem.acc = s.mem.acc
        ∧ t.agents = s.agents)
    ∧ (∀ k, (∃ t, exec (.structureError (.tlbEntry k)) s = .next t ∧ t = { s with dev := { s.dev with tlb := s.dev.tlb.eraseIdx k } })
        ∧ ∃ t, exec (.structureError (.codeLine k)) s = .next t ∧ t = { s with dev := { s.dev with lines := s.dev.lines.eraseIdx k } })
    ∧ (∀ a, let g := placeOf s.dev a
        let k := g.1 * 2048 + g.2 / 64 % 2048
        let dirty : Prop := ∃ e ∈ SMap.get [] s.dev.l2 k, e.1 = g.2 / 64 ∧ e.2 = true
        (dirty → exec (.structureError (.l2Line a)) s = .next (s.setPsn false a true))
        ∧ (¬dirty → ∃ t, exec (.structureError (.l2Line a)) s = .next t ∧ (∀ e ∈ SMap.get [] t.dev.l2 k, e.1 ≠ g.2 / 64) ∧ t.mem = s.mem ∧ t.agents = s.agents))
    ∧ (∀ h, (s.bookAt h.toNat = none → exec (.structureError (.record h)) s = .next s)
        ∧ ∀ b, s.bookAt h.toNat = some b → exec (.structureError (.record h)) s = .next (s.bookingLost (hKey h.toNat)))
    ∧ (∀ cls idx slot, let holder := List.find? (fun (e : Nat × Booking) => e.2.live && e.2.steps.any (fun y => y.slots.contains slot && y.sharesOn cls idx != 0)) s.book.recs
        (holder = none → exec (.structureError (.calSlot cls idx slot)) s = .next s)
        ∧ ∀ k b, holder = some (k, b) → exec (.structureError (.calSlot cls idx slot)) s = .next (s.bookingLost k))
    ∧ (∀ k, (s.recOf k = none → s.bookingLost k = s)
        ∧ ∀ b, s.recOf k = some b → (b.live = false → s.bookingLost k = s)
          ∧ (b.live = true → let core := ((s.cancelBooking k).coresOf b.ctx).headD 0
              let t : TrapInfo := ⟨.umem, 5, BitVec.ofNat 64 (handleOf k b.gen), 0, 0, none, false, none⟩
              s.bookingLost k = (s.cancelBooking k).deliver ⟨Cause.umem.code, true, b.ctx, core, 15, 0, (s.cancelBooking k).recordWords b.ctx core 15 t false noCapture []⟩
                ((s.cancelBooking k).candidates b.ctx .umem 5 false)))
    ∧ (∀ c va t x, (SMap.find? s.ctxs c).isSome = true → s.translate c .fetch false (BitVec.ofNat 64 (va.toNat / 64 * 64)) = (t, .ok x) →
        (t.psn false x.pa = true → exec (.lineFill c va) s = .next s)
        ∧ (t.psn false x.pa = false → ∃ r, exec (.lineFill c va) s = .next r ∧ r.mem = t.mem ∧ r.agents = t.agents
            ∧ r.dev.lines.find? (fun e => e.1 == c && e.2.1 == va.toNat / 64 * 64) = some (c, va.toNat / 64 * 64, fillLine (wordsOf (t.rdBytes false (x.pa / 64 * 64) 64)))))
    ∧ (∀ c va t e, s.translate c .fetch false (BitVec.ofNat 64 (va.toNat / 64 * 64)) = (t, .error e) → exec (.lineFill c va) s = .next s)
    ∧ (∀ c va, SMap.find? s.ctxs c = none → exec (.lineFill c va) s = .next s)

/-- 09 R246, 11 R308: a governed unit takes effect only when lane 0 of its predicate is 1. -/
def Obligations.GovernedSkip : Prop :=
  ∀ (u : U) (s : State), s.lane0 u = false →
    ∀ i ∈ [Instr.addiX u, .leaX u, .pseti u, .movi u, .lui u, .ext u, .ins u, .sel u, .traceMarkX u, .ldx u, .ldAcq u, .ldRlx u, .stx u, .stRlx u, .stRel u]
      ++ [.amoAdd u, .amoMin u, .amoMax u, .amoAnd u, .amoOr u, .amoXor u, .amoSwap u, .amoCas u, .amoAddl u, .pref u, .fmtPush u, .mxMma u, .mxMmas u, .mxZero u]
      ++ [.cpAcc u, .cpLd u, .cpSt u, .cpX u, .cpG u, .cpS u, .cp2d u, .cpSend u, .calBook u, .calCancel u, .calQueryStatus u, .calQuerySlot u]
      ++ [.ctxCreate u, .ctxGrantSet u, .ctxGrantCores u, .ctxGrantMxh u, .ctxGrantCg u, .ctxGrantFx u, .ctxGrantQuota u, .ctxGrantMem u, .ctxGrantSpad u,
          .ctxGrantCal u, .ctxGrantHt u, .ctxGrantRun u, .ctxRevokeCores u, .ctxRevokeMxh u, .ctxRevokeCg u, .ctxRevokeFx u, .ctxRevokeQuota u, .ctxRevokeMem u]
      ++ [.ctxRevokeSpad u, .ctxRevokeCal u, .ctxRevokeHt u, .ctxRevokeRun u, .ctxDestroy u, .ctxQuery u, .coreReset u, .tlbInvRange u, .tlbInvSpace u, .tlbInvHandle u]
      ++ [.csrRd u, .csrWr u, .csrSwap u, .dirtylogEnable u, .dirtylogDisable u, .dirtylogExport u, .dirtylogImport u, .chkresetGo u, .blogWrite u, .bcmbaseWrite u,
          .chkregWrite u, .accfreeWrite u, .isetWrite u, .hsemAcquire u, .hsemRelease u, .pmcLoRead u, .pmcHiWrite u],
      exec i s = .next (s.fin u)

/-- 08 R227-R233: one step of an agent. -/
def Obligations.StepRunsDecoded : Prop :=
  let passes (t1 : State) (st : Nat) (x : IW) : Prop :=
    x.poison = none ∧ featureOff t1.dev.featacc x = none ∧ (∀ r ∈ stageReads x.u, t1.me.locked r = false) ∧ t1.posVerdict x.u.m.lp = .go ∧ (t1.me.xfer = none ∨ notInSlot x.w64 x.major.toNat x.u.mi.toNat = false)
      ∧ agentMay st x.w64 x.major.toNat x.u.mi.toNat = true ∧ (∀ r ∈ t1.unitRegs.1 ++ t1.unitRegs.2, r.wired = true ∨ t1.me.locked r = false)
      ∧ (t1.me.pend.filter (fun p => p.stage == 0)).length < 9 ∧ (memUnit x = true → ∀ p ∈ t1.me.pend, p.acquires = false)
      ∧ t1.me.issdiag.getLsbD 0 = false ∧ t1.badRead = none
  let turn (s s0 t1 : State) (core st : Nat) (i : Instr) : Prop :=
    ∀ r, exec (t1.refine i) t1 = .next r →
      let o : Host.Outcome State Fault Refusal := .next (s0.olderFirst core st ((r.countIssue t1.me.ctx core st).loopEnd core st))
      endsLoop s0 core st o = false →
      (faults core st o = false ∨ ∀ k, k < 6 → k ≠ st → s0.canIssueAt core k = true → faults core k (stepAgent s0 core k) = false) → step s = o
  let unit (core st : Nat) (x : LineUnit) (pc : W64) (inLoop : Bool) : CurUnit :=
    { core := core, st := st, pc := pc, len := x.len, iw := x.iw, inLoop := inLoop, cap := none }
  (∀ (s t : State) (core st : Nat) (rest : List Turn) (x : LineUnit) (i : Instr),
    let s0 : State := { s with agenda := rest }
    s.slotDue = false → s.agenda = .agent core st :: rest → s0.canIssueAt core st = true →
    let a := s.ag core st
    let blank : CurUnit := { core := core, st := st, pc := a.pc, len := 0, iw := IW.blank, inLoop := false, cap := none }
    let b : State := { s0 with fresh := s.fresh + 1, cu := blank, agents := SMap.put s.agents (agKey core st) a }
    a.loading = false → a.replay = [] → a.loop = none → (∀ y, a.xfer = some y → y.left ≠ 0) → b.fetch core st a.pc = (t, .ok (.whole x)) →
    let t0 : State := { t with cu := unit core st x a.pc false }
    let t1 : State := t0.updMe (fun a => { a with brkArm := none, xsrc := none })
    t0.breakAt a a.pc = none → passes t1 st x.iw → x.iw.instr = some i → turn s s0 t1 core st i)
  ∧ (∀ (s : State) (core st : Nat) (rest : List Turn) (l : LoopSt) (x : BodyUnit) (i : Instr),
    let s0 : State := { s with agenda := rest }
    s.slotDue = false → s.agenda = .agent core st :: rest → s0.canIssueAt core st = true →
    let a := s.ag core st
    a.loading = false → a.replay = [] → a.loop = some l → (∀ y, a.xfer = some y → y.left ≠ 0) → l.body[l.idx]? = some x →
    let t0 : State := { s0 with fresh := s.fresh + 1, cu := { core := core, st := st, pc := x.pc, len := x.len, iw := x.iw, inLoop := true, cap := none },
                                agents := SMap.put s.agents (agKey core st) a }
    let t1 : State := t0.updMe (fun a => { a with brkArm := none, xsrc := none })
    t0.breakAt a x.pc = none → passes t1 st x.iw → x.iw.instr = some i → turn s s0 t1 core st i)
  ∧ (∀ (s r : State) (core st : Nat), ((∀ c, (r.ag core st).run ≠ .faulted c) ∨ (s.ag core st).unfinished = []) → s.olderFirst core st r = r)
  ∧ (∀ (s r : State) (core st c i : Nat) (l : List Nat), (r.ag core st).run = .faulted c → (s.ag core st).unfinished = i :: l →
      (∀ t, s.perform core st i = .ok t → s.olderFirst core st r = t)
      ∧ ∀ t, s.perform core st i = .error t → s.olderFirst core st r = s.serveAccess core st i)
  ∧ (∀ (ws : List W32) (i : Instr) (n : Nat), decode ws = .ok (i, n) ↔ (parseUnit ws).1.poison = none ∧ (parseUnit ws).1.instr = some i ∧ (parseUnit ws).2.1 = n)
  ∧ ∀ (w : W32) (ws : List W32), ws.length < 16 → (fillLine (w :: ws)).head? = some ⟨0, (parseUnit (w :: ws)).2.1, (parseUnit (w :: ws)).2.2, (parseUnit (w :: ws)).1⟩

/-- 08 R216-R228: the round trip of encoding and decoding. -/
def Obligations.DecodeEncode : Prop :=
  ∀ i : Instr, i.wellFormed = true → (keyOf i).isSome = true → ∀ rest : List W32, decode (encode i ++ rest) = .ok (i.base, (encode i).length)

/-- The canonical form of the byte stores (log 1: an unlisted byte reads as the model's blank byte, its own choice) is kept by every step. -/
def Obligations.CanonicalMemory : Prop := ∀ s t : State, s.memWf → step s = .next t → t.memWf

/-- 13 R374, 14 R375: the machine goes on from every state; errors of programs are exceptions. -/
def Obligations.StepAnswers : Prop := (∀ (i : Instr) (s : State), ∃ t, exec i s = .next t) ∧ ∀ s : State, ∃ t, step s = .next t

/-- 21 R465, 07 R177, 17 R438: reset. The zero of a register that the spec gives no reset value is the model's choice (log 5). -/
def Obligations.ResetState : Prop :=
  let s := State.reset
  s.memWf ∧ s.ctxs = [] ∧ s.slotNo = 0 ∧ s.book.recs = [] ∧ s.launches = [] ∧ s.jobs = [] ∧ s.dev.featacc = 0 ∧ s.dev.trained = 0 ∧ s.dev.boot = .off
  ∧ (∀ c k, (s.ag c k).item = none ∧ (s.ag c k).run = .idle ∧ (s.ag c k).vstat = 0 ∧ ∀ n, (s.ag c k).sreg n = 0)
  ∧ (∀ c q, s.eq c q = []) ∧ (∀ c t, s.tok c t = 0) ∧ (∀ sp a, s.psn sp a = false ∧ s.rdB sp a = Memory.blank) ∧ (∀ n, SMap.get 0 s.dev.hsem n = 0)
  ∧ ∃ t, step s = .next t ∧ { t with cycle := 0 } = s

/-- 08 R218-R225: words and the instructions they stand for. -/
def Obligations.DecodedWords : Prop :=
  let u (g a b c mi : Nat) (imm : W32) : U := ⟨Mods.none, BitVec.ofNat 4 g, 0, BitVec.ofNat 6 a, BitVec.ofNat 6 b, BitVec.ofNat 6 c, 0, BitVec.ofNat 4 mi, imm⟩
  let word (major g a b c mi : Nat) : W32 := BitVec.ofNat 32 (major * 2 ^ 2 + g * 2 ^ 8 + a * 2 ^ 10 + b * 2 ^ 16 + c * 2 ^ 22 + mi * 2 ^ 28)
  let wordX (major g a b c : Nat) : W32 := BitVec.ofNat 32 (1 + major * 2 ^ 2 + g * 2 ^ 10 + a * 2 ^ 14 + b * 2 ^ 20 + c * 2 ^ 26)
  (decode [word 0x01 2 3 1 2 0] |>.toOption) = some (.add (u 2 3 1 2 0 0), 1)
  ∧ (decode [word 0x09 0 1 1 0 0] |>.toOption) = some (.brGo (u 0 1 1 0 0 0), 1)
  ∧ (decode [word 0x09 0 1 1 0 1] |>.toOption) = some (.call (u 0 1 1 0 1 0), 1)
  ∧ (decode [word 0x0A 0 0 0 0 1] |>.toOption) = some (.loopGo (u 0 0 0 0 1 0), 1)
  ∧ (decode [word 0x0E 0 0 0 0 3] |>.toOption) = some (.taskExit (u 0 0 0 0 3 0), 1)
  ∧ (decode [word 0x0F 0 2 1 0 0] |>.toOption) = some (.calBook (u 0 2 1 0 0 0), 1)
  ∧ (decode [BitVec.ofNat 32 (2 + 2 ^ 7 + 3 * 2 ^ 4), word 0x01 0 3 1 2 1] |>.toOption) = some (.sub { u 0 3 1 2 1 0 with m := ⟨some ⟨true, 3, false, 0⟩, none, false⟩ }, 2)
  ∧ (decode [word 0x20 0 3 1 2 0] |>.toOption) = some (.vadd (u 0 3 1 2 0 0), 1)
  ∧ (decode [wordX 0x10 0 4 2 0, BitVec.ofNat 32 (5 * 2 ^ 6 + 8 * 2 ^ 16)] |>.toOption) = some (.ldx { u 0 4 2 0 0 8 with p := 5 }, 2)
  ∧ (decode [wordX 0x81 0 2 4 0, BitVec.ofNat 32 (6 + 2 ^ 12)] |>.toOption) = some (.mxMma { u 0 2 4 0 1 0 with e := 6 }, 2)
  ∧ (decode [wordX 0x90 0 5 0 0, BitVec.ofNat 32 (0x010 * 2 ^ 16)] |>.toOption) = some (.csrRd (u 0 5 0 0 0 0x010), 2)
  ∧ (decode [word 0x01 0 3 1 2 15] |>.toOption) = none
  ∧ (decode [0x00000003] |>.toOption) = none

/-- 13 R365-R373, 06 R157-R174, 14 R382-R396, 15 R417-R420, 21 R465-R470: where the system instructions and the events complete, one clause each. -/
def Obligations.SystemCompletes : Prop :=
  (∀ (u : U) (s : State) (h : Held), s.me.held = some h →
    Completes (.trapAck u) u s (fun r => r.me.held = some { h with acked := true } ∧ r.me.regs = s.me.regs ∧ r.mem = s.mem)
    ∧ ∀ s1 w, s.allDone = true → s.heldSet h = (s1, .ok [(h.addr, w)]) →
      ((s1.chain (rCtx w)).contains s.myCtx = true → (SMap.find? s1.ctxs (rCtx w)).isSome = true → (s.sA u).toNat < 2 ^ 8 →
        ∃ t, exec (.trapRet u) s = .next t ∧ (t.ag s.cu.core s.cu.st).item = none ∧ (t.ag s.cu.core s.cu.st).run = .idle ∧ (t.ag s.cu.core s.cu.st).held = none
          ∧ t = (((if rStream w = 15 then s1 else s1.returnTo w ((s.sA u).toNat % 256)).freeCaptures w).freeEntries s.myCtx [h.addr]).endHandler h)
      ∧ ∀ p up, (s1.chain s.myCtx).drop 1 = p :: up →
        ∃ t, exec (.trapReflect u) s = .next t ∧ (t.ag s.cu.core s.cu.st).item = none ∧ (t.ag s.cu.core s.cu.st).held = none
          ∧ t = ((s1.freeEntries s.myCtx [h.addr]).deliver ⟨rCause w, rFatal w, rCtx w, rCore w, rStream w, 0, w⟩ (p :: up)).endHandler h)
  ∧ (∀ (u : U) (s : State), s.lane0 u = true → s.exhausted 1 0 = false →
    let x := (s.sA u).toNat
    let v := s.sB u
    let w := s.sC u
    let a := s.sA u
    let y := if bits a 15 0 = 0 then s.myCtx else bits a 15 0
    let k := bits a 6 0
    (bits a 63 9 = 0 → a.getLsbD 7 = false → s.toksOk [u.c.toNat] = true → k ≠ s.cu.core → ((s.ctx s.myCtx).depth = 0 ∨ s.wholeEngine s.myCtx k = true) →
      Completes (.coreReset u) u s (fun r => ∃ (q : State) (j : Job), j.kind = .reset k ∧ j.tok = u.c.toNat ∧ q.jobs = s.jobs ++ [j] ∧ q.cores = s.cores ∧ q.agents = s.agents
        ∧ let z := q.resetCore k (a.getLsbD 8)
          (z.core k).toks = [] ∧ (z.core k).fmtq = [] ∧ (z.core k).dq = [] ∧ (∀ row col, row < 4096 → col < 64 → z.accAt k row col = 0)
          ∧ let b := z.settled.kick
            r = match b.jobs.find? (fun i => i.id == j.id) with | some j' => if b.jobReady j' = true then b.endJob j' else b | none => b))
    ∧ (bits a 63 18 = 0 → (SMap.find? s.ctxs y).isSome = true → s.toksOk [u.c.toNat] = true →
      (bits a 17 16 = 0 → 2 ≤ u.b.toNat → u.b.toNat % 2 = 0 → (s.chain y).contains s.myCtx = true → s.rdS (u.b.toNat + 1) ≠ 0 →
        Completes (.tlbInvRange u) u s (fun r => ∃ before, JobLeft s r (.tlbRange v.toNat (s.rdS (u.b.toNat + 1)).toNat) y u.c.toNat before s.ctxs))
      ∧ (bits a 17 16 = 1 → u.b = 0 → (s.chain y).contains s.myCtx = true → Completes (.tlbInvSpace u) u s (fun r => JobLeft s r .tlbSpace y u.c.toNat [] s.ctxs))
      ∧ (bits a 17 16 = 2 → (s.ctx s.myCtx).depth = 0 → Completes (.tlbInvHandle u) u s (fun r => JobLeft s r (.handle v.toNat) y u.c.toNat [] s.ctxs)))
    ∧ (s.toksOk [u.e.toNat] = true → s.isChild a = true →
      let leaves (i : Instr) (n : Nat) : Prop := Completes i u s (fun r => JobLeft s r (.revoke n v w) x u.e.toNat [] s.ctxs)
      (bits w 63 1 = 0 → leaves (.ctxRevokeCores u) 1) ∧ (bits w 63 2 = 0 → leaves (.ctxRevokeMxh u) 2) ∧ (bits w 63 8 = 0 → leaves (.ctxRevokeCg u) 3)
      ∧ (bits v 63 16 = 0 → w = 0 → leaves (.ctxRevokeFx u) 4) ∧ (w = 0 → v.toNat ≤ bits (s.cw x 13) 31 27 → leaves (.ctxRevokeHt u) 9)
      ∧ (bits v 63 45 = 0 → w.toNat < 16 → bits v 18 0 ≤ bits v 37 19 → (s.win x w.toNat).base ≤ bits v 18 0 * 64 → bits v 37 19 * 64 ≤ (s.win x w.toNat).lim →
          bits v 44 38 ≤ (s.win x w.toNat).cap → leaves (.ctxRevokeSpad u) 7)
      ∧ ((s.ctx s.myCtx).depth = 0 → bits w 63 1 = 0 → leaves (.ctxRevokeCal u) 8)
      ∧ (s.jobs = [] → s.coreAway s.myCtx s.cu.core = false →
        (w = 0 → v.toNat ≤ bits (s.cw x 14) 63 48 → Completes (.ctxRevokeQuota u) u s (fun r => bits (r.cw x 14) 63 48 = v.toNat ∧ r.tok s.cu.core u.e.toNat = s.tokUp s.cu.core u.e.toNat))
        ∧ (w = 0 → v.toNat ≤ bits (s.cw x 15) 63 32 → Completes (.ctxRevokeMem u) u s (fun r => bits (r.cw x 15) 63 32 = v.toNat ∧ r.tok s.cu.core u.e.toNat = s.tokUp s.cu.core u.e.toNat))
        ∧ (v = 1 → w = 0 → (s.ctx x).stt = 2 → Completes (.ctxRevokeRun u) u s (fun r => (r.ctx x).req = true ∧ ∃ j, r.jobs = [j] ∧ j.kind = .revoke 10 1 0 ∧ j.tok = u.e.toNat)))
      ∧ Completes (.ctxDestroy u) u s (fun r => JobLeft s r .destroy x u.e.toNat [(s.ctx x).stt] (s.updCtx x (fun y => { y with stt := 4 })).ctxs)))
  ∧ (∀ (s : State) (j : Job), s.jobs = [j] → s.jobReady j = true → (s.applyJob j).jobs = [j] → (s.applyJob j).coreAway j.own j.core = false →
    let done (i : Instr) : Prop := ∃ t, exec i s = .next t ∧ t.jobs = [] ∧ t.tok j.core j.tok = (s.applyJob j).tokUp j.core j.tok ∧ t.ctxs = (s.applyJob j).ctxs
      ∧ t.dev = (s.applyJob j).dev ∧ t.mem = (s.applyJob j).mem
    (∀ k v w, j.kind = .revoke k v w → done (.revocationComplete j.id)) ∧ (∀ b n, j.kind = .tlbRange b n → done (.tlbInvComplete j.id))
      ∧ (∀ n, j.kind = .handle n → done (.handleInvComplete j.id)) ∧ (j.kind = .destroy → done (.destroyComplete j.id)))
  ∧ (∀ (s : State) (c core : Nat) (w : Wrote), (s.ctx c).trap.nextWrote = some w → s.handlerCore c w.die = some core → (s.ctx c).trap.hstate = .idle → s.ctxHeld c = false →
      ∃ t k, exec (.handlerStart c) s = .next t ∧ (t.core core).deque = k :: (s.core core).deque ∧ k.ctx = c ∧ k.isNew = true ∧ k.held.isSome = true)
  ∧ (∀ (s : State) (core i : Nat) (k : Cont), (s.core core).waiting[i]? = some k → s.contReady k = true → (∀ e ∈ waitToksOf k, s.coreAway k.ctx e.1 = false) →
      ∃ t k', exec (.continuationReady core i) s = .next t ∧ (t.core core).deque = k' :: (s.core core).deque ∧ k'.ctx = k.ctx ∧ k'.launch = k.launch ∧ k'.ready = true
        ∧ (t.core core).waiting = (s.core core).waiting.eraseIdx i)
  ∧ (∀ (s : State) (core v i st : Nat) (k : Cont) (s' : State) (l : Launch), (s.core v).deque[i]? = some k → k.isNew = true → k.held = none →
      s.openSlot core k (List.range 4) = some (s', st) → SMap.find? s'.launches k.launch = some l →
      let started (t : State) : Prop := (t.ag core st).run = .running ∧ (t.ag core st).pc = lhEntry l.words ∧ (t.core v).deque = (s'.core v).deque.eraseIdx i
      (v = core → s.takeIndex core = some i → ∃ t, exec (.continuationTake core) s = .next t ∧ started t)
      ∧ (s.stealIndex core = some (v, i) → (s.ctx k.ctx).pmsel = [] → (s'.ctx k.ctx).pmsel = [] → ∃ t, exec (.continuationSteal core) s = .next t ∧ started t))
  ∧ (∀ (s : State) (core st w : Nat) (x : CurUnit) (ts : List Nat) (t : State), let a := s.ag core st
      st < 4 → a.run = .running → s.runs a.ctx = true → a.wait = .tok ts → a.wunit = some x → a.waitAt = some w → w + 128 ≤ s.cycle → a.pend = [] → a.locks = [] →
      s.tokReady core st = false → (s.rs (s.raceOf core st)).epoch + 1 ≤ maxEpoch → s.cepochFull (s.raceOf core st) = false →
      s.park core st (x.pc + BitVec.ofNat 64 (4 * x.len)) (ts.map (waitTok core)) = (t, true) → exec (.continuationParkTimeout core st) s = .next t)
  ∧ (∀ (s t : State) (c i : Nat) (r : Rec) (l : List Rec), (s.ctx c).trap.pending = r :: l → s.recAsleep r = false → (SMap.find? t.ctxs c).isSome = true →
      s.placeRecord c (bits (r.words.getD 0 0) 63 48) r.fatal (s.entryOrder c r.fatal) r.words = (t, .done [i]) →
      ∃ t', exec (.pendingRecordWrite c) s = .next t' ∧ (t'.ctx c).trap.pending = l ∧ t'.mem = t.mem)
  ∧ (∀ (s : State) (c : Nat),
      ((s.ctx c).stt = 2 → bits (s.cw c 5) 31 0 ≠ 0 → (s.ctx c).wdSt = 0 → (s.ctx c).wdFull = true → bits (s.cw c 5) 31 0 ≤ (s.ctx c).wdCnt →
        ∃ t, exec (.watchdogExpire c) s = .next t ∧ (t.ctx c).wdSt = 1 ∧ (t.ctx c).req = true)
      ∧ (s.saveDue c = 1 → (∀ k ∈ s.agentsOn (s.subtree c) Sel.all, s.readyNow (k / 6) (s.ag (k / 6) (k % 6)) = false) →
          let h := (s.updCtx c (fun x => { x with wdSt := if x.wdSt = 1 then 2 else x.wdSt })).haltSel (s.subtree c) Sel.all
          h.landing (s.subtree c) Sel.all = none → (∀ e ∈ h.cmdsOn (s.subtree c) Sel.all, h.atRest e.2.2 = true) → exec (.forcedSave c) s = .next (h.forceAll c))
      ∧ (s.stopDue c = true → s.book.recs = [] → (s.ctx c).stt = 2 → (s.haltSel (s.subtree c) Sel.all).landing (s.subtree c) Sel.all = none →
          ∃ t, exec (.contextStopComplete c) s = .next t ∧ (t.ctx c).stt = 3 ∧ (t.ctx c).stopping = false)
      ∧ (s.exportReady c = true → (SMap.find? s.ctxs c).isSome = true →
          (s.image (bits ((s.ctx c).dirty.blk.getD 0 0) 15 0)).length / 64 ≤ bits ((s.ctx c).dirty.blk.getD 5 0) 31 0 →
          ∃ t, exec (.exportComplete c) s = .next t ∧ (t.ctx c).dirty.st = 3 ∧ bits (t.ctx c).dirty.reg 1 0 = 0)
      ∧ (∀ m, let x := ((s.ctx c).dirty.blk.getD 0 0).toNat
          s.logBusy c true = true → (SMap.find? s.ctxs c).isSome = true → x ≠ c → (s.ctx x).stt = 1 → (∀ e ∈ s.book.tasks, x ∉ s.chain e.2.ctx) →
          s.readImage c x ((s.ctx c).dirty.blk.getD 4 0) (bits ((s.ctx c).dirty.blk.getD 5 0) 31 0) = some m →
          ∃ t, exec (.importComplete c) s = .next t ∧ (t.ctx c).dirty.st = 4 ∧ (t.ctx x).stt = 3))
  ∧ (∀ s : State,
      (∀ (h : W32) b, s.bookAt h.toNat = some b → s.maySearch b = true → s.logMode b ≠ 2 → s.greedy b (groupsOf b.steps) (s.lowerBound b) = none →
          exec (.bookingSearch h) s = .next (s.noFit (hKey h.toNat) 0))
      ∧ (s.slotAt + 256 ≤ s.cycle → s.jobs = [] → s.book.recs = [] → SMap.rising s.ctxs = true →
          (∀ e ∈ s.ctxs, e.2.slices = [] ∧ e.2.aside.isEmpty = true ∧ bit (s.cw e.1 3) 0 = false) →
          ∃ t, exec .slotBoundary s = .next t ∧ t.slotNo = (s.slotNo + 1) % 2 ^ 48 ∧ t.slotAt = s.slotAt + 256 ∧ t.agents = s.agents ∧ t.mem = s.mem)
      ∧ (∀ die k b, s.waitDue die = [k] → s.recOf k = some b → (s.updRec k (fun b => { b with st := 1 })).maySearch { b with st := 1 } = true →
          exec (.waitListSearch die) s = .next ((s.updRec k (fun b => { b with st := 1 })).search k))
      ∧ (∀ cls idx first len st k lo d rest, s.book.freed = [(cls, idx, first, len)] → SMap.rising s.book.recs = true →
          let b : State := { s with book := { s.book with freed := [] } }
          b.fillers cls idx first len = (st, k, lo, d) :: rest →
          ∃ t y, exec (.backfill cls idx) s = .next t ∧ t.recOf k = some y ∧ y.st = 2)
      ∧ (∀ die t, die ≤ 1 → s.dev.boot = .up → SMap.get 0 s.book.admitAt die ≤ s.cycle → s.book.tasks = [] →
          (s.headOrder die).findSome? (fun e => s.tryHead die e.1 e.2) = some t →
          ∃ r, exec (.taskAdmission die) s = .next r ∧ SMap.get 0 r.book.admitAt die = s.cycle + 16 ∧ r.book.tasks = t.book.tasks)
      ∧ (∀ c q, SMap.get 0 (s.ctx c).headAt q ≠ 0 → SMap.get 0 (s.ctx c).headAt q + 2500000 * (SMap.get 0 (s.ctx c).age q + 1) ≤ s.cycle + 1 →
          ∃ t, exec (.priorityAging c q) s = .next t ∧ SMap.get 0 (t.ctx c).age q = SMap.get 0 (s.ctx c).age q + 1)
      ∧ (∀ i o, s.book.offers[i]? = some o → o.committed = false → o.till ≤ s.slotNo →
          ∃ t, exec (.offerLapse i) s = .next t ∧ t.book.offers = s.book.offers.eraseIdx i)
      ∧ (∀ tag k i x a, s.legOf tag = some (k, i, x) → x.leg = .asked a → a + 64 ≤ s.slotNo → exec (.prepareTimeout tag) s = .next (s.refuseStep k i none)))
  ∧ (∀ s : State,
      (∀ v, ∃ t, exec (.powerGood v) s = .next t ∧ t.dev.boot = (if v then .waiting else .recovery) ∧ t.ctxs = [] ∧ t.agents = [] ∧ t.mem.bytes = s.mem.bytes)
      ∧ (s.dev.boot = .waiting → s.dev.featSet = true → ∃ t, exec .rootContextStart s = .next t ∧ t.dev.boot = .up ∧ (t.ctx rootCtx).stt = 2)
      ∧ (∀ n rest, s.dev.boot = .recovery → s.dev.request 31 = some (n, rest) →
          ∃ t, exec (.recoveryVerify true) s = .next t ∧ t.dev.boot = .waiting ∧ t.dev.image = some (s.rdBytes false 0 (n.toNat * 4096)))
      ∧ (∀ d rest, s.dev.boot = .waiting ∨ s.dev.boot = .up → s.dev.request 30 = some (d, rest) → bits (SMap.get 0 s.dev.hsem 30) 1 0 = 0 →
          ∃ t, exec .attestationReport s = .next t ∧ SMap.get 0 t.dev.hsem 30 = 0 ∧ t.dev.hk = rest)
      ∧ (s.dev.linked = true → (∃ t, exec .thermalThrottle s = .next t ∧ t.dev.throttle = true) ∧ (∃ t, exec .throttleEnd s = .next t ∧ t.dev.throttle = false)
          ∧ ∃ t, exec .computePowerOff s = .next t ∧ t.dev.boot = .dead ∧ t.agents = [] ∧ t.ctxs = [])
      ∧ (∀ a, ∃ t, exec (.memoryErrorDetect (.phys a)) s = .next t ∧ t.psn false a = true)
      ∧ (∀ k, ∃ t, exec (.structureError (.tlbEntry k)) s = .next t ∧ t.dev.tlb = s.dev.tlb.eraseIdx k)
      ∧ (∀ c va t x, (SMap.find? s.ctxs c).isSome = true → s.translate c .fetch false (BitVec.ofNat 64 (va.toNat / 64 * 64)) = (t, .ok x) → t.psn false x.pa = false →
          ∃ r, exec (.lineFill c va) s = .next r
            ∧ r.dev.lines.find? (fun e => e.1 == c && e.2.1 == va.toNat / 64 * 64) = some (c, va.toNat / 64 * 64, fillLine (wordsOf (t.rdBytes false (x.pa / 64 * 64) 64)))))
end

