-- ==== Sys2Proof/Laws/Walk.lean ====
section
/-! SUPPORT. What translating an access can change: bytes of memory, the lines of the L2 slices and the counter of free choices, nothing else. -/

namespace Sys2Proof.Machine

theorem walked_refl (s : State) : Walked s s := rfl

theorem walked_trans {s t r : State} (h1 : Walked s t) (h2 : Walked t r) : Walked s r := by
  have e := congrArg (fun x : State =>
      { x with mem := { x.mem with bytes := s.mem.bytes }, dev := { x.dev with l2 := s.dev.l2 }, adw := s.adw, picks := s.picks })
    (show { r with mem := { r.mem with bytes := t.mem.bytes }, dev := { r.dev with l2 := t.dev.l2 }, adw := t.adw, picks := t.picks } = t from h2)
  exact e.trans h1

theorem walked_wrB (s : State) (a : Nat) (v : Byte) : Walked s (s.wrB false a v) := rfl

theorem walked_wrBytes (s : State) (a : Nat) (bs : List Byte) : Walked s (s.wrBytes false a bs) := by
  induction bs generalizing s a with
  | nil => exact walked_refl s
  | cons b t ih => exact walked_trans (walked_wrB s a b) (ih _ _)

theorem walked_wrP64 (s : State) (a : Nat) (v : W64) : Walked s (s.wrP64 a v) := walked_wrBytes s a _

theorem walked_l2Touch (s : State) (pa pol : Nat) (wr : Bool) : Walked s (s.l2Touch pa pol wr) := rfl

theorem walked_picks {s t : State} (h : Walked s t) (n : Nat) : Walked s { t with picks := n } := h

theorem walked_adw {s t : State} (h : Walked s t) (l : List (Nat × W64)) : Walked s { t with adw := l } := h

/-- A fold of steps. -/
theorem walked_foldl {β : Type} (l : List β) (f : State → β → State) (hf : ∀ s b, Walked s (f s b)) (s : State) : Walked s (l.foldl f s) := by
  induction l generalizing s with
  | nil => exact walked_refl s
  | cons b t ih => exact walked_trans (hf s b) (ih _)

theorem walked_walkLevels (k : Nat) (wk : Bool) (owner : Nat) (rd : W64 → State → State × Except XFail (Nat × W64 × Nat))
    (hr : ∀ a s, Walked s (rd a s).1) (n lvl base : Nat) (a : W64) (s : State) : Walked s (walkLevels k wk owner rd n lvl base a s).1 := by
  induction n generalizing lvl base s with
  | zero => exact walked_refl s
  | succ n ih =>
    unfold walkLevels
    dsimp only
    generalize hx : (if k = 0 then (s, if present s.dev (BitVec.ofNat 64 (base + pteIndex lvl a * 8)).toNat = true then
      Except.ok ((BitVec.ofNat 64 (base + pteIndex lvl a * 8)).toNat, BitVec.ofNat 64 (base + pteIndex lvl a * 8), 0) else Except.error ⟨0, 6, lvl, wk, a, false⟩)
      else rd (BitVec.ofNat 64 (base + pteIndex lvl a * 8)) s) = x
    have h1 : Walked s x.1 := by
      rw [← hx]
      split
      · exact walked_refl s
      · exact hr _ _
    obtain ⟨t, r⟩ := x
    cases r with
    | error f => exact h1
    | ok pea =>
      dsimp only
      have h2 := walked_trans h1 (walked_l2Touch t pea.1 pea.2.2 false)
      repeat' split
      all_goals first
        | exact h1
        | exact h2
        | exact walked_trans h2 (ih _ _ _)

theorem walked_setAd (s : State) (c : Nat) (wk : Bool) (acc : Acc) (e : W64) (pea : Nat) (ea : W64) (pol : Nat) :
    Walked s (s.setAd c wk acc e pea ea pol) := by
  unfold State.setAd
  split
  · exact walked_refl s
  · exact walked_adw (walked_trans (walked_wrP64 s pea _) (walked_l2Touch _ _ _ _)) _

/-- A pair's state, from the pair. -/
theorem walked_of {α : Type} {s t : State} {x : State × α} {y : α} (h : x = (t, y)) (hw : Walked s x.1) : Walked s t := by
  rw [h] at hw; exact hw

theorem walked_xlateFor (free : Bool) (ch : List Nat) (acc : Acc) (wk : Bool) (a : W64) (s : State) : Walked s (xlateFor free ch acc wk a s).1 := by
  induction ch generalizing acc wk a s with
  | nil => exact walked_refl s
  | cons c up ih =>
    unfold xlateFor
    dsimp only
    split
    · exact walked_refl s
    · split
      · exact walked_refl s
      · have hrd : ∀ (ea : W64) (s : State), Walked s (match xlateFor free up .read true ea s with
            | (s, .ok t) => (s, .ok (t.pa, t.rootVa, t.policy))
            | (s, .error f) => (s, .error f) : State × Except XFail (Nat × W64 × Nat)).1 := by
          intro ea s
          split
          next h => exact walked_of h (ih _ _ _ _)
          next h => exact walked_of h (ih _ _ _ _)
        split
        next h => exact walked_of h (walked_walkLevels _ _ _ _ hrd _ _ _ _ _)
        next t e pea lvl ea pol h =>
          have hw : Walked s t := walked_of h (walked_walkLevels _ _ _ _ hrd _ _ _ _ _)
          clear h
          have hx := walked_trans hw (walked_setAd t c wk acc e pea ea pol)
          generalize t.setAd c wk acc e pea ea pol = x at hx
          split
          · exact hw
          · split
            · split <;> exact hx
            · split
              next h2 => exact walked_trans hx (walked_of h2 (ih _ _ _ _))
              next h2 => exact walked_trans hx (walked_of h2 (ih _ _ _ _))

theorem walked_xlate (ch : List Nat) (acc : Acc) (wk : Bool) (a : W64) (s : State) : Walked s (xlate ch acc wk a s).1 :=
  walked_xlateFor _ _ _ _ _ _

theorem walked_markBit (s : State) (l i : Nat) : Walked s (s.markBit l i) := by
  unfold State.markBit
  dsimp only
  split
  next t f h => exact walked_of h (walked_xlate _ _ _ _ _)
  next t x h =>
    have h1 : Walked s t := walked_of h (walked_xlate _ _ _ _ _)
    exact walked_trans (walked_trans h1 (walked_wrP64 _ _ _)) (walked_l2Touch _ _ _ _)

theorem walked_ite {s x y : State} {p : Prop} [Decidable p] (hx : Walked s x) (hy : Walked s y) : Walked s (if p then x else y) := by
  split
  · exact hx
  · exact hy

theorem walked_markSpan (s : State) (l a n : Nat) : Walked s (s.markSpan l a n) :=
  walked_foldl _ _ (fun _ _ => walked_ite (walked_markBit _ _ _) (walked_refl _)) s

theorem walked_mark (s : State) (c : Nat) (va : W64) (n : Nat) : Walked s (s.mark c va n) := by
  refine walked_foldl _ _ (fun s e => ?_) s
  split
  · exact walked_markSpan _ _ _ _
  · exact walked_refl _

theorem walked_markAdN (n : Nat) (s : State) : Walked s (s.markAdN n) := by
  induction n generalizing s with
  | zero => exact walked_adw (walked_refl s) _
  | succ n ih =>
    unfold State.markAdN
    split
    · exact walked_refl s
    · have h1 : Walked s { s with adw := [] } := walked_adw (walked_refl s) []
      have h2 := walked_foldl s.adw (fun (s : State) e => if (s.ctx e.1).depth = 0 then s else s.mark (s.ctx e.1).parent e.2 8)
        (fun s e => walked_ite (walked_refl s) (walked_mark s _ _ _)) { s with adw := [] }
      exact walked_trans (walked_trans h1 h2) (ih _)

theorem walked_markAd (s : State) : Walked s s.markAd := walked_markAdN 4 s

theorem walked_lookup (s : State) (free : Bool) (c : Nat) (acc : Acc) (a : W64) : Walked s (s.lookup free c acc a).1 := by
  have hw : ∀ s : State, Walked s (match xlateFor free (s.chain c) acc false a s with | (s, r) => (s.markAd, r) : State × Except XFail XOk).1 :=
    fun s => walked_trans (walked_xlateFor _ _ _ _ _ _) (walked_markAd _)
  unfold State.lookup
  split
  · dsimp only
    split
    · exact walked_picks (walked_refl s) _
    · exact walked_trans (walked_picks (walked_refl s) (s.picks + 1)) (hw _)
  · exact hw s

theorem walked_translateFor (s : State) (free : Bool) (c : Nat) (acc : Acc) (spill : Bool) (a : W64) : Walked s (s.translateFor free c acc spill a).1 := by
  have h0 := walked_lookup s free c acc a
  unfold State.translateFor
  split
  next h => exact walked_of h h0
  next h =>
    have h1 := walked_of h h0
    repeat' split
    all_goals exact h1

theorem walked_translate (s : State) (c : Nat) (acc : Acc) (spill : Bool) (a : W64) : Walked s (s.translate c acc spill a).1 :=
  walked_translateFor _ _ _ _ _ _

theorem walked_piecesFor (free : Bool) (c : Nat) (acc : Acc) (spill : Bool) (base : W64) (l : List (Nat × Nat)) (off : Nat) (s : State) :
    Walked s (s.piecesFor free c acc spill base l off).1 := by
  induction l generalizing s off with
  | nil => exact walked_refl s
  | cons e t ih =>
    obtain ⟨o, n⟩ := e
    unfold State.piecesFor
    dsimp only
    have h0 := walked_translateFor s free c acc spill (base + BitVec.ofNat 64 o)
    split
    next h => rw [h] at h0; exact h0
    next h =>
      rw [h] at h0
      split
      next h2 => exact walked_trans h0 (walked_of h2 (ih _ _))
      next h2 => exact walked_trans h0 (walked_of h2 (ih _ _))

theorem walked_access (s : State) (c : Nat) (acc : Acc) (spill : Bool) (va : W64) (n : Nat) : Walked s (s.access c acc spill va n).1 :=
  walked_piecesFor _ _ _ _ _ _ _ _

/-- What reaching an address can change. -/
theorem walked_reach (s : State) (sp : Bool) (acc : Acc) (ea : W64) (n : Nat) : Walked s (s.reach sp acc ea n).1 := by
  unfold State.reach
  split
  · split <;> exact walked_refl s
  · have h0 := walked_access s s.myCtx acc false ea n
    split
    next h => rw [h] at h0; exact h0
    next h => rw [h] at h0; exact h0

end Sys2Proof.Machine
end

