-- ==== Sys2Proof/Laws/Access.lean ====
section
/-! SUPPORT. What performing an access can change: metadata, the bytes stored, L2. -/

namespace Sys2Proof.Machine

/-- A fold of steps that each keep a relation to the first state. -/
theorem foldl_rel {α β : Type} (R : α → α → Prop) (hr : ∀ x, R x x) (ht : ∀ x y z, R x y → R y z → R x z) (f : α → β → α)
    (hf : ∀ x b, R x (f x b)) (l : List β) (x : α) : R x (l.foldl f x) := by
  induction l generalizing x with
  | nil => exact hr x
  | cons b t ih => exact ht _ _ _ (hf x b) (ih _)

/-- With no counter selected, a counter event changes nothing. -/
theorem count_quiet {s : State} {c : Nat} (h : (s.ctx c).pmsel = []) (core st ev n : Nat) : s.count c core st ev n = s := by
  simp [State.count, h]

/-- Nothing has changed but L2. -/
def L2Only (s t : State) : Prop := { t with dev := { t.dev with l2 := s.dev.l2 } } = s

theorem L2Only.ctxs {s t : State} (h : L2Only s t) : t.ctxs = s.ctxs := by
  have e : s = _ := (show _ = s from h).symm
  rw [e]

theorem L2Only.agents {s t : State} (h : L2Only s t) : t.agents = s.agents := by
  have e : s = _ := (show _ = s from h).symm
  rw [e]

theorem L2Only.cores {s t : State} (h : L2Only s t) : t.cores = s.cores := by
  have e : s = _ := (show _ = s from h).symm
  rw [e]

theorem L2Only.mem {s t : State} (h : L2Only s t) : t.mem = s.mem := by
  have e : s = _ := (show _ = s from h).symm
  rw [e]

theorem L2Only.cu {s t : State} (h : L2Only s t) : t.cu = s.cu := by
  have e : s = _ := (show _ = s from h).symm
  rw [e]

theorem l2Only_trans {s t r : State} (h1 : L2Only s t) (h2 : L2Only t r) : L2Only s r := by
  have e := congrArg (fun x : State => { x with dev := { x.dev with l2 := s.dev.l2 } })
    (show { r with dev := { r.dev with l2 := t.dev.l2 } } = t from h2)
  exact e.trans h1

theorem l2Only_touch (s : State) (pa pol : Nat) (wr : Bool) : L2Only s (s.l2Touch pa pol wr) := rfl

theorem l2Only_ctx {s t : State} (h : L2Only s t) (c : Nat) : t.ctx c = s.ctx c := by
  have : t.ctxs = s.ctxs := h.ctxs
  simp [State.ctx, this]

theorem l2Only_l2Ps {s : State} {c : Nat} (h : (s.ctx c).pmsel = []) (core st : Nat) (ps : List Piece) (wr : Bool) :
    L2Only s (s.l2Ps c core st ps wr) := by
  unfold State.l2Ps
  induction ps generalizing s with
  | nil => rfl
  | cons p t ih =>
    rw [List.foldl_cons]
    by_cases hp : p.sp = true
    · rw [if_pos hp]; exact ih h
    · rw [if_neg hp, count_quiet h]
      have h1 := l2Only_touch s p.a p.pol wr
      exact l2Only_trans h1 (ih (by rw [l2Only_ctx h1]; exact h))

/-- Where a byte is stored does not depend on L2. -/
theorem placeOf_l2 (d : Dev) (x : SMap (List (Nat × Bool))) (pa : Nat) : placeOf { d with l2 := x } pa = placeOf d pa := rfl

theorem l2Only_rdB {s t : State} (h : L2Only s t) : SameBytes s t := by
  intro sp a
  have hm : t.mem = s.mem := h.mem
  have hd : { t.dev with l2 := s.dev.l2 } = s.dev := congrArg State.dev (show { t with dev := { t.dev with l2 := s.dev.l2 } } = s from h)
  have hk : memKey t.dev a = memKey s.dev a := by rw [← hd]; rfl
  simp [State.rdB, hm, hk]

/-- Nothing has changed but race metadata. -/
def MdOnly (s t : State) : Prop := { t with mem := { t.mem with md := s.mem.md, spadMd := s.mem.spadMd } } = s

theorem MdOnly.ctxs {s t : State} (h : MdOnly s t) : t.ctxs = s.ctxs := by
  have e : s = _ := (show _ = s from h).symm
  rw [e]

theorem MdOnly.agents {s t : State} (h : MdOnly s t) : t.agents = s.agents := by
  have e : s = _ := (show _ = s from h).symm
  rw [e]

theorem MdOnly.cores {s t : State} (h : MdOnly s t) : t.cores = s.cores := by
  have e : s = _ := (show _ = s from h).symm
  rw [e]

theorem MdOnly.dev {s t : State} (h : MdOnly s t) : t.dev = s.dev := by
  have e : s = _ := (show _ = s from h).symm
  rw [e]

theorem MdOnly.cu {s t : State} (h : MdOnly s t) : t.cu = s.cu := by
  have e : s = _ := (show _ = s from h).symm
  rw [e]

theorem MdOnly.bytes {s t : State} (h : MdOnly s t) : t.mem.bytes = s.mem.bytes := by
  have e : s = _ := (show _ = s from h).symm
  rw [e]

theorem MdOnly.spad {s t : State} (h : MdOnly s t) : t.mem.spad = s.mem.spad := by
  have e : s = _ := (show _ = s from h).symm
  rw [e]

theorem mdOnly_recordMd (s : State) (l : List (Piece × (W64 × W64))) : MdOnly s (s.recordMd l) := by
  refine foldl_rel MdOnly (fun _ => rfl) (fun x y z h1 h2 => ?_) _ (fun x e => ?_) l s
  · have e := congrArg (fun w : State => { w with mem := { w.mem with md := x.mem.md, spadMd := x.mem.spadMd } })
      (show { z with mem := { z.mem with md := y.mem.md, spadMd := y.mem.spadMd } } = y from h2)
    exact e.trans h1
  · unfold State.setMd; split <;> rfl

theorem mdOnly_rdB {s t : State} (h : MdOnly s t) : SameBytes s t := by
  intro sp a
  have hd : t.dev = s.dev := h.dev
  have hb : t.mem.bytes = s.mem.bytes := h.bytes
  have hs : t.mem.spad = s.mem.spad := h.spad
  simp [State.rdB, hd, hb, hs]

theorem mdOnly_quiet {s t : State} (h : MdOnly s t) (hc : (s.ctx s.myCtx).pmsel = []) : (t.ctx t.myCtx).pmsel = [] := by
  have h1 : t.ctxs = s.ctxs := h.ctxs
  have h2 : t.agents = s.agents := h.agents
  have h3 : t.cu = s.cu := h.cu
  simpa [State.ctx, State.myCtx, State.me, State.ag, h1, h2, h3] using hc

/-- A read that has been performed. -/
theorem readDone (t : State) (ps : List Piece) (m : List (Piece × (W64 × W64))) :
    ReadDone t ((t.recordMd m).l2Ps t.myCtx t.cu.core t.cu.st ps false) ps m := by
  refine ⟨rfl, fun hq => ?_⟩
  have h1 := mdOnly_recordMd t m
  have hc : ((t.recordMd m).ctx t.myCtx).pmsel = [] := by
    have : (t.recordMd m).ctxs = t.ctxs := h1.ctxs
    simpa [State.ctx, this] using hq.1
  have h2 := l2Only_l2Ps hc t.cu.core t.cu.st ps false
  exact ⟨(h2.agents).trans (h1.agents), (h2.cores).trans (h1.cores),
    (h2.ctxs).trans (h1.ctxs), fun sp a => (l2Only_rdB h2 sp a).trans (mdOnly_rdB h1 sp a)⟩

/-- What stores leave alone: everything but bytes, poison marks and published states. -/
def StoreOnly (s t : State) : Prop :=
  { t with mem := { t.mem with bytes := s.mem.bytes, spad := s.mem.spad, psn := s.mem.psn, spadPsn := s.mem.spadPsn, pubs := s.mem.pubs } } = s

theorem StoreOnly.ctxs {s t : State} (h : StoreOnly s t) : t.ctxs = s.ctxs := by
  have e : s = _ := (show _ = s from h).symm
  rw [e]

theorem StoreOnly.agents {s t : State} (h : StoreOnly s t) : t.agents = s.agents := by
  have e : s = _ := (show _ = s from h).symm
  rw [e]

theorem StoreOnly.cores {s t : State} (h : StoreOnly s t) : t.cores = s.cores := by
  have e : s = _ := (show _ = s from h).symm
  rw [e]

theorem StoreOnly.dev {s t : State} (h : StoreOnly s t) : t.dev = s.dev := by
  have e : s = _ := (show _ = s from h).symm
  rw [e]

theorem StoreOnly.cu {s t : State} (h : StoreOnly s t) : t.cu = s.cu := by
  have e : s = _ := (show _ = s from h).symm
  rw [e]

theorem storeOnly_trans {s t r : State} (h1 : StoreOnly s t) (h2 : StoreOnly t r) : StoreOnly s r := by
  have e := congrArg (fun x : State => { x with mem := { x.mem with bytes := s.mem.bytes, spad := s.mem.spad, psn := s.mem.psn, spadPsn := s.mem.spadPsn, pubs := s.mem.pubs } })
    (show { r with mem := { r.mem with bytes := t.mem.bytes, spad := t.mem.spad, psn := t.mem.psn, spadPsn := t.mem.spadPsn, pubs := t.mem.pubs } } = t from h2)
  exact e.trans h1

theorem storeOnly_wrBytes (s : State) (sp : Bool) (a : Nat) (bs : List Byte) : StoreOnly s (s.wrBytes sp a bs) := by
  induction bs generalizing s a with
  | nil => rfl
  | cons b t ih =>
    refine storeOnly_trans (t := s.wrB sp a b) ?_ (ih _ _)
    cases sp <;> rfl

theorem storeOnly_setPsn (s : State) (sp : Bool) (a : Nat) (v : Bool) : StoreOnly s (s.setPsn sp a v) := by cases sp <;> rfl

theorem storeOnly_dropPubs (s : State) (sp : Bool) (a n : Nat) : StoreOnly s (s.dropPubs sp a n) := by
  unfold State.dropPubs
  split
  · rfl
  · exact foldl_rel StoreOnly (fun _ => rfl) (fun _ _ _ => storeOnly_trans) (fun (s : State) x => s.setPubs sp x []) (fun _ _ => rfl) _ _

theorem storeOnly_storeOne (s : State) (p : Piece) (data : List Byte) : StoreOnly s (s.storeOne p data) := by
  unfold State.storeOne
  refine storeOnly_trans ?_ (storeOnly_dropPubs _ _ _ _)
  refine storeOnly_trans (storeOnly_wrBytes s p.sp p.a ((data.drop p.off).take p.n)) ?_
  split
  · exact storeOnly_setPsn _ _ _ _
  · rfl

theorem storeOnly_store (s : State) (ps : List Piece) (data : List Byte) : StoreOnly s (s.store ps data) :=
  foldl_rel StoreOnly (fun _ => rfl) (fun _ _ _ => storeOnly_trans) _ (fun _ _ => storeOnly_storeOne _ _ _) ps s

theorem storeOnly_cell {s t : State} (h : StoreOnly s t) (sp : Bool) (a : Nat) : t.cellOf sp a = s.cellOf sp a := by
  have hd : t.dev = s.dev := h.dev
  simp [State.cellOf, hd]

theorem rdB_setPsn (s : State) (sp : Bool) (a : Nat) (v : Bool) : SameBytes s (s.setPsn sp a v) := by
  intro sp' b; cases sp <;> cases sp' <;> rfl

theorem rdB_dropPubs (s : State) (sp : Bool) (a n : Nat) : SameBytes s (s.dropPubs sp a n) := by
  unfold State.dropPubs
  split
  · exact fun _ _ => rfl
  · exact foldl_rel SameBytes (fun _ _ _ => rfl) (fun x y z h1 h2 sp a => (h2 sp a).trans (h1 sp a)) _ (fun x b sp' a' => by cases sp' <;> rfl) _ _

/-- A byte after one piece has been stored. -/
theorem rdB_storeOne (s : State) (p : Piece) (data : List Byte) (sp : Bool) (a : Nat) :
    (s.storeOne p data).rdB sp a = (s.wrBytes p.sp p.a ((data.drop p.off).take p.n)).rdB sp a := by
  unfold State.storeOne
  rw [rdB_dropPubs]
  split
  · exact rdB_setPsn _ _ _ _ _ _
  · rfl

/-- A byte after consecutive bytes have been written, by its cell. -/
theorem rdB_wrBytes_cell (s : State) (sp : Bool) (a : Nat) (bs : List Byte) (sp' : Bool) (b : Nat)
    (h : s.cellOf sp' b ∉ (span a bs.length).map (s.cellOf sp)) : (s.wrBytes sp a bs).rdB sp' b = s.rdB sp' b := by
  refine State.rdB_wrBytes_ne s sp a bs sp' b (fun k hk hx => h ?_)
  obtain ⟨rfl, hx⟩ := hx
  refine List.mem_map.2 ⟨a + k, ?_, ?_⟩
  · simp only [span, List.mem_map, List.mem_range]; exact ⟨k, hk, by omega⟩
  · cases sp <;> simp_all [State.cellOf]

theorem span_cons (a n : Nat) : span a (n + 1) = a :: span (a + 1) n := by
  simp only [span, List.range_succ_eq_map, List.map_cons, List.map_map, Nat.add_zero]
  congr 1
  apply List.map_congr_left
  intro k _
  simp only [Function.comp_apply]; omega

theorem wrBytes_cell (s : State) (sp : Bool) (a : Nat) (bs : List Byte) (sp' : Bool) (b : Nat) :
    (s.wrBytes sp a bs).cellOf sp' b = s.cellOf sp' b := storeOnly_cell (storeOnly_wrBytes _ _ _ _) _ _

/-- Bytes read back where they have been written. -/
theorem rdBytes_wrBytes (s : State) (sp : Bool) (a : Nat) (bs : List Byte) (h : ((span a bs.length).map (s.cellOf sp)).Nodup) :
    (s.wrBytes sp a bs).rdBytes sp a bs.length = bs := by
  induction bs generalizing s a with
  | nil => rfl
  | cons x t ih =>
    rw [List.length_cons, span_cons, List.map_cons, List.nodup_cons] at h
    have hc : ∀ b, (s.wrB sp a x).cellOf sp b = s.cellOf sp b := fun b => by simp [State.cellOf]
    have hm : (span (a + 1) t.length).map ((s.wrB sp a x).cellOf sp) = (span (a + 1) t.length).map (s.cellOf sp) := by
      apply List.map_congr_left; intro b _; exact hc b
    rw [State.rdBytes, List.length_cons, span_cons, List.map_cons]
    congr 1
    · rw [State.wrBytes, rdB_wrBytes_cell _ _ _ _ _ _ (by rw [hc, hm]; exact h.1), State.rdB_wrB]
      simp
    · have := ih (s.wrB sp a x) (a + 1) (by rw [hm]; exact h.2)
      exact this

theorem storeOne_cell (s : State) (p : Piece) (data : List Byte) (sp : Bool) (a : Nat) :
    (s.storeOne p data).cellOf sp a = s.cellOf sp a := storeOnly_cell (storeOnly_storeOne _ _ _) _ _

theorem cellsOf_congr {s t : State} (h : ∀ sp a, t.cellOf sp a = s.cellOf sp a) (ps : List Piece) : t.cellsOf ps = s.cellsOf ps := by
  have : t.cellOf = s.cellOf := funext (fun sp => funext (fun a => h sp a))
  simp only [State.cellsOf, this]

/-- Pieces read alike where bytes do. -/
theorem load_congr {s t : State} (h : SameBytes s t) (ps : List Piece) : t.load ps = s.load ps := by
  have : t.rdB = s.rdB := funext (fun sp => funext (fun a => h sp a))
  simp only [State.load, State.rdBytes, this]

theorem cellsOf_storeOne (s : State) (p : Piece) (data : List Byte) (ps : List Piece) : (s.storeOne p data).cellsOf ps = s.cellsOf ps := by
  exact cellsOf_congr (fun sp a => storeOne_cell s p data sp a) ps

theorem rdB_storeOne_ne (s : State) (p : Piece) (data : List Byte) (sp : Bool) (a : Nat)
    (h : s.cellOf sp a ∉ (span p.a p.n).map (s.cellOf p.sp)) : (s.storeOne p data).rdB sp a = s.rdB sp a := by
  rw [rdB_storeOne, rdB_wrBytes_cell]
  intro hm
  obtain ⟨b, hb, he⟩ := List.mem_map.1 hm
  refine h (List.mem_map.2 ⟨b, ?_, he⟩)
  simp only [span, List.mem_map, List.mem_range, List.length_take] at hb ⊢
  obtain ⟨k, hk, rfl⟩ := hb
  exact ⟨k, by omega, rfl⟩

/-- What a store of pieces writes, and that it writes nothing else. -/
theorem storedBytes_store (ps : List Piece) (data : List Byte) : ∀ s : State, StoredBytes s (s.store ps data) ps data := by
  induction ps with
  | nil => exact fun s => ⟨fun _ _ _ => rfl, fun _ _ => rfl⟩
  | cons p t ih =>
    intro s
    obtain ⟨h1, h2⟩ := ih (s.storeOne p data)
    have hs : s.store (p :: t) data = (s.storeOne p data).store t data := rfl
    rw [hs]
    rw [cellsOf_storeOne] at h1 h2
    refine ⟨fun sp a h => ?_, fun hn hl => ?_⟩
    · simp only [State.cellsOf, List.flatMap_cons, List.mem_append, not_or] at h
      rw [h1 sp a (by rw [storeOne_cell]; exact h.2), rdB_storeOne_ne _ _ _ _ _ h.1]
    · simp only [State.cellsOf, List.flatMap_cons, List.nodup_append] at hn
      obtain ⟨n1, n2, n3⟩ := hn
      simp only [State.load, List.flatMap_cons] at *
      congr 1
      · have hlen : ((data.drop p.off).take p.n).length = p.n := by
          have := hl p List.mem_cons_self
          simp; omega
        have hb : ∀ b ∈ span p.a p.n, ((s.storeOne p data).store t data).rdB p.sp b = (s.storeOne p data).rdB p.sp b := by
          intro b hb
          refine h1 p.sp b ?_
          rw [storeOne_cell]
          intro hm
          exact n3 _ (List.mem_map_of_mem hb) _ hm rfl
        have hw := rdBytes_wrBytes s p.sp p.a ((data.drop p.off).take p.n) (by rw [hlen]; exact n1)
        rw [hlen] at hw
        rw [← hw]
        simp only [State.rdBytes]
        apply List.map_congr_left
        intro b hx
        rw [hb b hx, rdB_storeOne]
      · exact h2 n2 (fun q hq => hl q (List.mem_cons_of_mem _ hq))

/-- Logs depend on the contexts alone. -/
theorem loggers_congr {s t : State} (h : t.ctxs = s.ctxs) (c : Nat) : t.loggers c = s.loggers c := by
  have hx : t.ctx = s.ctx := funext (fun c => by simp [State.ctx, h])
  have hch : ∀ n c, t.chainAux n c = s.chainAux n c := by
    intro n
    induction n with
    | zero => intro c; rfl
    | succ n ih => intro c; simp only [State.chainAux, hx, ih]
  unfold State.loggers State.chain
  rw [hx, hch]

/-- A store by a context whose writes no log covers. -/
theorem storeAs_quiet {s : State} {c : Nat} (hl : s.loggers c = []) (ha : s.adw = []) (ps : List Piece) (data : List Byte) :
    s.storeAs c ps data = s.store ps data := by
  have hm : ∀ va n, s.mark c va n = s := by intro va n; simp [State.mark, hl]
  have : ∀ l : List Piece, l.foldl (fun s p => if p.sp then s else s.mark c p.va p.n) s = s := by
    intro l
    induction l with
    | nil => rfl
    | cons p t ih =>
      rw [List.foldl_cons]
      split
      · exact ih
      · rw [hm]; exact ih
  rw [State.storeAs, this]
  simp [State.markAd, State.markAdN, ha]

/-- A write that has been performed. -/
theorem writeDone (t : State) (ps : List Piece) (m : List (Piece × (W64 × W64))) (data : List Byte) :
    WriteDone t (((t.recordMd m).storeAs t.myCtx ps data).l2Ps t.myCtx t.cu.core t.cu.st ps true) ps m data := by
  refine ⟨rfl, fun hq => ?_⟩
  obtain ⟨q1, q2, q3⟩ := hq
  have h1 := mdOnly_recordMd t m
  have hl : (t.recordMd m).loggers t.myCtx = [] := by rw [loggers_congr h1.ctxs]; exact q2
  have ha : (t.recordMd m).adw = [] := by
    have e : t = _ := (show _ = t from h1).symm
    rw [e] at q3; exact q3
  rw [storeAs_quiet hl ha]
  have h2 := storeOnly_store (t.recordMd m) ps data
  have hc : (((t.recordMd m).store ps data).ctx t.myCtx).pmsel = [] := by
    have : ((t.recordMd m).store ps data).ctxs = t.ctxs := h2.ctxs.trans h1.ctxs
    simpa [State.ctx, this] using q1
  have h3 := l2Only_l2Ps hc t.cu.core t.cu.st ps true
  refine ⟨h3.agents.trans (h2.agents.trans h1.agents), h3.cores.trans (h2.cores.trans h1.cores), h3.ctxs.trans (h2.ctxs.trans h1.ctxs), ?_⟩
  obtain ⟨s1, s2⟩ := storedBytes_store ps data (t.recordMd m)
  have hcell : ∀ sp a, (t.recordMd m).cellOf sp a = t.cellOf sp a := fun sp a => by simp [State.cellOf, h1.dev]
  have hcells : (t.recordMd m).cellsOf ps = t.cellsOf ps := cellsOf_congr hcell ps
  rw [hcells] at s1 s2
  refine ⟨fun sp a h => ?_, fun hn hl => ?_⟩
  · rw [l2Only_rdB h3, s1 sp a (by rw [hcell]; exact h), mdOnly_rdB h1]
  · rw [← s2 hn hl]
    exact load_congr (l2Only_rdB h3) ps

end Sys2Proof.Machine
end

