-- ==== Sys2Proof/Laws/Lanes.lean ====
section
/-! SUPPORT. Lanes of vector values and of element maps, and what completing a vector instruction does. -/

namespace Sys2Proof.Machine

@[simp] theorem vreg_lanes_length (v : VReg) : v.lanes.length = 1024 := by
  cases v with
  | undef t => simp [VReg.lanes]
  | dense l => simp [VReg.lanes]; omega

/-- A lane of the list of lanes. -/
theorem vreg_lanes_get (v : VReg) (k : Nat) (h : k < 1024) : v.lanes.getD k 0 = v.lane k := by
  cases v with
  | undef t => simp [VReg.lanes, VReg.lane, List.getD_eq_getElem?_getD, h]
  | dense l =>
    simp only [VReg.lanes, VReg.lane, List.getD_eq_getElem?_getD, List.getElem?_take, h, if_true, List.getElem?_append]
    split
    · rfl
    next hl =>
      rw [List.getElem?_eq_none (l := l) (by omega), List.getElem?_replicate]
      split <;> rfl

/-- Trailing zero lanes are not kept. -/
theorem trimLanes_get (l : List W32) (k : Nat) : (trimLanes l).getD k 0 = l.getD k 0 := by
  have h0 : ∀ (m : List W32) (n : Nat), (m.dropWhile (· == 0)).reverse.getD n 0 = m.reverse.getD n 0 := by
    intro m
    induction m with
    | nil => intro n; rfl
    | cons x t ih =>
      intro n
      rw [List.dropWhile_cons]
      split
      next h =>
        rw [ih, List.reverse_cons]
        simp only [List.getD_eq_getElem?_getD, List.getElem?_append]
        split
        · rfl
        next h2 =>
          rw [List.getElem?_eq_none (by omega)]
          have hx : x = 0 := by simpa using h
          rcases Nat.lt_or_ge (n - t.reverse.length) 1 with h3 | h3
          · rw [show n - t.reverse.length = 0 by omega]; simp [hx]
          · rw [List.getElem?_eq_none (by simpa using h3)]
      next => rfl
  have := h0 l.reverse k
  rw [List.reverse_reverse] at this
  exact this

/-- A lane of a vector value made of lanes. -/
theorem vregOf_lane (l : List W32) (k : Nat) : (VReg.of l).lane k = l.getD k 0 := trimLanes_get l k

@[simp] theorem boolsOf_length (g : Lanes) : (boolsOf g).length = 1024 := by simp [boolsOf]

theorem boolsOf_get (g : Lanes) (k : Nat) (h : k < 1024) : (boolsOf g)[k]? = some (g.getLsbD k) := by
  simp [boolsOf, h]

/-- Lane k of an element map. -/
theorem mapLanes_get (f : W32 → W32 → W32 → W32 × W64) : ∀ (k : Nat) (g : List Bool) (x y z o : List W32),
    k < g.length → k < x.length → k < y.length → k < z.length → k < o.length →
    (mapLanes f g x y z o)[k]? = some (if g.getD k false then f (x.getD k 0) (y.getD k 0) (z.getD k 0) else (o.getD k 0, 0))
  | _, [], _, _, _, _, h, _, _, _, _ => absurd h (by simp)
  | _, _ :: _, [], _, _, _, _, h, _, _, _ => absurd h (by simp)
  | _, _ :: _, _ :: _, [], _, _, _, _, h, _, _ => absurd h (by simp)
  | _, _ :: _, _ :: _, _ :: _, [], _, _, _, _, h, _ => absurd h (by simp)
  | _, _ :: _, _ :: _, _ :: _, _ :: _, [], _, _, _, _, h => absurd h (by simp)
  | 0, _ :: _, _ :: _, _ :: _, _ :: _, _ :: _, _, _, _, _, _ => rfl
  | k + 1, _ :: gs, _ :: xs, _ :: ys, _ :: zs, _ :: os, hg, hx, hy, hz, ho => by
    have := mapLanes_get f k gs xs ys zs os (by simpa using hg) (by simpa using hx) (by simpa using hy) (by simpa using hz) (by simpa using ho)
    simpa [mapLanes] using this

/-- An element map over full registers has 1,024 lanes. -/
theorem mapLanes_length (f : W32 → W32 → W32 → W32 × W64) : ∀ (g : List Bool) (x y z o : List W32) (n : Nat),
    g.length = n → x.length = n → y.length = n → z.length = n → o.length = n → (mapLanes f g x y z o).length = n
  | [], _, _, _, _, _, h, _, _, _, _ => by simpa [mapLanes] using h
  | _ :: gs, x, y, z, o, n, hg, hx, hy, hz, ho => by
    cases n with
    | zero => simp at hg
    | succ n =>
      obtain ⟨_, xs, rfl⟩ := List.exists_cons_of_length_eq_add_one hx
      obtain ⟨_, ys, rfl⟩ := List.exists_cons_of_length_eq_add_one hy
      obtain ⟨_, zs, rfl⟩ := List.exists_cons_of_length_eq_add_one hz
      obtain ⟨_, os, rfl⟩ := List.exists_cons_of_length_eq_add_one ho
      simp [mapLanes, mapLanes_length f gs xs ys zs os n (by simpa using hg) (by simpa using hx) (by simpa using hy) (by simpa using hz)
        (by simpa using ho)]

/-- The OR of flags, bit by bit. -/
theorem orFlags_bit (l : List W64) (j : Nat) : (orFlags l).getLsbD j = true ↔ ∃ x ∈ l, x.getLsbD j = true := by
  have h : ∀ (l : List W64) (a : W64), (l.foldl (· ||| ·) a).getLsbD j = true ↔ a.getLsbD j = true ∨ ∃ x ∈ l, x.getLsbD j = true := by
    intro l
    induction l with
    | nil => intro a; simp
    | cons x t ih => intro a; rw [List.foldl_cons, ih]; simp [BitVec.getLsbD_or, or_assoc]
  simpa [orFlags] using h l 0

/-- A list of results is an element-wise result: lane k as `f` gives it where active, the old value without flags elsewhere. -/
def IsMap (s : State) (u : U) (r : List (W32 × W64)) (f : Nat → W32 × W64) : Prop :=
  r.length = 1024 ∧ ∀ k, k < 1024 → r[k]? = some (if (s.gov u).getLsbD k then f k else ((s.me.vreg u.a.toNat).lane k, 0))

theorem IsMap.flags {s : State} {u : U} {r : List (W32 × W64)} {f : Nat → W32 × W64} (h : IsMap s u r f) :
    Flagged s u f (orFlags (r.map (·.2))) := by
  intro j
  rw [orFlags_bit]
  constructor
  · rintro ⟨x, hx, hj⟩
    obtain ⟨e, he, rfl⟩ := List.mem_map.1 hx
    obtain ⟨k, hk⟩ := List.getElem?_of_mem he
    have hl : k < 1024 := by
      obtain ⟨hk, -⟩ := List.getElem?_eq_some_iff.1 hk
      rw [← h.1]; exact hk
    rw [h.2 k hl, Option.some.injEq] at hk
    subst hk
    split at hj
    next hg => exact ⟨k, hl, hg, hj⟩
    next => simp at hj
  · rintro ⟨k, hl, hg, hj⟩
    have hk := h.2 k hl
    rw [hg, if_pos rfl] at hk
    exact ⟨(f k).2, List.mem_map.2 ⟨f k, List.mem_of_getElem? hk, rfl⟩, hj⟩

theorem IsMap.lane {s : State} {u : U} {r : List (W32 × W64)} {f : Nat → W32 × W64} (h : IsMap s u r f) (k : Nat) (hk : k < 1024) :
    (VReg.of (r.map (·.1))).lane k = merged s u f k := by
  rw [vregOf_lane, List.getD_eq_getElem?_getD, List.getElem?_map, h.2 k hk, merged]
  split <;> rfl

/-- An element map of full registers. -/
theorem isMap_mapLanes (s : State) (u : U) (f : W32 → W32 → W32 → W32 × W64) (x y z : List W32)
    (hx : x.length = 1024) (hy : y.length = 1024) (hz : z.length = 1024) :
    IsMap s u (mapLanes f (boolsOf (s.gov u)) x y z (s.me.vreg u.a.toNat).lanes)
      (fun k => f (x.getD k 0) (y.getD k 0) (z.getD k 0)) := by
  refine ⟨mapLanes_length f _ _ _ _ _ 1024 (by simp) hx hy hz (by simp), fun k hk => ?_⟩
  rw [mapLanes_get f k _ _ _ _ _ (by simpa using hk) (by omega) (by omega) (by omega) (by simpa using hk), vreg_lanes_get _ _ hk]
  simp only [List.getD_eq_getElem?_getD, boolsOf_get _ _ hk, Option.getD_some]

/-- Results that agree on active lanes are the same map. -/
theorem IsMap.congr {s : State} {u : U} {r : List (W32 × W64)} {f g : Nat → W32 × W64} (h : IsMap s u r f)
    (hg : ∀ k, k < 1024 → f k = g k) : IsMap s u r g :=
  ⟨h.1, fun k hk => by rw [h.2 k hk, hg k hk]⟩

@[simp] theorem noLanes_length : noLanes.length = 1024 := List.length_replicate

@[simp] theorem lanesC_length (s : State) (w64 : Bool) (u : U) : (s.lanesC w64 u).length = 1024 := by
  unfold State.lanesC; split <;> simp

theorem lanesC_get (s : State) (w64 : Bool) (u : U) (k : Nat) (h : k < 1024) : (s.lanesC w64 u).getD k 0 = s.laneC w64 u k := by
  unfold State.lanesC State.laneC
  by_cases hc : w64 = true ∧ u.c.toNat = 63
  · simp [hc, List.getD_eq_getElem?_getD, h]
  · have hb : (w64 && u.c.toNat == 63) = false := by simpa using hc
    rw [hb, if_neg hc]; simp only [Bool.false_eq_true, if_false]; exact vreg_lanes_get _ _ h

/-- An element map of operands b and c. -/
theorem isMap_two (s : State) (w64 : Bool) (u : U) (f : W32 → W32 → W32 → W32 × W64) (zs : List W32) (hz : zs.length = 1024) :
    IsMap s u (s.vecMap u (s.lanesC w64 u) zs f) (fun k => f ((s.opV 1 u.b).lane k) (s.laneC w64 u k) (zs.getD k 0)) := by
  refine (isMap_mapLanes s u f _ _ _ (by simp) (lanesC_length ..) hz).congr (fun k hk => ?_)
  rw [vreg_lanes_get _ _ hk, lanesC_get _ _ _ _ hk]

/-- An element map of operand b. -/
theorem isMap_one (s : State) (u : U) (f : W32 → W32 × W64) :
    IsMap s u (s.vecMap u noLanes noLanes (fun x _ _ => f x)) (fun k => f ((s.opV 1 u.b).lane k)) := by
  refine (isMap_mapLanes s u _ _ _ _ (by simp) noLanes_length noLanes_length).congr (fun k hk => ?_)
  rw [vreg_lanes_get _ _ hk]

/-- Lanes copied over a register's old ones. -/
theorem isMap_over (s : State) (u : U) (l : List W32) (hl : l.length = 1024) : IsMap s u (s.overOld u l) (fun k => (l.getD k 0, 0)) :=
  isMap_mapLanes s u _ _ _ _ hl noLanes_length noLanes_length

/-- The groups of a list, put together again. -/
theorem chunks_flatten {α : Type} (n : Nat) : ∀ (k : Nat) (l : List α), l.length = n * k → (chunks n k l).flatten = l
  | 0, l, h => by simp at h; subst h; rfl
  | k + 1, l, h => by
    rw [chunks, List.flatten_cons, chunks_flatten n k _ (by simp; rw [Nat.mul_succ] at h; omega)]; simp

/-- Group i of a list. -/
theorem chunks_get {α : Type} (n : Nat) : ∀ (k i : Nat) (l : List α), i < k → (chunks n k l)[i]? = some ((l.drop (n * i)).take n)
  | 0, _, _, h => absurd h (by omega)
  | k + 1, 0, l, _ => by simp [chunks]
  | k + 1, i + 1, l, h => by
    simp [chunks, chunks_get n k i (l.drop n) (by omega), List.drop_drop, Nat.mul_succ, Nat.add_comm]

/-- A vector write whose lanes are those of another value. -/
theorem WroteV.congr {s r : State} {n : Nat} {v w : Nat → W32} {fl : W64} {l : Nat} (h : WroteV s r n v fl l)
    (hv : ∀ k, k < 1024 → v k = w k) : WroteV s r n w fl l := by
  obtain ⟨h1, h2, h3, h4, h5, h6⟩ := h
  exact ⟨h1, h2, h3, h4, h5.imp (fun h j hj => by rw [h j hj, hv j hj]) id, h6⟩

/-- What completing an element-wise instruction does. -/
theorem puts_vecDone {s : State} {u : U} {r : List (W32 × W64)} {f : Nat → W32 × W64} (h : IsMap s u r f) (i : Instr) (l : Nat)
    (he : exec i s = s.vecDone u r l) : PutsLanes i u s f l :=
  ⟨_, h.flags, _, he, (wroteV_flags s u.a.toNat _ _ l).congr (fun k hk => h.lane k hk)⟩

end Sys2Proof.Machine
end

