-- ==== Sys2Proof/Tests/Slice0.lean ====
section
/-! SUPPORT. Tests: witnesses of the statements' hypotheses, decoding from words written out by hand, ill-formed terms, and
effects with values worked by hand. -/

namespace Sys2Proof.Tests

set_option Elab.async false

open Sys2Proof Sys2Proof.Machine

/-! Witnesses: for each statement with hypotheses, states and operands that meet them. -/

/-- A unit with operand fields a, b, c and an immediate, on one word, governed by p0. -/
def un (a b c : Nat) (imm : W32) : U := ⟨Mods.none, 0, 0, BitVec.ofNat 6 a, BitVec.ofNat 6 b, BitVec.ofNat 6 c, 0, 0, imm⟩
/-- The unit in course: one word at 0x10000, of thread slot 0 of C0. -/
def cur : CurUnit := { core := 0, st := 0, pc := 0x10000, len := 1, iw := IW.blank, inLoop := false, cap := none }
/-- The root running on C0 with its space mapped and a NOP at its program counter. -/
def base : State := { State.reset.place (List.replicate 8 0x2C) with agenda := [], cu := cur }
/-- Scalar registers from s1 on. -/
def regs (s : State) (vs : List W64) : State := s.updMe (fun a => { a with regs := { a.regs with s := (vs.zipIdx 1).map (fun e => (e.2, e.1)) } })
/-- A predicate register. -/
def pred (s : State) (n : Nat) (v : Lanes) : State := s.updMe (fun a => { a with regs := { a.regs with p := SMap.set 0 a.regs.p n v } })
/-- The outcome of a partial operation, as the statements write it. -/
theorem okOf {α β ε : Type} {x : α × Except ε β} (d : β) (h : x.2.isOk = true) : x = (x.1, .ok (x.2.toOption.getD d)) := by
  obtain ⟨a, b⟩ := x; cases b with | ok b => rfl | error e => exact absurd h (by simp [Except.isOk, Except.toBool])
theorem okOf' {β ε : Type} {x : Except ε β} (d : β) (h : x.isOk = true) : x = .ok (x.toOption.getD d) := by
  cases x with | ok b => rfl | error e => exact absurd h (by simp [Except.isOk, Except.toBool])
/-- The value of a partial operation that succeeds. -/
abbrev val {α β ε : Type} (x : α × Except ε β) (d : β) : β := x.2.toOption.getD d
/-- Whether a load may be performed now. -/
def loadNow (s : State) (sp : Bool) (scope : Option Nat) (ea : W64) (n : Nat) : Bool :=
  let x := s.reach sp .read ea n
  let y := x.1.putsOff
  x.2.isOk && !y.2 && !y.1.readMeets (val x []) && ((y.1.settleLines (some y.1.myKey) (val x [])).screen true ⟨0, scope⟩ (val x [])).isOk
theorem loadNow_ready {s : State} {sp : Bool} {scope : Option Nat} {ea : W64} {n : Nat} (h : loadNow s sp scope ea n = true) :
    ∃ t ps m, LoadReady s sp scope ea n t ps m := by
  simp only [loadNow, Bool.and_eq_true, Bool.not_eq_true'] at h
  obtain ⟨⟨⟨h1, h2⟩, h3⟩, h4⟩ := h
  exact ⟨_, _, _, _, _, okOf [] h1, Prod.ext rfl h2, h3, rfl, okOf' [] h4⟩
/-- Whether pieces may be written now. -/
def piecesNow (s : State) (scope : Option Nat) (ps : List Piece) : Bool :=
  let x := s.putsOff
  let y := x.1.putsOff
  let z := y.1.putsOff
  !x.2 && x.1.readsDone && !x.1.me.pend.any (fun p => p.isStore && p.stage == 0) && (x.1.screen false ⟨1, scope⟩ ps).isOk && !y.2 && !y.1.storeMeets ps
    && (scope.isSome || !z.2)
theorem piecesNow_ready {s : State} {scope : Option Nat} {ps : List Piece} (h : piecesNow s scope ps = true) : ∃ t m, PiecesReady s scope t ps m := by
  simp only [piecesNow, Bool.and_eq_true, Bool.not_eq_true', Bool.or_eq_true] at h
  obtain ⟨⟨⟨⟨⟨⟨h1, h2⟩, h3⟩, h4⟩, h5⟩, h6⟩, h7⟩ := h
  refine ⟨if scope.isSome = true then s.putsOff.1.putsOff.1 else s.putsOff.1.putsOff.1.putsOff.1, _, _, _, Prod.ext rfl h1, h2, h3, okOf' [] h4, Prod.ext rfl h5, h6, ?_⟩
  split
  · rfl
  · exact Prod.ext rfl (h7.resolve_left (by assumption))
/-- Whether a store may be performed now. -/
def storeNow (s : State) (sp : Bool) (scope : Option Nat) (ea : W64) (n : Nat) : Bool :=
  let x := s.reach sp .write ea n
  x.2.isOk && piecesNow x.1 scope (val x [])
theorem storeNow_ready {s : State} {sp : Bool} {scope : Option Nat} {ea : W64} {n : Nat} (h : storeNow s sp scope ea n = true) :
    ∃ t ps m, StoreReady s sp scope ea n t ps m := by
  simp only [storeNow, Bool.and_eq_true] at h
  obtain ⟨t, m, ht⟩ := piecesNow_ready h.2
  exact ⟨t, _, m, _, okOf [] h.1, ht⟩
/-- Whether an atomic may be performed now. -/
def amoNow (s : State) (u : U) (kind : Nat) : Bool :=
  let x := s.reach (amoSp u) .atomic (BitVec.ofNat 64 ((s.sB u).toNat / amoSize u * amoSize u)) (amoSize u)
  let ps := val x []
  let t := x.1.putsOff.1.settleLines (some x.1.putsOff.1.myKey) ps
  x.2.isOk && !amoSp u && !amoRel u && !x.1.putsOff.2 && x.1.readsDone && !x.1.storeMeets ps && (t.screen true ⟨kind, some (amoScope u)⟩ ps).isOk
theorem amoNow_ready {s : State} {u : U} {kind : Nat} (h : amoNow s u kind = true) : ∃ t ps m, AmoReady s u kind t ps m := by
  simp only [amoNow, Bool.and_eq_true, Bool.not_eq_true'] at h
  obtain ⟨⟨⟨⟨⟨⟨h1, h2⟩, h3⟩, h4⟩, h5⟩, h6⟩, h7⟩ := h
  refine ⟨_, _, _, fun h => by simp [h3] at h, _, _, okOf [] h1, h5, h6, ?_, rfl, okOf' [] h7, fun h => by simp [h3] at h⟩
  rw [if_neg (by simp [h2, h3])]
  exact Prod.ext rfl h4

/-- RegisterReads. -/
theorem wit_RegisterReads : base.me.early base.cycle (.s 63) = false ∧ base.me.early base.cycle (.p 63) = false ∧ base.me.early base.cycle (.b 7) = false
    ∧ base.me.early base.cycle (.v 63) = false
    ∧ let s : State := { base with cu := { cur with st := 4 } }.updMe (fun a => { a with bounds := [⟨.p 5, 9⟩] })
      isSide s.cu.st = true ∧ s.me.early s.cycle (.p 5) = true := by decide +kernel
def divU (sat : Bool) : U := { un 3 1 2 0 with m := ⟨some ⟨sat, 0, false, 0⟩, none, false⟩ }
/-- ScalarDivide: by zero, the one overflow with and without .sat, and an ordinary quotient. -/
theorem wit_ScalarDivide : ((regs base [5, 0]).sC (un 3 1 2 0)).toInt = 0
    ∧ (∀ sat, ((regs base [0x8000000000000000, -1]).sB (divU sat)).toInt = -(2 ^ 63) ∧ ((regs base [0x8000000000000000, -1]).sC (divU sat)).toInt = -1
        ∧ satOf (divU sat) = sat)
    ∧ ((regs base [5, -2]).sC (un 3 1 2 0)).toInt ≠ 0 ∧ ((regs base [5, -2]).sB (un 3 1 2 0)).toInt ≠ -(2 ^ 63) := by decide +kernel
/-- ScalarGoverned: and the bounds of the fields of EXT and INS. -/
theorem wit_ScalarGoverned : base.lane0 (un 1 2 3 0xFFF) = true ∧ bits (0xFFF : W32) 5 0 = 63 ∧ bits (0xFFF : W32) 11 6 + 1 = 64 := by decide +kernel
/-- Predicates: each of the six conditions of CMP. -/
theorem wit_Predicates (s : State) (u : U) : ∀ k, k < 6 → ∃ c : Prop, [(0, s.sB u = s.sC u), (1, s.sB u ≠ s.sC u), (2, (s.sB u).toInt < (s.sC u).toInt),
    (3, (s.sC u).toInt ≤ (s.sB u).toInt), (4, (s.sB u).toNat < (s.sC u).toNat), (5, (s.sC u).toNat ≤ (s.sB u).toNat)][k]? = some (k, c) := by
  intro k h; match k, h with
  | 0, _ | 1, _ | 2, _ | 3, _ | 4, _ | 5, _ => exact ⟨_, rfl⟩
/-- Branches: an all-true, an all-false and a mixed predicate. -/
theorem wit_Branches : base.rdP (un 0 1 2 0).a.toNat = BitVec.allOnes 1024 ∧ base.rdP (un 1 1 2 0).a.toNat = 0
    ∧ (pred base 1 1).rdP (un 1 1 2 0).a.toNat ≠ 0 ∧ (pred base 1 1).rdP (un 1 1 2 0).a.toNat ≠ BitVec.allOnes 1024 := by decide +kernel
def chip (s : State) (n : Nat) (spilled : Nat) : State := s.updMe (fun a => { a with ras := ⟨List.replicate n 0x10004, spilled, []⟩ })
def spillArea (s : State) : State := s.setCw rootCtx 4 0x30001
/-- CallsAndReturns: room on chip, a full store that spills, the limit; and RET from the chip, from the spill area, and from nothing. -/
theorem wit_CallsAndReturns :
    (let x := (chip base 15 0).afterSlots 7 base.nextPc
     x.2.isOk = true ∧ x.1.me.ras.chip.length < 16 ∧ x.1.me.ras.count < 65535)
    ∧ (let x := (chip (spillArea base) 16 0).afterSlots 0 base.nextPc
       let r := x.1.rasSpill x.1.cu.core x.1.cu.st (x.1.me.ras.chip.getD 15 0)
       x.2.isOk = true ∧ 16 ≤ x.1.me.ras.chip.length ∧ x.1.me.ras.count < 65535 ∧ r.2.isOk = true
         ∧ let y : State := r.1.updMe (fun a => { a with ras := { a.ras with chip := [] } })
           y.me.ras.spilled ≠ 0 ∧ (y.rasFillBack y.cu.core y.cu.st).2.isOk = true)
    ∧ (let x := (chip base 16 65519).afterSlots 0 base.nextPc
       x.2.isOk = true ∧ 65535 ≤ x.1.me.ras.count)
    ∧ (chip base 1 0).me.ras.chip = 0x10004 :: [] ∧ base.me.ras.chip = [] ∧ base.me.ras.spilled = 0 := by decide +kernel

def nest (n : Nat) : State := base.updMe (fun a => { a with loop := some ⟨[0, 0, 0, 0, 0, 0], n, 3, false, [⟨0x10000, 1, IW.blank⟩, ⟨0x10004, 1, IW.blank⟩], 0, 0x10008⟩ })
/-- A legal descriptor: two units, two levels, two stages, s1 stepped. -/
def descr : List W64 := [2 + 2 * 2 ^ 9 + 2 * 2 ^ 12 + 1 * 2 ^ 38, 1 + 8 * 2 ^ 16, 2 + 16 * 2 ^ 16, 0, 0, 0, 0, 0]
def cfgd (d : List W64) : State := base.updMe (fun a => { a with cfg := some d })
/-- LoopInstructions, and LOOP.GO and LOOP.BRK where they trap. -/
theorem wit_LoopInstructions :
    (base.lineRead ⟨0, none⟩ (BitVec.ofNat 64 (((regs base [0x13F]).sA (un 1 0 0 0)).toNat / 64 * 64)) 64).2.isOk = true
    ∧ (let s := cfgd descr
       let x := s.captureBody (loopLen descr) s.nextPc
       s.me.loop = none ∧ s.me.cfg = some descr ∧ loopOk descr = true ∧ x.2.isOk = true ∧ (val x ([], 0)).1 ≠ [] ∧ loopStages descr ≠ 0)
    ∧ ((nest 2).me.loop ≠ none ∧ (nest 2).rdP 0 = BitVec.allOnes 1024 ∧ (nest 2).rdP 1 = 0 ∧ (pred (nest 2) 1 1).rdP 1 ≠ 0
        ∧ (pred (nest 2) 1 1).rdP 1 ≠ BitVec.allOnes 1024)
    ∧ base.me.cfg = none ∧ loopOk ((256 + 1 : W64) :: descr.drop 1) = false := by decide +kernel
/-- LoopPasses: an inner step, a carry into level 1, the last full iteration, the drain pass and the end. -/
theorem wit_LoopPasses : ∀ c ∈ [[0, 0, 0, 0, 0, 0], [1, 0, 0, 0, 0, 0]], c.length = 6
    ∧ (1 + 1 < loopPasses descr 6 ∧ 6 ≤ 5 + 1 ∧ 5 + 1 < loopPasses descr 6 ∧ loopPasses descr 6 ≤ 6 + 1)
    ∧ loopReg descr 0 ≠ 0 ∧ loopReg descr 1 ≠ loopReg descr 0 ∧ loopReg descr 2 ≠ loopReg descr 0 ∧ loopCount descr 0 = 1 := by decide +kernel
def within (x : Option Xfer) : State := base.updMe (fun a => { a with xfer := x })
/-- Completion: each case of the advance; a unit executed again; and a body unit with a successor. -/
theorem wit_Completion : base.cu.cap = none ∧ base.lane0 (un 0 0 0 0) = true ∧ base.tracing base.myCtx = false ∧ base.me.xfer = none
    ∧ (within (some ⟨4, true, 1, 0⟩)).me.xfer = some ⟨4, true, 1, 0⟩ ∧ (within (some ⟨4, false, 0, 0⟩)).me.xfer = some ⟨4, false, 0, 0⟩
    ∧ (within (some ⟨4, true, 2, 0⟩)).me.xfer = some ⟨4, true, 2, 0⟩
    ∧ (let s : State := { nest 0 with cu := { cur with inLoop := true } }
       s.me.loop.map (fun l => l.body[l.idx + 1]?.isSome) = some true)
    ∧ ({ base with cu := { cur with cap := some ⟨IW.blank, true, 0, [], none⟩ } } : State).cu.cap ≠ none := by decide +kernel
/-- TranslationFrame: an access that is reached, one that a cached translation serves, and one that fails. -/
theorem wit_TranslationFrame : (base.reach false .read 0x100 8).2.isOk = true ∧ (base.reach true .write 0x100 8).2.isOk = true
    ∧ (base.reach false .read 0x20000000 8).2.isOk = false
    ∧ (let s := base.serve (.tlbFill 0 rootCtx 0x100 false)
       ∀ k, k < 8 → (s.tlbHit s.myCtx .read (0x100 + BitVec.ofNat 64 k)).isSome = true) := by decide +kernel
/-- OutOfRange: the lowest such address, and a load and a store of it. -/
theorem wit_OutOfRange : (0x10000000000000 : W64).toNat / 2 ^ 52 ≠ 0 ∧ base.adw = [] ∧ (base.chain base.myCtx).length = (base.ctx base.myCtx).depth + 1
    ∧ base.sB (un 1 0 0 0) + immS (un 1 0 0 0) ≠ 0x10000000000000
    ∧ (let s := regs base [0x10000000000000]
       s.adw = [] ∧ (s.chain s.myCtx).length = (s.ctx s.myCtx).depth + 1 ∧ s.sB (un 0 1 0 0) + immS (un 0 1 0 0) = 0x10000000000000 ∧ s.readsDone = true) := by decide +kernel
/-- MalformedEntry: a walk that meets an entry with CP 11. -/
theorem wit_MalformedEntry : let s := base.wrP64 bootL0 (1 + 0x600)
    let pea := bootL0 + pteIndex 0 0 * 8
    pea < 2 ^ 64 ∧ present s.dev pea = true ∧ s.groupOk 0 pea = true ∧ s.psn false pea = false ∧ (s.rdP64 pea).getLsbD 0 = true
      ∧ pteBad (s.rdP64 pea) 0 0 = true := by decide +kernel
/-- Loads: both spaces, at the ends of the mapped page and of the window. -/
theorem wit_Loads : (∃ t ps m, LoadReady (regs base [0x1FFFFFF8]) false none 0x1FFFFFF8 8 t ps m)
    ∧ (∃ t ps m, LoadReady base true none 0 1 t ps m) ∧ (∃ t ps m, LoadReady base true none (BitVec.ofNat 64 (spadSize - 8)) 8 t ps m)
    ∧ base.lane0 (un 0 0 0 0) = true :=
  ⟨loadNow_ready (by decide +kernel), loadNow_ready (by decide +kernel), loadNow_ready (by decide +kernel), by decide +kernel⟩
/-- StrongLoads. -/
theorem wit_StrongLoads : (∃ t ps m, LoadReady base false (some 4) 0x100 8 t ps m) ∧ (∃ t ps m, LoadReady base true (some 0) 0x100 1 t ps m) :=
  ⟨loadNow_ready (by decide +kernel), loadNow_ready (by decide +kernel)⟩
def planned (l : List Bool) : State := { base with plan := l }
def heldBy (k : PendKind) (stage : Nat) : Pend :=
  let q : Piece := ⟨false, 0x20000100, 0, 8, false, 0x100, 0⟩
  { id := 1, kind := k, stage := stage, born := 0, cap := ⟨IW.blank, true, 0x10000, [], none⟩, dest := if k = .load false then some (.s 0) else none,
    size := 8, sext := false, scope := none, pieces := [q], rest := [q], data := if k = .load false then [] else [1, 2, 3, 4, 5, 6, 7, 8], old := [], pubs := [] }
def ldPend : Pend := heldBy (.load false) 0
def stPend (stage : Nat) : Pend := heldBy .store stage
def pending (l : List Pend) : State := base.updMe (fun a => { a with pend := l })
def unitOf (p : Pend) : CurUnit := ⟨0, 0, p.cap.uaddr, iwLen p.cap.iw, p.cap.iw, false, some p.cap, false⟩
/-- PendingAccesses: a load that waits, by choice and behind another read, and its return; a store that is held, by choice and behind a read
and a store, that leaves, is performed and reaches memory. -/
theorem wit_PendingAccesses :
    (let x := (planned [true]).reach false .read 0x100 8
     x.2.isOk = true ∧ x.1.putsOff.2 = true)
    ∧ (let x := (pending [ldPend]).reach false .read 0x100 8
       x.2.isOk = true ∧ x.1.putsOff.2 = false ∧ x.1.putsOff.1.readMeets (val x []) = true)
    ∧ (let p := { ldPend with dest := some (.s 3), cap := { ldPend.cap with iw := { IW.blank with u := un 3 1 0 0 } } }
       let s := pending [p]
       let y := s.settleLines (some (agKey 0 0)) p.pieces
       let t : State := { y.setAg 0 0 { s.ag 0 0 with pend := [] } with cu := unitOf p }
       (s.ag 0 0).pend = [p] ∧ p.dest = some (.s p.cap.iw.u.a.toNat) ∧ p.pieces.any (·.sp) = false ∧ p.part.2 = [] ∧ (t.screen true ⟨0, none⟩ p.pieces).isOk = true)
    ∧ (let x := (planned [true]).reach false .write 0x100 8
       x.2.isOk = true ∧ val x [] ≠ [] ∧ x.1.putsOff.2 = true)
    ∧ (let x := (pending [ldPend]).reach false .write 0x100 8
       x.2.isOk = true ∧ x.1.putsOff.1.readsDone = false)
    ∧ (let x := (pending [stPend 0]).reach false .write 0x100 8
       x.2.isOk = true ∧ x.1.putsOff.1.me.pend.any (fun p => p.isStore && p.stage == 0) = true)
    ∧ (let s := pending [stPend 0]
       (s.ag 0 0).pend = [stPend 0] ∧ (({ s with cu := unitOf (stPend 0) } : State).screen false ⟨1, none⟩ (stPend 0).pieces).isOk = true)
    ∧ ((pending [stPend 1]).ag 0 0).pend = [stPend 1] ∧ (∃ q, (stPend 1).rest = [q]) ∧ ((pending [stPend 2]).ag 0 0).pend = [stPend 2] :=
  ⟨by decide +kernel, by decide +kernel, by decide +kernel, by decide +kernel, by decide +kernel, by decide +kernel, by decide +kernel, by decide +kernel, ⟨_, rfl⟩, by decide +kernel⟩
/-- Stores, and a release at each kind of scope. -/
theorem wit_Stores : (∃ t ps m, StoreReady (regs base [0x1FFFFFF8]) false none 0x1FFFFFF8 8 t ps m)
    ∧ (∃ t ps m, StoreReady base true none (BitVec.ofNat 64 (spadSize - 8)) 8 t ps m) ∧ (∃ t ps m, StoreReady base false (some 4) 0x100 8 t ps m)
    ∧ ∀ sc, sc < 5 → base.allPerformed = true
      ∧ let x := base.reach true .write 0x100 8
        x.2.isOk = true ∧ val x [] ≠ [] ∧ (x.1.screen false ⟨1, some sc⟩ (val x [])).isOk = true ∧ x.1.exhausted 1 sc = false ∧ (x.1.release sc).1.putsOff.2 = false :=
  ⟨storeNow_ready (by decide +kernel), storeNow_ready (by decide +kernel), storeNow_ready (by decide +kernel), by decide +kernel⟩

/-- Fences: each scope with the path clear, and PREF of a mapped and of an unmapped address. -/
theorem wit_Fences : (∀ sc, sc < 5 → base.allPerformed = true ∧ base.exhausted 1 sc = false) ∧ base.pathClear = true
    ∧ base.exhausted 1 0 = false ∧ base.lane0 (un 0 0 0 0) = true
    ∧ (base.translate base.myCtx .read false 0x20000000).2.isOk = false := by decide +kernel
def amo (dword : Bool) (imm : W32) : U := { un 3 1 2 imm with mi := if dword then 1 else 0 }
/-- Atomics: comparing equal and unequal. -/
theorem wit_Atomics : let s := regs base [0x100, 7]
    let u := un 3 1 2 0
    s.lane0 u = true ∧ (∃ t ps m, AmoReady s u 2 t ps m) ∧ (∃ t ps m, AmoReady s u 0 t ps m)
      ∧ (let x := s.reach (amoSp u) .atomic (BitVec.ofNat 64 ((s.sB u).toNat / amoSize u * amoSize u)) (amoSize u)
         val x [] ≠ [] ∧ ofBytes (x.1.load (val x [])) = (s.sE u).toNat % 2 ^ (8 * amoSize u)
           ∧ ofBytes (x.1.load (val x [])) ≠ (s.sE { u with e := 2 }).toNat % 2 ^ (8 * amoSize u)) :=
  ⟨by decide +kernel, amoNow_ready (by decide +kernel), amoNow_ready (by decide +kernel), by decide +kernel⟩
def toks (s : State) (l : List (Nat × Nat)) : State := s.updCore 0 (fun c => { c with toks := l })
def bare (s : State) : State := s.updCtx rootCtx (fun c => { c with w := [(1, 0x10001)] })
/-- Tokens: enough, too few, not held; TOK.ADD at 0 and at 0xFFFF. -/
theorem wit_Tokens : (let s := toks base [(5, 2)]
      let ts := ([(un 5 63 5 0).a.toNat, (un 5 63 5 0).b.toNat, (un 5 63 5 0).c.toNat]).filter (· != 63)
      ts.all (fun t => s.tokOk s.myCtx 0 t) = true ∧ (∀ t ∈ ts, (ts.filter (· == t)).length ≤ s.tok 0 t)
        ∧ (∃ t ∈ ts, (toks base [(5, 1)]).tok 0 t < (ts.filter (· == t)).length)
        ∧ s.outranked 0 9 ts = false ∧ ts.all (fun t => (bare s).tokOk (bare s).myCtx 0 t) = false)
    ∧ base.readsDone = true ∧ base.pathClear = true ∧ base.exhausted 1 0 = false ∧ base.tok 0 31 ≤ 0xFFFF ∧ (toks base [(31, 0xFFFF)]).tok 0 31 = 0xFFFF := by decide +kernel
/-- ArrivalWords: the last word of the window, an unaligned one; an arrival that leaves COUNT below, at and above TARGET. -/
theorem wit_ArrivalWords : (let s := regs base [BitVec.ofNat 64 (spadSize - 8), 1]
      let u := un 1 2 0 0
      (s.arrAddr s.myCtx s.myClu (s.sA u)).isSome = true ∧ s.readsDone = true ∧ s.putsOff.2 = false ∧ s.psn true (spadSize - 8) = false
        ∧ s.putsOff.1.storeMeets [⟨true, spadSize - 8, 0, 8, false, s.sA u, 0⟩] = false ∧ s.adw = []
        ∧ (s.arrWord 0 0 (spadSize - 8)).toNat / 2 ^ 56 ≠ (s.sB u).toNat % 256 ∧ (s.arrWord 0 0 (spadSize - 8)).toNat / 2 ^ 56 = (s.sB (un 1 3 0 0)).toNat % 256)
    ∧ (let s := regs base [4]
       s.arrAddr s.myCtx s.myClu (s.sA (un 1 0 0 0)) = none)
    ∧ ∀ e ∈ [(0, 0), (4, 3), (4, 4), (4, 9)], let w := ((base.wrBytes true 0 (toBytes 8 e.1)).rdSp64 0).toNat
      w % 2 ^ 28 = e.1 ∧ (e.1 = 0 ∨ e.2 < e.1 ∨ e.1 ≤ e.2 ∧ e.2 - e.1 < 2 ^ 28) := by decide +kernel
def queued (q : Nat) (d : DataQ) : State := base.setDq 0 q d
def qok : QRes → Bool | .ok _ _ => true | _ => false
/-- DataQueues: room, a spill, an entry, a spilled entry, none; the wrong agent; a side not held. -/
theorem wit_DataQueues : mayPush 2 base.cu.st = true ∧ base.holdsSide base.myCtx 0 (queueSide 2) = true ∧ base.me.pend.all (fun p => p.stage == 2) = true
    ∧ base.exhausted 1 0 = false ∧ (base.dq 0 2).chip.length < 32
    ∧ (let s := spillArea (queued 4 ⟨List.replicate 32 7, [], 0, 0, 0, []⟩)
       32 ≤ (s.dq 0 4).chip.length ∧ qok (s.qSpill s.myCtx 0 4) = true)
    ∧ mayPop 4 base.cu.st = true ∧ base.holdsSide base.myCtx 0 (queueSide 4) = true ∧ (base.dq 0 4).count = 0 ∧ (base.dq 0 4).chip = []
    ∧ ((queued 4 ⟨[7], [], 0, 0, 0, []⟩).dq 0 4).chip = 7 :: [] ∧ ((queued 4 ⟨[7], [], 0, 0, 0, []⟩).dq 0 4).count = 0
    ∧ (let s := spillArea (queued 4 ⟨[], [0], 0, 1, rootCtx, []⟩)
       qok (s.qTake 0 4 true) = true)
    ∧ mayPop 2 base.cu.st = false ∧ mayPush 0 base.cu.st = false ∧ (bare base).holdsSide (bare base).myCtx 0 (queueSide 2) = false := by decide +kernel
def waiting (s : State) (w : Wait) : State := s.updMe (fun a => { a with wait := w, wunit := some cur })
/-- WaitsEnd. -/
theorem wit_WaitsEnd : (let s := waiting (toks base [(5, 2)]) (.tok [5, 5])
      s.alive 0 0 = true ∧ (s.ag 0 0).wait = .tok [5, 5] ∧ s.canConsume 0 [5, 5] = true ∧ s.outranked 0 9 [5, 5] = false)
    ∧ (let s := waiting base (.arrive 0 1)
       s.alive 0 0 = true ∧ (s.ag 0 0).wait = .arrive 0 1 ∧ s.psn true 0 = false ∧ arrGen (s.arrWord 0 0 0) ≠ 1)
    ∧ (let s := waiting (queued 4 ⟨[7], [], 0, 0, 0, []⟩) (.queue 4 false)
       s.alive 0 0 = true ∧ (s.ag 0 0).wait = .queue 4 false ∧ s.queueWaitDue 0 0 = true ∧ s.popBehind 0 0 = false)
    ∧ (let s := waiting base (.queue 2 true)
       s.alive 0 0 = true ∧ (s.ag 0 0).wait = .queue 2 true ∧ s.queueWaitDue 0 0 = true ∧ s.popBehind 0 0 = false) := by decide +kernel
/-- Elements: an integer type; NaN, infinite, finite and zero operands. -/
theorem wit_Elements : isI 5 = true ∧ isI 7 = true ∧ (Fmt.f32.dec 0x7FC00000).isNan = true ∧ Fmt.f32.dec 0x7FA00000 = .nan true
    ∧ Fmt.f16.dec 0x7C00 = .inf false ∧ Fmt.bf16.dec 0xFF80 = .inf true ∧ (∃ n e, Fmt.f32.dec 0 = .fin n 0 e) ∧ ∃ n m e, Fmt.f32.dec 0x3F800000 = .fin n m e :=
  ⟨by decide, by decide, by decide +kernel, by decide +kernel, by decide +kernel, by decide +kernel, ⟨_, _, rfl⟩, ⟨_, _, _, rfl⟩⟩
/-- VectorMoves: the last lane active, and inactive. -/
theorem wit_VectorMoves : (base.gov (un 1 2 0 1023)).getLsbD (bits (1023 : W32) 9 0) = true
    ∧ (base.gov { un 1 2 0 1023 with p := 1 }).getLsbD (bits (1023 : W32) 9 0) = false := by decide +kernel
/-- LaneMovement: the last row. -/
theorem wit_LaneMovement : (un 1 2 15 0).c.toNat < 16 ∧ bits (15 : W32) 5 0 < 16 := by decide
/-- Reductions: the halves of a tree over two lanes. -/
theorem wit_Reductions : ([none] : List (Option Nat)).length = 2 ^ 0 ∧ ([some 3, none] : List (Option Nat)).length = 2 ^ 1 := by decide
/-- VectorLoadStore: two active lanes in the scratchpad, one in memory. -/
theorem wit_VectorLoadStore : (let s := pred base 1 3
      let u : U := { un 1 0 1 0x100 with p := 1 }
      let x := s.reachRuns true .read (s.vecRuns u) 0
      x.2.isOk = true ∧ x.1.putsOff.2 = false ∧ x.1.putsOff.1.readMeets (val x []) = false
        ∧ ((x.1.putsOff.1.settleLines (some x.1.putsOff.1.myKey) (val x [])).screen true ⟨0, none⟩ (val x [])).isOk = true)
    ∧ (let s := pred base 1 1
       let u : U := { un 1 0 0 0x100 with p := 1 }
       let x := s.reachRuns false .write (s.vecRuns u) 0
       x.2.isOk = true ∧ ∃ t m, PiecesReady x.1 none t (val x []) m) :=
  ⟨by decide +kernel, by decide +kernel, piecesNow_ready (by decide +kernel)⟩
def avoid : Avoid := ⟨[], [], none, false⟩
def freeCols : State := base.updCore 0 (fun c => { c with accfree := [(0, 1), (1, 1), (2, 1)] })
def parkedIn (w : W32) (s : State) : State := s.updMe (fun a => { a with spmap := [(3, w)] })
/-- Every slot of a core taken. -/
def crowded (s : State) : State := [1, 2, 3].foldl (fun s st => s.updAg 0 st (fun a => { a with item := some ⟨rootCtx, 0, 0, 0, false, none, false⟩ })) s
/-- Parking: a bank, a quarter, a block and no place; a filled register, an empty one, a poisoned row. -/
theorem wit_Parking : (parkOf (SMap.get 0 base.me.spmap 3) = none)
    ∧ (base.choosePark base.myCtx 0 avoid = some (.bank 1 0)) ∧ (base.parkWrite base.myCtx 0 (.bank 1 0) (.dense [])).2.isOk = true
    ∧ (freeCols.choosePark freeCols.myCtx 0 avoid = some (.quarter 0 0)) ∧ (freeCols.parkWrite freeCols.myCtx 0 (.quarter 0 0) (.dense [])).2.isOk = true
    ∧ ((crowded (spillArea base)).choosePark base.myCtx 0 avoid = some (.block 0))
    ∧ ((crowded (spillArea base)).parkWrite base.myCtx 0 (.block 0) (.dense [])).2.isOk = true
    ∧ ((crowded base).choosePark base.myCtx 0 avoid = none)
    ∧ (let s := parkedIn (Park.bank 1 0).word base
       parkOf (SMap.get 0 s.me.spmap 3) = some (.bank 1 0) ∧ (s.parkRead s.myCtx 0 (.bank 1 0)).2.isOk = true)
    ∧ (let s := (parkedIn (Park.quarter 0 0).word base)
       let t : State := { s with mem := { s.mem with accPsn := [(s.quarterRow s.myCtx 0 0, true)] } }
       parkOf (SMap.get 0 s.me.spmap 3) = some (.quarter 0 0) ∧ (t.parkRead t.myCtx 0 (.quarter 0 0)).2.isOk = false) := by decide +kernel

/-- BlockFormats: a tile of one chunk that lies in the window, read and written. -/
theorem wit_BlockFormats : let s := regs base [0, 0x1000, 0x400040]
    let u : U := { un 2 1 0 0xC000 with mi := 8 }
    let v : U := { un 1 2 0 0xC000 with mi := 0 }
    s.lane0 u = true ∧ s.readsDone = true ∧ s.me.pend.any (·.hidden) = false ∧ (s.bxTile u u.mi.toNat u.a 0 .write).isOk = true
      ∧ (s.screen false ⟨1, none⟩ ((s.bxTile u u.mi.toNat u.a 0 .write).toOption.getD [])).isOk = true
      ∧ (s.bxTile v 8 v.b 1 .read).isOk = true ∧ s.readMeets ((s.bxTile v 8 v.b 1 .read).toOption.getD []) = false
      ∧ ((s.settleLines (some s.myKey) ((s.bxTile v 8 v.b 1 .read).toOption.getD [])).screen true ⟨0, none⟩ ((s.bxTile v 8 v.b 1 .read).toOption.getD [])).isOk = true := by decide +kernel
def fmtW : W64 := 0x7700000000000000
def fmtd (s : State) (f : W64) : State := s.updCore 0 (fun c => { c with fmtq := [(0, [f]), (1, [f])] })
def ready (s : State) (kind : CmdKind) (cls q : Nat) (ctl : W64) (rows : Option (Nat × Nat)) : Bool :=
  !s.ctlPriv ctl && ctlOk ctl && (s.queueFor kind cls q ctl).isSome && (match s.queueFor kind cls q ctl with | some x => (s.eq s.cu.core x.1).length < 16 && !s.engExhausted s.myCtx s.cu.core x.1 | none => false)
    && (match rows with | some (r, n) => (match (s.evictRows s.myCtx s.cu.core r n).2 with | .ok => true | _ => false) | none => true)
/-- ComputeCommands: FMT.PUSH with room, not held, ill formed; a product of two tiles and one with A in registers; rows zeroed; no format word;
a chain that is legal, illegal, or names a token it may not. -/
theorem wit_ComputeCommands : base.lane0 (un 0 0 0 0) = true ∧ fmtOk false fmtW = true ∧ fmtOk true 0 = false ∧ base.holdsSide base.myCtx 0 0 = true
    ∧ (bare base).holdsSide rootCtx 0 0 = false
    ∧ (let s := fmtd (regs base [0, 0, 0x40, 0, 0x1000, 0x40]) fmtW
       s.wholeEngine s.myCtx 0 = true ∧ fRow0 fmtW + fRows fmtW ≤ (s.accRows s.myCtx 0).2
         ∧ tileOk 2 (s.rdS 2) (s.rdS 3) (s.winLen s.myCtx s.myClu) (fRows fmtW) ((widthsA fmtW).headD 0) (widthsA fmtW).length = true
         ∧ tileOk 4 (s.rdS 4) (s.rdS 5) (s.winLen s.myCtx s.myClu) 64 ((widthsB fmtW).headD 0) (widthsB fmtW).length = true
         ∧ (s.raceAll s.myCtx (s.engKey s.myCtx 0 6) (s.engClk (s.engKey s.myCtx 0 6) (s.rs s.myRace).xclk) ⟨0, none⟩
             (s.operandPieces (.desc (s.rdS 2) (s.rdS 3)) (fRows fmtW) (widthsA fmtW) ++ s.operandPieces (.desc (s.rdS 4) (s.rdS 5)) 64 (widthsB fmtW))).isOk = true
         ∧ ready s (.mma fmtW (.desc (s.rdS 2) (s.rdS 3)) (.desc (s.rdS 4) (s.rdS 5))) 0 6 0 (some (fRow0 fmtW, fRows fmtW)) = true
         ∧ ready s (.zero fmtW) 0 7 0 (some (fRow0 fmtW, fRows fmtW)) = true)
    ∧ fN 0x8810000000000000 ≠ 0 ∧ fmtOk false 0x8810000000000000 = true ∧ SMap.get [] (base.core 0).fmtq 1 = []
    ∧ base.toksOk [3, 31] = true ∧ (bare base).toksOk [3] = false ∧ (base.lineRead ⟨0, none⟩ 0x100 64).2.isOk = true
    ∧ (let x := (base.wrP64 0x20000100 0x10).lineRead ⟨0, none⟩ 0x100 64
       x.2.isOk = true ∧ chainOk 0 (words64 8 (val x [])) = true ∧ (x.1.eq 0 (x.1.chainQ rootCtx 0)).length < 8)
    ∧ chainOk 0 (words64 8 (val ((base.wrP64 0x20000100 0xF0).lineRead ⟨0, none⟩ 0x100 64) [])) = false := by decide +kernel
/-- A handle of 64 KiB at the start of the mapped page, cached. -/
def handled (s : State) : State := { s.setCw rootCtx 2 0x20000000000000 with dev := { s.dev with hnd := [(rootCtx, 1, [7, 0x20000000, 0x10000])] } }
/-- CopyCommands: each command's checks passed at the end of its ranges; one whose booking is over. -/
theorem wit_CopyCommands : (let s := handled base
      (∀ d, (s.handleCheck 1 0xFFC0 0x40 d [(0xFFC0, 0x40)]).isOk = true) ∧ (s.handleCheck 1 0 0 false []).isOk = true
        ∧ (s.handleCheck 1 0 0x40 true ((List.range 1).map (fun i => (i * 0x40, 0x40)))).isOk = true
        ∧ s.myWin.holds (BitVec.ofNat 64 (spadSize - 0x40)) 0x40 = true ∧ s.myWin.holds 0 0 = true
        ∧ tileOk 2 0 0x100 (s.winLen s.myCtx s.myClu) 1 256 1 = true ∧ 4095 + 1 ≤ (s.accRows s.myCtx 0).2
        ∧ dwOk 0 false = true ∧ (s.win rootCtx 0).holds 0x100 0x40 = true ∧ dwOk 0x80000000000000 false = true
        ∧ dwOk 1 false = true ∧ (s.arrAddr rootCtx 0 0).isSome = true ∧ (32 : W64).toNat % 32 = 0
        ∧ (∀ q ∈ [9, 12], ready s (.ld ⟨0x20000000, 0x10000, false, rootCtx, 1, 0⟩ 0 0 0x40) 1 q 0 none = true) ∧ ready s (.send 32 1) 3 13 0 none = true
        ∧ ready s (.acc true 0 1 (.desc 0 0x100)) 1 9 0 (some (0, 1)) = true
        ∧ s.ctlPriv 0x100000000 = false ∧ ctlOk 0x100000000 = true ∧ (s.queueFor (.send 0 0) 1 9 0x100000000).isNone = true ∧ s.engExhausted rootCtx 0 9 = false)
    ∧ (let s : State := { base with dev := { base.dev with trained := 1, fxpeer := 0x0 } }
       s.fabOn = true ∧ s.holdsPort rootCtx 0 = true ∧ (s.portPeer 0).isSome = true) := by decide +kernel
def win0 : Win := ⟨0, spadSize, 64, 0, 0⟩
def cmd (k : CmdKind) (started : Bool) (prog : Nat) (ended : Bool) : Cmd :=
  { id := 1, kind := k, ctx := rootCtx, core := 0, st := 0, upc := 0x10000, iw := IW.blank, ctl := 0, consumes := [5], tp := 3, clk := Clock.empty, started := started,
    prog := prog, done := [], ended := ended, fault := none, susp := 0, flags := 4, win := win0, win2 := win0, reached := [], refused := [], sends := [], edge := false, lines := [], wins := [], acc := [] }
def engine (q : Nat) (c : Cmd) : State := (toks base [(5, 1)]).setEq 0 q [c]
def chn : CmdKind := .chain 0 [0x10, 0x1000, 0x1100, 0x1200, 0x1300, 1, 0, 0]
/-- EngineEvents: a start, none to start, a sum, a zeroing, a completion, and a suspension outside a window. -/
theorem wit_EngineEvents : engAt (.vch 0 0) = some (0, 8)
    ∧ (let s := engine 8 (cmd chn false 0 false)
       s.nextCmd 0 8 = some (cmd chn false 0 false) ∧ s.startable? 0 8 (cmd chn false 0 false) = true ∧ s.outranked 0 (consumerRank 8) [5] = false ∧ (s.core 0).bad = [])
    ∧ base.nextCmd 0 8 = none
    ∧ (let c : Cmd := { cmd (.mma fmtW (.data []) (.data [])) true 0 false with acc := List.replicate 2048 0 }
       (engine 6 c).running (.mxh 0 0) = some (0, 6, c) ∧ pairLines 0 c fmtW 0 (.data []) (.data []) = [] ∧ ((engine 6 c).ctx c.ctx).pmsel = []
         ∧ (mmaPair fmtW c.prog [] [] c.acc).length = 64 * fRows fmtW)
    ∧ (let c := cmd (.zero fmtW) true 0 false
       (engine 7 c).running (.mxh 0 1) = some (0, 7, c))
    ∧ (let c := cmd chn true 2 true
       (engine 8 c).eq 0 8 = [c] ∧ c.ended = true ∧ c.fault = none ∧ c.susp ≠ 4 ∧ (engine 8 c).coreAway c.ctx 0 = false ∧ (engine 8 c).flights = [] ∧ ctlHandle (cmd (.zero fmtW) true 32 true).ctl = 0)
    ∧ (let c : Cmd := cmd chn true 1 false
       let s : State := { engine 8 c with ctxs := (engine 8 c).ctxs.map (fun e => (e.1, { e.2 with stt := 3 })) }
       s.headCmd 0 8 = some c ∧ (∀ x ∈ s.eq 0 8, x.susp ≠ 4) ∧ c.atBoundary = true ∧ s.cmdOpen 0 8 c = false) := by decide +kernel
def started (f : W64) : Cmd := cmd (.mma f (.data []) (.data [])) false 0 false
def mayStart (f : W64) (z : Bool) : Bool :=
  (engine 6 (started f)).nextCmd 0 6 == some (started f) && (engine 6 (started f)).startable? 0 6 (started f) && fZero f == z
/-- EngineEvents: a matrix command that starts, from zero (ZERO set) or from rows without a mark. -/
theorem wit_EngineEvents_start : mayStart fmtW false = true ∧ mayStart (fmtW ||| 0x8000000000000) true = true := by decide +kernel
/-- EngineEvents: an operand line of a matrix command that has not been read. -/
theorem wit_EngineEvents_line : (let c : Cmd := cmd (.mma fmtW (.desc 0 0x40) (.data [])) true 0 false
    let l := (operandLines 0 c fmtW (.desc 0 0x40) (.data [])).filter (fun p => (c.lineAt (p.a / 64)).isNone)
    (engine 6 c).running (.mxh 0 0) = some (0, 6, c) ∧ overlaps 6 = false ∧ l.length = 32 ∧ ((engine 6 c).readLines c (l.take 1)).2.2 = none) := by decide +kernel
/-- 05 R146, 14 R375: a residue mismatch stops the command with cause 0x0B, marks its first output row, and leaves that row's sums. -/
theorem test_residue : (let c : Cmd := { cmd (.mma fmtW (.data []) (.data [])) true 0 false with acc := List.replicate 2048 0 }
    let t := (engine 6 c).serve (.residue (.mxh 0 0))
    ((t.eq 0 6).map (·.fault) = [some 0x0B] ∧ t.rowPsn 0 (fRow0 fmtW) = true ∧ t.accAt 0 (fRow0 fmtW) 0 = 0 ∧ t.tok 0 3 = 0)) := by decide +kernel
def hr : HRange := ⟨0x20000000, 0x10000, false, rootCtx, 1, 0⟩
def moveOk (q : Nat) (c : Cmd) (src dst : List Piece) : Bool := ((engine q c).moveCheck 0 q c src dst).isOk && ((engine q c).moveBytes 0 q c src dst).isOk
/-- EngineMoves: the first part of each copy, and an element of a gather and of a scatter. -/
theorem wit_EngineMoves : (let c := cmd (.ld hr 0 0 0x40) true 0 false
      (engine 9 c).chosen (.cpe 0 0) 0 = some ((0, 9, c), 0) ∧ (engine 9 c).nextPart c 0 = some 0
        ∧ moveOk 9 c (memPieces base.dev hr c.srcAt 0 (c.partLen 0)) (spPieces c.win 0 c.dstAt 0 (c.partLen 0)) = true)
    ∧ (let c := cmd (.st hr 0 0 0x40) true 0 false
       (engine 9 c).nextPart c 0 = some 0 ∧ moveOk 9 c (spPieces c.win 0 c.srcAt 0 (c.partLen 0)) (memPieces base.dev hr c.dstAt 0 (c.partLen 0)) = true)
    ∧ (∀ m, let c := cmd (.d2 m hr 0 (.desc 0 0x40) 1 64 64) true 0 false
       (engine 9 c).nextPart c 0 = some 0
         ∧ moveOk 9 c (if m then spPieces c.win 0 c.srcAt 0 (c.partLen 0) else memPieces base.dev hr c.srcAt 0 (c.partLen 0))
             (if m then memPieces base.dev hr c.dstAt 0 (c.partLen 0) else spPieces c.win 0 c.dstAt 0 (c.partLen 0)) = true)
    ∧ (let c := cmd (.x 0 0x100 0x0 0x40) true 0 false
       (engine 12 c).nextPart c 0 = some 0 ∧ moveOk 12 c (spPieces c.win 0 c.srcAt 0 (c.partLen 0)) (spPieces c.win2 0 c.dstAt 0 (c.partLen 0)) = true)
    ∧ (∀ m, let c := cmd (.acc m 0 1 (.desc 0 0x100)) true 0 false
       let ps := spPieces c.win 0 (fun x => c.win.base + (Tile.desc 0 0x100).at 0 0 x) 0 256
       (engine 9 c).nextPart c 0 = some 0 ∧ ((engine 9 c).moveCheck 0 9 c (if m then ps else []) (if m then [] else ps)).isOk = true
         ∧ SMap.rising (engine 9 c).mem.acc = true)
    ∧ (∀ m, let c := cmd (.g m hr 0 0x100 0x200 1 4 4) true 0 false
       let s := engine 9 c
       let ip := spPieces c.win 0 (fun x => c.win.base + 0x200 + x) 0 4
       let mp := memPieces s.dev hr (fun x => hr.base + x) 0 4
       let sp := spPieces c.win 0 (fun x => c.win.base + 0x100 + x) 0 4
       s.chosen (.cpe 0 0) 0 = some ((0, 9, c), 0) ∧ s.nextPart c 0 = some 0 ∧ s.firstPsn ip = none ∧ ofBytes (s.engLoad ip) = 0 ∧ (s.moveCheck 0 9 c ip []).isOk = true
         ∧ s.groupRefused c.ctx hr.base 4 = none ∧ moveOk 9 c (if m then sp else mp) (if m then mp else sp) = true) := by decide +kernel
/-- ChainsAndSends: an element of a chain; an entry whose buffer has a free slot. -/
theorem wit_ChainsAndSends : (let c := cmd chn true 0 false
      let s := engine 8 c
      let x := s.chainStreams c 0 4 0 [0x10, 0x1000, 0x1100, 0x1200, 0x1300, 1, 0, 0] [0, 3]
      s.running (.vch 0 0) = some (0, 8, c) ∧ x.2.isOk = true ∧ x.1.firstPsn (((val x []).filter (fun e => e.1 != 3)).flatMap (·.2)) = none
        ∧ ∀ e ∈ val x [], ∀ p ∈ e.2, p.chk = false)
    ∧ (let c := cmd (.send 0x400 1) true 0 false
       let s0 := engine 13 c
       let s : State := { s0 with dev := { s0.dev with fxpeer := 1 } }
       let s := (s.wrBytes true 0x400 (toBytes 8 0x4000001000 ++ toBytes 8 0)).wrBytes true 0 (toBytes 8 0x1000000000040 ++ toBytes 8 0x1000000000000)
       let ps := spPieces c.win 0 (fun x => c.win.base + 0x400 + x) 0 32
       let w := words64 4 (s.engLoad ps)
       (s.runners (.snd 0 0)).find? (fun x => x.2.2.prog < x.2.2.total && x.2.2.susp != 4) = some (0, 13, c) ∧ s.firstPsn ps = none ∧ (s.moveCheck 0 13 c ps []).isOk = true ∧ s.entryBad c.ctx w = false
         ∧ c.win.holds (BitVec.ofNat 64 (bits (w.getD 0 0) 24 0)) (bits (w.getD 0 0) 47 32) = true ∧ (w.getD 1 0).getLsbD 55 = false
         ∧ (match s.reserveChecked 0 13 { c with prog := 1 } (c.winAt 0) 0 0 0x40 with | .ok (_, some _) => true | _ => false) = true
         ∧ (s.reserve win0 0 0 0x40).2.isSome = true ∧ bits (w.getD 0 0) 47 32 = 0x40) := by decide +kernel

def asked (s : State) : State := s.updCtx rootCtx (fun c => { c with req := true, left := 100 })
def side4 : State := { base.setAg 0 4 { Agent.blank with run := .running, item := some ⟨rootCtx, 0, 0, 0, false, none, false⟩ } with
  cu := { cur with st := 4 }, launches := [(0, ⟨rootCtx, 0, [], 1, true, [4], [(0, 9)]⟩)] }
/-- ThreadInstructions: the identifiers, the ends, a yield with and without a request, and suspensions that park or cannot. -/
theorem wit_ThreadInstructions : base.me.item.isSome = true ∧ isSide base.cu.st = false
    ∧ (side4.me.item.isSome = true ∧ isSide side4.cu.st = true ∧ (SMap.find? side4.launches 0).isSome = true
        ∧ ∀ l ∈ SMap.find? side4.launches 0, (l.cores.find? (fun e => e.1 == 0)) = some (0, 9))
    ∧ base.allDone = true ∧ base.stopAsked base.myCtx = false ∧ base.sideAsked base.myCtx 0 (sideOf base.cu.st) = false
    ∧ (let s := asked (spillArea base)
       s.stopAsked s.myCtx = true ∧ s.allDone = true ∧ s.exhausted 1 3 = false ∧ (s.park 0 0 s.nextPc []).2 = true)
    ∧ (let s := spillArea base
       s.toksOk [31] = true ∧ (s.park 0 0 s.nextPc [waitTok 0 31]).2 = true ∧ (base.park 0 0 base.nextPc [waitTok 0 31]).2 = false
         ∧ (s.arrAddr s.myCtx s.myClu ((regs s [8]).sA (un 1 2 63 0))).isSome = true ∧ (s.park 0 0 s.nextPc [waitArr 1 s.myClu 8]).2 = true) := by decide +kernel
/-- The root's queues at 0x40000: queue 0 on, with a ring of 16 entries at 0x50000, empty or full. -/
def queueArea (tail : Nat) : State := ((base.setCw rootCtx 3 0x40000).wrP64 0x20040000 0x50401).wrP64 0x20040008 (BitVec.ofNat 64 tail)
/-- LaunchInstructions: a post with room and to a full ring; a child that parks its parent. -/
theorem wit_LaunchInstructions : (let s := queueArea 0
      let x := s.lineRead ⟨0, none⟩ 0 32
      let y := x.1.lineRead ⟨0, none⟩ (x.1.queueVa s.myCtx 0) 16
      let w0 := (words64 2 (val y [])).getD 0 0
      let w1 := (words64 2 (val y [])).getD 1 0
      let a := y.1.access rootCtx .write false (ringVa w0 0) 32
      let b := a.1.access rootCtx .write false (a.1.queueVa rootCtx 0 + 8) 8
      s.toksOk [] = true ∧ s.allPerformed = true ∧ s.queueOff 0 = false ∧ base.queueOff 0 = true ∧ x.2.isOk = true ∧ y.2.isOk = true ∧ queueOn w0 = true ∧ y.1.ringFull rootCtx w0 w1 = false
        ∧ a.2.isOk = true ∧ b.2.isOk = true ∧ val b [] ≠ [] ∧ (b.1.screen false ⟨1, none⟩ (val a [])).isOk = true
        ∧ (b.1.screen false ⟨1, some 3⟩ (val b [])).isOk = true ∧ b.1.exhausted 1 3 = false ∧ bit (b.1.cw rootCtx 3) 0 = false)
    ∧ (let s := queueArea 16
       let y := s.lineRead ⟨0, none⟩ (s.queueVa s.myCtx 0) 16
       y.2.isOk = true ∧ y.1.ringFull rootCtx ((words64 2 (val y [])).getD 0 0) ((words64 2 (val y [])).getD 1 0) = true)
    ∧ (let s := spillArea base
       let x := s.lineRead ⟨0, none⟩ 0 32
       s.toksOk [31] = true ∧ x.2.isOk = true ∧ s.allDone = true ∧ x.1.exhausted 1 3 = false ∧ (x.1.park 0 0 x.1.nextPc [waitTok 0 31]).2 = true) := by decide +kernel

/-- A direct child of the root, 2, in a STATE, with some descriptor words. -/
def kid (s : State) (stt : Nat) (w : List (Nat × W64)) : State := s.setCtx 2 { Ctx.blank with stt := stt, depth := 1, parent := rootCtx, w := w }
/-- The same, holding what the root holds, its agent issuing, its space mapped onto the root's. -/
def inKid (w : List (Nat × W64)) : State :=
  let s := (base.wrP64 0x20070000 0x80001).wrP64 0x20080000 0x19F
  let s := s.setCtx 2 { Ctx.root s.dev ([(1, 0x70001)] ++ w) with depth := 1, parent := rootCtx }
  s.updMe (fun a => { a with item := some ⟨2, 0, 0, 0, false, none, false⟩ })
/-- A chain of one step at a window offset. -/
def chained (s : State) (o : Nat) (w0 : W64) : State := s.wrBytes true o (toBytes 8 0x1000000000000000 ++ toBytes 8 0 ++ toBytes 8 w0.toNat ++ toBytes 8 0)
def stepW : W64 := 0x0000802000008000
def bkg (st : Nat) : Booking := ⟨1, rootCtx, st, 0, 0, 0, 0, [⟨stepW, 0, 0, [], .none, 0, 0, false, false, false, false, []⟩], 1, 0, Clock.empty, 0, [], 0, none⟩
def booked (s : State) (b : Booking) : State := { s with book := { s.book with recs := [(0, b)], tasks := [(1, Task.blank b.ctx 0 none none [])] } }
def chainIs (x : State × ChainRes) (good : Bool) : Bool := match x.2 with | .ok _ _ _ => good | .bad _ _ => !good
def chainRanges (x : State × ChainRes) : List Range := match x.2 with | .ok _ _ r => r | .bad _ _ => []
/-- CalendarInstructions: a block outside the window, a legal chain with room, without quota, and malformed; each case of CAL.CANCEL and
CAL.QUERY; the first and last slot that can be queried and those beside them. -/
theorem wit_CalendarInstructions :
    (base.myWin.holds 8 16 = true ∧ (8 : W64).toNat % 16 ≠ 0)
    ∧ (let o := spadSize - 32
       let s := chained base o stepW
       let x := s.readChain rootCtx 0 o
       s.myWin.holds (BitVec.ofNat 64 o) 32 = true ∧ ofBytes (s.rdBytes true (spKey 0 o) 8) / 2 ^ 60 = 1 ∧ chainIs x true = true ∧ x.1.quotaFree rootCtx = true
         ∧ x.1.roomFor 0 rootCtx (chainRanges x) = true ∧ (x.1.freeRec 0).isSome = true)
    ∧ (let s := chained (inKid [(14, 0)]) 0 stepW
       let s := s.setCw 2 14 0
       chainIs (s.readChain 2 0 0) true = true ∧ (s.readChain 2 0 0).1.quotaFree 2 = false)
    ∧ chainIs ((chained base 0 (stepW + 1)).readChain rootCtx 0 0) false = true
    ∧ base.bookAt 0 = none ∧ (booked base (bkg 2)).bookAt 1 = some (bkg 2) ∧ (base.chain rootCtx).contains base.myCtx = true
    ∧ (let s := booked (inKid []) (bkg 2)
       (s.bookAt 1).isSome = true ∧ (s.chain rootCtx).contains s.myCtx = false ∧ (s.ctx s.myCtx).depth ≠ 0 ∧ s.tenant rootCtx ≠ s.tenant s.myCtx
         ∧ s.holdsEng (s.tenant s.myCtx) 0 0 = true)
    ∧ (base.ctx base.myCtx).depth = 0 ∧ groupPresent base.dev 63 0 = true ∧ base.slotNo ≤ 1023 ∧ 1023 ≤ base.slotNo + 1023 ∧ base.slotNo + 1023 < 1024
    ∧ ({ base with slotNo := 5 } : State).slotNo > 4 ∧ bits (255 : W64) 7 0 < classSize 0 ∧ classSize 3 ≤ bits (16 + 3 * 2 ^ 8 : W64) 7 0 := by decide +kernel
/-- A trap area at 0x60000 with one general entry. -/
def trapped (s : State) (c : Nat) : State := s.updTrap c (fun t => { t with tvec := 1, tframe := 0x60000 })
def rec0 : Rec := ⟨9, false, 2, 0, 1, 0, List.replicate 256 0⟩
/-- Exceptions: a unit outside a loop and a transfer; a record of the deepest context and the last core; a delivery; SYSCALL in both. -/
theorem wit_Exceptions : base.cu.cap = none ∧ base.cu.inLoop = false ∧ base.me.xfer = none ∧ (base.ctx 0xFFFF).depth < 4 ∧ ([] : List (List W64)).length ≤ 8
    ∧ (let s := trapped base rootCtx
       s.passesOn rootCtx rec0.cause = false ∧ (s.placeRecord rootCtx 0 false (s.entryOrder rootCtx false) rec0.words).2 = .done [8]
         ∧ (SMap.find? (s.placeRecord rootCtx 0 false (s.entryOrder rootCtx false) rec0.words).1.ctxs rootCtx).isSome = true)
    ∧ (base.ctx base.myCtx).depth = 0 ∧ ((inKid []).ctx (inKid []).myCtx).depth ≠ 0 := by decide +kernel
/-- A record of the child's stream 1 on C0, cause 9, in entry 8 of the root's area. -/
def recorded (s : State) : State := s.wrBytes false 0x20064000 (bytes64 [0x10090002, 0, 0, 0, 0, 0, 0, 0])
def heldAt (acked : Bool) : Held := ⟨0x64000, 8, acked, 0⟩
def holding (s : State) (acked : Bool) : State := s.updMe (fun a => { a with held := some (heldAt acked) })
def stuck (s : State) : State := s.setAg 0 1 { Agent.blank with run := .faulted 9, item := some ⟨2, 0, 0, 0, false, none, false⟩, pc := 0x44, seat := agKey 0 1 }
/-- Handlers: an agent with no record, with one, and with one whose stream goes on; a record to reflect; a handler to start. -/
theorem wit_Handlers : base.me.held = none ∧ (holding base true).me.held = some (heldAt true)
    ∧ (let s := holding (stuck (recorded (trapped (kid base 2 []) rootCtx))) false
       let x := s.heldSet (heldAt false)
       let w := ((val x []).headD (0, [])).2
       s.allDone = true ∧ x.2.isOk = true ∧ (val x []).length = 1 ∧ (x.1.chain (rCtx w)).contains s.myCtx = true ∧ (SMap.find? x.1.ctxs (rCtx w)).isSome = true
         ∧ rStream w < 6 ∧ rFrz w = false ∧ (List.find? (fun (e : Nat × Agent) => e.2.faultedBy (rCtx w) (agKey (rCore w) (rStream w)) (rCause w)) x.1.agents).map (·.1) = some (agKey (rCore w) (rStream w))
         ∧ x.1.ctxHeld (rCtx w) = false ∧ x.1.frozen (rCtx w) (rCore w) = false ∧ ((regs s [0x101]).sA (un 1 0 0 0)).getLsbD 8 = true ∧ rCtx w ≠ s.myCtx
         ∧ agKey (rCore w) (rStream w) ≠ agKey s.cu.core s.cu.st)
    ∧ (let s := holding (recorded (trapped (inKid []) 2)) false
       s.allDone = true ∧ (s.heldSet (heldAt false)).2.isOk = true ∧ ((s.heldSet (heldAt false)).1.chain s.myCtx).drop 1 = [rootCtx])
    ∧ (let s := (trapped base rootCtx).updTrap rootCtx (fun t => { t with wrote := [⟨8, 0x64000, false, 0, 9, 0⟩] })
       (s.ctx rootCtx).trap.nextWrote = some ⟨8, 0x64000, false, 0, 9, 0⟩ ∧ s.handlerCore rootCtx 0 = some 0 ∧ (s.ctx rootCtx).trap.hstate = .idle ∧ s.ctxHeld rootCtx = false) := by decide +kernel

/-- ContextGrants: a creation; a query of oneself, of a child and of a stranger; each word and each kind of grant, at the limits of the issuer
and of the child. -/
theorem wit_ContextGrants :
    (let x := base.lineRead ⟨0, none⟩ 0x100 128
     (0x100 : W64).toNat % 128 = 0 ∧ (base.ctx base.myCtx).depth < 3 ∧ x.2.isOk = true ∧ blockBad ((base.ctx base.myCtx).depth == 0) (words64 16 (val x [])) = false
       ∧ x.1.overCharge (x.1.chargePath rootCtx) 0 (bits ((words64 16 (val x [])).getD 4 0) 11 0) = false ∧ x.1.ctxs.length < 255)
    ∧ (SMap.find? base.ctxs 2).isSome = false ∧ (SMap.find? (kid base 1 []).ctxs 2).isSome = true ∧ ((kid base 1 []).chain 2).contains base.myCtx = true
    ∧ base.isChild 2 = false
    ∧ (let s := kid base 1 []
       s.isChild 2 = true ∧ s.jobs = [] ∧ (∀ k ∈ [1, 2, 3, 4, 5, 6], wordBad k 0x10000 = false ∨ k = 6) ∧ wordBad 6 255 = false ∧ wordBad 3 1 = false
         ∧ bits (0 : W64) 56 52 ≤ bits (s.cw 2 13) 31 27 ∧ s.overCharge (s.chargePath 2) (bits (s.cw 2 4) 11 0) (bits (0 : W64) 11 0) = false
         ∧ (∀ e ∈ sidesNamed 1 0x8000000000000000 1, s.holdsSide s.myCtx e.1 e.2 = true) ∧ (∀ e ∈ sidesNamed 2 1 2, s.holdsSide s.myCtx e.1 e.2 = true)
         ∧ (∀ e ∈ engsNamed 3 0x8000000000000001 0, s.holdsGroup s.myCtx e.2 = true ∧ ∀ t ∈ s.tenants, t ≠ s.tenant 2 → s.holdsGroup t e.2 = false)
         ∧ (∀ k, k < 16 → (0x8001 : W64).getLsbD k = true → s.holdsPort s.myCtx k = true)
         ∧ bits (s.cw s.myCtx 14) 63 48 = 0xFFFF ∧ bits (s.cw 2 14) 63 48 = 0 ∧ bits (s.cw s.myCtx 15) 63 32 = 0xFFFFFFFF ∧ bits (s.cw 2 15) 63 32 = 0
         ∧ bits (s.cw s.myCtx 13) 31 27 = 20 ∧ bits (s.cw 2 13) 31 27 = 0
         ∧ (let v : W64 := BitVec.ofNat 64 (64 * 2 ^ 38 + spadSize / 64 * 2 ^ 19 + (spadSize / 64 - 1))
            bits v 63 45 = 0 ∧ bits v 18 0 * 64 ≤ bits v 37 19 * 64 ∧ (s.win s.myCtx 15).base ≤ bits v 18 0 * 64 ∧ bits v 37 19 * 64 ≤ (s.win s.myCtx 15).lim
              ∧ 0 + bits v 44 38 + (s.win rootCtx 15).chkLen ≤ 64 ∧ (s.ctx rootCtx).depth = 0)
         ∧ calWordOk 0x4004 = true ∧ (∀ o ∈ s.tenants, o = 2 ∨ s.shareOn 2 o 0 = false) ∧ (s.ctx 2).stt = 1
         ∧ ∀ y ∈ s.subtree 2, (s.ctx y).carried = [] ∧ (s.ctx y).saved = none ∧ (s.ctx y).aside.isEmpty = true)
    ∧ ((kid base 2 []).ctx 2).stt = 2 ∧ ((kid base 3 []).ctx 2).stt = 3
    ∧ (let s := (inKid []).setCtx 3 { Ctx.blank with stt := 1, depth := 2, parent := 2 }
       s.isChild 3 = true ∧ (s.ctx s.myCtx).depth ≠ 0) := by decide +kernel
def job (k : JobKind) (phase : Nat) : Job := ⟨1, k, 2, 0, 3, Clock.empty, [], agKey 0 0, phase, [], rootCtx⟩
def withJob (s : State) (j : Job) : State := { s with jobs := [j] }
/-- Jobs: a child to take from and none; the operands of the invalidations and resets; each kind of job when ready and when not; a group
taken and the last port. -/
theorem wit_Jobs : base.lane0 (un 0 0 0 0) = true ∧ base.exhausted 1 0 = false ∧ base.toksOk [31] = true ∧ base.isChild 2 = false
    ∧ (let s := kid base 2 []
       s.isChild 2 = true ∧ s.jobs = [] ∧ (s.win 2 15).base ≤ 0 ∧ 0 ≤ (s.win 2 15).lim ∧ bits (s.cw 2 13) 31 27 = 0 ∧ (s.ctx 2).stt = 2 ∧ (s.ctx 2).req = false)
    ∧ ((kid base 1 []).ctx 2).stt ≠ 2 ∧ (SMap.find? base.ctxs rootCtx).isSome = true ∧ (base.chain rootCtx).contains base.myCtx = true
    ∧ (regs base [0, 0, 0, 0x100]).rdS 5 = 0 ∧ (regs base [0, 0, 0, 0x100, 8]).rdS 5 ≠ 0 ∧ (base.ctx base.myCtx).depth = 0
    ∧ bits (0x20000 : W64) 17 16 = 2 ∧ bits (0x30000 : W64) 17 16 = 3 ∧ ((inKid []).ctx (inKid []).myCtx).depth ≠ 0
    ∧ bits (0x17F : W64) 6 0 = 127 ∧ bits (0x17F : W64) 63 9 = 0 ∧ (0x17F : W64).getLsbD 7 = false ∧ base.wholeEngine rootCtx 127 = true
    ∧ (∀ k ∈ [JobKind.revoke 3 1 0, .tlbRange 0 4096, .tlbSpace, .handle 0, .destroy],
        let s := withJob (kid base 3 []) (job k 1)
        s.jobReady (job k 1) = true ∧ s.jobReady (job k 0) = false ∧ (s.applyJob (job k 1)).jobs = [job k 1])
    ∧ (let s := kid base 2 [(12, 1), (13, 0x0100800000000000)]
       2 ∈ s.subtree 2 ∧ s.holdsGroup 2 0 = true ∧ (1 : W64).getLsbD 0 = true ∧ s.holdsPort 2 15 = true ∧ (0x8000 : W64).getLsbD 15 = true
         ∧ s.book.recs = [] ∧ s.book.tasks = [] ∧ 2 ≠ rootCtx) := by decide +kernel

def csr (n : W32) : U := un 3 1 0 n
def csrDone : CsrRes → Bool | .done _ => true | _ => false
/-- ControlRegisters: a sidecar, a child and a stranger turned away; each register that the statement names, allowed. -/
theorem wit_ControlRegisters : base.lane0 (csr 0) = true ∧ isSide side4.cu.st = true
    ∧ (let s := inKid []
       (s.ctx s.myCtx).depth ≠ 0 ∧ ((s.updCtx 2 (fun c => { c with depth := 2 })).ctx s.myCtx).depth = 2)
    ∧ (bare base).holdsSide (bare base).myCtx 0 ((0x107 - 0x100) / 8) = false ∧ (bare base).holdsSide (bare base).myCtx 0 ((0x12F - 0x110) / 16) = false
    ∧ (∀ n ∈ [0x000, 0x001, 0x002, 0x007, 0x00B, 0x010, 0x011, 0x012, 0x013, 0x014, 0x01B, 0x030, 0x047, 0x10F, 0x111],
        (base.csrGate n).isNone = true ∧ csrDone (base.csrWrite n 5) = true)
    ∧ (SMap.find? base.ctxs base.myCtx).isSome = true ∧ base.me.early base.cycle .vstat = false
    ∧ (let s := base.updCtx rootCtx (fun c => { c with dirty := ⟨3, [], 2, false⟩ })
       (s.ctx s.myCtx).dirty.reg.getLsbD 1 = true)
    ∧ (let s := base.updCtx rootCtx (fun c => { c with dirty := ⟨1, [], 5, false⟩ })
       s.dev.featacc.getLsbD 6 = true ∧ bits (0x1000 : W64) 3 0 = 0 ∧ bits (s.ctx s.myCtx).dirty.reg 1 0 = 1 ∧ (s.ctx s.myCtx).dirty.st ≠ 1) := by decide +kernel
def hsem (v : W64) : State := { base with dev := { base.dev with hsem := [(31, v)] } }
/-- RegisterEffects: each write where it acts and where it does not, at the last set, semaphore and counter. -/
theorem wit_RegisterEffects : (∀ n ∈ [0x01A, 0x01C, 0x01D, 0x01E, 0x020, 0x050, 0x05F, 0x060, 0x07F, 0x110, 0x12F], (base.csrGate n).isNone = true)
    ∧ (base.ctx base.myCtx).chkBusy = false ∧ (SMap.find? base.ctxs base.myCtx).isSome = true ∧ ((base.updCtx rootCtx (fun c => { c with chkBusy := true })).ctx base.myCtx).chkBusy = true
    ∧ base.dev.featacc.getLsbD 5 = true ∧ (SMap.find? base.ctxs (base.tenant base.myCtx)).isSome = true ∧ bits (base.ctx (base.tenant base.myCtx)).blog.reg 1 0 ≠ 1
    ∧ (let w := base.win base.myCtx 0
       let v : W64 := BitVec.ofNat 64 (64 * 2 ^ 16 + (spadSize / 65536 - 64))
       base.chkOn = true ∧ bits v 22 16 ≤ w.cap ∧ (bits v 8 0 + bits v 22 16) * 65536 ≤ w.lim - w.base ∧ ¬(bits (v + 1) 8 0 + bits (v + 1) 22 16) * 65536 ≤ w.lim - w.base)
    ∧ ((bare base).accRows (bare base).myCtx 0).2 = 0 ∧ (base.accRows base.myCtx 0).2 ≠ 0
    ∧ base.quartersIn base.myCtx 0 ((List.range 64).filter (fun j => bit (base.accFree base.myCtx 0) j && !bit (0 : W64) j)) = []
    ∧ (let w : W64 := 0x80000000 &&& 0x873F0007
       isetWays w ≤ 6 ∧ isetFirst w % 2 ^ isetWays w = 0 ∧ isetCkg w ≤ 4 ∧ base.dev.iset = [])
    ∧ 6 < isetWays (0x7000000 : W64)
    ∧ bits (SMap.get 0 base.dev.hsem 31) 1 0 = 0 ∧ bits (SMap.get 0 (hsem 1).dev.hsem 31) 1 0 ≠ 0 ∧ bits (SMap.get 0 (hsem 3).dev.hsem 31) 1 0 = 3
    ∧ (hsem 3).allPerformed = true ∧ (hsem 3).exhausted 1 4 = false ∧ base.pmcLost 0 = false ∧ base.pmcLost 15 = false := by decide +kernel
def down (b : Boot) : State := { base with dev := { base.dev with boot := b } }
/-- HostFrames: each phase; a frame of the greatest length at the end of a page, one across it, one of absent memory; the window's end and
past it; a free, a held and an own semaphore; FEATACC and HSTAT. -/
theorem wit_HostFrames : (down .off).dev.boot = .off ∧ (down .dead).dev.boot = .dead ∧ base.dev.boot = .up
    ∧ frameOk 0xF00 256 = true ∧ frameOk 0xF08 256 = false ∧ frameOk 0 4 = false ∧ (∀ a ∈ span 0xF00 256, present base.dev a = true)
    ∧ present base.dev 0x10000000000 = false ∧ (0x10000000000 : Nat) < 2 ^ 52
    ∧ (base.extSpad rootCtx 15 (spadSize - 8) 8).isSome = true ∧ (base.extSpad rootCtx 15 spadSize 8) = none ∧ frameOk (spadSize - 8) 8 = true ∧ spadSize < 2 ^ 25
    ∧ bits (SMap.get 0 base.dev.hsem 31) 1 0 = 0 ∧ bits (SMap.get 0 (hsem 2).dev.hsem 31) 1 0 = 1 + 1 ∧ bits (SMap.get 0 (hsem 2).dev.hsem 31) 1 0 ≠ 0 + 1
    ∧ base.dev.featSet = true ∧ State.reset.dev.featSet = false ∧ State.reset.dev.boot ≠ .dead ∧ base.dev.hstat = []
    ∧ (let s : State := { base with dev := { base.dev with hstat := [0x0001000000000000, 0] } }
       s.dev.hstat = 0x0001000000000000 :: [0] ∧ bits (0x0001FFFFFFFFFFFF : W64) 63 48 = bits (0x0001000000000000 : W64) 63 48) := by decide +kernel
/-- Port 15 trained to chip 2, of chip 5, the root being the peer context. -/
def fab : State := { base with dev := { base.dev with chip := 5, trained := 0x8000, fxcfg := [(15, 0x102)], fxpeer := 0x100000001 } }
def flit (kind : Nat) (parts : List Part) (w0 w1 w2 : W64) : Flit := ⟨kind, 2, 5, 7, 0, false, 0, parts, w0, w1, w2⟩
def offer (till : Nat) (com : Bool) : State := { fab with book := { fab.book with offers := [⟨15, 7, 0, 0, 1, 4, 2, till, com⟩] } }
def leg (l : Leg) : State := { fab with book := { fab.book with recs := [(0, { bkg 1 with steps := [⟨stepW, 0, 0, [], l, 7, 0, false, false, true, false, []⟩] })] } }
def sendCmd : Cmd := { cmd (.send 0x400 1) true 1 false with sends := [⟨0, 1, 0, 7, 0, false, 0, 0, [0x4000001000, 0x0280F00000000000, 0, 0]⟩] }
/-- FabricMessages: a port that is trained, lost, enabled; a write into the window and past it; its acknowledgement; a send accepted, full and
unknown; the messages of a booking in each state of its offer and leg. -/
theorem wit_FabricMessages : fab.dev.linked = true ∧ fab.dev.trained.testBit 15 = true ∧ (flit 1 [] 0 0 0).dst = fab.dev.chip ∧ (flit 1 [] 0 0 0).kind = 1
    ∧ (down .dead).dev.linked = false ∧ base.dev.trained.testBit 15 = false
    ∧ (let s : State := { fab with dev := { fab.dev with trained := 0 } }
       let s1 : State := { s with dev := { s.dev with trained := s.dev.trained + 2 ^ 15 } }
       (SMap.get 0 s.dev.fxcfg 15).getLsbD 8 = true ∧ s.dev.trained.testBit 15 = false ∧ s1.syncPeer = some (bits (SMap.get 0 s.dev.fxcfg 15) 7 0) ∧ s.dev.op = 0)
    ∧ (SMap.get 0 base.dev.fxcfg 15).getLsbD 8 = false ∧ fab.dev.hstat.length < 16 ∧ fab.syncPeer = some 2 ∧ fab.portPeer 15 = some 2 ∧ fab.dev.syncFrom ≠ some 2
    ∧ (fab.partPieces 15 ⟨spadSize / 64 - 1, 0, false, List.replicate 64 0⟩).isSome = true ∧ fab.partPieces 15 ⟨spadSize / 64, 0, false, [0]⟩ = none
    ∧ (let s : State := { (fab.setEq 0 9 [cmd (.x 0 0 0 64) true 0 false]) with flights := [⟨7, 15, 0, 9, 1, 0, [(0, 64)]⟩] }
       s.flights.find? (fun y => y.port == 15 && y.tag == 7) = some ⟨7, 15, 0, 9, 1, 0, [(0, 64)]⟩ ∧ (s.cmdOf 0 9 1).isSome = true
         ∧ (∀ i, i < 1 → (1 : W64).getLsbD i = true) ∧ base.flights.find? (fun y => y.port == 15 && y.tag == 7) = none)
    ∧ (let s := fab.wrBytes true 0 (toBytes 8 0x1000000000040 ++ toBytes 8 0x1000000000000)
       (s.reserve (s.win s.pctx 0) 0 0 64).2.isSome = true ∧ (s.reserve (s.win s.pctx 0) 0 1 64).2 = none)
    ∧ fab.askOf 15 7 = none ∧ ((fab.setEq 0 13 [sendCmd]).askOf 15 7).isSome = true
    ∧ (∀ e ∈ (fab.setEq 0 13 [sendCmd]).askOf 15 7, e.2.2.dst = 0 ∧ e.2.2.v2 = false)
    ∧ (let w1 : W64 := BitVec.ofNat 64 (2 + 1 * 2 ^ 20)
       bits w1 9 0 ≠ 0 ∧ fab.peerHolds (bits w1 11 10) (bits w1 19 12) (bits w1 23 20) = true ∧ fab.legFits 0 0 1 1 2 = true ∧ fab.legFits 0 0 1 0 2 = false
         ∧ fab.peerHolds 0 255 3 = false)
    ∧ ((offer 64 true).book.offers.find? (fun o => o.is 15 7)).isSome = true ∧ (offer 0 false).slotNo = 0 ∧ fab.book.offers.find? (fun o => o.is 15 7) = none
    ∧ (∀ x ∈ (offer 64 false).book.offers, x.is 15 7 = true → x.committed = false)
    ∧ ((leg (.asked 0)).legOf 7).isSome = true ∧ ((leg .offered).legOf 7).isSome = true ∧ fab.legOf 7 = none := by decide +kernel

def rec1 (st : Nat) (waitAt : Option Nat) : Booking := { bkg st with waitAt := waitAt }
def headed : State := ((queueArea 1).setCw rootCtx 3 0x40001).updCtx rootCtx (fun c => { c with tails := [(0, 1)], headAt := [(0, 1)] })
def offered (till : Nat) (com : Bool) : State := { base with book := { base.book with offers := [⟨15, 7, 0, 0, 1, 4, 2, till, com⟩] } }
def late (s : State) (slot cycle : Nat) : State := { s with slotNo := slot, cycle := cycle }
/-- Bookings: a fit in the next slot; a search due, not due and without a place; the slot boundary before, at and with nothing to place; the
wait list; a freed run; an admission due, early and of nothing; a head aged, and one that is not; an offer and a leg that lapse, and do not. -/
theorem wit_Bookings : (base.findSlot rootCtx [] (bkg 1).steps 1025 1).isSome = true
    ∧ (let s := booked base (bkg 1)
       s.bookAt 1 = some (bkg 1) ∧ s.maySearch (bkg 1) = true ∧ s.maySearch (bkg 4) = false ∧ s.logMode (bkg 1) ≠ 2
         ∧ (∀ pl ∈ s.greedy (bkg 1) (groupsOf (bkg 1).steps) (s.lowerBound (bkg 1)), (pl.map Prod.fst).Nodup) ∧ (∀ x ∈ (bkg 1).steps, sRem x.w0 = false)
         ∧ (s.greedy (bkg 1) (groupsOf (bkg 1).steps) (s.lowerBound (bkg 1))).isSome = true)
    ∧ (let b : Booking := { bkg 1 with alts := [5000] }
       let s := booked base b
       s.bookAt 1 = some b ∧ s.maySearch b = true ∧ s.logMode b ≠ 2 ∧ s.greedy b (groupsOf b.steps) (s.lowerBound b) = none)
    ∧ (late base 0 255).cycle < base.slotAt + 256 ∧ base.slotAt + 256 ≤ (late base 0 256).cycle ∧ base.jobs = [] ∧ base.book.recs = [] ∧ SMap.rising base.ctxs = true
    ∧ (∀ e ∈ base.ctxs, e.2.slices = [] ∧ e.2.aside.isEmpty = true ∧ bit (base.cw e.1 3) 0 = false)
    ∧ base.waitDue 0 = [] ∧ (let s := late (booked base (rec1 6 (some 0))) 64 0
       s.waitDue 0 = [0] ∧ s.recOf 0 = some (rec1 6 (some 0)) ∧ (s.updRec 0 (fun b => { b with st := 1 })).maySearch { rec1 6 (some 0) with st := 1 } = true)
    ∧ (let s := (late (booked base (rec1 6 (some 0))) 64 0).updCtx rootCtx (fun c => { c with req := true })
       s.waitDue 0 = [0] ∧ (s.updRec 0 (fun b => { b with st := 1 })).maySearch { rec1 6 (some 0) with st := 1 } = false)
    ∧ base.fillers 0 0 1 1 = [] ∧ (let s := booked base (rec1 6 (some 0))
       s.fillers 0 0 1 8 ≠ [] ∧ SMap.rising s.book.recs = true)
    ∧ (late base 0 0).cycle < SMap.get 0 ({ base.book with admitAt := [(1, 16)] } : Book).admitAt 1 ∧ base.dev.boot = .up
    ∧ SMap.get 0 base.book.admitAt 1 ≤ base.cycle ∧ base.book.tasks = []
    ∧ SMap.get 0 (headed.ctx rootCtx).headAt 0 ≠ 0 ∧ SMap.get 0 (headed.ctx rootCtx).headAt 0 + 2500000 * (SMap.get 0 (headed.ctx rootCtx).age 0 + 1) ≤ (late headed 0 2500000).cycle + 1
    ∧ ¬SMap.get 0 (headed.ctx rootCtx).headAt 0 + 2500000 * (SMap.get 0 (headed.ctx rootCtx).age 0 + 1) ≤ (late headed 0 2499999).cycle + 1
    ∧ ((offered 5 false).book.offers[0]?).isSome = true ∧ (late (offered 5 false) 4 0).slotNo < 5 ∧ 5 ≤ (late (offered 5 false) 5 0).slotNo
    ∧ ((leg (.asked 0)).legOf 7).isSome = true ∧ (late (leg (.asked 0)) 63 0).slotNo < 0 + 64 ∧ 0 + 64 ≤ (late (leg (.asked 0)) 64 0).slotNo := by decide +kernel
theorem wit_TaskAdmission : ((headed.headOrder 0).findSome? (fun e => headed.tryHead 0 e.1 e.2)).isSome = true ∧ (base.headOrder 0).findSome? (fun e => base.tryHead 0 e.1 e.2) = none := by
  decide +kernel
def cont (new : Bool) (waits : List W64) : Cont := ⟨rootCtx, 0, 0, 9, false, new, none, waits, waits.isEmpty, 0, 0, 0, [], none, Clock.empty, [], 0⟩
def withDeque (v : Nat) (k : Cont) : State := { base.updCore v (fun c => { c with deque := [k] }) with launches := [(0, ⟨rootCtx, 0, [0x10000, 0, 0, 0, 0, 0, 0, 5], 1, true, [], []⟩)] }
def withWaiting (k : Cont) : State := (toks base [(31, 1)]).updCore 0 (fun c => { c with waiting := [k] })
def stopping (left : Nat) : State := base.updCtx rootCtx (fun c => { c with req := true, stopping := true, left := left })
/-- ThreadEvents: a continuation ready and not; an item taken and stolen, and nothing to take; a wait of 127 and of 128 cycles that can
and cannot park. -/
theorem wit_ThreadEvents : (base.core 0).waiting[0]? = none
    ∧ (let s := withWaiting (cont false [waitTok 0 31])
       (s.core 0).waiting[0]? = some (cont false [waitTok 0 31]) ∧ s.contReady (cont false [waitTok 0 31]) = true ∧ (∀ e ∈ waitToksOf (cont false [waitTok 0 31]), s.coreAway rootCtx e.1 = false) ∧ base.contReady (cont false [waitTok 0 31]) = false)
    ∧ base.takeIndex 0 = none ∧ base.stealIndex 0 = none
    ∧ (let s := withDeque 0 (cont true [])
       (s.core 0).deque[0]? = some (cont true []) ∧ s.takeIndex 0 = some 0 ∧ (s.openSlot 0 (cont true []) (List.range 4)).isSome = true
         ∧ ∀ x ∈ s.openSlot 0 (cont true []) (List.range 4), (SMap.find? x.1.launches 0).isSome = true)
    ∧ (let s := withDeque 1 (cont true [])
       s.stealIndex 0 = some (1, 0) ∧ (s.ctx rootCtx).pmsel = [])
    ∧ (∀ r ∈ [true, false], let s := (waiting (late (if r then spillArea base else base) 0 128) (.tok [5])).updMe (fun a => { a with waitAt := some 0 })
       let a := s.ag 0 0
       a.wait = .tok [5] ∧ a.wunit = some cur ∧ a.waitAt = some 0 ∧ a.run = .running ∧ s.runs a.ctx = true ∧ 0 + 128 ≤ s.cycle ∧ a.pend = [] ∧ a.locks = []
         ∧ s.tokReady 0 0 = false ∧ s.arriveWaitDue 0 0 = false ∧ (s.rs (s.raceOf 0 0)).epoch + 1 ≤ maxEpoch ∧ s.cepochFull (s.raceOf 0 0) = false
         ∧ (s.park 0 0 (cur.pc + 4) [waitTok 0 5]).2 = r ∧ (late s 0 127).cycle < 0 + 128)
    ∧ (let s := (waiting base (.arrive 8 0)).updMe (fun a => { a with waitAt := some 0 })
       (s.ag 0 0).wait = .arrive 8 0 ∧ (s.ag 0 0).waitAt = some 0) ∧ (base.ag 0 0).waitAt = none := by decide +kernel
/-- ThreadEvents: a record held; a watchdog; a forced save with nothing under way, with a command on its way, and not due; a stop that is
complete and one that is not; an image written out and one read back that are done or not. -/
theorem wit_ThreadEvents_stops : (base.ctx rootCtx).trap.pending = []
    ∧ (let s := (trapped base rootCtx).updTrap rootCtx (fun t => { t with pending := [rec0] })
       (s.ctx rootCtx).trap.pending = [rec0] ∧ s.recAsleep rec0 = false ∧ (s.placeRecord rootCtx (bits (rec0.words.getD 0 0) 63 48) rec0.fatal (s.entryOrder rootCtx rec0.fatal) rec0.words).2 = .done [8])
    ∧ (let s := (base.setCw rootCtx 5 100).updCtx rootCtx (fun c => { c with wdCnt := 100, wdFull := true })
       (s.ctx rootCtx).stt = 2 ∧ bits (s.cw rootCtx 5) 31 0 ≠ 0 ∧ (s.ctx rootCtx).wdSt = 0 ∧ (s.ctx rootCtx).wdFull = true ∧ bits (s.cw rootCtx 5) 31 0 ≤ (s.ctx rootCtx).wdCnt
         ∧ (s.ctx rootCtx).req = false ∧ ¬bits ((base.setCw rootCtx 5 101).cw rootCtx 5) 31 0 ≤ (s.ctx rootCtx).wdCnt)
    ∧ base.saveDue rootCtx = 0 ∧ (stopping 0).saveDue rootCtx = 1 ∧ (stopping 1).saveDue rootCtx = 0
    ∧ (let s := waiting (stopping 0) (.tok [5])
       let h := s.haltSel (s.subtree rootCtx) Sel.all
       s.saveDue rootCtx = 1 ∧ (∀ k ∈ s.agentsOn (s.subtree rootCtx) Sel.all, s.readyNow (k / 6) (s.ag (k / 6) (k % 6)) = false)
         ∧ h.landing (s.subtree rootCtx) Sel.all = none ∧ (∀ e ∈ h.cmdsOn (s.subtree rootCtx) Sel.all, h.atRest e.2.2 = true))
    ∧ (let s := (waiting (stopping 0) (.tok [5])).setEq 0 9 [cmd (.ld hr 0 0 0x100) true 0x40 false]
       let h := s.haltSel (s.subtree rootCtx) Sel.all
       h.landing (s.subtree rootCtx) Sel.all = none ∧ ∃ e ∈ h.cmdsOn (s.subtree rootCtx) Sel.all, h.atRest e.2.2 = false)
    ∧ base.stopDue rootCtx = false ∧ (let s := (stopping 9).setAg 0 0 Agent.blank
       s.stopDue rootCtx = true ∧ s.book.recs = [] ∧ (s.ctx rootCtx).stt = 2 ∧ (s.haltSel (s.subtree rootCtx) Sel.all).landing (s.subtree rootCtx) Sel.all = none)
    ∧ base.exportReady rootCtx = false ∧ base.logBusy rootCtx true = false
    ∧ (let s := (kid base 3 []).updCtx rootCtx (fun c => { c with dirty := ⟨0x70002, [2, 0, 0, 0, 0x100000, 512, 0, 0], 2, false⟩ })
       s.exportReady rootCtx = true ∧ (s.image 2).length / 64 ≤ 512 ∧ 0 < (s.image 2).length / 64 ∧ (s.access rootCtx .write false 0x100000 (s.image 2).length).2.isOk = true
         ∧ (s.ctx rootCtx).pmsel = [] ∧ s.loggers rootCtx = [] ∧ (s.access rootCtx .write false 0x100000 (s.image 2).length).1.adw = [])
    ∧ (let s := (kid base 3 []).updCtx rootCtx (fun c => { c with dirty := ⟨0x70002, [2, 0, 0, 0, 0x100000, 512, 0, 0], 2, true⟩ })
       s.logBusy rootCtx true = true ∧ (s.ctx 2).stt ≠ 1)
    ∧ (let s := (kid base 3 []).updCtx rootCtx (fun c => { c with dirty := ⟨0x70002, [2, 0, 0, 0, 0x100000, 512, 0, 0], 2, true⟩ })
       let s := s.wrBytes false 0x20100000 (s.image 2)
       let s := s.updCtx 2 (fun c => { c with stt := 1 })
       s.logBusy rootCtx true = true ∧ (s.ctx 2).stt = 1 ∧ s.book.tasks = [] ∧ (s.readImage rootCtx 2 0x100000 512).isSome = true) := by decide +kernel

/-- PowerAndErrors: each phase of the boot, a request with present and absent memory, an odd cycle of the throttle, an L2 line modified and not,
and a line filled, poisoned and of no context. -/
theorem wit_PowerAndErrors : base.dev.boot ≠ .waiting ∧ (down .waiting).dev.boot = .waiting ∧ (down .waiting).dev.featSet = true ∧ base.dev.boot ≠ .recovery
    ∧ ({ (down .recovery).dev with hk := [(31, 0)] } : Dev).request 31 = some (0, []) ∧ ({ (down .waiting).dev with hk := [(30, 1)] } : Dev).request 30 = some (1, [])
    ∧ base.dev.request 30 = none ∧ bits (SMap.get 0 base.dev.hsem 30) 1 0 = 0 ∧ (∀ a ∈ span 4096 576, present base.dev a = true) ∧ base.dev.linked = true
    ∧ (let s : State := { late base 0 1 with dev := { base.dev with throttle := true } }
       s.dev.throttle = true ∧ s.cycle % 2 = 1)
    ∧ (let g := placeOf base.dev 0x20000000
       (∃ e ∈ SMap.get [] [(g.1 * 2048 + g.2 / 64 % 2048, [(g.2 / 64, true)])] (g.1 * 2048 + g.2 / 64 % 2048), e.1 = g.2 / 64 ∧ e.2 = true)
         ∧ ¬∃ e ∈ SMap.get [] base.dev.l2 (g.1 * 2048 + g.2 / 64 % 2048), e.1 = g.2 / 64 ∧ e.2 = true)
    ∧ base.bookAt (0 : W32).toNat = none ∧ ((booked base (bkg 2)).bookAt (1 : W32).toNat).isSome = true ∧ (bkg 2).live = true ∧ (bkg 4).live = false
    ∧ (let s := booked base { bkg 2 with steps := [⟨stepW, 0, 0, [3], .none, 0, 0, false, false, false, false, []⟩] }
       (List.find? (fun (e : Nat × Booking) => e.2.live && e.2.steps.any (fun y => y.slots.contains 3 && y.sharesOn 0 0 != 0)) s.book.recs).isSome = true)
    ∧ (let x := base.translate rootCtx .fetch false 0x100
       x.2.isOk = true ∧ (SMap.find? base.ctxs rootCtx).isSome = true ∧ x.1.psn false 0x20000100 = false ∧ (x.1.setPsn false 0x20000100 true).psn false 0x20000100 = true)
    ∧ SMap.find? base.ctxs 9 = none := by decide +kernel
/-- SystemCompletes: a record to return from and to reflect; a core reset; each form of TLB.INV; each revocation's operands; each kind of job
when ready; the events' own premises are those of Bookings, ThreadEvents, Handlers and PowerAndErrors above. -/
theorem wit_SystemCompletes :
    (let s := holding (stuck (recorded (trapped (kid base 2 []) rootCtx))) false
     let x := s.heldSet (heldAt false)
     let w := ((val x []).headD (0, [])).2
     s.me.held = some (heldAt false) ∧ s.allDone = true ∧ x.2.isOk = true ∧ (x.1.chain (rCtx w)).contains s.myCtx = true
       ∧ (SMap.find? x.1.ctxs (rCtx w)).isSome = true ∧ (s.sA (un 0 0 0 0)).toNat < 2 ^ 8)
    ∧ (let s := regs (kid base 2 []) [2, 0, 0, 0x17F, 0x10000, 0x20000, 1]
       let tok : U → U := fun u => { u with e := 31 }
       s.lane0 (tok (un 1 2 3 0)) = true ∧ s.exhausted 1 0 = false ∧ s.toksOk [31] = true ∧ s.isChild (s.sA (un 1 2 3 0)) = true
         ∧ (let a := s.sA (un 4 0 31 0)
            bits a 63 9 = 0 ∧ a.getLsbD 7 = false ∧ bits a 6 0 ≠ s.cu.core ∧ (s.ctx s.myCtx).depth = 0)
         ∧ (let u := un 1 6 31 0
            bits (s.sA u) 63 18 = 0 ∧ bits (s.sA u) 17 16 = 0 ∧ (SMap.find? s.ctxs (bits (s.sA u) 15 0)).isSome = true ∧ u.b.toNat % 2 = 0
              ∧ (s.chain 2).contains s.myCtx = true ∧ s.rdS (u.b.toNat + 1) ≠ 0)
         ∧ bits (s.sA (un 5 0 31 0)) 17 16 = 1 ∧ bits (s.sA (un 6 1 31 0)) 17 16 = 2
         ∧ (s.sB (un 1 2 3 0)).toNat ≤ bits (s.cw 2 13) 31 27 ∧ s.sC (un 1 2 3 0) = 0 ∧ (s.win 2 0).base ≤ 0 ∧ 0 ≤ (s.win 2 0).lim
         ∧ s.jobs = [] ∧ s.coreAway s.myCtx s.cu.core = false ∧ (s.sB (un 1 2 3 0)).toNat ≤ bits (s.cw 2 14) 63 48 ∧ s.sB (un 1 7 3 0) = 1 ∧ (s.ctx 2).stt = 2)
    ∧ (∀ k ∈ [JobKind.revoke 3 1 0, .tlbRange 0 4096, .handle 0, .destroy],
        let s := withJob (kid base 3 []) (job k 1)
        s.jobReady (job k 1) = true ∧ (s.applyJob (job k 1)).jobs = [job k 1] ∧ (s.applyJob (job k 1)).coreAway rootCtx 0 = false) := by decide +kernel
/-- GovernedSkip. -/
theorem wit_GovernedSkip : base.lane0 { un 1 2 3 0 with p := 1 } = false := by decide +kernel
/-- The premises of StepRunsDecoded about the unit that thread slot 0 of C0 issues. -/
def passes (c : State) (pc : W64) (iw : IW) (i : Instr) : Bool :=
  let t1 : State := c.updMe (fun a => { a with brkArm := none, xsrc := none })
  let full := (t1.me.pend.filter (fun p => p.stage == 0)).length
  (c.breakAt c.me pc).isNone && iw.poison.isNone && (featureOff t1.dev.featacc iw).isNone && !(stageReads iw.u).any t1.me.locked
    && decide (t1.posVerdict iw.u.m.lp = .go) && t1.me.xfer.isNone && agentMay 0 iw.w64 iw.major.toNat iw.u.mi.toNat
    && (t1.unitRegs.1 ++ t1.unitRegs.2).all (fun r => r.wired || !t1.me.locked r) && decide (full < 9) && !memUnit iw
    && decide (iw.instr = some i) && !t1.me.issdiag.getLsbD 0 && t1.badRead.isNone
def fetchedOk (b : State) (a : Agent) (i : Instr) : Bool :=
  match b.fetch 0 0 a.pc with
  | (t, .ok (.whole x)) => passes { t with cu := ⟨0, 0, a.pc, x.len, x.iw, false, none, false⟩ } a.pc x.iw i
  | _ => false
/-- Whether an instruction at a state answers a next state in which the agent goes on, outside its loop or with no snapshot taken. -/
def goesOn (s t1 : State) (i : Instr) : Bool := match exec i t1 with | .next r => !endsLoop s 0 0 (.next r) && !faults 0 0 (.next r) | _ => false
/-- StepRunsDecoded: an ADD placed where the machine fetches next. -/
theorem wit_StepRunsDecoded : let s := State.reset.withFetchWord 32 4
    let s0 : State := { s with agenda := [] }
    let a := s.ag 0 0
    let b : State := { s0 with fresh := s.fresh + 1, cu := ⟨0, 0, a.pc, 0, IW.blank, false, none, false⟩, agents := SMap.put s.agents (agKey 0 0) a }
    s.slotDue = false ∧ s.agenda = [.agent 0 0] ∧ s0.canIssueAt 0 0 = true ∧ a.loading = false ∧ a.replay = [] ∧ a.loop = none
      ∧ a.xfer = none ∧ fetchedOk b a (.add (un 0 0 0 0)) = true ∧ goesOn s0 b (.add (un 0 0 0 0)) = true := by decide +kernel
/-- StepRunsDecoded: a NOP in a loop body. -/
theorem wit_StepRunsDecoded_loop : let iw := (parseUnit [0x2C]).1
    let s : State := { base.updMe (fun a => { a with loop := some ⟨[0, 0, 0, 0, 0, 0], 0, 3, false, [⟨0x10000, 1, iw⟩, ⟨0x10004, 1, iw⟩], 0, 0x10008⟩ }) with agenda := [.agent 0 0] }
    let s0 : State := { s with agenda := [] }
    let t : State := { s0 with fresh := s.fresh + 1, cu := ⟨0, 0, 0x10000, 1, iw, true, none, false⟩, agents := SMap.put s.agents (agKey 0 0) (s.ag 0 0) }
    s.slotDue = false ∧ s0.canIssueAt 0 0 = true ∧ (s.ag 0 0).loading = false ∧ (s.ag 0 0).replay = [] ∧ (s.ag 0 0).xfer = none
      ∧ passes t 0x10000 iw (.nop (un 0 0 0 0)) = true ∧ goesOn s0 t (.nop (un 0 0 0 0)) = true := by decide +kernel
/-- StepRunsDecoded: a trap with and without an older load of the same agent. -/
theorem wit_StepRunsDecoded_older : let s := pending [ldPend]
    let r : State := { s with agents := SMap.put s.agents (agKey 0 0) { s.ag 0 0 with run := .faulted 1 } }
    let p : State := pending [{ ldPend with pieces := [{ ldPend.pieces.headD ⟨false, 0, 0, 0, false, 0, 0⟩ with a := 0x20000140 }], rest := [] }]
    let e : State := { p with mem := { p.mem with psn := [(p.lineKey false 0x20000140, true)] } }
    (r.ag 0 0).run = .faulted 1 ∧ (s.ag 0 0).unfinished = [0] ∧ (match s.perform 0 0 0 with | .ok _ => true | .error _ => false) = true
      ∧ (e.ag 0 0).unfinished = [0] ∧ (match e.perform 0 0 0 with | .ok _ => false | .error _ => true) = true ∧ (base.ag 0 0).unfinished = [] := by decide +kernel
/-- DecodeEncode and CanonicalMemory. -/
theorem wit_DecodeEncode : (Instr.add (un 63 63 63 0)).wellFormed = true ∧ (keyOf (Instr.add (un 63 63 63 0))).isSome = true := by decide +kernel
theorem wit_CanonicalMemory : base.memWf ∧ (match step base with | .next _ => true | _ => false) = true := ⟨⟨by decide +kernel, by decide +kernel⟩, by decide +kernel⟩

/-! Decoding. Each row gives the bits of a unit, numbered as the opcode table numbers them, and the instruction they stand for.
The bits are laid out from 08 R218-R222 and R224-R226 (the 32-bit rows from the opcode table's own match words), with every
operand field at a value of its own; the instruction is written from the same tables. -/

/-- No modifier words. -/
abbrev no : Mods := ⟨none, none, false⟩
/-- An arithmetic modifier word with only a type (08 R222, R226). -/
abbrev ty (k : BitVec 4) : Mods := ⟨some ⟨false, 0, true, k⟩, none, false⟩
/-- Every row of a list decodes to its instruction. -/
abbrev AllDecode (l : List (Nat × Nat × Instr)) : Prop := ∀ e ∈ l, decodeTableWord e.1 e.2.1 = some e.2.2

theorem test_decode_0 : AllDecode [
    (32, 0x1C50E04, .add ⟨no, 2, 0, 3, 5, 7, 0, 0, 0⟩),
    (32, 0x11C50E04, .sub ⟨no, 2, 0, 3, 5, 7, 0, 1, 0⟩),
    (32, 0x21C50E04, .and ⟨no, 2, 0, 3, 5, 7, 0, 2, 0⟩),
    (32, 0x31C50E04, .or ⟨no, 2, 0, 3, 5, 7, 0, 3, 0⟩),
    (32, 0x41C50E04, .xor ⟨no, 2, 0, 3, 5, 7, 0, 4, 0⟩),
    (32, 0x51C50E04, .shl ⟨no, 2, 0, 3, 5, 7, 0, 5, 0⟩),
    (32, 0x61C50E04, .shr ⟨no, 2, 0, 3, 5, 7, 0, 6, 0⟩),
    (32, 0x71C50E04, .sar ⟨no, 2, 0, 3, 5, 7, 0, 7, 0⟩),
    (32, 0x81C50E04, .rol ⟨no, 2, 0, 3, 5, 7, 0, 8, 0⟩),
    (32, 0x91C50E04, .min ⟨no, 2, 0, 3, 5, 7, 0, 9, 0⟩),
    (32, 0xA1C50E04, .max ⟨no, 2, 0, 3, 5, 7, 0, 10, 0⟩),
    (32, 0x1C50E08, .mul ⟨no, 2, 0, 3, 5, 7, 0, 0, 0⟩),
    (32, 0x11C50E08, .mulh ⟨no, 2, 0, 3, 5, 7, 0, 1, 0⟩),
    (32, 0x21C50E08, .div ⟨no, 2, 0, 3, 5, 7, 0, 2, 0⟩),
    (32, 0x31C50E08, .rem ⟨no, 2, 0, 3, 5, 7, 0, 3, 0⟩),
    (32, 0x50E0C, .clz ⟨no, 2, 0, 3, 5, 0, 0, 0, 0⟩),
    (32, 0x10050E0C, .popc ⟨no, 2, 0, 3, 5, 0, 0, 1, 0⟩),
    (32, 0x20050E0C, .mov ⟨no, 2, 0, 3, 5, 0, 0, 2, 0⟩),
    (32, 0x51C50E10, .cmp ⟨no, 2, 0, 3, 5, 7, 0, 5, 0⟩),
    (32, 0xFF450E14, .addi ⟨no, 2, 0, 3, 5, 0, 0, 0, 0xfffffffd⟩)] := by decide +kernel

theorem test_decode_1 : AllDecode [
    (32, 0x61C50E18, .lea ⟨no, 2, 0, 3, 5, 7, 0, 6, 0⟩),
    (32, 0x1C50E1C, .pand ⟨no, 2, 0, 3, 5, 7, 0, 0, 0⟩),
    (32, 0x11C50E1C, .por ⟨no, 2, 0, 3, 5, 7, 0, 1, 0⟩),
    (32, 0x21C50E1C, .pxor ⟨no, 2, 0, 3, 5, 7, 0, 2, 0⟩),
    (32, 0x30050E1C, .pnot ⟨no, 2, 0, 3, 5, 0, 0, 3, 0⟩),
    (32, 0x40050E1C, .pmov ⟨no, 2, 0, 3, 5, 0, 0, 4, 0⟩),
    (32, 0x50050E1C, .pcnt ⟨no, 2, 0, 3, 5, 0, 0, 5, 0⟩),
    (32, 0x31C50E24, .voteAny ⟨no, 2, 0, 3, 5, 7, 0, 3, 0⟩),
    (32, 0x41C50E24, .voteAll ⟨no, 2, 0, 3, 5, 7, 0, 4, 0⟩),
    (32, 0xFFFFD620, .brPrep ⟨no, 2, 0, 5, 0, 0, 0, 0, 0xfffffffe⟩),
    (32, 0xC50E24, .brGo ⟨no, 2, 0, 3, 5, 3, 0, 0, 0⟩),
    (32, 0x10030E24, .call ⟨no, 2, 0, 3, 3, 0, 0, 1, 0⟩),
    (32, 0x20000A24, .ret ⟨no, 2, 0, 2, 0, 0, 0, 2, 0⟩),
    (32, 0xE28, .loopCfg ⟨no, 2, 0, 3, 0, 0, 0, 0, 0⟩),
    (32, 0x10000228, .loopGo ⟨no, 2, 0, 0, 0, 0, 0, 1, 0⟩),
    (32, 0x20000E28, .loopBrk ⟨no, 2, 0, 3, 0, 0, 0, 2, 0⟩),
    (32, 0x22C, .nop ⟨no, 2, 0, 0, 0, 0, 0, 0, 0⟩),
    (32, 0x19A5022C, .nopW ⟨no, 2, 0, 0, 0, 0, 0, 1, 0x9a5⟩),
    (32, 0x2000022C, .halt ⟨no, 2, 0, 0, 0, 0, 0, 2, 0⟩),
    (32, 0x39A5022C, .brk ⟨no, 2, 0, 0, 0, 0, 0, 3, 0x9a5⟩)] := by decide +kernel

theorem test_decode_2 : AllDecode [
    (32, 0x49A50E2C, .traceMark ⟨no, 2, 0, 3, 0, 0, 0, 4, 0x9a5⟩),
    (32, 0xFF450E40, .ldB ⟨no, 2, 0, 3, 5, 0, 0, 0, 0xfffffffd⟩),
    (32, 0xFF450E44, .ldH ⟨no, 2, 0, 3, 5, 0, 0, 0, 0xfffffffd⟩),
    (32, 0xFF450E48, .ldW ⟨no, 2, 0, 3, 5, 0, 0, 0, 0xfffffffd⟩),
    (32, 0xFF450E4C, .ldD ⟨no, 2, 0, 3, 5, 0, 0, 0, 0xfffffffd⟩),
    (32, 0xFF450E50, .ldBSp ⟨no, 2, 0, 3, 5, 0, 0, 0, 0xfffffffd⟩),
    (32, 0xFF450E54, .ldHSp ⟨no, 2, 0, 3, 5, 0, 0, 0, 0xfffffffd⟩),
    (32, 0xFF450E58, .ldWSp ⟨no, 2, 0, 3, 5, 0, 0, 0, 0xfffffffd⟩),
    (32, 0xFF450E5C, .ldDSp ⟨no, 2, 0, 3, 5, 0, 0, 0, 0xfffffffd⟩),
    (32, 0xFF450E60, .stB ⟨no, 2, 0, 3, 5, 0, 0, 0, 0xfffffffd⟩),
    (32, 0xFF450E64, .stH ⟨no, 2, 0, 3, 5, 0, 0, 0, 0xfffffffd⟩),
    (32, 0xFF450E68, .stW ⟨no, 2, 0, 3, 5, 0, 0, 0, 0xfffffffd⟩),
    (32, 0xFF450E6C, .stD ⟨no, 2, 0, 3, 5, 0, 0, 0, 0xfffffffd⟩),
    (32, 0xFF450E70, .stBSp ⟨no, 2, 0, 3, 5, 0, 0, 0, 0xfffffffd⟩),
    (32, 0xFF450E74, .stHSp ⟨no, 2, 0, 3, 5, 0, 0, 0, 0xfffffffd⟩),
    (32, 0xFF450E78, .stWSp ⟨no, 2, 0, 3, 5, 0, 0, 0, 0xfffffffd⟩),
    (32, 0xFF450E7C, .stDSp ⟨no, 2, 0, 3, 5, 0, 0, 0, 0xfffffffd⟩),
    (32, 0x1230, .fence ⟨no, 2, 0, 4, 0, 0, 0, 0, 0⟩),
    (32, 0x10000230, .fenceXp ⟨no, 2, 0, 0, 0, 0, 0, 1, 0⟩),
    (32, 0x21C50E30, .tokWait ⟨no, 2, 0, 3, 5, 7, 0, 2, 0⟩)] := by decide +kernel

theorem test_decode_3 : AllDecode [
    (32, 0x30050E30, .tokTest ⟨no, 2, 0, 3, 5, 0, 0, 3, 0⟩),
    (32, 0x40000E30, .tokAdd ⟨no, 2, 0, 3, 0, 0, 0, 4, 0⟩),
    (32, 0x50050E30, .arriveSet ⟨no, 2, 0, 3, 5, 0, 0, 5, 0⟩),
    (32, 0x60050E30, .arriveWait ⟨no, 2, 0, 3, 5, 0, 0, 6, 0⟩),
    (32, 0x50E34, .qPush ⟨no, 2, 0, 3, 5, 0, 0, 0, 0⟩),
    (32, 0x10050E34, .qPop ⟨no, 2, 0, 3, 5, 0, 0, 1, 0⟩),
    (32, 0x20050E34, .qPopp ⟨no, 2, 0, 3, 5, 0, 0, 2, 0⟩),
    (32, 0x30050E34, .qPeek ⟨no, 2, 0, 3, 5, 0, 0, 3, 0⟩),
    (32, 0x1C50E80, .vadd ⟨no, 2, 0, 3, 5, 7, 0, 0, 0⟩),
    (32, 0x11C50E80, .vsub ⟨no, 2, 0, 3, 5, 7, 0, 1, 0⟩),
    (32, 0x21C50E80, .vmul ⟨no, 2, 0, 3, 5, 7, 0, 2, 0⟩),
    (32, 0x31C50E80, .vmin ⟨no, 2, 0, 3, 5, 7, 0, 3, 0⟩),
    (32, 0x41C50E80, .vmax ⟨no, 2, 0, 3, 5, 7, 0, 4, 0⟩),
    (64, 0x51C50E8000000B02, .vand ⟨(ty 5), 2, 0, 3, 5, 7, 0, 5, 0⟩),
    (64, 0x61C50E8000000B02, .vor ⟨(ty 5), 2, 0, 3, 5, 7, 0, 6, 0⟩),
    (64, 0x71C50E8000000B02, .vxor ⟨(ty 5), 2, 0, 3, 5, 7, 0, 7, 0⟩),
    (64, 0x81C50E8000000B02, .vshl ⟨(ty 5), 2, 0, 3, 5, 7, 0, 8, 0⟩),
    (64, 0x91C50E8000000B02, .vshr ⟨(ty 5), 2, 0, 3, 5, 7, 0, 9, 0⟩),
    (32, 0xA0050E80, .vabs ⟨no, 2, 0, 3, 5, 0, 0, 10, 0⟩),
    (32, 0xB0050E80, .vneg ⟨no, 2, 0, 3, 5, 0, 0, 11, 0⟩)] := by decide +kernel

theorem test_decode_4 : AllDecode [
    (32, 0x1C50E84, .vfma ⟨no, 2, 0, 3, 5, 7, 0, 0, 0⟩),
    (32, 0x1C50E88, .vbcastR ⟨no, 2, 0, 3, 5, 7, 0, 0, 0⟩),
    (32, 0x11C50E88, .vbcastC ⟨no, 2, 0, 3, 5, 7, 0, 1, 0⟩),
    (32, 0x2A050E88, .vrotR ⟨no, 2, 0, 3, 5, 40, 0, 2, 0⟩),
    (32, 0x31C50E88, .vrotC ⟨no, 2, 0, 3, 5, 7, 0, 3, 0⟩),
    (32, 0x40850E88, .vredR ⟨no, 2, 0, 3, 5, 2, 0, 4, 0⟩),
    (32, 0x50850E88, .vredC ⟨no, 2, 0, 3, 5, 2, 0, 5, 0⟩),
    (32, 0x60850E88, .vscanR ⟨no, 2, 0, 3, 5, 2, 0, 6, 0⟩),
    (32, 0x70850E88, .vscanC ⟨no, 2, 0, 3, 5, 2, 0, 7, 0⟩),
    (32, 0x80850E88, .vreda ⟨no, 2, 0, 3, 5, 2, 0, 8, 0⟩),
    (32, 0x50E8C, .vexp ⟨no, 2, 0, 3, 5, 0, 0, 0, 0⟩),
    (32, 0x10050E8C, .vlog ⟨no, 2, 0, 3, 5, 0, 0, 1, 0⟩),
    (32, 0x20050E8C, .vrcp ⟨no, 2, 0, 3, 5, 0, 0, 2, 0⟩),
    (32, 0x30050E8C, .vrsq ⟨no, 2, 0, 3, 5, 0, 0, 3, 0⟩),
    (32, 0x40050E8C, .vtanh ⟨no, 2, 0, 3, 5, 0, 0, 4, 0⟩),
    (64, 0x50050E8C00000702, .vsliLvl ⟨(ty 3), 2, 0, 3, 5, 0, 0, 5, 0⟩),
    (32, 0x50E90, .vmovs ⟨no, 2, 0, 3, 5, 0, 0, 0, 0⟩),
    (32, 0x10000E90, .vspill ⟨no, 2, 0, 3, 0, 0, 0, 1, 0⟩),
    (32, 0x20000E90, .vfill ⟨no, 2, 0, 3, 0, 0, 0, 2, 0⟩),
    (32, 0x238, .hbeat ⟨no, 2, 0, 0, 0, 0, 0, 0, 0⟩)] := by decide +kernel

theorem test_decode_5 : AllDecode [
    (32, 0x10000E38, .workid ⟨no, 2, 0, 3, 0, 0, 0, 1, 0⟩),
    (32, 0x20000238, .yieldOp ⟨no, 2, 0, 0, 0, 0, 0, 2, 0⟩),
    (32, 0x30000238, .taskExit ⟨no, 2, 0, 0, 0, 0, 0, 3, 0⟩),
    (32, 0x41C50E38, .taskSuspend ⟨no, 2, 0, 3, 5, 7, 0, 4, 0⟩),
    (32, 0x51C50E38, .taskLaunch ⟨no, 2, 0, 3, 5, 7, 0, 5, 0⟩),
    (32, 0x61C00E38, .taskLaunchw ⟨no, 2, 0, 3, 0, 7, 0, 6, 0⟩),
    (32, 0x50E3C, .calBook ⟨no, 2, 0, 3, 5, 0, 0, 0, 0⟩),
    (32, 0x10000E3C, .calCancel ⟨no, 2, 0, 3, 0, 0, 0, 1, 0⟩),
    (32, 0x21C00E3C, .calQueryStatus ⟨no, 2, 0, 3, 0, 7, 0, 2, 0⟩),
    (32, 0x21C50E3C, .calQuerySlot ⟨no, 2, 0, 3, 5, 7, 0, 2, 0⟩),
    (32, 0xEC0, .trapRet ⟨no, 2, 0, 3, 0, 0, 0, 0, 0⟩),
    (32, 0x100002C0, .trapAck ⟨no, 2, 0, 0, 0, 0, 0, 1, 0⟩),
    (32, 0x200002C0, .trapReflect ⟨no, 2, 0, 0, 0, 0, 0, 2, 0⟩),
    (32, 0x30000EC0, .syscall ⟨no, 2, 0, 3, 0, 0, 0, 3, 0⟩),
    (32, 0x41C00EC0, .coreReset ⟨no, 2, 0, 3, 0, 7, 0, 4, 0⟩),
    (32, 0x51C60EC0, .tlbInvRange ⟨no, 2, 0, 3, 6, 7, 0, 5, 0⟩),
    (32, 0x51C00EC0, .tlbInvSpace ⟨no, 2, 0, 3, 0, 7, 0, 5, 0⟩),
    (32, 0x51C50EC0, .tlbInvHandle ⟨no, 2, 0, 3, 5, 7, 0, 5, 0⟩),
    (64, 0xFEDCBA982C00F405, .movi ⟨no, 13, 11, 3, 0, 0, 0, 0, 0xfedcba98⟩),
    (64, 0xFEDCBA982C50F409, .lui ⟨no, 13, 11, 3, 5, 0, 0, 0, 0xfedcba98⟩)] := by decide +kernel

theorem test_decode_6 : AllDecode [
    (64, 0xFEDCBA982C50F40D, .addiX ⟨no, 13, 11, 3, 5, 0, 0, 0, 0xfedcba98⟩),
    (64, 0xFEDCBA980050F481, .brPrepX ⟨no, 13, 0, 3, 5, 0, 0, 0, 0xfedcba98⟩),
    (64, 0xFEDCBA980050F485, .callX ⟨no, 13, 0, 3, 5, 0, 0, 0, 0xfedcba98⟩),
    (64, 0xFEDCBA982C00F489, .traceMarkX ⟨no, 13, 11, 3, 0, 0, 0, 0, 0xfedcba98⟩),
    (64, 0x11C902C00050F411, .ext ⟨no, 13, 11, 3, 5, 0, 0, 0, 0x11c9⟩),
    (64, 0x1C912C00050F411, .ins ⟨no, 13, 11, 3, 5, 0, 0, 1, 0x1c9⟩),
    (64, 0x2C91C50F415, .sel ⟨no, 13, 11, 3, 5, 7, 9, 0, 0⟩),
    (64, 0x40002C00000F419, .pseti ⟨no, 13, 11, 3, 0, 0, 0, 0, 0x400⟩),
    (64, 0xFFF062C01C50F41D, .leaX ⟨no, 13, 11, 3, 5, 7, 0, 6, 0xfff0⟩),
    (64, 0x800102C01C50F441, .ldx ⟨no, 13, 11, 3, 5, 7, 0, 0, 0x8001⟩),
    (64, 0x800112C40C50F441, .ldAcq ⟨no, 13, 11, 3, 5, 3, 4, 1, 0x8001⟩),
    (64, 0x800122C40C50F441, .ldRlx ⟨no, 13, 11, 3, 5, 3, 4, 2, 0x8001⟩),
    (64, 0x800102C01C50F445, .stx ⟨no, 13, 11, 3, 5, 7, 0, 0, 0x8001⟩),
    (64, 0x800112C40C50F445, .stRel ⟨no, 13, 11, 3, 5, 3, 4, 1, 0x8001⟩),
    (64, 0x800122C40C50F445, .stRlx ⟨no, 13, 11, 3, 5, 3, 4, 2, 0x8001⟩),
    (64, 0x9C0002C01C50F449, .amoAdd ⟨no, 13, 11, 3, 5, 7, 0, 0, 0x9c00⟩),
    (64, 0x9D0012C01C50F449, .amoMin ⟨no, 13, 11, 3, 5, 7, 0, 1, 0x9d00⟩),
    (64, 0x9D0022C01C50F449, .amoMax ⟨no, 13, 11, 3, 5, 7, 0, 2, 0x9d00⟩),
    (64, 0x9C0032C01C50F449, .amoAnd ⟨no, 13, 11, 3, 5, 7, 0, 3, 0x9c00⟩),
    (64, 0x9C0042C01C50F449, .amoOr ⟨no, 13, 11, 3, 5, 7, 0, 4, 0x9c00⟩)] := by decide +kernel

theorem test_decode_7 : AllDecode [
    (64, 0x9C0052C01C50F449, .amoXor ⟨no, 13, 11, 3, 5, 7, 0, 5, 0x9c00⟩),
    (64, 0x9C0062C01C50F449, .amoSwap ⟨no, 13, 11, 3, 5, 7, 0, 6, 0x9c00⟩),
    (64, 0x9C0072C91C50F449, .amoCas ⟨no, 13, 11, 3, 5, 7, 9, 7, 0x9c00⟩),
    (64, 0x980082C01C50F449, .amoAddl ⟨no, 13, 11, 3, 5, 7, 0, 8, 0x9800⟩),
    (64, 0xFFC002C00000F44D, .pref ⟨no, 13, 11, 3, 0, 0, 0, 0, 0xffc0⟩),
    (64, 0x632C91C50F501, .vaddX ⟨no, 13, 11, 3, 5, 7, 9, 3, 0x6⟩),
    (64, 0x632C91C50F505, .vsubX ⟨no, 13, 11, 3, 5, 7, 9, 3, 0x6⟩),
    (64, 0x632C91C50F509, .vmulX ⟨no, 13, 11, 3, 5, 7, 9, 3, 0x6⟩),
    (64, 0x12C91C50F50D, .vfmaX ⟨no, 13, 11, 3, 5, 7, 9, 1, 0⟩),
    (64, 0xBEEF22C0FC50F511, .vminX ⟨no, 13, 11, 3, 5, 63, 0, 2, 0xbeef⟩),
    (64, 0xBEEF22C0FC50F515, .vmaxX ⟨no, 13, 11, 3, 5, 63, 0, 2, 0xbeef⟩),
    (64, 0x42C00050F519, .vabsX ⟨no, 13, 11, 3, 5, 0, 0, 4, 0⟩),
    (64, 0x42C00050F51D, .vnegX ⟨no, 13, 11, 3, 5, 0, 0, 4, 0⟩),
    (64, 0x52C01C50F521, .vandX ⟨no, 13, 11, 3, 5, 7, 0, 5, 0⟩),
    (64, 0x62C01C50F525, .vorX ⟨no, 13, 11, 3, 5, 7, 0, 6, 0⟩),
    (64, 0x72C01C50F529, .vxorX ⟨no, 13, 11, 3, 5, 7, 0, 7, 0⟩),
    (64, 0x52C01C50F52D, .vshlX ⟨no, 13, 11, 3, 5, 7, 0, 5, 0⟩),
    (64, 0x62C01C50F531, .vshrX ⟨no, 13, 11, 3, 5, 7, 0, 6, 0⟩),
    (64, 0x2C61C50F535, .vcmp ⟨no, 13, 11, 3, 5, 7, 6, 0, 0⟩),
    (64, 0x2C91C50F539, .vsel ⟨no, 13, 11, 3, 5, 7, 9, 0, 0⟩)] := by decide +kernel

theorem test_decode_8 : AllDecode [
    (64, 0xBEEF02C0FC00F53D, .vimm ⟨no, 13, 11, 3, 0, 63, 0, 0, 0xbeef⟩),
    (64, 0x2C00050F541, .vmovsX ⟨no, 13, 11, 3, 5, 0, 0, 0, 0⟩),
    (64, 0x43FF02C00050F541, .vmovsIns ⟨no, 13, 11, 3, 5, 0, 0, 0, 0x43ff⟩),
    (64, 0x83FF02C00050F541, .vmovsExt ⟨no, 13, 11, 3, 5, 0, 0, 0, 0x83ff⟩),
    (64, 0x12C00050F545, .vcvt ⟨no, 13, 11, 3, 5, 0, 0, 1, 0⟩),
    (64, 0x340032C00050F545, .vcvtSli32F64 ⟨no, 13, 11, 3, 5, 0, 0, 3, 0x3400⟩),
    (64, 0x380032C00050F545, .vcvtF64Sli32 ⟨no, 13, 11, 3, 5, 0, 0, 3, 0x3800⟩),
    (64, 0xC0080090050F545, .vcvtBxQuantise ⟨no, 13, 0, 3, 5, 0, 9, 8, 0xc00⟩),
    (64, 0x9C0000000050F545, .vcvtBxDequantise ⟨no, 13, 0, 3, 5, 0, 0, 0, 0x9c00⟩),
    (64, 0x2C00050F549, .vexpX ⟨no, 13, 11, 3, 5, 0, 0, 0, 0⟩),
    (64, 0x12C00050F54D, .vlogX ⟨no, 13, 11, 3, 5, 0, 0, 1, 0⟩),
    (64, 0x22C00050F551, .vrcpX ⟨no, 13, 11, 3, 5, 0, 0, 2, 0⟩),
    (64, 0x2C00050F555, .vrsqX ⟨no, 13, 11, 3, 5, 0, 0, 0, 0⟩),
    (64, 0x12C00050F559, .vtanhX ⟨no, 13, 11, 3, 5, 0, 0, 1, 0⟩),
    (64, 0x42C00050F55D, .vsliLvlX ⟨no, 13, 11, 3, 5, 0, 0, 4, 0⟩),
    (64, 0x3F02C00050F561, .vbcastRX ⟨no, 13, 11, 3, 5, 0, 0, 0, 0x3f⟩),
    (64, 0xF02C00050F565, .vbcastCX ⟨no, 13, 11, 3, 5, 0, 0, 0, 0xf⟩),
    (64, 0x3F02C00050F569, .vrotRX ⟨no, 13, 11, 3, 5, 0, 0, 0, 0x3f⟩),
    (64, 0xF02C00050F56D, .vrotCX ⟨no, 13, 11, 3, 5, 0, 0, 0, 0xf⟩),
    (64, 0x272C00050F571, .vredRX ⟨no, 13, 11, 3, 5, 0, 0, 7, 0x2⟩)] := by decide +kernel

theorem test_decode_9 : AllDecode [
    (64, 0x272C00050F575, .vredCX ⟨no, 13, 11, 3, 5, 0, 0, 7, 0x2⟩),
    (64, 0x272C00050F579, .vredaX ⟨no, 13, 11, 3, 5, 0, 0, 7, 0x2⟩),
    (64, 0x272C00050F57D, .vscanRX ⟨no, 13, 11, 3, 5, 0, 0, 7, 0x2⟩),
    (64, 0x272C00050F581, .vscanCX ⟨no, 13, 11, 3, 5, 0, 0, 7, 0x2⟩),
    (64, 0x4002C90450F585, .vld ⟨no, 13, 11, 3, 5, 1, 9, 0, 0x40⟩),
    (64, 0x4002C90450F589, .vst ⟨no, 13, 11, 3, 5, 1, 9, 0, 0x40⟩),
    (64, 0xF58D, .vspillX ⟨no, 13, 0, 3, 0, 0, 0, 0, 0⟩),
    (64, 0xF591, .vfillX ⟨no, 13, 0, 3, 0, 0, 0, 0, 0⟩),
    (64, 0x7FFF00000C50F595, .vchain ⟨no, 13, 0, 3, 5, 3, 0, 0, 0x7fff⟩),
    (64, 0x12C00000F601, .fmtPush ⟨no, 13, 11, 3, 0, 0, 0, 1, 0⟩),
    (64, 0x12C90050F605, .mxMma ⟨no, 13, 11, 3, 5, 0, 9, 1, 0⟩),
    (64, 0x12C90050F609, .mxMmas ⟨no, 13, 11, 3, 5, 0, 9, 1, 0⟩),
    (64, 0x12C90000360D, .mxZero ⟨no, 13, 11, 0, 0, 0, 9, 1, 0⟩),
    (64, 0x302C900513611, .cpAcc ⟨no, 13, 11, 4, 5, 0, 9, 0, 0x3⟩),
    (64, 0x302C91C513615, .cpLd ⟨no, 13, 11, 4, 5, 7, 9, 0, 0x3⟩),
    (64, 0x302C91C513619, .cpSt ⟨no, 13, 11, 4, 5, 7, 9, 0, 0x3⟩),
    (64, 0x302C91C51361D, .cpX ⟨no, 13, 11, 4, 5, 7, 9, 0, 0x3⟩),
    (64, 0xC00302C91C613621, .cpG ⟨no, 13, 11, 4, 6, 7, 9, 0, 0xc003⟩),
    (64, 0xC00302C91C613625, .cpS ⟨no, 13, 11, 4, 6, 7, 9, 0, 0xc003⟩),
    (64, 0x302C91C613629, .cp2d ⟨no, 13, 11, 4, 6, 7, 9, 0, 0x3⟩)] := by decide +kernel

theorem test_decode_10 : AllDecode [
    (64, 0x2C90050F62D, .cpSend ⟨no, 13, 11, 3, 5, 0, 9, 0, 0⟩),
    (64, 0xB02C00000F641, .csrRd ⟨no, 13, 11, 3, 0, 0, 0, 0, 0xb⟩),
    (64, 0x1812C000503641, .csrWr ⟨no, 13, 11, 0, 5, 0, 0, 1, 0x18⟩),
    (64, 0x3122C00050F641, .csrSwap ⟨no, 13, 11, 3, 5, 0, 0, 2, 0x31⟩),
    (64, 0x1A12C000503641, .chkregWrite ⟨no, 13, 11, 0, 5, 0, 0, 1, 0x1a⟩),
    (64, 0x1C12C000503641, .accfreeWrite ⟨no, 13, 11, 0, 5, 0, 0, 1, 0x1c⟩),
    (64, 0x5F12C000503641, .isetWrite ⟨no, 13, 11, 0, 5, 0, 0, 1, 0x5f⟩),
    (64, 0x1E12C000503641, .blogWrite ⟨no, 13, 11, 0, 5, 0, 0, 1, 0x1e⟩),
    (64, 0x2012C000503641, .bcmbaseWrite ⟨no, 13, 11, 0, 5, 0, 0, 1, 0x20⟩),
    (64, 0x1D12C000503641, .chkresetGo ⟨no, 13, 11, 0, 5, 0, 0, 1, 0x1d⟩),
    (64, 0x12F12C000503641, .pmcHiWrite ⟨no, 13, 11, 0, 5, 0, 0, 1, 0x12f⟩),
    (64, 0x1F12C000503641, .csrWr ⟨no, 13, 11, 0, 5, 0, 0, 1, 0x1f⟩),
    (64, 0x7F12C000503641, .csrWr ⟨no, 13, 11, 0, 5, 0, 0, 1, 0x7f⟩),
    (64, 0x12E02C00000F641, .pmcLoRead ⟨no, 13, 11, 3, 0, 0, 0, 0, 0x12e⟩),
    (64, 0x2C00050F681, .ctxCreate ⟨no, 13, 11, 3, 5, 0, 0, 0, 0⟩),
    (64, 0x12C01C50F681, .ctxGrantSet ⟨no, 13, 11, 3, 5, 7, 0, 1, 0⟩),
    (64, 0x112C01C50F681, .ctxGrantCores ⟨no, 13, 11, 3, 5, 7, 0, 1, 0x1⟩),
    (64, 0x212C01C50F681, .ctxGrantMxh ⟨no, 13, 11, 3, 5, 7, 0, 1, 0x2⟩),
    (64, 0x312C01C50F681, .ctxGrantCg ⟨no, 13, 11, 3, 5, 7, 0, 1, 0x3⟩),
    (64, 0x412C01C50F681, .ctxGrantFx ⟨no, 13, 11, 3, 5, 7, 0, 1, 0x4⟩)] := by decide +kernel

theorem test_decode_11 : AllDecode [
    (64, 0x512C01C50F681, .ctxGrantQuota ⟨no, 13, 11, 3, 5, 7, 0, 1, 0x5⟩),
    (64, 0x612C01C50F681, .ctxGrantMem ⟨no, 13, 11, 3, 5, 7, 0, 1, 0x6⟩),
    (64, 0x712C01C50F681, .ctxGrantSpad ⟨no, 13, 11, 3, 5, 7, 0, 1, 0x7⟩),
    (64, 0x812C01C50F681, .ctxGrantCal ⟨no, 13, 11, 3, 5, 7, 0, 1, 0x8⟩),
    (64, 0x912C01C50F681, .ctxGrantHt ⟨no, 13, 11, 3, 5, 7, 0, 1, 0x9⟩),
    (64, 0xA12C01C50F681, .ctxGrantRun ⟨no, 13, 11, 3, 5, 7, 0, 1, 0xa⟩),
    (64, 0x122C91C50F681, .ctxRevokeCores ⟨no, 13, 11, 3, 5, 7, 9, 2, 0x1⟩),
    (64, 0x222C91C50F681, .ctxRevokeMxh ⟨no, 13, 11, 3, 5, 7, 9, 2, 0x2⟩),
    (64, 0x322C91C50F681, .ctxRevokeCg ⟨no, 13, 11, 3, 5, 7, 9, 2, 0x3⟩),
    (64, 0x422C91C50F681, .ctxRevokeFx ⟨no, 13, 11, 3, 5, 7, 9, 2, 0x4⟩),
    (64, 0x522C91C50F681, .ctxRevokeQuota ⟨no, 13, 11, 3, 5, 7, 9, 2, 0x5⟩),
    (64, 0x622C91C50F681, .ctxRevokeMem ⟨no, 13, 11, 3, 5, 7, 9, 2, 0x6⟩),
    (64, 0x722C91C50F681, .ctxRevokeSpad ⟨no, 13, 11, 3, 5, 7, 9, 2, 0x7⟩),
    (64, 0x822C91C50F681, .ctxRevokeCal ⟨no, 13, 11, 3, 5, 7, 9, 2, 0x8⟩),
    (64, 0x922C91C50F681, .ctxRevokeHt ⟨no, 13, 11, 3, 5, 7, 9, 2, 0x9⟩),
    (64, 0xA22C91C50F681, .ctxRevokeRun ⟨no, 13, 11, 3, 5, 7, 9, 2, 0xa⟩),
    (64, 0x32C90000F681, .ctxDestroy ⟨no, 13, 11, 3, 0, 0, 9, 3, 0⟩),
    (64, 0xF42C00050F681, .ctxQuery ⟨no, 13, 11, 3, 5, 0, 0, 4, 0xf⟩),
    (96, 0x1C50E800000015600000FC2, .vadd ⟨⟨some ⟨true, 4, true, 7⟩, some (.first 5), false⟩, 2, 0, 3, 5, 7, 0, 0, 0⟩),
    (96, 0x1C50C8400002C9A00000C36, .vfma ⟨⟨none, some (.stage 6), true⟩, 0, 11, 3, 5, 7, 9, 0, 0⟩)] := by decide +kernel

theorem test_decode_12 : AllDecode [
    (64, 0x1C50C0400000082, .add ⟨⟨some ⟨true, 0, false, 0⟩, none, false⟩, 0, 0, 3, 5, 7, 0, 0, 0⟩),
    (96, 0x800000000050C00D000000E6, .addiX ⟨⟨none, some (.last 3), false⟩, 0, 0, 3, 5, 0, 0, 0, 0x80000000⟩)] := by decide +kernel

/-! Ill-formed instructions: for each check of WellFormed.lean, a term that it refuses beside one that it admits. -/

/-- Not well formed. -/
abbrev Ill (l : List Instr) : Prop := ∀ i ∈ l, i.wellFormed = false
/-- Well formed. -/
abbrev Well (l : List Instr) : Prop := ∀ i ∈ l, i.wellFormed = true

/-- A field that form R does not hold: an immediate, a gap above 3, P or E without a register extension (08 R219, R221). -/
theorem test_ill_form_r : Ill [.add ⟨no, 0, 0, 3, 5, 7, 0, 0, 1⟩, .add ⟨no, 4, 0, 3, 5, 7, 0, 0, 0⟩, .vadd ⟨no, 0, 1, 3, 5, 7, 0, 0, 0⟩,
    .vfma ⟨no, 0, 0, 3, 5, 7, 1, 0, 0⟩] := by decide +kernel
/-- Form I: an immediate outside ten bits, a third operand, a minor, a gap above 3 (08 R219). -/
theorem test_ill_form_i : Ill [.addi ⟨no, 0, 0, 3, 5, 0, 0, 0, 512⟩, .addi ⟨no, 0, 0, 3, 5, 1, 0, 0, 1⟩, .ldD ⟨no, 0, 0, 3, 5, 0, 0, 1, 0⟩,
    .ldD ⟨no, 4, 0, 3, 5, 0, 0, 0, 0⟩, .stD ⟨no, 0, 0, 3, 5, 0, 1, 0, 0⟩, .stD ⟨no, 0, 1, 3, 5, 0, 0, 0, 0⟩] := by decide +kernel
/-- Form B: a target register above b7, an offset outside nineteen bits, a second operand (08 R219). -/
theorem test_ill_form_b : Ill [.brPrep ⟨no, 0, 0, 8, 0, 0, 0, 0, 0⟩, .brPrep ⟨no, 0, 0, 1, 0, 0, 0, 0, 0x40000⟩, .brPrep ⟨no, 0, 0, 1, 1, 0, 0, 0, 0⟩,
    .brPrep ⟨no, 4, 0, 1, 0, 0, 0, 0, 0⟩] := by decide +kernel
/-- Form S: an immediate above twelve bits, a second operand, a gap above 3 (08 R219). -/
theorem test_ill_form_s : Ill [.brk ⟨no, 0, 0, 0, 0, 0, 0, 3, 4096⟩, .brk ⟨no, 0, 0, 0, 1, 0, 0, 3, 0⟩, .brk ⟨no, 4, 0, 0, 0, 0, 0, 3, 0⟩] := by decide +kernel
/-- Form X: an immediate above sixteen bits (08 R220). -/
theorem test_ill_form_x : Ill [.leaX ⟨no, 0, 0, 3, 5, 7, 0, 0, 0x10000⟩] := by decide +kernel
/-- Form Y: a third operand, an E, a minor (08 R220). -/
theorem test_ill_form_y : Ill [.movi ⟨no, 0, 0, 3, 0, 1, 0, 0, 0⟩, .movi ⟨no, 0, 0, 3, 0, 0, 1, 0, 0⟩, .movi ⟨no, 0, 0, 3, 0, 0, 0, 1, 0⟩] := by decide +kernel
/-- An unassigned minor, and a minor that is not the instruction's own (08 R224, R225). -/
theorem test_ill_minor : Ill [.cmp ⟨no, 0, 0, 3, 5, 7, 0, 6, 0⟩, .leaX ⟨no, 0, 0, 3, 5, 7, 0, 7, 0⟩, .fmtPush ⟨no, 0, 0, 3, 0, 0, 0, 2, 0⟩,
    .sub ⟨no, 0, 0, 3, 5, 7, 0, 0, 0⟩] := by decide +kernel
/-- Operand fields: an unused field, a vector register above v15, a branch-target register above b7, a token above t31, an odd
pair, pair 0, a bound of its own, VIMM's C (08 R221, 10 R287, 12 R328). -/
theorem test_ill_field : Ill [.clz ⟨no, 0, 0, 3, 5, 1, 0, 0, 0⟩, .vadd ⟨no, 0, 0, 16, 5, 7, 0, 0, 0⟩, .vadd ⟨no, 0, 0, 3, 5, 16, 0, 0, 0⟩,
    .vaddX ⟨no, 0, 0, 3, 5, 62, 0, 0, 0⟩, .brPrepX ⟨no, 0, 0, 8, 5, 0, 0, 0, 0⟩, .tokAdd ⟨no, 0, 0, 32, 0, 0, 0, 4, 0⟩,
    .tokWait ⟨no, 0, 0, 0, 62, 63, 0, 2, 0⟩, .cpLd ⟨no, 0, 0, 5, 5, 7, 9, 0, 0⟩, .cpLd ⟨no, 0, 0, 0, 5, 7, 9, 0, 0⟩,
    .fence ⟨no, 0, 0, 5, 0, 0, 0, 0, 0⟩, .vimm ⟨no, 0, 0, 3, 0, 62, 0, 0, 0⟩, .qPush ⟨no, 0, 0, 8, 3, 0, 0, 0, 0⟩] := by decide +kernel
/-- The flag predicate of an SLI form stands in no other type, and an SLI form's broadcast immediate is a level (10 R285). -/
theorem test_ill_flag : Ill [.vaddX ⟨no, 0, 0, 3, 5, 7, 9, 0, 0⟩, .vaddX ⟨no, 0, 0, 3, 5, 7, 9, 3, 16⟩] ∧ Well [.vaddX ⟨no, 0, 0, 3, 5, 7, 9, 3, 15⟩] := by
  decide +kernel
/-- Element types that an instruction does not accept (08 R226, 10 R282). -/
theorem test_ill_type : Ill [.vand ⟨no, 0, 0, 3, 5, 7, 0, 5, 0⟩, .vexpX ⟨no, 0, 0, 3, 5, 0, 0, 5, 0⟩, .vaddX ⟨no, 0, 0, 3, 5, 7, 0, 8, 0⟩,
    .vchain ⟨no, 0, 0, 3, 5, 0, 0, 6, 0⟩, .vsliLvl ⟨no, 0, 0, 3, 5, 0, 0, 5, 0⟩] := by decide +kernel
/-- Rounding and saturation that the destination format refuses (05 R124, R125, 10 R281). -/
theorem test_ill_round : Ill [.vaddX ⟨⟨some ⟨true, 0, false, 0⟩, none, false⟩, 0, 0, 3, 5, 7, 0, 3, 0⟩,
    .vaddX ⟨⟨some ⟨false, 1, false, 0⟩, none, false⟩, 0, 0, 3, 5, 7, 0, 4, 0⟩, .vminX ⟨⟨some ⟨true, 0, false, 0⟩, none, false⟩, 0, 0, 3, 5, 7, 0, 5, 0⟩,
    .and ⟨⟨some ⟨true, 0, false, 0⟩, none, false⟩, 0, 0, 3, 5, 7, 0, 2, 0⟩] := by decide +kernel
/-- Immediates and leftover fields that the instruction's own rule bounds. -/
theorem test_ill_imm : Ill [.nop ⟨no, 0, 0, 0, 0, 0, 0, 0, 1⟩, .tokWait ⟨no, 0, 0, 0, 63, 1, 0, 2, 0⟩, .ext ⟨no, 0, 0, 3, 5, 0, 0, 0, (33 <<< 6) ||| 31⟩,
    .sel ⟨no, 0, 0, 3, 5, 7, 9, 0, 1⟩, .pseti ⟨no, 0, 0, 3, 0, 0, 0, 0, 1025⟩, .ldx ⟨no, 0, 0, 3, 5, 7, 1, 0, 0⟩, .amoAdd ⟨no, 0, 0, 3, 5, 7, 0, 0, 5 <<< 13⟩,
    .amoAdd ⟨no, 0, 0, 3, 5, 7, 0, 0, 0x100⟩, .vcmp ⟨no, 0, 0, 3, 5, 7, 6, 5, 0⟩, .vchain ⟨no, 0, 0, 3, 5, 1, 0, 0, 32⟩,
    .cpLd ⟨no, 0, 0, 4, 5, 7, 9, 0, 4⟩, .cpG ⟨no, 0, 0, 4, 6, 7, 9, 0, 13 <<< 12⟩, .csrRd ⟨no, 0, 0, 3, 0, 0, 0, 0, 0x021⟩,
    .ctxQuery ⟨no, 0, 0, 3, 5, 0, 0, 4, 16⟩, .vcvt ⟨no, 0, 0, 3, 5, 0, 0, 0, 0⟩, .vmovsX ⟨no, 0, 0, 3, 5, 0, 0, 0, 1⟩] := by decide +kernel
/-- Modifier words: rounding code 5, a type without TOV, TOV off the 32-bit vector majors, LEVEL 6, a kind that the major does
not accept, more than two (08 R222, R223). -/
theorem test_ill_mods : Ill [.add ⟨⟨some ⟨false, 5, false, 0⟩, none, false⟩, 0, 0, 3, 5, 7, 0, 0, 0⟩, .vadd ⟨⟨some ⟨false, 0, false, 5⟩, none, false⟩, 0, 0, 3, 5, 7, 0, 0, 0⟩,
    .add ⟨ty 5, 0, 0, 3, 5, 7, 0, 0, 0⟩, .add ⟨⟨none, some (.first 6), false⟩, 0, 0, 3, 5, 7, 0, 0, 0⟩, .add ⟨⟨none, none, true⟩, 0, 0, 3, 5, 7, 0, 0, 0⟩,
    .brGo ⟨⟨none, some (.first 0), false⟩, 0, 0, 3, 5, 0, 0, 0, 0⟩, .vadd ⟨⟨some ⟨false, 0, false, 0⟩, some (.first 0), true⟩, 0, 0, 3, 5, 7, 0, 0, 0⟩] := by
  decide +kernel
/-- Rows that share their major and minor: the operand that singles one out stands for no other (13 R350, R365, R368, 10 R288, R296). -/
theorem test_ill_row : Ill [.calQueryStatus ⟨no, 0, 0, 3, 5, 7, 0, 2, 0⟩, .calQuerySlot ⟨no, 0, 0, 3, 0, 7, 0, 2, 0⟩, .tlbInvSpace ⟨no, 0, 0, 3, 6, 7, 0, 5, 0⟩,
    .tlbInvRange ⟨no, 0, 0, 3, 5, 7, 0, 5, 0⟩, .tlbInvHandle ⟨no, 0, 0, 3, 6, 7, 0, 5, 0⟩, .csrRd ⟨no, 0, 0, 3, 0, 0, 0, 0, 0x110⟩,
    .pmcLoRead ⟨no, 0, 0, 3, 0, 0, 0, 0, 0x111⟩, .pmcHiWrite ⟨no, 0, 0, 0, 5, 0, 0, 1, 0x110⟩, .csrWr ⟨no, 0, 0, 0, 5, 0, 0, 1, 0x1A⟩,
    .chkregWrite ⟨no, 0, 0, 0, 5, 0, 0, 1, 0x1C⟩, .isetWrite ⟨no, 0, 0, 0, 5, 0, 0, 1, 0x60⟩, .hsemAcquire ⟨no, 0, 0, 0, 5, 0, 0, 1, 0x5F⟩,
    .dirtylogEnable ⟨no, 0, 0, 0, 5, 0, 0, 1, 0x1E⟩, .ctxGrantSet ⟨no, 0, 0, 3, 5, 7, 0, 1, 1⟩, .ctxGrantRun ⟨no, 0, 0, 3, 5, 7, 0, 1, 9⟩,
    .ctxRevokeHt ⟨no, 0, 0, 3, 5, 7, 9, 2, 10⟩, .vmovsIns ⟨no, 0, 0, 3, 5, 0, 0, 0, 0⟩, .vmovsExt ⟨no, 0, 0, 3, 5, 0, 0, 0, 1 <<< 14⟩,
    .vcvt ⟨no, 0, 0, 3, 5, 0, 0, 3, (3 <<< 12) ||| (1 <<< 10)⟩, .vcvtBxQuantise ⟨no, 0, 0, 3, 5, 0, 0, 0, (9 <<< 12) ||| (3 <<< 10)⟩] := by decide +kernel

/-! Effects. One instruction on a small state; the expected values are worked from the rule by hand, or are the spec's own
worked examples. -/

/-- The state after an instruction. -/
abbrev after (i : Instr) (s : State) : State := match exec i s with | .next t => t | _ => s
/-- Scalar register n after an instruction on registers s1, s2, ... -/
abbrev sAfter (i : Instr) (vs : List W64) (n : Nat) : W64 := (after i (regs base vs)).me.sreg n
/-- VSTAT after an instruction. -/
abbrev vAfter (i : Instr) (vs : List W64) : W64 := (after i (regs base vs)).me.allFlags
/-- The operands with the saturation modifier. -/
abbrev sat (u : U) : U := { u with m := ⟨some ⟨true, 0, false, 0⟩, none, false⟩ }
/-- The operands with a minor. -/
abbrev mi (k : BitVec 4) (u : U) : U := { u with mi := k }

/-- 09 R249, 05 R120: the sum wraps; under .sat it clamps and sets VSTAT.SAT, bit 9. -/
theorem test_add : sAfter (.add (un 3 1 2 0)) [0x7FFFFFFFFFFFFFFF, 1] 3 = 0x8000000000000000 ∧ vAfter (.add (un 3 1 2 0)) [0x7FFFFFFFFFFFFFFF, 1] = 0
    ∧ sAfter (.add (sat (un 3 1 2 0))) [0x7FFFFFFFFFFFFFFF, 1] 3 = 0x7FFFFFFFFFFFFFFF ∧ vAfter (.add (sat (un 3 1 2 0))) [0x7FFFFFFFFFFFFFFF, 1] = 0x200 := by
  decide +kernel
theorem test_sub_order : sAfter (.sub (un 1 1 2 0)) [3, 5] 1 = -2 := by decide +kernel
/-- 09 R246: a write to s0 is discarded. -/
theorem test_s0 : sAfter (.add (un 0 1 2 0)) [3, 5] 0 = 0 := by decide +kernel
theorem test_shifts : sAfter (.shl (un 3 1 2 0)) [3, 65] 3 = 6 ∧ sAfter (.shr (un 3 1 2 0)) [0x8000000000000000, 63] 3 = 1
    ∧ sAfter (.sar (un 3 1 2 0)) [0x8000000000000000, 63] 3 = -1 ∧ sAfter (.rol (un 3 1 2 0)) [0x8000000000000001, 1] 3 = 3 := by decide +kernel
theorem test_minmax : sAfter (.min (un 3 1 2 0)) [-1, 1] 3 = -1 ∧ sAfter (.max (un 3 1 2 0)) [-1, 1] 3 = 1 := by decide +kernel
theorem test_mul : sAfter (.mul (un 3 1 2 0)) [-3, 5] 3 = -15 ∧ sAfter (.mulh (un 3 1 2 0)) [-1, 1] 3 = -1 := by decide +kernel
/-- 09 R250: the quotient truncates without a rounding modifier; a zero divisor gives all ones and DZI, bit 11. -/
theorem test_div : sAfter (.div (un 3 1 2 0)) [5, 0] 3 = -1 ∧ vAfter (.rem (un 3 1 2 0)) [5, 0] = 0x800
    ∧ sAfter (.rem (un 3 1 2 0)) [0x8000000000000000, -1] 3 = 0 := by decide +kernel
theorem test_counts : sAfter (.clz (un 3 1 0 0)) [1] 3 = 63 ∧ sAfter (.clz (un 3 0 0 0)) [] 3 = 64 ∧ sAfter (.popc (un 3 1 0 0)) [0xF0F] 3 = 8 := by decide +kernel
theorem test_bitfields : sAfter (.ext (un 3 1 0 (0x1000 ||| (3 <<< 6) ||| 4))) [0xF0] 3 = -1 ∧ sAfter (.ins (un 3 1 0 ((3 <<< 6) ||| 4))) [5, 0, 0xFFF] 3 = 0xF5F := by
  decide +kernel
theorem test_immediates : sAfter (.addi (un 3 1 0 (-3))) [1] 3 = -2 ∧ sAfter (.movi (un 3 0 0 0x80000000)) [] 3 = 0xFFFFFFFF80000000
    ∧ sAfter (.lui (un 3 1 0 0x80000000)) [0xFFFFFFFF00000007] 3 = 0x8000000000000007 ∧ sAfter (.lea (mi 3 (un 3 1 2 0))) [1, 2] 3 = 17 := by decide +kernel
theorem test_cmp : (after (.cmp (mi 2 (un 3 1 2 0))) (regs base [-1, 1])).me.preg 3 = BitVec.allOnes 1024
    ∧ (after (.cmp (mi 4 (un 3 1 2 0))) (regs base [-1, 1])).me.preg 3 = 0 := by decide +kernel
theorem test_pred : (after (.pnot (un 3 1 0 0)) (pred base 1 0xF0)).me.preg 3 = ~~~ 0xF0 ∧ (after (.pcnt (un 3 1 0 0)) (pred base 1 0xF0)).me.sreg 3 = 4
    ∧ (after (.pseti (un 3 0 0 5)) base).me.preg 3 = 0x1F := by decide +kernel
/-- 09 R261: a branch target is the unit's address plus four times the offset. -/
theorem test_brprep : (after (.brPrep (un 3 0 0 (-2))) base).me.breg 3 = 0xFFF8 := by decide +kernel
/-- 09 R268: the return address follows the last delay slot; no slot here. -/
theorem test_call : (after (.call (un 0 0 0 0)) base).me.ras.chip = [0x10004] := by decide +kernel
/-- 10 R287: VIMM's immediate fills every lane; R283: the sum of 1.0 and 2.0 is 3.0, of -0 and +0 is +0. -/
theorem test_vimm : let s := after (.vimm (mi 5 (un 1 0 63 7))) base
    (s.me.vreg 1).lane 0 = 7 ∧ (s.me.vreg 1).lane 1023 = 7 := by decide +kernel
theorem test_vadd_inactive : let s := after (.vimm (mi 5 (un 1 0 63 7))) base
    let r := after (.vaddX { (mi 5 (un 2 1 1 0)) with p := 1 }) (pred { s with cycle := 8 } 1 2)
    (r.me.vreg 2).lane 0 = 0 ∧ (r.me.vreg 2).lane 1 = 14 ∧ (r.me.vreg 2).lane 2 = 0 := by decide +kernel
theorem test_ieee_add : Fmt.f32.add 0 false 0x3F800000 0x40000000 = (0x40400000, 0) ∧ Fmt.f32.add 0 false 0x80000000 0 = (0, 0)
    ∧ Fmt.f32.add 0 false 0x7F800000 0xFF800000 = (0x7FC00000, 1) ∧ Fmt.f16.mul 0 false 0x7BFF 0x4000 = (0x7C00, 0x14) := by decide +kernel
/-- 1/3 in binary32 is 0x3EAAAAAB to nearest and inexact; 1/0 is infinite with DZ; the root of 1/4 is 2. -/
theorem test_ieee_special : Fmt.f32.rcp 0 false 0x40400000 = (0x3EAAAAAB, 0x10) ∧ Fmt.f32.rcp 0 false 0 = (0x7F800000, 2)
    ∧ Fmt.f32.rsq 0 false 0x3E800000 = (0x40000000, 0) ∧ (vexp 0 0 false 0).1 = 0x3F800000 ∧ (vlog 0 0 false 0x3F800000).1 = 0 := by decide +kernel
/-- 05, worked SLI encodings: 2 in SLI32 and SLI16, the product of the second row with LXUP (bit 12), the sum of e^300 and e^900, and
0.5 + 0.75 = 1.25 with LXREC (bit 14): 0.5 is the reciprocal of 2, 1.25 is e^0.22314. -/
theorem test_sli : (sliOfIeee Fmt.f32 3 0x40000000).1 = 0x0D8B90C0 ∧ (sliOfIeee Fmt.f32 3 0x3F000000).1 = 0x4D8B90C0 ∧ (sliOfIeee Fmt.f32 3 0xC0000000).1 = 0x8D8B90C0
    ∧ (sliOfIeee Fmt.f16 4 0x4000).1 = 0x0D8C ∧ sliOp 4 2 0x0D8C 0x0D8C = (0x129E, 0x1000) ∧ sliOp 4 0 0x2470 0x2535 = (0x2535, 0)
    ∧ (sliOfIeee Fmt.bf16 4 0x4396).1 = 0x1C70 ∧ (sliOp 4 0 (sliOfIeee Fmt.f16 4 0x3800).1 (sliOfIeee Fmt.f16 4 0x3A00).1).2 = 0x4000 := by decide +kernel
/-- 05 R142, the worked block: its exponents, its six elements as BX8 bytes and as BX4 nibbles. -/
theorem test_bx : let xs : List Nat := [0x40FFAE14, 0x40A00000, 0xBE99999A, 0x3D8F5C29, 0xBD800000, 0x38D1B717]
    bxExps none (xs.map Fmt.f32.dec) = (0x81, 0x7B)
    ∧ xs.map (fun x => (bxQuant 8 0x81 0x7B (decide (2 ^ 31 ≤ x)) (Fmt.f32.dec x)).1) = [0x3F, 0x28, 0x42, 0xA4, 0xE0, 0x00]
    ∧ xs.map (fun x => (bxQuant 9 0x81 0x7B (decide (2 ^ 31 ≤ x)) (Fmt.f32.dec x)).1) = [0x3, 0x2, 0xF, 0xA, 0xE, 0x0] := by decide +kernel
/-- 05 R143: the tree over four lanes, the third inactive: (1 + 2) + 8. -/
theorem test_tree : (tree (fun x y => (x + y, 0)) 2 [some 1, some 2, none, some 8]).1 = some 11 := by decide +kernel
/-- 11 R311: a store and a load of the scratchpad, little-endian; LD.B reads one byte. -/
theorem test_scratchpad : let s := after (.stDSp (un 2 1 0 0)) (regs base [0x100, 0x1122334455667788])
    s.rdSp64 0x100 = 0x1122334455667788 ∧ (after (.ldBSp (un 3 1 0 1)) s).me.sreg 3 = 0x77 := by decide +kernel
/-- 13 R350: NOP only advances the pc: 0x10000 + 4. -/
theorem test_nop : (after (.nop (un 0 0 0 0)) base).me.pc = 0x10004 := by decide +kernel
/-- 11 R319: TOK.ADD adds one. -/
theorem test_tokadd : (after (.tokAdd (un 5 0 0 0)) base).tok 0 5 = 1 := by decide +kernel
/-- One step: the unit at the pc is fetched, decoded and executed; ADDI s1, s0, 5 is 5 in IMM10, 1 in A, major 0x05 (08 R219, R224). -/
abbrev stepped (w : Nat) : State := match step (State.reset.withFetchWord 32 w) with | .next t => t | _ => State.reset
theorem test_step : ((stepped 0x01400414).ag 0 0).sreg 1 = 5 ∧ ((stepped 0x01400414).ag 0 0).pc = 0x10004 := by decide +kernel
/-- 08 R227, 13 R372: a unit with selector 11 is a fault of its stream with cause 1, and it writes nothing. -/
theorem test_illegal : ((stepped 3).ag 0 0).run = .faulted 1 ∧ ((stepped 3).ag 0 0).regs = (State.reset.ag 0 0).regs := by decide +kernel
theorem test_reset : State.reset.memWf := State.memWf_reset

end Sys2Proof.Tests
end

section
/-! ## Canonical byte stores (O56)

Every function that a step is made of keeps `State.memWf`. There is one lemma for each of them, in the namespace `State.memWf` and under the
function's own name, so that the proof about a composed state reads as the composition does: `h.spillWrite.takeBlock.setSpmap`. The
predicates below carry the property through the other types that a function may answer: outcomes, options, results and pairs. -/

namespace Sys2Proof.Machine

/-- The canonical form of the state that an outcome carries. -/
inductive OutWf : Out → Prop
  | next {t : State} (h : t.memWf) : OutWf (.next t)
  | fault {f : Fault} : OutWf (.fault f)
  | refused {r : Refusal} : OutWf (.refused r)

/-- A change of the state keeps the canonical form. -/
abbrev Keeps (f : State → State) : Prop := ∀ {s : State}, s.memWf → (f s).memWf

/-- Each response of a list of checks keeps the canonical form. -/
def KeepsAll : List (Bool × (State → State)) → Prop
  | [] => True
  | (_, f) :: l => Keeps f ∧ KeepsAll l

/-- Each of a list of events keeps the canonical form. -/
def EventsWf (l : List Event) : Prop := ∀ f ∈ l, ∀ {s : State}, s.memWf → OutWf (f s)

/-- What an optional value satisfies where it is present. -/
inductive OnSome {α : Type} (p : α → Prop) : Option α → Prop
  | some {x : α} (h : p x) : OnSome p (some x)
  | none : OnSome p none

/-- What a successful result satisfies. -/
inductive OnOk {ε α : Type} (p : α → Prop) : Except ε α → Prop
  | ok {x : α} (h : p x) : OnOk p (.ok x)
  | error {e : ε} : OnOk p (.error e)

/-- What a failed result satisfies. -/
inductive OnError {ε α : Type} (p : ε → Prop) : Except ε α → Prop
  | ok {x : α} : OnError p (.ok x)
  | error {e : ε} (h : p e) : OnError p (.error e)

/-- The canonical form of a pair's state. -/
abbrev FstWf {α : Type} (p : State × α) : Prop := p.1.memWf

/-- The canonical form of the state that a queue operation comes to. -/
inductive QResWf : QRes → Prop
  | ok {t : State} {v : W64} (h : t.memWf) : QResWf (.ok t v)
  | wait : QResWf .wait
  | fault {t : State} (h : t.memWf) : QResWf (.fault t)

/-- The canonical form of the state that a CSR write comes to. -/
inductive CsrResWf : CsrRes → Prop
  | done {t : State} (h : t.memWf) : CsrResWf (.done t)
  | stop {t : State} (h : t.memWf) : CsrResWf (.stop t)
  | wait : CsrResWf .wait

/-- The canonical form of the state that an issue comes to. -/
inductive IssuedWf : Issued → Prop
  | run {i : Instr} {b : Bool} {t : State} (h : t.memWf) : IssuedWf (.run i b t)
  | done {t : State} (h : t.memWf) : IssuedWf (.done t)

section Elim

variable {α ε β : Type} {p : α → Prop} {s t : State}

theorem OnSome.of_eq {o : Option α} {x : α} (h : OnSome p o) (e : o = .some x) : p x := by subst e; cases h; assumption

theorem OnOk.of_eq {o : Except ε α} {x : α} (h : OnOk p o) (e : o = .ok x) : p x := by subst e; cases h; assumption

theorem OnError.of_eq {o : Except α β} {x : α} (h : OnError p o) (e : o = .error x) : p x := by subst e; cases h; assumption

theorem OnError.of_pair {b : β} {o : β × Except α ε} {x : α} (h : OnError p o.2) (e : o = (b, .error x)) : p x := by
  subst e; cases h; assumption

theorem OnSome.fst {o : Option (State × α)} {x : α} (h : OnSome FstWf o) (e : o = .some (t, x)) : t.memWf := h.of_eq e

theorem OnOk.fst {o : Except ε (State × α)} {x : α} (h : OnOk FstWf o) (e : o = .ok (t, x)) : t.memWf := h.of_eq e

theorem State.memWf.pair {x : α} (h : t.memWf) : (t, x).1.memWf := h

theorem OnSome.findSome {l : List β} {f : β → Option α} (h : ∀ {b}, OnSome p (f b)) : OnSome p (l.findSome? f) := by
  cases e : l.findSome? f with
  | none => exact .none
  | some x =>
    obtain ⟨b, -, hb⟩ := List.exists_of_findSome?_eq_some e
    exact .some (h.of_eq hb)

theorem OnSome.bind {o : Option β} {q : β → Prop} {f : β → Option α} (h : OnSome q o) (hf : ∀ {b}, q b → OnSome p (f b)) :
    OnSome p (o.bind f) := by
  cases h with
  | some hb => exact hf hb
  | none => exact .none

theorem OnSome.map {o : Option β} {q : β → Prop} {f : β → α} (h : OnSome q o) (hf : ∀ {b}, q b → p (f b)) : OnSome p (o.map f) := by
  cases h with
  | some hb => exact .some (hf hb)
  | none => exact .none

theorem OnSome.foldl {l : List β} {f : Option α → β → Option α} {o : Option α} (h : OnSome p o)
    (hf : ∀ {o : Option α} {b : β}, OnSome p o → OnSome p (f o b)) : OnSome p (l.foldl f o) := by
  induction l generalizing o with
  | nil => exact h
  | cons b l ih => exact ih (hf h)

theorem OutWf.foldl {l : List β} {f : Out → β → Out} {o : Out} (h : OutWf o) (hf : ∀ {o : Out} {b : β}, OutWf o → OutWf (f o b)) :
    OutWf (l.foldl f o) := by
  induction l generalizing o with
  | nil => exact h
  | cons b l ih => exact ih (hf h)

theorem EventsWf.nil : EventsWf [] := fun _ hf => nomatch hf

theorem EventsWf.cons {f : Event} {l : List Event} (hf : ∀ {s : State}, s.memWf → OutWf (f s)) (h : EventsWf l) : EventsWf (f :: l) :=
  List.forall_mem_cons.2 ⟨hf, h⟩

theorem EventsWf.append {l m : List Event} (h : EventsWf l) (h' : EventsWf m) : EventsWf (l ++ m) := List.forall_mem_append.2 ⟨h, h'⟩

theorem EventsWf.ite {c : Prop} [Decidable c] {l m : List Event} (h : EventsWf l) (h' : EventsWf m) : EventsWf (if c then l else m) := by
  split <;> assumption

theorem EventsWf.map {l : List β} {f : β → Event} (h : ∀ b {s : State}, s.memWf → OutWf (f b s)) : EventsWf (l.map f) :=
  List.forall_mem_map.2 fun b _ => h b

theorem EventsWf.flatMap {l : List β} {f : β → List Event} (h : ∀ b, EventsWf (f b)) : EventsWf (l.flatMap f) := fun e he =>
  let ⟨b, _, hb⟩ := List.mem_flatMap.1 he
  h b e hb

theorem OutWf.of_eq {o : Out} (h : OutWf o) (e : o = .next t) : t.memWf := by subst e; cases h; assumption

theorem QResWf.of_ok {r : QRes} {v : W64} (h : QResWf r) (e : r = .ok t v) : t.memWf := by subst e; cases h; assumption

theorem QResWf.of_fault {r : QRes} (h : QResWf r) (e : r = .fault t) : t.memWf := by subst e; cases h; assumption

theorem CsrResWf.of_done {r : CsrRes} (h : CsrResWf r) (e : r = .done t) : t.memWf := by subst e; cases h; assumption

theorem CsrResWf.of_stop {r : CsrRes} (h : CsrResWf r) (e : r = .stop t) : t.memWf := by subst e; cases h; assumption

theorem IssuedWf.of_run {r : Issued} {i : Instr} {b : Bool} (h : IssuedWf r) (e : r = .run i b t) : t.memWf := by
  subst e; cases h; assumption

theorem IssuedWf.of_done {r : Issued} (h : IssuedWf r) (e : r = .done t) : t.memWf := by subst e; cases h; assumption

theorem State.memWf.of_eq {p : State × α} {x : α} (h : p.1.memWf) (e : p = (t, x)) : t.memWf := by subst e; exact h

theorem State.memWf.of_fst {p : State × α} {x : α} (e : p = (t, x)) (h : p.1.memWf) : t.memWf := h.of_eq e

end Elim

namespace State.memWf

section Update

variable {s : State} {cycle nextId slotNo slotAt fresh picks : Nat} {agents : SMap Agent} {cores : SMap Core} {ctxs : SMap Ctx} 
  {launches : SMap Launch} {races : SMap RaceSt} {cepochs : SMap Nat} {dev : Dev} {book : Book} {jobs : List Job} {flights : List Flight}
  {fxOut : List (Nat × Flit)} {hostOut : List Reply} {adw : List (Nat × W64)} {cu : CurUnit} {agenda : List Turn} {plan : List Bool}

/-- A change of any field but the stores keeps the form. -/
theorem upd (h : s.memWf) :
    State.memWf ⟨cycle, agents, cores, ctxs, launches, s.mem, races, cepochs, dev, book, jobs, nextId, flights, fxOut, hostOut, slotNo, slotAt,
      adw, cu, fresh, picks, agenda, plan⟩ := h

/-- So does a change of the other parts of storage. -/
theorem updMem {psn spadPsn accPsn : SMap Bool} {md spadMd : SMap (W64 × W64)} {acc : SMap W32} {pubs : SMap (List Pub)}
    {arr : SMap (Clock × Clock × Nat × Nat)} (h : s.memWf) :
    State.memWf ⟨cycle, agents, cores, ctxs, launches, ⟨s.mem.bytes, psn, md, s.mem.spad, spadPsn, spadMd, acc, accPsn, pubs, arr⟩, races,
      cepochs, dev, book, jobs, nextId, flights, fxOut, hostOut, slotNo, slotAt, adw, cu, fresh, picks, agenda, plan⟩ := h

end Update

section Combine

variable {s t : State} {α β : Type}

theorem ite {c : Prop} [Decidable c] (h : s.memWf) (h' : t.memWf) : (if c then s else t).memWf := by split <;> assumption

/-- A change made under a condition. -/
theorem when {c : Prop} [Decidable c] (h : s.memWf) (f : s.memWf → t.memWf) : (if c then t else s).memWf := (f h).ite h

/-- Two answers of a condition that carry a state. -/
theorem iteFst {c : Prop} [Decidable c] {x y : State × α} (h : x.1.memWf) (h' : y.1.memWf) : (if c then x else y).1.memWf := by
  split <;> assumption

theorem foldl {l : List β} {f : State → β → State} (h : s.memWf) (hf : ∀ {s : State} {b : β}, s.memWf → (f s b).memWf) :
    (l.foldl f s).memWf := memWf_foldl l f (fun _ _ => hf) h

theorem foldlFst {l : List β} {f : State × α → β → State × α} {x : State × α} (h : x.1.memWf)
    (hf : ∀ {x : State × α} {b : β}, x.1.memWf → (f x b).1.memWf) : (l.foldl f x).1.memWf := by
  induction l generalizing x with
  | nil => exact h
  | cons b l ih => exact ih (hf h)

end Combine

variable {s : State}

theorem wrBytes {sp : Bool} {a : Nat} {bs : List Byte} (h : s.memWf) : (s.wrBytes sp a bs).memWf := memWf_wrBytes h _ _ _

theorem wrP64 {a : Nat} {v : W64} (h : s.memWf) : (s.wrP64 a v).memWf := memWf_wrP64 h _ _

theorem zeroBytes {sp : Bool} {a n : Nat} (h : s.memWf) : (s.zeroBytes sp a n).memWf := memWf_zeroBytes h _ _ _

theorem setPsn {sp : Bool} {a : Nat} {v : Bool} (h : s.memWf) : (s.setPsn sp a v).memWf := memWf_setPsn h _ _ _

theorem setPubs {sp : Bool} {a : Nat} {l : List Pub} (h : s.memWf) : (s.setPubs sp a l).memWf := memWf_setPubs h _ _ _

theorem setMd {p : Piece} {m : W64 × W64} (h : s.memWf) : (s.setMd p m).memWf := memWf_setMd h _ _

theorem dropPubs {sp : Bool} {a n : Nat} (h : s.memWf) : (s.dropPubs sp a n).memWf := memWf_dropPubs h _ _ _

theorem recordMd {l : List (Piece × (W64 × W64))} (h : s.memWf) : (s.recordMd l).memWf := memWf_recordMd h _

theorem storeOne {p : Piece} {data : List Byte} (h : s.memWf) : (s.storeOne p data).memWf := memWf_storeOne h _ _

theorem store {ps : List Piece} {data : List Byte} (h : s.memWf) : (s.store ps data).memWf := memWf_store h _ _

theorem wrIset {n : Nat} {v : W64} (h : s.memWf) : (s.wrIset n v).memWf := memWf_wrIset h _ _

theorem cleared {b : Boot} (h : s.memWf) : (s.cleared b).memWf := memWf_cleared h _

end State.memWf
end Sys2Proof.Machine

namespace Sys2Proof.Machine.State.memWf

variable {s : State} {u : U} {core c k st x n q i die port ctx key clu off id kind size frm row addr tag len reason cls minor : Nat}
  {va ea pc w0 cword aux0 aux1 v : W64} {acc : Acc} {ps : List Piece} {data bs : List Byte} {sp spill free w64 acquire wr wk : Bool}
  {sel : Sel} {xs order : List Nat} {e : Eng} {f : Flit} {clk : Clock}

/-! ### Phys -/

theorem setAcc {col : Nat} {v : W32} (h : s.memWf) : (s.setAcc core row col v).memWf := h.updMem

theorem setRowPsn {v : Bool} (h : s.memWf) : (s.setRowPsn core row v).memWf := h.updMem

theorem l2Touch {pa pol : Nat} (h : s.memWf) : (s.l2Touch pa pol wr).memWf := by
  unfold State.l2Touch
  split
  exact h.upd

theorem l2Pieces (h : s.memWf) : (s.l2Pieces ps wr).memWf := h.foldl fun h => h.ite h.l2Touch

/-! ### Xlate -/

theorem setCtx {x : Ctx} (h : s.memWf) : (s.setCtx c x).memWf := h.upd

theorem updCtx {f : Ctx → Ctx} (h : s.memWf) : (s.updCtx c f).memWf := by
  unfold State.updCtx
  split
  · exact h.setCtx
  · exact h

theorem setCw (h : s.memWf) : (s.setCw c k v).memWf := h.updCtx

theorem walkLevels_wf {owner : Nat} {rd : W64 → State → State × Except XFail (Nat × W64 × Nat)} {lvl base : Nat} {a : W64} (h : s.memWf)
    (hrd : ∀ {t : State} {y : W64}, t.memWf → (rd y t).1.memWf) :
    (walkLevels k wk owner rd n lvl base a s).1.memWf := by
  induction n generalizing s lvl base with
  | zero => exact h
  | succ n ih =>
    unfold walkLevels
    dsimp only
    generalize hp : (if k = 0 then (s, _) else rd _ s) = p
    have hk : p.1.memWf := by
      subst hp
      split
      · exact h
      · exact hrd h
    split
    · exact hk
    · split
      · exact hk
      · split
        · exact hk
        · split
          · exact hk.l2Touch
          · split
            · exact hk.l2Touch
            · split
              · exact hk.l2Touch
              · exact ih hk.l2Touch

theorem setAd {e : W64} {pea pol : Nat} (h : s.memWf) : (s.setAd c wk acc e pea ea pol).memWf := h.ite h.wrP64.l2Touch.upd

theorem xlateFor_wf {l : List Nat} {a : W64} (h : s.memWf) : (xlateFor free l acc wk a s).1.memWf := by
  induction l generalizing s acc wk a with
  | nil => exact h
  | cons c up ih =>
    have hrd {t : State} {ea : W64} (ht : t.memWf) : (match xlateFor free up .read true ea t with
        | (s, .ok t) => (s, (.ok (t.pa, t.rootVa, t.policy) : Except XFail (Nat × W64 × Nat)))
        | (s, .error f) => (s, .error f)).1.memWf := by
      split <;> exact (ih ht).of_eq ‹_›
    unfold xlateFor
    dsimp only
    split
    · exact h
    · split
      · exact h
      · split
        · exact (h.walkLevels_wf hrd).of_eq ‹_›
        · have ht := (h.walkLevels_wf hrd).of_eq ‹_›
          split
          · exact ht
          · split
            · split <;> exact ht.setAd
            · split <;> exact (ih ht.setAd).of_eq ‹_›

theorem xlate_wf {ch : List Nat} {a : W64} (h : s.memWf) : (xlate ch acc wk a s).1.memWf := h.xlateFor_wf

theorem markBit {l : Nat} (h : s.memWf) : (s.markBit l i).memWf := by
  unfold State.markBit
  dsimp only
  split
  · exact h.xlate_wf.of_eq ‹_›
  · exact (h.xlate_wf.of_eq ‹_›).wrP64.l2Touch

theorem markSpan {l a : Nat} (h : s.memWf) : (s.markSpan l a n).memWf := h.foldl fun h => h.markBit.ite h

theorem mark (h : s.memWf) : (s.mark c va n).memWf := by
  unfold State.mark
  refine h.foldl fun h => ?_
  split
  · exact h.markSpan
  · exact h

theorem markPhys {pa : Nat} (h : s.memWf) : (s.markPhys c pa n).memWf := h.foldl fun h => h.markSpan.ite h

theorem markAdN (h : s.memWf) : (State.markAdN n s).memWf := by
  induction n generalizing s with
  | zero => exact h.upd
  | succ n ih => exact h.ite (ih (h.upd.foldl fun h => h.ite h.mark))

theorem markAd (h : s.memWf) : s.markAd.memWf := h.markAdN

theorem onCore (h : s.memWf) : (s.onCore core).memWf := h.upd

theorem lookup {a : W64} (h : s.memWf) : (s.lookup free c acc a).1.memWf := by
  unfold State.lookup
  split
  · split
    · exact h.upd
    · dsimp only
      exact h.upd.xlateFor_wf.markAd
  · dsimp only
    exact h.xlateFor_wf.markAd

theorem translateFor {a : W64} (h : s.memWf) : (s.translateFor free c acc spill a).1.memWf := by
  unfold State.translateFor
  split
  · exact (h.lookup.of_eq ‹_›).pair
  · have ht := h.lookup.of_eq ‹_›
    exact ht.pair.iteFst (ht.pair.iteFst ht.pair)

theorem translate {a : W64} (h : s.memWf) : (s.translate c acc spill a).1.memWf := h.translateFor

theorem piecesFor {base : W64} {l : List (Nat × Nat)} (h : s.memWf) : (s.piecesFor free c acc spill base l off).1.memWf := by
  induction l generalizing s off with
  | nil => exact h.pair
  | cons a l ih =>
    unfold State.piecesFor
    dsimp only
    split
    · exact (h.translateFor.of_eq ‹_›).pair
    · split <;> exact ((ih (h.translateFor.of_eq ‹_›)).of_eq ‹_›).pair

theorem accessFor (h : s.memWf) : (s.accessFor free c acc spill va n).1.memWf := h.piecesFor

theorem access (h : s.memWf) : (s.access c acc spill va n).1.memWf := h.accessFor

/-! ### Race -/

theorem setRs {x : RaceSt} (h : s.memWf) : (s.setRs k x).memWf := h.upd

theorem joinPub {p : Pub} (h : s.memWf) : (s.joinPub key p).memWf := h.setRs

theorem joinBoth {c : Clock} (h : s.memWf) : (s.joinBoth key c).memWf := h.setRs

theorem publish {scope : Nat} (h : s.memWf) : (s.publish key scope).1.memWf := by
  unfold State.publish
  split
  · dsimp only
    exact h.setRs.upd.setRs
  · split
    exact (h.pair.of_eq ‹_›).setRs

theorem closePath (h : s.memWf) : (s.closePath key).memWf := h.setRs

theorem publishClose {scope : Nat} (h : s.memWf) : (s.publishClose key scope).1.memWf := by
  unfold State.publishClose
  split
  exact ((h.publish.of_eq ‹_›).setRs.ite (h.publish.of_eq ‹_›)).pair

theorem capEpoch (h : s.memWf) : (s.capEpoch key).memWf := (h.setRs.ite h).when .upd

theorem externalWrite {p : Piece} (h : s.memWf) : (s.externalWrite p).memWf := h.setMd.ite h

/-! ### Ops -/

theorem setAg {a : Agent} (h : s.memWf) : (s.setAg core st a).memWf := h.upd

theorem updAg {f : Agent → Agent} (h : s.memWf) : (s.updAg core st f).memWf := h.setAg

theorem updCore {f : Core → Core} (h : s.memWf) : (s.updCore c f).memWf := h.upd

theorem updMe {f : Agent → Agent} (h : s.memWf) : (s.updMe f).memWf := h.updAg

theorem wrS {l : Nat} (h : s.memWf) : (s.wrS n v l).memWf := h.ite h.updMe

theorem wrP {v : Lanes} {l : Nat} (h : s.memWf) : (s.wrP n v l).memWf := h.ite h.updMe

theorem wrBt {l : Nat} (h : s.memWf) : (s.wrBt n v l).memWf := h.updMe

theorem wrV {v : VReg} {l : Nat} (h : s.memWf) : (s.wrV n v l).memWf := h.updMe

theorem orVstat {f : W64} {l : Nat} (h : s.memWf) : (s.orVstat f l).memWf := h.updMe

theorem advance (h : s.memWf) : s.advance.memWf := h.updMe

theorem paced {g : Nat} (h : s.memWf) : (s.paced g n).memWf := h.updMe

theorem fin (h : s.memWf) : (s.fin u).memWf := h.ite h.advance.paced

theorem waitOn {w : Wait} (h : s.memWf) : (s.waitOn w).memWf := h.updMe

theorem updAside {f : Saved → Saved} (h : s.memWf) : (s.updAside x f).memWf := h.updCtx

theorem updRegs {f : Core → Core} (h : s.memWf) : (s.updRegs x core f).memWf := h.updAside.ite h.updCore

theorem produce {t : Nat} {st : Clock} (h : s.memWf) : (s.produce core t st).memWf := h.updCore

theorem produceFor {t : Nat} {st : Clock} (h : s.memWf) : (s.produceFor x core t st).memWf := h.updRegs

theorem consume {ts : List Nat} (h : s.memWf) : (s.consume core ts).1.memWf := h.updCore

theorem setEq {l : List Cmd} (h : s.memWf) : (s.setEq core st l).memWf := h.updCore

theorem showHstat {old : W64} (h : s.memWf) : (s.showHstat old).memWf := h.ite h.upd

theorem hstatPush {info : Nat} (h : s.memWf) : (s.hstatPush kind ctx info).memWf := (h.upd.ite h.upd).showHstat

/-! ### Access -/

theorem engUnshadow (h : s.memWf) : (s.engUnshadow ps data).memWf := h.ite h.upd

theorem storeAs (h : s.memWf) : (s.storeAs c ps data).memWf := (h.foldl fun h => h.ite h.mark).markAd.store

theorem takeBlock {b : Nat} (h : s.memWf) : (s.takeBlock c b).memWf := h.updCtx

theorem dropBlock {b : Nat} (h : s.memWf) : (s.dropBlock c b).memWf := h.updCtx

theorem spillWrite (h : s.memWf) : (s.spillWrite c va data).1.memWf := by
  unfold State.spillWrite
  split
  · exact (h.access.of_eq ‹_›).pair
  · exact (h.access.of_eq ‹_›).storeAs.l2Pieces.pair

theorem spillMark {bad : List Nat} (h : s.memWf) : (s.spillMark c va n bad).memWf := by
  unfold State.spillMark
  split
  · exact h
  · split
    · refine (h.access.of_eq ‹_›).foldl fun h => ?_
      split
      · exact h.setPsn
      · exact h
    · exact h.access.of_eq ‹_›

theorem spillPieces {l : List (W64 × List Byte)} (h : s.memWf) : (s.spillPieces c l).1.memWf := by
  induction l generalizing s with
  | nil => exact h.pair
  | cons a l ih =>
    unfold State.spillPieces
    split
    · exact (h.access.of_eq ‹_›).pair
    · split <;> exact ((ih (h.access.of_eq ‹_›)).of_eq ‹_›).pair

theorem spillAll {l : List (W64 × List Byte)} (h : s.memWf) : (s.spillAll c l).1.memWf := by
  unfold State.spillAll
  split
  · exact (h.spillPieces.of_eq ‹_›).pair
  · exact ((h.spillPieces.of_eq ‹_›).foldl fun h => h.storeAs.l2Pieces).pair

theorem spillRead (h : s.memWf) : (s.spillRead c va n).1.memWf := by
  unfold State.spillRead
  split
  · exact (h.access.of_eq ‹_›).pair
  · have ht := h.access.of_eq ‹_›
    split
    · exact ht.pair
    · exact ht.l2Pieces.pair

/-! ### Debug -/

theorem updDbg {f : DebugSt → DebugSt} (h : s.memWf) : (s.updDbg c f).memWf := h.updCtx

theorem dbgOff (h : s.memWf) : (s.dbgOff c).memWf := h.updDbg

theorem devMark {bad : List Nat} (h : s.memWf) : (s.devMark c va n bad).memWf := by
  unfold State.devMark
  split
  · exact h
  · split
    · refine (h.access.of_eq ‹_›).foldl fun h => ?_
      split
      · exact h.setPsn
      · exact h
    · exact h.access.of_eq ‹_›

theorem devWrite (h : s.memWf) : (s.devWrite c va data).1.memWf := by
  unfold State.devWrite
  split
  · exact (h.access.of_eq ‹_›).pair
  · exact (h.access.of_eq ‹_›).storeAs.l2Pieces.pair

theorem bookWrite (h : s.memWf) : (s.bookWrite c va data).1.memWf := by
  unfold State.bookWrite
  split
  · exact (h.accessFor.of_eq ‹_›).pair
  · exact (h.accessFor.of_eq ‹_›).storeAs.l2Pieces.pair

theorem bookRead (h : s.memWf) : (s.bookRead c va n).1.memWf := by
  unfold State.bookRead
  split
  · exact (h.accessFor.of_eq ‹_›).pair
  · exact (h.accessFor.of_eq ‹_›).l2Pieces.pair

theorem devRead (h : s.memWf) : (s.devRead c va n).1.memWf := by
  unfold State.devRead
  split
  · exact (h.access.of_eq ‹_›).pair
  · exact (h.access.of_eq ‹_›).l2Pieces.pair

theorem ringWrite {l : List (List Byte)} (h : s.memWf) : (s.ringWrite c k l).1.memWf := by
  induction l generalizing s k with
  | nil => exact h.pair
  | cons a l ih =>
    unfold State.ringWrite
    dsimp only
    split
    · exact (h.devWrite.of_eq ‹_›).pair
    · exact ih (h.devWrite.of_eq ‹_›)

theorem ringAppend {units : List (List Byte)} (h : s.memWf) : (s.ringAppend c core st units).memWf := by
  unfold State.ringAppend
  split
  · exact h
  · dsimp only
    split
    · exact (h.devRead.of_eq ‹_›).dbgOff
    · split
      all_goals
        have ht := h.devRead.of_eq ‹_›
        split
        · exact ht.updDbg.devWrite.ite ht.updDbg.devWrite.dbgOff
        · split
          · exact (ht.ringWrite.of_eq ‹_›).dbgOff
          · have hu := ht.ringWrite.of_eq ‹_›
            exact hu.updDbg.devWrite.ite hu.updDbg.devWrite.dbgOff

theorem trace {x : Spot} {p0 p1 : W64} (h : s.memWf) : (s.trace kind c core st x p0 p1).memWf := h.ringAppend

theorem count {ev : Nat} (h : s.memWf) : (s.count c core st ev n).memWf := h.ite (h.foldl fun h => (h.updCtx.when .trace).ite h)

theorem l2Ps (h : s.memWf) : (s.l2Ps c core st ps wr).memWf := h.foldl fun h => h.ite h.count.l2Touch

theorem conflict {bank : Nat} (h : s.memWf) : (s.conflict c clu port bank n).memWf := h.upd.when .count

theorem snapshot {x : Spot} (h : s.memWf) : (s.snapshot c core st x).memWf := by
  unfold State.snapshot
  dsimp only
  split
  · exact h
  · split
    · refine .ringAppend ?_
      split
      · split
        · exact (h.upd.devWrite.of_eq ‹_›).dbgOff
        · have ht := h.upd.devWrite.of_eq ‹_›
          split
          · exact (ht.devWrite.of_eq ‹_›).dbgOff
          · exact ht.devWrite.of_eq ‹_›
      · exact h.upd
    · split
      · split
        · exact (h.upd.devWrite.of_eq ‹_›).dbgOff
        · have ht := h.upd.devWrite.of_eq ‹_›
          split
          · exact (ht.devWrite.of_eq ‹_›).dbgOff
          · exact ht.devWrite.of_eq ‹_›
      · exact h.upd

theorem loopEnd (h : s.memWf) : (s.loopEnd core st).memWf := by
  unfold State.loopEnd
  dsimp only
  split
  · exact h
  · exact h.setAg.trace.snapshot

theorem notIssued (h : s.memWf) : s.notIssued.memWf := h.updMe

theorem hold (h : s.memWf) : s.hold.memWf := h.notIssued.updMe.upd

/-! ### Trap -/

theorem captureWords {cap : Cap} (h : s.memWf) : (s.captureWords c cap).1.memWf := by
  unfold State.captureWords
  extract_lets put
  have hput {x : State × List (Nat × W64)} {o : CapOp} (h : x.1.memWf) : (put x o).1.memWf := by
    unfold put
    split
    split
    · exact h
    · exact h
    · split
      · exact h
      · split
        · exact (h.spillWrite.of_eq ‹_›).takeBlock.pair
        · exact (h.spillWrite.of_eq ‹_›).pair
  have hops : (cap.ops.foldl put (s, [])).1.memWf := h.pair.foldlFst hput
  generalize cap.ops.foldl put (s, []) = p at hops ⊢
  dsimp only
  split
  · exact hops.pair
  · split
    · exact hops.pair
    · split
      · exact hops.pair
      · split
        · exact (hops.spillWrite.of_eq ‹_›).takeBlock.pair
        · exact (hops.spillWrite.of_eq ‹_›).pair

theorem findEntries {l : List Nat} (h : s.memWf) : (s.findEntries c n l).1.memWf := by
  induction l generalizing s n with
  | nil => cases n <;> exact h
  | cons i t ih =>
    cases n with
    | zero => exact h
    | succ n =>
      unfold State.findEntries
      split
      · exact h.access.of_eq ‹_›
      · dsimp only
        split
        · split
          · exact (ih (h.access.of_eq ‹_›).l2Pieces).of_eq ‹_›
          · exact ih (h.access.of_eq ‹_›).l2Pieces
        · exact ih (h.access.of_eq ‹_›).l2Pieces

theorem placeSet {seq : Nat} {ws : List (List W64)} (h : s.memWf) : (s.placeSet c seq order ws).1.memWf := by
  unfold State.placeSet
  split
  · exact (h.findEntries.of_eq ‹_›).pair
  · have ht := h.findEntries.of_eq ‹_›
    split
    · exact ht.pair
    · dsimp only
      split <;> exact (ht.spillAll.of_eq ‹_›).pair

theorem placeRecord {seq : Nat} {fatal : Bool} {words : List W64} (h : s.memWf) : (s.placeRecord c seq fatal order words).1.memWf := h.placeSet

theorem updTrap {f : TrapSt → TrapSt} (h : s.memWf) : (s.updTrap c f).memWf := h.updCtx

theorem received {fatal : Bool} {seq cause : Nat} (h : s.memWf) : (s.received c n i fatal seq cause die).memWf := h.updTrap

theorem stopCtx (h : s.memWf) : (s.stopCtx c).memWf := h.updCtx.upd

theorem deliver {r : Rec} {l : List Nat} (h : s.memWf) : (s.deliver r l).memWf := by
  induction l generalizing s with
  | nil => exact h
  | cons a l ih =>
    unfold State.deliver
    dsimp only
    split
    · split
      · exact h.hstatPush
      · exact ih h
    · split
      · exact (h.placeRecord.of_eq ‹_›).received
      · have ht := h.placeRecord.of_eq ‹_›
        exact ht.stopCtx.hstatPush.ite ht.updTrap
      · have ht := h.placeRecord.of_eq ‹_›
        split
        · exact ht.updTrap.hstatPush
        · exact ih ht.updTrap

theorem deliverSet {cause : Nat} {ws : List (List W64)} {l : List Nat} (h : s.memWf) : (s.deliverSet die cause ws l).1.memWf := by
  induction l generalizing s with
  | nil => exact h.pair
  | cons a l ih =>
    unfold State.deliverSet
    dsimp only
    split
    · split
      · exact h.hstatPush.pair
      · exact ih h
    · split
      · exact (h.placeSet.of_eq ‹_›).received.pair
      · exact (h.placeSet.of_eq ‹_›).stopCtx.hstatPush.pair
      · have ht := h.placeSet.of_eq ‹_›
        split
        · exact ht.updTrap.hstatPush.pair
        · exact ih ht.updTrap

theorem heldWords {a : W64} (h : s.memWf) : (s.heldWords c a).1.memWf := by
  unfold State.heldWords
  split
  · exact (h.access.of_eq ‹_›).l2Pieces.pair
  · exact (h.access.of_eq ‹_›).pair

theorem nestedFault {h1 : Held} {r : Rec} (h : s.memWf) : (s.nestedFault c h1 r).memWf := by
  unfold State.nestedFault
  split
  have hs := h.heldWords.of_eq ‹_›
  extract_lets w0 first
  split
  · generalize hp : State.heldWords _ _ _ = p
    have ht : p.1.memWf := by
      subst hp
      exact hs.heldWords
    dsimp only
    refine .hstatPush (.stopCtx ?_)
    split
    · exact (ht.pair.iteFst ht.placeSet).updTrap
    · exact ht.pair.iteFst ht.placeSet
    · exact (ht.pair.iteFst ht.placeSet).updTrap
  · refine .updTrap ?_
    split
    · exact hs.hstatPush
    · exact hs.deliverSet

theorem emit {r : Rec} {cands : List Nat} (h : s.memWf) : (s.emit r cands st).memWf := by
  unfold State.emit
  dsimp only
  split
  · exact h.nestedFault.ite h.deliver
  · exact h.deliver

theorem freezeCore (h : s.memWf) : (s.freezeCore c core k).memWf := ((h.ite h.updCtx).foldl .updAg).updCore

theorem replayWords {l : List Cap} (h : s.memWf) : (s.replayWords c l).1.memWf := by
  unfold State.replayWords
  refine h.pair.foldlFst fun h => ?_
  split
  exact (h.captureWords.of_eq ‹_›).pair

theorem performPart {shadow : Bool} (h : s.memWf) : (s.performPart core st i shadow).memWf := by
  unfold State.performPart
  dsimp only
  split
  · exact h
  · split
    · exact h.updAg
    · exact ((h.storeAs.l2Ps.when .setPubs).when .updMem).updAg

theorem performStore {shadow : Bool} (h : s.memWf) : (s.performStore core st i shadow).memWf := by
  unfold State.performStore
  split
  · exact h
  · exact h.performPart.ite (h.foldl fun h => h.performPart.ite h)

theorem performLeft {pick : Pend → Bool} (h : s.memWf) : (State.performLeft pick n s core st).memWf := by
  induction n generalizing s core st with
  | zero => exact h
  | succ n ih =>
    unfold State.performLeft
    split
    · exact h
    · exact ih h.performStore

theorem settleLines {self : Option Nat} (h : s.memWf) : (s.settleLines self ps).memWf :=
  h.ite (h.foldl fun h => h.ite (h.performLeft.ite h.performLeft.updAg))

theorem trapOn {t : TrapInfo} {fcap : Option Cap} {younger : List Cap} {next : W64} (h : s.memWf) : (s.trapOn core st t fcap younger next).memWf := by
  unfold State.trapOn
  dsimp only
  refine .emit (.replayWords ?_)
  split
  · exact (h.performLeft.setAg.when .freezeCore).captureWords
  · exact (h.performLeft.setAg.when .freezeCore).pair

theorem pastFault (h : s.memWf) : s.pastFault.memWf := by
  unfold State.pastFault
  split
  · exact h
  · split
    · exact h.updMe
    · exact h.advance

theorem trap {t : TrapInfo} (h : s.memWf) : (s.trap t).memWf := by
  unfold State.trap
  exact (h.ite h.pastFault).trapOn

theorem raise {c : Cause} (h : s.memWf) : (s.raise c cword aux0 aux1).memWf := h.trap

theorem raiseX {f : XFail} (h : s.memWf) : (s.raiseX acc f va).memWf := h.raise.ite h.raise

theorem raiseWin {o : W64} (h : s.memWf) : (s.raiseWin acc reason o).memWf := h.raise

theorem illegal (h : s.memWf) : s.illegal.memWf := h.raise

theorem priv (h : s.memWf) : s.priv.memWf := h.raise

theorem wrongAgent (h : s.memWf) : s.wrongAgent.memWf := h.raise

theorem spillQ (h : s.memWf) : s.spillQ.memWf := h.raise

/-! ### Operands -/

theorem governed_wf {f : State → Out} (h : s.memWf) (hf : ∀ {t : State}, t.memWf → OutWf (f t)) : OutWf (governed u s f) := by
  unfold governed
  split
  · exact hf h
  · exact .next h.fin

theorem scalarDone_wf {l : Nat} (h : s.memWf) : OutWf (scalarDone u s v l) := .next h.wrS.fin

theorem predDone_wf {v : Lanes} {l : Nat} (h : s.memWf) : OutWf (predDone u s v l) := .next h.wrP.fin

theorem flagDone_wf {r : W64 × W64} {l : Nat} (h : s.memWf) : OutWf (flagDone u s r l) := .next h.orVstat.wrS.fin

/-! ### Issue -/

theorem lineOf (h : s.memWf) : (s.lineOf core st pc).1.memWf := by
  unfold State.lineOf
  split
  · exact h.pair.iteFst h.pair
  · dsimp only
    split
    · exact h.pair
    · split
      · exact (h.translate.of_eq ‹_›).pair
      · have ht := h.translate.of_eq ‹_›
        exact ht.pair.iteFst ht.l2Touch.pair

theorem fetch (h : s.memWf) : (s.fetch core st pc).1.memWf := by
  unfold State.fetch
  split <;> exact (h.lineOf.of_eq ‹_›).pair

theorem fetchTrap {c : Cause} {addr : W64} (h : s.memWf) : (s.fetchTrap c cword aux0 aux1 addr).memWf := h.trap

theorem lockWait (h : s.memWf) : s.lockWait.memWf := h.count.hold

theorem check (h : s.memWf) : IssuedWf s.check := by
  unfold State.check
  dsimp only
  split
  · exact .done h.illegal
  · split
    · exact .done h.upd.illegal
    · split
      · exact .done h.lockWait
      · split
        · exact .done h.illegal
        · exact .done (h.raise.ite h.fin.count)
        · split
          · exact .done h.illegal
          · split
            · exact .done h.wrongAgent
            · split
              · exact .done h.lockWait
              · split
                · exact .done h.hold
                · split
                  · exact .done h.illegal
                  · exact .run h

theorem landXfer (h : s.memWf) : (s.landXfer core st).memWf := h.updAg

theorem loadImage (h : s.memWf) : (s.loadImage core st).memWf := by
  unfold State.loadImage
  dsimp only
  split
  · have ht := h.access.of_eq ‹_›
    exact ht.updAg.upd.trap.ite ht.updAg.upd.trap
  · have ht := h.access.of_eq ‹_›
    split
    · exact ht.updAg.upd.trap
    · exact ht.l2Pieces.updCore.setAg

theorem issue (h : s.memWf) : IssuedWf (s.issue core st) := by
  unfold State.issue
  dsimp only
  split
  · exact .done h.upd.loadImage
  · split
    · exact h.upd.setAg.upd.check
    · split
      · split
        · split
          · split
            · exact .done h.upd.landXfer.upd.updMe
            · exact .done (h.upd.landXfer.upd.when .trace).updMe.trap
          · exact h.upd.landXfer.upd.updMe.upd.check
        · exact .done h.upd.landXfer
      · split
        · split <;> exact .done (h.upd.landXfer.upd.fetch.of_eq ‹_›).fetchTrap
        · exact .done (h.upd.landXfer.upd.fetch.of_eq ‹_›).fetchTrap
        · exact .done (h.upd.landXfer.upd.fetch.of_eq ‹_›).fetchTrap
        · exact .done (h.upd.landXfer.upd.fetch.of_eq ‹_›).fetchTrap
        · exact .done (h.upd.landXfer.upd.fetch.of_eq ‹_›).upd.fetchTrap
        · have ht := h.upd.landXfer.upd.fetch.of_eq ‹_›
          split
          · split
            · exact .done ht.upd.updMe
            · exact .done (ht.upd.when .trace).updMe.trap
          · exact ht.upd.updMe.upd.check

theorem semServed {r : Nat} (h : s.memWf) : (s.semServed n r).memWf := h.upd

theorem countIssue (h : s.memWf) : (s.countIssue c core st).memWf := by
  unfold State.countIssue
  split
  · exact h
  · split
    · exact h
    · exact h.count

theorem settle {early : Bool} {o : Out} (h : s.memWf) (ho : OutWf o) : OutWf (s.settle early o) := by
  unfold State.settle
  dsimp only
  split
  · split
    · split
      · exact ho
      · exact .next h.raise
    · exact .next h.raise
  · split
    · split
      · split
        · exact .next h.raise
        · exact ho
      · exact .next h.raise
    · exact .next (State.memWf.loopEnd (State.memWf.countIssue (ho.of_eq rfl)))
  · exact ho

/-! ### Control -/

theorem beginXfer {tgt : W64} {taken : Bool} (h : s.memWf) : (s.beginXfer u tgt taken n).memWf := h.updMe.paced.ite h.updMe.paced

theorem execBrGo_wf (h : s.memWf) : OutWf (execBrGo u s) := by
  unfold execBrGo
  dsimp only
  split
  · exact .next h.raise
  · exact .next h.beginXfer

theorem afterSlots (h : s.memWf) : (s.afterSlots n pc).1.memWf := by
  induction n generalizing s pc with
  | zero => exact h.pair
  | succ n ih =>
    unfold State.afterSlots
    split
    · exact (h.fetch.of_eq ‹_›).pair
    · exact ih (h.fetch.of_eq ‹_›)
    · exact ih (h.fetch.of_eq ‹_›)

theorem rasSpill (h : s.memWf) : (s.rasSpill core st v).1.memWf := by
  unfold State.rasSpill
  dsimp only
  split
  · split
    · exact h.pair
    · split
      · exact (h.spillAll.of_eq ‹_›).pair
      · exact (h.spillAll.of_eq ‹_›).takeBlock.count.updAg.pair
  · split
    · exact (h.spillWrite.of_eq ‹_›).pair
    · exact (h.spillWrite.of_eq ‹_›).updAg.pair

theorem rasFillBack (h : s.memWf) : (s.rasFillBack core st).1.memWf := by
  unfold State.rasFillBack
  dsimp only
  split
  · exact (h.spillRead.of_eq ‹_›).pair
  · exact (h.spillRead.of_eq ‹_›).pair
  · have ht := h.spillRead.of_eq ‹_›
    split
    · split
      · exact (ht.spillAll.of_eq ‹_›).pair
      · exact (ht.spillAll.of_eq ‹_›).dropBlock.updAg.pair
    · exact ht.updAg.pair

theorem rasFault {e : RasStop} (h : s.memWf) : (s.rasFault acc e).memWf := by
  unfold State.rasFault
  split
  · exact h.spillQ
  · exact h.raiseX
  · exact h.raise

theorem slotFault {e : FetchStop} (h : s.memWf) : (s.slotFault e pc).memWf := by
  unfold State.slotFault
  split
  · exact h.upd.trap.ite h.upd.trap
  · exact h.upd.trap
  · exact h.upd.trap

theorem call {tgt : W64} (h : s.memWf) : (s.call u tgt n).memWf := by
  unfold State.call
  split
  · have ht := h.afterSlots.of_eq ‹_›
    exact ht.spillQ.ite ht.slotFault
  · have ht := h.afterSlots.of_eq ‹_›
    split
    · exact ht.spillQ
    · split
      · exact ((ht.pair.iteFst ht.rasSpill).of_eq ‹_›).rasFault
      · exact ((ht.pair.iteFst ht.rasSpill).of_eq ‹_›).updMe.beginXfer

theorem execRet_wf (h : s.memWf) : OutWf (execRet u s) := by
  unfold execRet
  dsimp only
  split
  · exact .next h.updMe.beginXfer
  · split
    · exact .next h.raise
    · split
      · exact .next (h.rasFillBack.of_eq ‹_›).rasFault
      · exact .next (h.rasFillBack.of_eq ‹_›).beginXfer

theorem lineRead {acc : RaceAcc} (h : s.memWf) : (s.lineRead acc va n).1.memWf := by
  unfold State.lineRead
  split
  · exact (h.access.of_eq ‹_›).pair
  · have ht := h.access.of_eq ‹_›
    dsimp only
    split
    · exact ht.settleLines.pair
    · split
      · exact ht.settleLines.pair
      · exact ht.settleLines.recordMd.l2Ps.pair

theorem keeps_lineRead {acc : RaceAcc} : OnError Keeps (s.lineRead acc va n).2 := by
  unfold State.lineRead
  split
  · exact .error .raiseX
  · dsimp only
    split
    · exact .error .raise
    · split
      · exact .error (fun h => h.count.raise)
      · exact .ok

theorem execLoopCfg_wf (h : s.memWf) : OutWf (execLoopCfg u s) := by
  unfold execLoopCfg
  dsimp only
  split
  · exact .next ((keeps_lineRead.of_pair ‹_›) (h.lineRead.of_eq ‹_›))
  · exact .next (h.lineRead.of_eq ‹_›).updMe.fin

theorem captureBody (h : s.memWf) : (s.captureBody n pc).1.memWf := by
  induction n generalizing s pc with
  | zero => exact h.pair
  | succ n ih =>
    unfold State.captureBody
    split
    · exact (h.fetch.of_eq ‹_›).pair
    · split <;> exact ((ih (h.fetch.of_eq ‹_›)).of_eq ‹_›).pair
    · split <;> exact ((ih (h.fetch.of_eq ‹_›)).of_eq ‹_›).pair

theorem execLoopGo_wf (h : s.memWf) : OutWf (execLoopGo u s) := by
  unfold execLoopGo
  split
  · split
    · exact .next h.illegal
    · split
      · have ht := h.captureBody.of_eq ‹_›
        refine .next ?_
        split
        · exact ht.trap.ite ht.trap
        · exact ht.trap
        · exact ht.trap
      · exact .next (h.captureBody.of_eq ‹_›).updMe.paced
  · exact .next h.illegal

theorem execLoopBrk_wf (h : s.memWf) : OutWf (execLoopBrk u s) := by
  unfold execLoopBrk
  split
  · exact .next h.illegal
  · dsimp only
    split
    · exact .next h.raise
    · split
      · exact .next h.updMe.fin
      · exact .next h.fin

theorem markRec (h : s.memWf) : (s.markRec u tag).memWf := h.trace

/-! ### Park -/

theorem parkWrite {p : Park} {v : VReg} (h : s.memWf) : (s.parkWrite c core p v).1.memWf := by
  unfold State.parkWrite
  split
  · exact h.pair.foldlFst fun h => h.setAcc.pair
  · exact h.updAg.pair
  · split
    · exact (h.spillWrite.of_eq ‹_›).pair
    · exact (h.spillWrite.of_eq ‹_›).takeBlock.pair

theorem parkRead {p : Park} (h : s.memWf) : (s.parkRead c core p).1.memWf := by
  unfold State.parkRead
  split
  · dsimp only
    split <;> exact h.pair
  · exact h.pair
  · split <;> exact (h.spillRead.of_eq ‹_›).pair

theorem parkClear {p : Park} (h : s.memWf) : (s.parkClear c core p).memWf := by
  unfold State.parkClear
  split
  · exact h.foldl .setAcc
  · exact h.updAg
  · exact h.dropBlock

theorem setSpmap {w : W32} (h : s.memWf) : (s.setSpmap core st n w).memWf := h.updAg

theorem clearParked (h : s.memWf) : (s.clearParked core st).memWf := by
  unfold State.clearParked
  refine (h.foldl fun h => ?_).updAg
  split
  · exact h.parkClear
  · exact h

theorem evictOne {p : Park} {x : Avoid} (h : s.memWf) : (s.evictOne core st n p x).1.memWf := by
  unfold State.evictOne
  dsimp only
  split
  · exact h.pair
  · split
    · exact (h.parkWrite.of_eq ‹_›).pair
    · have ht := h.parkWrite.of_eq ‹_›
      refine .pair (.setSpmap (.parkClear ?_))
      split
      · exact ht.spillMark
      · exact ht.foldl .setRowPsn
      · exact ht

theorem evictAll {x : Avoid} {l : List (Nat × Nat × Park)} (h : s.memWf) : (s.evictAll core x l).1.memWf := by
  induction l generalizing s with
  | nil => exact h.pair
  | cons a l ih =>
    unfold State.evictAll
    split
    · exact ih (h.evictOne.of_eq ‹_›)
    · exact h.evictOne

theorem evictRows {nr : Nat} (h : s.memWf) : (s.evictRows c core row nr).1.memWf := h.pair.iteFst h.evictAll

theorem evictBank {slot : Nat} (h : s.memWf) : (s.evictBank core slot).1.memWf := by
  unfold State.evictBank
  dsimp only
  split <;> exact (h.evictAll.of_eq ‹_›).pair

theorem evictFault {e : Evicted} (h : s.memWf) : (s.evictFault e).memWf := by
  unfold State.evictFault
  split
  · exact h.raiseX
  · exact h.spillQ

/-! ### Memory -/

theorem takePlan (h : s.memWf) : s.takePlan.1.memWf := h.upd.pair

theorem reach (h : s.memWf) : (s.reach sp acc ea n).1.memWf := by
  unfold State.reach
  split
  · split <;> exact h.pair
  · split <;> exact (h.access.of_eq ‹_›).pair

theorem keeps_reach : OnError Keeps (s.reach sp acc ea n).2 := by
  unfold State.reach
  split
  · split
    · exact .error .raiseWin
    · exact .ok
  · split
    · exact .error .raiseX
    · exact .ok

theorem raiseMmx {e : W64 × W64} (h : s.memWf) : (s.raiseMmx e).memWf := h.count.raise

theorem keeps_screen {consume : Bool} {acc : RaceAcc} : OnError Keeps (s.screen consume acc ps) := by
  unfold State.screen
  split
  · exact .error .raise
  · split
    · exact .error .raiseMmx
    · exact .ok

theorem vldWrite {g : Lanes} {ty l : Nat} (h : s.memWf) : (s.vldWrite g n ty bs l).memWf := h.wrV

theorem takeEdges {scope : Nat} {l : List Pub} (h : s.memWf) : (s.takeEdges acquire scope l).memWf := by
  unfold State.takeEdges
  split
  exact (h.foldl .joinPub).ite (h.foldl .joinPub).updMe

theorem takePubs {scope : Nat} (h : s.memWf) : (s.takePubs acquire scope ps).memWf := h.takeEdges

theorem loadWith {scope : Option Nat} (h : s.memWf) : OnOk FstWf (s.loadWith ps bs scope acquire) := by
  unfold State.loadWith
  split
  · exact .error
  · refine .ok (.pair ?_)
    split
    · exact h.recordMd.l2Ps.takePubs
    · exact h.recordMd.l2Ps

theorem keeps_loadWith {scope : Option Nat} : OnError Keeps (s.loadWith ps bs scope acquire) := by
  unfold State.loadWith
  split
  · exact .error (keeps_screen.of_eq ‹_›)
  · exact .ok

theorem loadNow {scope : Option Nat} (h : s.memWf) : OnOk FstWf (s.loadNow ps scope acquire) := h.loadWith

theorem keeps_loadNow {scope : Option Nat} : OnError Keeps (s.loadNow ps scope acquire) := keeps_loadWith

theorem leave {p : Pend} (h : s.memWf) : (s.leave p).memWf := h.updMe

theorem putsOff (h : s.memWf) : s.putsOff.1.memWf := h.pair.iteFst h.takePlan

theorem loadUnit {sext : Bool} {scope : Option Nat} (h : s.memWf) : OutWf (s.loadUnit u sp ea size sext scope acquire) := by
  unfold State.loadUnit
  dsimp only
  split
  · exact .next ((keeps_reach.of_pair ‹_›) (h.reach.of_eq ‹_›))
  · have ht := h.reach.of_eq ‹_›
    split
    · exact .next ht.putsOff.leave.fin
    · split
      · exact .next ((keeps_loadNow.of_eq ‹_›) ht.putsOff.settleLines)
      · exact .next (ht.putsOff.settleLines.loadNow.fst ‹_›).wrS.fin

theorem writeNow {m : List (Piece × W64 × W64)} {scope : Option Nat} {pubs : List Pub} (h : s.memWf) : (s.writeNow ps m data scope pubs).memWf := by
  unfold State.writeNow
  split
  · exact h.recordMd.storeAs.l2Ps.setPubs
  · exact h.recordMd.storeAs.l2Ps

theorem sendStore {m : List (Piece × W64 × W64)} {p : Pend} (h : s.memWf) : (s.sendStore m p).memWf := by
  unfold State.sendStore
  split
  split
  · exact (h.putsOff.of_eq ‹_›).recordMd.leave
  · have ht := h.putsOff.of_eq ‹_›
    split
    exact ((ht.pair.iteFst ht.putsOff).of_eq ‹_›).writeNow.when fun h => h.foldl .leave

theorem storeParts {scope : Option Nat} (h : s.memWf) : OutWf (s.storeParts u ps data size scope) := by
  unfold State.storeParts
  dsimp only
  split
  · exact .next h.putsOff.leave.fin
  · split
    · exact .next ((keeps_screen.of_eq ‹_›) h.putsOff)
    · exact .next h.putsOff.sendStore.fin

theorem storeUnit {scope : Option Nat} (h : s.memWf) : OutWf (s.storeUnit u sp ea size scope) := by
  unfold State.storeUnit
  dsimp only
  split
  · exact .next ((keeps_reach.of_pair ‹_›) (h.reach.of_eq ‹_›))
  · exact (h.reach.of_eq ‹_›).storeParts

theorem release {scope : Nat} (h : s.memWf) : (s.release scope).1.memWf := h.publishClose

theorem closedFault {scope : Nat} {f : State → State} (h : s.memWf) (hf : Keeps f) : (s.closedFault scope f).memWf := hf (h.closePath.ite h)

theorem amoNow {own : Option Pub} (h : s.memWf) : OnOk State.memWf (s.amoNow u k ps own) := by
  unfold State.amoNow
  extract_lets s1 sc n x r rel key race begun before
  have h1 : s1.memWf := h.settleLines
  clear_value s1 r
  split
  · exact .error
  · generalize s1.exhausted 1 _ = full
    split
    · exact .error
    · extract_lets s3
      have h3 : s3.memWf := h1.recordMd.takePubs.l2Ps
      clear_value s3
      split
      rename_i s4 pubs e4
      have h4 : s4.memWf := by
        refine .of_fst e4 ?_
        split
        · exact h3.release.pair
        · exact (h3.when .closePath).pair
        · exact h3.pair
        · exact h3.pair
      refine .ok (.wrS ?_)
      split
      · extract_lets s5 s6
        have h6 : s6.memWf := by
          unfold s6
          split
          · exact h4.storeAs.setPubs
          · exact h4.storeAs
        exact h6.ite h6.orVstat
      · exact h4

theorem amoNow_err {own : Option Pub} (h : s.memWf) : OnError State.memWf (s.amoNow u k ps own) := by
  unfold State.amoNow
  dsimp only
  split
  · exact .error ((h.settleLines.closedFault (keeps_screen.of_eq ‹_›)).ite ((keeps_screen.of_eq ‹_›) h.settleLines))
  · split
    all_goals
      split
      · exact .error h.settleLines.raise
      · exact .ok

theorem vfillNow (h : s.memWf) : OnOk State.memWf (s.vfillNow u) := by
  unfold State.vfillNow
  dsimp only
  split
  · exact .ok h
  · split
    · exact .error
    · exact .error
    · exact .ok (h.parkRead.of_eq ‹_›).parkClear.setSpmap.wrV

theorem vfillNow_err (h : s.memWf) : OnError State.memWf (s.vfillNow u) := by
  unfold State.vfillNow
  dsimp only
  split
  · exact .ok
  · split
    · exact .error (h.parkRead.of_eq ‹_›).raiseX
    · exact .error (h.parkRead.of_eq ‹_›).raise
    · exact .ok

theorem perform (h : s.memWf) : OnOk State.memWf (s.perform core st i) := by
  unfold State.perform
  dsimp only
  split
  · exact .ok h
  · split
    · split
      · exact .ok h.settleLines.upd.updAg
      · split
        · exact .error
        · have ht := (h.settleLines.ite h.settleLines.upd).updAg.upd.loadWith.fst ‹_›
          exact .ok ((ht.ite ht.updMe).vldWrite.ite (ht.ite ht.updMe).wrS)
    · split
      · exact .error
      · exact .ok h.recordMd.updAg
    · split
      · exact .error
      · exact .ok h.recordMd.updAg
    · exact h.updAg.upd.amoNow
    · split
      · exact .ok (h.updAg.upd.spillWrite.of_eq ‹_›).count
      · exact .error
    · exact h.updAg.upd.vfillNow

theorem perform_err (h : s.memWf) : OnError State.memWf (s.perform core st i) := by
  unfold State.perform
  dsimp only
  split
  · exact .ok
  · split
    · split
      · exact .ok
      · split
        · exact .error ((keeps_loadWith.of_eq ‹_›) (h.settleLines.ite h.settleLines.upd).updAg.upd)
        · exact .ok
    · split
      · exact .error ((keeps_screen.of_eq ‹_›) h.updAg.upd)
      · exact .ok
    · split
      · exact .error ((keeps_screen.of_eq ‹_›) h.updAg.upd)
      · exact .ok
    · exact h.updAg.upd.amoNow_err
    · split
      · exact .ok
      · exact .error (h.updAg.upd.spillWrite.of_eq ‹_›).dropBlock.setSpmap.raiseX
    · exact h.updAg.upd.vfillNow_err

theorem finishYounger (h : s.memWf) : (State.finishYounger n s core st i).memWf := by
  induction n generalizing s core st i with
  | zero => exact h
  | succ n ih =>
    unfold State.finishYounger
    split
    · exact h
    · split
      · exact ih (h.perform.of_eq ‹_›)
      · exact h

theorem serveAccess (h : s.memWf) : (s.serveAccess core st i).memWf := by
  unfold State.serveAccess
  split
  · exact h.perform.of_eq ‹_›
  · dsimp only
    split
    · split
      · exact h.perform.of_eq ‹_›
      · exact h.perform_err.of_eq ‹_›
    · split
      · exact h.finishYounger.perform.of_eq ‹_›
      · exact h.finishYounger.perform_err.of_eq ‹_›

theorem moveOn (h : s.memWf) : (s.moveOn core st i).memWf := by
  unfold State.moveOn
  split
  · exact h
  · split
    · exact h.serveAccess
    · exact h.performStore.ite (h.upd.performPart.ite h.upd.performStore)
    · exact h.updAg

theorem drain (h : s.memWf) : OutWf s.drain := .next h.notIssued.moveOn

theorem olderFirst {r : State} (h : s.memWf) (hr : r.memWf) : (s.olderFirst core st r).memWf := by
  unfold State.olderFirst
  split
  · exact h.serveAccess
  · exact hr

theorem releaseStore {scope : Nat} (h : s.memWf) : OutWf (s.releaseStore u sp ea size scope) := by
  unfold State.releaseStore
  split
  · split
    · exact .next h.hold
    · exact h.drain
  · split
    · exact .next ((keeps_reach.of_pair ‹_›) (h.reach.of_eq ‹_›))
    · have ht := h.reach.of_eq ‹_›
      split
      · exact .next (ht.closedFault (keeps_screen.of_eq ‹_›))
      · split
        · exact .next ht.raise
        · split
          exact .next (ht.release.of_eq ‹_›).sendStore.fin

theorem amo (h : s.memWf) : OutWf (s.amo u k) := by
  unfold State.amo
  dsimp only
  split
  · split
    · exact .next h.hold
    · exact h.drain
  · split
    · exact .next ((keeps_reach.of_pair ‹_›) (h.reach.of_eq ‹_›))
    · have ht := h.reach.of_eq ‹_›
      split
      · split
        · exact .next (ht.putsOff.release.pair.iteFst ht.putsOff.pair).leave.fin
        · split
          · exact ht.putsOff.drain
          · split
            · exact .next (ht.putsOff.amoNow_err.of_eq ‹_›)
            · exact .next (ht.putsOff.amoNow.of_eq ‹_›).fin
      · dsimp only
        split
        · exact .next (ht.release.pair.iteFst ht.pair).leave.fin
        · split
          · exact ht.drain
          · split
            · exact .next (ht.amoNow_err.of_eq ‹_›)
            · exact .next (ht.amoNow.of_eq ‹_›).fin

theorem execPref_wf (h : s.memWf) : OutWf (execPref u s) := by
  unfold execPref
  refine h.governed_wf fun h => ?_
  split
  · exact .next h.fin
  · have ht := h.translate.of_eq ‹_›
    exact .next (ht.l2Touch.ite ht).fin

theorem execFence_wf (h : s.memWf) : OutWf (execFence u s) := by
  unfold execFence
  split
  · exact .next h.hold
  · dsimp only
    split
    · exact .next h.raise
    · exact .next (h.foldl .joinPub).release.updMe.fin

theorem execFenceXp_wf (h : s.memWf) : OutWf (execFenceXp u s) := by
  unfold execFenceXp
  split
  · exact .next h.hold
  · split
    · exact .next h.raise
    · exact .next h.closePath.fin

theorem consumeBy {ts : List Nat} (h : s.memWf) : (s.consumeBy core st ts).memWf := by
  unfold State.consumeBy
  split
  exact (h.consume.of_eq ‹_›).joinBoth

theorem execTokTest_wf (h : s.memWf) : OutWf (execTokTest u s) := by
  unfold execTokTest
  split
  · exact .next h.priv
  · exact h.scalarDone_wf

theorem execTokAdd_wf (h : s.memWf) : OutWf (execTokAdd u s) := by
  unfold execTokAdd
  split
  · exact .next h.priv
  · split
    · exact .next h.hold
    · split
      · exact h.drain
      · split
        · exact .next h.raise
        · exact .next h.closePath.produce.fin

theorem setArr {a : Nat} {x : Clock × Clock × Nat × Nat} (h : s.memWf) : (s.setArr a x).memWf := h.updMem

theorem arrive {a : Nat} {st : Clock} {scope : Nat} (h : s.memWf) : (s.arrive a n st scope).memWf := by
  unfold State.arrive
  split
  exact h.wrBytes.setArr.ite (h.wrBytes.setArr.ite h.wrBytes.setArr)

theorem execArriveSet_wf (h : s.memWf) : OutWf (execArriveSet u s) := by
  unfold execArriveSet
  dsimp only
  split
  · exact .next h.raiseWin
  · split
    · exact h.drain
    · split
      · exact .next h.putsOff.leave.fin
      · exact .next h.putsOff.writeNow.updMem.fin

theorem takeWord {a : Nat} (h : s.memWf) : (s.takeWord a).memWf := h.takeEdges

theorem joinEpisode {a : Nat} (h : s.memWf) : (s.joinEpisode key a).memWf := by
  unfold State.joinEpisode
  split
  exact h.joinBoth.setRs

theorem execArriveWait_wf (h : s.memWf) : OutWf (execArriveWait u s) := by
  unfold execArriveWait
  split
  · exact .next h.raiseWin
  · split
    · exact .next h.raise
    · dsimp only
      split
      · exact .next h.takeWord.joinEpisode.fin
      · exact .next h.waitOn

theorem setDq {d : DataQ} (h : s.memWf) : (s.setDq core q d).memWf := h.updCore

theorem qSpill (h : s.memWf) : QResWf (s.qSpill c core q) := by
  unfold State.qSpill
  dsimp only
  split
  · split
    · exact .fault (h.spillWrite.of_eq ‹_›).raiseX
    · exact .ok (h.spillWrite.of_eq ‹_›).setDq
  · split
    · exact .wait
    · split
      · exact .fault (h.takeBlock.count.spillWrite.of_eq ‹_›).raiseX
      · exact .ok (h.takeBlock.count.spillWrite.of_eq ‹_›).setDq

theorem qPushOp (h : s.memWf) : QResWf (s.qPushOp c core q v) := by
  unfold State.qPushOp
  dsimp only
  split
  · split
    · exact .fault h.raise
    · exact .ok h.publish.setDq
  · split
    · have ht := h.qSpill.of_ok ‹_›
      split
      · exact .fault ht.raise
      · exact .ok ht.publish.setDq
    · exact h.qSpill

theorem qTake {remove : Bool} (h : s.memWf) : QResWf (s.qTake core q remove) := by
  unfold State.qTake
  dsimp only
  split
  · split
    · exact .fault (h.spillRead.of_eq ‹_›).raiseX
    · exact .fault h.raise
    · have ht := h.spillRead.of_eq ‹_›
      split
      · refine .ok ?_
        split
        · exact ht.joinPub.ite ht
        · exact ht
      · refine .ok (.setDq ?_)
        split
        · refine .foldl ?_ .dropBlock
          split
          · exact ht.joinPub.ite ht
          · exact ht
        · split
          · refine .dropBlock ?_
            split
            · exact ht.joinPub.ite ht
            · exact ht
          · split
            · exact ht.joinPub.ite ht
            · exact ht
  · split
    · exact .wait
    · split
      · refine .ok (.setDq ?_)
        split
        · exact h.joinPub.ite h
        · exact h
      · refine .ok ?_
        split
        · exact h.joinPub.ite h
        · exact h

theorem queueOp (h : s.memWf) : OutWf (s.queueOp minor u) := by
  unfold State.queueOp
  dsimp only
  split
  · split
    · exact .next h.wrongAgent
    · split
      · exact .next h.priv
      · split
        · exact h.drain
        · split
          · exact .next (h.qPushOp.of_fault ‹_›)
          · exact .next h.waitOn
          · exact .next (h.qPushOp.of_ok ‹_›).fin
  · split
    · exact .next h.wrongAgent
    · split
      · exact .next h.priv
      · split
        · exact h.drain
        · split
          · exact .next (h.qTake.of_fault ‹_›)
          · exact .next h.waitOn
          · have ht := h.qTake.of_ok ‹_›
            exact .next (ht.wrP.ite ht.wrS).fin

theorem rewake (h : s.memWf) : (s.rewake core st).memWf := by
  unfold State.rewake
  dsimp only
  split
  · exact h.setAg.upd
  · exact h.setAg

theorem execArriveWaitComplete_wf (h : s.memWf) : OutWf (execArriveWaitComplete core st s) := by
  unfold execArriveWaitComplete
  split
  · exact .next h
  · split
    · dsimp only
      split
      · exact .next h.rewake.raise
      · exact .next h.rewake.takeWord.joinEpisode.fin.loopEnd
    · exact .next h.rewake.takeWord.joinEpisode.fin.loopEnd
    · exact .next h

theorem execQueueWaitResume_wf (h : s.memWf) : OutWf (execQueueWaitResume core st s) := by
  unfold execQueueWaitResume
  split
  · exact .next h
  · dsimp only
    split
    · exact .next (h.rewake.queueOp.of_eq ‹_›).loopEnd
    · exact h.rewake.queueOp

theorem moveDue (h : s.memWf) : (s.moveDue core st i).memWf := h.moveOn.ite h

theorem execStoreLeave_wf {place : Nat} (h : s.memWf) : OutWf (execStoreLeave core place s) := by
  unfold execStoreLeave
  dsimp only
  split
  · exact .next h
  · exact .next h.moveDue

theorem execLoadDataReturn_wf (h : s.memWf) : OutWf (execLoadDataReturn core st k s) := by
  unfold execLoadDataReturn
  dsimp only
  split
  · exact .next h
  · exact .next h.moveDue

/-! ### Vector -/

theorem vecDone {r : List (W32 × W64)} {l : Nat} (h : s.memWf) : OutWf (s.vecDone u r l) := .next h.orVstat.wrV.fin

theorem vecTwo {f : How → Nat → Nat → Res} (h : s.memWf) : OutWf (s.vecTwo w64 u f) := h.vecDone

theorem vecOne {f : How → Nat → Res} {l : Nat} (h : s.memWf) : OutWf (s.vecOne w64 u f l) := h.vecDone

theorem wrFlags {mask : W64} {r : List (W32 × W64)} {l : Nat} (h : s.memWf) : (s.wrFlags u mask r l).memWf := h.wrP

theorem vecArith {op : Nat} (h : s.memWf) : OutWf (s.vecArith w64 u op) := (h.wrFlags.ite h).vecDone

theorem vecFma (h : s.memWf) : OutWf (s.vecFma w64 u) := h.vecDone

theorem vecBroadcast (h : s.memWf) : OutWf (s.vecBroadcast w64 u) := h.vecDone

theorem execVmovsExt_wf (h : s.memWf) : OutWf (execVmovsExt u s) := by
  unfold execVmovsExt
  split
  · exact h.scalarDone_wf
  · exact .next h.fin

theorem vecSpecial {fn : Nat} (h : s.memWf) : OutWf (s.vecSpecial w64 u fn) := (h.wrFlags.ite h).vecDone

theorem vecLevel (h : s.memWf) : OutWf (s.vecLevel w64 u) := h.vecDone

theorem vecMove {f : Nat → List (List W32) → List (List W32)} {l : Nat} (h : s.memWf) : OutWf (s.vecMove w64 u f l) := h.vecDone

theorem vecReduce {cols : Bool} (h : s.memWf) : OutWf (s.vecReduce w64 cols u) := h.orVstat.vecDone

theorem vecScan {cols : Bool} (h : s.memWf) : OutWf (s.vecScan w64 cols u) := h.orVstat.vecDone

theorem vecReduceAll (h : s.memWf) : OutWf (s.vecReduceAll w64 u) := by
  unfold State.vecReduceAll
  dsimp only
  exact h.flagDone_wf

theorem keeps_bxTile {ty : Nat} {f : Fld} : OnError Keeps (s.bxTile u ty f k acc) := by
  unfold State.bxTile
  dsimp only
  split
  · exact .error .raiseWin
  · split
    · exact .error .raiseWin
    · exact .ok

theorem execVcvtBxQuantise_wf (h : s.memWf) : OutWf (execVcvtBxQuantise u s) := by
  unfold execVcvtBxQuantise
  split
  · exact h.drain
  · dsimp only
    split
    · exact .next ((keeps_bxTile.of_eq ‹_›) h)
    · split
      · exact .next ((keeps_screen.of_eq ‹_›) h)
      · exact .next h.writeNow.orVstat.fin

theorem execVcvtBxDequantise_wf (h : s.memWf) : OutWf (execVcvtBxDequantise u s) := by
  unfold execVcvtBxDequantise
  dsimp only
  split
  · exact .next ((keeps_bxTile.of_eq ‹_›) h)
  · split
    · exact h.drain
    · split
      · exact .next ((keeps_loadNow.of_eq ‹_›) h.settleLines)
      · exact (h.settleLines.loadNow.fst ‹_›).vecDone

theorem reachRuns {l : List (W64 × Nat)} (h : s.memWf) : (s.reachRuns sp acc l off).1.memWf := by
  induction l generalizing s off with
  | nil => exact h.pair
  | cons a l ih =>
    unfold State.reachRuns
    split
    · exact (h.reach.of_eq ‹_›).pair
    · split <;> exact ((ih (h.reach.of_eq ‹_›)).of_eq ‹_›).pair

theorem keeps_reachRuns {l : List (W64 × Nat)} : OnError Keeps (s.reachRuns sp acc l off).2 := by
  induction l generalizing s off with
  | nil => exact .ok
  | cons a l ih =>
    unfold State.reachRuns
    split
    · exact .error (keeps_reach.of_pair ‹_›)
    · split
      · exact .error (ih.of_pair ‹_›)
      · exact .ok

theorem execVld_wf (h : s.memWf) : OutWf (execVld u s) := by
  unfold execVld
  dsimp only
  split
  · exact .next ((keeps_reachRuns.of_pair ‹_›) (h.reachRuns.of_eq ‹_›))
  · have ht := h.reachRuns.of_eq ‹_›
    split
    · exact .next (ht.putsOff.when .updMe).leave.fin
    · split
      · exact .next ((keeps_loadNow.of_eq ‹_›) ht.putsOff.settleLines)
      · exact .next (ht.putsOff.settleLines.loadNow.fst ‹_›).vldWrite.fin

theorem execVst_wf (h : s.memWf) : OutWf (execVst u s) := by
  unfold execVst
  split
  · exact .next ((keeps_reachRuns.of_pair ‹_›) (h.reachRuns.of_eq ‹_›))
  · exact (h.reachRuns.of_eq ‹_›).storeParts

theorem vspill (h : s.memWf) : OutWf (s.vspill u) := by
  unfold State.vspill
  extract_lets c core st n v was t
  clear_value was
  have ht : t.memWf := by
    unfold t
    split
    · exact h.parkClear.setSpmap
    · exact h
  clear_value t
  split
  · exact h.drain
  · split
    · exact .next h.spillQ
    · split
      · exact .next h.putsOff.takeBlock.setSpmap.leave.fin
      · split
        · refine .next (.raiseX ?_)
          split
          · exact h.access
          · exact h
        · have ht := ht.parkWrite.of_eq ‹_›
          refine .next (.fin (.setSpmap ?_))
          split
          · exact (ht.putsOff.ite ht).count
          · exact ht

theorem vfill (h : s.memWf) : OutWf (s.vfill u) := by
  unfold State.vfill
  split
  · exact h.drain
  · split
    · exact .next h.putsOff.leave.fin
    · split
      · exact .next (h.putsOff.vfillNow.of_eq ‹_›).fin
      · exact .next (h.putsOff.vfillNow_err.of_eq ‹_›)
    · split
      · exact .next (h.vfillNow.of_eq ‹_›).fin
      · exact .next (h.vfillNow_err.of_eq ‹_›)

/-! ### Bookings -/

theorem updRec {f : Booking → Booking} (h : s.memWf) : (s.updRec k f).memWf := h.upd

/-! ### Work -/

theorem newId (h : s.memWf) : s.newId.1.memWf := h.upd.pair

theorem addInfl {up : Bool} (h : s.memWf) : (s.addInfl c up).memWf := h.foldl .setCw

theorem progress (h : s.memWf) : (s.progress c).memWf := h.updCtx

theorem setRec {p : Nat} {l : List W64} (h : s.memWf) : (s.setRec c p l).memWf := h.updCtx

theorem setRecSt {p : Nat} (h : s.memWf) : (s.setRecSt c p st).memWf := h.updCtx

theorem dropPlace {p : Nat} (h : s.memWf) : (s.dropPlace c p).memWf := h.updCtx.ite h.updCtx.dropBlock

theorem rasSpillAll (h : s.memWf) : (s.rasSpillAll core st n).1.memWf := by
  induction n generalizing s with
  | zero => exact h.pair
  | succ n ih =>
    unfold State.rasSpillAll
    split
    · exact h.pair
    · split
      · exact h.pair
      · exact ih (h.rasSpill.of_eq ‹_›).updAg

theorem release3 (h : s.memWf) : (s.release3 core st).1.memWf := by
  unfold State.release3
  dsimp only
  exact h.publishClose.capEpoch

theorem park {waits : List W64} (h : s.memWf) : (s.park core st pc waits).1.memWf := by
  unfold State.park
  dsimp only
  split
  · exact h.pair
  · split
    · exact h.pair
    · split
      · exact (h.rasSpillAll.of_eq ‹_›).pair
      · have ht := h.rasSpillAll.of_eq ‹_›
        split
        · exact ht.pair
        · split
          · exact ht.pair
          · have hu := ht.spillWrite.of_eq ‹_›
            exact (hu.takeBlock.ite hu).setRec.release3.clearParked.setAg.count.updCore.pair

theorem deal {l : Nat} (h : s.memWf) : (s.deal l clk).memWf := by
  unfold State.deal
  split
  · exact h
  · exact h.ite (h.foldl .updCore).upd

theorem writeDone {entry : Option W64} {code handle : Nat} (h : s.memWf) : (s.writeDone c entry code handle).memWf := by
  unfold State.writeDone
  split
  · exact h
  · exact h.bookWrite

theorem updTask {f : Task → Task} (h : s.memWf) : (s.updTask k f).memWf := h.upd

theorem retireTask {t : Task} {code : Nat} (h : s.memWf) : (s.retireTask k t code).memWf := by
  unfold State.retireTask
  dsimp only
  split
  · refine .produceFor (.upd ?_)
    split
    · exact h.writeDone.updTask
    · exact h.writeDone.ite h.writeDone.addInfl
  · refine .upd ?_
    split
    · exact h.writeDone.updTask
    · exact h.writeDone.ite h.writeDone.addInfl

theorem settleTasks (h : s.memWf) : (State.settleTasks n s).memWf := by
  induction n generalizing s with
  | zero => exact h
  | succ n ih =>
    unfold State.settleTasks
    split
    · refine (ih ?_)
      split
      · exact h.updTask.deal
      · exact h.updTask
    · split
      · exact ih h.retireTask
      · exact h

theorem settled (h : s.memWf) : s.settled.memWf := h.settleTasks

theorem launchCheck {l : Nat} (h : s.memWf) : (s.launchCheck l).memWf := by
  unfold State.launchCheck
  split
  · exact h.upd.settled.ite h
  · exact h

theorem itemOver {launch : Nat} {handler : Bool} {place : Option Nat} {ras : List Nat} (h : s.memWf) :
    (s.itemOver c launch handler place ras clk).memWf := by
  unfold State.itemOver
  split
  · split
    · exact h.dropPlace.foldl .dropBlock
    · dsimp only
      split
      · exact h.dropPlace.foldl .dropBlock
      · exact (h.dropPlace.foldl .dropBlock).upd.updTask.launchCheck
  · split
    · exact h.foldl .dropBlock
    · dsimp only
      split
      · exact h.foldl .dropBlock
      · exact (h.foldl .dropBlock).upd.updTask.launchCheck

theorem exitThread (h : s.memWf) : (s.exitThread core st).memWf := by
  unfold State.exitThread
  split
  dsimp only
  split
  · exact (h.release3.of_eq ‹_›).clearParked.setAg.progress.itemOver
  · exact (h.release3.of_eq ‹_›).clearParked.setAg.progress

theorem dropCont {k : Cont} (h : s.memWf) : (s.dropCont k).memWf := h.progress.itemOver

theorem haltSide (h : s.memWf) : (s.haltSide core st).memWf := by
  unfold State.haltSide
  dsimp only
  split
  · exact h.publish.capEpoch.setAg.foldl .dropBlock
  · split
    · exact h.publish.capEpoch.setAg.foldl .dropBlock
    · exact (h.publish.capEpoch.setAg.foldl .dropBlock).upd.updTask.launchCheck

theorem joinStart {k : Cont} (h : s.memWf) : (s.joinStart core st k).memWf := h.joinBoth.joinBoth.ite h.joinBoth.joinBoth.setRs

theorem startSides {k : Cont} (h : s.memWf) : (s.startSides core k).memWf := by
  unfold State.startSides
  split
  · exact h
  · exact h.ite (h.upd.foldl fun h => h.setAg.joinStart)

theorem startCont {k : Cont} (h : s.memWf) : OnSome State.memWf (s.startCont core st k) := by
  unfold State.startCont
  split
  · split
    · exact .some h.upd.setAg.joinStart
    · exact .some h.upd.setAg.joinStart.startSides
  · split
    · exact .none
    · dsimp only
      split
      · exact .none
      · have ht := h.upd.access.of_eq ‹_›
        split
        · exact .some (ht.freezeCore.ite ht).deliver.dropCont
        · exact .some ht.l2Pieces.setRecSt.setAg.joinStart

theorem openSlot {k : Cont} {l : List Nat} (h : s.memWf) : OnSome FstWf (s.openSlot core k l) := by
  induction l generalizing s with
  | nil => exact .none
  | cons a l ih =>
    unfold State.openSlot
    split
    · exact ih h
    · split
      · exact .some (h.evictBank.of_eq ‹_›).pair
      · exact ih h

theorem startFrom {v : Nat} (h : s.memWf) : (s.startFrom v i core).memWf := by
  unfold State.startFrom
  split
  · exact h
  · split
    · exact h
    · have ht := h.openSlot.fst ‹_›
      dsimp only
      split
      · exact ht.updCore.startCont.of_eq ‹_›
      · exact ht.updCore.updCore

theorem execContinuationTake_wf (h : s.memWf) : OutWf (execContinuationTake core s) := by
  unfold execContinuationTake
  split
  · exact .next h.startFrom
  · exact .next h

theorem execContinuationSteal_wf (h : s.memWf) : OutWf (execContinuationSteal core s) := by
  unfold execContinuationSteal
  split
  · exact .next h.startFrom.count
  · exact .next h

theorem execContinuationReady_wf (h : s.memWf) : OutWf (execContinuationReady core i s) := by
  unfold execContinuationReady
  split
  · exact .next h
  · split
    · exact .next h
    · split
      refine .next (.updCore ?_)
      split
      · exact ((h.pair.foldlFst fun h => h.updRegs.pair).of_eq ‹_›).setRecSt
      · exact (h.pair.foldlFst fun h => h.updRegs.pair).of_eq ‹_›

/-! ### Calendar -/

theorem sendFlit (h : s.memWf) : (s.sendFlit port f).memWf := h.upd

theorem message {dst start dur rcls ridx rsh : Nat} {alt : Option Nat} (h : s.memWf) :
    (s.message port kind dst tag start dur rcls ridx rsh alt).memWf := h.sendFlit

theorem legMsg {x : BStep} {start dur : Nat} (h : s.memWf) : (s.legMsg x kind start dur).memWf := h.message

theorem updStep {f : BStep → BStep} (h : s.memWf) : (s.updStep k i f).memWf := h.updRec

theorem updBlog {f : BlogSt → BlogSt} (h : s.memWf) : (s.updBlog c f).memWf := h.updCtx

theorem diverge {w : Option (List W64)} (h : s.memWf) : (s.diverge c w).memWf := h.updBlog.foldl .trace

theorem logEvent (h : s.memWf) : (s.logEvent kind k).memWf := by
  unfold State.logEvent
  split
  · exact h
  · split
    · exact h.updBlog.ite h.bookWrite.updBlog
    · exact h.ite (h.ite h.diverge)
    · exact h

theorem noFit (h : s.memWf) : (s.noFit k reason).memWf := by
  unfold State.noFit
  split
  · exact h
  · exact h.updRec.ite (h.updRec.updRec.ite (h.updRec.updRec.produceFor.settled.ite (h.updRec.updRec.produceFor.settled.ite h.updRec.upd.updRec)))

theorem unhold (h : s.memWf) : (s.unhold k).memWf := by
  unfold State.unhold
  split
  · exact h
  · exact (h.foldl fun h => h.legMsg.ite h).updRec

theorem holdPlacement {pl : List (Nat × Nat × Nat)} (h : s.memWf) : (s.holdPlacement k pl).memWf := h.foldl .updStep

theorem addFreed {idx : Nat} {slots : List Nat} (h : s.memWf) : (s.addFreed cls idx slots).memWf := h.upd

theorem freeSlots {x : BStep} {slots : List Nat} (h : s.memWf) : (s.freeSlots x slots).memWf := h.foldl .addFreed

theorem freeStep (h : s.memWf) : (s.freeStep k i).memWf := by
  unfold State.freeStep
  split
  · exact h
  · exact ((h.ite h.freeSlots).when .legMsg).updStep

theorem endBooking (h : s.memWf) : (s.endBooking k st).memWf := by
  unfold State.endBooking
  split
  · exact h
  · exact h.updRec.produceFor.settled

theorem retireStep (h : s.memWf) : (s.retireStep k i).memWf := by
  unfold State.retireStep
  dsimp only
  split
  · exact h.freeStep.updStep
  · exact h.freeStep.updStep.progress.when .endBooking

theorem countCmd (h : s.memWf) : (s.countCmd k i clk).memWf := by
  unfold State.countCmd
  dsimp only
  split
  · exact h.updStep.updRec.when .retireStep
  · exact h.updStep.updRec

theorem dropCmds {p : Cmd → Bool} (h : s.memWf) : (s.dropCmds p).memWf := h.upd

theorem cancelBooking (h : s.memWf) : (s.cancelBooking k).memWf := by
  unfold State.cancelBooking
  split
  · exact h
  · exact (h.logEvent.unhold.updRec.foldl .freeStep).dropCmds.endBooking

theorem noteStart (h : s.memWf) : (s.noteStart k).memWf := h.updRec

theorem moveGroup {but : List Nat} {b : Booking} {g : List Nat} {need : Nat} (h : s.memWf) : (s.moveGroup k but b g need).memWf := by
  unfold State.moveGroup
  dsimp only
  split
  · exact h.foldl .freeStep
  · split
    · exact h.foldl .freeStep
    · exact ((h.foldl .freeStep).foldl .updStep).noteStart

theorem reflowOne {set firm : List Nat} (h : s.memWf) : (s.reflowOne set firm k).1.memWf := by
  unfold State.reflowOne
  dsimp only
  split
  · exact h.pair
  · refine (h.pair.foldlFst fun h => ?_).pair
    split
    · exact h
    · split <;> exact (h.moveGroup.pair.iteFst h.pair).pair

theorem reflow {set firm : List Nat} (h : s.memWf) : (s.reflow set firm n).memWf := by
  induction n generalizing s firm with
  | zero => exact h
  | succ n ih =>
    unfold State.reflow
    dsimp only
    exact (h.pair.foldlFst fun h => h.reflowOne.pair).when fun h => (ih h)

theorem reflowed (h : s.memWf) : (s.reflowed k).memWf := h.reflow

theorem addSlip {core : Option Nat} (h : s.memWf) : (s.addSlip k kind core).memWf := by
  unfold State.addSlip
  dsimp only
  split
  · split
    · exact h.updRec.logEvent.count
    · exact h.updRec.logEvent
  · exact h.updRec

theorem missStart (h : s.memWf) : (s.missStart k i).memWf := by
  unfold State.missStart
  split
  · exact h
  · split
    · exact h
    · split
      · exact h.addSlip.freeStep.updStep
      · dsimp only
        split
        · exact h.addSlip.freeStep.updStep
        · exact h.addSlip.freeStep.updStep.updStep.noteStart.reflowed

theorem slip (h : s.memWf) : (s.slip k i).memWf := by
  unfold State.slip
  split
  · exact h
  · split
    · exact h
    · split
      · exact h.addSlip.updStep
      · dsimp only
        split
        · exact h.addSlip.updStep.reflowed
        · split
          · exact h.addSlip
          · exact h.addSlip.updStep.reflowed

theorem commitRec (h : s.memWf) : (s.commitRec k kind).memWf := h.upd.updRec.logEvent.when .reflowed

theorem negotiate (h : s.memWf) : (s.negotiate k kind).memWf := by
  unfold State.negotiate
  split
  · exact h
  · split
    · exact h.ite h.upd.updStep.legMsg
    · exact h.ite (h.foldl .legMsg).updRec.commitRec

theorem search (h : s.memWf) : (s.search k).memWf := by
  unfold State.search
  dsimp only
  split
  · exact h
  · split
    · split
      · split
        · exact h.diverge.noFit
        · exact h.diverge.holdPlacement.negotiate
      · split
        · exact h.updBlog.holdPlacement.negotiate
        · split
          · exact h.diverge.noFit
          · exact h.diverge.holdPlacement.negotiate
    · split
      · exact h.noFit
      · exact h.holdPlacement.negotiate

theorem execBookingSearch_wf {handle : W32} (h : s.memWf) : OutWf (execBookingSearch handle s) := by
  unfold execBookingSearch
  split
  · exact .next h
  · split
    · exact .next h.search
    · exact .next h

theorem execWaitListSearch_wf (h : s.memWf) : OutWf (execWaitListSearch die s) := by
  unfold execWaitListSearch
  dsimp only
  split
  · exact .next h
  · refine .next ?_
    split
    · exact h.updRec.search.ite h.updRec
    · exact h

theorem boundaryBookings (h : s.memWf) : s.boundaryBookings.memWf := by
  unfold State.boundaryBookings
  refine h.foldl fun h => ?_
  split
  · exact h
  · refine h.foldl fun h => ?_
    split
    · exact h
    · exact h.ite (h.missStart.ite (h.slip.ite h))

theorem execBackfill_wf {idx : Nat} (h : s.memWf) : OutWf (execBackfill cls idx s) := by
  unfold execBackfill
  split
  · exact .next h
  · split
    dsimp only
    split
    · exact .next h.upd
    · exact .next h.upd.holdPlacement.commitRec.upd

theorem unplace (h : s.memWf) : (s.unplace k).memWf := by
  unfold State.unplace
  split
  · exact h
  · refine h.unhold.updRec.foldl fun h => ?_
    split
    · exact h.ite h.freeStep.updStep
    · exact h

theorem rewriteAfw (h : s.memWf) : s.rewriteAfw.memWf := h.upd

/-! ### Commands -/

theorem firstFail_wf {l : List (Bool × (State → State))} (h : KeepsAll l) : OnSome Keeps (firstFail l) := by
  induction l with
  | nil => exact .none
  | cons e l ih =>
    obtain ⟨hf, hl⟩ := h
    unfold firstFail
    split
    · exact .some hf
    · exact ih hl

theorem firstFail_keeps {l : List (Bool × (State → State))} {f : State → State} (e : firstFail l = some f) (h : KeepsAll l) : Keeps f :=
  (firstFail_wf h).of_eq e

theorem raiseHandle {dst : Bool} {h1 off : W64} (h : s.memWf) : (s.raiseHandle reason dst h1 off).memWf := h.raise

theorem keeps_handleCheck {h1 off : W64} {dst : Bool} {spans : List (Nat × Nat)} : OnError Keeps (s.handleCheck h1 off len dst spans) := by
  unfold State.handleCheck
  dsimp only
  split
  · exact .error .raiseHandle
  · split
    · exact .error .raise
    · exact .ok

theorem submit {kind : CmdKind} {ctl : W64} {win2 : Win} {pop : Option Nat} {rows : Option (Nat × Nat)} {md : List (Piece × W64 × W64)}
    (h : s.memWf) :
    OutWf (s.submit u kind cls q ctl win2 pop rows md) := by
  unfold State.submit
  extract_lets c core popped into
  have hpop {t : State} (h : t.memWf) : (popped t).memWf := by
    unfold popped
    split
    · exact h.updCore
    · exact h
  have hev : (match rows with | some (r, n) => s.evictRows c core r n | none => (s, Evicted.ok)).1.memWf := by
    split
    · exact h.evictRows
    · exact h
  split
  · exact .next h.raise
  · split
    · extract_lets t
      have ht : t.memWf := hpop (.recordMd (hev.of_eq ‹_›))
      clear_value t into
      split
      · exact .next ht.fin
      · split
        exact .next (ht.newId.of_eq ‹_›).setEq.fin
    · exact .next (.evictFault (hev.of_eq ‹_›))

theorem execFmtPush_wf (h : s.memWf) : OutWf (execFmtPush u s) := by
  unfold execFmtPush
  refine h.governed_wf fun h => ?_
  dsimp only
  split
  · exact .next h.priv
  · split
    · exact .next h.illegal
    · split
      · exact .next h.hold
      · exact .next h.updCore.fin

theorem matrixIssue {sparse : Bool} (h : s.memWf) : OutWf (s.matrixIssue u sparse) := by
  unfold State.matrixIssue
  dsimp only
  split
  · refine .next (firstFail_keeps ‹_› ?_ h)
    exact ⟨.priv, .illegal, .raise, .raiseWin, .raiseWin, .raiseWin, trivial⟩
  · split
    all_goals
      split
      all_goals
        split
        · exact .next h.hold
        · split
          · exact .next h.raiseMmx
          · exact h.submit

theorem execMxZero_wf (h : s.memWf) : OutWf (execMxZero u s) := by
  unfold execMxZero
  refine h.governed_wf fun h => ?_
  dsimp only
  split
  · refine .next (firstFail_keeps ‹_› ?_ h)
    exact ⟨.priv, .illegal, .raise, .raiseWin, trivial⟩
  · split
    · exact .next h.hold
    · exact h.submit

theorem copySubmit {kind : CmdKind} {ctl : W64} {win2 : Win} {rows : Option (Nat × Nat)} (h : s.memWf) :
    OutWf (s.copySubmit u kind q ctl win2 rows) := by
  unfold State.copySubmit
  dsimp only
  split
  all_goals
    split
    · exact .next h.hold
    · exact h.submit

theorem execCpAcc_wf (h : s.memWf) : OutWf (execCpAcc u s) := by
  unfold execCpAcc
  refine h.governed_wf fun h => ?_
  dsimp only
  split
  · refine .next (firstFail_keeps ‹_› ?_ h)
    exact ⟨.priv, .illegal, .raiseWin, .raiseWin, trivial⟩
  · exact h.copySubmit

theorem copyLinear {toMem : Bool} (h : s.memWf) : OutWf (s.copyLinear u toMem) := by
  unfold State.copyLinear
  dsimp only
  split
  · refine .next (firstFail_keeps ‹_› ?_ h)
    exact ⟨.priv, .illegal, trivial⟩
  · split
    · exact .next ((keeps_handleCheck.of_eq ‹_›) h)
    · split
      · exact .next h.raiseWin
      · exact h.copySubmit

theorem execCpX_wf (h : s.memWf) : OutWf (execCpX u s) := by
  unfold execCpX
  refine h.governed_wf fun h => ?_
  dsimp only
  split
  · refine .next (firstFail_keeps ‹_› ?_ h)
    exact ⟨.priv, .illegal, .raiseWin, .raiseWin, .raiseWin, trivial⟩
  · exact h.copySubmit

theorem copyIndexed {scatter : Bool} (h : s.memWf) : OutWf (s.copyIndexed u scatter) := by
  unfold State.copyIndexed
  dsimp only
  split
  · refine .next (firstFail_keeps ‹_› ?_ h)
    exact ⟨.priv, .illegal, trivial⟩
  · split
    · exact .next ((keeps_handleCheck.of_eq ‹_›) h)
    · split
      · refine .next (firstFail_keeps ‹_› ?_ h)
        exact ⟨.raiseWin, .raiseWin, trivial⟩
      · exact h.copySubmit

theorem execCp2d_wf (h : s.memWf) : OutWf (execCp2d u s) := by
  unfold execCp2d
  refine h.governed_wf fun h => ?_
  dsimp only
  split
  · refine .next (firstFail_keeps ‹_› ?_ h)
    exact ⟨.priv, .illegal, trivial⟩
  · split
    · exact .next ((keeps_handleCheck.of_eq ‹_›) h)
    · split
      · exact .next h.raiseWin
      · exact h.copySubmit

theorem execCpSend_wf (h : s.memWf) : OutWf (execCpSend u s) := by
  unfold execCpSend
  refine h.governed_wf fun h => ?_
  dsimp only
  split
  · refine .next (firstFail_keeps ‹_› ?_ h)
    exact ⟨.priv, .illegal, .raiseWin, trivial⟩
  · exact h.copySubmit

theorem execVchain_wf (h : s.memWf) : OutWf (execVchain u s) := by
  unfold execVchain
  dsimp only
  split
  · split
    · exact .next h.priv
    · exact .next ((keeps_lineRead.of_pair ‹_›) (h.lineRead.of_eq ‹_›))
  · have ht := h.lineRead.of_eq ‹_›
    split
    · exact .next ht.illegal
    · split
      · exact .next ht.priv
      · split
        all_goals
          split
          · exact .next h.hold
          · exact .next ht.newId.setEq.fin

/-! ### Engines -/

theorem updCmd {f : Cmd → Cmd} (h : s.memWf) : (s.updCmd core q id f).memWf := h.setEq

theorem engTrap {c : Cmd} {cause : Cause} (h : s.memWf) : (s.engTrap core q c cause cword aux0 aux1).memWf := by
  unfold State.engTrap
  dsimp only
  exact ((h.updCmd.when .freezeCore).captureWords.when .count).deliver

theorem moveCheck {c : Cmd} {src dst : List Piece} (h : s.memWf) : OnOk State.memWf (s.moveCheck core q c src dst) := by
  unfold State.moveCheck
  dsimp only
  split
  · exact .error
  · split
    · exact .error
    · exact .ok h.recordMd.recordMd.settleLines

theorem land {c : Cmd} {dst : List Piece} {bad : Piece → Bool} (h : s.memWf) : (s.land core q c dst data bad).memWf :=
  (h.engUnshadow.foldl fun h => (h.ite h.markPhys).storeOne.when .setPsn).l2Ps

theorem moveBytes {c : Cmd} {src dst : List Piece} (h : s.memWf) : OnOk FstWf (s.moveBytes core q c src dst) := by
  unfold State.moveBytes
  split
  · exact .error
  · exact .ok (h.moveCheck.of_eq ‹_›).l2Ps.land.count.pair

theorem engMmx {c : Cmd} {e : W64 × W64} (h : s.memWf) : (s.engMmx core q c e).memWf := h.engTrap

theorem copyPart {c : Cmd} {p : Nat} (h : s.memWf) : (s.copyPart core q c p).memWf := by
  unfold State.copyPart
  dsimp only
  split
  · exact h.engMmx
  · have ht := h.moveBytes.fst ‹_›
    refine .updCmd ?_
    split
    · exact ht.arrive.ite ht
    · exact ht

theorem accRow {c : Cmd} {j : Nat} {toAcc : Bool} {t : Tile} (h : s.memWf) : (s.accRow core q c j toAcc row t).memWf := by
  unfold State.accRow
  dsimp only
  split
  · exact h.engMmx
  · have ht := h.moveCheck.of_eq ‹_›
    exact (ht.updMem.setRowPsn.ite ht.land).count.updCmd

theorem indexElem {c : Cmd} {scatter : Bool} {h1 : HRange} {data idx es iw : Nat} (h : s.memWf) :
    (s.indexElem core q c k scatter h1 off data idx es iw).memWf := by
  unfold State.indexElem
  dsimp only
  split
  · exact h.engTrap
  · split
    · exact h.engMmx
    · have ht := h.moveCheck.of_eq ‹_›
      split
      · exact ht.engTrap
      · split
        · exact ht.engTrap
        · split
          · exact ht.engMmx
          · exact (ht.moveBytes.fst ‹_›).updCmd

theorem newTag (h : s.memWf) : s.newTag.1.memWf := h.upd.pair

theorem gatherParts {c : Cmd} (h : s.memWf) : (s.gatherParts core q c n).1.memWf := by
  induction n generalizing s with
  | zero => exact h.pair
  | succ n ih =>
    unfold State.gatherParts
    dsimp only
    split
    · exact (ih h).pair
    · split
      · exact (ih h).pair
      · split
        · exact (ih h).pair
        · exact ((ih h).moveCheck.of_eq ‹_›).pair

theorem sendWrite {c : Cmd} {entry chip : Nat} {arv : Bool} {aoff : Nat} {l : List (Nat × Nat × Part)} (h : s.memWf) :
    (s.sendWrite core q c entry port chip clu arv aoff l).memWf := by
  unfold State.sendWrite
  split
  exact (h.newTag.of_eq ‹_›).sendFlit.upd.count.updCmd

theorem copyRemote {c : Cmd} {dw : W64} (h : s.memWf) : (s.copyRemote core q c dw).memWf := by
  have hg : (s.gatherParts core q c 3).1.memWf := h.gatherParts
  unfold State.copyRemote
  dsimp only
  split
  · exact h
  · generalize s.gatherParts core q c 3 = p at *
    obtain ⟨t, l, o⟩ := p
    cases l with
    | nil =>
      cases o with
      | none => exact h
      | some e => exact h.engMmx
    | cons _ _ => exact hg.sendWrite

theorem settleSend {c : Cmd} {e : SendSt} (h : s.memWf) : (s.settleSend core q c e).memWf := by
  unfold State.settleSend
  dsimp only
  split
  · exact h.engMmx
  · exact (h.moveCheck.of_eq ‹_›).land.updCmd

theorem reserve {w : Win} {buf : Nat} (h : s.memWf) : (s.reserve w clu buf len).1.memWf := by
  unfold State.reserve
  split
  · exact h.pair
  · dsimp only
    split
    · exact h.pair
    · exact h.wrBytes.dropPubs.pair

theorem reserveChecked {c : Cmd} {w : Win} {buf : Nat} (h : s.memWf) : OnOk FstWf (s.reserveChecked core q c w clu buf len) := by
  unfold State.reserveChecked
  dsimp only
  split
  · exact .ok h.pair
  · split
    · exact .error
    · exact .ok h.recordMd.settleLines.reserve

theorem sendTo {back c : Cmd} {e : SendSt} (h : s.memWf) : (s.sendTo core q back c e n).memWf := by
  induction n generalizing s e with
  | zero => exact h.settleSend
  | succ n ih =>
    unfold State.sendTo
    dsimp only
    split
    · exact h.newTag.sendFlit.updCmd
    · split
      · exact h.engMmx
      · exact (h.reserveChecked.fst ‹_›).updCmd
      · have ht := h.reserveChecked.fst ‹_›
        exact (ih ht).ite ht.settleSend

theorem execSendEntry_wf (h : s.memWf) : OutWf (execSendEntry e s) := by
  unfold execSendEntry
  dsimp only
  split
  · exact .next h
  · split
    · split
      · exact .next (h.engTrap.ite h)
      · split
        · exact .next (h.engMmx.ite h)
        · have ht := h.moveCheck.of_eq ‹_›
          split
          · exact .next (ht.engTrap.ite h)
          · split
            · exact .next (ht.engTrap.ite h)
            · exact .next ht.sendTo
    · exact .next h

theorem sendPart {c : Cmd} {part : Nat} (h : s.memWf) : (s.sendPart core q c part).memWf := by
  unfold State.sendPart
  dsimp only
  split
  · exact h
  · split
    · exact h.settleSend
    · split
      · exact h.sendTo
      · split
        · split
          · exact h
          · split
            · exact h.engMmx
            · exact (h.moveCheck.of_eq ‹_›).sendWrite
        · split
          · exact h.engMmx
          · have ht := h.moveBytes.fst ‹_›
            exact (ht.arrive.ite ht).settleSend.ite (ht.arrive.ite ht).updCmd

theorem putRows {r : Nat} {vals : List W32} (h : s.memWf) : (s.putRows core r n vals).memWf := h.updMem

theorem spoil {c : Cmd} {f : W64} (h : s.memWf) : (s.spoil core c f).memWf := by
  unfold State.spoil
  split
  exact h.foldl .setRowPsn

theorem readLines {c : Cmd} {l : List Piece} (h : s.memWf) : (s.readLines c l).1.memWf := by
  induction l generalizing s c with
  | nil => exact h.pair
  | cons a l ih => exact (ih h).iteFst ((h.ite h.settleLines).pair.iteFst (ih (h.ite h.settleLines)))

theorem poisoned {c : Cmd} {f cw aux : W64} (h : s.memWf) : (s.poisoned core q c f cw aux).memWf := h.spoil.engTrap

theorem operandLine {c : Cmd} {f : W64} {a b : Tile} (h : s.memWf) : (s.operandLine core q c f a b k).memWf := by
  unfold State.operandLine
  split
  · exact h
  · split
    · exact (h.readLines.of_eq ‹_›).poisoned
    · exact (h.readLines.of_eq ‹_›).updCmd

theorem execMatrixBlockPair_wf (h : s.memWf) : OutWf (execMatrixBlockPair e s) := by
  unfold execMatrixBlockPair
  dsimp only
  split
  · exact .next h
  · split
    · refine .next ?_
      split
      · exact (h.readLines.of_eq ‹_›).poisoned
      · exact (h.readLines.of_eq ‹_›).putRows.updCmd.count.count
    · exact .next h.putRows.updCmd
    · exact .next h

theorem residueFails (h : s.memWf) : (s.residueFails e).memWf := by
  unfold State.residueFails
  split
  · split
    · split
      · exact (h.readLines.of_eq ‹_›).poisoned
      · split
        exact h.ite (h.readLines.of_eq ‹_›).count.spoil.engTrap
    · exact h
  · exact h

theorem startMatrix {c : Cmd} {f : W64} (h : s.memWf) : (s.startMatrix core q c f).memWf := by
  unfold State.startMatrix
  split
  split
  · exact h.poisoned
  · exact h.updCmd

theorem execEngineLineAccess_wf {part : Nat} (h : s.memWf) : OutWf (execEngineLineAccess e part s) := by
  unfold execEngineLineAccess
  split
  · exact .next h
  · refine .next ?_
    split
    · exact h.sendPart
    · exact h.operandLine
    · exact h
    · exact h
    · split
      · exact h.copyRemote
      · split
        · exact h.copyPart
        · exact h
    · split
      · exact h
      · split
        · exact h.accRow
        · exact h.indexElem
        · exact h.copyPart

theorem beginStep {c : Cmd} (h : s.memWf) : (s.beginStep core q c).memWf := by
  unfold State.beginStep
  dsimp only
  split
  · split
    · exact h.updStep.updRec.updCmd
    · exact h.updStep.updRec
  · exact h

theorem execTokWait_wf (h : s.memWf) : OutWf (execTokWait u s) := by
  unfold execTokWait
  dsimp only
  split
  · exact .next h.priv
  · split
    · exact .next h.consumeBy.fin
    · exact .next h.waitOn

theorem execTokWaitConsume_wf (h : s.memWf) : OutWf (execTokWaitConsume core st s) := by
  unfold execTokWaitConsume
  split
  · exact .next h
  · split
    · exact .next h.rewake.consumeBy.fin.loopEnd
    · refine .next (.loopEnd (.fin ?_))
      split
      · exact h.rewake.consumeBy.takeWord.joinEpisode
      · exact h.rewake.consumeBy
    · exact .next h

theorem execEngineCommandStart_wf (h : s.memWf) : OutWf (execEngineCommandStart e s) := by
  unfold execEngineCommandStart
  dsimp only
  split
  · exact .next h
  · split
    · exact .next h
    · split
      · exact .next h
      · split
        · exact .next h.engTrap
        · split
          · refine .next ?_
            split
            · exact h.consume.updCmd.beginStep.startMatrix
            · exact h.consume.updCmd.beginStep
          · exact .next h.consume.updCmd.beginStep

theorem resetOver (h : s.memWf) : (s.resetOver core).memWf := h.ite (h.upd.foldl .produceFor)

theorem execCommandBoundarySuspend_wf (h : s.memWf) : OutWf (execCommandBoundarySuspend e s) := by
  unfold execCommandBoundarySuspend
  split
  · exact .next h
  · dsimp only
    split
    · exact .next h
    · split
      · exact .next h.setEq.resetOver
      · exact .next h.updCmd

theorem countSteps {c : Cmd} (h : s.memWf) : (s.countSteps q c clk).memWf := by
  unfold State.countSteps
  dsimp only
  split
  · refine (h.ite h.countCmd).foldl fun h => ?_
    split
    · exact h.countCmd.ite h
    · exact h
  · exact h

theorem execEngineCommandComplete_wf (h : s.memWf) : OutWf (execEngineCommandComplete e s) := by
  unfold execEngineCommandComplete
  split
  · exact .next h
  · split
    · exact .next h
    · split
      · exact .next h.setEq.updCore.produce
      · exact .next h.setEq.setRs.produce.countSteps

theorem chainPieces {c : Cmd} {z : Nat} {d : List W64} (h : s.memWf) : (s.chainPieces c core k z i d).1.memWf := by
  unfold State.chainPieces
  dsimp only
  split
  · exact h.pair.iteFst h.pair
  · split <;> exact (h.onCore.access.of_eq ‹_›).pair

theorem chainStreams {c : Cmd} {z : Nat} {d : List W64} {l : List Nat} (h : s.memWf) : (s.chainStreams c core z i d l).1.memWf := by
  induction l generalizing s with
  | nil => exact h.pair
  | cons a l ih =>
    unfold State.chainStreams
    split
    · exact (h.chainPieces.of_eq ‹_›).pair
    · split <;> exact ((ih (h.chainPieces.of_eq ‹_›)).of_eq ‹_›).pair

theorem execChainElement_wf (h : s.memWf) : OutWf (execChainElement e s) := by
  unfold execChainElement
  split
  · exact .next h
  · split
    · dsimp only
      split
      · exact .next (h.chainStreams.of_eq ‹_›).engTrap
      · have ht := h.chainStreams.of_eq ‹_›
        split
        · exact .next ht.engTrap
        · split
          · exact .next ht.engTrap
          · exact .next ht.l2Ps.engUnshadow.storeAs.l2Ps.updCmd
    · exact .next h

/-! ### Tasks -/

theorem readRanges (h : s.memWf) : (s.readRanges c va n).1.memWf := by
  unfold State.readRanges
  split
  · exact h.pair
  · split <;> exact (h.bookRead.of_eq ‹_›).pair

theorem readChain (h : s.memWf) : (s.readChain c clu off).1.memWf := by
  unfold State.readChain
  dsimp only
  split
  · exact h.pair
  · split
    · exact h.pair
    · split
      · exact h.pair
      · split
        · exact (h.readRanges.of_eq ‹_›).pair
        · have ht := h.readRanges.of_eq ‹_›
          exact ht.pair.iteFst ht.pair

theorem readHeader (h : s.memWf) : (s.readHeader c w0).1.memWf := by
  unfold State.readHeader
  split
  · exact h.pair
  · split
    · exact (h.bookRead.of_eq ‹_›).pair
    · exact h.bookRead.of_eq ‹_›

theorem parseEntry {w : List W64} (h : s.memWf) : (s.parseEntry c w).1.memWf := by
  unfold State.parseEntry
  split
  · exact h
  · dsimp only
    split
    · exact (h.readHeader.of_eq ‹_›).pair
    · have ht := h.readHeader.of_eq ‹_›
      split
      · split <;> exact (ht.readChain.of_eq ‹_›).pair
      · split <;> exact (ht.readRanges.of_eq ‹_›).pair

theorem takeRec {hdr : W64} {steps : List BStep} {task : Nat} (h : s.memWf) : (s.takeRec k ctx st reason hdr steps task).1.memWf := by
  unfold State.takeRec
  refine .upd ?_
  split
  · exact h.dropCmds.ite h
  · exact h

theorem refuseChain {hdr : Option W64} (h : s.memWf) : (s.refuseChain die c reason hdr).1.memWf := by
  unfold State.refuseChain
  dsimp only
  split
  · refine .produceFor ?_
    split
    · exact h.pair
    · exact h.takeRec
  · split
    · exact h.pair
    · exact h.takeRec

theorem putTask {t : Task} {unit : Bool} {launch : Option (List W64)} {chain : Option (Nat × W64 × List BStep)}
    {dest : Option (Nat × Nat × Nat)} (h : s.memWf) :
    (s.putTask k t unit launch chain dest).memWf := by
  unfold State.putTask
  extract_lets c preds s1 g seq s2 s3
  have h2 : s2.memWf := (h.when .addInfl).updBlog
  have h3 : s3.memWf := by
    unfold s3
    split
    · split
      · exact h2.diverge
      · exact h2
    · exact h2
  clear_value s3
  split
  rename_i t4 lid e4
  have h4 : t4.memWf := by
    refine .of_fst e4 ?_
    split
    · exact h3.pair
    · exact h3.newId.upd.pair
  split
  rename_i t5 hd want e5
  have h5 : t5.memWf := by
    refine .of_fst e5 ?_
    split
    · exact h4.pair
    · split
      · exact h4.pair
      · exact h4.takeRec.pair
  exact h5.upd.settled

theorem landHandle {dest : Option (Nat × Nat × Nat)} {h1 : W32} (h : s.memWf) : (s.landHandle x dest h1).memWf := by
  unfold State.landHandle
  split
  · exact h
  · exact h.updAg.ite h.updAside

theorem giveRecs (h : s.memWf) : (s.giveRecs die).memWf := by
  unfold State.giveRecs
  refine h.foldl fun h => ?_
  dsimp only
  split
  · exact h
  · split
    · exact h
    · split
      · exact h
      · split
        · exact h.refuseChain.upd.landHandle
        · exact h.takeRec.updTask.landHandle

theorem newTask (h : s.memWf) : s.newTask.1.memWf := h.upd.pair

theorem refuseTask {entry : Option W64} {tok : Option (Nat × Nat)} {code : Nat} {h1 : W32} (h : s.memWf) :
    (s.refuseTask c entry tok code h1).memWf := by
  unfold State.refuseTask
  split
  · exact h.writeDone.produceFor
  · exact h.writeDone

theorem queueDesc (h : s.memWf) : (s.queueDesc c q).1.memWf := by
  unfold State.queueDesc
  split
  · exact h.bookRead.of_eq ‹_›
  · exact (h.bookRead.of_eq ‹_›).pair

theorem noteHead {waiting fresh : Bool} (h : s.memWf) : (s.noteHead c q waiting fresh).memWf := h.updCtx.ite (h.ite h.updCtx)

theorem readTail (h : s.memWf) : (s.readTail c q).memWf := by
  unfold State.readTail
  split
  · exact (h.queueDesc.of_eq ‹_›).noteHead
  · exact (h.queueDesc.of_eq ‹_›).updCtx.noteHead

theorem readTails (h : s.memWf) : s.readTails.memWf := h.foldl fun h => (h.foldl .readTail).ite h

theorem advanceHead {w1 : W64} (h : s.memWf) : (s.advanceHead die c q w0 w1).memWf := h.bookWrite.updCtx.upd.noteHead

theorem tryHead (h : s.memWf) : OnSome State.memWf (s.tryHead die c q) := by
  unfold State.tryHead
  split
  · exact .none
  · split
    · exact .none
    · dsimp only
      split
      · exact .none
      · have ht := h.queueDesc.of_eq ‹_›
        have hu := ht.bookRead.of_eq ‹_›
        split
        · have hv := hu.parseEntry.of_eq ‹_›
          refine .some (.advanceHead (.refuseTask ?_))
          split
          · exact hv.upd
          · exact hv
        · have hv := hu.parseEntry.of_eq ‹_›
          refine .some (.advanceHead (.refuseTask (.refuseChain ?_)))
          split
          · exact hv.upd
          · exact hv
        · split
          · exact .none
          · have hv := hu.parseEntry.of_eq ‹_›
            refine .some (.putTask (.advanceHead (.newTask ?_)))
            split
            · exact hv.upd
            · exact hv

theorem tryChild {t : Task} (h : s.memWf) : OnSome State.memWf (s.tryChild die k t) := by
  unfold State.tryChild
  split
  split
  · have ht := h.parseEntry.of_eq ‹_›
    split
    · exact .some ht.upd.updTask.refuseTask
    · dsimp only
      exact .some ht.upd.updTask.refuseChain.refuseTask
    · dsimp only
      split
      all_goals
        split
        · exact .none
        · exact .some (ht.updTask.ite ht).putTask
  · have ht := h.parseEntry.of_eq ‹_›
    split
    · exact .some ht.upd.refuseTask
    · dsimp only
      exact .some ht.upd.refuseChain.refuseTask
    · dsimp only
      split
      all_goals
        split
        · exact .none
        · exact .some (ht.ite ht).putTask

theorem execTaskAdmission_wf (h : s.memWf) : OutWf (execTaskAdmission die s) := by
  unfold execTaskAdmission
  dsimp only
  split
  · exact .next h.giveRecs
  · split
    · exact .next h.giveRecs
    · rename_i t e
      refine .next (.upd ?_)
      split at e
      · cases e
        exact (OnSome.findSome h.giveRecs.tryChild).of_eq ‹_›
      · exact (OnSome.findSome h.giveRecs.tryHead).of_eq e

theorem execPriorityAging_wf (h : s.memWf) : OutWf (execPriorityAging ctx q s) := by
  unfold execPriorityAging
  dsimp only
  split
  · exact .next h.updCtx
  · exact .next h

theorem execTaskExit_wf {y : U} (h : s.memWf) : OutWf (execTaskExit y s) := by
  unfold execTaskExit
  split
  · exact .next h.hold
  · exact .next h.exitThread

theorem execHalt_wf {y : U} (h : s.memWf) : OutWf (execHalt y s) := by
  unfold execHalt
  split
  · exact .next h.hold
  · split
    · exact .next h.haltSide
    · exact .next h.exitThread

theorem execYieldOp_wf (h : s.memWf) : OutWf (execYieldOp u s) := by
  unfold execYieldOp
  dsimp only
  split
  · exact .next h.fin
  · split
    · exact .next h.hold
    · split
      · exact .next h.raise
      · split
        · exact .next (h.park.of_eq ‹_›)
        · exact .next (h.park.of_eq ‹_›).fin

theorem parkOrWait {waits : List W64} {ts : List Nat} {arr : Option (Nat × Nat)} (h : s.memWf) : OutWf (s.parkOrWait u waits ts arr) := by
  unfold State.parkOrWait
  split
  · exact .next (h.park.of_eq ‹_›)
  · have ht := h.park.of_eq ‹_›
    split
    · exact .next ht.fin
    · exact .next ht.waitOn

theorem execTaskSuspend_wf (h : s.memWf) : OutWf (execTaskSuspend u s) := by
  unfold execTaskSuspend
  dsimp only
  split
  all_goals
    split
    · exact .next h.priv
    · split
      all_goals
        split
        · exact .next h.raiseWin
        · split
          · exact .next h.hold
          · split
            · exact .next h.raise
            · exact h.parkOrWait

theorem postEntry {w1 : W64} {ws : List W64} {tok : Option (Nat × Nat)} (h : s.memWf) : OutWf (s.postEntry u q w0 w1 ws tok) := by
  unfold State.postEntry
  dsimp only
  split
  · exact .next (h.access.of_eq ‹_›).raiseX
  · have ht := h.access.of_eq ‹_›
    split
    · exact .next (ht.access.of_eq ‹_›).raiseX
    · have hu := ht.access.of_eq ‹_›
      split
      · exact .next ((keeps_screen.of_eq ‹_›) hu)
      · split
        · exact .next ((keeps_screen.of_eq ‹_›) hu)
        · split
          · exact .next hu.raise
          · refine .next (.fin (.wrS ?_))
            split
            · split
              · exact hu.recordMd.storeAs.release.recordMd.storeAs.setPubs.when .readTail
              · exact hu.recordMd.storeAs.release.recordMd.storeAs.when .readTail
            · split
              · exact hu.recordMd.storeAs.release.recordMd.storeAs.setPubs.newTask.upd.when .readTail
              · exact hu.recordMd.storeAs.release.recordMd.storeAs.newTask.upd.when .readTail

theorem execTaskLaunch_wf (h : s.memWf) : OutWf (execTaskLaunch u s) := by
  unfold execTaskLaunch
  dsimp only
  split
  · exact .next h.illegal
  · split
    · exact .next h.hold
    · split
      · exact .next h.illegal
      · split
        all_goals
          split
          · exact .next h.priv
          · split
            · exact .next h.raiseX
            · split
              · exact .next ((keeps_lineRead.of_pair ‹_›) (h.lineRead.of_eq ‹_›))
              · have ht := h.lineRead.of_eq ‹_›
                split
                · exact .next ((keeps_lineRead.of_pair ‹_›) (ht.lineRead.of_eq ‹_›))
                · have hu := ht.lineRead.of_eq ‹_›
                  split
                  · exact .next hu.illegal
                  · split
                    · exact .next hu.wrS.fin
                    · exact hu.postEntry

theorem execTaskLaunchw_wf (h : s.memWf) : OutWf (execTaskLaunchw u s) := by
  unfold execTaskLaunchw
  dsimp only
  split
  · exact .next h.illegal
  · split
    · exact .next h.priv
    · split
      · exact .next h.hold
      · split
        · exact .next ((keeps_lineRead.of_pair ‹_›) (h.lineRead.of_eq ‹_›))
        · have ht := h.lineRead.of_eq ‹_›
          split
          · exact .next ht.raise
          · refine State.memWf.parkOrWait ?_
            split
            · exact ht.newTask.upd.updTask
            · exact ht.newTask.upd

theorem execContinuationParkTimeout_wf (h : s.memWf) : OutWf (execContinuationParkTimeout core st s) := by
  unfold execContinuationParkTimeout
  dsimp only
  split
  · split
    · exact .next h
    · split
      · exact .next h.updAg
      · split
        · exact .next (h.park.of_eq ‹_›)
        · exact .next (h.park.of_eq ‹_›).updAg
  · exact .next h

/-! ### Stops -/

theorem raiseStop {wd : Bool} (h : s.memWf) : (s.raiseStop c wd).memWf := h.updCtx

theorem mapCmds {f : Cmd → Cmd} (h : s.memWf) : (s.mapCmds xs sel f).memWf := h.upd

theorem takeBlocks (h : s.memWf) : OnSome FstWf (s.takeBlocks x n) := by
  induction n generalizing s with
  | zero => exact .some h
  | succ n ih =>
    unfold State.takeBlocks
    split
    · exact .none
    · exact (ih h.takeBlock).map id

theorem writeBlocks {l : List (Nat × List Byte × List Nat)} (h : s.memWf) : OnSome State.memWf (s.writeBlocks x l) := by
  induction l generalizing s with
  | nil => exact .some h
  | cons a l ih =>
    unfold State.writeBlocks
    split
    · exact ih (h.spillWrite.of_eq ‹_›).spillMark
    · exact .none

theorem unpark (h : s.memWf) : OnSome State.memWf (s.unpark key) := by
  unfold State.unpark
  dsimp only
  split
  · exact .some (h.evictAll.of_eq ‹_›)
  · exact .none

theorem joinStop {c : Clock} (h : s.memWf) : (s.joinStop x c).memWf := h.updCtx

theorem leaveSlot (h : s.memWf) : (s.leaveSlot x key).memWf := by
  unfold State.leaveSlot
  split
  exact (h.release3.of_eq ‹_›).setAg.joinStop

theorem releaseEngines (h : s.memWf) : (s.releaseEngines x sel).memWf := by
  unfold State.releaseEngines
  refine h.foldl fun h => ?_
  split
  exact (h.publishClose.of_eq ‹_›).capEpoch.joinStop

theorem writeRecs (h : s.memWf) : (s.writeRecs x).memWf := h.upd.foldl .spillWrite

theorem saveOne {rows : Bool} (h : s.memWf) : OnSome State.memWf (s.saveOne x sel rows) := by
  unfold State.saveOne
  dsimp only
  split
  · exact .none
  · rename_i hr
    have hr := OnSome.of_eq (OnSome.foldl (.some h) fun ho => ho.bind fun {s} h => ?_) hr
    · split
      · exact .none
      · have hb := hr.takeBlocks.fst ‹_›
        split
        · exact .none
        · have hu := OnSome.of_eq (p := State.memWf) (OnSome.foldl (.some hb) fun ho => ho.bind fun h => h.unpark) ‹_›
          split
          · exact .none
          · exact .some ((hu.writeBlocks.of_eq ‹_›).foldl .leaveSlot).releaseEngines.writeRecs.upd.updCtx
    · split
      · exact .some (h.rasSpillAll.of_eq ‹_›)
      · exact .none

theorem saveAll {rows : Bool} (h : s.memWf) : OnSome State.memWf (s.saveAll xs sel rows) :=
  OnSome.foldl (.some h) fun ho => ho.bind fun h => h.saveOne

theorem ctxRecord {cause : Cause} (h : s.memWf) : (s.ctxRecord c cause cword aux0 aux1).memWf := h.deliver

theorem stopBooking (h : s.memWf) : (s.stopBooking k).memWf := h.unplace.updRec

theorem stopBookings (h : s.memWf) : (s.stopBookings xs).memWf := h.foldl .stopBooking

theorem reResolve {c : Cmd} (h : s.memWf) : (s.reResolve core q c).memWf := by
  unfold State.reResolve
  extract_lets again
  have ha {r : HRange} {off : Nat} {dst : Bool} {put : HRange → CmdKind} : (again r off dst put).memWf := by
    unfold again
    dsimp only
    split
    · exact h
    · split
      · exact h.updCmd
      · exact h.engTrap
  split
  · exact ha
  · exact ha
  · exact ha
  · exact ha
  · exact h

theorem bringCmds (h : s.memWf) : (s.bringCmds x).memWf := h.foldl fun h => h.ite (h.updCtx.foldl fun h => (h.ite h.joinBoth).setEq.foldl .reResolve)

theorem bringAgent {a : Agent} (h : s.memWf) : (s.bringAgent x key a).memWf := by
  unfold State.bringAgent
  split
  · exact h
  · extract_lets
    split
    · exact h
    · have hk := (h.pair.iteFst h.evictBank).of_eq ‹_›
      exact (State.memWf.when (.updCtx hk) .updCore).setAg.joinBoth

theorem dropImage (h : s.memWf) : (s.dropImage x).memWf := (h.foldl .dropBlock).updCtx.ite h

theorem bring (h : s.memWf) : (s.bring x).memWf := h.ite (h.bringCmds.foldl .bringAgent).dropImage

theorem deadStore (h : s.memWf) : (s.deadStore x).memWf := by
  unfold State.deadStore
  dsimp only
  obtain ⟨hb, hs⟩ := h
  refine ⟨hb, ?_⟩
  dsimp only
  exact Memory.keep_wf s.mem.spad _ hs

theorem joinResumed (h : s.memWf) : (s.joinResumed x).memWf := h.foldl .joinBoth

theorem unstop (h : s.memWf) : (s.unstop x).memWf := h.joinResumed.upd.upd

theorem revive (h : s.memWf) : (s.revive x).memWf := by
  unfold State.revive
  split
  · exact h
  · refine .bring (.unstop ?_)
    split
    · exact (h.ite h.deadStore).updCtx
    · exact h

theorem resume (h : s.memWf) : (s.resume c).memWf := h.updCtx.foldl .revive

theorem releaseInPlace (h : s.memWf) : (s.releaseInPlace xs).memWf := by
  unfold State.releaseInPlace
  refine (h.foldl fun h => ?_).foldl .releaseEngines
  split
  exact (h.release3.of_eq ‹_›).joinStop

theorem stopped (h : s.memWf) : (s.stopped c).memWf := h.updCtx.stopBookings

theorem haltSel (h : s.memWf) : (s.haltSel xs sel).memWf := (h.foldl .updAg).mapCmds

theorem execContextStopComplete_wf (h : s.memWf) : OutWf (execContextStopComplete ctx s) := by
  unfold execContextStopComplete
  split
  · exact .next h
  · dsimp only
    split
    · exact .next h.haltSel.moveOn
    · exact .next (h.haltSel.releaseInPlace.foldl .updCtx).stopped.updCtx

theorem saveRecord {room first : Nat} (h : s.memWf) : (s.saveRecord c room first).memWf := h.updCtx.ctxRecord.ite h.ctxRecord

theorem forceAll (h : s.memWf) : (s.forceAll c).memWf := by
  unfold State.forceAll
  dsimp only
  split
  · exact ((h.saveAll.of_eq ‹_›).foldl .updCtx).stopped.saveRecord
  · exact h.releaseInPlace.stopped.saveRecord

theorem forceSides (h : s.memWf) : (s.forceSides c sel).memWf := by
  unfold State.forceSides
  dsimp only
  split
  · exact (h.saveAll.of_eq ‹_›).saveRecord
  · exact h.updCtx.saveRecord

theorem execForcedSave_wf (h : s.memWf) : OutWf (execForcedSave ctx s) := by
  unfold execForcedSave
  dsimp only
  split
  · split
    · exact .next h
    · split
      · exact .next h.updCtx.haltSel.moveOn
      · split
        · exact .next h.updCtx.haltSel
        · exact .next h.updCtx.haltSel.forceAll
  · split
    · exact .next h
    · split
      · exact .next h.updCtx.haltSel.moveOn
      · split
        · exact .next h.updCtx.haltSel
        · exact .next h.updCtx.haltSel.forceSides

theorem execWatchdogExpire_wf (h : s.memWf) : OutWf (execWatchdogExpire ctx s) := by
  unfold execWatchdogExpire
  dsimp only
  split
  · exact .next h.updCtx.raiseStop
  · exact .next h

theorem tickWatchdogs (h : s.memWf) : s.tickWatchdogs.memWf := h.foldl .updCtx

theorem leaveCore {o : Nat} (h : s.memWf) : (s.leaveCore o core).memWf := (h.foldl fun h => h.mapCmds.updCore.ite h.mapCmds.updCore.updAside).updAside

theorem enterCore {t : Nat} (h : s.memWf) : (s.enterCore t core).memWf := h.updCore.updMem.updAside

theorem switchCore {t : Nat} (h : s.memWf) : (s.switchCore t core).memWf := h.ite (h.leaveCore.ite h).enterCore

theorem ownCore (h : s.memWf) : (s.ownCore core).memWf := by
  unfold State.ownCore
  split
  · exact h.ite h.enterCore
  · exact h.ite h.updCore

theorem openWindow {t : Nat} (h : s.memWf) : (s.openWindow t die).memWf := (h.foldl .switchCore).updCtx.foldl fun h => h.unstop.bring

theorem askWindow {t left : Nat} (h : s.memWf) : (s.askWindow t die left).memWf := h.updCtx

theorem sliceStep {t : Nat} (h : s.memWf) : (s.sliceStep t die).memWf := h.ite ((h.openWindow.ite h).when .askWindow)

theorem sliceAll (h : s.memWf) : s.sliceAll.memWf := (h.foldl fun h => h.foldl .sliceStep).foldl fun h => h.ite h.bring

/-! ### Cal -/

theorem bookChain {r : ChainRes} (h : s.memWf) : OutWf (s.bookChain u die r) := by
  unfold State.bookChain
  dsimp only
  split
  · exact h.scalarDone_wf
  · split
    · split
      · exact .next h.newTask.upd.updMe.fin
      · exact h.refuseChain.scalarDone_wf
    · split
      · exact h.scalarDone_wf
      · split
        · refine State.memWf.scalarDone_wf ?_
          exact h.newTask.putTask
        · exact .next h.newTask.putTask.updMe.fin

theorem execCalBook_wf (h : s.memWf) : OutWf (execCalBook u s) := by
  unfold execCalBook
  refine h.governed_wf fun h => ?_
  dsimp only
  split
  all_goals
    split
    · exact .next h.raiseWin
    · exact h.readChain.bookChain

theorem execCalCancel_wf (h : s.memWf) : OutWf (execCalCancel u s) := by
  unfold execCalCancel
  refine h.governed_wf fun h => ?_
  dsimp only
  split
  · exact .next h.fin
  · split
    · exact .next h.priv
    · split
      · exact .next h.fin
      · exact .next h.cancelBooking.fin

theorem execCalQueryStatus_wf (h : s.memWf) : OutWf (execCalQueryStatus u s) := by
  unfold execCalQueryStatus
  refine h.governed_wf fun h => ?_
  split
  · exact h.scalarDone_wf
  · split
    · exact .next h.priv
    · exact h.scalarDone_wf

theorem execCalQuerySlot_wf (h : s.memWf) : OutWf (execCalQuerySlot u s) := by
  unfold execCalQuerySlot
  refine h.governed_wf fun h => ?_
  dsimp only
  split
  · exact .next h.illegal
  · split
    · exact .next h.priv
    · split <;> exact h.scalarDone_wf

theorem setPoint (h : s.memWf) : s.setPoint.memWf := h.upd.ite (h.upd.ite h)

theorem syncPorts (h : s.memWf) : s.syncPorts.memWf := by
  unfold State.syncPorts
  split
  · exact h
  · refine h.foldl fun h => ?_
    split
    · exact h
    · exact h.sendFlit

theorem calRevokes (h : s.memWf) : s.calRevokes.memWf := by
  unfold State.calRevokes
  refine h.foldl fun h => ?_
  split
  · exact h.updCtx.upd.ite h
  · exact h

theorem execSlotBoundary_wf (h : s.memWf) : OutWf (execSlotBoundary s) := by
  unfold execSlotBoundary
  split
  · exact .next h
  · exact .next h.upd.setPoint.calRevokes.boundaryBookings.sliceAll.readTails.tickWatchdogs.rewriteAfw.syncPorts

theorem execOfferLapse_wf (h : s.memWf) : OutWf (execOfferLapse id s) := by
  unfold execOfferLapse
  split
  · split
    · exact .next h.upd
    · exact .next h
  · exact .next h

theorem refuseStep {alt : Option Nat} (h : s.memWf) : (s.refuseStep k i alt).memWf := by
  unfold State.refuseStep
  dsimp only
  split
  · split
    · exact h.unhold.updRec.noFit
    · split
      · exact h.unhold.updRec.updRec.when .search
      · exact h.unhold.updRec.updRec
  · exact h.unhold.updRec.noFit

theorem execPrepareTimeout_wf (h : s.memWf) : OutWf (execPrepareTimeout tag s) := by
  unfold execPrepareTimeout
  split
  · split
    · split
      · exact .next h.refuseStep
      · exact .next h
    · exact .next h
  · exact .next h

/-! ### Return -/

theorem execHandlerStart_wf (h : s.memWf) : OutWf (execHandlerStart ctx s) := by
  unfold execHandlerStart
  dsimp only
  split
  · exact .next h
  · split
    · exact .next h
    · split
      · exact .next h
      · exact .next h.heldWords.updTrap.updCore

theorem execPendingRecordWrite_wf (h : s.memWf) : OutWf (execPendingRecordWrite ctx s) := by
  unfold execPendingRecordWrite
  dsimp only
  split
  · exact .next h
  · split
    · exact .next (h.placeRecord.of_eq ‹_›).updTrap.received
    · exact .next h
    · have ht := h.placeRecord.of_eq ‹_›
      exact .next (ht.updTrap.hstatPush.ite ht.updTrap.deliver)

theorem execTrapAck_wf (h : s.memWf) : OutWf (execTrapAck u s) := by
  unfold execTrapAck
  split
  · exact .next h.priv
  · exact .next (h.ite h.updTrap).updMe.fin

theorem recordAt (h : s.memWf) : (s.recordAt va).1.memWf := by
  unfold State.recordAt
  split
  · exact (h.access.of_eq ‹_›).pair
  · have ht := h.access.of_eq ‹_›
    split
    · exact ht.pair
    · exact ht.l2Pieces.pair

theorem keeps_recordAt : OnError Keeps (s.recordAt va).2 := by
  unfold State.recordAt
  split
  · exact .error .raiseX
  · split
    · exact .error .raise
    · exact .ok

theorem heldSet {h1 : Held} (h : s.memWf) : (s.heldSet h1).1.memWf := by
  unfold State.heldSet
  split
  · exact (h.recordAt.of_eq ‹_›).pair
  · have ht := h.recordAt.of_eq ‹_›
    split
    · exact ht.pair
    · split <;> exact (ht.recordAt.of_eq ‹_›).pair

theorem keeps_heldSet {h1 : Held} : OnError Keeps (s.heldSet h1).2 := by
  unfold State.heldSet
  split
  · exact .error (keeps_recordAt.of_pair ‹_›)
  · split
    · exact .ok
    · split
      · exact .error (keeps_recordAt.of_pair ‹_›)
      · exact .ok

theorem freeEntries {l : List W64} (h : s.memWf) : (s.freeEntries c l).memWf := h.foldl .spillWrite

theorem freeCaptures {w : List W64} (h : s.memWf) : (s.freeCaptures w).memWf := h.foldl .dropBlock

theorem capUnit {w : List W64} (h : s.memWf) : (s.capUnit x w).1.memWf := by
  unfold State.capUnit
  extract_lets f iw one
  have hone {y : State × List CapOp} {k : Nat} (h : y.1.memWf) : (one y k).1.memWf := by
    unfold one
    split
    · exact h
    · split <;> exact (h.spillRead.of_eq ‹_›).pair
    · exact h
  have hops : ((List.range 4).foldl one (s, [])).1.memWf := h.pair.foldlFst hone
  generalize (List.range 4).foldl one (s, []) = p at hops ⊢
  dsimp only
  split
  · exact hops.pair
  · split
    · exact hops.pair
    · split <;> exact (hops.spillRead.of_eq ‹_›).pair
  · exact hops.pair

theorem replayOf {w : List W64} {mask : Nat} (h : s.memWf) : (s.replayOf w mask).1.memWf := by
  unfold State.replayOf
  refine h.pair.foldlFst fun h => ?_
  split
  exact (h.capUnit.of_eq ‹_›).pair

theorem resumeAgent {cause : Nat} {e : List W64} {caps : List Cap} (h : s.memWf) : (s.resumeAgent x core st cause e caps).memWf := by
  unfold State.resumeAgent
  dsimp only
  split
  · exact h.updAg
  · split
    · exact h.updCtx
    · exact h

theorem resumeEngine {cause : Nat} {e : List W64} {fatal : Bool} (h : s.memWf) : (s.resumeEngine x core st cause e fatal).memWf := by
  unfold State.resumeEngine
  dsimp only
  split
  · exact h.setEq
  · exact h.updCtx

theorem thaw {w : List W64} (h : s.memWf) : (s.thaw x core w).memWf := h.ite (h.foldl .updAg).updCore

theorem returnTo {w : List W64} {mask : Nat} (h : s.memWf) : (s.returnTo w mask).memWf := by
  unfold State.returnTo
  split
  · dsimp only
    exact ((h.updCtx.ite h).resumeAgent.ite (h.updCtx.ite h).resumeEngine).when .thaw
  · dsimp only
    exact ((h.updCtx.ite h).replayOf.resumeAgent.ite (h.updCtx.ite h).resumeEngine).when .thaw

theorem endHandler {h1 : Held} (h : s.memWf) : (s.endHandler h1).memWf := (h.ite h.updTrap).exitThread

theorem execTrapRet_wf (h : s.memWf) : OutWf (execTrapRet u s) := by
  unfold execTrapRet
  dsimp only
  split
  · exact .next h.illegal
  · split
    · exact .next h.priv
    · split
      · exact .next h.hold
      · split
        · exact .next (keeps_heldSet.of_pair ‹_› (h.heldSet.of_eq ‹_›))
        · have ht := h.heldSet.of_eq ‹_›
          refine .next (.endHandler (.freeEntries (.when ?_ .freeCaptures)))
          split
          · exact ht
          · exact (ht.stopCtx.when fun h => h.hstatPush.ite h.deliver).ite ((ht.updTrap.ite ht).ite (ht.updTrap.ite ht).returnTo)

theorem execTrapReflect_wf {y : U} (h : s.memWf) : OutWf (execTrapReflect y s) := by
  unfold execTrapReflect
  split
  · exact .next h.priv
  · split
    · exact .next h.hold
    · split
      · exact .next ((keeps_heldSet.of_pair ‹_›) (h.heldSet.of_eq ‹_›))
      · have ht := h.heldSet.of_eq ‹_›
        refine .next (.endHandler ?_)
        split
        · exact ht.freeEntries.hstatPush
        · exact ht.freeEntries.deliver
        · exact ht.freeEntries.deliverSet

theorem execSyscall_wf (h : s.memWf) : OutWf (execSyscall u s) := by
  unfold execSyscall
  split
  · exact .next h.priv
  · exact .next h.fin.trap

/-! ### Migrate -/

theorem updDirty {f : DirtySt → DirtySt} (h : s.memWf) : (s.updDirty c f).memWf := h.updCtx

theorem writeSt {ilen : Nat} (h : s.memWf) : (s.writeSt c st ilen).memWf := h.devWrite.updDirty

theorem readLog (h : s.memWf) : (s.readLog c).1.memWf := by
  unfold State.readLog
  split
  · exact (h.devRead.of_eq ‹_›).pair
  · exact h.devRead.of_eq ‹_›

theorem refuseLog (h : s.memWf) : (s.refuseLog c).memWf := h.updDirty.writeSt

theorem fillMap {w : List W64} (h : s.memWf) : (s.fillMap c w).memWf := by
  unfold State.fillMap
  dsimp only
  split
  · exact h.devWrite
  · split
    · exact (h.devWrite.devRead.of_eq ‹_›).devWrite
    · exact h.devWrite.devRead.of_eq ‹_›

theorem dirtyWrite (h : s.memWf) : (s.dirtyWrite v).memWf := by
  unfold State.dirtyWrite
  dsimp only
  split
  · exact h
  · split
    · exact h.updDirty.refuseLog
    · split
      · exact h.refuseLog
      · split
        · split
          · exact h
          · split
            · exact (h.updDirty.readLog.of_eq ‹_›).refuseLog
            · exact (h.updDirty.readLog.of_eq ‹_›).updDirty
        · split
          · split
            · exact (h.updDirty.readLog.of_eq ‹_›).refuseLog
            · exact (h.updDirty.readLog.of_eq ‹_›).updDirty.writeSt.when .raiseStop
          · split
            · split
              · exact (h.updDirty.readLog.of_eq ‹_›).refuseLog
              · exact (h.updDirty.readLog.of_eq ‹_›).fillMap.updDirty.writeSt
            · exact h.updDirty.when fun h => h.updDirty.when .writeSt

theorem endLog (h : s.memWf) : (s.endLog c).memWf := h.updDirty

theorem publishExport (h : s.memWf) : (s.publishExport c).memWf := by
  unfold State.publishExport
  split
  · exact (h.access.of_eq ‹_›).setPubs
  · exact h

theorem execExportComplete_wf (h : s.memWf) : OutWf (execExportComplete ctx s) := by
  unfold execExportComplete
  split
  · exact .next h
  · dsimp only
    split
    · exact .next h.writeSt.endLog
    · exact .next h.devWrite.devMark.writeSt.publishExport.endLog

theorem startCarried (h : s.memWf) : (s.startCarried x).memWf := (h.foldl fun h => h.ite h.updCtx).foldl fun h => h.returnTo.freeCaptures

/-! ### Context -/

theorem chargePages {path : List Nat} {old new : Nat} (h : s.memWf) : (s.chargePages path old new).memWf := h.foldl .setCw

theorem execCtxCreate_wf (h : s.memWf) : OutWf (execCtxCreate u s) := by
  unfold execCtxCreate
  refine h.governed_wf fun h => ?_
  dsimp only
  split
  · exact .next h.illegal
  · split
    · have ht := h.lineRead.of_eq ‹_›
      exact .next (ht.priv.ite ((keeps_lineRead.of_pair ‹_›) ht))
    · have ht := h.lineRead.of_eq ‹_›
      split
      · exact .next ht.illegal
      · split
        · exact .next ht.priv
        · split
          · split
            · exact ht.scalarDone_wf
            · exact ht.chargePages.setCtx.scalarDone_wf
          · exact ht.scalarDone_wf

theorem execCtxQuery_wf (h : s.memWf) : OutWf (execCtxQuery u s) := by
  unfold execCtxQuery
  refine h.governed_wf fun h => ?_
  dsimp only
  split
  all_goals
    split
    · exact .next h.priv
    · exact h.scalarDone_wf

theorem permBooking (h : s.memWf) : (s.permBooking k).memWf := by
  unfold State.permBooking
  split
  · exact h
  · exact (h.unhold.foldl .freeStep).dropCmds.updRec.endBooking

theorem redoBookings {gone : Nat → Nat → Bool} (h : s.memWf) : (s.redoBookings xs gone).memWf := by
  unfold State.redoBookings
  refine h.foldl fun h => ?_
  split
  · exact h
  · exact h.ite (h.permBooking.ite (h.unplace.updRec.ite h))

theorem dropTlb {p : TlbE → Bool} {q : Nat → Nat → Bool} (h : s.memWf) : (s.dropTlb p q).memWf := h.upd

theorem ringOf {d : DataQ} (h : s.memWf) : (s.ringOf d).1.memWf := by
  unfold State.ringOf
  dsimp only
  refine (h.pair.foldlFst fun h => ?_).foldl .dropBlock
  split <;> exact (h.spillRead.of_eq ‹_›).pair

theorem joinQ {old new : DataQ} (h : s.memWf) : (s.joinQ old new).1.memWf := by
  unfold State.joinQ
  split
  · exact h.pair
  · split
    exact (h.ringOf.of_eq ‹_›).pair

theorem addCore {k f : Core} (h : s.memWf) : (s.addCore k f).1.memWf := by
  unfold State.addCore
  refine h.pair.foldlFst fun h => ?_
  split
  exact (h.joinQ.of_eq ‹_›).pair

theorem giveCore {f : Core} (h : s.memWf) : (s.giveCore x core f).memWf := by
  unfold State.giveCore
  split
  · dsimp only
    exact h.addCore.updAside
  · split
    exact (h.addCore.of_eq ‹_›).upd

theorem takeCore {on : Nat → Bool} (h : s.memWf) : (s.takeCore x core on).1.memWf := h.updAside.pair.iteFst h.updCore.pair

theorem rewaitCont {dst : Nat} {on : Nat → Bool} {k : Cont} (h : s.memWf) : (s.rewaitCont frm dst on k).1.memWf := by
  unfold State.rewaitCont
  split
  · exact h.pair.iteFst h.spillWrite.pair
  · exact h.pair.iteFst h.pair

theorem rewaitAll {dst : Nat} {on : Nat → Bool} (h : s.memWf) : (s.rewaitAll x frm dst on).memWf := by
  unfold State.rewaitAll
  refine h.foldl fun h => ?_
  dsimp only
  exact ((h.pair.foldlFst fun h => (h.rewaitCont.iteFst h.pair).pair).pair.foldlFst fun h => (h.rewaitCont.iteFst h.pair).pair).updCore

theorem moveCont {dst : Nat} {k : Cont} (h : s.memWf) : (s.moveCont frm dst k).1.memWf := by
  unfold State.moveCont
  split
  · exact h
  · refine .spillWrite ?_
    split
    · exact (h.spillRead.of_eq ‹_›).spillWrite
    · exact h.spillRead.of_eq ‹_›

theorem moveConts {dst : Nat} {l : List Cont} (h : s.memWf) : (s.moveConts frm dst l).1.memWf := by
  unfold State.moveConts
  refine h.pair.foldlFst fun h => ?_
  split
  exact (h.moveCont.of_eq ‹_›).pair

theorem rekey {dst : Nat} {agent : Nat → Bool} {cmd : Nat → Cmd → Bool} (h : s.memWf) : (s.rekey x frm dst agent cmd).memWf := h.ite h.updAside.upd

theorem takeConts (h : s.memWf) : (s.takeConts x core).1.memWf := h.updCore

theorem putConts {dst : Nat} {dq wt : List Cont} (h : s.memWf) : (s.putConts frm dst dq wt).memWf := by
  unfold State.putConts
  split
  split
  exact ((h.moveConts.of_eq ‹_›).moveConts.of_eq ‹_›).updCore

theorem moveOff {on : Nat → Bool} (h : s.memWf) : (s.moveOff x core on).memWf := by
  unfold State.moveOff
  split
  · dsimp only
    split
    · exact h.rekey.rewaitAll
    · split
      · exact h.rekey.rewaitAll.takeConts.putConts
      · exact h.rekey.rewaitAll.takeConts.ite h.rekey.rewaitAll.takeConts.updAside
  · dsimp only
    split
    · exact h
    · split
      · exact h.takeConts.putConts
      · exact h.takeConts.ite h.takeConts.updAside

theorem dropSides {sides : List (Nat × Nat)} (h : s.memWf) : (s.dropSides x sides).memWf := by
  unfold State.dropSides
  dsimp only
  refine h.pair.foldlFst (fun h => h.takeCore.pair) |>.foldl (fun h => h.foldl .setCw) |>.foldl .ownCore |>.foldl (fun h => ?_)
    |>.foldl (fun h => h.foldl .moveOff) |>.updCtx |>.redoBookings |>.foldl .bring
  split
  · exact h.giveCore
  · exact h.addCore.updAside

theorem putWin {w : Win} (h : s.memWf) : (s.putWin x clu w).memWf := by
  unfold State.putWin
  split
  split
  exact (h.ite h.updMem).updCtx

theorem rootCap (h : s.memWf) : (s.rootCap clu).memWf := h.updCtx

theorem setWin {base lim cap : Nat} (h : s.memWf) : (s.setWin x clu base lim cap).memWf := (h.putWin.foldl fun h => h.putWin.ite h).rootCap

theorem beginJob {j : Job} (h : s.memWf) : (s.beginJob j).memWf := by
  unfold State.beginJob
  split
  · exact h.upd.upd
  · exact h.upd.setCw.when .setCw
  · exact h.upd.when .raiseStop
  · exact h.upd.setCw
  · exact h.upd.setCw
  · exact h.upd.updCtx.ite (h.upd.when .redoBookings)
  · exact h.upd.when .raiseStop
  · exact h.upd.ite h.upd.dropTlb.upd
  · exact h.upd.dropTlb.upd
  · exact h.upd.upd
  · exact h.upd

theorem kick (h : s.memWf) : s.kick.memWf := by
  unfold State.kick
  refine h.foldl fun h => ?_
  split
  · exact h.beginJob.ite h
  · exact h

theorem removeTree (h : s.memWf) : (s.removeTree x).memWf := by
  unfold State.removeTree
  dsimp only
  split
  · refine ((h.foldl fun h => ?_).foldl .setCw).chargePages.upd.dropTlb.upd.foldl .rootCap
    split
    · exact (h.unhold.foldl .freeStep).updRec.ite h
    · exact h
  · refine (((h.foldl fun h => ?_).foldl .setCw).chargePages.upd.dropTlb.upd.foldl .rootCap).settled
    split
    · exact (h.unhold.foldl .freeStep).updRec.ite h
    · exact h

theorem applyJob {j : Job} (h : s.memWf) : (s.applyJob j).memWf := by
  unfold State.applyJob
  split
  · exact (h.foldl fun h => h.setCw.setCw).dropTlb
  · exact h.foldl .setCw
  · split
    exact h.setWin
  · exact h.upd
  · exact h.dropSides.ite h
  · exact h
  · exact h
  · exact h
  · exact h
  · exact h.removeTree

theorem endJob {j : Job} (h : s.memWf) : (s.endJob j).memWf := h.applyJob.upd.produceFor.kick

theorem completeJob {p : JobKind → Bool} (h : s.memWf) : OutWf (s.completeJob id p) := by
  unfold State.completeJob
  split
  · split
    · exact .next h.endJob
    · exact .next h
  · exact .next h

theorem execRevocationComplete_wf (h : s.memWf) : OutWf (execRevocationComplete id s) := h.completeJob

theorem execTlbInvComplete_wf (h : s.memWf) : OutWf (execTlbInvComplete id s) := h.completeJob

theorem execHandleInvComplete_wf (h : s.memWf) : OutWf (execHandleInvComplete id s) := h.completeJob

theorem execDestroyComplete_wf (h : s.memWf) : OutWf (execDestroyComplete id s) := h.completeJob

theorem startJob {kind : JobKind} {tok : Nat} {cmds : List Nat} {prep : State → State} (h : s.memWf) (hprep : Keeps prep) :
    OutWf (s.startJob u kind x tok cmds prep) := by
  unfold State.startJob
  split
  · exact .next h.raise
  · split
    split
    refine .next (.fin ?_)
    split
    · exact (hprep ((h.publish.of_eq ‹_›).newId.of_eq ‹_›).upd).kick.when .endJob
    · exact (hprep ((h.publish.of_eq ‹_›).newId.of_eq ‹_›).upd).kick

theorem granting {ok : Nat → Bool} {f : State → Nat → State} (h : s.memWf) (hf : ∀ {t : State} {y : Nat}, t.memWf → (f t y).memWf) :
    OutWf (s.granting u kind ok f) := by
  unfold State.granting
  dsimp only
  split
  · exact .next h.priv
  · split
    · exact .next h.hold
    · exact .next (hf h).fin

theorem execCtxGrantSet_wf (h : s.memWf) : OutWf (execCtxGrantSet u s) := by
  unfold execCtxGrantSet
  refine h.governed_wf fun h => ?_
  dsimp only
  split
  all_goals
    split
    · exact .next h.priv
    · exact .next ((h.setCw.when .chargePages).when .updCtx).fin

theorem clearSide {d : Nat} (h : s.memWf) : (s.clearSide core d).memWf := h.updCore.updMem

theorem settleOn {dst : Nat} (h : s.memWf) : (s.settleOn x dst).memWf := by
  unfold State.settleOn
  refine ((h.foldl fun h => h.rekey.updAside.giveCore.putConts.rewaitAll).foldl fun h => ?_).bring
  split
  · exact h.deal.ite h
  · exact h

theorem clearSideFor {d : Nat} (h : s.memWf) : (s.clearSideFor x core d).memWf := h.updAside.ite h.clearSide

theorem grantSides {sides : List (Nat × Nat)} (h : s.memWf) : (s.grantSides x sides).memWf := by
  unfold State.grantSides
  dsimp only
  split
  · exact (h.foldl fun h => h.setCw.ite h.setCw.updCore).foldl .clearSideFor
  · exact ((h.foldl fun h => h.setCw.ite h.setCw.updCore).foldl .clearSideFor).settleOn

theorem raiseLimit {word hi lo : Nat} (h : s.memWf) : OutWf (s.raiseLimit u kind word hi lo) := by
  unfold State.raiseLimit
  exact h.granting .setCw

theorem execCtxGrantSpad_wf (h : s.memWf) : OutWf (execCtxGrantSpad u s) := by
  unfold execCtxGrantSpad
  refine h.governed_wf fun h => ?_
  dsimp only
  exact h.granting fun h => ((h.ite h.zeroBytes.updMem).ite ((h.ite h.zeroBytes.updMem).ite (h.ite h.zeroBytes.updMem).zeroBytes.updMem)).setWin

theorem execCtxGrantRun_wf (h : s.memWf) : OutWf (execCtxGrantRun u s) := h.governed_wf fun h => h.granting fun h => h.startCarried.resume.ite h

theorem revoking {ok : Nat → Bool} (h : s.memWf) : OutWf (s.revoking u kind ok) := by
  unfold State.revoking
  dsimp only
  split
  · exact .next h.priv
  · exact h.startJob id

theorem execCtxRevokeSpad_wf (h : s.memWf) : OutWf (execCtxRevokeSpad u s) := by
  unfold execCtxRevokeSpad
  refine h.governed_wf fun h => ?_
  split
  exact h.revoking

theorem execCtxDestroy_wf (h : s.memWf) : OutWf (execCtxDestroy u s) := by
  unfold execCtxDestroy
  refine h.governed_wf fun h => ?_
  dsimp only
  split
  · exact .next h.priv
  · exact h.startJob .updCtx

/-! ### Import -/

theorem importCtx {m : Image} (h : s.memWf) : (s.importCtx x order m i).memWf :=
  (h.foldl .setCw).chargePages.updTrap.ite ((h.setCtx.foldl .setCw).foldl fun h => h.foldl fun h => h.setCw.ite h).setCw.setCw.setCw.setCw.chargePages

theorem claim {y : Nat} {l : List Nat} (h : s.memWf) : (s.claim y l).memWf := h.updCtx

theorem readAgent {y cause : Nat} (h : s.memWf) : (s.readAgent y st cause bs).1.memWf := h.pair.iteFst h.upd.claim.pair

theorem importAgents {cs : List Nat} {m : Image} {sts : List Nat} (h : s.memWf) : (s.importAgents order cs m sts size).memWf := by
  unfold State.importAgents
  refine h.foldl fun h => ?_
  dsimp only
  split
  · exact (h.readAgent.of_eq ‹_›).updAside
  · exact h.readAgent.of_eq ‹_›

theorem readQueue {w : List W64} (h : s.memWf) : (s.readQueue x w q).1.memWf := h.claim

theorem importCore {b : List Byte} (h : s.memWf) : (s.importCore x core b).memWf := by
  unfold State.importCore
  dsimp only
  exact (h.pair.foldlFst fun h => h.readQueue.pair).giveCore.updRegs.updCore

theorem importCmd {m : Image} {hs : List Nat} {b : List Byte} (h : s.memWf) : (s.importCmd x m hs b).memWf := by
  unfold State.importCmd
  split
  exact (h.newId.of_eq ‹_›).updAside

theorem importBook {b : List Byte} (h : s.memWf) : (s.importBook x b).1.memWf := by
  unfold State.importBook
  dsimp only
  split
  · exact h.pair
  · exact (h.takeRec.updRec.when fun h => h.updRec.endBooking).pair

theorem importCounters {y : Nat} {b : List Byte} (h : s.memWf) : (s.importCounters y core b).memWf := h.foldl .updCtx

theorem importCont {cs : List Nat} {b : List Byte} (h : s.memWf) : (s.importCont order cs b).memWf := by
  unfold State.importCont
  dsimp only
  split
  · exact h.claim
  · exact (h.claim.when .takeBlock).spillWrite.updCore

theorem importStream {cs : List Nat} {w : List W64} (h : s.memWf) : (s.importStream x order cs w).memWf := by
  unfold State.importStream
  split
  · exact h.claim.updCtx
  · split
    · dsimp only
      exact (h.heldWords.spillWrite.spillWrite.claim.when .updCtx).updTrap
    · dsimp only
      exact h.heldWords.spillWrite.spillWrite.claim.when .updCtx

theorem freshLines (h : s.memWf) : (s.freshLines x).memWf := h.updMem

theorem importRows {side : Nat} {marks : List Byte} (h : s.memWf) : (s.importRows x core side bs marks).memWf := h.updAside.ite h.updMem

theorem importImage {m : Image} (h : s.memWf) : (s.importImage x m).memWf := by
  unfold State.importImage
  dsimp only
  exact h.foldl .importCtx |>.foldl (fun h => h.devWrite.ite h) |>.importAgents |>.importAgents |>.foldl .importCore
    |>.pair |>.foldlFst (fun h => h.importBook.pair) |>.foldl .importCmd |>.foldl .importCounters
    |>.foldl (fun h => h.wrBytes.foldl .setPsn) |>.foldl .importRows |>.foldl .importCont |>.foldl .importStream
    |>.foldl .freshLines |>.foldl .updCtx |>.updCtx

theorem execImportComplete_wf (h : s.memWf) : OutWf (execImportComplete ctx s) := by
  unfold execImportComplete
  split
  · exact .next h
  · dsimp only
    split
    · exact .next h.writeSt.endLog
    · exact .next h.importImage.writeSt.endLog

/-! ### System -/

theorem tlbInv (h : s.memWf) : OutWf (State.tlbInv u s) := by
  unfold State.tlbInv
  refine h.governed_wf fun h => ?_
  dsimp only
  split
  · exact .next h.illegal
  · split
    all_goals
      split
      all_goals
        split
        · exact .next h.priv
        · split <;> exact h.startJob id

theorem forgetDest (h : s.memWf) : (s.forgetDest core st).memWf := h.upd

theorem resetSlot {rq : Bool} (h : s.memWf) : (s.resetSlot core st rq).memWf := by
  unfold State.resetSlot
  dsimp only
  split
  · exact h
  · split
    · exact h.forgetDest.exitThread
    · refine .updCore ?_
      split
      · exact (h.forgetDest.closePath.capEpoch.foldl .dropBlock).claim.clearParked.setAg.setRecSt
      · exact (h.forgetDest.closePath.capEpoch.foldl .dropBlock).claim.clearParked.setAg

theorem resetDeque (h : s.memWf) : (s.resetDeque core).memWf := by
  unfold State.resetDeque
  refine (h.foldl fun h => ?_).foldl fun h => ?_
  · split
    · exact h
    · dsimp only
      exact h.updCore.moveCont.updCore
  · split
    · exact h
    · dsimp only
      exact h.updCore.moveCont.updCore

theorem resetCore {rq : Bool} (h : s.memWf) : (s.resetCore core rq).memWf := by
  unfold State.resetCore
  extract_lets s1 s2 hit s3 fed s4 drop s5 s6 s7 s8 s9 acc psn
  have h3 : s3.memWf := (h.foldl .resetSlot).resetDeque.foldl .cancelBooking
  have h6 : s6.memWf := (h3.foldl fun h => h.updStep.ite h).updCore.foldl fun h => h.haltSide.ite h
  have h8 : s8.memWf := (h6.foldl fun h => h.foldl .dropBlock).updCore
  exact h8.upd.updMem

theorem execCoreReset_wf (h : s.memWf) : OutWf (execCoreReset u s) := by
  unfold execCoreReset
  refine h.governed_wf fun h => ?_
  dsimp only
  split
  · exact .next h.illegal
  · split
    · exact .next h.priv
    · exact h.startJob fun h => h.resetCore.settled

/-! ### Csr -/

theorem keeps_csrGate : OnSome Keeps (s.csrGate n) := by
  unfold State.csrGate
  dsimp only
  split
  · exact .some .wrongAgent
  · split
    · exact .some .priv
    · split
      all_goals
        split
        · exact .some .priv
        · exact .none

theorem csrTouched (h : s.memWf) : (s.csrTouched n).memWf := h.updCtx.ite h

theorem wrVstat (h : s.memWf) : (s.wrVstat v).memWf := h.updMe

theorem wrChkreg (h : s.memWf) : (s.wrChkreg v).memWf := h.ite h.putWin

theorem wrAccfree (h : s.memWf) : CsrResWf (s.wrAccfree v) := by
  unfold State.wrAccfree
  dsimp only
  split
  · exact .done h
  · split
    · exact .done (h.evictAll.of_eq ‹_›).updCore
    · exact .stop (h.evictAll.of_eq ‹_›).evictFault

theorem forgetRaces {ten : Nat → Bool} (h : s.memWf) : (s.forgetRaces ten).memWf := h.updMem

theorem wrChkreset (h : s.memWf) : (s.wrChkreset v).memWf := h.ite h.forgetRaces.updMem.updCtx

theorem wrBlog (h : s.memWf) : (s.wrBlog v).memWf := h.ite (h.updBlog.updBlog.ite (h.updBlog.when .updBlog))

theorem wrBcmbase (h : s.memWf) : (s.wrBcmbase v).memWf := by
  unfold State.wrBcmbase
  dsimp only
  split
  · exact (h.updDbg.devRead.of_eq ‹_›).dbgOff
  · have ht := h.updDbg.devRead.of_eq ‹_›
    split
    · exact (ht.updDbg.devRead.of_eq ‹_›).dbgOff
    · exact (ht.updDbg.devRead.of_eq ‹_›).updDbg

theorem wrHsem (h : s.memWf) : CsrResWf (s.wrHsem n v) := by
  unfold State.wrHsem
  dsimp only
  split
  · exact .done (h.foldl .joinPub).upd.semServed
  · split
    · split
      · exact .wait
      · split
        · exact .stop h.raise
        · exact .done h.release.updMem.semServed
    · exact .done h.semServed

theorem wrPmc (h : s.memWf) : (s.wrPmc n v).memWf := h.updCtx

theorem wrPmsel (h : s.memWf) : (s.wrPmsel k v).memWf := h.updCtx

theorem wrTrapmode (h : s.memWf) : (s.wrTrapmode v).memWf := h.updTrap

theorem csrWrite (h : s.memWf) : CsrResWf (s.csrWrite n v) := by
  unfold State.csrWrite
  split
  · exact .done h.updTrap
  · exact .done h.wrTrapmode
  · exact .done h.updTrap
  · exact .done h.wrVstat
  · exact .done h.updMe
  · exact .done h.updMe
  · exact .done h.updCore
  · exact .done h.updCore
  · exact .done h.wrChkreg
  · exact h.wrAccfree
  · exact .done h.wrChkreset
  · exact .done h.wrBlog
  · exact .done h.dirtyWrite
  · exact .done h.wrBcmbase
  · split
    · exact .done h.wrIset
    · split
      · exact h.wrHsem
      · split
        · exact .done h.wrPmsel
        · split
          · exact .done h.wrPmc
          · exact .done h

theorem csrRead (h : s.memWf) : OutWf (s.csrRead u) := by
  unfold State.csrRead
  refine h.governed_wf fun h => ?_
  split
  · exact .next ((keeps_csrGate.of_eq ‹_›) h)
  · exact h.csrTouched.scalarDone_wf

theorem csrStore {f : State → W64 → CsrRes} (h : s.memWf) (hf : ∀ {t : State} {y : W64}, t.memWf → CsrResWf (f t y)) : OutWf (s.csrStore u f) := by
  unfold State.csrStore
  refine h.governed_wf fun h => ?_
  split
  · exact .next ((keeps_csrGate.of_eq ‹_›) h)
  · split
    · exact .next ((hf h).of_done ‹_›).fin
    · exact .next ((hf h).of_stop ‹_›)
    · exact .next h.hold

theorem execCsrSwap_wf (h : s.memWf) : OutWf (execCsrSwap u s) := by
  unfold execCsrSwap
  refine h.governed_wf fun h => ?_
  split
  · exact .next ((keeps_csrGate.of_eq ‹_›) h)
  · split
    · exact (h.csrTouched.csrWrite.of_done ‹_›).scalarDone_wf
    · exact .next (h.csrTouched.csrWrite.of_stop ‹_›)
    · exact .next h.hold

theorem execChkresetDone_wf (h : s.memWf) : OutWf (execChkresetDone ctx s) := by
  unfold execChkresetDone
  split
  · exact .next h.updCtx
  · exact .next h

/-! ### Errors -/

theorem execMemoryErrorDetect_wf {p : Place} (h : s.memWf) : OutWf (execMemoryErrorDetect p s) := by
  unfold execMemoryErrorDetect
  split
  · exact .next h.setPsn
  · exact .next (h.setPsn.ite h)
  · exact .next (h.setRowPsn.ite h)

theorem bookingLost (h : s.memWf) : (s.bookingLost k).memWf := by
  unfold State.bookingLost
  split
  · exact h
  · exact h.ite h.cancelBooking.deliver

theorem execStructureError_wf {x : Struct} (h : s.memWf) : OutWf (execStructureError x s) := by
  unfold execStructureError
  dsimp only
  split
  · exact .next h.upd
  · exact .next h.upd
  · split
    · exact .next h.setPsn
    · exact .next h.upd
  · split
    · exact .next h.bookingLost
    · exact .next h
  · split
    · exact .next h.bookingLost
    · exact .next h

theorem execLineFill_wf (h : s.memWf) : OutWf (execLineFill ctx va s) := by
  unfold execLineFill
  split
  · exact .next h
  · dsimp only
    split
    · exact .next h
    · split
      · exact .next h
      · exact .next (h.translate.of_eq ‹_›).l2Touch.upd

/-! ### Host -/

theorem reply {status : Nat} (h : s.memWf) : (s.reply port status data).memWf := h.upd

theorem frame {err : List Byte} {f : State → State} (h : s.memWf) (hf : Keeps f) : OutWf (s.frame port err f) := by
  unfold State.frame
  split
  · exact .next h
  · split
    · exact .next h.reply
    · exact .next (hf h)

theorem wrFeatacc (h : s.memWf) : (s.wrFeatacc v).memWf := h.ite h.upd

theorem ackHstat (h : s.memWf) : (s.ackHstat v).memWf := by
  unfold State.ackHstat
  split
  · exact h.upd.showHstat.ite h
  · exact h

theorem wrFxcfg (h : s.memWf) : (s.wrFxcfg k v).memWf := h.upd

theorem winWrite {o : Nat} (h : s.memWf) : (s.winWrite o v).memWf := h.wrFeatacc.ite (h.ackHstat.ite (h.wrFxcfg.ite (h.upd.ite h)))

theorem extStore (h : s.memWf) : (s.extStore ps data).memWf :=
  h.engUnshadow.foldl fun h => h.storeOne.externalWrite.ite h.storeOne.externalWrite.l2Touch

theorem execRead_wf (h : s.memWf) : OutWf (execRead port addr len s) := by
  unfold execRead
  exact h.frame fun h => h.reply.ite (h.reply.ite (h.reply.ite (h.foldl .l2Touch).reply))

theorem hostWrite (h : s.memWf) : OutWf (s.hostWrite port addr data) :=
  h.frame fun h => h.reply.ite ((h.foldl .winWrite).reply.ite (h.reply.ite h.extStore.reply))

theorem execSpwrite_wf {arv : Bool} {aoff : Nat} (h : s.memWf) : OutWf (execSpwrite port clu off data arv aoff s) := by
  unfold execSpwrite
  refine h.frame fun h => ?_
  dsimp only
  split
  · exact h.reply
  · split
    · exact h.reply
    · refine .reply ?_
      split
      · exact h.extStore.foldl .arrive
      · exact h.extStore

theorem putSem {w : W64} (h : s.memWf) : (s.putSem n w).memWf := h.upd

theorem semReply (h : s.memWf) : (s.semReply port n).memWf := h.reply

theorem later {i : Instr} (h : s.memWf) : (s.later i).memWf := h.upd

theorem execSemAcq_wf (h : s.memWf) : OutWf (execSemAcq port n s) :=
  h.frame fun h => h.reply.ite (h.semServed.putSem.semReply.ite h.semServed.semReply)

theorem execSemRel_wf {data : W32} (h : s.memWf) : OutWf (execSemRel port n data s) :=
  h.frame fun h => h.reply.ite (h.semServed.updMem.putSem.semReply.ite h.semServed.semReply)

theorem execFeataccWrite_wf (h : s.memWf) : OutWf (execFeataccWrite v s) := by
  unfold execFeataccWrite
  split
  · exact .next h
  · exact .next h.wrFeatacc

theorem execHstatAck_wf (h : s.memWf) : OutWf (execHstatAck v s) := by
  unfold execHstatAck
  split
  · exact .next h
  · exact .next h.ackHstat

/-! ### Fabric -/

theorem answer {w1 w2 : W64} (h : s.memWf) : (s.answer k f kind w0 w1 w2).memWf := h.sendFlit

theorem receive {act : State → State} (h : s.memWf) (hact : Keeps act) : OutWf (s.receive k kind f act) := by
  unfold State.receive
  split
  · exact .next h
  · split
    · exact .next (h.answer.ite h)
    · exact .next (hact h)

theorem execFxcfgWrite_wf (h : s.memWf) : OutWf (execFxcfgWrite k v s) := by
  unfold execFxcfgWrite
  split
  · exact .next h.wrFxcfg
  · exact .next h

theorem setSlot {peer slot cyc : Nat} (h : s.memWf) : (s.setSlot peer slot cyc).memWf := h.upd

theorem execFabricPortTrained_wf {slot cyc : Nat} (h : s.memWf) : OutWf (execFabricPortTrained k slot cyc s) := by
  unfold execFabricPortTrained
  dsimp only
  split
  · exact .next h
  · split
    · exact .next h.upd
    · split
      · exact .next h.upd.setSlot
      · exact .next h.upd

theorem execFabricPortLost_wf (h : s.memWf) : OutWf (execFabricPortLost k s) := by
  unfold execFabricPortLost
  split
  · exact .next h.upd.hstatPush
  · exact .next h

theorem execSlotsync_wf (h : s.memWf) : OutWf (execSlotsync k f s) := by
  unfold execSlotsync
  refine h.receive fun h => ?_
  split
  · exact h
  · exact h.ite (h.setSlot.ite (h.upd.ite (h.upd.ite h)))

theorem putPart {x : Part} (h : s.memWf) : (s.putPart ps x).memWf := h.extStore.when fun h => h.foldl .setPsn

theorem execFabricWrite_wf (h : s.memWf) : OutWf (execFabricWrite k f s) := by
  unfold execFabricWrite
  refine h.receive fun h => (h.foldl fun h => ?_).answer
  split
  · exact h.putPart.arrive
  · exact h.putPart

theorem refusalDue (h : s.memWf) : (s.refusalDue core q id).memWf := by
  unfold State.refusalDue
  split
  · exact h
  · split
    · exact h
    · exact h.ite h.engTrap

theorem ackCopy {c : Cmd} {l : List ((Nat × Nat) × Bool)} (h : s.memWf) : (s.ackCopy core q c l).memWf := h.updCmd

theorem ackSend {c : Cmd} {l : List ((Nat × Nat) × Bool)} (h : s.memWf) : (s.ackSend core q c n l).memWf := by
  unfold State.ackSend
  split
  · exact h
  · exact h.settleSend.ite h.updCmd

theorem execWack_wf (h : s.memWf) : OutWf (execWack k f s) := by
  unfold execWack
  refine h.receive fun h => ?_
  dsimp only
  split
  · exact h
  · split
    · exact h.upd
    · exact (h.upd.ackCopy.ite h.upd.ackSend).refusalDue

theorem execSendreq_wf (h : s.memWf) : OutWf (execSendreq k f s) := by
  unfold execSendreq
  refine h.receive fun h => ?_
  dsimp only
  split
  · exact (h.reserve.of_eq ‹_›).answer
  · have ht := h.reserve.of_eq ‹_›
    refine .answer ?_
    split
    · exact ht.foldl .externalWrite
    · exact ht

theorem execRaccept_wf (h : s.memWf) : OutWf (execRaccept k f s) := by
  unfold execRaccept
  refine h.receive fun h => ?_
  split
  · exact h
  · exact h.updCmd

theorem execRfull_wf (h : s.memWf) : OutWf (execRfull k f s) := by
  unfold execRfull
  refine h.receive fun h => ?_
  split
  · exact h
  · exact h.sendTo.ite h.settleSend

theorem execOffer_wf (h : s.memWf) : OutWf (execOffer k f s) := by
  unfold execOffer
  refine h.receive fun h => ?_
  split
  · split
    · exact h.updStep.negotiate
    · exact h
  · exact h

theorem lateRefuse (h : s.memWf) : (s.lateRefuse tag).memWf := by
  unfold State.lateRefuse
  split
  · exact h
  · dsimp only
    split
    · exact h.updStep.unplace.when .search
    · exact h.updStep.unplace

theorem execRefuse_wf (h : s.memWf) : OutWf (execRefuse k f s) := by
  unfold execRefuse
  refine h.receive fun h => ?_
  split
  · split
    · exact h.refuseStep
    · exact h
  · exact h.lateRefuse

theorem execCommit_wf (h : s.memWf) : OutWf (execCommit k f s) := by
  unfold execCommit
  refine h.receive fun h => ?_
  split
  · exact h.ite (h.upd.answer.ite h.upd)
  · exact h.answer

theorem execRelease_wf (h : s.memWf) : OutWf (execRelease k f s) := by
  unfold execRelease
  refine h.receive fun h => ?_
  split
  · exact h
  · exact h.upd.ite (h.upd.foldl .addFreed)

/-! ### Power -/

theorem keepFeat {old : Dev} (h : s.memWf) : (s.keepFeat old).memWf := h.upd

theorem execRootContextStart_wf (h : s.memWf) : OutWf (execRootContextStart s) := by
  unfold execRootContextStart
  split
  · exact .next h
  · exact .next h.upd.setCtx

theorem execRecoveryVerify_wf {verified : Bool} (h : s.memWf) : OutWf (execRecoveryVerify verified s) := by
  unfold execRecoveryVerify
  split
  · exact .next h
  · split
    · exact .next h
    · split
      · exact .next h.cleared.keepFeat.upd
      · exact .next h.upd

theorem execAttestationReport_wf (h : s.memWf) : OutWf (execAttestationReport s) := by
  unfold execAttestationReport
  split
  · exact .next h
  · split
    · exact .next h
    · split
      · exact .next h
      · exact .next (h.extStore.ite h).updMem.putSem

/-! ### Dispatch -/

/-- The instructions and events, those of one shape together. -/
theorem exec_wf {i : Instr} (h : s.memWf) : OutWf (exec i s) := by
  unfold exec
  cases i with
  | add _ | sub _ | shl _ | mul _ | div _ | rem _ | addi _ => exact h.flagDone_wf
  | and _ | or _ | xor _ | shr _ | sar _ | rol _ | min _ | max _ | mulh _ | clz _ | popc _ | mov _ | lea _ | pcnt _ | workid _
    => exact h.scalarDone_wf
  | cmp _ | pand _ | por _ | pxor _ | pnot _ | pmov _ | voteAny _ | voteAll _ => exact h.predDone_wf
  | addiX _ | vcvtSli32F64 _ | vcvtF64Sli32 _ => exact h.governed_wf fun h => h.flagDone_wf
  | leaX _ | movi _ | lui _ | ext _ | ins _ | sel _ => exact h.governed_wf fun h => h.scalarDone_wf
  | brPrep _ | brPrepX _ => exact .next h.wrBt.fin
  | call _ | callX _ => exact .next h.call
  | ldB _ | ldH _ | ldW _ | ldD _ | ldBSp _ | ldHSp _ | ldWSp _ | ldDSp _ => exact h.loadUnit
  | stB _ | stH _ | stW _ | stD _ | stBSp _ | stHSp _ | stWSp _ | stDSp _ => exact h.storeUnit
  | ldx _ | ldAcq _ | ldRlx _ => exact h.governed_wf fun h => h.loadUnit
  | stx _ | stRlx _ => exact h.governed_wf fun h => h.storeUnit
  | amoAdd _ | amoMin _ | amoMax _ | amoAnd _ | amoOr _ | amoXor _ | amoSwap _ | amoCas _ | amoAddl _ => exact h.governed_wf fun h => h.amo
  | qPush _ | qPop _ | qPopp _ | qPeek _ => exact h.queueOp
  | vadd _ | vsub _ | vmul _ | vaddX _ | vsubX _ | vmulX _ => exact h.vecArith
  | vmin _ | vmax _ | vand _ | vor _ | vxor _ | vshl _ | vshr _ | vminX _ | vmaxX _ | vandX _ | vorX _ | vxorX _ | vshlX _ | vshrX _
    => exact h.vecTwo
  | vabs _ | vneg _ | vabsX _ | vnegX _ => exact h.vecOne
  | vfma _ | vfmaX _ => exact h.vecFma
  | vbcastR _ | vbcastC _ | vrotR _ | vrotC _ | vbcastRX _ | vbcastCX _ | vrotRX _ | vrotCX _ => exact h.vecMove
  | vredR _ | vredC _ | vredRX _ | vredCX _ => exact h.vecReduce
  | vscanR _ | vscanC _ | vscanRX _ | vscanCX _ => exact h.vecScan
  | vreda _ | vredaX _ => exact h.vecReduceAll
  | vexp _ | vlog _ | vrcp _ | vrsq _ | vtanh _ | vexpX _ | vlogX _ | vrcpX _ | vrsqX _ | vtanhX _ => exact h.vecSpecial
  | vsliLvl _ | vsliLvlX _ => exact h.vecLevel
  | vmovs _ | vmovsX _ => exact h.vecBroadcast
  | vspill _ | vspillX _ => exact h.vspill
  | vfill _ | vfillX _ => exact h.vfill
  | vsel _ | vimm _ | vmovsIns _ | vcvt _ => exact h.vecDone
  | mxMma _ | mxMmas _ => exact h.governed_wf fun h => h.matrixIssue
  | cpLd _ | cpSt _ => exact h.governed_wf fun h => h.copyLinear
  | cpG _ | cpS _ => exact h.governed_wf fun h => h.copyIndexed
  | tlbInvRange _ | tlbInvSpace _ | tlbInvHandle _ => exact h.tlbInv
  | csrRd _ | pmcLoRead _ => exact h.csrRead
  | ctxGrantCores _ | ctxGrantMxh _ => exact h.governed_wf fun h => h.granting .grantSides
  | ctxGrantQuota _ | ctxGrantMem _ | ctxGrantHt _ => exact h.governed_wf fun h => h.raiseLimit
  | ctxRevokeCores _ | ctxRevokeMxh _ | ctxRevokeCg _ | ctxRevokeFx _ | ctxRevokeQuota _ | ctxRevokeMem _ | ctxRevokeCal _ | ctxRevokeHt _
    | ctxRevokeRun _ => exact h.governed_wf fun h => h.revoking
  | dirtylogEnable _ | dirtylogDisable _ | dirtylogExport _ | dirtylogImport _ => exact h.governed_wf fun h => .next h.dirtyWrite.fin
  | hsemAcquire _ | hsemRelease _ => exact h.csrStore fun h => h.wrHsem
  | thermalThrottle | throttleEnd => exact .next (h.upd.ite h)
  | write _ _ _ | writeRel _ _ _ => exact h.hostWrite
  | pseti _ => exact h.governed_wf fun h => h.predDone_wf | brGo _ => exact h.execBrGo_wf | ret _ => exact h.execRet_wf
  | loopCfg _ => exact h.execLoopCfg_wf | loopGo _ => exact h.execLoopGo_wf | loopBrk _ => exact h.execLoopBrk_wf
  | nop _ => exact .next h.fin | nopW _ => exact .next (h.ite h.advance.paced) | halt _ => exact h.execHalt_wf
  | brk _ => exact .next h.fin.trap | traceMark _ => exact .next h.markRec.fin
  | traceMarkX _ => exact h.governed_wf fun h => .next h.markRec.fin | stRel _ => exact h.governed_wf fun h => h.releaseStore
  | pref _ => exact h.execPref_wf | fence _ => exact h.execFence_wf | fenceXp _ => exact h.execFenceXp_wf
  | tokWait _ => exact h.execTokWait_wf | tokTest _ => exact h.execTokTest_wf | tokAdd _ => exact h.execTokAdd_wf
  | arriveSet _ => exact h.execArriveSet_wf | arriveWait _ => exact h.execArriveWait_wf | vcmp _ => exact .next h.orVstat.wrP.fin
  | vmovsExt _ => exact h.execVmovsExt_wf | vcvtBxQuantise _ => exact h.execVcvtBxQuantise_wf
  | vcvtBxDequantise _ => exact h.execVcvtBxDequantise_wf | vld _ => exact h.execVld_wf | vst _ => exact h.execVst_wf
  | vchain _ => exact h.execVchain_wf | fmtPush _ => exact h.execFmtPush_wf | mxZero _ => exact h.execMxZero_wf
  | cpAcc _ => exact h.execCpAcc_wf | cpX _ => exact h.execCpX_wf | cp2d _ => exact h.execCp2d_wf | cpSend _ => exact h.execCpSend_wf
  | hbeat _ => exact .next h.progress.fin | yieldOp _ => exact h.execYieldOp_wf | taskExit _ => exact h.execTaskExit_wf
  | taskSuspend _ => exact h.execTaskSuspend_wf | taskLaunch _ => exact h.execTaskLaunch_wf | taskLaunchw _ => exact h.execTaskLaunchw_wf
  | calBook _ => exact h.execCalBook_wf | calCancel _ => exact h.execCalCancel_wf | calQueryStatus _ => exact h.execCalQueryStatus_wf
  | calQuerySlot _ => exact h.execCalQuerySlot_wf | trapRet _ => exact h.execTrapRet_wf | trapAck _ => exact h.execTrapAck_wf
  | trapReflect _ => exact h.execTrapReflect_wf | syscall _ => exact h.execSyscall_wf | coreReset _ => exact h.execCoreReset_wf
  | csrWr _ => exact h.csrStore fun h => h.csrWrite | csrSwap _ => exact h.execCsrSwap_wf | ctxCreate _ => exact h.execCtxCreate_wf
  | ctxGrantSet _ => exact h.execCtxGrantSet_wf | ctxGrantCg _ => exact h.governed_wf fun h => h.granting fun h => h.setCw.setCw
  | ctxGrantFx _ => exact h.governed_wf fun h => h.granting .setCw | ctxGrantSpad _ => exact h.execCtxGrantSpad_wf
  | ctxGrantCal _ => exact h.governed_wf fun h => h.granting .updCtx | ctxGrantRun _ => exact h.execCtxGrantRun_wf
  | ctxRevokeSpad _ => exact h.execCtxRevokeSpad_wf | ctxDestroy _ => exact h.execCtxDestroy_wf | ctxQuery _ => exact h.execCtxQuery_wf
  | chkresetGo _ => exact h.csrStore fun h => .done h.wrChkreset | blogWrite _ => exact h.csrStore fun h => .done h.wrBlog
  | bcmbaseWrite _ => exact h.csrStore fun h => .done h.wrBcmbase | chkregWrite _ => exact h.csrStore fun h => .done h.wrChkreg
  | accfreeWrite _ => exact h.csrStore fun h => h.wrAccfree | isetWrite _ => exact h.csrStore fun h => .done h.wrIset
  | pmcHiWrite _ => exact h.csrStore fun h => .done h.wrPmc | slotBoundary => exact h.execSlotBoundary_wf
  | watchdogExpire _ => exact h.execWatchdogExpire_wf | forcedSave _ => exact h.execForcedSave_wf
  | offerLapse _ => exact h.execOfferLapse_wf | prepareTimeout _ => exact h.execPrepareTimeout_wf
  | waitListSearch _ => exact h.execWaitListSearch_wf | priorityAging _ _ => exact h.execPriorityAging_wf
  | continuationParkTimeout _ _ => exact h.execContinuationParkTimeout_wf | taskAdmission _ => exact h.execTaskAdmission_wf
  | bookingSearch _ => exact h.execBookingSearch_wf | backfill _ _ => exact h.execBackfill_wf
  | engineCommandStart _ => exact h.execEngineCommandStart_wf | engineLineAccess _ _ => exact h.execEngineLineAccess_wf
  | matrixBlockPair _ => exact h.execMatrixBlockPair_wf | chainElement _ => exact h.execChainElement_wf
  | sendEntry _ => exact h.execSendEntry_wf | commandBoundarySuspend _ => exact h.execCommandBoundarySuspend_wf
  | engineCommandComplete _ => exact h.execEngineCommandComplete_wf | storeLeave _ _ => exact h.execStoreLeave_wf
  | loadDataReturn _ _ _ => exact h.execLoadDataReturn_wf | pendingRecordWrite _ => exact h.execPendingRecordWrite_wf
  | handlerStart _ => exact h.execHandlerStart_wf | tokWaitConsume _ _ => exact h.execTokWaitConsume_wf
  | arriveWaitComplete _ _ => exact h.execArriveWaitComplete_wf | queueWaitResume _ _ => exact h.execQueueWaitResume_wf
  | continuationReady _ _ => exact h.execContinuationReady_wf | continuationTake _ => exact h.execContinuationTake_wf
  | continuationSteal _ => exact h.execContinuationSteal_wf | contextStopComplete _ => exact h.execContextStopComplete_wf
  | revocationComplete _ => exact h.execRevocationComplete_wf | tlbInvComplete _ => exact h.execTlbInvComplete_wf
  | handleInvComplete _ => exact h.execHandleInvComplete_wf | chkresetDone _ => exact h.execChkresetDone_wf
  | exportComplete _ => exact h.execExportComplete_wf | importComplete _ => exact h.execImportComplete_wf
  | destroyComplete _ => exact h.execDestroyComplete_wf | memoryErrorDetect _ => exact h.execMemoryErrorDetect_wf
  | structureError _ => exact h.execStructureError_wf | lineFill _ _ => exact h.execLineFill_wf
  | powerGood _ => exact .next (h.cleared.upd.when .keepFeat) | rootContextStart => exact h.execRootContextStart_wf
  | recoveryVerify _ => exact h.execRecoveryVerify_wf | attestationReport => exact h.execAttestationReport_wf
  | computePowerOff => exact .next (h.cleared.ite h) | read _ _ _ => exact h.execRead_wf | spwrite _ _ _ _ _ _ => exact h.execSpwrite_wf
  | semAcq _ _ => exact h.execSemAcq_wf | semRel _ _ _ => exact h.execSemRel_wf | feataccWrite _ => exact h.execFeataccWrite_wf
  | hstatAck _ => exact h.execHstatAck_wf | fxcfgWrite _ _ => exact h.execFxcfgWrite_wf
  | fabricPortTrained _ _ _ => exact h.execFabricPortTrained_wf | fabricPortLost _ => exact h.execFabricPortLost_wf
  | fabricWrite _ _ => exact h.execFabricWrite_wf | wack _ _ => exact h.execWack_wf | sendreq _ _ => exact h.execSendreq_wf
  | raccept _ _ => exact h.execRaccept_wf | rfull _ _ => exact h.execRfull_wf
  | prepare _ _ => exact h.receive fun h => h.answer.ite (h.upd.answer.ite h.answer) | offer _ _ => exact h.execOffer_wf
  | refuse _ _ => exact h.execRefuse_wf | commit _ _ => exact h.execCommit_wf | release _ _ => exact h.execRelease_wf
  | slotsync _ _ => exact h.execSlotsync_wf

/-! ### Sched -/

theorem elapse (h : s.memWf) : (s.elapse n).memWf := h.upd.ite (h.upd.foldl fun h => (h.pair.foldlFst fun h => h.count.pair.iteFst h).foldl .count)

theorem passTime (h : s.memWf) : s.passTime.memWf := h.elapse

theorem firstDue_wf {l : List Event} (h : s.memWf) (hl : EventsWf l) : OnSome State.memWf (firstDue s l) := by
  induction l with
  | nil => exact .none
  | cons f l ih =>
    obtain ⟨hf, hl⟩ := List.forall_mem_cons.1 hl
    unfold firstDue
    split
    · split
      · exact ih hl
      · exact .some ((hf h).of_eq ‹_›)
    · exact ih hl

theorem fillHandle (h : s.memWf) : (s.fillHandle c i).memWf := h.ite h.upd

theorem putTlb {e : TlbE} (h : s.memWf) : (s.putTlb e).memWf := h.upd

theorem fillTlb (h : s.memWf) : (s.fillTlb die c va wr).memWf := by
  unfold State.fillTlb
  split
  · exact h
  · exact (h.xlate_wf.of_eq ‹_›).markAd.putTlb

theorem serve {t : Turn} (h : s.memWf) : (s.serve t).memWf := by
  unfold State.serve
  split
  · exact h.fillTlb.ite h
  · exact h.fillHandle.ite h
  · exact h.conflict.ite h
  · exact h.elapse
  · exact h.updAg.ite (h.updCore.ite h)
  · exact h.residueFails
  · exact h
  · exact h

/-! ### Step -/

theorem stepAgent_wf (h : s.memWf) : OutWf (stepAgent s core st) := by
  unfold stepAgent
  split
  · exact .next (h.olderFirst (h.issue.of_done ‹_›).loopEnd)
  · have ht := h.issue.of_run ‹_›
    split
    · exact .next (h.olderFirst ((ht.settle ht.exec_wf).of_eq ‹_›))
    · exact ht.settle ht.exec_wf

theorem turnOf_wf (h : s.memWf) : OutWf (turnOf s core st) := by
  unfold turnOf
  dsimp only
  split
  · refine OutWf.foldl (.next h) fun ho => ?_
    split
    · exact State.memWf.stepAgent_wf (ho.of_eq rfl)
    · exact ho
  · split
    · exact h.stepAgent_wf
    · split
      · exact h.stepAgent_wf
      · refine OutWf.foldl (.next h) fun ho => ?_
        split
        · exact State.memWf.stepAgent_wf (State.memWf.setAg (ho.of_eq rfl))
        · exact ho

theorem engineEvents_wf : EventsWf s.engineEvents :=
  .flatMap fun _ => .flatMap fun _ => .append
    (.cons (·.execEngineCommandComplete_wf) <| .cons (·.execCommandBoundarySuspend_wf) <| .cons (·.execEngineCommandStart_wf) .nil)
    (.ite (.cons (·.execMatrixBlockPair_wf) .nil) <| .ite (.cons (·.execChainElement_wf) .nil) <|
    .append (.map fun _ => (·.execEngineLineAccess_wf)) (.ite (.cons (·.execSendEntry_wf) .nil) .nil))

theorem agentEvents_wf : EventsWf s.agentEvents := by
  refine .flatMap fun e => .append (.flatMap fun _ => .cons (·.execLoadDataReturn_wf) <| .cons (·.execStoreLeave_wf) .nil) ?_
  cases e.2.wait with
  | none => exact .nil
  | tok _ => exact .cons (·.execTokWaitConsume_wf) <| .cons (·.execContinuationParkTimeout_wf) .nil
  | arrive _ _ => exact .cons (·.execArriveWaitComplete_wf) <| .cons (·.execContinuationParkTimeout_wf) .nil
  | queue _ _ => exact .cons (·.execQueueWaitResume_wf) .nil
  | suspend _ _ => exact .cons (·.execTokWaitConsume_wf) <| .cons (·.execArriveWaitComplete_wf) .nil

theorem contEvents_wf : EventsWf s.contEvents :=
  .append (.append (.flatMap fun _ => .map fun _ => (·.execContinuationReady_wf)) (.map fun _ => (·.execContinuationTake_wf)))
    (.ite .nil (.map fun _ => (·.execContinuationSteal_wf)))

theorem ctxEvents_wf : EventsWf s.ctxEvents :=
  .flatMap fun _ => .append (.append
    (.cons (·.execWatchdogExpire_wf) <| .cons (·.execForcedSave_wf) <| .cons (·.execContextStopComplete_wf) <|
    .cons (·.execPendingRecordWrite_wf) <| .cons (·.execHandlerStart_wf) <| .cons (·.execChkresetDone_wf) .nil)
    (.ite .nil (.cons (·.execExportComplete_wf) <| .cons (·.execImportComplete_wf) .nil)))
    (.map fun _ => (·.execPriorityAging_wf))

theorem jobEvents_wf : EventsWf s.jobEvents := by
  refine .flatMap fun j => ?_
  cases j.kind with
  | reset _ => exact .nil
  | tlbRange _ _ => exact .cons (·.execTlbInvComplete_wf) .nil
  | tlbSpace => exact .cons (·.execTlbInvComplete_wf) .nil
  | handle _ => exact .cons (·.execHandleInvComplete_wf) .nil
  | revoke _ _ _ => exact .cons (·.execRevocationComplete_wf) .nil
  | destroy => exact .cons (·.execDestroyComplete_wf) .nil

theorem bookEvents_wf : EventsWf s.bookEvents := by
  refine .append (.append (.append (.append (.map fun _ => (·.execOfferLapse_wf)) (.flatMap fun e f hf => ?_))
    (.map fun _ => (·.execBackfill_wf))) (.map fun _ => (·.execBookingSearch_wf)))
    (.cons (·.execWaitListSearch_wf) <| .cons (·.execWaitListSearch_wf) <| .cons (·.execTaskAdmission_wf) <|
      .cons (·.execTaskAdmission_wf) .nil)
  obtain ⟨x, -, hx⟩ := List.mem_filterMap.1 hf
  split at hx
  · cases hx
    exact (·.execPrepareTimeout_wf)
  · cases hx

theorem dueEvents_wf : EventsWf s.dueEvents := by
  unfold State.dueEvents
  split
  · exact .append (.append (.append (.append (.append (.append jobEvents_wf ctxEvents_wf) agentEvents_wf) engineEvents_wf) contEvents_wf)
    bookEvents_wf) (.ite .nil (.cons (·.execAttestationReport_wf) .nil))
  · exact .cons (·.execRootContextStart_wf) <| .cons (·.execAttestationReport_wf) .nil
  · exact .nil

theorem ownStep_wf (h : s.memWf) : OutWf (ownStep s) := by
  unfold ownStep
  split
  · exact .next ((h.firstDue_wf dueEvents_wf).of_eq ‹_›)
  · split
    · exact h.turnOf_wf
    · exact .next h.passTime

theorem step_wf (h : s.memWf) : OutWf (step s) := by
  unfold step
  dsimp only
  split
  · exact h.exec_wf
  · split
    · split
      · exact h.upd.turnOf_wf
      · exact .next h.upd
    · split
      · exact .next h.upd
      · split
        · exact .next h.upd.later
        · exact h.upd.exec_wf
    · exact .next h.upd.serve
    · exact h.ownStep_wf

end Sys2Proof.Machine.State.memWf

namespace Sys2Proof.Machine

/-- Settles O56: each function that a step is made of keeps the canonical form of the byte stores, by the lemma of its name above. -/
theorem canonicalMemory : Obligations.CanonicalMemory := fun _ _ h e => h.step_wf.of_eq e

end Sys2Proof.Machine
end

section
/-! ## Out-of-range addresses and malformed entries (O13, O14)

Bit fields by their bits; then an address with any of bits 63:52 set, followed from the translation up to the load and the store that name it
(01 R11); then the malformed entry as 01 R18 lists it, and the walk of the root's tree that reads one (01 R20). -/

namespace Sys2Proof.Machine

/-! ### Bit fields -/

theorem testBit_bits {n : Nat} (w : BitVec n) (hi lo k : Nat) : (bits w hi lo).testBit k = (decide (k < hi + 1 - lo) && w.getLsbD (lo + k)) := by
  simp [bits, Nat.testBit_mod_two_pow, Nat.testBit_shiftRight, BitVec.getLsbD]

/-- Two fields are equal where their bits are. -/
theorem bits_eq_iff {n : Nat} (x y : BitVec n) (hi lo : Nat) :
    bits x hi lo = bits y hi lo ↔ ∀ k, lo ≤ k → k ≤ hi → x.getLsbD k = y.getLsbD k := by
  constructor
  · intro h k hl hh
    have hb := congrArg (·.testBit (k - lo)) h
    simpa [testBit_bits, show k - lo < hi + 1 - lo by omega, Nat.add_sub_cancel' hl] using hb
  · intro h
    refine Nat.eq_of_testBit_eq fun k => ?_
    simp only [testBit_bits]
    by_cases hk : k < hi + 1 - lo
    · rw [h (lo + k) (by omega) (by omega)]
    · simp [hk]

theorem bits_ne_iff {n : Nat} (x y : BitVec n) (hi lo : Nat) :
    bits x hi lo ≠ bits y hi lo ↔ ∃ k, lo ≤ k ∧ k ≤ hi ∧ x.getLsbD k ≠ y.getLsbD k := by
  simp [bits_eq_iff]

theorem bits_ne_zero_iff {n : Nat} (w : BitVec n) (hi lo : Nat) : bits w hi lo ≠ 0 ↔ ∃ k, lo ≤ k ∧ k ≤ hi ∧ w.getLsbD k = true := by
  have hz : bits (0 : BitVec n) hi lo = 0 := by simp [bits]
  rw [← hz, bits_ne_iff]
  simp

/-- The two bits of an entry's policy field CP. -/
theorem bits_policy_eq_three_iff (e : W64) : bits e 10 9 = 3 ↔ e.getLsbD 9 = true ∧ e.getLsbD 10 = true := by
  rw [show 3 = bits (0x600 : W64) 10 9 by decide, bits_eq_iff]
  constructor
  · intro h
    exact ⟨h 9 (by omega) (by omega), h 10 (by omega) (by omega)⟩
  · rintro ⟨h9, h10⟩ k hl hh
    obtain rfl | rfl : k = 9 ∨ k = 10 := by omega
    · exact h9
    · exact h10

theorem bits_high (a : W64) : bits a 63 52 = a.toNat / 2 ^ 52 := by
  have := a.isLt
  simp only [bits, Nat.shiftRight_eq_div_pow]
  omega

/-! ### The out-of-range address -/

/-- The translation fault of an address with any of bits 63:52 set, in a tree of a depth. -/
def rangeFail (depth : Nat) (a : W64) : XFail := ⟨depth, 5, 0, false, a, false⟩

theorem markAd_of_adw_nil {s : State} (h : s.adw = []) : s.markAd = s := by
  simp [State.markAd, State.markAdN, h]

/-- The first tree already refuses the address: none is walked. -/
theorem xlateFor_outOfRange {a : W64} (ha : a.toNat / 2 ^ 52 ≠ 0) {ch : List Nat} {k : Nat} (hk : ch.length = k + 1) (free : Bool) (acc : Acc)
    (s : State) : xlateFor free ch acc false a s = (s, .error (rangeFail k a)) := by
  cases ch with
  | nil => exact absurd hk (Nat.succ_ne_zero k).symm
  | cons c up =>
    obtain rfl : up.length = k := Nat.succ.inj hk
    unfold xlateFor
    dsimp only
    rw [if_pos (by rwa [bits_high]), rangeFail]

section OutOfRange

variable {s : State} {a : W64} (ha : a.toNat / 2 ^ 52 ≠ 0) (hadw : s.adw = []) {c : Nat} (hch : (s.chain c).length = (s.ctx c).depth + 1)
include ha

theorem tlbHit_outOfRange (acc : Acc) : s.tlbHit c acc a = none := by
  unfold State.tlbHit
  rw [if_pos (by rwa [bits_high])]

include hadw hch

theorem lookup_outOfRange (free : Bool) (acc : Acc) : s.lookup free c acc a = (s, .error (rangeFail (s.ctx c).depth a)) := by
  simp only [State.lookup, tlbHit_outOfRange ha, xlateFor_outOfRange ha hch, markAd_of_adw_nil hadw]

theorem translateFor_outOfRange (free : Bool) (acc : Acc) (spill : Bool) :
    s.translateFor free c acc spill a = (s, .error (rangeFail (s.ctx c).depth a)) := by
  simp only [State.translateFor, lookup_outOfRange ha hadw hch]

/-- The part of an access that begins it names its own address, and no later part is translated. -/
theorem access_outOfRange (acc : Acc) (spill : Bool) {n : Nat} (hn : n ≠ 0) :
    s.access c acc spill a n = (s, .error (rangeFail (s.ctx c).depth a, a)) := by
  have hfirst : a - BitVec.ofNat 64 (a.toNat % 64) + BitVec.ofNat 64 (a.toNat % 64) = a := BitVec.sub_add_cancel _ _
  simp only [State.access, State.accessFor, cutLines, hn, if_false, State.piecesFor, hfirst, translateFor_outOfRange ha hadw hch]

end OutOfRange

section Agent

variable {s : State} {a : W64} (ha : a.toNat / 2 ^ 52 ≠ 0) (hadw : s.adw = []) (hch : (s.chain s.myCtx).length = (s.ctx s.myCtx).depth + 1)
include ha hadw hch

theorem reach_outOfRange (acc : Acc) {n : Nat} (hn : n ≠ 0) :
    s.reach false acc a n = (s, .error (fun t => t.raiseX acc (rangeFail (s.ctx s.myCtx).depth a) a)) := by
  simp only [State.reach, Bool.false_eq_true, if_false, access_outOfRange ha hadw hch acc false hn]

theorem loadUnit_outOfRange (u : U) {size : Nat} (hn : size ≠ 0) (sext acquire : Bool) :
    s.loadUnit u false a size sext none acquire = .next (s.raiseX .read (rangeFail (s.ctx s.myCtx).depth a) a) := by
  simp only [State.loadUnit, Option.isSome_none, Bool.false_eq_true, if_false, reach_outOfRange ha hadw hch .read hn]

theorem storeUnit_outOfRange (u : U) {size : Nat} (hn : size ≠ 0) :
    s.storeUnit u false a size none = .next (s.raiseX .write (rangeFail (s.ctx s.myCtx).depth a) a) := by
  simp only [State.storeUnit, Option.isSome_none, Bool.false_eq_true, if_false, reach_outOfRange ha hadw hch .write hn]

end Agent

/-- Settles O13: the first tree of the chain refuses the address, so that nothing is walked and neither the load nor the store gets past its
translation. -/
theorem outOfRange : Obligations.OutOfRange := by
  intro s a ha hadw hch
  refine ⟨rangeFail (s.ctx s.myCtx).depth a, rfl, rfl, rfl, rfl, rfl, fun acc n hn => ?_, ?_, ?_⟩
  · exact ⟨_, reach_outOfRange ha hadw hch acc hn, fun _ => rfl⟩
  · rintro u rfl
    exact loadUnit_outOfRange ha hadw hch u (by decide) false false
  · rintro u rfl
    exact storeUnit_outOfRange ha hadw hch u (by decide)

/-! ### The malformed entry -/

/-- 01 R18, clause by clause, an entry's bits named singly. -/
theorem pteBad_iff (e a : W64) (lvl : Nat) :
    pteBad e lvl a = true ↔
      (∃ k, (52 ≤ k ∧ k ≤ 55 ∨ 11 ≤ k ∧ k ≤ 15) ∧ e.getLsbD k = true)
      ∨ (e.getLsbD 9 = true ∧ e.getLsbD 10 = true)
      ∨ (e.getLsbD 1 = true ∧ lvl = 0) ∨ (e.getLsbD 1 = false ∧ lvl = 2)
      ∨ (e.getLsbD 1 = false ∧ ∃ k, 2 ≤ k ∧ k ≤ 10 ∧ e.getLsbD k = true)
      ∨ (e.getLsbD 1 = true ∧ lvl = 1 ∧ ((∃ k, 16 ≤ k ∧ k ≤ 28 ∧ e.getLsbD k = true) ∨ e.getLsbD 6 = true))
      ∨ (e.getLsbD 1 = true ∧ lvl = 2 ∧ e.getLsbD 6 = true ∧ ∃ k, 16 ≤ k ∧ k ≤ 20 ∧ e.getLsbD k ≠ a.getLsbD k) := by
  have hres : (∃ k, (52 ≤ k ∧ k ≤ 55 ∨ 11 ≤ k ∧ k ≤ 15) ∧ e.getLsbD k = true) ↔ bits e 55 52 ≠ 0 ∨ bits e 15 11 ≠ 0 := by
    simp only [or_and_right, exists_or, and_assoc, bits_ne_zero_iff]
  rw [hres]
  simp only [pteBad, bit, Bool.or_eq_true, Bool.and_eq_true, Bool.not_eq_true', bne_iff_ne, beq_iff_eq, bits_policy_eq_three_iff,
    ← bits_ne_zero_iff, ← bits_ne_iff, or_assoc, and_assoc]

theorem rdP64_congr {s t : State} (h : SameBytes s t) (pa : Nat) : t.rdP64 pa = s.rdP64 pa := by
  simp only [State.rdP64, State.rdBytes, show t.rdB false = s.rdB false from funext (h false)]

/-- An entry read after its line has been touched. -/
theorem rdP64_l2Touch (s : State) (pa pol : Nat) (wr : Bool) (pa' : Nat) : (s.l2Touch pa pol wr).rdP64 pa' = s.rdP64 pa' :=
  rdP64_congr (l2Only_rdB (l2Only_touch s pa pol wr)) pa'

/-- A walk of the root's tree that reads a malformed entry ends there (01 R18, R20). -/
theorem walkLevels_root_of_pteBad {s : State} {n lvl base owner : Nat} {wk : Bool} {a : W64} {rd : W64 → State → State × Except XFail (Nat × W64 × Nat)}
    {pea : Nat} (hpea : base + pteIndex lvl a * 8 = pea) (hlt : pea < 2 ^ 64) (hp : present s.dev pea = true) (hg : s.groupOk owner pea = true)
    (hpsn : s.psn false pea = false) (hv : (s.rdP64 pea).getLsbD 0 = true) (hbad : pteBad (s.rdP64 pea) lvl a = true) :
    walkLevels 0 wk owner rd (n + 1) lvl base a s = (s.l2Touch pea 0 false, .error ⟨0, 1, lvl, wk, a, false⟩) := by
  have hea : (BitVec.ofNat 64 pea).toNat = pea := Nat.mod_eq_of_lt hlt
  simp only [walkLevels, hpea, hea, hp, if_true, hg, hpsn, rdP64_l2Touch, bit, hv, hbad, Bool.not_true, Bool.false_eq_true, if_false]

/-- Settles O14: the model's test of an entry, bit by bit, and the walk of the root's tree up to that test. -/
theorem malformedEntry : Obligations.MalformedEntry := by
  refine ⟨fun e a lvl _ => pteBad_iff e a lvl, ?_⟩
  rintro s k n lvl base owner wk a rd pea hpea rfl hlt hp hg hpsn hv hbad
  exact walkLevels_root_of_pteBad hpea.symm hlt hp hg hpsn hv hbad

end Sys2Proof.Machine
end

section
/-! ## Control registers that act (O47)

Fields replaced in a word and contexts changed; then a CSR.WR by its writing function and a CSR.RD (13 R368); then, register by register, what
each writing function does: checked memory (02 R61, R62, 03 R93), the booking log (07 R212), the columns withdrawn (02 R51), interleave sets
(02 R68, R69), hardware semaphores (17 R437), counters (16 R430). Metadata go with the write of GO (log 64), a mode that changes restarts the
log's position (log 123), a semaphore notes the requester last served (logs 140, 184), and CHKRESET_DONE without BUSY changes nothing
(log 156). -/

namespace Sys2Proof.Machine

/-! ### Fields replaced in a word -/

theorem bits_lt {n : Nat} (w : BitVec n) (hi lo : Nat) : bits w hi lo < 2 ^ (hi + 1 - lo) := Nat.mod_lt _ (Nat.two_pow_pos _)

theorem getLsbD_setBits {n : Nat} (w : BitVec n) (hi lo v j : Nat) :
    (setBits w hi lo v).getLsbD j = if lo ≤ j ∧ j ≤ hi then decide (j < n) && v.testBit (j - lo) else w.getLsbD j := by
  by_cases hn : j < n
  · simp only [setBits, BitVec.getLsbD_or, BitVec.getLsbD_and, BitVec.getLsbD_not, BitVec.getLsbD_ofNat, Nat.testBit_shiftLeft,
      Nat.testBit_mod_two_pow, Nat.testBit_two_pow_sub_one]
    by_cases hl : lo ≤ j
    · have hd : j - lo < hi + 1 - lo ↔ j ≤ hi := by omega
      by_cases hh : j ≤ hi <;> simp [hn, hl, hh, hd]
    · simp [hn, hl]
  · simp [hn, BitVec.getLsbD_of_ge _ _ (Nat.le_of_not_lt hn)]

/-- The field that was replaced. -/
theorem bits_setBits_same {n : Nat} (w : BitVec n) {hi lo v : Nat} (hn : hi < n) (hv : v < 2 ^ (hi + 1 - lo)) :
    bits (setBits w hi lo v) hi lo = v := by
  refine Nat.eq_of_testBit_eq fun k => ?_
  rw [testBit_bits, getLsbD_setBits]
  by_cases hk : k < hi + 1 - lo
  · simp [hk, show lo + k ≤ hi by omega, show lo + k < n by omega]
  · have : v.testBit k = false := Nat.testBit_lt_two_pow (Nat.lt_of_lt_of_le hv (Nat.pow_le_pow_right (by decide) (Nat.le_of_not_lt hk)))
    simp [hk, this]

/-- A field apart from the one that was replaced. -/
theorem bits_setBits_apart {n : Nat} (w : BitVec n) {hi lo hi' lo' : Nat} (v : Nat) (h : hi < lo' ∨ hi' < lo) :
    bits (setBits w hi' lo' v) hi lo = bits w hi lo := by
  rw [bits_eq_iff]
  intro k hl hh
  rw [getLsbD_setBits, if_neg (by omega)]

/-- A field of one bit. -/
theorem getLsbD_setBits_bit {n m : Nat} (w : BitVec n) (x : BitVec m) {k : Nat} (hk : k < n) :
    (setBits w k k (bits x k k)).getLsbD k = x.getLsbD k := by
  rw [getLsbD_setBits, if_pos ⟨Nat.le_refl k, Nat.le_refl k⟩, testBit_bits]
  simp [hk]

/-! ### Contexts and other maps changed -/

/-- A map whose values are changed, each under its key. -/
theorem SMap.find?_map {α : Type} {f : Nat × α → Nat × α} (hf : ∀ e, (f e).1 = e.1) (m : SMap α) (k : Nat) :
    SMap.find? (m.map f) k = (SMap.find? m k).map (fun x => (f (k, x)).2) := by
  induction m with
  | nil => rfl
  | cons e t ih =>
    rw [List.map_cons, SMap.find?_cons, SMap.find?_cons, hf, ih]
    split
    next h => subst h; rfl
    next => rfl

/-- A key that the test rejects with every value. -/
theorem SMap.find?_keep_none {α : Type} (m : SMap α) {p : Nat → α → Bool} {k : Nat} (h : ∀ x, p k x = false) :
    SMap.find? (SMap.keep m p) k = none := by
  have hmem : ∀ e ∈ SMap.keep m p, ¬ (e.1 == k) = true := by
    intro e he hk
    have hp := (List.mem_filter.1 he).2
    rw [beq_iff_eq.1 hk, h] at hp
    exact Bool.false_ne_true hp
  rw [SMap.find?, List.find?_eq_none.2 hmem, Option.map_none]

/-- A test that rejects nothing. -/
theorem SMap.keep_all {α : Type} (m : SMap α) {p : Nat → α → Bool} (h : ∀ k x, p k x = true) : SMap.keep m p = m :=
  List.filter_eq_self.2 fun e _ => h e.1 e.2

section Contexts

variable {s t : State} {c : Nat} {f : Ctx → Ctx}

theorem ctx_updCtx_ne (s : State) (f : Ctx → Ctx) {c y : Nat} (h : y ≠ c) : (s.updCtx c f).ctx y = s.ctx y := by
  unfold State.updCtx
  split
  · rw [State.ctx_setCtx, if_neg h]
  · rfl

/-- A context that exists, changed. -/
theorem ctx_updCtx_same (h : (SMap.find? s.ctxs c).isSome = true) (f : Ctx → Ctx) : (s.updCtx c f).ctx c = f (s.ctx c) := by
  obtain ⟨x, hx⟩ := Option.isSome_iff_exists.1 h
  have hu : s.updCtx c f = s.setCtx c (f x) := by simp only [State.updCtx, hx]
  rw [hu, State.ctx_setCtx_same, State.ctx, hx, Option.getD_some]

/-- Only the contexts have changed. -/
theorem updCtx_restore (s : State) (c : Nat) (f : Ctx → Ctx) : { s.updCtx c f with ctxs := s.ctxs } = s := by
  unfold State.updCtx
  split <;> rfl

theorem isSome_updCtx (s : State) (c : Nat) (f : Ctx → Ctx) (y : Nat) :
    (SMap.find? (s.updCtx c f).ctxs y).isSome = (SMap.find? s.ctxs y).isSome := by
  unfold State.updCtx
  split
  next x hx =>
    show (SMap.find? (SMap.put s.ctxs c (f x)) y).isSome = _
    rw [SMap.find?_put]
    split
    next h => rw [h, hx]; rfl
    next => rfl
  next => rfl

/-- A field that a change of one context leaves alone in it stands in every context. -/
theorem ctx_field_updCtx {β : Type} (g : Ctx → β) (hg : ∀ x, g (f x) = g x) (s : State) (c y : Nat) :
    g ((s.updCtx c f).ctx y) = g (s.ctx y) := by
  by_cases hy : y = c
  · subst hy
    by_cases h : (SMap.find? s.ctxs y).isSome = true
    · rw [ctx_updCtx_same h, hg]
    · rw [Option.not_isSome_iff_eq_none] at h
      simp only [State.updCtx, h]
  · rw [ctx_updCtx_ne s f hy]

/-! ### Tenants -/

theorem chain_congr (hd : ∀ y, (t.ctx y).depth = (s.ctx y).depth) (hp : ∀ y, (t.ctx y).parent = (s.ctx y).parent) (c : Nat) :
    t.chain c = s.chain c := by
  have aux : ∀ n c, t.chainAux n c = s.chainAux n c := by
    intro n
    induction n with
    | zero => intro c; rfl
    | succ n ih => intro c; simp only [State.chainAux, hd, hp, ih]
  exact aux 4 c

theorem tenant_congr (hd : ∀ y, (t.ctx y).depth = (s.ctx y).depth) (hp : ∀ y, (t.ctx y).parent = (s.ctx y).parent) (c : Nat) :
    t.tenant c = s.tenant c := by
  simp only [State.tenant, State.atDepth, chain_congr hd hp, hd]

theorem tenant_of_depth_one (h : (s.ctx c).depth = 1) : s.tenant c = c := by
  simp [State.tenant, State.atDepth, State.chain, State.chainAux, h]

/-- A tenant's tenant is itself. -/
theorem tenant_tenant (s : State) (c : Nat) : s.tenant (s.tenant c) = s.tenant c := by
  by_cases h : (s.ctx c).depth = 0
  · have ht : s.tenant c = c := if_pos h
    rw [ht, ht]
  · have ht : s.tenant c = s.atDepth c 1 := if_neg h
    cases hf : (s.chain c).find? (fun x => (s.ctx x).depth == 1) with
    | none =>
      have hc : s.tenant c = c := by rw [ht, State.atDepth, hf]; rfl
      rw [hc, hc]
    | some x =>
      have hx : s.tenant c = x := by rw [ht, State.atDepth, hf]; rfl
      rw [hx]
      exact tenant_of_depth_one (by simpa using List.find?_some hf)

end Contexts

/-! ### A CSR.WR by its writing function, a CSR.RD -/

section Csr

variable {s t : State} {u : U} {i : Instr} {P : State → Prop}

theorem completes_csrStore (f : State → W64 → CsrRes) (hi : exec i s = s.csrStore u f) (h0 : s.lane0 u = true) (hg : s.csrGate (csrNo u) = none)
    (hf : f s (s.sB u) = .done t) (ht : P t) : Completes i u s P := by
  refine ⟨t, ?_, ht⟩
  simp only [hi, State.csrStore, governed, h0, if_true, hg, hf]

/-- A write that every state takes. -/
theorem completes_csrDone (w : State → W64 → State) (hi : exec i s = s.csrStore u (fun s v => .done (w s v))) (h0 : s.lane0 u = true)
    (hg : s.csrGate (csrNo u) = none) (ht : P (w s (s.sB u))) : Completes i u s P :=
  completes_csrStore _ hi h0 hg rfl ht

theorem completes_csrRead (hi : exec i s = s.csrRead u) (h0 : s.lane0 u = true) (hg : s.csrGate (csrNo u) = none)
    (ht : P ((s.csrTouched (csrNo u)).wrS u.a.toNat (s.csrValue (csrNo u)) 4)) : Completes i u s P := by
  refine ⟨_, ?_, ht⟩
  simp only [hi, State.csrRead, governed, h0, if_true, hg, scalarDone]

end Csr

/-! ### CHKRESET -/

theorem wrChkreset_idle {s : State} {v : W64} (h : v.getLsbD 0 = false ∨ (s.ctx s.myCtx).chkBusy = true) : s.wrChkreset v = s :=
  if_pos (by simpa [bit] using h)

/-- Forgetting the races of tenants changes no context's descriptor. -/
theorem forgetRaces_ctxs (s : State) (ten : Nat → Bool) :
    ∃ f : Nat × Ctx → Nat × Ctx, (∀ e, (f e).1 = e.1) ∧ (∀ e, (f e).2.w = e.2.w) ∧ (s.forgetRaces ten).ctxs = s.ctxs.map f := by
  refine ⟨_, fun e => ?_, fun e => ?_, rfl⟩ <;> split <;> rfl

theorem isSome_forgetRaces (s : State) (ten : Nat → Bool) (c : Nat) :
    (SMap.find? (s.forgetRaces ten).ctxs c).isSome = (SMap.find? s.ctxs c).isSome := by
  obtain ⟨f, hk, -, hf⟩ := forgetRaces_ctxs s ten
  rw [hf, SMap.find?_map hk, Option.isSome_map]

theorem forgetRaces_cw (s : State) (ten : Nat → Bool) (c k : Nat) : (s.forgetRaces ten).cw c k = s.cw c k := by
  obtain ⟨f, hk, hw, hf⟩ := forgetRaces_ctxs s ten
  rw [State.cw, State.cw, State.ctx, State.ctx, hf, SMap.find?_map hk]
  cases SMap.find? s.ctxs c with
  | none => rfl
  | some x => simp only [Option.map_some, Option.getD_some, hw]

@[simp] theorem forgetRaces_holdsGroup (s : State) (ten : Nat → Bool) (c g : Nat) : (s.forgetRaces ten).holdsGroup c g = s.holdsGroup c g := by
  simp only [State.holdsGroup, forgetRaces_cw]

@[simp] theorem forgetRaces_dev (s : State) (ten : Nat → Bool) : (s.forgetRaces ten).dev = s.dev := rfl

/-- 03 R93: GO forgets the lines that the context may reset and leaves every byte. -/
theorem wrChkreset_go {s : State} {v : W64} (hv : v.getLsbD 0 = true) (hb : (s.ctx s.myCtx).chkBusy = false)
    (hc : (SMap.find? s.ctxs s.myCtx).isSome = true) :
    ((s.wrChkreset v).ctx s.myCtx).chkBusy = true ∧ (s.wrChkreset v).mem.bytes = s.mem.bytes ∧ (s.wrChkreset v).mem.spad = s.mem.spad
      ∧ ∀ key, ((s.ctx s.myCtx).depth = 0 ∨ s.holdsGroup s.myCtx (placeOf s.dev (key * 64)).1 = true) →
        SMap.find? (s.wrChkreset v).mem.md key = none := by
  have hgo : (!bit v 0 || (s.ctx s.myCtx).chkBusy) = false := by simp [bit, hv, hb]
  unfold State.wrChkreset
  simp only [hgo, Bool.false_eq_true, if_false, State.updCtx_mem]
  refine ⟨?_, rfl, rfl, fun key h => SMap.find?_keep_none _ fun _ => ?_⟩
  · have hf := isSome_forgetRaces s (fun n => (s.ctx s.myCtx).depth == 0 || n == s.tenNo s.myCtx) s.myCtx
    rw [ctx_updCtx_same (by exact hf.trans hc)]
  · rcases h with h | h <;> simp [h]

theorem chkresetDone_completes (c : Nat) (s : State) :
    ∃ t, exec (.chkresetDone c) s = .next t ∧ (t.ctx c).chkBusy = false ∧ ((s.ctx c).chkBusy = false → t = s)
      ∧ (∀ y, y ≠ c → t.ctx y = s.ctx y) ∧ { t with ctxs := s.ctxs } = s := by
  cases hb : (s.ctx c).chkBusy with
  | false => exact ⟨s, by simp only [exec, execChkresetDone, hb, Bool.false_eq_true, if_false], hb, fun _ => rfl, fun _ _ => rfl, rfl⟩
  | true =>
    have hc : (SMap.find? s.ctxs c).isSome = true := by
      cases h : SMap.find? s.ctxs c with
      | none => simp [State.ctx, h, Ctx.blank] at hb
      | some x => rfl
    refine ⟨s.updCtx c (fun x => { x with chkBusy := false }), by simp only [exec, execChkresetDone, hb, if_true], ?_, (nomatch ·),
      fun y hy => ctx_updCtx_ne s _ hy, updCtx_restore s c _⟩
    rw [ctx_updCtx_same hc]

/-! ### BLOG -/

/-- BLOG as a write that starts recording leaves it: the address and MODE 01 taken, of the two flags those not written 1. -/
def blogRecording (old v : W64) : W64 :=
  let flags : W64 := (old &&& 0xC) &&& ~~~ v
  setBits (setBits (setBits (setBits 0 63 16 (bits v 63 16)) 1 0 1) 3 3 (bits flags 3 3)) 2 2 (bits flags 2 2)

theorem blogRecording_mode (old v : W64) : bits (blogRecording old v) 1 0 = 1 := by
  rw [blogRecording, bits_setBits_apart _ _ (by decide), bits_setBits_apart _ _ (by decide), bits_setBits_same _ (by decide) (by decide)]

theorem blogRecording_address (old v : W64) : bits (blogRecording old v) 63 16 = bits v 63 16 := by
  rw [blogRecording, bits_setBits_apart _ _ (by decide), bits_setBits_apart _ _ (by decide), bits_setBits_apart _ _ (by decide),
    bits_setBits_same _ (by decide) (bits_lt v 63 16)]

theorem blogRecording_flag (old v : W64) {j : Nat} (hj : j = 2 ∨ j = 3) :
    (blogRecording old v).getLsbD j = (old.getLsbD j && !v.getLsbD j) := by
  rcases hj with rfl | rfl
  · rw [blogRecording, getLsbD_setBits_bit _ _ (by decide)]
    simp
  · rw [blogRecording, getLsbD_setBits, if_neg (by decide), getLsbD_setBits_bit _ _ (by decide)]
    simp

section Blog

variable {s : State}

theorem tenant_updBlog (s : State) (c : Nat) (f : BlogSt → BlogSt) (y : Nat) : (s.updBlog c f).tenant y = s.tenant y := by
  rw [State.updBlog]
  refine tenant_congr (fun x => ?_) (fun x => ?_) y
  · refine ctx_field_updCtx Ctx.depth ?_ s _ x
    exact fun _ => rfl
  · refine ctx_field_updCtx Ctx.parent ?_ s _ x
    exact fun _ => rfl

/-- The log of a tenant changed. -/
theorem blog_updBlog {c : Nat} (ht : s.tenant c = c) (hc : (SMap.find? s.ctxs c).isSome = true) (f : BlogSt → BlogSt) :
    ((s.updBlog c f).ctx c).blog = f (s.ctx c).blog := by
  rw [State.updBlog, ht, ctx_updCtx_same hc]

theorem updBlog_frame (s : State) (c : Nat) (f : BlogSt → BlogSt) :
    (s.updBlog c f).agents = s.agents ∧ (s.updBlog c f).cores = s.cores ∧ (s.updBlog c f).mem = s.mem := by
  simp only [State.updBlog, State.updCtx_agents, State.updCtx_cores, State.updCtx_mem, and_self]

/-- 07 R212: MODE 11 leaves the register as it is. -/
theorem wrBlog_reserved {v : W64} (hv : bits v 1 0 = 3) : s.wrBlog v = s := if_pos hv

/-- 07 R212: recording begins anew where the mode was another one. -/
theorem wrBlog_recording {v : W64} (hv : bits v 1 0 = 1) (hf : s.dev.featacc.getLsbD 5 = true) :
    let T := s.tenant s.myCtx
    let old := (s.ctx T).blog.reg
    let t := s.updBlog T (fun g => { g with reg := blogRecording old v })
    s.wrBlog v = if bits old 1 0 ≠ 1 then t.updBlog T (fun g => { g with seq := 0, pos := 0, session := g.session + 1 }) else t := by
  simp only [State.wrBlog, hv, bit, hf, if_true, Nat.reduceEqDiff, if_false, true_and, false_and]
  rfl

theorem wrBlog_recording_effect {v : W64} (hv : bits v 1 0 = 1) (hf : s.dev.featacc.getLsbD 5 = true)
    (hc : (SMap.find? s.ctxs (s.tenant s.myCtx)).isSome = true) :
    let old := (s.ctx (s.tenant s.myCtx)).blog.reg
    let g := ((s.wrBlog v).ctx (s.tenant s.myCtx)).blog
    g.reg = blogRecording old v ∧ (bits old 1 0 ≠ 1 → g.seq = 0 ∧ g.pos = 0) ∧ (s.wrBlog v).agents = s.agents
      ∧ (s.wrBlog v).cores = s.cores ∧ (s.wrBlog v).mem = s.mem := by
  have hT := tenant_tenant s s.myCtx
  rw [wrBlog_recording hv hf]
  generalize s.tenant s.myCtx = T at hT hc ⊢
  dsimp only
  generalize ht : s.updBlog T _ = t
  have hreg : (t.ctx T).blog.reg = blogRecording (s.ctx T).blog.reg v := by rw [← ht, blog_updBlog hT hc]
  have hframe : t.agents = s.agents ∧ t.cores = s.cores ∧ t.mem = s.mem := ht ▸ updBlog_frame s T _
  by_cases ho : bits (s.ctx T).blog.reg 1 0 = 1
  · rw [if_neg (fun h => h ho)]
    exact ⟨hreg, fun h => absurd ho h, hframe⟩
  · have htT : t.tenant T = T := by rw [← ht, tenant_updBlog, hT]
    have htc : (SMap.find? t.ctxs T).isSome = true := by rw [← ht, State.updBlog, isSome_updCtx, hc]
    obtain ⟨ha, hco, hm⟩ := updBlog_frame t T (fun g => { g with seq := 0, pos := 0, session := g.session + 1 })
    rw [if_pos ho, blog_updBlog htT htc, ha, hco, hm]
    exact ⟨hreg, fun _ => ⟨rfl, rfl⟩, hframe⟩

end Blog

/-! ### CHKREG -/

/-- What CHKREG accepts (02 R62, 17 R438): a checked range inside the window and the context's share, where the device checks at all. -/
def chkregOk (s : State) (w : Win) (v : W64) : Prop :=
  s.chkOn = true ∧ bits v 22 16 ≤ w.cap ∧ (bits v 8 0 + bits v 22 16) * 65536 ≤ w.lim - w.base

theorem wrChkreg_eq (s : State) (v : W64) :
    let clu := cluOf s.cu.core
    let w := s.win s.myCtx clu
    (¬chkregOk s w v → s.wrChkreg v = s)
      ∧ (chkregOk s w v → s.wrChkreg v = s.putWin s.myCtx clu { w with chkBase := bits v 8 0, chkLen := bits v 22 16 }) := by
  have key : (!s.chkOn) = true ∨ (s.win s.myCtx (cluOf s.cu.core)).cap < bits v 22 16
      ∨ (s.win s.myCtx (cluOf s.cu.core)).lim - (s.win s.myCtx (cluOf s.cu.core)).base < (bits v 8 0 + bits v 22 16) * 65536
      ↔ ¬chkregOk s (s.win s.myCtx (cluOf s.cu.core)) v := by
    simp only [chkregOk, Classical.not_and_iff_not_or_not, Nat.not_le, Bool.not_eq_true, Bool.not_eq_true']
  exact ⟨fun h => if_pos (key.2 h), fun h => if_neg fun hk => key.1 hk h⟩

theorem win_putWin {s : State} {c : Nat} (h : (SMap.find? s.ctxs c).isSome = true) (clu : Nat) (w : Win) : (s.putWin c clu w).win c clu = w := by
  unfold State.putWin
  dsimp only
  rw [State.win, ctx_updCtx_same (by split <;> exact h)]
  simp only [SMap.find?_put_same, Option.getD_some]

/-- Of storage a window put changes metadata only. -/
theorem putWin_frame (s : State) (c clu : Nat) (w : Win) :
    (s.putWin c clu w).agents = s.agents ∧ (s.putWin c clu w).mem.bytes = s.mem.bytes ∧ (s.putWin c clu w).mem.spad = s.mem.spad := by
  unfold State.putWin
  dsimp only
  rw [State.updCtx_agents, State.updCtx_mem]
  split <;> exact ⟨rfl, rfl, rfl⟩

/-! ### ACCFREE -/

section Accfree

variable {s : State} {v : W64}

theorem wrAccfree_no_rows (h : (s.accRows s.myCtx s.cu.core).2 = 0) : s.wrAccfree v = .done s := if_pos h

/-- 02 R51: where the columns withdrawn hold nothing parked, the register takes the value. -/
theorem wrAccfree_nothing_parked (h : (s.accRows s.myCtx s.cu.core).2 ≠ 0)
    (hq : s.quartersIn s.myCtx s.cu.core ((List.range 64).filter (fun j => bit (s.accFree s.myCtx s.cu.core) j && !bit v j)) = []) :
    s.wrAccfree v = .done (s.updCore s.cu.core (fun k => { k with accfree := SMap.set 0 k.accfree s.myCtx v })) := by
  simp only [State.wrAccfree, h, if_false, hq, State.evictAll]

theorem accFree_updCore {c core : Nat} (h : (s.accRows c core).2 ≠ 0) :
    (s.updCore core (fun k => { k with accfree := SMap.set 0 k.accfree c v })).accFree c core = v := by
  have hr : ((s.updCore core (fun k => { k with accfree := SMap.set 0 k.accfree c v })).accRows c core).2 ≠ 0 := h
  rw [State.accFree, if_neg hr, State.core_updCore_same, SMap.get_set_same]

end Accfree

/-! ### Interleave sets -/

/-- Whether a set's word can be enabled as set n (02 R68, R69). -/
def isetFits (d : Dev) (n : Nat) (w : W64) : Bool :=
  let k := 2 ^ isetWays w
  let meets (x : W64) : Bool := isetEn x && isetFirst x < isetFirst w + k && isetFirst w < isetFirst x + 2 ^ isetWays x
  isetWays w ≤ 6 && isetFirst w % k == 0 && isetCkg w ≤ 4 && !d.iset.any (fun e => e.1 != n && meets e.2)

theorem isetFits_iff (d : Dev) (n : Nat) (w : W64) :
    isetFits d n w = true ↔ isetWays w ≤ 6 ∧ isetFirst w % 2 ^ isetWays w = 0 ∧ isetCkg w ≤ 4
      ∧ ∀ e ∈ d.iset, e.1 ≠ n → isetEn e.2 = true →
        isetFirst w + 2 ^ isetWays w ≤ isetFirst e.2 ∨ isetFirst e.2 + 2 ^ isetWays e.2 ≤ isetFirst w := by
  simp only [isetFits, Bool.and_eq_true, decide_eq_true_eq, beq_iff_eq, Bool.not_eq_true', List.any_eq_false, bne_iff_ne, not_and, Nat.not_lt,
    and_assoc, Decidable.or_iff_not_imp_left, Nat.not_le]

/-- The word of a set after a write: not enabled where it does not fit. -/
def isetTaken (d : Dev) (n : Nat) (w : W64) : W64 := if isetEn w && !isetFits d n w then setBits w 31 31 0 else w

theorem isetTaken_of_fits {d : Dev} {n : Nat} {w : W64} (h : isetFits d n w = true) : isetTaken d n w = w := by simp [isetTaken, h]

theorem isetEn_isetTaken {d : Dev} {n : Nat} {w : W64} (h : isetFits d n w = false) : isetEn (isetTaken d n w) = false := by
  cases he : isetEn w with
  | true =>
    rw [isetTaken, if_pos (by simp [he, h]), isetEn, bit, getLsbD_setBits]
    rfl
  | false => simp [isetTaken, he]

theorem wrIset_iset (s : State) (n : Nat) (v : W64) :
    (s.wrIset n v).dev.iset = SMap.set 0 s.dev.iset n (isetTaken s.dev n (v &&& 0x873F0007)) := rfl

theorem carved_of_disabled {w : W64} (h : isetEn w = false) (g l : Nat) : carved w g l = false := by simp [carved, h]

/-- A set that was not enabled has no carve-out to give back (02 R71). -/
theorem wrIset_bytes {s : State} {n : Nat} (h : isetEn (SMap.get 0 s.dev.iset n) = false) (v : W64) : (s.wrIset n v).mem.bytes = s.mem.bytes := by
  unfold State.wrIset
  dsimp only
  exact SMap.keep_all _ fun a _ => by rw [carved_of_disabled h]; rfl

/-! ### Hardware semaphores -/

/-- A semaphore with a new word, for a request of the device. -/
def State.putHsem (s : State) (n : Nat) (x : W64) : State :=
  ({ s with dev := { s.dev with hsem := SMap.set 0 s.dev.hsem n x } }).semServed n 3

theorem putHsem_words (s : State) (n : Nat) (x : W64) :
    SMap.get 0 (s.putHsem n x).dev.hsem n = x ∧ SMap.get 0 (s.putHsem n x).dev.hsemLast n = 3
      ∧ ∀ j, j ≠ n → SMap.get 0 (s.putHsem n x).dev.hsem j = SMap.get 0 s.dev.hsem j :=
  ⟨SMap.get_set_same _ _ _ _, SMap.get_set_same 0 s.dev.hsemLast n 3, fun _ hj => SMap.get_set_ne _ _ _ hj⟩

/-- Published states joined change race states only. -/
theorem foldl_joinPub (l : List Pub) (s : State) : ∃ rs, l.foldl (fun s p => s.joinPub s.myRace p) s = { s with races := rs } := by
  induction l generalizing s with
  | nil => exact ⟨s.races, rfl⟩
  | cons p l ih => exact ih (s.joinPub s.myRace p)

/-- A release changes race states and cluster epochs only. -/
theorem release_frame (s : State) (scope : Nat) :
    (s.release scope).1.dev = s.dev ∧ (s.release scope).1.mem = s.mem ∧ (s.release scope).1.agents = s.agents
      ∧ (s.release scope).1.cores = s.cores := by
  unfold State.release State.publishClose State.publish
  by_cases h1 : 1 ≤ scope <;> by_cases h3 : 3 ≤ scope <;> simp [h1, h3]

section Hsem

variable {s : State} {n : Nat} {v : W64}

/-- 17 R437: a free semaphore acquired. -/
theorem wrHsem_acquire (hv : bits v 1 0 = 3) (hx : bits (SMap.get 0 s.dev.hsem n) 1 0 = 0) :
    ∃ rs, s.wrHsem n v = .done (({ s with races := rs }).putHsem n (setBits (SMap.get 0 s.dev.hsem n) 1 0 3)) := by
  obtain ⟨rs, hrs⟩ := foldl_joinPub ((SMap.get [] s.mem.pubs (semKey n)).filter (fun p => edgeOk p s.myRace 4)) s
  refine ⟨rs, ?_⟩
  simp only [State.wrHsem, hv, hx, and_self, if_true, hrs]
  rfl

/-- 17 R437: a semaphore of the device released, with the data. -/
theorem wrHsem_release (hv : bits v 1 0 = 0) (hx : bits (SMap.get 0 s.dev.hsem n) 1 0 = 3) (hp : s.allPerformed = true)
    (he : s.exhausted 1 4 = false) :
    let t := (s.release 4).1
    ∃ ps, s.wrHsem n v = .done (({ t with mem := { t.mem with pubs := ps } }).putHsem n (BitVec.ofNat 64 (bits v 63 32 * 2 ^ 32))) := by
  refine ⟨SMap.set [] (s.release 4).1.mem.pubs (semKey n) [(s.release 4).2], ?_⟩
  rw [State.wrHsem]
  dsimp only
  rw [if_neg (by omega), if_pos ⟨hv, hx⟩, hp, he]
  rfl

/-- 17 R437: a request that is neither an acquire of a free semaphore nor a release of an own one is served and changes nothing else. -/
theorem wrHsem_refused (ha : ¬(bits v 1 0 = 3 ∧ bits (SMap.get 0 s.dev.hsem n) 1 0 = 0))
    (hr : ¬(bits v 1 0 = 0 ∧ bits (SMap.get 0 s.dev.hsem n) 1 0 = 3)) : s.wrHsem n v = .done (s.semServed n 3) := by
  rw [State.wrHsem]
  dsimp only
  rw [if_neg ha, if_neg hr]

end Hsem

/-- A write of a semaphore's register, by its outcome. -/
theorem completes_hsem {s t : State} {u : U} {i : Instr} {P : State → Prop}
    (hi : exec i s = s.csrStore u (fun s v => s.wrHsem (csrNo u - 0x060) v)) (h0 : s.lane0 u = true) (hg : s.csrGate (csrNo u) = none)
    (hw : s.wrHsem (csrNo u - 0x060) (s.sB u) = .done t) (ht : P t) : Completes i u s P :=
  completes_csrStore _ hi h0 hg hw ht

/-! ### Counters -/

section Counters

variable {s : State} {n : Nat}

/-- The number of the counter of a register in a context's maps. -/
def pmcKey (s : State) (n : Nat) : Nat := s.cu.core * 16 + (n - 0x110) / 2

theorem csrValue_pmcLo (hn : 0x110 ≤ n) (he : n % 2 = 0) (hl : s.pmcLost ((n - 0x110) / 2) = false) :
    s.csrValue n = BitVec.ofNat 64 (bits (SMap.get 0 (s.ctx s.myCtx).pmc (pmcKey s n)) 31 0) := by
  unfold State.csrValue
  split
  case h_27 =>
    dsimp only
    rw [if_neg (by omega), if_neg (by omega), if_neg (by omega), if_neg (by omega), if_neg (by omega), hl, if_neg Bool.false_ne_true, if_pos he]
    rfl
  all_goals omega

/-- 16 R430: a read of the low half latches the upper bits. -/
theorem csrTouched_pmcLo (hn : 0x110 ≤ n) (he : n % 2 = 0) (hl : s.pmcLost ((n - 0x110) / 2) = false)
    (hc : (SMap.find? s.ctxs s.myCtx).isSome = true) :
    SMap.get 0 ((s.csrTouched n).ctx s.myCtx).pmsh (pmcKey s n) = BitVec.ofNat 64 (bits (SMap.get 0 (s.ctx s.myCtx).pmc (pmcKey s n)) 62 32) := by
  have hcond : 0x110 ≤ n ∧ n % 2 = 0 ∧ (!s.pmcLost ((n - 0x110) / 2)) = true := ⟨hn, he, by rw [hl]; rfl⟩
  rw [State.csrTouched, if_pos hcond, ctx_updCtx_same hc]
  exact SMap.get_set_same _ _ _ _

/-- 16 R430: the high half written, the low half and the other counters as they were. -/
theorem wrPmc_high (ho : n % 2 = 1) (hc : (SMap.find? s.ctxs s.myCtx).isSome = true) (v : W64) :
    let k := pmcKey s n
    let old := SMap.get 0 (s.ctx s.myCtx).pmc k
    let new := ((s.wrPmc n v).ctx s.myCtx).pmc
    bits (SMap.get 0 new k) 62 32 = bits v 30 0 ∧ bits (SMap.get 0 new k) 31 0 = bits old 31 0
      ∧ (∀ j, j ≠ k → SMap.get 0 new j = SMap.get 0 (s.ctx s.myCtx).pmc j)
      ∧ (s.wrPmc n v).agents = s.agents ∧ (s.wrPmc n v).cores = s.cores ∧ (s.wrPmc n v).mem = s.mem := by
  have hnew : ((s.wrPmc n v).ctx s.myCtx).pmc
      = SMap.set 0 (s.ctx s.myCtx).pmc (pmcKey s n) (setBits (SMap.get 0 (s.ctx s.myCtx).pmc (pmcKey s n)) 62 32 (bits v 30 0)) := by
    rw [State.wrPmc, ctx_updCtx_same hc]
    simp only [ho, Nat.one_ne_zero, if_false]
    rfl
  dsimp only
  rw [hnew, SMap.get_set_same]
  refine ⟨bits_setBits_same _ (by decide) (bits_lt v 30 0), bits_setBits_apart _ _ (by decide), fun j hj => SMap.get_set_ne _ _ _ hj, ?_⟩
  simp only [State.wrPmc, State.updCtx_agents, State.updCtx_cores, State.updCtx_mem, and_self]

end Counters

/-- Settles O47: each instruction is a CSR.WR or a CSR.RD that passes the gate, so that the lemma about its register's function applies. -/
theorem registerEffects : Obligations.RegisterEffects := by
  refine ⟨fun u s h0 hg => ?_, chkresetDone_completes⟩
  refine ⟨fun h => ?_, fun hv hb hc => ?_, fun hv => ?_, fun hv hf hc => ?_, ?_, ⟨fun hno => ?_, fun hok hc => ?_⟩, fun hr => ?_, fun hr hq => ?_,
    fun hlo hhi => ?_, fun hlo hhi => ⟨fun hv hx => ?_, fun hv hx => ?_, fun hv hx hp he => ?_, fun hv hx => ?_⟩,
    fun hlo hhi hl hc => ⟨fun he => ?_, fun ho => ?_⟩⟩
  · exact completes_csrDone State.wrChkreset rfl h0 hg (wrChkreset_idle h)
  · exact completes_csrDone State.wrChkreset rfl h0 hg (wrChkreset_go hv hb hc)
  · exact completes_csrDone State.wrBlog rfl h0 hg (wrBlog_reserved hv)
  · obtain ⟨hreg, hseq, hframe⟩ := wrBlog_recording_effect hv hf hc
    refine completes_csrDone State.wrBlog rfl h0 hg ?_
    dsimp only
    rw [hreg]
    exact ⟨blogRecording_mode _ _, blogRecording_address _ _, fun j hj => blogRecording_flag _ _ hj, hseq, hframe⟩
  · exact completes_csrDone State.wrBcmbase rfl h0 hg rfl
  · exact completes_csrDone State.wrChkreg rfl h0 hg ((wrChkreg_eq s (s.sB u)).1 hno)
  · refine completes_csrDone State.wrChkreg rfl h0 hg ?_
    rw [(wrChkreg_eq s (s.sB u)).2 hok, win_putWin hc]
    exact ⟨rfl, rfl, rfl, rfl, rfl, putWin_frame _ _ _ _⟩
  · exact completes_csrStore State.wrAccfree rfl h0 hg (wrAccfree_no_rows hr) rfl
  · exact completes_csrStore State.wrAccfree rfl h0 hg (wrAccfree_nothing_parked hr hq)
      ⟨accFree_updCore hr, fun j hj => by rw [State.core_updCore, if_neg hj], rfl⟩
  · refine completes_csrDone (fun s v => s.wrIset (csrNo u - 0x050) v) rfl h0 hg
      ⟨fun h => ?_, fun h => ?_, fun j hj => ?_, fun h => wrIset_bytes h _, rfl, rfl, rfl⟩
    · rw [wrIset_iset, SMap.get_set_same, isetTaken_of_fits ((isetFits_iff _ _ _).2 h)]
    · rw [wrIset_iset, SMap.get_set_same, isetEn_isetTaken (Bool.eq_false_iff.2 fun hf => h ((isetFits_iff _ _ _).1 hf))]
    · rw [wrIset_iset, SMap.get_set_ne _ _ _ hj]
  · obtain ⟨rs, hw⟩ := wrHsem_acquire hv hx
    obtain ⟨hsame, hlast, hother⟩ := putHsem_words { s with races := rs } (csrNo u - 0x060)
      (setBits (SMap.get 0 s.dev.hsem (csrNo u - 0x060)) 1 0 3)
    exact completes_hsem rfl h0 hg hw ⟨hsame, hlast, hother, rfl, rfl, rfl⟩
  · exact completes_hsem rfl h0 hg (wrHsem_refused (fun h => hx h.2) (fun h => by omega)) ⟨rfl, rfl⟩
  · obtain ⟨ps, hw⟩ := wrHsem_release hv hx hp he
    obtain ⟨hdev, hmem, hag, hco⟩ := release_frame s 4
    generalize (s.release 4).1 = t at hw hdev hmem hag hco
    obtain ⟨hsame, hlast, hother⟩ := putHsem_words { t with mem := { t.mem with pubs := ps } } (csrNo u - 0x060)
      (BitVec.ofNat 64 (bits (s.sB u) 63 32 * 2 ^ 32))
    rw [← hdev, ← hag, ← hco, ← hmem]
    exact completes_hsem rfl h0 hg hw ⟨hsame, hlast, hother, rfl, rfl, rfl⟩
  · exact completes_hsem rfl h0 hg (wrHsem_refused (fun h => by omega) (fun h => hx h.2)) ⟨rfl, rfl⟩
  · refine completes_csrRead rfl h0 hg ⟨?_, ?_⟩
    · rw [csrValue_pmcLo hlo he hl]
      exact wroteS_wrS _ _ _ _
    · rw [State.ctx_congr (State.wrS_ctxs _ _ _ _)]
      exact csrTouched_pmcLo hlo he hl hc
  · exact completes_csrDone (fun s v => s.wrPmc (csrNo u) v) rfl h0 hg (wrPmc_high ho hc _)

end Sys2Proof.Machine
end

section
/-! ## Bookings (O50)

A search for a slot, first fit by first fit (07 R198); records, the steps that a placement holds and its commit (R199); what a booking unit's
writes and the handing out of records leave alone; the watchdogs that a slot boundary counts (06 R173); then, event by event, the slot boundary
(07 R177), the wait list (R201), backfill (R208), admission (R187), aging (R188), and what lapses (R203). An event that is not due changes
nothing (log 156), chains that wait for a record take one before an admission (log 97), and a boundary notes which watchdogs were full (log 193). -/

namespace Sys2Proof.Machine

/-! ### Searches -/

/-- 07 R198: the slot found is the first at which the group fits, and its longest step ends within the horizon. -/
theorem findSlot_spec {s : State} {c : Nat} {but : List Nat} {g : List BStep} {n lo u : Nat} {l : List (BStep × Nat)}
    (h : s.findSlot c but g n lo = some (u, l)) :
    lo ≤ u ∧ s.placeGroup c but u g [] = some l ∧ u + (g.map (·.dur)).foldl max 0 ≤ s.slotNo + 1024
      ∧ ∀ v, lo ≤ v → v < u → s.placeGroup c but v g [] = none := by
  induction n generalizing lo with
  | zero => cases h
  | succ n ih =>
    unfold State.findSlot at h
    dsimp only at h
    split at h
    · cases h
    next hroom =>
      split at h
      next hp =>
        cases h
        exact ⟨Nat.le_refl _, hp, Nat.le_of_not_lt hroom, fun v hv hu => absurd hv (Nat.not_le_of_lt hu)⟩
      next hp =>
        obtain ⟨hlo, hpl, hend, hnone⟩ := ih h
        refine ⟨Nat.le_of_lt hlo, hpl, hend, fun v hv hu => ?_⟩
        obtain rfl | hv := Nat.eq_or_lt_of_le hv
        · exact hp
        · exact hnone v hv hu

/-! ### Records -/

section Records

variable {s : State} {k : Nat} {b : Booking}

theorem recOf_congr {t : State} (h : t.book.recs = s.book.recs) (k : Nat) : t.recOf k = s.recOf k := by rw [State.recOf, State.recOf, h]

/-- Changes that leave the booking units alone. -/
theorem recOf_foldl {β : Type} {f : State → β → State} (hf : ∀ t x, (f t x).book = t.book) (l : List β) (s : State) (k : Nat) :
    (l.foldl f s).recOf k = s.recOf k := by
  induction l generalizing s with
  | nil => rfl
  | cons x l ih => exact (ih _).trans (recOf_congr (congrArg Book.recs (hf s x)) k)

@[simp] theorem recOf_updRec_same (s : State) (k : Nat) (f : Booking → Booking) : (s.updRec k f).recOf k = (s.recOf k).map f :=
  (SMap.find?_upd _ _ _ _).trans (if_pos rfl)

theorem recOf_of_bookAt {h : Nat} (hb : s.bookAt h = some b) : s.recOf (hKey h) = some b := by
  unfold State.bookAt at hb
  split at hb
  next y hy =>
    split at hb
    · exact hy.trans hb
    · cases hb
  next => cases hb

/-- Of a list with its index, the change at one index. -/
theorem zipIdx_map_eq_modify {α : Type} (l : List α) (i : Nat) (f : α → α) :
    l.zipIdx.map (fun e => if e.2 = i then f e.1 else e.1) = l.modify i f := by
  refine List.ext_getElem? fun j => ?_
  rw [List.getElem?_map, List.getElem?_zipIdx, List.getElem?_modify]
  cases l[j]? with
  | none => rfl
  | some x => simp [eq_comm]

@[simp] theorem recOf_updStep_same (s : State) (k i : Nat) (f : BStep → BStep) :
    (s.updStep k i f).recOf k = (s.recOf k).map (fun b => { b with steps := b.steps.modify i f }) := by
  rw [State.updStep, recOf_updRec_same]
  simp only [zipIdx_map_eq_modify]

end Records

/-! ### The steps that a placement holds -/

/-- A step held tentatively on an engine from a slot on (07 R198). -/
def BStep.heldOn (x : BStep) (idx start : Nat) : BStep :=
  { x with idx := idx, slots := x.slots ++ span start x.dur, tent := true, fixed := true, leg := .none }

/-- The steps of a booking with those of a placement held. -/
def heldSteps (pl : List (Nat × Nat × Nat)) (l : List BStep) : List BStep := pl.foldl (fun l e => l.modify e.1 (·.heldOn e.2.1 e.2.2)) l

section Held

variable {pl : List (Nat × Nat × Nat)} {l : List BStep}

theorem recOf_holdPlacement (s : State) (k : Nat) (pl : List (Nat × Nat × Nat)) :
    (s.holdPlacement k pl).recOf k = (s.recOf k).map (fun b => { b with steps := heldSteps pl b.steps }) := by
  induction pl generalizing s with
  | nil =>
    show s.recOf k = (s.recOf k).map id
    rw [Option.map_id_fun, id]
  | cons e pl ih =>
    refine (ih _).trans ?_
    rw [recOf_updStep_same, Option.map_map]
    rfl

@[simp] theorem heldSteps_length (pl : List (Nat × Nat × Nat)) (l : List BStep) : (heldSteps pl l).length = l.length := by
  induction pl generalizing l with
  | nil => rfl
  | cons e pl ih => exact (ih _).trans (List.length_modify _ _ _)

/-- A step that the placement does not name. -/
theorem heldSteps_getElem?_of_unnamed {i : Nat} (h : ∀ e ∈ pl, e.1 ≠ i) : (heldSteps pl l)[i]? = l[i]? := by
  induction pl generalizing l with
  | nil => rfl
  | cons e pl ih =>
    obtain ⟨he, hpl⟩ := List.forall_mem_cons.1 h
    refine (ih hpl).trans ?_
    exact List.getElem?_modify_ne _ _ he

/-- A step that the placement names once. -/
theorem heldSteps_getElem?_of_named (hnd : (pl.map Prod.fst).Nodup) {e : Nat × Nat × Nat} (he : e ∈ pl) :
    (heldSteps pl l)[e.1]? = l[e.1]?.map (·.heldOn e.2.1 e.2.2) := by
  induction pl generalizing l with
  | nil => cases he
  | cons a pl ih =>
    obtain ⟨ha, hnd⟩ := List.nodup_cons.1 hnd
    have hother : ∀ x ∈ pl, x.1 ≠ a.1 := fun x hx h => ha (h ▸ List.mem_map_of_mem hx)
    obtain rfl | he := List.mem_cons.1 he
    · refine (heldSteps_getElem?_of_unnamed hother).trans ?_
      exact List.getElem?_modify_eq _ _ _
    · refine (ih hnd he).trans ?_
      exact congrArg _ (List.getElem?_modify_ne _ _ (hother e he).symm)

/-- Holding a step changes none of its words. -/
theorem heldSteps_local (h : ∀ x ∈ l, sRem x.w0 = false) : ∀ x ∈ heldSteps pl l, sRem x.w0 = false := by
  induction pl generalizing l with
  | nil => exact h
  | cons e pl ih =>
    refine ih fun x hx => ?_
    obtain ⟨i, hi, rfl⟩ := List.getElem_of_mem hx
    have hi' : i < l.length := List.length_modify _ _ _ ▸ hi
    rw [List.getElem_modify]
    split <;> exact h l[i] (List.getElem_mem hi')

end Held

/-! ### What a write of a booking unit leaves alone -/

theorem Walked.book {s t : State} (h : Walked s t) : t.book = s.book := by
  have e : s = _ := (show _ = s from h).symm
  rw [e]

theorem StoreOnly.book {s t : State} (h : StoreOnly s t) : t.book = s.book := by
  have e : s = _ := (show _ = s from h).symm
  rw [e]

theorem walked_accessFor (s : State) (free : Bool) (c : Nat) (acc : Acc) (spill : Bool) (va : W64) (n : Nat) :
    Walked s (s.accessFor free c acc spill va n).1 := walked_piecesFor _ _ _ _ _ _ _ _

theorem walked_l2Pieces (s : State) (ps : List Piece) (wr : Bool) : Walked s (s.l2Pieces ps wr) := by
  refine walked_foldl _ _ (fun s p => ?_) s
  split
  · exact walked_refl s
  · exact walked_l2Touch s p.a p.pol wr

@[simp] theorem storeAs_book (s : State) (c : Nat) (ps : List Piece) (data : List Byte) : (s.storeAs c ps data).book = s.book :=
  (storeOnly_store _ ps data).book.trans
    (walked_trans (walked_foldl ps _ (fun s p => walked_ite (walked_refl s) (walked_mark s c p.va p.n)) s) (walked_markAd _)).book

@[simp] theorem bookWrite_book (s : State) (c : Nat) (va : W64) (data : List Byte) : (s.bookWrite c va data).1.book = s.book := by
  unfold State.bookWrite
  split
  next h => exact (walked_of h (walked_accessFor _ _ _ _ _ _ _)).book
  next h => exact ((walked_l2Pieces _ _ _).book.trans (storeAs_book _ _ _ _)).trans (walked_of h (walked_accessFor _ _ _ _ _ _ _)).book

@[simp] theorem updBlog_book (s : State) (c : Nat) (f : BlogSt → BlogSt) : (s.updBlog c f).book = s.book := State.updCtx_book _ _ _

/-- A commit or a backfill is recorded, or has been imposed: no record of a booking changes. -/
theorem logEvent_book (s : State) {kind : Nat} (h : kind < 2) (k : Nat) : (s.logEvent kind k).book = s.book := by
  unfold State.logEvent
  split
  · rfl
  · dsimp only
    split
    · split
      · exact updBlog_book _ _ _
      · exact (updBlog_book _ _ _).trans (bookWrite_book _ _ _ _)
    · rw [if_pos h]
    · rfl

/-! ### Commits -/

section Commit

variable {s : State} {k : Nat} {b : Booking}

/-- 07 R199: the first commit of a booking. -/
theorem recOf_commitRec (hb : s.recOf k = some b) (hst : b.st = 1 ∨ b.st = 6) {kind : Nat} (hk : kind < 2) :
    ∃ b', (s.commitRec k kind).recOf k = some b' ∧ b'.st = 2 ∧ b'.steps = b.steps.map (fun x => { x with tent := false }) := by
  have hfirst : (b.st != 1 && b.st != 6) = false := by rcases hst with h | h <;> simp [h]
  have hthree : b.st ≠ 3 := by omega
  have hrec : ∀ st : Nat, State.recOf { s with book := { s.book with stamp := st } } k = some b := fun _ => hb
  unfold State.commitRec
  dsimp only
  simp only [hb, hfirst, Bool.false_eq_true, if_false]
  rw [recOf_congr (congrArg Book.recs (logEvent_book _ hk k)), recOf_updRec_same, hrec]
  exact ⟨_, rfl, if_neg hthree, rfl⟩

/-- A step offered by its peer, once its COMMIT has gone out (07 R203). -/
def BStep.legCommitted (x : BStep) : BStep := if x.tent && x.leg == .offered then { x with leg := .committed } else x

theorem BStep.legCommitted_place (x : BStep) : x.legCommitted.idx = x.idx ∧ x.legCommitted.slots = x.slots := by
  unfold BStep.legCommitted
  split <;> exact ⟨rfl, rfl⟩

/-- 07 R199: a placement of local steps alone is committed at once. -/
theorem recOf_negotiate_local (hb : s.recOf k = some b) (hst : b.st = 1) (hloc : ∀ x ∈ b.steps, sRem x.w0 = false) :
    ∃ b', (s.negotiate k 0).recOf k = some b' ∧ b'.st = 2
      ∧ b'.steps = b.steps.map (fun x => { x.legCommitted with tent := false }) := by
  unfold State.negotiate
  simp only [hb]
  split
  next h =>
    obtain ⟨x, hx, h⟩ := List.any_eq_true.1 h
    simp [hloc x hx] at h
  next =>
    split
    next x i h =>
      have hx : x ∈ b.steps := List.fst_mem_of_mem_zipIdx (List.mem_of_find?_eq_some h)
      have hask := List.find?_some h
      simp [hloc x hx] at hask
    next =>
      have hcommit {t : State} (ht : t.recOf k = some { b with steps := b.steps.map BStep.legCommitted }) :
          ∃ b', (t.commitRec k 0).recOf k = some b' ∧ b'.st = 2 ∧ b'.steps = b.steps.map (fun x => { x.legCommitted with tent := false }) := by
        obtain ⟨b', hb', hst', hsteps⟩ := recOf_commitRec ht (.inl hst) (kind := 0) (by decide)
        exact ⟨b', hb', hst', hsteps.trans List.map_map⟩
      refine hcommit ?_
      rw [recOf_updRec_same, recOf_foldl, hb]
      · rfl
      · exact fun _ _ => rfl

end Commit

section Search

variable {s : State} {k : Nat} {b : Booking} (hb : s.recOf k = some b) (hlog : s.logMode b ≠ 2)
include hb hlog

theorem search_of_greedy_none (hg : s.greedy b (groupsOf b.steps) (s.lowerBound b) = none) : s.search k = s.noFit k 0 := by
  simp only [State.search, hb, hlog, false_and, if_false, hg]

theorem search_of_greedy_some {pl : List (Nat × Nat × Nat)} (hg : s.greedy b (groupsOf b.steps) (s.lowerBound b) = some pl) :
    s.search k = (s.holdPlacement k pl).negotiate k 0 := by
  simp only [State.search, hb, hlog, false_and, if_false, hg]

/-- 07 R198, R199: a booking all of whose steps are local is committed where the search places it. -/
theorem search_commits_local {pl : List (Nat × Nat × Nat)} (hg : s.greedy b (groupsOf b.steps) (s.lowerBound b) = some pl)
    (hnd : (pl.map Prod.fst).Nodup) (hst : b.st = 1) (hloc : ∀ x ∈ b.steps, sRem x.w0 = false) :
    ∃ b', (s.search k).recOf k = some b' ∧ b'.st = 2 ∧ b'.steps.length = b.steps.length
      ∧ ∀ i x, b.steps[i]? = some x → ∃ y, b'.steps[i]? = some y ∧ y.tent = false
        ∧ (∀ e ∈ pl, e.1 = i → y.idx = e.2.1 ∧ y.slots = x.slots ++ span e.2.2 x.dur)
        ∧ ((∀ e ∈ pl, e.1 ≠ i) → y.idx = x.idx ∧ y.slots = x.slots) := by
  have hheld : (s.holdPlacement k pl).recOf k = some { b with steps := heldSteps pl b.steps } := by
    rw [recOf_holdPlacement, hb, Option.map_some]
  obtain ⟨b', hb', hst', hsteps⟩ := recOf_negotiate_local hheld hst (heldSteps_local hloc)
  refine ⟨b', (search_of_greedy_some hb hlog hg).symm ▸ hb', hst', by simp [hsteps], fun i x hx => ?_⟩
  have hi : i < (heldSteps pl b.steps).length := by
    rw [heldSteps_length]
    exact (List.getElem?_eq_some_iff.1 hx).1
  have hy := List.getElem?_eq_getElem hi
  generalize (heldSteps pl b.steps)[i] = z at hy
  refine ⟨{ z.legCommitted with tent := false }, ?_, rfl, ?_, fun h => ?_⟩
  · rw [hsteps, List.getElem?_map, hy]
    rfl
  · rintro e he rfl
    rw [heldSteps_getElem?_of_named hnd he, hx] at hy
    obtain rfl := Option.some.inj hy
    exact BStep.legCommitted_place _
  · rw [heldSteps_getElem?_of_unnamed h, hx] at hy
    obtain rfl := Option.some.inj hy
    exact BStep.legCommitted_place _

end Search

/-! ### Records handed out -/

/-- The cycle and the cycles from which on admissions may come stand. -/
structure SameAdmit (s t : State) : Prop where
  cycle : t.cycle = s.cycle
  admitAt : t.book.admitAt = s.book.admitAt

theorem SameAdmit.refl (s : State) : SameAdmit s s := ⟨rfl, rfl⟩

theorem SameAdmit.trans {s t r : State} (h : SameAdmit s t) (h' : SameAdmit t r) : SameAdmit s r :=
  ⟨h'.cycle.trans h.cycle, h'.admitAt.trans h.admitAt⟩

/-- A pair's state, from the pair. -/
theorem SameAdmit.of_eq {α : Type} {s t : State} {x : State × α} {y : α} (h : SameAdmit s x.1) (e : x = (t, y)) : SameAdmit s t := by
  subst e
  exact h

theorem sameAdmit_updCtx (s : State) (c : Nat) (f : Ctx → Ctx) : SameAdmit s (s.updCtx c f) :=
  ⟨State.updCtx_cycle _ _ _, congrArg Book.admitAt (State.updCtx_book _ _ _)⟩

theorem sameAdmit_produceFor (s : State) (x core t : Nat) (clk : Clock) : SameAdmit s (s.produceFor x core t clk) := by
  unfold State.produceFor State.updRegs
  split
  · exact sameAdmit_updCtx _ _ _
  · exact ⟨rfl, rfl⟩

theorem sameAdmit_takeRec (s : State) (k ctx st reason : Nat) (hdr : W64) (steps : List BStep) (task : Nat) :
    SameAdmit s (s.takeRec k ctx st reason hdr steps task).1 := by
  unfold State.takeRec
  dsimp only
  split
  · split <;> exact ⟨rfl, rfl⟩
  · exact ⟨rfl, rfl⟩

theorem sameAdmit_refuseChain (s : State) (die c reason : Nat) (hdr : Option W64) : SameAdmit s (s.refuseChain die c reason hdr).1 := by
  unfold State.refuseChain
  split
  next t h e =>
    have ht : SameAdmit s t := by
      split at e
      · cases e
        exact .refl s
      · exact (sameAdmit_takeRec _ _ _ _ _ _ _ _).of_eq e
    split
    · exact ht.trans (sameAdmit_produceFor _ _ _ _ _)
    · exact ht

theorem sameAdmit_landHandle (s : State) (x : Nat) (dest : Option (Nat × Nat × Nat)) (h : W32) : SameAdmit s (s.landHandle x dest h) := by
  unfold State.landHandle
  split
  · exact .refl s
  · dsimp only
    split
    · exact ⟨rfl, rfl⟩
    · exact sameAdmit_updCtx _ _ _

theorem sameAdmit_updTask {s t : State} (h : SameAdmit s t) {k : Nat} {f : Task → Task} : SameAdmit s (t.updTask k f) := ⟨h.cycle, h.admitAt⟩

theorem sameAdmit_delTask {s t : State} (h : SameAdmit s t) {tasks : SMap Task} : SameAdmit s { t with book := { t.book with tasks := tasks } } :=
  ⟨h.cycle, h.admitAt⟩

theorem sameAdmit_giveRecs (s : State) (die : Nat) : SameAdmit s (s.giveRecs die) := by
  refine foldl_rel SameAdmit .refl (fun _ _ _ => .trans) _ (fun s e => ?_) _ s
  split
  · exact .refl s
  · split
    · exact .refl s
    · split
      · exact .refl s
      · split
        · split
          next h => exact (sameAdmit_delTask ((sameAdmit_refuseChain _ _ _ _ _).of_eq h)).trans (sameAdmit_landHandle _ _ _ _)
        · split
          next h => exact (sameAdmit_updTask ((sameAdmit_takeRec _ _ _ _ _ _ _ _).of_eq h)).trans (sameAdmit_landHandle _ _ _ _)

theorem giveRecs_of_no_tasks {s : State} (h : s.book.tasks = []) (die : Nat) : s.giveRecs die = s := by
  simp only [State.giveRecs, h, List.foldl_nil]

/-! ### Maps in canonical order -/

namespace SMap

variable {α : Type} {m : SMap α} {k : Nat} {x : α}

theorem mem_of_find? (h : find? m k = some x) : (k, x) ∈ m := by
  obtain ⟨e, he, rfl⟩ := Option.map_eq_some_iff.1 h
  have hk : e.1 = k := by simpa using List.find?_some he
  exact hk ▸ List.mem_of_find?_eq_some he

theorem find?_of_mem (hr : rising m = true) (h : (k, x) ∈ m) : find? m k = some x := by
  induction m with
  | nil => cases h
  | cons e t ih =>
    obtain ⟨habove, ht⟩ := rising_cons.1 hr
    rw [find?_cons]
    obtain rfl | h := List.mem_cons.1 h
    · exact if_pos rfl
    · rw [if_neg (Nat.ne_of_lt (habove _ h)), ih ht h]

theorem nodup_keys (hr : rising m = true) : (m.map Prod.fst).Nodup := by
  induction m with
  | nil => exact .nil
  | cons e t ih =>
    obtain ⟨habove, ht⟩ := rising_cons.1 hr
    refine List.nodup_cons.2 ⟨fun h => ?_, ih ht⟩
    obtain ⟨x, hx, he⟩ := List.mem_map.1 h
    exact absurd he (Nat.ne_of_gt (habove x hx))

/-- Whether keys rise is a matter of the keys. -/
theorem rising_map {β : Type} (f : α → β) (m : SMap α) : rising (m.map (fun e => (e.1, f e.2))) = rising m := by
  induction m with
  | nil => rfl
  | cons e t ih => rw [Bool.eq_iff_iff, List.map_cons, rising_cons, rising_cons, ih, List.forall_mem_map]

theorem ins_of_below (h : ∀ e ∈ m, k < e.1) (v : α) : ins m k v = (k, v) :: m := by
  cases m with
  | nil => rfl
  | cons e t => exact if_pos (h e List.mem_cons_self)

theorem upd_of_absent (h : ∀ e ∈ m, e.1 ≠ k) (f : α → α) : upd m k f = m :=
  (List.map_congr_left fun e he => if_neg (by simpa using h e he)).trans (List.map_id m)

theorem del_of_absent (h : ∀ e ∈ m, e.1 ≠ k) : del m k = m := List.filter_eq_self.2 fun e he => by simpa using h e he

/-- A value put in the place of another. -/
theorem put_eq_upd (hr : rising m = true) (h : find? m k = some x) (v : α) : put m k v = upd m k (fun _ => v) := by
  induction m with
  | nil => cases h
  | cons e t ih =>
    obtain ⟨habove, ht⟩ := rising_cons.1 hr
    have hdel : del (e :: t) k = if e.1 = k then del t k else e :: del t k := by by_cases he : e.1 = k <;> simp [del, he]
    have hupd : upd (e :: t) k (fun _ => v) = (if e.1 = k then (k, v) else e) :: upd t k (fun _ => v) := by simp [upd]
    rw [find?_cons] at h
    by_cases he : e.1 = k
    · subst he
      have habsent : ∀ y ∈ t, y.1 ≠ e.1 := fun y hy => Nat.ne_of_gt (habove y hy)
      rw [put, hdel, hupd, if_pos rfl, if_pos rfl, del_of_absent habsent, upd_of_absent habsent, ins_of_below habove]
    · rw [if_neg he] at h
      have hlt : ¬ k < e.1 := Nat.not_lt_of_gt (habove _ (mem_of_find? h))
      rw [put, hdel, hupd, if_neg he, if_neg he, ins, if_neg hlt, ← ih ht h, put]

end SMap

/-! ### Watchdogs -/

/-- A context but for the count of its watchdog. -/
def Ctx.uncounted (x : Ctx) : Ctx := { x with wdFull := false, wdCnt := 0 }

/-- Nothing has changed but the counts of watchdogs. -/
structure CountsOnly (s t : State) : Prop where
  rest : { t with ctxs := s.ctxs } = s
  ctxs : t.ctxs.map (fun e => (e.1, e.2.uncounted)) = s.ctxs.map (fun e => (e.1, e.2.uncounted))

/-- One watchdog counts the slot (06 R173) and notes whether it was full before (log 193). -/
def State.tick (s : State) (c : Nat) : State :=
  let counts := s.wdCounts c
  s.updCtx c (fun x => { x with wdFull := bits (s.cw c 5) 31 0 ≤ x.wdCnt, wdCnt := if counts then min 0xFFFFFFFF (x.wdCnt + 1) else x.wdCnt })

theorem tickWatchdogs_eq (s : State) : s.tickWatchdogs = (s.ctxs.map Prod.fst).foldl State.tick s := by
  rw [List.foldl_map]
  rfl

namespace CountsOnly

variable {s t r : State}

theorem refl (s : State) : CountsOnly s s := ⟨rfl, rfl⟩

theorem trans (h : CountsOnly s t) (h' : CountsOnly t r) : CountsOnly s r := by
  refine ⟨?_, h'.ctxs.trans h.ctxs⟩
  have e := congrArg (fun x : State => { x with ctxs := s.ctxs }) h'.rest
  exact e.trans h.rest

/-- A field of the state other than the contexts. -/
theorem field {β : Type} (h : CountsOnly s t) (g : State → β) (hg : ∀ x : State, g { x with ctxs := s.ctxs } = g x) : g t = g s :=
  (hg t).symm.trans (congrArg g h.rest)

/-- A field of a context other than the count. -/
theorem ctxField {β : Type} (h : CountsOnly s t) (g : Ctx → β) (hg : ∀ x, g x.uncounted = g x) (c : Nat) : g (t.ctx c) = g (s.ctx c) := by
  have hfind (u : State) : (u.ctx c).uncounted = (SMap.find? (u.ctxs.map (fun e => (e.1, e.2.uncounted))) c).getD Ctx.blank := by
    rw [SMap.find?_map (f := fun e : Nat × Ctx => (e.1, e.2.uncounted)) (fun _ => rfl)]
    exact (Option.getD_map Ctx.uncounted Ctx.blank _).symm
  rw [← hg, ← hg (s.ctx c), hfind, hfind, h.ctxs]

theorem cw (h : CountsOnly s t) (c k : Nat) : t.cw c k = s.cw c k :=
  congrArg (SMap.get 0 · k) (h.ctxField Ctx.w (fun _ => rfl) c)

theorem rising (h : CountsOnly s t) : SMap.rising t.ctxs = SMap.rising s.ctxs := by
  rw [← SMap.rising_map Ctx.uncounted, h.ctxs, SMap.rising_map]

theorem tenants (h : CountsOnly s t) : t.tenants = s.tenants := by
  have hmap (u : State) : u.tenants = ((u.ctxs.map (fun e => (e.1, e.2.uncounted))).filter (fun e => e.2.depth == 1)).map Prod.fst := by
    rw [List.filter_map, List.map_map]
    rfl
  rw [hmap, hmap, h.ctxs]

theorem holdsSide (h : CountsOnly s t) : t.holdsSide = s.holdsSide := by
  funext c core side
  simp only [State.holdsSide, h.cw]

theorem coreShared (h : CountsOnly s t) (core : Nat) : t.coreShared core = s.coreShared core := by
  rw [State.coreShared, State.coreShared, h.tenants, h.holdsSide]

theorem coreOpen (h : CountsOnly s t) (c core : Nat) : t.coreOpen c core = s.coreOpen c core := by
  have hdepth (c : Nat) := h.ctxField Ctx.depth (fun _ => rfl) c
  have hparent (c : Nat) := h.ctxField Ctx.parent (fun _ => rfl) c
  have hslices (c : Nat) := h.ctxField Ctx.slices (fun _ => rfl) c
  have hslot := h.field State.slotNo (fun _ => rfl)
  simp only [State.coreOpen, h.coreShared, State.windowOf, h.holdsSide, h.tenants, tenant_congr hdepth hparent, hdepth, hslices, hslot]

/-- Which watchdogs count does not hang on the counts. -/
theorem wdCounts (h : CountsOnly s t) (c : Nat) : t.wdCounts c = s.wdCounts c := by
  have hstt := h.ctxField Ctx.stt (fun _ => rfl) c
  have hag := h.field State.agents (fun _ => rfl)
  have hco := h.field State.cores (fun _ => rfl)
  have hopen : t.coreOpen c = s.coreOpen c := funext (h.coreOpen c)
  simp only [State.wdCounts, State.coresOf, h.holdsSide, h.cw, hstt, hag, hco, hopen]

end CountsOnly

/-- Only a context that exists has a watchdog that counts. -/
theorem mem_ctxs_of_wdCounts {s : State} {c : Nat} (h : s.wdCounts c = true) : c ∈ s.ctxs.map Prod.fst := by
  cases hc : SMap.find? s.ctxs c with
  | none => simp [State.wdCounts, State.ctx, hc, Ctx.blank] at h
  | some x => exact List.mem_map_of_mem (SMap.mem_of_find? hc)

theorem countsOnly_tick {s : State} (hr : SMap.rising s.ctxs = true) (c : Nat) : CountsOnly s (s.tick c) := by
  refine ⟨updCtx_restore s c _, ?_⟩
  unfold State.tick State.updCtx
  dsimp only
  split
  next x hx =>
    have hput := SMap.put_eq_upd hr hx
    show (SMap.put s.ctxs c _).map _ = _
    rw [hput, SMap.upd, List.map_map]
    refine List.map_congr_left fun e he => ?_
    by_cases hk : e.1 = c
    · obtain rfl : e.2 = x := by
        have := SMap.find?_of_mem hr he
        rw [hk, hx] at this
        exact (Option.some.inj this).symm
      subst hk
      simp [Ctx.uncounted]
    · simp [hk]
  next => rfl

theorem wdCnt_tick (s : State) (c y : Nat) :
    ((s.tick c).ctx y).wdCnt = if y = c ∧ s.wdCounts c = true then min 0xFFFFFFFF ((s.ctx y).wdCnt + 1) else (s.ctx y).wdCnt := by
  unfold State.tick
  dsimp only
  by_cases hy : y = c
  · subst hy
    cases hc : SMap.find? s.ctxs y with
    | none =>
      have hw : ¬ s.wdCounts y = true := fun h => by
        obtain ⟨e, he, hk⟩ := List.mem_map.1 (mem_ctxs_of_wdCounts h)
        exact List.find?_eq_none.1 (Option.map_eq_none_iff.1 hc) e he (by simpa using hk)
      simp only [State.updCtx, hc, hw, and_false, if_false, Bool.false_eq_true]
    | some x =>
      rw [ctx_updCtx_same (by rw [hc]; rfl)]
      simp only [true_and]
  · rw [ctx_updCtx_ne s _ hy, if_neg fun h => hy h.1]

/-- Each watchdog of a list counts once. -/
theorem foldl_tick {l : List Nat} (hl : l.Nodup) {s : State} (hr : SMap.rising s.ctxs = true) :
    CountsOnly s (l.foldl State.tick s)
      ∧ ∀ y, ((l.foldl State.tick s).ctx y).wdCnt
        = if y ∈ l ∧ s.wdCounts y = true then min 0xFFFFFFFF ((s.ctx y).wdCnt + 1) else (s.ctx y).wdCnt := by
  induction l generalizing s with
  | nil => exact ⟨.refl s, fun y => by simp⟩
  | cons c l ih =>
    obtain ⟨hc, hl⟩ := List.nodup_cons.1 hl
    have ht := countsOnly_tick hr c
    obtain ⟨hrest, hcnt⟩ := ih hl (ht.rising.trans hr)
    refine ⟨ht.trans hrest, fun y => (hcnt y).trans ?_⟩
    rw [ht.wdCounts, wdCnt_tick]
    by_cases hy : y = c
    · subst hy
      simp [hc]
    · simp [hy]

/-- 06 R173: every watchdog that counts does so once. -/
theorem tickWatchdogs_spec {s : State} (hr : SMap.rising s.ctxs = true) :
    CountsOnly s s.tickWatchdogs
      ∧ ∀ c, (s.tickWatchdogs.ctx c).wdCnt = if s.wdCounts c then min 0xFFFFFFFF ((s.ctx c).wdCnt + 1) else (s.ctx c).wdCnt := by
  obtain ⟨hrest, hcnt⟩ := foldl_tick (SMap.nodup_keys hr) hr
  rw [tickWatchdogs_eq]
  refine ⟨hrest, fun c => (hcnt c).trans ?_⟩
  simp only [and_iff_right_of_imp mem_ctxs_of_wdCounts]

/-! ### The slot boundary -/

section Boundary

variable {s : State}

/-- What holds of every context and of none holds of any CTXID. -/
theorem ctx_of_forall {p : Ctx → Prop} (hblank : p Ctx.blank) (h : ∀ e ∈ s.ctxs, p e.2) (c : Nat) : p (s.ctx c) := by
  unfold State.ctx
  cases hc : SMap.find? s.ctxs c with
  | none => exact hblank
  | some x => exact h _ (SMap.mem_of_find? hc)

theorem setPoint_dev (s : State) : ∃ d, s.setPoint = { s with dev := d } := by
  unfold State.setPoint
  dsimp only
  split
  · exact ⟨_, rfl⟩
  · split
    · exact ⟨_, rfl⟩
    · exact ⟨s.dev, rfl⟩

theorem calRevokes_of_no_jobs (h : s.jobs = []) : s.calRevokes = s := by
  unfold State.calRevokes
  rw [h]
  rfl

theorem boundaryBookings_of_no_recs (h : s.book.recs = []) : s.boundaryBookings = s := by
  unfold State.boundaryBookings
  simp only [h, List.filter_nil, List.mergeSort_nil, List.map_nil, List.foldl_nil]

theorem sliceStep_of_no_window {t die : Nat} (h : (s.ctx t).slices = []) : s.sliceStep t die = s := by
  unfold State.sliceStep
  rw [h]
  exact if_pos (.inl rfl)

/-- With no window on any die and nothing set aside, no tenant's time-slice begins or ends. -/
theorem sliceAll_of_no_windows (hw : ∀ e ∈ s.ctxs, e.2.slices = []) (ha : ∀ e ∈ s.ctxs, e.2.aside.isEmpty = true) : s.sliceAll = s := by
  have hslices := ctx_of_forall (p := fun x => x.slices = []) rfl hw
  have hsteps : s.tenants.foldl (fun s t => [0, 1].foldl (fun s d => s.sliceStep t d) s) s = s := by
    refine List.foldlRecOn s.tenants _ (motive := (· = s)) rfl ?_
    rintro _ rfl t -
    simp only [List.foldl_cons, List.foldl_nil, sliceStep_of_no_window (hslices t)]
  unfold State.sliceAll
  dsimp only
  rw [hsteps]
  refine List.foldlRecOn s.ctxs _ (motive := (· = s)) rfl ?_
  rintro _ rfl e he
  exact if_pos (ha e he)

/-- With no queue on, no TAIL is read. -/
theorem readTails_of_no_queue (h : ∀ e ∈ s.ctxs, bit (s.cw e.1 3) 0 = false) : s.readTails = s := by
  unfold State.readTails
  refine List.foldlRecOn s.ctxs _ (motive := (· = s)) rfl ?_
  rintro _ rfl e he
  exact if_neg fun hq => Bool.false_ne_true ((h e he).symm.trans hq.2)

theorem syncPorts_fxOut (s : State) : ∃ fx, s.syncPorts = { s with fxOut := fx } := by
  unfold State.syncPorts
  split
  · exact ⟨s.fxOut, rfl⟩
  · refine List.foldlRecOn (List.range 16) _ (motive := fun t : State => ∃ fx, t = { s with fxOut := fx }) ⟨s.fxOut, rfl⟩ ?_
    rintro _ ⟨fx, rfl⟩ k -
    split
    · exact ⟨fx, rfl⟩
    · exact ⟨_, rfl⟩

/-- With no job and no booking either, only the watchdogs are left to count. -/
theorem boundary_of_idle (hjobs : s.jobs = []) (hrecs : s.book.recs = [])
    (hidle : ∀ e ∈ s.ctxs, e.2.slices = [] ∧ e.2.aside.isEmpty = true ∧ bit (s.cw e.1 3) 0 = false) :
    s.calRevokes.boundaryBookings.sliceAll.readTails = s := by
  rw [calRevokes_of_no_jobs hjobs, boundaryBookings_of_no_recs hrecs,
    sliceAll_of_no_windows (fun e he => (hidle e he).1) (fun e he => (hidle e he).2.1), readTails_of_no_queue fun e he => (hidle e he).2.2]

/-- 07 R177: a boundary with nothing to place, to slice or to read counts the slot for the watchdogs and does nothing else to contexts, agents
and memory. -/
theorem execSlotBoundary_idle (hdue : s.slotAt + 256 ≤ s.cycle) (hjobs : s.jobs = []) (hrecs : s.book.recs = [])
    (hr : SMap.rising s.ctxs = true)
    (hidle : ∀ e ∈ s.ctxs, e.2.slices = [] ∧ e.2.aside.isEmpty = true ∧ bit (s.cw e.1 3) 0 = false) :
    let b : State := { s with slotNo := (s.slotNo + 1) % 2 ^ 48, slotAt := s.slotAt + 256 }
    ∃ t, execSlotBoundary s = .next t ∧ t.slotNo = b.slotNo ∧ t.slotAt = b.slotAt ∧ t.agents = s.agents ∧ t.cores = s.cores ∧ t.mem = s.mem
      ∧ ∀ c, (t.ctx c).wdCnt = if b.wdCounts c then min 0xFFFFFFFF ((s.ctx c).wdCnt + 1) else (s.ctx c).wdCnt := by
  intro b
  obtain ⟨d, hd⟩ := setPoint_dev b
  have hquiet : State.readTails (State.sliceAll (State.boundaryBookings (State.calRevokes { b with dev := d }))) = { b with dev := d } :=
    boundary_of_idle hjobs hrecs hidle
  obtain ⟨hcounts, hcnt⟩ := tickWatchdogs_spec (s := { b with dev := d }) hr
  obtain ⟨fx, hfx⟩ := syncPorts_fxOut (State.tickWatchdogs { b with dev := d }).rewriteAfw
  refine ⟨_, if_neg (Nat.not_lt_of_le hdue), ?_⟩
  rw [hd, hquiet, hfx]
  exact ⟨hcounts.field State.slotNo (fun _ => rfl), hcounts.field State.slotAt (fun _ => rfl), hcounts.field State.agents (fun _ => rfl),
    hcounts.field State.cores (fun _ => rfl), hcounts.field State.mem (fun _ => rfl), hcnt⟩

end Boundary

/-! ### The wait list and backfill -/

section WaitList

variable {s : State}

theorem execWaitListSearch_none {die : Nat} (h : s.waitDue die = []) : execWaitListSearch die s = .next s := by
  simp only [execWaitListSearch, h, List.foldl_nil]

/-- 07 R201: the one task that is due is searched again as a new one. -/
theorem execWaitListSearch_one {die k : Nat} {b : Booking} (h : s.waitDue die = [k]) (hb : s.recOf k = some b) :
    let t := s.updRec k (fun b => { b with st := 1 })
    execWaitListSearch die s
      = .next (if t.maySearch { b with st := 1 } then t.search k else s.updRec k (fun b => { b with waitAt := some s.slotNo })) := by
  simp only [execWaitListSearch, h, List.foldl_cons, List.foldl_nil, hb, recOf_updRec_same, Option.map_some]

end WaitList

section Backfill

variable {s : State} {cls idx first len : Nat}

theorem execBackfill_none (h : ∀ r ∈ s.book.freed, r.1 = cls → r.2.1 ≠ idx) : execBackfill cls idx s = .next s := by
  have hnone : s.book.freed.find? (fun r => r.1 == cls && r.2.1 == idx) = none :=
    List.find?_eq_none.2 fun r hr hm => by
      obtain ⟨hc, hi⟩ := (Bool.and_eq_true _ _).mp hm
      exact h r hr (beq_iff_eq.1 hc) (beq_iff_eq.1 hi)
  simp only [execBackfill, hnone]

/-- 07 R208: the only freed run, of which the oldest filler takes its slots and the rest goes on; without a filler it goes. -/
theorem execBackfill_one (h : s.book.freed = [(cls, idx, first, len)]) :
    let b : State := { s with book := { s.book with freed := [] } }
    (b.fillers cls idx first len = [] → execBackfill cls idx s = .next b)
    ∧ ∀ st k lo d rest, b.fillers cls idx first len = (st, k, lo, d) :: rest →
      let q := (b.holdPlacement k [(0, idx, lo)]).commitRec k 1
      let left := (if first < lo then [(cls, idx, first, lo - first)] else [])
        ++ (if lo + d < first + len then [(cls, idx, lo + d, first + len - (lo + d))] else [])
      execBackfill cls idx s = .next { q with book := { q.book with freed := left ++ q.book.freed } } := by
  have hfind : s.book.freed.find? (fun r => r.1 == cls && r.2.1 == idx) = some (cls, idx, first, len) := by simp [h]
  have hrest : s.book.freed.erase (cls, idx, first, len) = [] := by simp [h]
  constructor
  · intro hl
    simp only [execBackfill, hfind, hrest, hl]
  · intro st k lo d rest hl
    simp only [execBackfill, hfind, hrest, hl]

/-- 07 R208: what may take a freed run. -/
theorem mem_fillers {st k lo d : Nat} (h : (st, k, lo, d) ∈ s.fillers cls idx first len) :
    ∃ y x, (k, y) ∈ s.book.recs ∧ y.steps = [x] ∧ y.st = 6 ∧ st = y.stamp ∧ d = x.dur ∧ first ≤ lo ∧ lo + d ≤ first + len
      ∧ s.fits y.ctx [] [] { x with slots := [] } idx lo = true := by
  obtain ⟨⟨k', y⟩, he, hsome⟩ := List.mem_filterMap.1 (List.mem_mergeSort.1 h)
  split at hsome
  next x hx =>
    dsimp only at hsome hx
    split at hsome
    next hcond =>
      obtain ⟨-, hst, -, -, -, -, hend, -, -, -, hfits⟩ := hcond
      cases hsome
      exact ⟨y, x, he, hx, hst, rfl, rfl, Nat.le_max_left _ _, hend, hfits⟩
    next => cases hsome
  next => cases hsome

/-- 07 R199, R208: a task of one step that takes a freed run is committed on the run's engine. -/
theorem backfilled {k lo : Nat} {y : Booking} {x : BStep} (hb : s.recOf k = some y) (hst : y.st = 6) (hx : y.steps = [x]) :
    ∃ z, ((s.holdPlacement k [(0, idx, lo)]).commitRec k 1).recOf k = some z ∧ z.st = 2
      ∧ z.steps.all (fun x => x.idx == idx && !x.tent) = true := by
  have hheld : (s.holdPlacement k [(0, idx, lo)]).recOf k = some { y with steps := [x.heldOn idx lo] } := by
    rw [recOf_holdPlacement, hb, Option.map_some, hx]
    rfl
  obtain ⟨z, hz, hzst, hsteps⟩ := recOf_commitRec hheld (.inr hst) (kind := 1) (by decide)
  refine ⟨z, hz, hzst, ?_⟩
  rw [hsteps]
  simp [BStep.heldOn]

end Backfill

/-! ### Admission and aging -/

section Admission

variable {s : State} {die : Nat}

/-- Chains that wait for a record take one before an admission, and whether one is due stays as it was (log 97). -/
theorem execTaskAdmission_early (h : s.cycle < SMap.get 0 s.book.admitAt die) : execTaskAdmission die s = .next (s.giveRecs die) := by
  obtain ⟨hcycle, hadmit⟩ := sameAdmit_giveRecs s die
  exact if_pos (.inr (.inr (by rwa [hcycle, hadmit])))

/-- 07 R187: with no task in flight the first head that may be is admitted, and the next admission comes 16 cycles later at the earliest. -/
theorem execTaskAdmission_head {t : State} (hdie : die ≤ 1) (hup : s.dev.boot = .up) (hdue : SMap.get 0 s.book.admitAt die ≤ s.cycle)
    (htasks : s.book.tasks = []) (ht : (s.headOrder die).findSome? (fun e => s.tryHead die e.1 e.2) = some t) :
    execTaskAdmission die s = .next { t with book := { t.book with admitAt := SMap.set 0 t.book.admitAt die (s.cycle + 16) } } := by
  have hgo : ¬(1 < die ∨ s.dev.boot ≠ .up ∨ s.cycle < SMap.get 0 s.book.admitAt die) := by
    rintro (h | h | h)
    · omega
    · exact h hup
    · omega
  simp only [execTaskAdmission, giveRecs_of_no_tasks htasks, if_neg hgo, htasks, List.filter_nil, List.findSome?_nil, ht]

theorem execTaskAdmission_none (htasks : s.book.tasks = []) (h : (s.headOrder die).findSome? (fun e => s.tryHead die e.1 e.2) = none) :
    execTaskAdmission die s = .next s := by
  simp only [execTaskAdmission, giveRecs_of_no_tasks htasks, htasks, List.filter_nil, List.findSome?_nil, h, ite_self]

/-- 07 R188: a head that has waited rises one priority. -/
theorem execPriorityAging_due {c q : Nat} (hhead : SMap.get 0 (s.ctx c).headAt q ≠ 0)
    (hdue : SMap.get 0 (s.ctx c).headAt q + 2500000 * (SMap.get 0 (s.ctx c).age q + 1) ≤ s.cycle + 1) :
    ∃ t, execPriorityAging c q s = .next t ∧ SMap.get 0 (t.ctx c).age q = SMap.get 0 (s.ctx c).age q + 1
      ∧ (∀ y, y ≠ c → t.ctx y = s.ctx y) ∧ { t with ctxs := s.ctxs } = s := by
  have hc : (SMap.find? s.ctxs c).isSome = true := by
    cases h : SMap.find? s.ctxs c with
    | none => simp [State.ctx, h, Ctx.blank] at hhead
    | some x => rfl
  refine ⟨_, if_pos ⟨hhead, hdue⟩, ?_, fun y hy => ctx_updCtx_ne s _ hy, updCtx_restore s c _⟩
  rw [ctx_updCtx_same hc]
  exact SMap.get_set_same 0 (s.ctx c).age q (SMap.get 0 (s.ctx c).age q + 1)

end Admission

/-! ### What lapses -/

section Lapse

variable {s : State}

theorem execOfferLapse_early {i : Nat} {o : Offer} (h : s.book.offers[i]? = some o) (hwait : o.committed = true ∨ s.slotNo < o.till) :
    execOfferLapse i s = .next s := by
  have hno : ¬(!o.committed && decide (o.till ≤ s.slotNo)) = true := by
    rcases hwait with h | h <;> simp [h]
  simp only [execOfferLapse, h, if_neg hno]

/-- 07 R203: an offer without a COMMIT goes at its end. -/
theorem execOfferLapse_due {i : Nat} {o : Offer} (h : s.book.offers[i]? = some o) (hopen : o.committed = false) (hend : o.till ≤ s.slotNo) :
    execOfferLapse i s = .next { s with book := { s.book with offers := s.book.offers.eraseIdx i } } := by
  simp only [execOfferLapse, h, hopen, hend, decide_true, Bool.not_false, Bool.and_self, if_true]

/-- 17 R443: a PREPARE without a reply for 64 slots is a refusal with no alternative. -/
theorem execPrepareTimeout_asked {tag k i a : Nat} {x : BStep} (hleg : s.legOf tag = some (k, i, x)) (hx : x.leg = .asked a) :
    execPrepareTimeout tag s = if a + 64 ≤ s.slotNo then .next (s.refuseStep k i none) else .next s := by
  simp only [execPrepareTimeout, hleg, hx]

end Lapse

/-- Settles O50: each event by the lemma of its function above. -/
theorem bookings : Obligations.Bookings := by
  refine ⟨fun s c but g n lo u l => findSlot_spec, fun s h b hb => ⟨fun hno => ?_, fun hmay hlog => ⟨fun hg => ?_, ?_⟩⟩, fun s => ?_⟩
  · simp only [exec, execBookingSearch, hb, hno, Bool.false_eq_true, if_false]
  · simp only [exec, execBookingSearch, hb, hmay, if_true, search_of_greedy_none (recOf_of_bookAt hb) hlog hg]
  · intro pl hg hnd hst hloc
    obtain ⟨b', hb'⟩ := search_commits_local (recOf_of_bookAt hb) hlog hg hnd hst hloc
    refine ⟨s.search (hKey h.toNat), b', ?_, hb'⟩
    simp only [exec, execBookingSearch, hb, hmay, if_true]
  refine ⟨fun h => if_pos h, execSlotBoundary_idle, fun _ => execWaitListSearch_none, fun _ _ _ => execWaitListSearch_one,
    fun _ _ => execBackfill_none, fun cls idx first len hf => ?_, fun _ => execTaskAdmission_early,
    fun die t hdie hup hdue htasks ht => ?_, fun _ => execTaskAdmission_none,
    fun c q => ⟨fun h => if_neg h, fun h => execPriorityAging_due h.1 h.2⟩, fun i o ho => ⟨execOfferLapse_early ho, fun hopen hend => ?_⟩,
    fun tag k i x a hleg hx => ⟨fun h => ?_, fun h => ?_⟩⟩
  · obtain ⟨hnone, hsome⟩ := execBackfill_one hf
    refine ⟨hnone, fun st k lo d rest hl => ⟨hsome st k lo d rest hl, fun hr => ?_⟩, fun st k lo d hl => mem_fillers hl⟩
    obtain ⟨y, x, hy, hx, hst, -⟩ := mem_fillers (hl ▸ List.mem_cons_self)
    exact backfilled (SMap.find?_of_mem hr hy) hst hx
  · exact ⟨_, execTaskAdmission_head hdie hup hdue htasks ht, SMap.get_set_same 0 t.book.admitAt die (s.cycle + 16), rfl, rfl, rfl⟩
  · exact ⟨_, execOfferLapse_due ho hopen hend, rfl, rfl⟩
  · exact (execPrepareTimeout_asked hleg hx).trans (if_neg (Nat.not_le_of_lt h))
  · exact (execPrepareTimeout_asked hleg hx).trans (if_pos h)

end Sys2Proof.Machine
end

section
/-! ## Scalar and predicate instructions (O1-O6, O53)

What reading a register gives (09 R246, R247, 08 R235); exact results wrapped or clamped (05 R120); then the units that complete with one
scalar or predicate result (09 R246-R260): each is brought to the form in which the model gives it, by a lemma about the value alone. The
frame is that of a register written, `wroteS_wrS`, `wroteS_flags` and `wroteP_wrP`. -/

namespace Sys2Proof.Machine

/-! ### Registers as they are read -/

theorem rdS_of_landed {s : State} {n : Nat} (h : s.me.early s.cycle (.s n) = false) : s.rdS n = s.me.sreg n := by
  simp [State.rdS, h]

theorem rdP_of_landed {s : State} {n : Nat} (h : s.me.early s.cycle (.p n) = false) : s.rdP n = s.me.preg n := by
  simp [State.rdP, h]

/-- A sidecar's predicate, read inside its bound, is uniform still (09 R247). -/
theorem rdP_uniform_of_early {s : State} {n : Nat} (hside : isSide s.cu.st = true) (h : s.me.early s.cycle (.p n) = true) :
    s.rdP n = 0 ∨ s.rdP n = BitVec.allOnes 1024 := by
  by_cases hn : n = 0
  · subst hn; exact .inr rfl
  · simp only [State.rdP, ne_eq, hn, not_false_eq_true, h, and_self, if_true, hside]
    split
    · exact .inr rfl
    · exact .inl rfl

/-- Settles O1: a register outside every open bound is read from the file; a sidecar's free predicate is made uniform as it is read. -/
theorem registerReads : Obligations.RegisterReads := fun _ =>
  ⟨rfl, rfl, fun _ => rdS_of_landed, fun _ => rdP_of_landed, fun _ h => by simp [State.rdBt, h], fun _ h => by simp [State.rdV, h],
    fun _ => rdP_uniform_of_early⟩

/-! ### Exact results, wrapped or clamped -/

theorem natCast_two_pow (k : Nat) : ((2 ^ k : Nat) : Int) = 2 ^ k := by
  rw [Int.natCast_pow]
  rfl

theorem zero_lt_two_pow (k : Nat) : (0 : Int) < 2 ^ k := Int.pow_pos (by decide)

/-- The clamping that `narrow` does (05 R120). -/
theorem clamped_narrow {w : Nat} (hw : 0 < w) (sat : Bool) (x : Int) : Clamped w sat x (narrow w sat x).1 (narrow w sat x).2 := by
  have hp : (0 : Int) < 2 ^ (w - 1) := zero_lt_two_pow _
  cases sat with
  | false => exact ⟨rfl, rfl⟩
  | true =>
    simp only [Clamped, narrow, Bool.not_true, Bool.false_eq_true, if_false, if_true]
    by_cases hlo : x < -2 ^ (w - 1)
    · have hv : (BitVec.ofInt w (-2 ^ (w - 1))).toInt = -2 ^ (w - 1) := BitVec.toInt_ofInt_eq_self hw (by omega) (by omega)
      rw [if_pos hlo, hv, if_neg (by omega)]
      exact ⟨by omega, rfl⟩
    · rw [if_neg hlo]
      by_cases hhi : 2 ^ (w - 1) - 1 < x
      · have hv : (BitVec.ofInt w (2 ^ (w - 1) - 1)).toInt = 2 ^ (w - 1) - 1 := BitVec.toInt_ofInt_eq_self hw (by omega) (by omega)
        rw [if_pos hhi, hv, if_neg (by omega)]
        exact ⟨by omega, rfl⟩
      · have hv : (BitVec.ofInt w x).toInt = x := BitVec.toInt_ofInt_eq_self hw (by omega) (by omega)
        rw [if_neg hhi, hv, if_pos rfl]
        exact ⟨by omega, rfl⟩

theorem shiftLeft_eq_ofInt {w : Nat} (x : BitVec w) (k : Nat) : x <<< k = BitVec.ofInt w (x.toInt * 2 ^ k) := by
  rw [BitVec.shiftLeft_eq_mul_twoPow, BitVec.ofInt_mul, BitVec.ofInt_toInt]
  congr 1
  refine BitVec.eq_of_toNat_eq ?_
  rw [BitVec.toNat_twoPow, ← natCast_two_pow, BitVec.ofInt_natCast, BitVec.toNat_ofNat]

/-- Shifting back restores the operand exactly where the product has the width's range. -/
theorem sshiftRight_shiftLeft_eq_self_iff {w k : Nat} (hk : k < w) (x : BitVec w) :
    (x <<< k).sshiftRight k = x ↔ -2 ^ (w - 1) ≤ x.toInt * 2 ^ k ∧ x.toInt * 2 ^ k < 2 ^ (w - 1) := by
  have hp : (2 : Int) ^ k ≠ 0 := Int.ne_of_gt (zero_lt_two_pow k)
  rw [← BitVec.toInt_inj, BitVec.toInt_sshiftRight, Int.shiftRight_eq_div_pow, shiftLeft_eq_ofInt, natCast_two_pow]
  constructor
  · intro h
    have hw : (2 : Int) ^ k ∣ ((2 ^ w : Nat) : Int) := natCast_two_pow k ▸ Int.natCast_dvd_natCast.2 (Nat.pow_dvd_pow 2 (Nat.le_of_lt hk))
    have hdvd : (2 : Int) ^ k ∣ (BitVec.ofInt w (x.toInt * 2 ^ k)).toInt := by
      have hm : (2 : Int) ^ k ∣ x.toInt * 2 ^ k % ((2 ^ w : Nat) : Int) := by
        rw [Int.emod_def]
        exact Int.dvd_sub (Int.dvd_mul_left ..) (Int.dvd_trans hw (Int.dvd_mul_right ..))
      rw [BitVec.toInt_ofInt, Int.bmod_def]
      split
      · exact hm
      · exact Int.dvd_sub hm hw
    have he := Int.ediv_mul_cancel hdvd
    rw [h] at he
    rw [he]
    exact ⟨BitVec.le_toInt _, BitVec.toInt_lt⟩
  · rintro ⟨hlo, hhi⟩
    rw [BitVec.toInt_ofInt_eq_self (by omega) hlo hhi, Int.mul_ediv_cancel _ hp]

/-- A shift left narrows the exact product (09 R249). -/
theorem shlSat_eq_narrow {w k : Nat} (hk : k < w) (sat : Bool) (x : BitVec w) : shlSat w sat x k = narrow w sat (x.toInt * 2 ^ k) := by
  have hp : (0 : Int) < 2 ^ k := zero_lt_two_pow k
  have hw : (0 : Int) < 2 ^ (w - 1) := zero_lt_two_pow _
  cases sat with
  | false => simp [shlSat, narrow, shiftLeft_eq_ofInt]
  | true =>
    simp only [shlSat, narrow, ne_eq, sshiftRight_shiftLeft_eq_self_iff hk, true_and, Bool.not_true, Bool.false_eq_true, if_false,
      BitVec.msb_eq_toInt, decide_eq_true_eq]
    by_cases hneg : x.toInt < 0
    · have hprod : x.toInt * 2 ^ k < 0 := Int.mul_neg_of_neg_of_pos hneg hp
      by_cases hlo : x.toInt * 2 ^ k < -2 ^ (w - 1)
      · rw [if_pos (by omega), if_pos hneg, if_pos hlo]
      · rw [if_neg (by omega), if_neg hlo, if_neg (by omega), shiftLeft_eq_ofInt]
    · have hprod : 0 ≤ x.toInt * 2 ^ k := Int.mul_nonneg (by omega) (Int.le_of_lt hp)
      by_cases hhi : 2 ^ (w - 1) - 1 < x.toInt * 2 ^ k
      · rw [if_pos (by omega), if_neg hneg, if_neg (by omega), if_pos hhi]
      · rw [if_neg (by omega), if_neg (by omega), if_neg hhi, shiftLeft_eq_ofInt]

/-! ### Units that complete with one result -/

section Results

variable {i : Instr} {u : U} {s : State} {l : Nat}

theorem putsS_of_scalarDone {v : W64} (he : exec i s = scalarDone u s v l) : PutsS i u s v 0 l := ⟨_, he, wroteS_wrS ..⟩

theorem putsP_of_predDone {v : Lanes} (he : exec i s = predDone u s v l) : PutsP i u s v 0 l := ⟨_, he, wroteP_wrP ..⟩

theorem putsS_of_flagDone {r : W64 × W64} {v f : W64} (he : exec i s = flagDone u s r l) (hr : r = (v, f)) : PutsS i u s v f l := by
  subst hr
  exact ⟨_, he, wroteS_flags ..⟩

theorem putsInt_of_narrow {x : Int} (he : exec i s = flagDone u s (narrow 64 (satOf u) x) l) : PutsInt i u s x l :=
  ⟨_, _, clamped_narrow (by decide) _ _, putsS_of_flagDone he rfl⟩

end Results

@[simp] theorem toInt_immS (u : U) : (immS u).toInt = u.imm.toInt := BitVec.toInt_signExtend_of_le (by decide)

/-- Settles O2: each result narrows the exact one, SHL's by `shlSat_eq_narrow`. -/
theorem scalarSums : Obligations.ScalarSums := by
  intro u s
  have hcount : (s.sC u).toNat % 64 < 64 := Nat.mod_lt _ (by decide)
  refine ⟨putsInt_of_narrow rfl, putsInt_of_narrow rfl, ?_, ?_, putsInt_of_narrow rfl⟩
  · exact putsInt_of_narrow (congrArg (flagDone u s · 1) (shlSat_eq_narrow hcount _ _))
  · rw [← toInt_immS]
    exact putsInt_of_narrow rfl

/-! ### Bits of scalar results -/

theorem ushiftRight_eq_ofNat {w : Nat} (x : BitVec w) (k : Nat) : x >>> k = BitVec.ofNat w (x.toNat / 2 ^ k) := by
  refine BitVec.eq_of_toNat_eq ?_
  rw [BitVec.toNat_ushiftRight, Nat.shiftRight_eq_div_pow, BitVec.toNat_ofNat, Nat.mod_eq_of_lt (Nat.lt_of_le_of_lt (Nat.div_le_self _ _) x.isLt)]

theorem sshiftRight_eq_ofInt {w : Nat} (x : BitVec w) (k : Nat) : x.sshiftRight k = BitVec.ofInt w (x.toInt / 2 ^ k) := by
  rw [← BitVec.ofInt_toInt (x := x.sshiftRight k), BitVec.toInt_sshiftRight, Int.shiftRight_eq_div_pow, natCast_two_pow]

theorem rotateLeft_eq_or (x : W64) {k : Nat} (hk : k < 64) : x.rotateLeft k = if k = 0 then x else x <<< k ||| x >>> (64 - k) := by
  rw [BitVec.rotateLeft_def, Nat.mod_eq_of_lt hk]
  split
  next h => subst h; ext j; simp
  next => rfl

theorem ofInt_min (x y : W64) : BitVec.ofInt 64 (min x.toInt y.toInt) = if y.slt x then y else x := by
  simp only [BitVec.slt_iff_toInt_lt]
  split
  · rw [show min x.toInt y.toInt = y.toInt by omega, BitVec.ofInt_toInt]
  · rw [show min x.toInt y.toInt = x.toInt by omega, BitVec.ofInt_toInt]

theorem ofInt_max (x y : W64) : BitVec.ofInt 64 (max x.toInt y.toInt) = if x.slt y then y else x := by
  simp only [BitVec.slt_iff_toInt_lt]
  split
  · rw [show max x.toInt y.toInt = y.toInt by omega, BitVec.ofInt_toInt]
  · rw [show max x.toInt y.toInt = x.toInt by omega, BitVec.ofInt_toInt]

/-- The leading zero bits are as many as `clz64` counts, and a one follows them. -/
theorem clz64_spec (x : W64) :
    clz64 x ≤ 64 ∧ (∀ j, j < clz64 x → x.getLsbD (63 - j) = false) ∧ (clz64 x < 64 → x.getLsbD (63 - clz64 x) = true) := by
  by_cases hx : x = 0
  · subst hx
    exact ⟨Nat.le_refl _, fun _ _ => BitVec.getLsbD_zero, fun h => absurd h (by decide)⟩
  · have hn : x.toNat ≠ 0 := fun h => hx (BitVec.eq_of_toNat_eq h)
    have hlog : Nat.log2 x.toNat < 64 := (Nat.log2_lt hn).2 x.isLt
    rw [clz64, if_neg hx]
    refine ⟨by omega, fun j hj => Nat.testBit_lt_two_pow ?_, fun _ => ?_⟩
    · exact Nat.lt_of_lt_of_le Nat.lt_log2_self (Nat.pow_le_pow_right (by decide) (by omega))
    · rw [show 63 - (63 - Nat.log2 x.toNat) = Nat.log2 x.toNat by omega]
      exact Nat.testBit_log2 hn

theorem shiftLeft_eq_mul_ofNat {w : Nat} (x : BitVec w) (k : Nat) : x <<< k = x * BitVec.ofNat w (2 ^ k) := by
  rw [BitVec.shiftLeft_eq_mul_twoPow]
  congr 1
  exact BitVec.eq_of_toNat_eq (by rw [BitVec.toNat_twoPow, BitVec.toNat_ofNat])

/-- Settles O3: each value in the model's own form. -/
theorem scalarBits : Obligations.ScalarBits := by
  intro u s x y k
  have hk : k < 64 := Nat.mod_lt _ (by decide)
  obtain ⟨hle, hzeros, hone⟩ := clz64_spec x
  refine ⟨putsS_of_scalarDone rfl, putsS_of_scalarDone rfl, putsS_of_scalarDone rfl, ?_, ?_, ?_, ?_, ?_, putsS_of_scalarDone rfl,
    ⟨clz64 x, hle, hzeros, hone, putsS_of_scalarDone rfl⟩, putsS_of_scalarDone rfl, putsS_of_scalarDone rfl, ?_⟩
  · rw [← ushiftRight_eq_ofNat]; exact putsS_of_scalarDone rfl
  · rw [← sshiftRight_eq_ofInt]; exact putsS_of_scalarDone rfl
  · rw [← rotateLeft_eq_or x hk]; exact putsS_of_scalarDone rfl
  · rw [ofInt_min]; exact putsS_of_scalarDone rfl
  · rw [ofInt_max]; exact putsS_of_scalarDone rfl
  · rw [← shiftLeft_eq_mul_ofNat]; exact putsS_of_scalarDone rfl

/-! ### Rounded division -/

/-- An exact quotient is rounded by every code. -/
theorem rounded_of_eq_mul {n d q : Int} (hd : d ≠ 0) (h : n = q * d) (rnd : Nat) : Rounded rnd n d q := by
  subst h
  match rnd with
  | 0 => exact .inl (by simpa using hd)
  | 1 => exact (Int.mul_tdiv_cancel q hd).symm
  | 2 =>
    show q = -(-(q * d)).fdiv d
    rw [← Int.neg_mul, Int.mul_fdiv_cancel _ hd, Int.neg_neg]
  | 3 => exact (Int.mul_fdiv_cancel q hd).symm
  | _ + 4 => exact .inl (by simpa using hd)

theorem rounded_roundDivPos (rnd : Nat) {n d : Int} (hd : 0 < d) : Rounded rnd n d (roundDivPos rnd n d) := by
  have hr0 : 0 ≤ n % d := Int.emod_nonneg n (Int.ne_of_gt hd)
  have hrd : n % d < d := Int.emod_lt_of_pos n hd
  have hbelow : n - n / d * d = n % d := by rw [Int.emod_def, Int.mul_comm]
  have habove : n - (n / d + 1) * d = n % d - d := by rw [Int.add_mul, Int.one_mul, ← Int.sub_sub, hbelow]
  by_cases hz : n % d = 0
  · simp only [roundDivPos, if_pos hz]
    exact rounded_of_eq_mul (Int.ne_of_gt hd) (by omega) rnd
  have hdvd : ¬ d ∣ n := fun h => hz (Int.emod_eq_zero_of_dvd h)
  simp only [roundDivPos, if_neg hz]
  match rnd with
  | 0 =>
    simp only [Rounded]
    (repeat' split) <;> simp only [hbelow, habove] <;> omega
  | 1 =>
    simp only [Rounded, Int.tdiv_eq_ediv, hdvd, or_false, Int.sign_eq_one_of_pos hd]
    split <;> omega
  | 2 =>
    simp only [Rounded, Int.fdiv_eq_ediv_of_nonneg _ (Int.le_of_lt hd), Int.neg_ediv, if_neg hdvd, Int.sign_eq_one_of_pos hd]
    omega
  | 3 => exact (Int.fdiv_eq_ediv_of_nonneg n (Int.le_of_lt hd)).symm
  | _ + 4 =>
    simp only [Rounded]
    (repeat' split) <;> simp only [hbelow, habove] <;> omega

/-- Both signs changed. -/
theorem rounded_of_neg {rnd : Nat} {n d q : Int} (h : Rounded rnd (-n) (-d) q) : Rounded rnd n d q := by
  have he : (2 * (-n - -(q * d))).natAbs = (2 * (n - q * d)).natAbs := by omega
  match rnd with
  | 0 => simpa only [Rounded, Int.mul_neg, he, Int.natAbs_neg] using h
  | 1 => simpa only [Rounded, Int.neg_tdiv_neg] using h
  | 2 => simpa only [Rounded, Int.neg_fdiv_neg] using h
  | 3 => simpa only [Rounded, Int.neg_fdiv_neg] using h
  | _ + 4 => simpa only [Rounded, Int.mul_neg, he, Int.natAbs_neg] using h

theorem rounded_roundDiv (rnd : Nat) {n d : Int} (hd : d ≠ 0) : Rounded rnd n d (roundDiv rnd n d) := by
  by_cases hneg : d < 0
  · rw [roundDiv, if_pos hneg]
    exact rounded_of_neg (rounded_roundDivPos rnd (by omega))
  · rw [roundDiv, if_neg hneg]
    exact rounded_roundDivPos rnd (by omega)

theorem divRem_zero {isDiv sat : Bool} {rnd : Nat} {b c : W64} (hc : c.toInt = 0) :
    divRem isDiv sat rnd b c = (BitVec.allOnes 64, fDZI) := by
  rw [divRem, if_pos (BitVec.eq_of_toInt_eq hc)]

theorem toInt_eq_neg_two_pow_iff {b : W64} : b.toInt = -2 ^ 63 ↔ b = BitVec.intMin 64 := by
  rw [← BitVec.toInt_inj, BitVec.toInt_intMin, Nat.mod_eq_of_lt (by decide), natCast_two_pow]

theorem intMax_eq_ofInt : BitVec.intMax 64 = BitVec.ofInt 64 (2 ^ 63 - 1) := by
  rw [← BitVec.ofInt_toInt (x := BitVec.intMax 64), BitVec.toInt_intMax]

theorem toInt_eq_neg_one_iff {c : W64} : c.toInt = -1 ↔ c = BitVec.allOnes 64 := by
  rw [← BitVec.toInt_inj, BitVec.toInt_allOnes, if_pos (by decide)]

/-- The one quotient out of range, and its remainder. -/
theorem divRem_overflow {isDiv sat : Bool} {rnd : Nat} {b c : W64} (hb : b.toInt = -2 ^ 63) (hc : c.toInt = -1) :
    divRem isDiv sat rnd b c
      = if !isDiv then (0, 0) else if sat then (BitVec.ofInt 64 (2 ^ 63 - 1), fSAT) else (BitVec.ofInt 64 (-2 ^ 63), 0) := by
  have hc' := toInt_eq_neg_one_iff.1 hc
  have hz : c ≠ 0 := by rw [hc']; decide
  rw [divRem, if_neg hz, if_pos ⟨toInt_eq_neg_two_pow_iff.1 hb, hc'⟩, intMax_eq_ofInt, BitVec.intMin_eq_neg_two_pow]

theorem div_overflow {sat : Bool} {rnd : Nat} {b c : W64} (hb : b.toInt = -2 ^ 63) (hc : c.toInt = -1) :
    divRem true sat rnd b c = if sat then (BitVec.ofInt 64 (2 ^ 63 - 1), fSAT) else (BitVec.ofInt 64 (-2 ^ 63), 0) := by
  rw [divRem_overflow hb hc, Bool.not_true, if_neg Bool.false_ne_true]

theorem divRem_rounded {isDiv sat : Bool} {rnd : Nat} {b c : W64} (hc : c.toInt ≠ 0) (hout : ¬(b.toInt = -2 ^ 63 ∧ c.toInt = -1)) :
    divRem isDiv sat rnd b c
      = (if isDiv then BitVec.ofInt 64 (roundDiv rnd b.toInt c.toInt)
         else BitVec.ofInt 64 (b.toInt - roundDiv rnd b.toInt c.toInt * c.toInt), 0) := by
  rw [divRem, if_neg (fun h => hc (congrArg BitVec.toInt h)),
    if_neg (fun h => hout ⟨toInt_eq_neg_two_pow_iff.2 h.1, toInt_eq_neg_one_iff.2 h.2⟩)]

/-- Settles O4: the three cases of `divRem`, the last by `rounded_roundDiv`. -/
theorem scalarDivide : Obligations.ScalarDivide := by
  intro u s b c
  refine ⟨fun hc => ?_, fun hb hc => ⟨?_, ?_⟩, fun hc hout => ⟨_, rounded_roundDiv _ hc, ?_, ?_⟩⟩
  · exact ⟨putsS_of_flagDone rfl (divRem_zero hc), putsS_of_flagDone rfl (divRem_zero hc)⟩
  · split
    next hsat => exact putsS_of_flagDone rfl ((div_overflow hb hc).trans (if_pos hsat))
    next hsat => exact putsS_of_flagDone rfl ((div_overflow hb hc).trans (if_neg hsat))
  · exact putsS_of_flagDone rfl (divRem_overflow hb hc)
  · exact putsS_of_flagDone rfl (divRem_rounded hc hout)
  · exact putsS_of_flagDone rfl (divRem_rounded hc hout)

/-! ### Governed scalar units -/

theorem immS_eq_ofInt (u : U) : immS u = BitVec.ofInt 64 u.imm.toInt := by
  rw [← toInt_immS, BitVec.ofInt_toInt]

/-- An immediate over the low half of a word (09 R253). -/
theorem imm_over_lowHalf (imm : W32) (x : W64) :
    imm.zeroExtend 64 <<< 32 ||| (x.truncate 32).zeroExtend 64 = BitVec.ofNat 64 (imm.toNat * 2 ^ 32 + x.toNat % 2 ^ 32) := by
  have hlow : x.toNat % 2 ^ 32 < 2 ^ 32 := Nat.mod_lt _ (by decide)
  rw [← Nat.shiftLeft_eq, Nat.shiftLeft_add_eq_or_of_lt hlow, BitVec.ofNat_or]
  congr 1
  refine BitVec.eq_of_toNat_eq ?_
  simp

/-- The field that EXT takes, sign-extended where `sext` is set (09 R254). -/
def extracted (x : W64) (pos len : Nat) (sext : Bool) : W64 :=
  if sext ∧ (bits x (pos + len - 1) pos).testBit (len - 1) then BitVec.ofInt 64 ((bits x (pos + len - 1) pos : Int) - 2 ^ len)
  else BitVec.ofNat 64 (bits x (pos + len - 1) pos)

theorem testBit_field (x : W64) {pos len : Nat} (hlen : 0 < len) (k : Nat) :
    (bits x (pos + len - 1) pos).testBit k = (decide (k < len) && x.getLsbD (pos + k)) := by
  rw [testBit_bits, show pos + len - 1 + 1 - pos = len by omega]

/-- A field of `len` bits less its modulus has ones above the field. -/
theorem ofInt_sub_two_pow {n len : Nat} (hn : n < 2 ^ len) :
    BitVec.ofInt 64 ((n : Int) - 2 ^ len) = BitVec.ofNat 64 n ||| BitVec.allOnes 64 <<< len := by
  have hdisj : BitVec.ofNat 64 n &&& BitVec.allOnes 64 <<< len = 0#64 := by
    refine BitVec.eq_of_getLsbD_eq fun k hk => ?_
    rw [BitVec.getLsbD_and, BitVec.getLsbD_ofNat, BitVec.getLsbD_shiftLeft, BitVec.getLsbD_zero]
    by_cases hkl : k < len
    · simp [hkl]
    · rw [Nat.testBit_lt_two_pow (Nat.lt_of_lt_of_le hn (Nat.pow_le_pow_right (by decide) (Nat.le_of_not_lt hkl))), Bool.and_false,
        Bool.false_and]
  rw [← BitVec.add_eq_or_of_and_eq_zero _ _ hdisj, shiftLeft_eq_ofInt, toInt_eq_neg_one_iff.2 rfl, Int.neg_one_mul, ← BitVec.ofInt_natCast,
    ← BitVec.ofInt_add, Int.sub_eq_add_neg]

theorem getLsbD_extracted (x : W64) {pos len k : Nat} (sext : Bool) (hlen : 0 < len) (hk : k < 64) :
    (extracted x pos len sext).getLsbD k = if k < len then x.getLsbD (pos + k) else sext && x.getLsbD (pos + len - 1) := by
  have hsign : (bits x (pos + len - 1) pos).testBit (len - 1) = x.getLsbD (pos + len - 1) := by
    rw [testBit_field x hlen, decide_eq_true (by omega), Bool.true_and, Nat.add_sub_assoc hlen]
  have hfield : bits x (pos + len - 1) pos < 2 ^ len := by
    have := bits_lt x (pos + len - 1) pos
    rwa [show pos + len - 1 + 1 - pos = len by omega] at this
  have hbit : (BitVec.ofNat 64 (bits x (pos + len - 1) pos)).getLsbD k = (decide (k < len) && x.getLsbD (pos + k)) := by
    rw [BitVec.getLsbD_ofNat, decide_eq_true hk, Bool.true_and, testBit_field x hlen]
  have hones : (BitVec.allOnes 64 <<< len).getLsbD k = !decide (k < len) := by
    rw [BitVec.getLsbD_shiftLeft, BitVec.getLsbD_allOnes, decide_eq_true hk, decide_eq_true (show k - len < 64 by omega), Bool.true_and,
      Bool.and_true]
  simp only [extracted, hsign, ← Bool.and_eq_true]
  generalize (sext && x.getLsbD (pos + len - 1)) = neg
  cases neg with
  | true =>
    rw [if_pos rfl, ofInt_sub_two_pow hfield, BitVec.getLsbD_or, hbit, hones]
    by_cases hkl : k < len <;> simp [hkl]
  | false =>
    rw [if_neg Bool.false_ne_true, hbit]
    by_cases hkl : k < len <;> simp [hkl]

theorem getLsbD_mask (n : Nat) {k : Nat} (hk : k < 1024) : (BitVec.ofNat 1024 (2 ^ n - 1)).getLsbD k = decide (k < n) := by
  rw [BitVec.getLsbD_ofNat, Nat.testBit_two_pow_sub_one, decide_eq_true hk, Bool.true_and]

/-- Settles O5: with lane 0 set the unit does what follows the test; EXT and INS bit by bit. -/
theorem scalarGoverned : Obligations.ScalarGoverned := by
  intro u s h0 pos len
  have hlen : 0 < len := Nat.succ_pos _
  refine ⟨?_, ?_, ?_, ?_, ⟨extracted (s.sB u) pos len (bit u.imm 12), fun k hk => ?_, ?_⟩,
    ⟨setBits (s.sA u) (pos + len - 1) pos (s.sB u).toNat, fun k hk => ?_, ?_⟩, ?_, ?_⟩
  · rw [← toInt_immS]
    exact putsInt_of_narrow (if_pos h0)
  · rw [← shiftLeft_eq_mul_ofNat]
    exact putsS_of_scalarDone (if_pos h0)
  · rw [← immS_eq_ofInt]
    exact putsS_of_scalarDone (if_pos h0)
  · rw [← imm_over_lowHalf]
    exact putsS_of_scalarDone (if_pos h0)
  · exact getLsbD_extracted _ _ hlen hk
  · exact putsS_of_scalarDone (if_pos h0)
  · have hin : pos ≤ k ∧ k ≤ pos + len - 1 ↔ pos ≤ k ∧ k < pos + len := by omega
    rw [getLsbD_setBits, decide_eq_true hk, Bool.true_and]
    simp only [hin]
    rfl
  · exact putsS_of_scalarDone (if_pos h0)
  · exact putsS_of_scalarDone (if_pos h0)
  · exact ⟨_, fun k hk => getLsbD_mask _ hk, putsP_of_predDone (if_pos h0)⟩

/-! ### Predicates -/

theorem uniform_cases {b : Bool} {c : Prop} (h : b = true ↔ c) : (c → uniform b = BitVec.allOnes 1024) ∧ (¬c → uniform b = 0) :=
  ⟨fun hc => if_pos (h.2 hc), fun hc => if_neg fun hb => hc (h.1 hb)⟩

/-- The condition that CMP tests under each code (08 R224). -/
theorem condS_iff {x y : W64} {k : Nat} {c : Prop}
    (h : [(0, x = y), (1, x ≠ y), (2, x.toInt < y.toInt), (3, y.toInt ≤ x.toInt), (4, x.toNat < y.toNat), (5, y.toNat ≤ x.toNat)][k]?
      = some (k, c)) :
    condS k x y = true ↔ c := by
  match k with
  | 0 =>
    obtain rfl : (x = y) = c := by simpa using h
    exact beq_iff_eq
  | 1 =>
    obtain rfl : (x ≠ y) = c := by simpa using h
    exact bne_iff_ne
  | 2 =>
    obtain rfl : (x.toInt < y.toInt) = c := by simpa using h
    exact BitVec.slt_iff_toInt_lt
  | 3 =>
    obtain rfl : (y.toInt ≤ x.toInt) = c := by simpa using h
    simp [condS, BitVec.slt_eq_decide]
  | 4 =>
    obtain rfl : (x.toNat < y.toNat) = c := by simpa using h
    exact BitVec.ult_iff_toNat_lt
  | 5 =>
    obtain rfl : (y.toNat ≤ x.toNat) = c := by simpa using h
    simp [condS, BitVec.ult]
  | _ + 6 => simp at h

theorem lanes_eq_zero_iff (p : Lanes) : p = 0 ↔ ∀ k, k < 1024 → p.getLsbD k = false := by
  constructor
  · rintro rfl k -
    exact BitVec.getLsbD_zero
  · intro h
    exact BitVec.eq_of_getLsbD_eq fun k hk => (h k hk).trans BitVec.getLsbD_zero.symm

/-- A lane that both predicates hold. -/
theorem lanes_meet_iff (p q : Lanes) : (p &&& q != 0) = true ↔ ∃ k, k < 1024 ∧ p.getLsbD k = true ∧ q.getLsbD k = true := by
  rw [bne_iff_ne, ne_eq, lanes_eq_zero_iff]
  simp

/-- No lane of one predicate outside another. -/
theorem lanes_within_iff (p q : Lanes) : (q &&& ~~~p == 0) = true ↔ ∀ k, k < 1024 → q.getLsbD k = true → p.getLsbD k = true := by
  rw [beq_iff_eq, lanes_eq_zero_iff]
  refine forall_congr' fun k => imp_congr_right fun hk => ?_
  simp [hk]

/-- Settles O6: each truth value spread over the lanes is the condition's, by `condS_iff`, `lanes_meet_iff` and `lanes_within_iff`. -/
theorem predicates : Obligations.Predicates := by
  intro u s x y all
  exact ⟨fun c h => ⟨_, uniform_cases (condS_iff h), putsP_of_predDone rfl⟩, putsP_of_predDone rfl, putsP_of_predDone rfl,
    putsP_of_predDone rfl, putsP_of_predDone rfl, putsP_of_predDone rfl, putsS_of_scalarDone rfl, ⟨_, uniform_cases (lanes_meet_iff x y), putsP_of_predDone rfl⟩,
    ⟨_, uniform_cases (lanes_within_iff x y), putsP_of_predDone rfl⟩⟩

/-- Settles O53: each of these units begins with the test of its governing predicate. -/
theorem governedSkip : Obligations.GovernedSkip := by
  intro u s h0
  have hskip : ¬ s.lane0 u = true := Bool.eq_false_iff.1 h0
  simp only [List.cons_append, List.nil_append, List.forall_mem_cons, List.not_mem_nil, false_imp_iff, implies_true, and_true]
  and_intros <;> exact if_neg hskip

end Sys2Proof.Machine
end

section
/-! ## Branches, calls, loops and the completion of a unit (O7-O9, O11)

The advance of a unit first (08 R233, 09 R263, R266, 06 R166), one lemma per case; the transfer that BR.GO, CALL and RET begin, once for all
three; then each instruction's outcome from its conditions: return addresses (09 R268-R270), the loop instructions (09 R271-R273) and the marks
(09 R274-R277). -/

namespace Sys2Proof.Machine

/-! ### The advance of a unit -/

section Advance

variable {s : State} {u : U}

theorem me_paced (s : State) (g n : Nat) : (s.paced g n).me = { s.me with ready := s.cycle + 1 + n + g } := by
  simp [State.paced]

theorem onlyMe_paced {t : State} (h : OnlyMe s t) (g n : Nat) : OnlyMe s (t.paced g n) := onlyMe_trans h (onlyMe_updMe ..)

theorem onlyMe_advance (s : State) : OnlyMe s s.advance := onlyMe_updMe ..

theorem fin_captured (h : s.cu.cap ≠ none) : s.fin u = s := if_pos (Option.isSome_iff_ne_none.2 h)

theorem fin_advances (h : s.cu.cap = none) : s.fin u = s.advance.paced u.g.toNat 0 := by
  simp [State.fin, h]

theorem me_fin {a : Agent} (h : s.cu.cap = none) (ha : s.advance.me = a) : (s.fin u).me = { a with ready := s.cycle + 1 + u.g.toNat } := by
  rw [fin_advances h, me_paced, ha]
  rfl

theorem me_advance_outside (hout : s.cu.inLoop = false ∨ s.me.loop = none) (hx : s.me.xfer = none) :
    s.advance.me = { s.me with pc := s.nextPc } := by
  rcases hout with h | h <;> simp [State.advance, h, hx]

theorem me_advance_transfer (hout : s.cu.inLoop = false ∨ s.me.loop = none) {x : Xfer} (hx : s.me.xfer = some x) (hl : x.left ≤ 1) :
    s.advance.me = { s.me with xfer := none, pc := if x.taken then x.tgt else s.nextPc, xsrc := if x.taken then some x.src else none } := by
  rcases hout with h | h <;> simp [State.advance, h, hx, hl]

theorem me_advance_slot (hout : s.cu.inLoop = false ∨ s.me.loop = none) {x : Xfer} (hx : s.me.xfer = some x) (hl : 2 ≤ x.left) :
    s.advance.me = { s.me with xfer := some { x with left := x.left - 1 }, pc := s.nextPc } := by
  have hl' : ¬ x.left ≤ 1 := by omega
  rcases hout with h | h <;> simp [State.advance, h, hx, hl']

theorem me_advance_body {l : LoopSt} {x : BodyUnit} (hin : s.cu.inLoop = true) (hl : s.me.loop = some l) (hx : l.body[l.idx + 1]? = some x) :
    s.advance.me = { s.me with loop := some { l with idx := l.idx + 1 }, pc := x.pc } := by
  simp [State.advance, hin, hl, hx]

end Advance

/-! ### Marks, waits and the breakpoint -/

theorem trace_of_not_tracing {s : State} {c : Nat} (h : s.tracing c = false) (kind core st : Nat) (x : Spot) (p0 p1 : W64) :
    s.trace kind c core st x p0 p1 = s := by
  simp [State.trace, State.ringAppend, h]

theorem completes_mark {i : Instr} {u : U} {s : State} (he : exec i s = .next ((s.markRec u u.imm.toNat).fin u)) :
    Completes i u s (fun r => (s.tracing s.myCtx = false → r = s)
      ∧ r = s.trace 0 s.myCtx s.cu.core s.cu.st (s.me.spot s.cu.pc (stageOf u)) (BitVec.ofNat 64 u.imm.toNat) (s.sA u)) :=
  ⟨_, he, fun h => trace_of_not_tracing h .., rfl⟩

theorem execNopW_next {u : U} {s : State} (h : s.cu.cap = none) : exec (.nopW u) s = .next (s.advance.paced u.g.toNat u.imm.toNat) := by
  simp [exec, execNopW, h]

/-- Settles O11: the marks by their arms, the advance by its cases above. -/
theorem completion : Obligations.Completion := by
  refine ⟨fun u s => ⟨⟨s, rfl, rfl⟩, fun hcap => ?_, ?_, rfl⟩, fun u s => ⟨fin_captured, fun hcap => ?_, fun hcap hout => ?_, ?_⟩⟩
  · refine ⟨_, execNopW_next hcap, onlyMe_paced (onlyMe_advance s) .., ?_⟩
    rw [me_paced, me_fin hcap rfl]
    rfl
  · intro i hi h0
    rcases List.mem_cons.1 hi with rfl | hi
    · exact completes_mark rfl
    · obtain rfl := List.mem_singleton.1 hi
      exact completes_mark (if_pos (h0 rfl))
  · exact ⟨fin_advances (u := u) hcap ▸ onlyMe_paced (onlyMe_advance s) .., by rw [me_fin hcap rfl]⟩
  · refine ⟨fun hx => me_fin hcap (me_advance_outside hout hx), fun x hx hl ht => ?_, fun x hx hl ht => ?_,
      fun x hx hl => me_fin hcap (me_advance_slot hout hx hl)⟩
    · rw [me_fin hcap (me_advance_transfer hout hx hl)]
      simp only [ht, if_true]
    · rw [me_fin hcap (me_advance_transfer hout hx hl)]
      simp only [ht, Bool.false_eq_true, if_false]
  · intro l x hcap hin hl hx
    exact me_fin hcap (me_advance_body hin hl hx)

/-! ### Targets and transfers -/

/-- The low k bits of a word cleared. -/
theorem and_not_mask (t : W64) (k : Nat) : t &&& ~~~ BitVec.ofNat 64 (2 ^ k - 1) = BitVec.ofNat 64 (t.toNat / 2 ^ k * 2 ^ k) := by
  rw [← Nat.shiftRight_eq_div_pow, ← Nat.shiftLeft_eq]
  refine BitVec.eq_of_getLsbD_eq fun j hj => ?_
  simp only [BitVec.getLsbD_and, BitVec.getLsbD_not, BitVec.getLsbD_ofNat, Nat.testBit_two_pow_sub_one, Nat.testBit_shiftLeft,
    Nat.testBit_shiftRight, hj, decide_true, Bool.true_and, ge_iff_le]
  by_cases hk : k ≤ j
  · simp [hk, Nat.add_sub_cancel' hk, BitVec.getLsbD]
  · simp [hk, Nat.lt_of_not_le hk]

/-- A target's bits 1:0 are cleared (09 R261). -/
theorem toNat_alignTarget (t : W64) : (alignTarget t).toNat = t.toNat / 4 * 4 := by
  have ht := t.isLt
  rw [show alignTarget t = BitVec.ofNat 64 (t.toNat / 4 * 4) from and_not_mask t 2, BitVec.toNat_ofNat]
  omega

theorem beginXfer_began (s : State) (u : U) (tgt : W64) (taken : Bool) (n : Nat) : Began s (s.beginXfer u tgt taken n) u tgt taken n := by
  by_cases hn : n = 0
  · rw [State.beginXfer, if_pos hn]
    exact ⟨onlyMe_paced (onlyMe_updMe ..) .., by rw [me_paced, State.me_updMe, if_pos hn]; rfl⟩
  · rw [State.beginXfer, if_neg hn]
    exact ⟨onlyMe_paced (onlyMe_updMe ..) .., by rw [me_paced, State.me_updMe, if_neg hn]; rfl⟩

theorem isUniform_iff (p : Lanes) : isUniform p = true ↔ p = 0 ∨ p = BitVec.allOnes 1024 := by
  simp [isUniform]

theorem allOnes_ne_zero : BitVec.allOnes 1024 ≠ 0 := fun h => absurd (congrArg (BitVec.getLsbD · 0) h) (by simp)

theorem execBrGo_uniform {u : U} {s : State} (h : isUniform (s.rdP u.a.toNat) = true) :
    exec (.brGo u) s = .next (s.beginXfer u (s.rdBt u.b.toNat) (s.rdP u.a.toNat != 0) u.c.toNat) := by
  simp [exec, execBrGo, h]

theorem execBrGo_nonUniform {u : U} {s : State} (h : isUniform (s.rdP u.a.toNat) = false) :
    exec (.brGo u) s = .next (s.raise .nonUnif 0 0 0) := by
  simp [exec, execBrGo, h]

/-- Settles O7: a predicate that is uniform begins the transfer; the only other outcome of BR.GO is its trap. -/
theorem branches : Obligations.Branches := by
  refine ⟨fun u s => ⟨⟨_, ?_, _, rfl, wroteB_wrBt ..⟩, ⟨_, toNat_alignTarget _, _, rfl, wroteB_wrBt ..⟩⟩,
    fun u s => ⟨fun hp => ?_, fun hp => ?_, fun hz ho => ?_⟩⟩
  · rw [toNat_alignTarget, shiftLeft_eq_mul_ofNat, BitVec.mul_comm]
    rfl
  · refine ⟨_, execBrGo_uniform ((isUniform_iff _).2 (.inr hp)), ?_⟩
    rw [hp, bne_iff_ne.2 allOnes_ne_zero]
    exact beginXfer_began ..
  · refine ⟨_, execBrGo_uniform ((isUniform_iff _).2 (.inl hp)), ?_⟩
    rw [hp, bne_self_eq_false]
    exact beginXfer_began ..
  · exact execBrGo_nonUniform (Bool.eq_false_iff.2 fun h => ((isUniform_iff _).1 h).elim hz ho)

/-! ### Return addresses -/

section Ras

variable {s s1 s2 : State} {u : U} {tgt ret : W64} {n : Nat}

theorem rasLimit_of_count (h : 65535 ≤ s.me.ras.count) : s.rasLimit = true := by
  simp [State.rasLimit, h]

theorem rasLimit_of_room (hc : s.me.ras.count < 65535) (hl : s.me.ras.chip.length < 16) : s.rasLimit = false := by
  simp [State.rasLimit, Nat.not_le.2 hc, Nat.not_le.2 hl]

/-- A spill that succeeds has found the block it needs. -/
theorem rasLimit_of_rasSpill {v : W64} (hc : s.me.ras.count < 65535) (hs : s.rasSpill s.cu.core s.cu.st v = (s1, .ok ())) :
    s.rasLimit = false := by
  cases hn : s.me.ras.needsBlock with
  | false => simp [State.rasLimit, hc, hn]
  | true =>
    cases hf : s.freeBlock s.myCtx with
    | some b => simp [State.rasLimit, hc, hf]
    | none =>
      have hn' : (s.ag s.cu.core s.cu.st).ras.needsBlock = true := hn
      have hf' : s.freeBlock (s.ag s.cu.core s.cu.st).ctx = none := hf
      simp [State.rasSpill, hn', hf'] at hs

/-- A call whose return address finds room is a push and a transfer. -/
theorem call_pushes (hslots : s.afterSlots n s.nextPc = (s1, .ok ret)) (hlim : s1.rasLimit = false)
    (hroom : (if s1.me.ras.chip.length < 16 then (s1, .ok ()) else s1.rasSpill s1.cu.core s1.cu.st (s1.me.ras.chip.getD 15 0)) = (s2, .ok ())) :
    s.call u tgt n = (s2.pushed ret).beginXfer u tgt true n := by
  simp only [State.call, hslots, hlim, Bool.false_eq_true, if_false, hroom]
  rfl

theorem call_limited (hslots : s.afterSlots n s.nextPc = (s1, .ok ret)) (hlim : s1.rasLimit = true) : s.call u tgt n = s1.spillQ := by
  simp only [State.call, hslots, hlim, if_true]

theorem execRet_onChip {rest : List W64} (h : s.me.ras.chip = ret :: rest) :
    exec (.ret u) s = .next ((s.updMe (fun a => { a with ras := { a.ras with chip := rest } })).beginXfer u ret true u.a.toNat) := by
  simp [exec, execRet, h]

theorem execRet_spilled (h : s.me.ras.chip = []) (hn : s.me.ras.spilled ≠ 0) (hf : s.rasFillBack s.cu.core s.cu.st = (s1, .ok ret)) :
    exec (.ret u) s = .next (s1.beginXfer u ret true u.a.toNat) := by
  simp [exec, execRet, h, hn, hf]

theorem execRet_empty (h : s.me.ras.chip = []) (hn : s.me.ras.spilled = 0) : exec (.ret u) s = .next (s.raise .retEmpty 0 0 0) := by
  simp [exec, execRet, h, hn]

end Ras

/-- Settles O8: both forms of CALL are `State.call`; a spill that succeeds shows that no limit was met. -/
theorem callsAndReturns : Obligations.CallsAndReturns := by
  constructor
  · intro u s s1 ret forms e he hslots
    have hcall : exec e.1 s = .next (s.call u e.2.1 e.2.2) := by
      rcases List.mem_cons.1 he with rfl | he
      · rfl
      · obtain rfl := List.mem_singleton.1 he
        rfl
    refine ⟨fun hc hl => ⟨_, ?_, beginXfer_began ..⟩, fun s2 hc hl hs => ⟨_, ?_, beginXfer_began ..⟩, fun hc => ?_⟩
    · rw [hcall, call_pushes hslots (rasLimit_of_room hc hl) (if_pos hl)]
    · rw [hcall, call_pushes hslots (rasLimit_of_rasSpill hc hs) ((if_neg (by omega)).trans hs)]
    · rw [hcall, call_limited hslots (rasLimit_of_count hc)]
  · exact fun u s => ⟨fun ret rest h => ⟨_, execRet_onChip h, beginXfer_began ..⟩,
      fun s1 ret h hn hf => ⟨_, execRet_spilled h hn hf, beginXfer_began ..⟩, execRet_empty⟩

/-! ### Hardware loops -/

/-- A run of consecutive keys set. -/
theorem SMap.get_foldl_set {α : Type} [DecidableEq α] (d : α) (f : Nat → α) (m : SMap α) (b j : Nat) : ∀ n : Nat,
    SMap.get d ((List.range n).foldl (fun m k => SMap.set d m (b + k) (f k)) m) j = if b ≤ j ∧ j < b + n then f (j - b) else SMap.get d m j
  | 0 => by rw [if_neg (by omega)]; rfl
  | n + 1 => by
    rw [List.range_succ, List.foldl_append, List.foldl_cons, List.foldl_nil, SMap.get_set, SMap.get_foldl_set d f m b j n]
    by_cases hj : j = b + n
    · subst hj
      rw [if_pos rfl, if_pos (by omega), Nat.add_sub_cancel_left]
    · have hiff : (b ≤ j ∧ j < b + n) ↔ (b ≤ j ∧ j < b + (n + 1)) := by omega
      simp only [if_neg hj, hiff]

/-- The stage predicates p48 to p55 at the start of a pass (06 R168). -/
theorem get_stagePreds {d : List W64} (h : loopStages d ≠ 0) (n p : Nat) (m : SMap Lanes) (j : Nat) :
    SMap.get 0 (stagePreds d n p m) j
      = if 48 ≤ j ∧ j < 56 then (if j - 48 < loopStages d ∧ j - 48 ≤ n ∧ n < p + (j - 48) then BitVec.allOnes 1024 else 0)
        else SMap.get 0 m j := by
  rw [stagePreds, if_neg h]
  exact SMap.get_foldl_set 0 (fun k => if k < loopStages d ∧ k ≤ n ∧ n < p + k then BitVec.allOnes 1024 else 0) m 48 j 8

theorem stagePreds_none {d : List W64} (h : loopStages d = 0) (n p : Nat) (m : SMap Lanes) : stagePreds d n p m = m := if_pos h

theorem foldl_mul_pos (l : List Nat) (hl : ∀ x ∈ l, 0 < x) : ∀ m, 0 < m → 0 < l.foldl (· * ·) m := by
  induction l with
  | nil => exact fun _ hm => hm
  | cons x l ih =>
    obtain ⟨hx, hl⟩ := List.forall_mem_cons.1 hl
    exact fun m hm => ih hl _ (Nat.mul_pos hm hx)

/-- A nest has at least one full iteration. -/
theorem loopP_pos (d : List W64) : 0 < loopP d :=
  foldl_mul_pos _ (by simp) 1 Nat.one_pos

section Loop

variable {s s1 : State} {u : U} {l : LoopSt} {d : List W64} {body : List BodyUnit} {after : W64}

theorem execLoopCfg_next {bs : List Byte} (h : s.lineRead ⟨0, none⟩ (BitVec.ofNat 64 ((s.sA u).toNat / 64 * 64)) 64 = (s1, .ok bs)) :
    exec (.loopCfg u) s = .next ((s1.updMe (fun a => { a with cfg := some (words64 8 bs) })).fin u) := by
  have hva : s.sA u &&& ~~~ (63 : W64) = BitVec.ofNat 64 ((s.sA u).toNat / 64 * 64) := and_not_mask _ 6
  simp only [exec, execLoopCfg, hva, h]

theorem execLoopGo_illegal (h : s.me.loop ≠ none ∨ s.me.cfg = none ∨ ∃ d, s.me.cfg = some d ∧ loopOk d = false) :
    exec (.loopGo u) s = .next s.illegal := by
  cases hl : s.me.loop with
  | some l => simp [exec, execLoopGo, hl]
  | none =>
    rcases h with h | h | ⟨d, hd, hok⟩
    · exact absurd hl h
    · simp [exec, execLoopGo, hl, h]
    · simp [exec, execLoopGo, hl, hd, hok]

/-- The state in which a nest has been started (09 R272). -/
def State.nestStarted (s : State) (u : U) (d : List W64) (x : BodyUnit) (body : List BodyUnit) (after : W64) : State :=
  (s.updMe (fun a =>
    { a with loop := some ⟨[0, 0, 0, 0, 0, 0], 0, loopP d, false, x :: body, 0, after⟩, pc := x.pc, xfer := none,
             regs := { a.regs with p := stagePreds d 0 (loopP d) a.regs.p } })).paced u.g.toNat 0

theorem execLoopGo_starts {x : BodyUnit} (hl : s.me.loop = none) (hd : s.me.cfg = some d) (hok : loopOk d = true)
    (hb : s.captureBody (loopLen d) s.nextPc = (s1, .ok (x :: body, after))) :
    exec (.loopGo u) s = .next (s1.nestStarted u d x body after) := by
  simp [exec, execLoopGo, hl, hd, hok, hb, State.nestStarted]

theorem me_nestStarted (s : State) (u : U) (d : List W64) (x : BodyUnit) (body : List BodyUnit) (after : W64) :
    (s.nestStarted u d x body after).me
      = { s.me with
          loop := some ⟨[0, 0, 0, 0, 0, 0], 0, loopP d, false, x :: body, 0, after⟩, pc := x.pc, xfer := none,
          regs := { s.me.regs with p := stagePreds d 0 (loopP d) s.me.regs.p }, ready := s.cycle + 1 + u.g.toNat } := by
  rw [State.nestStarted, me_paced, State.me_updMe]
  rfl

/-- Pass 0 has stage 0 alone: p48 is all-true, the other stage predicates false (06 R168). -/
theorem preg_nestStarted (s : State) (u : U) (d : List W64) (x : BodyUnit) (body : List BodyUnit) (after : W64) (n : Nat) :
    (s.nestStarted u d x body after).me.preg n
      = if loopStages d ≠ 0 ∧ 48 ≤ n ∧ n < 56 then (if n = 48 then BitVec.allOnes 1024 else 0) else s.me.preg n := by
  rw [me_nestStarted]
  simp only [Agent.preg]
  by_cases hst : loopStages d = 0
  · rw [stagePreds_none hst, if_neg fun h : loopStages d ≠ 0 ∧ _ => h.1 hst]
  · rw [get_stagePreds hst]
    by_cases hn : 48 ≤ n ∧ n < 56
    · have hp := loopP_pos d
      have hstage : (n - 48 < loopStages d ∧ n - 48 ≤ 0 ∧ 0 < loopP d + (n - 48)) ↔ n = 48 := by omega
      simp only [if_neg (show n ≠ 0 by omega), if_pos hn, hstage, if_pos (And.intro hst hn)]
    · rw [if_neg hn, if_neg fun h : loopStages d ≠ 0 ∧ _ => hn h.2]

theorem execLoopBrk_outside (h : s.me.loop = none) : exec (.loopBrk u) s = .next s.illegal := by
  simp [exec, execLoopBrk, h]

theorem execLoopBrk_nonUniform (h : s.me.loop = some l) (hp : isUniform (s.rdP u.a.toNat) = false) :
    exec (.loopBrk u) s = .next (s.raise .nonUnif 0 0 0) := by
  simp [exec, execLoopBrk, h, hp]

theorem execLoopBrk_breaks (h : s.me.loop = some l) (hp : s.rdP u.a.toNat = BitVec.allOnes 1024) (hn : l.n < l.p) :
    exec (.loopBrk u) s = .next ((s.updMe (fun a => { a with loop := some { l with p := l.n + 1, brk := true } })).fin u) := by
  simp [exec, execLoopBrk, h, hp, isUniform, hn]

theorem execLoopBrk_idle (h : s.me.loop = some l) (hp : s.rdP u.a.toNat = 0 ∨ s.rdP u.a.toNat = BitVec.allOnes 1024 ∧ l.p ≤ l.n) :
    exec (.loopBrk u) s = .next (s.fin u) := by
  rcases hp with hp | ⟨hp, hn⟩
  · simp [exec, execLoopBrk, h, hp, isUniform]
  · simp [exec, execLoopBrk, h, hp, isUniform, Nat.not_lt.2 hn]

end Loop

/-- Settles O9: each outcome by the lemma of its conditions, the stage predicates by `preg_nestStarted`. -/
theorem loopInstructions : Obligations.LoopInstructions := by
  refine ⟨fun u s => ⟨fun s1 bs h => ?_, fun d s1 x body after hl hd hok hb => ?_, fun l h hp hn => ?_, fun l h hp => ?_⟩,
    fun u s => ⟨execLoopGo_illegal, execLoopBrk_outside, fun h hz ho => ?_⟩⟩
  · exact ⟨_, execLoopCfg_next h, onlyMe_updMe .., State.me_updMe ..⟩
  · have hme := me_nestStarted s1 u d x body after
    refine ⟨_, execLoopGo_starts hl hd hok hb, onlyMe_paced (onlyMe_updMe ..) .., by rw [hme], by rw [hme], by rw [hme], by rw [hme],
      fun n => by rw [hme, Agent.sreg, Agent.sreg], fun k hk hst => ?_, fun n hn => ?_⟩
    · rw [preg_nestStarted, if_pos ⟨hst, by omega, by omega⟩]
      simp only [Nat.add_eq_left]
    · rw [preg_nestStarted, if_neg (by omega)]
  · exact ⟨_, execLoopBrk_breaks h hp hn, onlyMe_updMe .., State.me_updMe ..⟩
  · exact ⟨_, execLoopBrk_idle h hp, rfl⟩
  · obtain ⟨l, hl⟩ := Option.ne_none_iff_exists'.1 h
    exact execLoopBrk_nonUniform hl (Bool.eq_false_iff.2 fun hu => ((isUniform_iff _).1 hu).elim hz ho)

end Sys2Proof.Machine
end
